-- ==== Sys2Proof/Word.lean ====
section
/-! DEFINITION. The word types and the two sparse containers that State is built from. -/

namespace Sys2Proof

/-- Eight bits, the smallest unit of memory (R9). -/
abbrev Byte := BitVec 8
/-- A vector register of one lane, or a parcel of an instruction (R52, R87). -/
abbrev Word := BitVec 32
/-- A uniform register, an address, a packet field (R52, R97). -/
abbrev DWord := BitVec 64

/-- A map from numbers to values, its keys strictly rising. -/
abbrev AMap (α : Type) := List (Nat × α)

/-- Words by address or index, keys strictly rising; an unlisted word reads as zero and no listed word is zero. -/
abbrev Sparse (w : Nat) := AMap (BitVec w)

/-- The numbers `a, a+1, …, a+n-1`. -/
def span (a : Nat) : Nat → List Nat
  | 0 => []
  | n + 1 => a :: span (a + 1) n

end Sys2Proof
end

