-- ==== Sys2Proof/Config.lean ====
section
/-! DEFINITION. What the part fixes and the spec does not number, and the free values: constants without a body, so no
proof can see what they are. -/

namespace Sys2Proof.Config

/-- Where host memory begins in State.mem (R5, R428): device physical addresses lie below it. -/
def hostBase : Nat := 2 ^ 52

/-- End of HBM4E (R428). -/
def hbmEnd : Nat := 0x00C000000000

/-- LPDDR-6 second tier (R428). -/
def lpddrBase : Nat := 0x020000000000
def lpddrEnd : Nat := 0x040000000000

/-- The Gaffer notify pages (R404, R428). -/
def notifyBase : Nat := 0x000FFF0000000000
def notifyEnd : Nat := 0x000FFF0000040000

/-- Nominal core clock in MHz (R6). -/
def nominalMhz : Nat := 2400

/-- The time of a promise, by the free counter (R200: an estimate). Log 13. -/
opaque promiseWhen : Nat → BitVec 60

/-- Measured rate of an array, by the free counter (R225). Log 13. -/
opaque arrayRate : Nat → BitVec 32

/-- The pseudo-channel of its stack that a line lies on (R428: not architectural). Log 18. -/
opaque pseudoChannel : Nat → BitVec 5

/-- The secret seeds and the public seed of an identity key, by key, seed and byte (R421). Log 14. -/
opaque secret : (key n i : Nat) → Byte

/-- SHAKE256 digest of the vendor's public key, fused at manufacture (R418, R420). Log 14. -/
opaque vendorDigest : Nat

/-- Identity words of the part that manufacture sets (R422). Log 10. -/
opaque serial : Nat → DWord

/-- Digests of the boot ROM and of the Cullet image, fused at manufacture (R418, R421). Log 10. -/
opaque romDigest : Nat
opaque culletDigest : Nat

/-- The detail code of a card or chain refused for a field of its own, by the free counter (R205 names none). Log 13. -/
opaque cardDetail : Nat → BitVec 16

/-- What a read of a doorbell gives, by the free counter (R309 and R345 give none). Log 13. -/
opaque doorbell : Nat → DWord

/-- The key slot that an error record names for an image of no owner's key, by the free counter (R417 names none). Log 13. -/
opaque keySlot : Nat → BitVec 16

/-- An INT32 sum written in a format for which R230 states no conversion, by format code and sum. Log 13. -/
opaque intOutput : (fmt : Nat) → BitVec 32 → Nat

/-- Where the search for the id of a new socket begins, by the free counter (R406 names no id). Log 13. -/
opaque socketId : Nat → BitVec 16

/-- A byte that the part reads for itself at a virtual address it cannot translate, by the free counter. Log 20. -/
opaque unread : (free va : Nat) → Byte

/-- Set of the L2 cache that a line lies in (R254 names no rule). Log 17. -/
opaque l2Set : Nat → BitVec 15

/-- Readings of sensors, by the free counter (R425). Log 13. -/
opaque sensor : Nat → BitVec 32

end Sys2Proof.Config
end

