-- ==== Sys2Proof/Syntax.lean ====
section
/-! DEFINITION. The instructions: one constructor for each row of spec/opcode_table.json.
F-form instructions carry the fields of R90 with their names resolved (R93 to R96, R103); the D-form word carries
its two slots (R99); the other rows are the part's own steps and the host's actions, with what each names. -/

namespace Sys2Proof

/-- Element types, in the order of their TY codes (R95). -/
inductive Ty
  | b32 | i8 | ui8 | i16 | ui16 | i32 | ui32 | i64 | ui64 | f16 | bf16 | f32 | f64 | e4m3 | e5m2 | packed
  deriving DecidableEq, Repr

/-- A ten-bit register name (R93); `reserved` holds the value of a reserved one. -/
inductive Name
  | v (n : Nat) | s (n : Nat) | m (n : Nat) | c (n : Nat) | zero | one | reserved (n : Nat)
  deriving DecidableEq, Repr

/-- A lane pattern (R96). -/
inductive Pattern
  | rot (n : Nat) | rev (n : Nat) | bc (n : Nat) | pm (n : Nat)
  deriving DecidableEq, Repr

/-- Operand B by its kind BK (R90): a register, a register read through a lane pattern, an immediate. -/
inductive BOperand
  | reg (n : Name) | pat (n : Name) (p : Pattern) | imm (i : BitVec 16)
  deriving DecidableEq, Repr

/-- Rounding modes, RM codes 000 to 110 (R70, R103). -/
inductive RM
  | cvm | rne | rtz | rdn | rup | rna | sr
  deriving DecidableEq, Repr

/-- Saturation control, SAT codes 00 to 10 (R103). -/
inductive SatCtl
  | cvm | sat | wrap
  deriving DecidableEq, Repr

/-- The P prefix (R103). -/
structure Pfx where
  mask : Nat
  z   : Bool
  rm  : RM
  c   : Name
  sat  : SatCtl
  deriving DecidableEq, Repr

/-- The fields of an F-form word and its optional prefix (R90, R103). `fn` and `x` are FN and X. -/
structure FForm where
  sp  : Bool
  ty  : Ty
  fn  : Nat
  x   : Nat
  d   : Name
  a   : Name
  b   : BOperand
  pfx : Option Pfx
  deriving DecidableEq, Repr

/-- Element types of a D-form slot, in the order of their TY3 codes (R99). -/
inductive Ty3
  | i32 | ui32 | f32 | f16 | bf16 | i16 | i8 | b32
  deriving DecidableEq, Repr

/-- Dual opcodes 0x00 to 0x2F in order (R132). -/
inductive DOp
  | nop | iadd | isub | imul | imin | imax | iabs | ineg | and | or | xor | andn | shl | shr | sar | rot
  | mov | lil | brev | icmpEq | icmpNe | icmpLt | icmpLe | icmpLtu | icmpLeu | sel
  | fadd | fsub | fmul | fmin | fmax | fabs | fneg | fcmpEq | fcmpLt | fcmpLe
  | cvtF32F16 | cvtF32Bf16 | cvtF16F32 | cvtBf16F32
  | uadd | usub | uand | uor | umov | ulil | lds | sts
  deriving DecidableEq, Repr

/-- Source B of a slot: a nine-bit name or IMM9 (R99, R100). -/
inductive DSrc
  | reg (n : Name) | imm (i : BitVec 9)
  deriving DecidableEq, Repr

/-- One slot of a D-form word (R99). -/
structure DSlot where
  op : DOp
  a  : Name
  b  : DSrc
  ty : Ty3
  deriving DecidableEq, Repr

/-- A group by its team's number and its index in the team. -/
structure GRef where
  team : Nat
  grp  : Nat
  deriving DecidableEq, Repr

/-- What a memory error struck (R417); `store` is the version store in HBM, where a line names the one versioned (R335, R341). -/
inductive MemErr
  | hbm | lpddr | sram | store
  deriving DecidableEq, Repr

/-- What a cold reset meets: the elements that fail self-test, each with the number of its test (R411, R412), and the OWNER strap
(R420). -/
structure PowerOn where
  failed : List (Word × Nat)
  strap  : Bool
  deriving DecidableEq, Repr

/-- One constructor for each row of spec/opcode_table.json. -/
inductive Instr
  /-- OP 0x00, R123. -/
  | nop (f : FForm)
  /-- OP 0x01, R138. -/
  | iadd (f : FForm)
  /-- OP 0x02, R138. -/
  | isub (f : FForm)
  /-- OP 0x03, R138. -/
  | imul (f : FForm)
  /-- OP 0x04, R138. -/
  | imulh (f : FForm)
  /-- OP 0x05, R138. -/
  | imad (f : FForm)
  /-- OP 0x06, R139. -/
  | idiv (f : FForm)
  /-- OP 0x07, R139. -/
  | irem (f : FForm)
  /-- OP 0x08, R138. -/
  | imin (f : FForm)
  /-- OP 0x09, R138. -/
  | imax (f : FForm)
  /-- OP 0x0A, R138. -/
  | iabs (f : FForm)
  /-- OP 0x0B, R138. -/
  | ineg (f : FForm)
  /-- OP 0x0C, R140. -/
  | and (f : FForm)
  /-- OP 0x0D, R140. -/
  | or (f : FForm)
  /-- OP 0x0E, R140. -/
  | xor (f : FForm)
  /-- OP 0x0F, R140. -/
  | andn (f : FForm)
  /-- OP 0x10, R140. -/
  | not (f : FForm)
  /-- OP 0x11, R141. -/
  | shl (f : FForm)
  /-- OP 0x12, R141. -/
  | shr (f : FForm)
  /-- OP 0x13, R141. -/
  | sar (f : FForm)
  /-- OP 0x14, R141. -/
  | rot (f : FForm)
  /-- OP 0x15, R142. -/
  | bfe (f : FForm)
  /-- OP 0x16, R142. -/
  | bfi (f : FForm)
  /-- OP 0x17, R143. -/
  | popc (f : FForm)
  /-- OP 0x18, R143. -/
  | clz (f : FForm)
  /-- OP 0x19, R143. -/
  | brev (f : FForm)
  /-- OP 0x1A, R144. -/
  | icmp (f : FForm)
  /-- OP 0x1B, R145. -/
  | sel (f : FForm)
  /-- OP 0x1C, R138. -/
  | iadds (f : FForm)
  /-- OP 0x1D, R138. -/
  | isubs (f : FForm)
  /-- OP 0x1E, R146. -/
  | lea (f : FForm)
  /-- OP 0x1F, R147. -/
  | mov (f : FForm)
  /-- OP 0x20, R147. -/
  | lil (f : FForm)
  /-- OP 0x21, R147. -/
  | lih (f : FForm)
  /-- OP 0x22, R149. -/
  | vote (f : FForm)
  /-- OP 0x23, R150. -/
  | shfl (f : FForm)
  /-- OP 0x24, R151. -/
  | redu (f : FForm)
  /-- OP 0x25, R152. -/
  | scan (f : FForm)
  /-- OP 0x26, R153. -/
  | matchEq (f : FForm)
  /-- OP 0x27, R154. -/
  | elect (f : FForm)
  /-- OP 0x28, R155. -/
  | prmt (f : FForm)
  /-- OP 0x29, R156. -/
  | idot4 (f : FForm)
  /-- OP 0x2A, R156. -/
  | idot8 (f : FForm)
  /-- OP 0x30, R157. -/
  | fadd (f : FForm)
  /-- OP 0x31, R157. -/
  | fsub (f : FForm)
  /-- OP 0x32, R157. -/
  | fmul (f : FForm)
  /-- OP 0x33, R157. -/
  | fma (f : FForm)
  /-- OP 0x34, R158. -/
  | fmin (f : FForm)
  /-- OP 0x35, R158. -/
  | fmax (f : FForm)
  /-- OP 0x36, R158. -/
  | fabs (f : FForm)
  /-- OP 0x37, R158. -/
  | fneg (f : FForm)
  /-- OP 0x38, R158. -/
  | fsgn (f : FForm)
  /-- OP 0x39, R159. -/
  | fcmp (f : FForm)
  /-- OP 0x3A, R157. -/
  | frcp (f : FForm)
  /-- OP 0x3B, R157. -/
  | frsq (f : FForm)
  /-- OP 0x3C, R157. -/
  | fsqrt (f : FForm)
  /-- OP 0x3D, R157. -/
  | fdiv (f : FForm)
  /-- OP 0x3E, R160. -/
  | fexp2 (f : FForm)
  /-- OP 0x3F, R160. -/
  | flog2 (f : FForm)
  /-- OP 0x40, R160. -/
  | fsin (f : FForm)
  /-- OP 0x41, R160. -/
  | fcos (f : FForm)
  /-- OP 0x42, R160. -/
  | ftanh (f : FForm)
  /-- OP 0x43, R160. -/
  | fsigm (f : FForm)
  /-- OP 0x44, R161. -/
  | fclas (f : FForm)
  /-- OP 0x45, R162. -/
  | frnd (f : FForm)
  /-- OP 0x46, R157. -/
  | fscal (f : FForm)
  /-- OP 0x47, R163. -/
  | fdot2 (f : FForm)
  /-- OP 0x48, R163. -/
  | fdot4 (f : FForm)
  /-- OP 0x49, R164. -/
  | smrg (f : FForm)
  /-- OP 0x50, R165. -/
  | cvt (f : FForm)
  /-- OP 0x51, R166. -/
  | cvtfi (f : FForm)
  /-- OP 0x52, R167. -/
  | cvtif (f : FForm)
  /-- OP 0x53, R168. -/
  | cvtii (f : FForm)
  /-- OP 0x54, R169. -/
  | pack (f : FForm)
  /-- OP 0x55, R170. -/
  | unpk (f : FForm)
  /-- OP 0x56, R171. -/
  | qnt (f : FForm)
  /-- OP 0x57, R172. -/
  | dqnt (f : FForm)
  /-- OP 0x58, R175. -/
  | uadd (f : FForm)
  /-- OP 0x59, R175. -/
  | usub (f : FForm)
  /-- OP 0x5A, R175. -/
  | umul (f : FForm)
  /-- OP 0x5B, R175. -/
  | uand (f : FForm)
  /-- OP 0x5C, R175. -/
  | uor (f : FForm)
  /-- OP 0x5D, R175. -/
  | uxor (f : FForm)
  /-- OP 0x5E, R175. -/
  | ushl (f : FForm)
  /-- OP 0x5F, R175. -/
  | ushr (f : FForm)
  /-- OP 0x60, R175. -/
  | ucmp (f : FForm)
  /-- OP 0x61, R175. -/
  | usel (f : FForm)
  /-- OP 0x62, R175. -/
  | ulil (f : FForm)
  /-- OP 0x63, R175. -/
  | ulih (f : FForm)
  /-- OP 0x64, R175. -/
  | umin (f : FForm)
  /-- OP 0x65, R175. -/
  | umax (f : FForm)
  /-- OP 0x66, R176. -/
  | upick (f : FForm)
  /-- OP 0x67, R175. -/
  | ulea (f : FForm)
  /-- OP 0x68, R175. -/
  | ufadd (f : FForm)
  /-- OP 0x69, R175. -/
  | ufmul (f : FForm)
  /-- OP 0x6A, R175. -/
  | ufma (f : FForm)
  /-- OP 0x6B, R175. -/
  | umov (f : FForm)
  /-- OP 0x6C, R175. -/
  | ucvt (f : FForm)
  /-- OP 0x70, R178. -/
  | bra (f : FForm)
  /-- OP 0x71, R178. -/
  | bru (f : FForm)
  /-- OP 0x72, R178. -/
  | jmpi (f : FForm)
  /-- OP 0x73, R179. -/
  | call (f : FForm)
  /-- OP 0x74, R179. -/
  | calli (f : FForm)
  /-- OP 0x75, R180. -/
  | ret (f : FForm)
  /-- OP 0x76, R30. -/
  | join (f : FForm)
  /-- OP 0x77, R181. -/
  | exit (f : FForm)
  /-- OP 0x78, R182. -/
  | bar (f : FForm)
  /-- OP 0x79, R182. -/
  | cbar (f : FForm)
  /-- OP 0x7A, R183. -/
  | waitseq (f : FForm)
  /-- OP 0x7B, R184. -/
  | sleep (f : FForm)
  /-- OP 0x7C, R34. -/
  | pause (f : FForm)
  /-- OP 0x7D, R185. -/
  | setpri (f : FForm)
  /-- OP 0x7E, R185. -/
  | yield (f : FForm)
  /-- OP 0x7F, R178. -/
  | loop (f : FForm)
  /-- OP 0x80, R187. -/
  | ld (f : FForm)
  /-- OP 0x81, R187. -/
  | st (f : FForm)
  /-- OP 0x82, R188. -/
  | lds (f : FForm)
  /-- OP 0x83, R188. -/
  | sts (f : FForm)
  /-- OP 0x84, R189. -/
  | ldk (f : FForm)
  /-- OP 0x85, R190. -/
  | ldt (f : FForm)
  /-- OP 0x86, R190. -/
  | stt (f : FForm)
  /-- OP 0x87, R191. -/
  | atom (f : FForm)
  /-- OP 0x89, R191. -/
  | atoms (f : FForm)
  /-- OP 0x88, R192. -/
  | cas (f : FForm)
  /-- OP 0x8A, R192. -/
  | cass (f : FForm)
  /-- OP 0x8B, R193. -/
  | lda (f : FForm)
  /-- OP 0x8C, R193. -/
  | str (f : FForm)
  /-- OP 0x8D, R194. -/
  | fence (f : FForm)
  /-- OP 0x8E, R195. -/
  | pref (f : FForm)
  /-- OP 0x8F, R195. -/
  | cwb (f : FForm)
  /-- OP 0x90, R195. -/
  | cinv (f : FForm)
  /-- OP 0x91 FN 0, R197. -/
  | bobjInit (f : FForm)
  /-- OP 0x91 FN 1, R197. -/
  | bobjArrive (f : FForm)
  /-- OP 0x91 FN 2, R197. -/
  | bobjWait (f : FForm)
  /-- OP 0x92, R198. -/
  | acp (f : FForm)
  /-- OP 0x93, R199. -/
  | acwait (f : FForm)
  /-- OP 0x94, R199. -/
  | accnt (f : FForm)
  /-- OP 0x95, R203. -/
  | rngi (f : FForm)
  /-- OP 0x96, R203. -/
  | awf (f : FForm)
  /-- OP 0x97, R203. -/
  | rls (f : FForm)
  /-- OP 0x98, R205. -/
  | enq (f : FForm)
  /-- OP 0x99, R208. -/
  | engst (f : FForm)
  /-- OP 0xB0, R209. -/
  | arb (f : FForm)
  /-- OP 0xB1, R213. -/
  | arc (f : FForm)
  /-- OP 0xB2, R215. -/
  | ara (f : FForm)
  /-- OP 0xB3, R215. -/
  | arst (f : FForm)
  /-- OP 0xA0, R221. -/
  | mma (f : FForm)
  /-- OP 0xA1, R223. -/
  | accld (f : FForm)
  /-- OP 0xA2, R223. -/
  | accst (f : FForm)
  /-- OP 0xA3, R223. -/
  | accz (f : FForm)
  /-- OP 0xA4, R223. -/
  | accrd (f : FForm)
  /-- OP 0xA5, R223. -/
  | accwr (f : FForm)
  /-- OP 0xA6, R225. -/
  | mtok (f : FForm)
  /-- OP 0xA7, R225. -/
  | mxq (f : FForm)
  /-- OP 0xB8, R233. -/
  | lgfa (f : FForm)
  /-- OP 0xB9, R235. -/
  | lgfr (f : FForm)
  /-- OP 0xBA, R236. -/
  | samp (f : FForm)
  /-- OP 0xBB, R237. -/
  | toks (f : FForm)
  /-- OP 0xBC, R238. -/
  | seqq (f : FForm)
  /-- OP 0xBD, R239. -/
  | pfxl (f : FForm)
  /-- OP 0xBE, R239. -/
  | pfxi (f : FForm)
  /-- OP 0xC0, R240. -/
  | mfs (f : FForm)
  /-- OP 0xC1, R240. -/
  | mts (f : FForm)
  /-- OP 0xC2, R241. -/
  | trap (f : FForm)
  /-- OP 0xC3, R241. -/
  | tret (f : FForm)
  /-- OP 0xC4, R242. -/
  | spill (f : FForm)
  /-- OP 0xC5, R242. -/
  | fill (f : FForm)
  /-- OP 0xC6, R241. -/
  | uiret (f : FForm)
  /-- OP 0xC7, R241. -/
  | bkpt (f : FForm)
  /-- OP 0xC8, R243. -/
  | tlbi (f : FForm)
  /-- OP 0xC9, R243. -/
  | ctxs (f : FForm)
  /-- OP 0xCA, R243. -/
  | ctxr (f : FForm)
  /-- OP 0xCB, R243. -/
  | halt (f : FForm)
  /-- OP 0xCC, R244. -/
  | shid (f : FForm)
  /-- OP 0xCD, R244. -/
  | shdef (f : FForm)
  /-- OP 0xCE, R244. -/
  | shrel (f : FForm)
  /-- OP 0xCF FN 0, R245. -/
  | octlDecl (f : FForm)
  /-- OP 0xCF FN 1, R245. -/
  | octlUndecl (f : FForm)
  /-- OP 0xCF FN 2, R245. -/
  | octlFlush (f : FForm)
  /-- OP 0xCF FN 3, R245. -/
  | octlQuery (f : FForm)
  /-- OP 0xD0, R246. -/
  | verq (f : FForm)
  /-- The D-form word, slots 0 and 1 (R99, R102). -/
  | dual (p q : DSlot)
  /-- R30: The last named lane arrives and the waiting lanes proceed as one gang. -/
  | joinComplete (g : GRef) (lane : Nat)
  /-- R182: Every group of the team or cluster has arrived and all waiting lanes proceed with ordering. -/
  | barrierComplete (team : Nat) (cluster : Bool) (n : Nat)
  /-- R183: A lane's completion-word read satisfies its condition and the lane proceeds with an acquire. -/
  | waitseqSatisfied (g : GRef) (lane : Nat)
  /-- R184: The deadline is reached, the lanes become ready, and for a promise the tag counter is checked. -/
  | sleepWake (g : GRef) (lane : Nat)
  /-- R34: The 32-cycle pause runs out and the lanes are unpaused. -/
  | pauseExpiry (g : GRef)
  /-- R197: The object's phase has moved on and the waiting gang proceeds with an acquire. -/
  | bobjWaitPass (g : GRef) (lane : Nat)
  /-- R198: All bytes of a per-lane copy are written and its tag counter is decremented. -/
  | copyLand (g : GRef) (k : Nat)
  /-- R199: The awaited counters are zero and the gang proceeds with the copies visible. -/
  | acwaitProceed (g : GRef) (lane : Nat)
  /-- R203: AP differs from WP and the waiting gang takes the slot with an acquire. -/
  | awfSlotTaken (g : GRef) (lane : Nat)
  /-- R216: The array finishes a tile operation and the tile's CMP advances. -/
  | tileOpComplete (k : Nat)
  /-- R33: A ready group or gang has not issued for 64 cycles or issues and becomes aged. -/
  | groupAged (g : GRef)
  /-- R19: The dispatcher admits a team or cluster once its resources are free on a core. -/
  | teamAdmit (launch : Nat) (die : Nat) (core : Nat)
  /-- R38: No group on a core issues for N cycles, so the longest-blocked team is swapped out for a waiting one. -/
  | forwardProgressSwap (die : Nat) (core : Nat)
  /-- R45: Groups not yielded 2^20 cycles after a pre-emption request stop with FLT_SAFEPOINT_TIMEOUT. -/
  | safepointTimeout (ctx : Nat)
  /-- R181: An exited group's stores are acknowledged and its tag counters reach zero, so it ends and may end its team. -/
  | groupEnd (g : GRef)
  /-- R362: A store-buffer or write-combining entry drains, taking a deferred-write fault if its fresh translation fails. -/
  | storeDrain (g : GRef) (k : Nat) (combining : Bool)
  /-- R266: A store acknowledgement arrives and the context's unacknowledged count falls. -/
  | storeAck (g : GRef)
  /-- R352: The host's ATS completion arrives and the translation is cached or a page request follows. -/
  | atsTranslationCompletion (ctx : Nat) (page host : Nat) (r w : Bool)
  /-- R352: The host answers a page request and stalled Checks restart or fault. -/
  | priResponse (ctx : Nat) (page : Nat) (write : Bool) (success : Bool)
  /-- R353: An ATS Invalidate Request drops a translation once accesses using it complete. -/
  | atsInvalidate (ctx : Nat) (page : Nat)
  /-- R353: The last access using an invalidated translation completes and the completion is sent. -/
  | invalidationComplete (ctx : Nat) (page : Nat)
  /-- R207: An engine takes the next card of a chain and checks it. -/
  | engineTakeCard (chain : Nat)
  /-- R285: An engine resolves a segment's translations and gains exclusive ownership of its destination lines. -/
  | segmentIssue (chain : Nat)
  /-- R286: An engine finishes writing a recalled owned line and passes it on. -/
  | engineRecallAnswer (chain : Nat) (line : Nat)
  /-- R203: A filling engine finds a free slot, writes it and releases WP. -/
  | ringFill (chain : Nat)
  /-- R205: A job completes and the engine release-stores the chain's completion word. -/
  | jobCompletion (chain : Nat)
  /-- R228: The array runs one iteration of a matrix job card's loop nest, with epilogue at the last K-step. -/
  | matrixIteration (chain : Nat)
  /-- R231: A card being pre-empted ends its iteration, gives up lines and stores its cursor and CSTATE 1. -/
  | lehrPoint (chain : Nat)
  /-- R282: A home serves a read for a shared copy, recalling from writers and granting the line. -/
  | sharedReadRequest (k : Nat)
  /-- R282: A home serves an ownership request, recalling from every other sharer. -/
  | ownershipRequest (k : Nat)
  /-- R282: A home serves a write at home, recalling from every sharer. -/
  | writeAtHome (k : Nat)
  /-- R284: A recall acknowledgement arrives and sets or holds the sharer's count. -/
  | onAck (k : Nat)
  /-- R284: An eviction notice arrives, decrementing or resolving held counts. -/
  | onNotice (k : Nat)
  /-- R373: A host invalidating snoop is answered from the half's state at once. -/
  | snpinv (half : Nat)
  /-- R373: A host data snoop is answered from the half's state at once. -/
  | snpdata (half : Nat)
  /-- R373: A host current-value snoop is answered from the half's state at once. -/
  | snpcur (half : Nat)
  /-- R293: A host CXL.mem access to device memory is served at the line's home. -/
  | hostCxlMemRequest (half : Nat) (write : Bool) (data : List Byte)
  /-- R290: A DRAINING scratchpad region's inbound counter reaches zero and zeroing begins. -/
  | scratchDrained (team : Nat)
  /-- R290: Zeroing of a scratchpad region ends and it becomes FREE. -/
  | scratchZeroed (team : Nat)
  /-- R291: 64,000 ticks after a team's end, copies still counted into its region are cancelled. -/
  | scratchDrainTimeout (team : Nat)
  /-- R366: A pending user-level interrupt is delivered to one gang at an issue or wait. -/
  | uiDelivery (g : GRef) (lane : Nat)
  /-- R309: A write to a QCP thread's doorbell publishes a new ring position. -/
  | doorbell (thread : Nat) (pos : DWord)
  /-- R317: The 1,024-tick re-read of a packet header that has not yet arrived. -/
  | packetReread (thread : Nat)
  /-- R321: Issues a launch packet: checks the descriptor, copies arguments and passes the launch to the dispatcher, or confirms or refutes a prediction. -/
  | launch (thread : Nat)
  /-- R322: Issues a WAIT packet that blocks the queue until its word is reached. -/
  | wait (thread : Nat)
  /-- R322: A WAIT packet's word read satisfies it and later packets may issue. -/
  | queueWaitSatisfied (thread : Nat)
  /-- R322: After earlier packets complete, performs a store, add or max on a word as a release. -/
  | signal (thread : Nat)
  /-- R323: Runs a linear copy card on an engine for the queue's context. -/
  | copy (thread : Nat)
  /-- R323: Holds later packets until every earlier packet completes and discards predictions. -/
  | barrier (thread : Nat)
  /-- R323: Replaces the queue's configured run-ahead depth. -/
  | loopctlSetdepth (thread : Nat)
  /-- R339: Discards outstanding predictions and pauses the program. -/
  | loopctlDrop (thread : Nat)
  /-- R340: Discards predictions and the parison program. -/
  | loopctlForget (thread : Nat)
  /-- R323: Skips a padding packet, consuming its SEQ. -/
  | nopad (thread : Nat)
  /-- R327: A packet completes, releases its intervals and writes its completion word and MSI-X in SEQ order. -/
  | packetCompletion (thread : Nat) (seq : DWord)
  /-- R334: The Parison starts a predicted launch once depth, quota and intervals allow. -/
  | predictionStart (thread : Nat)
  /-- R338: A confirmed prediction's versions become committed once earlier hazarded launches complete. -/
  | relabel (thread : Nat)
  /-- R379: Discarded teams and resources are released and the triggering packet enters the interval table. -/
  | discardDone (thread : Nat)
  /-- R339: IDLE units pass with predictions outstanding and the queue enters PAUSED. -/
  | idleTimeout (thread : Nat)
  /-- R313: QCTL START begins issuing at the packet at RPTR. -/
  | start (thread : Nat)
  /-- R313: QCTL STOP stops issue and discards predictions. -/
  | stop (thread : Nat)
  /-- R313: QCTL UNMAP discards predictions and drains the queue to UNMAPPED. -/
  | unmap (thread : Nat)
  /-- R313: QCTL FORGET discards predictions and the parison program. -/
  | forget (thread : Nat)
  /-- R311: A QMAP write with EN = 1 reads the descriptor and maps the queue. -/
  | queueMap (thread : Nat) (value : DWord)
  /-- R315: Every issued packet of an unmapping queue has completed and the thread becomes UNMAPPED. -/
  | drainingEnd (thread : Nat)
  /-- R348: A CREC write of EN = 1 reads, checks and activates the context record. -/
  | contextActivate (ctx : Nat)
  /-- R349: A CREC write of EN = 0 deactivates an idle context. -/
  | contextDeactivate (ctx : Nat)
  /-- R368: Sets YREQ in every resident group of the context and begins saving its teams. -/
  | preempt (ctx : Nat)
  /-- R368: A yielded team, drained cards and scratchpad included, is written to the save pool and leaves its core. -/
  | teamSave (team : Nat)
  /-- R368: Re-admits every saved team of the context and restores it. -/
  | resume (ctx : Nat)
  /-- R363: Ends every team, chain and prediction of the context and faults its queues. -/
  | kill (ctx : Nat)
  /-- R363: Ends a stop and restarts the stopped group, chain or job. -/
  | gresume (ctx : Nat) (stopid : Nat)
  /-- R363: Ends the stopped source's launch or abandons its chain. -/
  | gkill (ctx : Nat) (stopid : Nat)
  /-- R367: Runs one issue cycle of a stopped group and then takes TRP_STEP. -/
  | gstep (ctx : Nat) (stopid : Nat)
  /-- R363: Copies a stopped group's state to the debug area. -/
  | gsave (ctx : Nat) (stopid : Nat)
  /-- R363: Replaces a stopped group's state from the debug area. -/
  | gload (ctx : Nat) (stopid : Nat)
  /-- R360: A held fault record is written to the ring when space allows and its MSI-X is sent. -/
  | faultRecordWrite
  /-- R365: Posts a user-level interrupt to a context's mailbox and groups. -/
  | uipost (value : DWord)
  /-- R346: A host read through BAR4 reaches device memory uncached at home. -/
  | bar4Read (off : Nat) (size : Nat)
  /-- R346: A host write through BAR4 recalls cached copies and writes device memory at home. -/
  | bar4Write (off : Nat) (data : List Byte)
  /-- R390: A token message creates a sequence table entry and maps its pages. -/
  | openSeq (die : Nat) (ctx : Nat)
  /-- R390: A token message replaces an entry's KV page list. -/
  | extend (die : Nat) (ctx : Nat)
  /-- R390: A token message sets an entry's speculative mark. -/
  | draft (die : Nat) (ctx : Nat)
  /-- R390: A token message commits tokens, clipping to MARK, and publishes at the head. -/
  | token (die : Nat) (ctx : Nat)
  /-- R390: A token message removes an entry and its map records. -/
  | closeSeq (die : Nat) (ctx : Nat)
  /-- R398: A token message marks an entry MOVING and sends ADOPT to the thief die. -/
  | give (die : Nat) (ctx : Nat)
  /-- R390: A token message delivered only to the inbox. -/
  | note (die : Nat) (ctx : Nat)
  /-- R398: The thief die creates the moved entry and answers ACK or REFUSE. -/
  | adopt (die : Nat) (ctx : Nat)
  /-- R398: The victim die removes the moved entry. -/
  | ack (die : Nat) (ctx : Nat)
  /-- R398: The victim die returns the entry to RUN and records REFUSED. -/
  | refuse (die : Nat) (ctx : Nat)
  /-- R396: An uncorrectable error in a tracked KV line is zeroed and classed as rejection, stale or fence. -/
  | kvError (line : Nat)
  /-- R384: An SVREC write of EN = 1 reads, checks and enables the serving record. -/
  | servingEnable (ctx : Nat)
  /-- R384: An SVREC write of EN = 0 disables a record with no sequence entries. -/
  | servingDisable (ctx : Nat)
  /-- R403: An SQCTL write of EN = 1 starts serving a Gaffer queue from zero. -/
  | serviceQueueEnable (queue : Nat)
  /-- R403: An SQCTL write of EN = 0 abandons untaken records once taken calls complete. -/
  | serviceQueueDisable (queue : Nat)
  /-- R404: A store to a service queue's notify register writes TAIL and wakes its thread. -/
  | notify (queue : Nat) (ctx : Nat) (value : DWord)
  /-- R404: The 1,024-tick re-read of a call record whose SEQ does not yet match. -/
  | recordReread (queue : Nat)
  /-- R406: Creates a TCP, UDP or RoCEv2 socket on a port. -/
  | socket (queue : Nat)
  /-- R406: Binds a socket to an address. -/
  | bind (queue : Nat)
  /-- R406: Connects a socket to a peer. -/
  | connect (queue : Nat)
  /-- R406: Makes a socket listen with a backlog. -/
  | listen (queue : Nat)
  /-- R406: Accepts a connection as a new socket. -/
  | acceptConn (queue : Nat)
  /-- R406: Sends a buffer on a socket, lending its pages with LEND. -/
  | send (queue : Nat)
  /-- R406: Receives into a buffer on a socket. -/
  | recv (queue : Nat)
  /-- R406: Closes a socket. -/
  | socketClose (queue : Nat)
  /-- R406: Performs a remote RDMA write. -/
  | rdwrite (queue : Nat)
  /-- R406: Performs a remote RDMA read. -/
  | rdread (queue : Nat)
  /-- R406: Reports a port's link state, lanes and MTU. -/
  | portq (queue : Nat)
  /-- R406: A Gaffer call completes and RESULT and CWORD are written in SEQ order. -/
  | callCompletion (queue : Nat) (outcome : Int) (data : List Byte)
  /-- R407: Lent pages are returned writable and SEQ is release-stored to RWORD. -/
  | pageReturn (queue : Nat)
  /-- R408: A port goes down and its TCP and RC socket calls end with −6. -/
  | portDown (port : Nat)
  /-- R412: BISTCTL RUN removes a unit from service and waits for it to empty. -/
  | bistRun (path : Word)
  /-- R412: The emptied unit is tested, then returned to service or fenced. -/
  | bistTest (pass : Bool) (path : List Word) (test : List Nat)
  /-- R414: FENCECMD GO fences a function and stops its users. -/
  | fenceUnit (path : Word) (cause : Nat)
  /-- R416: A held error record is written to the error ring when space allows. -/
  | errorRecordWrite
  /-- R417: A corrected or uncorrected HBM, LPDDR-6 or SRAM error is recorded. -/
  | memoryError (kind : MemErr) (corrected : Bool) (path : Word) (line : Nat) (detail : Nat)
  /-- R417: A link flit is replayed and a corrected record made. -/
  | linkFlitReplayed (path : Word) (lane : Nat)
  /-- R417: A link lane fails and is fenced, the link running narrower. -/
  | linkLaneFailed (path : Word) (lane : Nat)
  /-- R427: A die above 95 °C is throttled. -/
  | thermalThrottle (die : Nat) (celsius : Nat)
  /-- R427: At 105 °C the part stops every die. -/
  | thermalTrip (die : Nat) (celsius : Nat)
  /-- R427: Flow below 3.0 L/min caps the part at 2,000 W. -/
  | coolantFlowLow (dlpm : Nat)
  /-- R426: The power manager adjusts the issue clock and array voltage to the cap. -/
  | powerCapCorrection
  /-- R418: Resets the part, runs self-test and the boot ROM loads a verified image. -/
  | coldReset (start : PowerOn)
  /-- R423: Ends every context while keeping fences, ACC0 and error counters. -/
  | warmReset
  /-- R419: Verifies an image and writes it to flash slot A. -/
  | writeSlotA
  /-- R419: Verifies an image and writes it to flash slot B. -/
  | writeSlotB
  /-- R420: Enrols an owner public key digest in an OTP slot. -/
  | enrolOwnerKey
  /-- R420: Revokes an enrolled owner key. -/
  | revokeOwnerKey
  /-- R420: Permanently stops the vendor key from signing this part's firmware. -/
  | setVendoff
  /-- R421: Writes a signed attestation report for a nonce. -/
  | attestationReport (nonce : DWord) (output : DWord)
  /-- R11: A write to a register with no row of its own takes effect field by field. -/
  | registerWrite (off : Nat) (value : DWord) (bytes : Byte)
  /-- R282: A recall from a home reaches a sharer, which gives up the line and answers with its held count and last notice sequence. -/
  | recallLine (k : Nat)
  /-- R283: A home's grant of a line reaches the requesting sharer, and the access waiting on it is performed. -/
  | grant (k : Nat)
  /-- R372: The host home completes the part's RdShared or RdOwn for a host half, granting S, E or a fresh grant after a conflicting snoop. -/
  | cxlCacheCompletion (half : Nat) (exclusive : Bool) (data : List Byte)
  /-- R427: Coolant flow rises back to 3.0 L/min or more, and the self-imposed 2,000 W cap is lifted. -/
  | coolantFlowRestored (dlpm : Nat)
  /-- R408: An Ethernet port's link comes up, so PORTQ and CAP2 report it with a link and its sockets can carry traffic. -/
  | portLinkUp (port : Nat) (lanes : Nat)
  deriving DecidableEq, Repr

end Sys2Proof
end

