-- ==== Sys2Proof/WellFormed.lean ====
section
/-! DEFINITION. The opcode map (R120 to R133) as a table of rows, and the checks of decode step 3 (R106) that it gives:
a well-formed instruction is one whose opcode, FN, TY, BK, S, X and must-be-zero fields the map accepts. -/

namespace Sys2Proof

/-- The TY code of a type (R95). -/
def Ty.code : Ty → Nat
  | .b32 => 0 | .i8 => 1 | .ui8 => 2 | .i16 => 3 | .ui16 => 4 | .i32 => 5 | .ui32 => 6 | .i64 => 7
  | .ui64 => 8 | .f16 => 9 | .bf16 => 10 | .f32 => 11 | .f64 => 12 | .e4m3 => 13 | .e5m2 => 14 | .packed => 15

/-- The type of a TY code; codes above 14 are the packed types (R95). -/
def Ty.ofCode : Nat → Ty
  | 0 => .b32 | 1 => .i8 | 2 => .ui8 | 3 => .i16 | 4 => .ui16 | 5 => .i32 | 6 => .ui32 | 7 => .i64
  | 8 => .ui64 | 9 => .f16 | 10 => .bf16 | 11 => .f32 | 12 => .f64 | 13 => .e4m3 | 14 => .e5m2 | _ => .packed

/-- The value of a ten-bit name (R93). -/
def Name.code : Name → Nat
  | .v n => n | .s n => 640 + n | .m n => 736 + n | .c n => 752 + n | .zero => 760 | .one => 761 | .reserved n => n

/-- The name of a ten-bit value (R93). -/
def Name.ofCode (k : Nat) : Name :=
  if k < 640 then .v k else if k < 736 then .s (k - 640) else if k < 752 then .m (k - 736)
  else if k < 760 then .c (k - 752) else if k = 760 then .zero else if k = 761 then .one else .reserved k

/-- The name lies in its range (R93). -/
def Name.inRange : Name → Bool
  | .v n => n < 640 | .s n => n < 96 | .m n => n < 16 | .c n => n < 8 | .zero => true | .one => true
  | .reserved n => 762 ≤ n && n < 1024

/-- The operand kinds of R122 and of the rows' Operands columns. -/
inductive Kind
  | unused        -- must be zero
  | vdst          -- destination: vector, zero or one
  | vec           -- a vector register
  | mdst          -- destination: m1 to m15, zero or one
  | udst          -- destination: uniform, zero or one
  | umdst         -- destination: uniform, m1 to m15, zero or one (VOTE)
  | vudst         -- destination: vector, uniform, zero or one (MFS)
  | tile          -- an accumulator tile
  | ureg          -- a uniform register and nothing else
  | frame         -- f/8 of CALL
  | vus           -- source: vector, uniform, zero or one
  | uni           -- source: uniform, zero or one
  | uniz          -- source: uniform or zero
  | msk           -- an m register, m0 to m15
  | vm            -- source: vector or m (VOTE)
  | base          -- memory base: uniform, zero or an even vector pair
  | sbase         -- scratchpad base: uniform, zero or a vector
  | index         -- memory index: uniform or vector
  | vu            -- source: vector or uniform
  | vuz           -- source: vector, uniform or zero
  deriving DecidableEq, Repr

/-- Which type gives an operand its width, hence the even-name rule of R47. -/
inductive Wide
  | ty | src | always | never
  deriving DecidableEq, Repr

/-- How a row uses the six X bits (R97, R128, R129). -/
inductive XUse
  | zero | mem | sc | rdClass | tag | acwait | mma
  deriving DecidableEq, Repr

/-- One row of the opcode map. `forms` lists the accepted FN values with the TY codes they accept. `rTypes` lists the
TY codes with which the prefix may carry RM. -/
structure Row where
  forms  : List (List Nat × List Nat)
  differ : Bool := false
  bk     : List Nat := [0, 1, 2]
  pm     : Bool := false
  rTypes : List Nat := []
  ps     : Bool := false
  pc     : Bool := false
  d      : Kind := .vdst
  a      : Kind := .vus
  b      : Kind := .vus
  c      : Kind := .unused
  dw     : Wide := .ty
  aw     : Wide := .ty
  bw     : Wide := .ty
  cw     : Wide := .ty
  x      : XUse := .zero
  sp     : Bool := true
  deriving DecidableEq, Repr

/-- FN 0 with the given TY codes. -/
def fn0 (ts : List Nat) : List (List Nat × List Nat) := [([0], ts)]

def tyInt : List Nat := [1, 2, 3, 4, 5, 6, 7, 8]
def tyFlt : List Nat := [9, 10, 11, 12]
def tyUni : List Nat := [0, 5, 6, 7, 8]
def tyCvt : List Nat := [9, 10, 11, 12, 13, 14]
def tyRed : List (List Nat × List Nat) :=
  [([0, 1, 2], [5, 6, 7, 8, 9, 10, 11, 12]), ([3, 4, 5], [0, 6, 8])]
def tyAtom : List (List Nat × List Nat) :=
  [([0, 1, 2], [5, 6, 7, 8]), ([3, 4, 5], [0, 6, 8]), ([6], [0, 5, 6, 7, 8]), ([7], [11])]

/-- A three-operand vector row with mask fields only. -/
def rowV (ts : List Nat) : Row := { forms := fn0 ts, pm := true }
/-- A unary vector row with mask fields only. -/
def rowU (ts : List Nat) : Row := { forms := fn0 ts, bk := [0], pm := true, b := .unused }
/-- A uniform row without a prefix (R126). -/
def rowS (ts : List Nat) : Row :=
  { forms := fn0 ts, bk := [0, 2], d := .udst, a := .uni, b := .uni, dw := .never, aw := .never, bw := .never, cw := .never }
/-- A control or system row: TY 0, nothing named. -/
def rowC : Row :=
  { forms := fn0 [0], bk := [0], d := .unused, a := .unused, b := .unused, dw := .never, aw := .never, bw := .never,
    cw := .never }

/-- The opcode map of R123 to R129 with the S column of R130. DESIGN CHOICE (log 55): the B of ENGST, SEQQ, PFXL, PFXI,
TLBI.pasid and VERQ is read once for the gang, so it is a uniform register, zero, one or IMM16, and no vector. -/
def rowOf : Nat → Option Row
  -- R123
  | 0x00 => some { rowC with pm := false }
  | 0x01 | 0x02 | 0x03 | 0x08 | 0x09 | 0x1C | 0x1D => some (rowV tyInt)
  | 0x04 | 0x06 | 0x07 => some (rowV [5, 6, 7, 8])
  | 0x05 => some { rowV tyInt with pc := true, c := .vus }
  | 0x0A | 0x0B => some (rowU [1, 3, 5, 7])
  | 0x0C | 0x0D | 0x0E | 0x0F => some (rowV (0 :: tyInt))
  | 0x10 => some (rowU (0 :: tyInt))
  | 0x11 | 0x12 | 0x14 | 0x15 => some (rowV tyUni)
  | 0x13 => some (rowV [5, 7])
  | 0x16 => some { rowV [0, 6, 8] with pc := true, c := .vus }
  | 0x17 | 0x18 | 0x19 => some (rowU [0, 6, 8])
  | 0x1A => some { rowV tyInt with forms := [([0, 1, 2, 3, 4, 5, 6, 7, 8, 9], tyInt)], d := .mdst, dw := .never }
  | 0x1B => some { rowV (0 :: tyInt ++ tyCvt) with pc := true, c := .msk, cw := .never }
  | 0x1E => some { rowV [] with forms := [([0, 1, 2, 3, 4], [7, 8])], bk := [0, 2], bw := .never }
  | 0x1F => some (rowU (0 :: tyInt ++ tyCvt))
  | 0x20 => some { rowV (0 :: tyInt ++ tyFlt) with bk := [2], a := .unused }
  | 0x21 => some { rowV [] with forms := [([1], tyUni), ([2, 3], [7, 8])], bk := [2], a := .unused }
  | 0x22 => some { rowU [] with forms := [([0, 1, 2, 3], [0])], d := .umdst, a := .vm }
  | 0x23 => some { rowV [] with forms := [([0, 1, 2, 3], 0 :: tyInt ++ tyFlt)], bk := [0, 2], a := .vec, bw := .never }
  | 0x24 => some { rowU [] with forms := tyRed, rTypes := tyFlt, d := .udst, dw := .never }
  | 0x25 => some { rowU [] with
      forms := tyRed ++ [([8, 9, 10], [5, 6, 7, 8, 9, 10, 11, 12]), ([11, 12, 13], [0, 6, 8])], rTypes := tyFlt }
  | 0x26 => some { rowU [] with forms := [([0, 1], tyUni)], d := .mdst, dw := .never }
  | 0x27 => some { rowU [0] with d := .mdst, a := .unused, dw := .never, aw := .never }
  | 0x28 => some { rowV [0] with pc := true, c := .vus }
  | 0x29 => some { rowV [1, 2] with pc := true, c := .vus }
  | 0x2A => some { rowV [1, 2] with pc := true, c := .vus, aw := .always, bw := .always }
  -- R124
  | 0x30 | 0x31 | 0x32 | 0x3D => some { rowV tyFlt with rTypes := tyFlt, ps := true }
  | 0x33 => some { rowV tyFlt with rTypes := tyFlt, ps := true, pc := true, c := .vus }
  | 0x34 | 0x35 | 0x38 => some (rowV tyFlt)
  | 0x36 | 0x37 => some (rowU tyFlt)
  | 0x39 => some { rowV [] with forms := [([0, 1, 2, 3, 4, 5, 6, 7], tyFlt)], d := .mdst, dw := .never }
  | 0x3A | 0x3B | 0x3C => some { rowU tyFlt with rTypes := tyFlt, ps := true }
  | 0x3E | 0x3F | 0x40 | 0x41 | 0x42 | 0x43 => some (rowU [9, 10, 11])
  | 0x44 => some { rowU tyFlt with dw := .never }
  | 0x45 => some { rowU [] with forms := [([0, 1, 2, 3, 4], tyFlt)] }
  | 0x46 => some { rowV tyFlt with rTypes := tyFlt, ps := true, bw := .never }
  | 0x47 => some { rowV [9, 10] with rTypes := [9, 10], ps := true, pc := true, c := .vus }
  | 0x48 => some { rowV [13, 14] with rTypes := [13, 14], ps := true, pc := true, c := .vus }
  | 0x49 => some { rowV [11] with bk := [0, 1], a := .vec, b := .vec, dw := .always, aw := .always, bw := .always }
  -- R125
  | 0x50 => some { rowU [] with
      forms := [([9, 10, 11, 12, 13, 14], tyCvt)], differ := true, rTypes := tyCvt, ps := true, aw := .src }
  | 0x51 => some { rowU [] with
      forms := [([9, 10, 11, 12, 13, 14], tyInt)], rTypes := tyInt, ps := true, aw := .src }
  | 0x52 => some { rowU [] with
      forms := [([1, 2, 3, 4, 5, 6, 7, 8], tyCvt)], rTypes := tyCvt, ps := true, aw := .src }
  | 0x53 => some { rowU [] with
      forms := [([1, 2, 3, 4, 5, 6, 7, 8], tyInt)], differ := true, ps := true, aw := .src }
  | 0x54 => some { rowU [] with
      forms := [([0], [1, 2, 3, 4, 9, 10, 13, 14, 15]), ([1], [15])], rTypes := [9, 10, 13, 14, 15], ps := true,
      a := .vec }
  | 0x55 => some { rowU [] with forms := [([0], [1, 2, 3, 4, 9, 10, 13, 14, 15]), ([1], [15])] }
  | 0x56 => some { rowU [] with
      forms := [([0], [13, 14, 15]), ([1], [15])], rTypes := [13, 14, 15], ps := true, pc := true, c := .ureg,
      cw := .never }
  | 0x57 => some { rowU [] with
      forms := [([0], [13, 14, 15]), ([1], [15])], pc := true, c := .ureg, cw := .never }
  -- R126
  | 0x58 | 0x59 | 0x5A | 0x64 | 0x65 => some (rowS [5, 6, 7, 8])
  | 0x5B | 0x5C | 0x5D => some (rowS [0, 6, 8])
  | 0x5E | 0x5F => some (rowS tyUni)
  | 0x60 => some { rowS [] with forms := [([0, 1, 2, 3, 4, 5, 6, 7, 8, 9], [5, 6, 7, 8])] }
  | 0x61 => some { rowS tyUni with pc := true, c := .uni }
  | 0x62 => some { rowS tyUni with bk := [2], a := .unused }
  | 0x63 => some { rowS [] with forms := [([1], tyUni), ([2, 3], [7, 8])], bk := [2], a := .unused }
  | 0x66 => some { rowS tyUni with a := .vec, aw := .ty }
  | 0x67 => some { rowS [] with forms := [([0, 1, 2, 3, 4], [7, 8])] }
  | 0x68 | 0x69 => some { rowS [11, 12] with rTypes := [11, 12], ps := true }
  | 0x6A => some { rowS [11, 12] with rTypes := [11, 12], ps := true, pc := true, c := .uni }
  | 0x6B => some { rowS tyUni with bk := [0], b := .unused }
  | 0x6C => some { rowS [] with
      forms := [([5, 6, 7, 8, 11, 12], [5, 6, 7, 8, 11, 12])], differ := true, bk := [0], b := .unused,
      rTypes := [5, 6, 7, 8, 11, 12], ps := true }
  -- R127
  | 0x70 => some { rowC with bk := [2], a := .msk, b := .uni }
  | 0x71 => some { rowC with forms := [([0, 1], [0])], bk := [2], a := .uniz, b := .uni }
  | 0x72 => some { rowC with a := .ureg }
  | 0x73 => some { rowC with bk := [2], d := .frame, b := .uni }
  | 0x74 => some { rowC with d := .frame, a := .ureg }
  | 0x75 | 0x7C | 0x7E => some rowC
  | 0x76 => some { rowC with a := .msk }
  | 0x77 => some { rowC with sp := false }
  | 0x78 | 0x79 => some { rowC with bk := [2], b := .uni }
  | 0x7A => some { rowC with forms := fn0 [6, 8], bk := [0, 2], a := .vu, b := .vu, aw := .always, bw := .ty }
  | 0x7B => some { rowC with forms := [([0, 1], [0])], bk := [0, 2], b := .ureg }
  | 0x7D => some { rowC with bk := [0, 2], b := .ureg }
  | 0x7F => some { rowC with bk := [2], d := .ureg, b := .uni }
  -- R128
  | 0x80 => some { rowV (tyInt ++ tyCvt) with bk := [0, 2], a := .base, b := .index, aw := .always, bw := .never, x := .mem }
  | 0x81 => some { rowV (tyInt ++ tyCvt) with
      bk := [0, 2], d := .vec, a := .base, b := .index, aw := .always, bw := .never, x := .mem }
  | 0x82 => some { rowV (tyInt ++ tyCvt) with bk := [0, 2], a := .sbase, b := .index, aw := .never, bw := .never, x := .sc }
  | 0x83 => some { rowV (tyInt ++ tyCvt) with
      bk := [0, 2], d := .vec, a := .sbase, b := .index, aw := .never, bw := .never, x := .sc }
  | 0x84 => some { rowV tyUni with pm := false, bk := [2], a := .unused, b := .uni }
  | 0x85 => some { rowV [0] with bk := [0], a := .ureg, b := .vec, bw := .never, dw := .never, x := .rdClass }
  | 0x86 => some { rowV [0] with bk := [0], d := .vec, a := .ureg, b := .vec, bw := .never, dw := .never, x := .rdClass }
  | 0x87 => some { rowV [] with
      forms := tyAtom, bk := [0, 2], pc := true, a := .base, b := .index, c := .vus, aw := .always, bw := .never, x := .sc }
  | 0x88 => some { rowV tyUni with
      bk := [0, 2], pc := true, d := .vec, a := .base, b := .index, c := .vus, aw := .always, bw := .never, x := .sc }
  | 0x89 => some { rowV [] with
      forms := tyAtom, bk := [0, 2], pc := true, a := .sbase, b := .index, c := .vus, aw := .never, bw := .never, x := .sc }
  | 0x8A => some { rowV tyUni with
      bk := [0, 2], pc := true, d := .vec, a := .sbase, b := .index, c := .vus, aw := .never, bw := .never, x := .sc }
  | 0x8B => some { rowV tyUni with bk := [0, 2], a := .base, b := .index, aw := .always, bw := .never, x := .sc }
  | 0x8C => some { rowV tyUni with
      bk := [0, 2], d := .vec, a := .base, b := .index, aw := .always, bw := .never, x := .sc }
  | 0x8D => some { rowC with forms := [([0, 1, 2], [0])], bk := [2], a := .uniz }
  | 0x8E => some { rowC with pm := true, bk := [0, 2], a := .base, b := .index, aw := .always, x := .mem }
  | 0x8F | 0x90 => some { rowC with pm := true, bk := [0, 2], a := .base, b := .index, aw := .always }
  | 0x91 => some { rowC with forms := [([0, 1, 2], [0])], bk := [2], d := .udst, a := .ureg, b := .uni }
  | 0x92 => some { rowC with
      forms := [([0, 1, 2, 3], [0])], pm := true, pc := true, d := .udst, a := .vu, b := .vu, c := .vuz, aw := .always,
      x := .tag }
  | 0x93 => some { rowC with forms := [([0, 1, 2], [0])], x := .acwait }
  | 0x94 => some { rowC with d := .udst, x := .tag }
  | 0x95 => some { rowC with bk := [0, 2], a := .ureg, b := .ureg }
  | 0x96 => some { rowC with d := .udst, a := .ureg }
  | 0x97 => some { rowC with a := .ureg }
  | 0x98 => some { rowC with bk := [0, 2], d := .udst, a := .ureg, b := .ureg }
  | 0x99 => some { rowC with bk := [0, 2], d := .udst, b := .uni }
  -- R129
  | 0xA0 => some { rowC with
      forms := [([0], [1, 9, 10, 13, 14, 15]), ([1], [13, 14, 15])], d := .udst, a := .vec, b := .ureg, x := .mma }
  | 0xA1 => some { rowC with forms := fn0 [5, 11], d := .tile, a := .ureg }
  | 0xA2 => some { rowC with
      forms := fn0 [5, 9, 10, 11, 13, 14], d := .tile, a := .ureg, rTypes := [5, 9, 10, 11, 13, 14], ps := true }
  | 0xA3 => some { rowC with d := .tile }
  | 0xA4 => some { rowC with forms := fn0 [5, 11], bk := [0, 2], d := .vdst, a := .tile, b := .ureg }
  | 0xA5 => some { rowC with forms := fn0 [5, 11], bk := [0, 2], d := .tile, a := .vec, b := .ureg }
  | 0xA6 => some { rowC with d := .udst, a := .tile }
  | 0xA7 => some { rowC with d := .udst }
  | 0xB0 | 0xB2 => some { rowC with bk := [2], b := .uni, sp := false }
  | 0xB1 => some { rowC with d := .vdst, sp := false }
  | 0xB3 => some { rowC with d := .vdst }
  | 0xB8 => some { rowC with forms := fn0 [9, 10, 11], bk := [0, 2], a := .ureg, b := .ureg }
  | 0xB9 => some { rowC with bk := [0, 2], d := .udst, a := .ureg, b := .ureg }
  | 0xBA => some { rowC with d := .vdst, a := .ureg, b := .vu, bw := .always }
  | 0xBB => some { rowC with a := .ureg }
  | 0xBC => some { rowC with forms := [([0, 1, 2, 3], [0])], bk := [0, 2], d := .udst, b := .uni }
  | 0xBD | 0xBE => some { rowC with d := .udst, a := .ureg, b := .uni }
  | 0xC0 => some { rowC with bk := [2], d := .vudst, b := .uni }
  | 0xC1 => some { rowC with bk := [2], a := .vus, b := .uni }
  | 0xC2 => some { rowC with bk := [2], b := .uni, sp := false }
  | 0xC3 | 0xC6 => some { rowC with sp := false }
  | 0xC4 | 0xC5 => some { rowC with a := .ureg }
  | 0xC7 => some { rowC with bk := [2], b := .uni, sp := false }
  | 0xC8 => some { rowC with forms := [([0, 1, 2], [0])], bk := [0, 2], a := .ureg, b := .uni }
  | 0xC9 | 0xCA => some { rowC with a := .ureg, sp := false }
  | 0xCB => some { rowC with sp := false }
  | 0xCC | 0xCD => some { rowC with d := .udst, a := .ureg }
  | 0xCE => some { rowC with a := .ureg }
  | 0xCF => some { rowC with forms := [([0, 1, 2, 3], [0])], d := .udst, a := .ureg }
  | 0xD0 => some { rowC with bk := [0, 2], d := .udst, b := .uni }
  | _ => none

/-- BK of operand B (R90). -/
def BOperand.bk : BOperand → Nat
  | .reg _ => 0 | .pat _ _ => 1 | .imm _ => 2

/-- A lane pattern whose argument the form admits (R96). -/
def Pattern.wf : Pattern → Bool
  | .rot n => n < 32 | .rev n => 1 ≤ n && n ≤ 5 | .bc n => n < 32 | .pm n => n < 32

def BOperand.inRange : BOperand → Bool
  | .reg n => n.inRange | .pat n p => n.inRange && p.wf | .imm _ => true

/-- The prefix's fields hold values their widths and R103 admit. -/
def Pfx.wf (p : Pfx) : Bool := p.mask < 16 && p.c.inRange

/-- Every field holds a value its width admits. -/
def FForm.inRange (f : FForm) : Bool :=
  f.fn < 16 && f.x < 64 && f.d.inRange && f.a.inRange && f.b.inRange &&
  (match f.pfx with | none => true | some p => p.wf)

/-- The X bits the row accepts (R97, R128, R129): SC = 1 with an immediate offset is refused. -/
def XUse.accepts (u : XUse) (f : FForm) : Bool :=
  match u with
  | .zero => f.x = 0
  | .mem => f.x % 2 = 0 || f.b.bk != 2
  | .sc => f.x < 2 && (f.x = 0 || f.b.bk != 2)
  | .rdClass => f.x % 2 = 0
  | .tag => f.x % 8 = 0
  | .acwait => f.x % 8 = 0 && (f.fn = 0 || f.x = 0)
  | .mma => f.x / 8 % 4 = 0

/-- An unused B must be zero: register name 0, or an immediate of 0 (R91, R122). -/
def BOperand.isZero : BOperand → Bool
  | .reg n => n.code = 0 | .pat _ _ => false | .imm i => i = 0

/-- The fields a form leaves unused although its row as a whole uses them: the address of TLBI's other forms, the B
of TLBI.page and .all, the D of BOBJ.init and the IMM16 of its other forms (R128, R197, R243). -/
def formUnused (op : Nat) (f : FForm) : Bool :=
  match op, f.fn with
  | 0x91, 0 => f.d.code = 0
  | 0x91, _ => f.b.isZero
  | 0xC8, 0 => f.b.isZero
  | 0xC8, 1 => f.a.code = 0
  | 0xC8, _ => f.b.isZero && f.a.code = 0
  | _, _ => true

/-- Decode step 3 (R106) for an F-form word, by the row of its opcode. -/
def Row.accepts (r : Row) (op : Nat) (f : FForm) : Bool :=
  r.forms.any (fun p => p.1.contains f.fn && p.2.contains f.ty.code) &&
  (!r.differ || f.fn != f.ty.code) &&
  r.bk.contains f.b.bk &&
  (r.sp || !f.sp) &&
  r.x.accepts f &&
  (r.d != .unused || f.d.code = 0) &&
  (r.a != .unused || f.a.code = 0) &&
  (r.b != .unused || f.b.isZero) &&
  formUnused op f

/-- TY3 values each dual opcode accepts (R132). -/
def DOp.types : DOp → List Ty3
  | .nop => [.i32]
  | .iadd | .isub | .imul | .imin | .imax => [.i32, .ui32, .i16, .i8]
  | .iabs | .ineg => [.i32, .i16, .i8]
  | .and | .or | .xor | .andn => [.i32, .ui32, .b32]
  | .shl | .shr | .rot => [.i32, .ui32, .b32]
  | .sar => [.i32]
  | .mov | .lil | .sel | .lds | .sts => [.i32, .ui32, .f32, .f16, .bf16, .i16, .i8, .b32]
  | .brev => [.ui32, .b32]
  | .icmpEq | .icmpNe => [.i32, .ui32, .i16, .i8, .b32]
  | .icmpLt | .icmpLe => [.i32, .i16, .i8]
  | .icmpLtu | .icmpLeu => [.ui32, .b32]
  | .fadd | .fsub | .fmul | .fmin | .fmax | .fabs | .fneg | .fcmpEq | .fcmpLt | .fcmpLe => [.f32, .f16, .bf16]
  | .cvtF32F16 => [.f16]
  | .cvtF32Bf16 => [.bf16]
  | .cvtF16F32 | .cvtBf16F32 => [.f32]
  | .uadd | .usub => [.i32, .ui32, .b32]
  | .uand | .uor | .umov => [.b32]
  | .ulil => [.i32, .ui32, .b32]

/-- A nine-bit name lies in a range that R94 assigns; a reserved one keeps its value. -/
def Name.inRange9 : Name → Bool
  | .v n => n < 256 | .s n => n < 96 | .m n => n < 16 | .reserved n => 368 ≤ n && n < 512 | _ => false

/-- Decode step 3 for a slot (R99, R101, R133): IM is 1 for LIL and ULIL and 0 for NOP, LDS and STS; a NOP is zero. -/
def DSlot.wf (p : DSlot) : Bool :=
  p.op.types.contains p.ty && p.a.inRange9 &&
  (match p.b with | .reg n => n.inRange9 | .imm _ => true) &&
  (match p.op, p.b with
   | .lil, .reg _ => false
   | .ulil, .reg _ => false
   | .nop, .imm _ => false
   | .lds, .imm _ => false
   | .sts, .imm _ => false
   | .nop, .reg n => n = .v 0 && p.a = .v 0
   | _, _ => true)

/-- The opcode and the fields of an F-form instruction. -/
def Instr.fform : Instr → Option (Nat × FForm)
  | .nop f => some (0x00, f)
  | .iadd f => some (0x01, f)
  | .isub f => some (0x02, f)
  | .imul f => some (0x03, f)
  | .imulh f => some (0x04, f)
  | .imad f => some (0x05, f)
  | .idiv f => some (0x06, f)
  | .irem f => some (0x07, f)
  | .imin f => some (0x08, f)
  | .imax f => some (0x09, f)
  | .iabs f => some (0x0A, f)
  | .ineg f => some (0x0B, f)
  | .and f => some (0x0C, f)
  | .or f => some (0x0D, f)
  | .xor f => some (0x0E, f)
  | .andn f => some (0x0F, f)
  | .not f => some (0x10, f)
  | .shl f => some (0x11, f)
  | .shr f => some (0x12, f)
  | .sar f => some (0x13, f)
  | .rot f => some (0x14, f)
  | .bfe f => some (0x15, f)
  | .bfi f => some (0x16, f)
  | .popc f => some (0x17, f)
  | .clz f => some (0x18, f)
  | .brev f => some (0x19, f)
  | .icmp f => some (0x1A, f)
  | .sel f => some (0x1B, f)
  | .iadds f => some (0x1C, f)
  | .isubs f => some (0x1D, f)
  | .lea f => some (0x1E, f)
  | .mov f => some (0x1F, f)
  | .lil f => some (0x20, f)
  | .lih f => some (0x21, f)
  | .vote f => some (0x22, f)
  | .shfl f => some (0x23, f)
  | .redu f => some (0x24, f)
  | .scan f => some (0x25, f)
  | .matchEq f => some (0x26, f)
  | .elect f => some (0x27, f)
  | .prmt f => some (0x28, f)
  | .idot4 f => some (0x29, f)
  | .idot8 f => some (0x2A, f)
  | .fadd f => some (0x30, f)
  | .fsub f => some (0x31, f)
  | .fmul f => some (0x32, f)
  | .fma f => some (0x33, f)
  | .fmin f => some (0x34, f)
  | .fmax f => some (0x35, f)
  | .fabs f => some (0x36, f)
  | .fneg f => some (0x37, f)
  | .fsgn f => some (0x38, f)
  | .fcmp f => some (0x39, f)
  | .frcp f => some (0x3A, f)
  | .frsq f => some (0x3B, f)
  | .fsqrt f => some (0x3C, f)
  | .fdiv f => some (0x3D, f)
  | .fexp2 f => some (0x3E, f)
  | .flog2 f => some (0x3F, f)
  | .fsin f => some (0x40, f)
  | .fcos f => some (0x41, f)
  | .ftanh f => some (0x42, f)
  | .fsigm f => some (0x43, f)
  | .fclas f => some (0x44, f)
  | .frnd f => some (0x45, f)
  | .fscal f => some (0x46, f)
  | .fdot2 f => some (0x47, f)
  | .fdot4 f => some (0x48, f)
  | .smrg f => some (0x49, f)
  | .cvt f => some (0x50, f)
  | .cvtfi f => some (0x51, f)
  | .cvtif f => some (0x52, f)
  | .cvtii f => some (0x53, f)
  | .pack f => some (0x54, f)
  | .unpk f => some (0x55, f)
  | .qnt f => some (0x56, f)
  | .dqnt f => some (0x57, f)
  | .uadd f => some (0x58, f)
  | .usub f => some (0x59, f)
  | .umul f => some (0x5A, f)
  | .uand f => some (0x5B, f)
  | .uor f => some (0x5C, f)
  | .uxor f => some (0x5D, f)
  | .ushl f => some (0x5E, f)
  | .ushr f => some (0x5F, f)
  | .ucmp f => some (0x60, f)
  | .usel f => some (0x61, f)
  | .ulil f => some (0x62, f)
  | .ulih f => some (0x63, f)
  | .umin f => some (0x64, f)
  | .umax f => some (0x65, f)
  | .upick f => some (0x66, f)
  | .ulea f => some (0x67, f)
  | .ufadd f => some (0x68, f)
  | .ufmul f => some (0x69, f)
  | .ufma f => some (0x6A, f)
  | .umov f => some (0x6B, f)
  | .ucvt f => some (0x6C, f)
  | .bra f => some (0x70, f)
  | .bru f => some (0x71, f)
  | .jmpi f => some (0x72, f)
  | .call f => some (0x73, f)
  | .calli f => some (0x74, f)
  | .ret f => some (0x75, f)
  | .join f => some (0x76, f)
  | .exit f => some (0x77, f)
  | .bar f => some (0x78, f)
  | .cbar f => some (0x79, f)
  | .waitseq f => some (0x7A, f)
  | .sleep f => some (0x7B, f)
  | .pause f => some (0x7C, f)
  | .setpri f => some (0x7D, f)
  | .yield f => some (0x7E, f)
  | .loop f => some (0x7F, f)
  | .ld f => some (0x80, f)
  | .st f => some (0x81, f)
  | .lds f => some (0x82, f)
  | .sts f => some (0x83, f)
  | .ldk f => some (0x84, f)
  | .ldt f => some (0x85, f)
  | .stt f => some (0x86, f)
  | .atom f => some (0x87, f)
  | .atoms f => some (0x89, f)
  | .cas f => some (0x88, f)
  | .cass f => some (0x8A, f)
  | .lda f => some (0x8B, f)
  | .str f => some (0x8C, f)
  | .fence f => some (0x8D, f)
  | .pref f => some (0x8E, f)
  | .cwb f => some (0x8F, f)
  | .cinv f => some (0x90, f)
  | .bobjInit f => some (0x91, f)
  | .bobjArrive f => some (0x91, f)
  | .bobjWait f => some (0x91, f)
  | .acp f => some (0x92, f)
  | .acwait f => some (0x93, f)
  | .accnt f => some (0x94, f)
  | .rngi f => some (0x95, f)
  | .awf f => some (0x96, f)
  | .rls f => some (0x97, f)
  | .enq f => some (0x98, f)
  | .engst f => some (0x99, f)
  | .arb f => some (0xB0, f)
  | .arc f => some (0xB1, f)
  | .ara f => some (0xB2, f)
  | .arst f => some (0xB3, f)
  | .mma f => some (0xA0, f)
  | .accld f => some (0xA1, f)
  | .accst f => some (0xA2, f)
  | .accz f => some (0xA3, f)
  | .accrd f => some (0xA4, f)
  | .accwr f => some (0xA5, f)
  | .mtok f => some (0xA6, f)
  | .mxq f => some (0xA7, f)
  | .lgfa f => some (0xB8, f)
  | .lgfr f => some (0xB9, f)
  | .samp f => some (0xBA, f)
  | .toks f => some (0xBB, f)
  | .seqq f => some (0xBC, f)
  | .pfxl f => some (0xBD, f)
  | .pfxi f => some (0xBE, f)
  | .mfs f => some (0xC0, f)
  | .mts f => some (0xC1, f)
  | .trap f => some (0xC2, f)
  | .tret f => some (0xC3, f)
  | .spill f => some (0xC4, f)
  | .fill f => some (0xC5, f)
  | .uiret f => some (0xC6, f)
  | .bkpt f => some (0xC7, f)
  | .tlbi f => some (0xC8, f)
  | .ctxs f => some (0xC9, f)
  | .ctxr f => some (0xCA, f)
  | .halt f => some (0xCB, f)
  | .shid f => some (0xCC, f)
  | .shdef f => some (0xCD, f)
  | .shrel f => some (0xCE, f)
  | .octlDecl f => some (0xCF, f)
  | .octlUndecl f => some (0xCF, f)
  | .octlFlush f => some (0xCF, f)
  | .octlQuery f => some (0xCF, f)
  | .verq f => some (0xD0, f)
  | _ => none

/-- The FN that names the instruction where a table row is one FN of an opcode (BOBJ, OCTL). -/
def Instr.fixedFn : Instr → Option Nat
  | .bobjInit _ => some 0 | .bobjArrive _ => some 1 | .bobjWait _ => some 2
  | .octlDecl _ => some 0 | .octlUndecl _ => some 1 | .octlFlush _ => some 2 | .octlQuery _ => some 3
  | _ => none

/-- Numbers that name a core, die, thread, queue, port, context or lane lie in the ranges of R1, R308, R347, R403. -/
def Instr.eventWf : Instr → Bool
  | .joinComplete _ l | .waitseqSatisfied _ l | .sleepWake _ l | .bobjWaitPass _ l | .acwaitProceed _ l
  | .awfSlotTaken _ l | .uiDelivery _ l => l < 32
  | .barrierComplete _ _ n => n < 16
  | .teamAdmit _ d c | .forwardProgressSwap d c => d < 8 && c < 48
  | .safepointTimeout c | .contextActivate c | .contextDeactivate c | .preempt c | .resume c | .kill c
  | .servingEnable c | .servingDisable c => c < 1024
  | .gresume c i | .gkill c i | .gstep c i | .gsave c i | .gload c i => c < 1024 && i < 65536
  | .doorbell t _ | .packetReread t | .launch t | .wait t | .queueWaitSatisfied t | .signal t | .copy t | .barrier t
  | .loopctlSetdepth t | .loopctlDrop t | .loopctlForget t | .nopad t | .packetCompletion t _ | .predictionStart t
  | .relabel t | .discardDone t | .idleTimeout t | .start t | .stop t | .unmap t | .forget t | .queueMap t _
  | .drainingEnd t => t < 32
  | .openSeq d c | .extend d c | .draft d c | .token d c | .closeSeq d c | .give d c | .note d c | .adopt d c
  | .ack d c | .refuse d c => d < 8 && c < 1024
  | .serviceQueueEnable q | .serviceQueueDisable q | .notify q _ _ | .recordReread q | .socket q | .bind q | .connect q
  | .listen q | .acceptConn q | .send q | .recv q | .socketClose q | .rdwrite q | .rdread q | .portq q
  | .callCompletion q _ _ | .pageReturn q => q < 64
  | .portDown p | .portLinkUp p _ => p < 8
  | _ => true

/-- The instruction passes every check of decode step 3 (R106); a row that is no instruction names units that exist. -/
def WellFormed (i : Instr) : Bool :=
  match i.fform with
  | some (op, f) =>
    f.inRange && (match rowOf op with | some r => r.accepts op f | none => false) &&
    (match i.fixedFn with | some n => f.fn = n | none => true)
  | none => match i with
    | .dual p q => p.wf && q.wf
    | i => i.eventWf

end Sys2Proof
end

