-- ==== Sys2Proof/Decode.lean ====
section
/-! DEFINITION. The decoder (R87 to R106, steps 2 and 3), total on any bytes and rejecting by name, and after it the
encoder written from the same field tables. Words are natural numbers below 2^64, fields are quotients and remainders. -/

namespace Sys2Proof

/-- Why the decoder rejects: a prefix rule (step 2), an opcode rule (step 3), or fewer bytes than the instruction has. -/
inductive DecodeError
  | prefixRule | opcodeRule | tooShort
  deriving DecidableEq, Repr

/-- Bits [lo+n-1:lo] of a number. -/
def field (w lo n : Nat) : Nat := w / 2 ^ lo % 2 ^ n

/-- A parcel from its four bytes, little-endian (R87). -/
def parcelOf (a b c d : Byte) : Nat := a.toNat + b.toNat * 256 + c.toNat * 65536 + d.toNat * 16777216

/-- RM codes (R103); 111 is reserved. -/
def RM.ofCode : Nat → Option RM
  | 0 => some .cvm | 1 => some .rne | 2 => some .rtz | 3 => some .rdn | 4 => some .rup | 5 => some .rna | 6 => some .sr
  | _ => none

def RM.code : RM → Nat
  | .cvm => 0 | .rne => 1 | .rtz => 2 | .rdn => 3 | .rup => 4 | .rna => 5 | .sr => 6

/-- SAT codes (R103); 11 is reserved. -/
def SatCtl.ofCode : Nat → Option SatCtl
  | 0 => some .cvm | 1 => some .sat | 2 => some .wrap | _ => none

def SatCtl.code : SatCtl → Nat
  | .cvm => 0 | .sat => 1 | .wrap => 2

/-- A prefix parcel with bits [31:28] = 1111 (R103); reserved values are refused. -/
def decodePfx (w : Nat) : Option Pfx :=
  match RM.ofCode (field w 20 3), SatCtl.ofCode (field w 8 2) with
  | some rm, some st =>
    if field w 0 8 = 0 then
      some { mask := field w 24 4, z := field w 23 1 = 1, rm := rm, c := Name.ofCode (field w 10 10), sat := st }
    else none
  | _, _ => none

/-- A lane pattern byte (R96); LP[5] is zero and reverse takes 1 to 5. -/
def decodePattern (lp : Nat) : Option Pattern :=
  if field lp 5 1 = 0 then
    match field lp 6 2, field lp 0 5 with
    | 0, n => some (.rot n)
    | 1, n => if 1 ≤ n ∧ n ≤ 5 then some (.rev n) else none
    | 2, n => some (.bc n)
    | _, n => some (.pm n)
  else none

/-- Operand B of an F-form word (R90, R91). -/
def decodeB (w : Nat) : Option BOperand :=
  match field w 60 2 with
  | 0 => if field w 42 8 = 0 then some (.reg (Name.ofCode (field w 50 10))) else none
  | 1 => (decodePattern (field w 42 8)).map (.pat (Name.ofCode (field w 50 10)))
  | 2 => if field w 42 2 = 0 then some (.imm (BitVec.ofNat 16 (field w 44 16))) else none
  | _ => none

/-- The instruction of an opcode and FN (R120, R123 to R129). -/
def Instr.ofOp (op fn : Nat) (f : FForm) : Option Instr :=
  match op with
  | 0x00 => some (.nop f)
  | 0x01 => some (.iadd f)
  | 0x02 => some (.isub f)
  | 0x03 => some (.imul f)
  | 0x04 => some (.imulh f)
  | 0x05 => some (.imad f)
  | 0x06 => some (.idiv f)
  | 0x07 => some (.irem f)
  | 0x08 => some (.imin f)
  | 0x09 => some (.imax f)
  | 0x0A => some (.iabs f)
  | 0x0B => some (.ineg f)
  | 0x0C => some (.and f)
  | 0x0D => some (.or f)
  | 0x0E => some (.xor f)
  | 0x0F => some (.andn f)
  | 0x10 => some (.not f)
  | 0x11 => some (.shl f)
  | 0x12 => some (.shr f)
  | 0x13 => some (.sar f)
  | 0x14 => some (.rot f)
  | 0x15 => some (.bfe f)
  | 0x16 => some (.bfi f)
  | 0x17 => some (.popc f)
  | 0x18 => some (.clz f)
  | 0x19 => some (.brev f)
  | 0x1A => some (.icmp f)
  | 0x1B => some (.sel f)
  | 0x1C => some (.iadds f)
  | 0x1D => some (.isubs f)
  | 0x1E => some (.lea f)
  | 0x1F => some (.mov f)
  | 0x20 => some (.lil f)
  | 0x21 => some (.lih f)
  | 0x22 => some (.vote f)
  | 0x23 => some (.shfl f)
  | 0x24 => some (.redu f)
  | 0x25 => some (.scan f)
  | 0x26 => some (.matchEq f)
  | 0x27 => some (.elect f)
  | 0x28 => some (.prmt f)
  | 0x29 => some (.idot4 f)
  | 0x2A => some (.idot8 f)
  | 0x30 => some (.fadd f)
  | 0x31 => some (.fsub f)
  | 0x32 => some (.fmul f)
  | 0x33 => some (.fma f)
  | 0x34 => some (.fmin f)
  | 0x35 => some (.fmax f)
  | 0x36 => some (.fabs f)
  | 0x37 => some (.fneg f)
  | 0x38 => some (.fsgn f)
  | 0x39 => some (.fcmp f)
  | 0x3A => some (.frcp f)
  | 0x3B => some (.frsq f)
  | 0x3C => some (.fsqrt f)
  | 0x3D => some (.fdiv f)
  | 0x3E => some (.fexp2 f)
  | 0x3F => some (.flog2 f)
  | 0x40 => some (.fsin f)
  | 0x41 => some (.fcos f)
  | 0x42 => some (.ftanh f)
  | 0x43 => some (.fsigm f)
  | 0x44 => some (.fclas f)
  | 0x45 => some (.frnd f)
  | 0x46 => some (.fscal f)
  | 0x47 => some (.fdot2 f)
  | 0x48 => some (.fdot4 f)
  | 0x49 => some (.smrg f)
  | 0x50 => some (.cvt f)
  | 0x51 => some (.cvtfi f)
  | 0x52 => some (.cvtif f)
  | 0x53 => some (.cvtii f)
  | 0x54 => some (.pack f)
  | 0x55 => some (.unpk f)
  | 0x56 => some (.qnt f)
  | 0x57 => some (.dqnt f)
  | 0x58 => some (.uadd f)
  | 0x59 => some (.usub f)
  | 0x5A => some (.umul f)
  | 0x5B => some (.uand f)
  | 0x5C => some (.uor f)
  | 0x5D => some (.uxor f)
  | 0x5E => some (.ushl f)
  | 0x5F => some (.ushr f)
  | 0x60 => some (.ucmp f)
  | 0x61 => some (.usel f)
  | 0x62 => some (.ulil f)
  | 0x63 => some (.ulih f)
  | 0x64 => some (.umin f)
  | 0x65 => some (.umax f)
  | 0x66 => some (.upick f)
  | 0x67 => some (.ulea f)
  | 0x68 => some (.ufadd f)
  | 0x69 => some (.ufmul f)
  | 0x6A => some (.ufma f)
  | 0x6B => some (.umov f)
  | 0x6C => some (.ucvt f)
  | 0x70 => some (.bra f)
  | 0x71 => some (.bru f)
  | 0x72 => some (.jmpi f)
  | 0x73 => some (.call f)
  | 0x74 => some (.calli f)
  | 0x75 => some (.ret f)
  | 0x76 => some (.join f)
  | 0x77 => some (.exit f)
  | 0x78 => some (.bar f)
  | 0x79 => some (.cbar f)
  | 0x7A => some (.waitseq f)
  | 0x7B => some (.sleep f)
  | 0x7C => some (.pause f)
  | 0x7D => some (.setpri f)
  | 0x7E => some (.yield f)
  | 0x7F => some (.loop f)
  | 0x80 => some (.ld f)
  | 0x81 => some (.st f)
  | 0x82 => some (.lds f)
  | 0x83 => some (.sts f)
  | 0x84 => some (.ldk f)
  | 0x85 => some (.ldt f)
  | 0x86 => some (.stt f)
  | 0x87 => some (.atom f)
  | 0x89 => some (.atoms f)
  | 0x88 => some (.cas f)
  | 0x8A => some (.cass f)
  | 0x8B => some (.lda f)
  | 0x8C => some (.str f)
  | 0x8D => some (.fence f)
  | 0x8E => some (.pref f)
  | 0x8F => some (.cwb f)
  | 0x90 => some (.cinv f)
  | 0x92 => some (.acp f)
  | 0x93 => some (.acwait f)
  | 0x94 => some (.accnt f)
  | 0x95 => some (.rngi f)
  | 0x96 => some (.awf f)
  | 0x97 => some (.rls f)
  | 0x98 => some (.enq f)
  | 0x99 => some (.engst f)
  | 0xB0 => some (.arb f)
  | 0xB1 => some (.arc f)
  | 0xB2 => some (.ara f)
  | 0xB3 => some (.arst f)
  | 0xA0 => some (.mma f)
  | 0xA1 => some (.accld f)
  | 0xA2 => some (.accst f)
  | 0xA3 => some (.accz f)
  | 0xA4 => some (.accrd f)
  | 0xA5 => some (.accwr f)
  | 0xA6 => some (.mtok f)
  | 0xA7 => some (.mxq f)
  | 0xB8 => some (.lgfa f)
  | 0xB9 => some (.lgfr f)
  | 0xBA => some (.samp f)
  | 0xBB => some (.toks f)
  | 0xBC => some (.seqq f)
  | 0xBD => some (.pfxl f)
  | 0xBE => some (.pfxi f)
  | 0xC0 => some (.mfs f)
  | 0xC1 => some (.mts f)
  | 0xC2 => some (.trap f)
  | 0xC3 => some (.tret f)
  | 0xC4 => some (.spill f)
  | 0xC5 => some (.fill f)
  | 0xC6 => some (.uiret f)
  | 0xC7 => some (.bkpt f)
  | 0xC8 => some (.tlbi f)
  | 0xC9 => some (.ctxs f)
  | 0xCA => some (.ctxr f)
  | 0xCB => some (.halt f)
  | 0xCC => some (.shid f)
  | 0xCD => some (.shdef f)
  | 0xCE => some (.shrel f)
  | 0xD0 => some (.verq f)
  | 0x91 => match fn with
    | 0 => some (.bobjInit f) | 1 => some (.bobjArrive f) | 2 => some (.bobjWait f) | _ => none
  | 0xCF => match fn with
    | 0 => some (.octlDecl f) | 1 => some (.octlUndecl f) | 2 => some (.octlFlush f) | 3 => some (.octlQuery f)
    | _ => none
  | _ => none

/-- The fields of an F-form word (R90). -/
def decodeFields (w : Nat) (p : Option Pfx) : Option FForm :=
  (decodeB w).map fun b =>
    { sp := field w 62 1 = 1, ty := Ty.ofCode (field w 38 4), fn := field w 20 4, x := field w 32 6,
      d := Name.ofCode (field w 10 10), a := Name.ofCode (field w 0 10), b := b, pfx := p }

/-- An F-form word, bit 63 clear (R90, R91, R120). -/
def decodeF (w : Nat) (p : Option Pfx) : Option Instr :=
  match decodeFields w p with
  | some f =>
    match Instr.ofOp (field w 24 8) f.fn f with
    | some i => if WellFormed i then some i else none
    | none => none
  | none => none

/-- Dual opcodes in code order (R132). -/
def dops : List DOp :=
  [.nop, .iadd, .isub, .imul, .imin, .imax, .iabs, .ineg, .and, .or, .xor, .andn, .shl, .shr, .sar, .rot, .mov, .lil,
   .brev, .icmpEq, .icmpNe, .icmpLt, .icmpLe, .icmpLtu, .icmpLeu, .sel, .fadd, .fsub, .fmul, .fmin, .fmax, .fabs, .fneg,
   .fcmpEq, .fcmpLt, .fcmpLe, .cvtF32F16, .cvtF32Bf16, .cvtF16F32, .cvtBf16F32, .uadd, .usub, .uand, .uor, .umov, .ulil,
   .lds, .sts]

/-- TY3 codes in order (R99). -/
def ty3s : List Ty3 := [.i32, .ui32, .f32, .f16, .bf16, .i16, .i8, .b32]

/-- A nine-bit name (R94). -/
def Name.ofCode9 (k : Nat) : Name :=
  if k < 256 then .v k else if k < 352 then .s (k - 256) else if k < 368 then .m (k - 352) else .reserved k

/-- The value of a nine-bit name (R94). -/
def Name.code9 : Name → Nat
  | .v n => n | .s n => 256 + n | .m n => 352 + n | .reserved n => n | _ => 0

/-- One slot of a D-form word, as its 31 bits (R99). -/
def decodeSlot (w : Nat) : Option DSlot :=
  match dops[field w 25 6]?, ty3s[field w 3 3]? with
  | some op, some ty =>
    if field w 0 3 = 0 then
      some { op := op, ty := ty, a := Name.ofCode9 (field w 16 9),
             b := if field w 6 1 = 1 then .imm (BitVec.ofNat 9 (field w 7 9)) else .reg (Name.ofCode9 (field w 7 9)) }
    else none
  | _, _ => none

/-- A D-form word, bit 63 set (R99): bit 31 is zero. -/
def decodeD (w : Nat) : Option Instr :=
  if field w 31 1 = 0 then
    match decodeSlot (field w 0 31), decodeSlot (field w 32 31) with
    | some p, some q => if WellFormed (.dual p q) then some (.dual p q) else none
    | _, _ => none
  else none

/-- A word without a prefix: bit 63 selects the form (R88). -/
def decodeWord (w : Nat) : Option Instr :=
  if field w 63 1 = 0 then decodeF w none else decodeD w

/-- The instruction at the start of a byte list and its length in bytes (R87, R88, R106 steps 2 and 3). -/
def decode : List Byte → Except DecodeError (Instr × Nat)
  | a :: b :: c :: d :: e :: f :: g :: h :: rest =>
    let p0 := parcelOf a b c d
    let p1 := parcelOf e f g h
    if field p0 28 4 = 15 then
      if field p1 28 4 = 15 then .error .prefixRule
      else match rest with
        | i :: j :: k :: l :: _ =>
          let w := p1 + parcelOf i j k l * 2 ^ 32
          if field w 63 1 = 1 then .error .prefixRule
          else match decodePfx p0 with
            | none => .error .prefixRule
            | some p => match decodeF w (some p) with
              | some i => .ok (i, 12)
              | none => .error .opcodeRule
        | _ => .error .tooShort
    else match decodeWord (p0 + p1 * 2 ^ 32) with
      | some i => .ok (i, 8)
      | none => .error .opcodeRule
  | _ => .error .tooShort

/-- The four bytes of a parcel, little-endian (R87). -/
def parcelBytes (p : Nat) : List Byte :=
  [BitVec.ofNat 8 p, BitVec.ofNat 8 (p / 256), BitVec.ofNat 8 (p / 65536), BitVec.ofNat 8 (p / 16777216)]

/-- The instruction whose bits are `w`, bit 0 the least significant bit of its first parcel; bits above `nbits` are zero. -/
def decodeTableWord (nbits w : Nat) : Option Instr :=
  let v := w % 2 ^ nbits
  match decode (parcelBytes v ++ parcelBytes (v / 2 ^ 32) ++ parcelBytes (v / 2 ^ 64)) with
  | .ok (i, _) => some i
  | .error _ => none

/-- The LP byte of a lane pattern (R96). -/
def Pattern.code : Pattern → Nat
  | .rot n => n | .rev n => 64 + n | .bc n => 128 + n | .pm n => 192 + n

/-- Bits [61:42] of operand B (R90). -/
def BOperand.code : BOperand → Nat
  | .reg n => n.code * 2 ^ 8
  | .pat n p => 2 ^ 18 + n.code * 2 ^ 8 + p.code
  | .imm i => 2 ^ 19 + i.toNat * 2 ^ 2

/-- The prefix parcel (R103). -/
def encodePfx (p : Pfx) : Nat :=
  15 * 2 ^ 28 + p.mask * 2 ^ 24 + (if p.z then 2 ^ 23 else 0) + p.rm.code * 2 ^ 20 + p.c.code * 2 ^ 10 + p.sat.code * 2 ^ 8

/-- The F-form word of an opcode and its fields (R90). -/
def encodeF (op : Nat) (f : FForm) : Nat :=
  (if f.sp then 2 ^ 62 else 0) + f.b.code * 2 ^ 42 + f.ty.code * 2 ^ 38 + f.x * 2 ^ 32 + op * 2 ^ 24 + f.fn * 2 ^ 20 +
  f.d.code * 2 ^ 10 + f.a.code

/-- Bits of source B of a slot (R99). -/
def DSrc.code : DSrc → Nat
  | .reg n => n.code9 * 2 ^ 7
  | .imm i => i.toNat * 2 ^ 7 + 2 ^ 6

/-- The 31 bits of a slot (R99). -/
def encodeSlot (p : DSlot) : Nat :=
  dops.idxOf p.op * 2 ^ 25 + p.a.code9 * 2 ^ 16 + p.b.code + ty3s.idxOf p.ty * 2 ^ 3

/-- The parcels of an instruction, first at the lowest address; a row that is no instruction has none. -/
def encode (i : Instr) : List Nat :=
  match i.fform with
  | some (op, f) =>
    let w := encodeF op f
    (match f.pfx with | some p => [encodePfx p] | none => []) ++ [w % 2 ^ 32, w / 2 ^ 32]
  | none => match i with
    | .dual p q => let w := 2 ^ 63 + encodeSlot q * 2 ^ 32 + encodeSlot p; [w % 2 ^ 32, w / 2 ^ 32]
    | _ => []

/-- The bytes of an instruction in memory. -/
def encodeBytes (i : Instr) : List Byte := (encode i).flatMap parcelBytes

end Sys2Proof
end

