-- ==== Sys2Proof/Machine/Num.lean ====
section
/-! DEFINITION. Number formats, exact arithmetic and rounding (R66 to R72, R157 to R163).
A value is a NaN, an infinity, or a sign with a magnitude m × 2^e; `sticky` says that the true magnitude lies strictly
between m × 2^e and (m + 1) × 2^e. Results are computed exactly or with far more bits than any destination holds, and
rounded once. -/

namespace Sys2Proof


/-- A floating-point format (R67). `top` is the largest finite code without its sign. -/
structure Fmt where
  bits   : Nat
  mbits  : Nat
  bias   : Nat
  hasInf : Bool
  hasNan : Bool
  nan    : Nat
  top    : Nat
  deriving DecidableEq, Repr

def Fmt.f64 : Fmt := ⟨64, 52, 1023, true, true, 0x7FF8000000000000, 0x7FEFFFFFFFFFFFFF⟩
def Fmt.f32 : Fmt := ⟨32, 23, 127, true, true, 0x7FC00000, 0x7F7FFFFF⟩
def Fmt.f16 : Fmt := ⟨16, 10, 15, true, true, 0x7E00, 0x7BFF⟩
def Fmt.bf16 : Fmt := ⟨16, 7, 127, true, true, 0x7FC0, 0x7F7F⟩
def Fmt.e4m3 : Fmt := ⟨8, 3, 7, false, true, 0x7F, 0x7E⟩
def Fmt.e5m2 : Fmt := ⟨8, 2, 15, true, true, 0x7E, 0x7B⟩
def Fmt.e2m1 : Fmt := ⟨4, 1, 1, false, false, 0, 7⟩

/-- The format of a floating type; integer types have none and answer FP32. -/
def Ty.fmt : Ty → Fmt
  | .f16 => .f16 | .bf16 => .bf16 | .f64 => .f64 | .e4m3 => .e4m3 | .e5m2 => .e5m2 | .packed => .e2m1 | _ => .f32

/-- Width of a type in bits (R95). -/
def Ty.bits : Ty → Nat
  | .i8 | .ui8 | .e4m3 | .e5m2 => 8
  | .i16 | .ui16 | .f16 | .bf16 => 16
  | .i64 | .ui64 | .f64 => 64
  | .packed => 4
  | _ => 32

def Ty.is64 (t : Ty) : Bool := t.bits = 64

def Ty.signed : Ty → Bool
  | .i8 | .i16 | .i32 | .i64 => true | _ => false

def Ty.isFloat : Ty → Bool
  | .f16 | .bf16 | .f32 | .f64 | .e4m3 | .e5m2 => true | _ => false

/-- Element size in bytes (R95). -/
def Ty.size (t : Ty) : Nat := t.bits / 8

/-- An exact value or a magnitude with a sticky tail. -/
inductive FV
  | nan
  | inf (neg : Bool)
  | fin (neg : Bool) (m : Nat) (e : Int) (sticky : Bool)
  deriving DecidableEq, Repr

/-- The number of bits of n. -/
def bitLen (n : Nat) : Nat := if n = 0 then 0 else n.log2 + 1

/-- 2^k for k ≥ 0, else 1. -/
def pow2 (k : Int) : Nat := 2 ^ k.toNat

/-- Dec of R14: the exact value of a code (R67). -/
def Fmt.dec (f : Fmt) (code : Nat) : FV :=
  let neg := code / 2 ^ (f.bits - 1) % 2 = 1
  let mag := code % 2 ^ (f.bits - 1)
  let m := mag % 2 ^ f.mbits
  let e := mag / 2 ^ f.mbits
  if f.hasNan && mag > f.top then
    if f.hasInf && m = 0 then .inf neg else .nan
  else if e = 0 then .fin neg m (1 - (f.bias : Int) - f.mbits) false
  else .fin neg (2 ^ f.mbits + m) ((e : Int) - f.bias - f.mbits) false

/-- Whether a code is a NaN whose top mantissa bit is 0 (R161). -/
def Fmt.isSignalling (f : Fmt) (code : Nat) : Bool :=
  f.dec code = .nan && code / 2 ^ (f.mbits - 1) % 2 = 0

/-- A mode rounds toward zero for this sign (R72). -/
def RM.towardZero (r : RM) (neg : Bool) : Bool :=
  match r with
  | .rtz => true | .rdn => !neg | .rup => neg | _ => false

/-- Whether a magnitude lo.frac goes to lo + 1 (R70). `rem` of `2^sh` is the fraction, `draw` the 16 bits of SR. -/
def roundsUp (mode : RM) (neg : Bool) (lo rem sh : Nat) (sticky : Bool) (draw : Nat) : Bool :=
  let inexact := rem != 0 || sticky
  let half := 2 ^ sh / 2
  match mode with
  | .rtz => false
  | .rdn => neg && inexact
  | .rup => !neg && inexact
  | .rna => sh != 0 && rem ≥ half
  | .sr =>
    if !inexact then false
    else
      let x := rem * 65536 / 2 ^ sh
      let whole := x * 2 ^ sh = rem * 65536 && !sticky
      if neg then
        let q := if whole then 65536 - x else 65535 - x
        !(q + draw ≥ 65536)
      else x + draw ≥ 65536
  | _ => sh != 0 && (rem > half || (rem = half && (sticky || lo % 2 = 1)))

/-- The integer magnitude of m × 2^e rounded to a multiple of 2^q, in units of 2^q (R70). Shifts beyond the value's bits
are cut short: only the sticky tail is left of it. -/
def roundMag (mode : RM) (neg : Bool) (m : Nat) (e q : Int) (sticky : Bool) (draw : Nat) : Nat :=
  if q ≤ e then m * pow2 (e - q)
  else
    let sh := (q - e).toNat
    let far := sh > bitLen m + 20
    let m' := if far then (if m = 0 && !sticky then 0 else 1) else m
    let sh' := if far then 40 else sh
    let lo := m' / 2 ^ sh'
    let rem := m' % 2 ^ sh'
    if roundsUp mode neg lo rem sh' (sticky || (far && m != 0)) draw then lo + 1 else lo

/-- The code of an overflow (R72). -/
def Fmt.overflow (f : Fmt) (mode : RM) (sat neg : Bool) : Nat :=
  let s := if neg then 2 ^ (f.bits - 1) else 0
  if sat || mode.towardZero neg || !f.hasNan then s + f.top
  else if f.hasInf then s + f.top + 1 else s + f.nan

/-- The code of an infinite result (R72): with SAT = 0 a format without infinities gives its canonical NaN. -/
def Fmt.infCode (f : Fmt) (sat neg : Bool) : Nat :=
  let s := if neg then 2 ^ (f.bits - 1) else 0
  if sat || !f.hasNan then s + f.top else if f.hasInf then s + f.top + 1 else f.nan

/-- A value rounded once to a format, with the overflow rule (RoundTo and SatTo of R14, R70, R72). -/
def Fmt.round (f : Fmt) (mode : RM) (sat : Bool) (draw : Nat) : FV → Nat
  | .nan => f.nan
  | .inf neg => f.infCode sat neg
  | .fin neg m e sticky =>
    let s := if neg then 2 ^ (f.bits - 1) else 0
    if m = 0 && !sticky then s
    else
      let lead := e + bitLen m - 1
      let emin : Int := 1 - (f.bias : Int)
      if lead > (f.bias : Int) + 1 then f.overflow mode sat neg
      else
        let q := (if lead < emin then emin else lead) - f.mbits
        let r := roundMag mode neg m e q sticky draw
        let carry := r ≥ 2 ^ (f.mbits + 1)
        let r' := if carry then r / 2 else r
        let q' := if carry then q + 1 else q
        let code := if r' < 2 ^ f.mbits then r' else ((q' + f.mbits + f.bias).toNat) * 2 ^ f.mbits + (r' - 2 ^ f.mbits)
        if code > f.top then f.overflow mode sat neg else s + code

/-- A value rounded to an integer (R70, R166); NaN and infinities give none. -/
def FV.toInt (mode : RM) (draw : Nat) : FV → Option Int
  | .fin neg m e sticky =>
    let r : Int := roundMag mode neg m e 0 sticky draw
    some (if neg then -r else r)
  | _ => none

def FV.ofInt (i : Int) : FV := .fin (i < 0) i.natAbs 0 false

def FV.isZero : FV → Bool
  | .fin _ 0 _ false => true | _ => false

def FV.neg : FV → FV
  | .nan => .nan | .inf s => .inf (!s) | .fin s m e t => .fin (!s) m e t

def FV.abs : FV → FV
  | .nan => .nan | .inf _ => .inf false | .fin _ m e t => .fin false m e t

def FV.isNeg : FV → Bool
  | .nan => false | .inf s => s | .fin s _ _ _ => s

/-- Signed mantissa at exponent e' ≤ e. -/
def signedAt (neg : Bool) (m : Nat) (e e' : Int) : Int :=
  let x : Int := m * pow2 (e - e')
  if neg then -x else x

/-- The exact sum; `down` is RDN's sign of an exact zero (R157). -/
def FV.add (down : Bool) : FV → FV → FV
  | .nan, _ => .nan
  | _, .nan => .nan
  | .inf a, .inf b => if a = b then .inf a else .nan
  | .inf a, _ => .inf a
  | _, .inf b => .inf b
  | .fin a m e s, .fin b n g t =>
    if m = 0 && !s && n = 0 && !t then .fin (if a = b then a else down) 0 0 false
    else if m = 0 && !s then .fin b n g t
    else if n = 0 && !t then .fin a m e s
    else
      let q := if e ≤ g then e else g
      let x := signedAt a m e q + signedAt b n g q
      if x = 0 then .fin down 0 0 false else .fin (x < 0) x.natAbs q (s || t)

/-- The exact product. -/
def FV.mul : FV → FV → FV
  | .nan, _ => .nan
  | _, .nan => .nan
  | .inf a, .inf b => .inf (a != b)
  | .inf a, .fin b n _ t => if n = 0 && !t then .nan else .inf (a != b)
  | .fin a m _ s, .inf b => if m = 0 && !s then .nan else .inf (a != b)
  | .fin a m e s, .fin b n g t => .fin (a != b) (m * n) (e + g) (s || t)

/-- A quotient with at least 120 bits and its sticky tail (R157). -/
def FV.div : FV → FV → FV
  | .nan, _ => .nan
  | _, .nan => .nan
  | .inf _, .inf _ => .nan
  | .inf a, .fin b _ _ _ => .inf (a != b)
  | .fin a _ _ _, .inf b => .fin (a != b) 0 0 false
  | .fin a m e _, .fin b n g _ =>
    if n = 0 then (if m = 0 then .nan else .inf (a != b))
    else
      let k := bitLen n + 120
      let x := m * 2 ^ k
      .fin (a != b) (x / n) (e - g - k) (x % n != 0)

/-- Integer square root, digit by digit. -/
def isqrtGo (n : Nat) : Nat → Nat → Nat
  | 0, r => r
  | k + 1, r => let c := r + 2 ^ k; isqrtGo n k (if c * c ≤ n then c else r)

def isqrt (n : Nat) : Nat := isqrtGo n (bitLen n / 2 + 1) 0

/-- The square root of m × 2^e with at least 100 bits and its sticky tail. -/
def FV.sqrt : FV → FV
  | .nan => .nan
  | .inf neg => if neg then .nan else .inf false
  | .fin neg m e _ =>
    if m = 0 then .fin neg 0 0 false
    else if neg then .nan
    else
      let k : Int := 220 + (e % 2)
      let x := m * pow2 k
      let r := isqrt x
      .fin false r ((e - k) / 2) (r * r != x)

/-- 1 / √A (R157). -/
def FV.rsqrt : FV → FV
  | .nan => .nan
  | .inf neg => if neg then .nan else .fin false 0 0 false
  | .fin neg m e _ =>
    if m = 0 then .inf neg
    else if neg then .nan
    else
      let k : Int := 2 * bitLen m + 240 + (e % 2)
      let x := pow2 k / m
      let r := isqrt x
      .fin false r ((-e - k) / 2) (r * r * m != pow2 k)

/-- A × 2^n. -/
def FV.scale (n : Int) : FV → FV
  | .fin s m e t => .fin s m (e + n) t
  | x => x

/-- x < y for values that are not NaN; zeros are equal. -/
def FV.lt : FV → FV → Bool
  | .nan, _ => false
  | _, .nan => false
  | .inf a, .inf b => a && !b
  | .inf a, .fin _ _ _ _ => a
  | .fin _ _ _ _, .inf b => !b
  | .fin a m e _, .fin b n g _ =>
    let q := if e ≤ g then e else g
    signedAt a m e q < signedAt b n g q

/-- Equal values; zeros are equal, NaN equals nothing. -/
def FV.eqv (x y : FV) : Bool :=
  x != .nan && y != .nan && !x.lt y && !y.lt x

/-- ⌊log2 |x|⌋ of a finite non-zero value. -/
def FV.log2Floor : FV → Int
  | .fin _ m e _ => e + bitLen m - 1
  | _ => 0

/-- Low n bits of an integer, as a number. -/
def wrapInt (n : Nat) (i : Int) : Nat := (i % (2 ^ n : Int)).toNat

/-- The integer value of an element (R66). -/
def Ty.intVal (t : Ty) (code : Nat) : Int :=
  let w := t.bits
  let c := code % 2 ^ w
  if t.signed && c ≥ 2 ^ (w - 1) then (c : Int) - 2 ^ w else c

/-- Range of an integer type (R66). -/
def Ty.minInt (t : Ty) : Int := if t.signed then -(2 ^ (t.bits - 1) : Int) else 0
def Ty.maxInt (t : Ty) : Int := if t.signed then 2 ^ (t.bits - 1) - 1 else 2 ^ t.bits - 1

def clampInt (x lo hi : Int) : Int := if x < lo then lo else if x > hi then hi else x

/-- An integer to a type by saturation or wrapping (R72, R168). -/
def Ty.fitInt (t : Ty) (sat : Bool) (i : Int) : Nat :=
  wrapInt t.bits (if sat then clampInt i t.minInt t.maxInt else i)

/-- Floating value to an integer type (R72, R166). -/
def Ty.ofFV (t : Ty) (mode : RM) (sat : Bool) (draw : Nat) (x : FV) : Nat :=
  match x with
  | .nan => 0
  | .inf neg => if sat then wrapInt t.bits (if neg then t.minInt else t.maxInt) else 0
  | _ => match x.toInt mode draw with
    | some i => t.fitInt sat i
    | none => 0

/-- The value of an element of any type: integers exactly, floats by Dec. -/
def Ty.val (t : Ty) (code : Nat) : FV :=
  if t.isFloat then t.fmt.dec (code % 2 ^ t.bits) else .ofInt (t.intVal code)

/-- Every value of the source type is a value of the destination format: the conversion rounds no element (R71, R165). -/
def exactConv (src dst : Ty) : Bool :=
  if src.isFloat then
    src.fmt.mbits ≤ dst.fmt.mbits && src.fmt.bias ≤ dst.fmt.bias &&
    1 - (dst.fmt.bias : Int) - dst.fmt.mbits ≤ 1 - (src.fmt.bias : Int) - src.fmt.mbits && (dst.fmt.hasInf || !src.fmt.hasInf)
  else
    let n := if src.signed then src.bits - 1 else src.bits
    n ≤ dst.fmt.mbits + 1 && src.bits ≤ dst.fmt.bias + 1

/-- A value of type FP32 from a bit pattern, and back by RNE with IEEE overflow. -/
def dec32 (w : Word) : FV := Fmt.f32.dec w.toNat
def rnd32 (x : FV) : Word := BitVec.ofNat 32 (Fmt.f32.round .rne false 0 x)

/-- NaN of FP32 (R68). -/
def nan32 : Word := 0x7FC00000#32

end Sys2Proof
end

