-- ==== Sys2Proof/Machine/Block.lean ====
section
/-! DEFINITION. MX blocks and O4 blocks (R73 to R76), the draws of $rng (R71), and the BF16 alias (R79, R80).
A block is 32 values, its data bytes as numbers, and its scale code. -/

namespace Sys2Proof

/-- RngStep of R71: the new state; its draw is the top 16 bits. -/
def rngStep (x : DWord) : DWord :=
  let a := x ^^^ (x <<< 13)
  let b := a ^^^ (a >>> 7)
  b ^^^ (b <<< 17)

/-- The state after rounding one element and its draw; only SR draws (R71). -/
def drawOne (mode : RM) (rng : DWord) : DWord × Nat :=
  match mode with
  | .sr => let r := rngStep rng; (r, r.toNat / 2 ^ 48)
  | _ => (rng, 0)

/-- Block formats, FMT codes 0x10 to 0x13 (R81). -/
inductive BlkFmt
  | mxfp4 | o4 | mxE4m3 | mxE5m2
  deriving DecidableEq, Repr

def BlkFmt.ofCode : Nat → Option BlkFmt
  | 0x10 => some .mxfp4 | 0x11 => some .o4 | 0x12 => some .mxE4m3 | 0x13 => some .mxE5m2 | _ => none

/-- Element width in bits (R73). -/
def BlkFmt.width : BlkFmt → Nat
  | .mxfp4 | .o4 => 4 | _ => 8

/-- Data bytes of a block (R73). -/
def BlkFmt.dataBytes (f : BlkFmt) : Nat := 4 * f.width

/-- Element format of an MX block (R73). -/
def BlkFmt.elem : BlkFmt → Fmt
  | .mxE4m3 => .e4m3 | .mxE5m2 => .e5m2 | _ => .e2m1

/-- emax of R74. -/
def BlkFmt.emax : BlkFmt → Int
  | .mxE4m3 => 8 | .mxE5m2 => 15 | _ => 2

/-- The value of a raw INT4 code (R66, R75). -/
def int4Val (c : Nat) : FV := .ofInt (if c % 16 ≥ 8 then (c % 16 : Int) - 16 else c % 16)

/-- Nibble k of the data bytes (R73). -/
def nibbleOf (data : List Nat) (k : Nat) : Nat := data.getD (k / 2) 0 / 16 ^ (k % 2) % 16

/-- Pairs of nibbles packed to bytes, low nibble first (R73). -/
def packNibbles : List Nat → List Nat
  | a :: b :: r => (a % 16 + 16 * (b % 16)) :: packNibbles r
  | [a] => [a % 16]
  | [] => []

/-- The four unscaled values of an O4 pair from its bytes 2j and 2j + 1 (R75). -/
def o4Pair (lo hi : Nat) : List FV :=
  let z : FV := .fin false 0 0 false
  let n0 := lo % 16
  let n1 := lo / 16 % 16
  let n2 := hi % 16
  let n3 := hi / 16 % 16
  if n0 = 8 then [Fmt.e4m3.dec hi, (if n1 = 8 then z else int4Val n1), z, z]
  else if n1 = 8 then [int4Val n0, Fmt.e4m3.dec hi, z, z]
  else if n2 = 8 then [z, z, Fmt.e4m3.dec lo, (if n3 = 8 then z else int4Val n3)]
  else if n3 = 8 then [z, z, int4Val n2, Fmt.e4m3.dec lo]
  else [int4Val n0, int4Val n1, int4Val n2, int4Val n3]

/-- The pairs of an O4 block in order. -/
def o4Pairs : List Nat → List FV
  | a :: b :: r => o4Pair a b ++ o4Pairs r
  | _ => []

/-- The unscaled element values of a block (R73, R75). -/
def BlkFmt.codes (f : BlkFmt) (data : List Nat) : List FV :=
  match f with
  | .o4 => o4Pairs data
  | .mxfp4 => (List.range 32).map fun k => Fmt.e2m1.dec (nibbleOf data k)
  | _ => data.map fun b => f.elem.dec (b % 256)

/-- The 32 values of a block (R73): a scale code of 0xFF makes all of them NaN. -/
def BlkFmt.decode (f : BlkFmt) (data : List Nat) (scale : Nat) : List FV :=
  if scale = 255 then List.replicate 32 .nan
  else (f.codes data).map fun v => v.scale ((scale : Int) - 127)

def FV.isFinite : FV → Bool
  | .fin _ _ _ _ => true | _ => false

/-- max |x| of a list of finite values. -/
def maxAbs : List FV → FV
  | [] => .fin false 0 0 false
  | x :: r => let m := maxAbs r; if m.lt x.abs then x.abs else m

/-- Element codes, rounded in the mode with the draw of each element, clamped to the element's maximum (R74). -/
def quantElems (e : Fmt) (mode : RM) (X : Int) (ds : Nat → Nat) (xs : List FV) : List Nat :=
  xs.zipIdx.map fun p => e.round mode true (ds p.2) (p.1.scale (-X))

/-- QuantMX of R74: data bytes and scale; `ds k` is the draw of element k. -/
def quantMX (f : BlkFmt) (mode : RM) (sat : Bool) (ds : Nat → Nat) (xs : List FV) : List Nat × Nat :=
  if !xs.all FV.isFinite then (List.replicate f.dataBytes 0, 255)
  else
    let m := maxAbs xs
    if m.isZero then (List.replicate f.dataBytes 0, 0)
    else
      let X := clampInt (m.log2Floor - f.emax + (if sat then 0 else 1)) (-127) 127
      let q := quantElems f.elem mode X ds xs
      ((if f.width = 4 then packNibbles q else q), (X + 127).toNat)

/-- An index into its place by decreasing |x|, ties to the lower index (R76). -/
def rankInsert (xs : List FV) (k : Nat) : List Nat → List Nat
  | [] => [k]
  | j :: r =>
    if ((xs.getD j .nan).abs).lt (xs.getD k .nan).abs then k :: j :: r else j :: rankInsert xs k r

/-- The elements in rank order (R76). -/
def ranking (xs : List FV) : List Nat :=
  (List.range xs.length).foldl (fun acc k => rankInsert xs k acc) []

/-- The greedy choice of outliers, one for each pair (R76). -/
def pickOutliers (xs : List FV) (X : Int) : List Nat → List Nat → List Nat
  | [], picked => picked
  | k :: r, picked =>
    let big := !((xs.getD k .nan).abs.lt (.fin false 8 X false))
    if big && !picked.any (fun j => j / 4 == k / 4) then pickOutliers xs X r (k :: picked)
    else pickOutliers xs X r picked

/-- Int4 of R76 as a nibble. -/
def quantInt4 (mode : RM) (X : Int) (d : Nat) (x : FV) : Nat :=
  wrapInt 4 (clampInt (((x.scale (-X)).toInt mode d).getD 0) (-7) 7)

/-- The payload of an outlier; in the even byte it must not read as a marker (R76). -/
def quantPayload (mode : RM) (sat : Bool) (X : Int) (d : Nat) (even : Bool) (x : FV) : Nat :=
  let p := Fmt.e4m3.round mode sat d (x.scale (-X))
  if even && p % 16 = 8 then p - 1 else p

/-- Bytes 2j and 2j + 1 of an O4 block whose pair j has its outlier at place `pick` (R76). -/
def quantPair (mode : RM) (sat : Bool) (X : Int) (ds : Nat → Nat) (xs : List FV) (j : Nat) (pick : Option Nat) : List Nat :=
  let n := fun k => quantInt4 mode X (ds (4 * j + k)) (xs.getD (4 * j + k) .nan)
  let p := fun k => quantPayload mode sat X (ds (4 * j + k)) (2 ≤ k) (xs.getD (4 * j + k) .nan)
  match pick with
  | none => [n 0 + 16 * n 1, n 2 + 16 * n 3]
  | some 0 => [8 + 16 * n 1, p 0]
  | some 1 => [n 0 + 128, p 1]
  | some 2 => [p 2, 8 + 16 * n 3]
  | some _ => [p 3, n 2 + 128]

/-- QuantO4 of R76: data bytes and scale. -/
def quantO4 (mode : RM) (sat : Bool) (ds : Nat → Nat) (xs : List FV) : List Nat × Nat :=
  if !xs.all FV.isFinite then (List.replicate 16 0, 255)
  else
    let order := ranking xs
    let ninth := (xs.getD (order.getD 8 0) .nan).abs
    let m := if ninth.isZero then maxAbs xs else ninth
    if m.isZero then (List.replicate 16 0, 0)
    else
      let X := clampInt (m.log2Floor - 2) (-127) 127
      let picked := pickOutliers xs X (order.take 8) []
      ((List.range 8).flatMap fun j =>
        quantPair mode sat X ds xs j ((picked.find? (fun k => k / 4 == j)).map (fun k => k % 4)), (X + 127).toNat)

/-- A block encoded in its format (R74, R76). -/
def BlkFmt.quant (f : BlkFmt) (mode : RM) (sat : Bool) (ds : Nat → Nat) (xs : List FV) : List Nat × Nat :=
  match f with
  | .o4 => quantO4 mode sat ds xs
  | _ => quantMX f mode sat ds xs

/-- A BF16 element of an alias page (R79). -/
def aliasRead (f : BlkFmt) (data : List Nat) (scale k : Nat) : Nat :=
  Fmt.bf16.round .rne false 0 ((f.decode data scale).getD k .nan)

/-- AliasWrite of R80: `w k` is the BF16 code written to element k, none where it is unwritten. -/
def aliasWrite (f : BlkFmt) (data : List Nat) (scale : Nat) (w : Nat → Option Nat) : List Nat × Nat :=
  let old := f.decode data scale
  let y := (List.range 32).map fun k => match w k with
    | some c => Fmt.bf16.dec c
    | none => old.getD k .nan
  f.quant .rne true (fun _ => 0) y

end Sys2Proof
end

