-- ==== Sys2Proof/Machine/State.lean ====
section
/-! DEFINITION. The state of the part: every piece of state the spec gives it, as plain data, and State.reset.
Physical addresses below 2^52 are device addresses (R5); host memory lies at 2^52 plus the host address. -/

namespace Sys2Proof.Machine

open Sys2Proof

/-- Why a step ends the run. Faults and traps of the part are next states (R357), never these. -/
inductive Fault
  /-- exec was given an instruction of a gang while no gang is issuing. Raised by every F-form and D-form meaning.
  step never does this. Safe: nothing is computed. -/
  | noGang
  deriving DecidableEq, Repr

/-- Why an instruction has no meaning. -/
inductive Refusal
  /-- The instruction is not modelled yet. Raised by exec's arms alone. Safe. -/
  | notModelled (mnemonic : String)
  deriving DecidableEq, Repr

/-! ### Lanes -/

/-- A source L_k of a region: address, width in bytes, value at its first load (R209). -/
structure RSource where
  addr  : Nat
  width : Nat
  value : Nat
  deriving DecidableEq, Repr

/-- A constraint of a region (R209, R210). `flip` records that the tagged operand was written second. -/
structure RConstraint where
  k : Nat
  c : Nat
  fn : Nat
  ty : Ty
  konst : Nat
  flip : Bool
  outcome : Bool
  deriving DecidableEq, Repr

/-- What a region store holds: a tag (k, c) or a value (R210). -/
inductive RVal
  | sym (k c : Nat) | lit (v : Nat)
  deriving DecidableEq, Repr

structure RStore where
  addr  : Nat
  width : Nat
  val   : RVal
  pa    : Nat
  mxa   : Option BlkFmt
  deriving DecidableEq, Repr

/-- A register as a region records it: a vector position of the lane, or the lane's bit of a mask register. -/
inductive RegRef
  | v (pos : Nat) | m (n : Nat)
  deriving DecidableEq, Repr

/-- A tagged vector register: (k, c) in the register or pair at `pos` (R210). -/
structure RTag where
  pos : Nat
  wide : Bool
  k : Nat
  c : Nat
  deriving DecidableEq, Repr

/-- An open atomic region of a lane (R209). `loaded` and `lines` are physical 128-byte lines; `system` says that a page of
the footprint has SCOPE 4 (R213, R265). `uses` gives each line the CLASS and RD of its last store, else of its load (R255). `masks` holds the lane's bit of each mask register at ARB, by number (R214). -/
structure Region where
  fallback    : DWord
  sources     : List RSource
  constraints : List RConstraint
  stores      : List RStore
  lines       : List Nat
  loaded      : List Nat
  uses        : AMap (Nat × Nat)
  saved       : List (RegRef × Word)
  masks       : Word
  count       : Nat
  concrete    : Bool
  conflict    : Bool
  system      : Bool
  tags        : List RTag
  deriving DecidableEq, Repr

/-- What a lane waits on. `retry` is a wait inside an instruction that then runs from its start: at once, or where it is held
for the relabel of its launch's versions, after that (R337). -/
inductive Wait
  | none
  | join (mask : Word)
  | bar (n : Nat)
  | cbar (n : Nat)
  | seq (addr : DWord) (wide : Bool) (value : DWord)
  | sleep (wake : Nat) (promise : Option Nat)
  | bobj (addr : Nat) (phase : Word) (sp : Bool)
  | acwait (tag : Option Nat)
  | awf (ring : Nat) (d : Name)
  | tile (wr : Bool) (tile : Nat) (seq : Word) (reg : Name) (row : Nat) (sp : Bool)
  | yield (wake : Nat)
  | retry (held : Bool)
  deriving DecidableEq, Repr

/-- One lane (R17). `since` is the tick at which it began the wait it is in (R38). -/
structure Lane where
  pc       : DWord
  wb       : Nat
  exited   : Bool
  stopped  : Bool
  wait     : Wait
  paused   : Nat
  trapPc   : DWord
  uiPc     : DWord
  arst     : Word
  region   : Option Region
  issues   : Nat
  since    : Nat
  deriving DecidableEq, Repr

/-! ### Groups -/

/-- The bytes one instruction writes to one line: the line's virtual address over 128, its physical one where it is known
(log 46), the bytes by offset, and the lane whose store each byte is (R265, R361). `through` marks a write of class 11, RD 7 or a
UC page, which no cache keeps, and `rd` is the RD of the others (R255). -/
structure StEntry where
  line  : Nat
  lanes : List (Nat × Nat)
  pa    : Option Nat
  bytes : List (Nat × Byte)
  through : Bool
  rd    : Nat
  deriving DecidableEq, Repr

/-- A translated byte address and the attributes of its page (R249, R251). For an alias page `pa` is the backing frame and
`off` the offset in the page (R252). -/
structure Leaf where
  pa    : Nat
  off   : Nat
  r     : Bool
  w     : Bool
  x     : Bool
  scope : Nat
  cp    : Nat
  vers  : Bool
  nvio  : Bool
  mxa   : Option BlkFmt
  ats   : Option Nat
  deriving DecidableEq, Repr

/-- A per-lane copy in flight (R198): its source address, the page of its source where it reads any byte, destination team
and offset. `data` holds the bytes of a source in an NVIO page, which was read in program order (R253). -/
structure Copy where
  tag   : Nat
  va    : Nat
  src   : Option Leaf
  data  : Option (List Byte)
  team  : Nat
  dst   : Nat
  valid : Nat
  size  : Nat
  pc    : DWord
  deriving DecidableEq, Repr

/-- The reuse latch of MMA (R221). -/
structure Latch where
  ty   : Ty
  fn   : Nat
  rows : List (List Word)
  deriving DecidableEq, Repr

/-- How GRESUME goes on after a stop (R363). -/
inductive StopKind
  | reexec | afterTrap | halted | timeout | fenced
  deriving DecidableEq, Repr

/-- A stop of a group (R357). -/
structure Stop where
  id   : Nat
  code : Nat
  kind : StopKind
  deriving DecidableEq, Repr

/-- A step under way (R367): the lanes of its issue cycle, none before it, and those of them whose instruction is still to be
seen through (log 58). -/
structure Stepping where
  lanes : Word
  left  : Word
  deriving DecidableEq, Repr

/-- Lanes of a step whose instruction has ended. -/
def Stepping.done (p : Stepping) (m : Word) : Stepping := { p with left := p.left &&& ~~~m }

/-- One group (R17, R42, R52, R370). Vector registers are keyed 32 × position + lane, copies of split uniform registers
32 × register + lane. BSEG, HSEG and SAFELIVE are the launch's until a GLOAD makes them smaller (R62, R370). `carried`
counts the unacknowledged stores that it had sent before its last save (R266). -/
structure Group where
  bseg     : Nat
  hseg     : Nat
  safelive : Nat
  lanes    : List Lane
  vregs    : Sparse 32
  sregs    : Sparse 64
  split    : List Nat
  copies   : Sparse 64
  mregs    : Sparse 32
  pri      : Nat
  aged     : Bool
  lastIss  : Nat
  cvm      : DWord
  rng      : DWord
  tvec     : DWord
  sbot     : Nat
  nseg     : Nat
  cause    : Nat
  wspan    : Bool
  intrap   : Bool
  yreq     : Bool
  divw     : Bool
  trapping : Word
  uip      : Bool
  uigang   : Word
  stbuf    : List StEntry
  wcbuf    : List StEntry
  unacked  : Nat
  carried  : Nat
  deferred : Option (Nat × DWord × Nat)
  count    : List Nat
  ord      : List Nat
  flight   : List Copy
  latch    : Option Latch
  stop     : Option Stop
  step     : Option Stepping
  ended    : Bool
  yreqAt   : Nat
  deriving DecidableEq, Repr

/-! ### Shapes, tiles, teams -/

/-- A shape record (R81). -/
structure ShapeRec where
  base   : Nat
  fmt    : Nat
  rank   : Nat
  sfmt   : Nat
  flags  : Nat
  dims   : List Nat
  str    : List Int
  sbase  : Nat
  sstr   : List Int
  tile0  : Nat
  tile1  : Nat
  deriving DecidableEq, Repr

/-- An accumulator tile, cells keyed 256 × row + column, and its counters (R216). -/
structure Tile where
  cells : Sparse 32
  iss   : Word
  cmp   : Word
  deriving DecidableEq, Repr

/-- A tile operation (R216). A load holds the elements it has read by their cells, and the address of the first with an
uncorrectable error (R223, R224); a store the pages of the elements it writes, and the state of $rng from which it draws. -/
inductive TileOp
  | zero
  | mma (ty : Ty) (fn : Nat) (rows : List (List Word)) (b : ShapeRec) (kstep slab : Nat)
  | load (cells : List (Nat × Word)) (bad : Option Nat)
  | store (cells : List (Nat × Leaf)) (ty : Ty) (mode : RM) (sat : Bool) (rng : DWord)
  deriving DecidableEq, Repr

/-- A tile operation in flight on a core's array, oldest first in State.tileJobs (R218). -/
structure TileJob where
  team : Nat
  grp  : Nat
  tile : Nat
  op   : TileOp
  pc   : DWord
  deriving DecidableEq, Repr

/-- What the launch fixes of a kernel (R116, R46, R52). -/
structure Kernel where
  entry    : DWord
  bseg     : Nat
  hseg     : Nat
  safelive : Nat
  uregs    : Nat
  acc      : Nat
  team     : Nat
  rows     : Nat
  cols     : Nat
  scratch  : Nat
  argsize  : Nat
  rasafe   : Bool
  deriving DecidableEq, Repr

/-- A launch issued to the dispatcher (R37, R189, R321). `next` is the linear index of the next team to place. -/
structure Launch where
  ctx   : Nat
  qid   : Nat
  thread : Nat
  seq   : DWord
  kern  : Kernel
  nx    : Nat
  ny    : Nat
  nz    : Nat
  seed  : DWord
  args  : List Byte
  slot  : Nat
  next  : Nat
  ended : Nat
  waiting : List Nat
  phase : Nat
  deriving DecidableEq, Repr

/-- Where a team is (R19, R36, R42, R290). -/
inductive Place
  | core (die core : Nat) | saved | draining (die core : Nat) | zeroing (die core : Nat)
  deriving DecidableEq, Repr

/-- One team (R17, R216, R290, R369). -/
structure Team where
  launch  : Nat
  ctx     : Nat
  kern    : Kernel
  x       : Nat
  y       : Nat
  z       : Nat
  nx      : Nat
  ny      : Nat
  nz      : Nat
  cidx    : Nat
  slot    : Nat
  place   : Place
  groups  : List Group
  scratch : Sparse 8
  inbound : Nat
  tiles   : List Tile
  bars    : List Word
  cbars   : List Word
  endedAt : Option Nat
  pool    : Nat
  deriving DecidableEq, Repr

/-! ### Contexts -/

/-- A slot of a context's shape table (R84, R85, R245): its record's bytes are kept in memory at SHTAB. `decl` lists
the physical lines of its declared object, those of host memory among them. -/
structure Slot where
  gen   : Nat
  used  : Bool
  decl  : List Nat
  held  : Nat
  deriving DecidableEq, Repr

/-- STATE of a context that is not INACTIVE (R349): STOPPED is ACTIVE with a stop outstanding (R363). -/
inductive CtxState
  | active | preempting | saved | killing
  deriving DecidableEq, Repr

/-- A translation through ATS that the part caches: a virtual page and its page of host memory (R251, R352). -/
structure Ats where
  page : Nat
  host : Nat
  r    : Bool
  w    : Bool
  deriving DecidableEq, Repr

/-- An agent that a translation can hold up (R352): a lane, a group's drain, a chain, a queue, the part's own units. -/
inductive Agent
  | lane (g : GRef) (l : Nat) | drain (g : GRef) | chain (c : Nat) | queue (t : Nat) | part
  deriving DecidableEq, Repr

/-- A request toward the host for a page: ATS when `pri` is false, for write where `write` is set; `again` marks the ATS
request after a successful page request, `sent` one that has gone out (R344). Each waiter comes with the permission it needs (R352). -/
structure PageReq where
  page    : Nat
  write   : Bool
  pri     : Bool
  again   : Bool
  waiters : List (Agent × Bool)
  sent    : Bool
  deriving DecidableEq, Repr

/-- The code that a failed page request gives an agent's access (R352). -/
structure Denied where
  agent : Agent
  page  : Nat
  write : Bool
  code  : Nat
  deriving DecidableEq, Repr

/-- An active context (R347, R349). `inUse` gives the translations of accesses that have passed Check and wait for a line, which
an invalidation leaves to them (R297). STEPSEL, DBGAREA, CREC and CTXCMD are in State.bar, CTXSTAT.ERR in State.errs. -/
structure Ctx where
  state    : CtxState
  ptroot   : Nat
  pasid    : Nat
  priv     : Bool
  atsOn    : Bool
  priOn    : Bool
  feat     : Nat
  shtab    : Nat
  shslots  : Nat
  savebase : Nat
  savesize : Nat
  uivec    : DWord
  uimbox   : DWord
  ctxvec   : Nat
  slots    : AMap Slot
  ats      : List Ats
  reqs     : List PageReq
  denied   : List Denied
  inUse    : List (Agent × Ats)
  inval    : List Nat
  nextStop : Nat
  deriving DecidableEq, Repr

/-! ### Engines -/

/-- A job: a card that an engine has taken at a virtual address, with the records it copied (R86, R205, R207, R228). Of the
segment that has issued (`issued`), `pages` gives the pages by their numbers and whether they are written, `todo` the
pieces of data still to write as first byte and length, `late` the bytes of an element of which a neighbouring line is
written already, `aimed` the teams whose inbound counters count it (R285, R286, R290). `pos` is the data before the
segment. A matrix card has its cursor and its output tiles that have issued, each by a cursor with zeros at the K levels, and
rests where it is `paused` at a lehr point (R231, R285). -/
structure Job where
  seq    : DWord
  card   : List Byte
  addr   : Nat
  team   : Option Nat
  recs   : List (Nat × ShapeRec)
  pos    : Nat
  issued : Bool
  pages  : List (Nat × Bool × Leaf)
  todo   : List (Nat × Nat)
  owned  : List Nat
  late   : List (Nat × Byte)
  aimed  : List Nat
  cursor : List Nat
  tiles  : List (List Nat)
  finished   : Bool
  paused : Bool
  deriving DecidableEq, Repr

/-- Why a chain has stopped (R205, R357): code, detail, address, and whether only its completion write failed. -/
structure ChainStop where
  id   : Nat
  code : Nat
  detail : Nat
  onlyWrite : Bool
  deriving DecidableEq, Repr

/-- The job of a COPY packet (R323, R429): its thread, its SEQ, its linear card. -/
structure CopyPacket where
  thread : Nat
  seq    : DWord
  card   : List Byte
  deriving DecidableEq, Repr

/-- An engine chain (R204), or the job of a COPY packet, whose `ccb` is the packet's address. `queue` lists the teams that
enqueued the cards not yet complete, oldest first, and `origin` their launches' queue and SEQ with the teams' indices (R361);
`posts` the engine, die and core of each, the issuing core's (R208); `engine`, `die` and `core` are those of the oldest; `bound` is the team a matrix chain is bound to (R229). -/
structure Chain where
  ctx    : Nat
  ccb    : DWord
  engine : Nat
  die    : Nat
  core   : Nat
  queue  : List Nat
  origin : List (Nat × DWord × Nat × Nat × Nat)
  posts  : List (Nat × Nat × Nat)
  bound  : Option Nat
  job    : Option Job
  stop   : Option ChainStop
  packet : Option CopyPacket
  deriving DecidableEq, Repr

/-- One stack's state of one row of an armed window (R233, R234). -/
structure LgfRow where
  count : Nat
  max   : Word
  sum   : Word
  nan   : Bool
  list  : List (Nat × Word)
  deriving DecidableEq, Repr

/-- An armed logit-filter window (R233): its 4 KiB pages, virtual and physical, with the format of an alias page, and its rows keyed 16 × row + stack. -/
structure Lgf where
  ctx  : Nat
  slot : Nat
  rcd  : ShapeRec
  pages : List (Nat × Nat × Option BlkFmt)
  k    : Nat
  temp : Word
  rows : AMap LgfRow
  deriving DecidableEq, Repr

/-! ### Coherence -/

/-- A sharer's record in a part (R278). -/
structure Sharer where
  sid   : Nat
  count : Nat
  hold  : Option (Nat × Nat)
  deriving DecidableEq, Repr

/-- The identity of an object: declared or implicit, and OBJ (R278). -/
structure ObjId where
  decl : Bool
  id   : Nat
  deriving DecidableEq, Repr

/-- A part of an object in one die's slice (R278). `bcast` is its broadcast record, `answered` the sharers that have
answered it with COUNT = 0, `used` orders parts by their last use; `evicting` while its entry is being freed (R280). -/
structure OctPart where
  home    : Nat
  obj     : ObjId
  sharers : List Sharer
  writers : List Nat
  bcast   : Bool
  answered : List Nat
  used    : Nat
  evicting : Bool
  deriving DecidableEq, Repr

/-- A line that a sharer holds: S, E and M as 0, 1 and 2, its re-reference value and way (R254, R255, R281). -/
structure Held where
  sid  : Nat
  line : Nat
  st   : Nat
  rrpv : Nat
  way  : Nat
  deriving DecidableEq, Repr

/-- Kinds of request at a home (R282): `move` recalls a line that joins or leaves a declared object (R276). -/
inductive ReqKind
  | read | own | atHome | move
  deriving DecidableEq, Repr

/-- A request at a line's home, oldest first (R282): `pend` lists the sharers whose answers it waits for once it is
`served`. A request of the host names a half of the line in `rd` and holds what it writes (R293). -/
structure CohReq where
  kind : ReqKind
  sid  : Nat
  line : Nat
  rd   : Nat
  pend : List Nat
  served : Bool
  data : List Byte
  deriving DecidableEq, Repr

/-- A recall on its way to a sharer; `n` orders what one home sends one sharer (R283), `granted` counts the part's lines
granted to the sharer after it was sent (R284). -/
structure Recall where
  n    : Nat
  sid  : Nat
  line : Nat
  obj  : ObjId
  share : Bool
  granted : Nat
  deriving DecidableEq, Repr

/-- A recall acknowledgement: carried count and last notice sequence (R284). -/
structure Ack where
  sid  : Nat
  line : Nat
  obj  : ObjId
  carried : Nat
  a    : Nat
  granted : Nat
  deriving DecidableEq, Repr

/-- A notice of an evicted line with its sequence (R283). -/
structure Notice where
  sid  : Nat
  line : Nat
  obj  : ObjId
  n    : Nat
  deriving DecidableEq, Repr

/-- A grant of a line on its way to a sharer (R283). -/
structure Grant where
  n    : Nat
  sid  : Nat
  line : Nat
  st   : Nat
  rd   : Nat
  deriving DecidableEq, Repr

/-- A line that a promoted release wrote, with the group that released and how many of its stores were then not yet
acknowledged (R263). -/
structure Mark where
  line : Nat
  grp  : GRef
  left : Nat
  deriving DecidableEq, Repr

/-- A request for a host half that has gone to the host (R372): to write it where `write` is set, with the contexts and the
pages of the accesses that asked for it (R297), and the cache that fetches it ahead for a streaming load (R255). -/
structure HalfReq where
  half  : Nat
  write : Bool
  pages : List (Nat × Nat)
  ahead : Option Nat
  deriving DecidableEq, Repr

/-- The coherence fabric above the clusters. `taken` (TAKEN) and `sent` (a sharer's last notice) are keyed 8 × SID + home.
`fused` gives, by 48 × die + core, the rectangle its L1 slice was last fused in: 256 × first core + 16 × rows + columns
(R295). `leaving` lists evictions that have to wait (R263, R283). `marks` are those of promoted releases (R263), `hosted` the
halves of device lines that the host holds, `landing` the host's writes whose line is free for them (R293), `moving` the lines
that a group moves between objects (R276). `halves` gives the
state 1, 2 or 3 for S, E or M of host halves by address over 64, `halfReqs` the requests to the host (R372). -/
structure Coh where
  parts   : List OctPart
  held    : List Held
  reqs    : List CohReq
  recalls : List Recall
  acks    : List Ack
  notices : List Notice
  grants  : List Grant
  taken   : AMap Nat
  sent    : AMap Nat
  next    : Nat
  fused   : AMap Nat
  leaving : List (Nat × Nat)
  marks   : List Mark
  hosted  : List Nat
  landing : List (Nat × List Byte)
  moving  : List (Nat × GRef)
  halves  : AMap Nat
  halfReqs : List HalfReq
  deriving DecidableEq, Repr

/-! ### The front end -/

/-- A declared range of a launch (R320). -/
structure Range where
  base : Nat
  len  : Nat
  mode : Nat
  deriving DecidableEq, Repr

/-- What the Parison keeps and compares of a launch (R329, R338). -/
structure LaunchRec where
  desc   : DWord
  gx     : Nat
  gy     : Nat
  gz     : Nat
  flags  : Nat
  cscope : Nat
  vec    : Nat
  cword  : DWord
  seq    : DWord
  seed   : DWord
  words  : List DWord
  ranges : List Range
  deriving DecidableEq, Repr

/-- A parison program (R329, R331): the launch LSEQ it has last produced, its steps, rules and links. -/
structure Program where
  cur    : LaunchRec
  sstep  : DWord
  srule  : Nat
  sdelta : DWord
  rules  : List (Nat × DWord)
  links  : List (Option Nat)
  deriving DecidableEq, Repr

/-- PSTATE (R330). -/
inductive PState
  | learning | active | paused | barred
  deriving DecidableEq, Repr

/-- A prediction in flight (R334, R338, R378). `units` is its reservation. -/
structure Prediction where
  rcd    : LaunchRec
  slot   : Nat
  launch : Nat
  units  : Nat
  confirmed : Bool
  waived : List DWord
  started : Nat
  deriving DecidableEq, Repr

/-- STATE of a QCP thread (R315). -/
inductive QState
  | unmapped | stopped | fetch | hazard | blocked | issue | faulted | draining
  deriving DecidableEq, Repr

/-- An issued packet that has not completed (R327), with its virtual address in the ring. -/
structure Packet where
  seq    : DWord
  addr   : Nat
  type   : Nat
  cw     : Bool
  irq    : Bool
  cscope : Nat
  vec    : Nat
  cword  : DWord
  launch : Option Nat
  done   : Bool
  abandoned : Bool
  deriving DecidableEq, Repr

/-- One QCP thread (R308 to R318, R328 to R340). `qmap` is the register, `ctx` the context that the mapped queue has; `seen` is
the ring position up to which packets are known to have arrived (R317, R339). -/
structure Qcp where
  qmap    : DWord
  ctx     : Nat
  state   : QState
  wptr    : DWord
  rptr    : DWord
  qfault  : DWord
  pgen    : DWord
  rbase   : Nat
  log2sz  : Nat
  pri     : Nat
  qid     : Nat
  desc    : Nat
  idle    : Nat
  vquota  : Nat
  expect  : Option DWord
  packets : List Packet
  pstate  : PState
  reason  : Nat
  cdepth  : Nat
  history : List LaunchRec
  program : Option Program
  preds   : List Prediction
  nextSlot : Nat
  lastArr : Nat
  seen    : DWord
  lastIss : Nat
  reread  : Nat
  entered : Bool
  discarding : Bool
  deriving DecidableEq, Repr

/-- An interval of the hazard table (R324). -/
structure Interval where
  ctx    : Nat
  thread : Nat
  seq    : DWord
  base   : Nat
  len    : Nat
  write  : Bool
  slot   : Nat
  order  : Nat
  deriving DecidableEq, Repr

/-- The bytes a slot has written in one line (R377). -/
structure Version where
  thread : Nat
  slot   : Nat
  line   : Nat
  bytes  : List (Nat × Byte)
  deriving DecidableEq, Repr

/-! ### Serving -/

/-- STATE of a sequence entry (R386). -/
inductive SeqState
  | run | moving | done | fenced
  deriving DecidableEq, Repr

/-- A sequence table entry of one die (R386). -/
structure SeqEntry where
  die    : Nat
  id     : Nat
  ctx    : Nat
  state  : SeqState
  pos    : Nat
  mark   : Nat
  seed   : DWord
  pladdr : Nat
  npg    : Nat
  deriving DecidableEq, Repr

/-- A tracked KV page (R388): physical page, owning die, context, entry and page index. -/
structure KvPage where
  pa  : Nat
  die : Nat
  ctx : Nat
  id  : Nat
  idx : Nat
  deriving DecidableEq, Repr

/-- A token message queued to send or arrived (R389, R391). -/
structure Msg where
  src   : Nat
  dest  : Nat
  ctx   : Nat
  bytes : List Byte
  deriving DecidableEq, Repr

/-- A node of a prefix tree (R239, R401). -/
structure PfxNode where
  die    : Nat
  ctx    : Nat
  id     : Nat
  kv     : DWord
  parent : Nat
  refs   : Nat
  depth  : Nat
  last   : Nat
  toks   : List Word
  deriving DecidableEq, Repr

/-- A serving record as read when it was enabled (R385). -/
structure Serving where
  inbox  : Nat
  icnt   : Nat
  log2in : Nat
  log2kv : Nat
  pt     : Nat
  nnode  : Nat
  nodes  : Nat
  evring : Nat
  log2ev : Nat
  htr    : List (Nat × Nat × Nat)
  deriving DecidableEq, Repr

/-! ### The Gaffer, the fleet -/

/-- A call the Gaffer has taken and not completed (R405, R406): its record and, where it is known, its result. -/
structure Call where
  num    : Nat
  bytes  : List Byte
  result : Option Int
  deriving DecidableEq, Repr

/-- A service queue (R403). SQRING and SQCTL.CTX are in State.bar. -/
structure SvcQueue where
  on     : Bool
  head   : Nat
  tail   : Nat
  stopped : Bool
  detail : Nat
  calls  : List Call
  lastRead : Nat
  closing : Bool
  deriving DecidableEq, Repr

/-- A service queue that has never been enabled (R403). -/
def SvcQueue.off : SvcQueue :=
  { on := false, head := 0, tail := 0, stopped := false, detail := 0, calls := [], lastRead := 0, closing := false }

/-- A socket (R406): kind 0 TCP, 1 UDP, 2 RoCEv2 RC; `closed` while calls on it are still out after its CLOSE (R408). -/
structure Socket where
  id     : Nat
  ctx    : Nat
  kind   : Nat
  port   : Nat
  bound  : List Byte
  peer   : List Byte
  backlog : Nat
  closed : Bool
  deriving DecidableEq, Repr

/-- The pages that a call has lent, as spans of 4 KiB pages by first page and length (R407): `recv` where no peer has to
acknowledge them, `finished` once the call has completed; a call that KILL ended has no return word. -/
structure Lent where
  ctx   : Nat
  spans : List (Nat × Nat)
  queue : Nat
  num   : Nat
  rword : Option Nat
  recv  : Bool
  finished  : Bool
  deriving DecidableEq, Repr

/-- A firmware image of a slot: its key (0 vendor, 1 to 4 owner slots 0 to 3), signature index and digest (R418). -/
structure Image where
  key    : Nat
  index  : Nat
  digest : Nat
  deriving DecidableEq, Repr

/-- Boot, keys and attestation (R418 to R421): the slots, the image that is being written to one, whether the Cullet image
checks out, the slot that runs and the one tried first, the owner keys as digest and revoked bit, the highest accepted index of each key, RESULT, reports made. -/
structure Boot where
  slotA  : Option Image
  slotB  : Option Image
  writing : Option (Nat × Image)
  cullet : Bool
  ran    : Nat
  next   : Nat
  owners : List (Option (Nat × Bool))
  vendoff : Bool
  strap  : Bool
  counters : List Nat
  result : DWord
  reports : Nat
  deriving DecidableEq, Repr

/-- What telemetry has counted of a unit in a launch's phase (R424); `hot` while the unit has worked in the present tick. -/
structure PhaseCount where
  launch : Nat
  path   : Word
  busy   : Nat
  idle   : Nat
  hot    : Bool
  deriving DecidableEq, Repr

/-- Self-test, fences, power and heat (R411 to R427). BISTSTAT's STATE is `bist`, the unit tested `testing`; `coolant` while
flow is low; `tripped` once the part has stopped; `mhz` the issue clock, and `slow` that of a throttled die (R427); `held`
telemetry entries held while their ring has no size (R360, R424); `ports` gives the lanes up of each port with a link. -/
structure Fleet where
  fences  : List Word
  bist    : Nat
  fails   : Word
  testing : Word
  errors  : List (List Byte)
  fatal   : List (List Byte)
  dropped : Nat
  pdropped : Nat
  throttled : List Nat
  tripped : Bool
  coolant : Bool
  mhz     : Nat
  slow    : AMap Nat
  temps   : AMap Nat
  ports   : AMap Nat
  phases  : List PhaseCount
  held    : List (List Byte)
  deriving DecidableEq, Repr

/-- What the part sends to the world outside (R352, R355, R360, R373). A call sends bytes over its socket, and an RDWRITE to
a remote address (R406). -/
inductive Out
  | msix (vec : Nat)
  | ats (ctx page : Nat)
  | pri (ctx page : Nat) (write : Bool)
  | invalDone (ctx page : Nat)
  | snoop (half : Nat) (rsp : String) (data : Bool)
  | cxl (half : Nat) (req : String)
  | data (bytes : List Byte)
  | net (queue : Nat) (sock : Socket) (remote : Nat) (bytes : List Byte)
  | poisoned
  deriving DecidableEq, Repr

/-! ### The part -/

/-- The gang that issues: its group, its lanes, and the address of its instruction (R22, R106). For the second gang of a
cycle, `pre` is the group as it stood before the issue cycle, and `first` the group as the first gang left it where that one
trapped or stopped (R23, R43). -/
structure Cur where
  g     : GRef
  lanes : Word
  pc    : DWord
  pre   : Option Group
  first : Option Group
  deriving DecidableEq, Repr

/-- What the model runs next where its own rule does not choose: an event, an issue of a core, an idle cycle (log 5); or what
the host does in configuration space: it gives BAR4 a size as a power of two (R345), the HDM decoder a range (R354, log 59). -/
inductive Turn
  | event (i : Instr) | issue (core : Nat) | tick | resize (n : Nat) | decoder (base size : Nat)
  deriving DecidableEq, Repr

/-- The scratchpad region that a saved team has left on a core, while it is being zeroed (R290). -/
structure Zone where
  team  : Nat
  die   : Nat
  core  : Nat
  units : Nat
  deriving DecidableEq, Repr

/-- The state of the part. `details` gives the last detail code of a context's job faults on an engine (R208), `zones` regions
being zeroed (R290), `qcpAt` one more than the core cycle in which the QCP last issued a packet (R316), `pending` the vectors
that wait for their mask (R344), `bar4` the size of BAR4 as a power of two (R345), `hdm` the first address and the length of
the HDM decoder's range (R354). -/
structure State where
  mem      : Sparse 8
  poison   : List Nat
  cycle    : Nat
  core     : Nat
  sub      : Nat
  bar      : Sparse 64
  written  : List Nat
  ctxs     : AMap Ctx
  errs     : List Nat
  launches : AMap Launch
  teams    : AMap Team
  fresh    : Nat
  tileJobs : List TileJob
  chains   : AMap Chain
  details  : AMap Nat
  zones    : List Zone
  lgfs     : List Lgf
  coh      : Coh
  threads  : AMap Qcp
  qcpAt    : Nat
  table    : List Interval
  entered  : Nat
  versions : List Version
  records  : List (List Byte)
  seqs     : List SeqEntry
  kvmap    : List KvPage
  sending  : List Msg
  arrived  : List Msg
  nodes    : List PfxNode
  serving  : AMap Serving
  svc      : AMap SvcQueue
  sockets  : List Socket
  lent     : List Lent
  boot     : Boot
  fleet    : Fleet
  pending  : List Nat
  bar4     : Nat
  hdm      : Nat × Nat
  out      : List Out
  cur      : Option Cur
  second   : Option Cur
  turn     : Nat
  schedule : List Turn
  free     : Nat
  deriving DecidableEq, Repr

/-- No requests, no lines, no parts (R278). -/
def Coh.reset : Coh :=
  { parts := [], held := [], reqs := [], recalls := [], acks := [], notices := [], grants := [], taken := [], sent := [],
    next := 0, fused := [], leaving := [], marks := [], hosted := [], landing := [], moving := [], halves := [], halfReqs := [] }

/-- A vendor image in slot A, which runs; no owner key (log 10). -/
def Boot.reset : Boot :=
  { slotA := some { key := 0, index := 0, digest := 0 }, slotB := none, writing := none, cullet := true, ran := 0, next := 0
    owners := [none, none, none, none], vendoff := false, strap := false, counters := [0, 0, 0, 0, 0], result := 0
    reports := 0 }

/-- Nothing fenced, nothing hot, the nominal clock (R6, log 3, log 10). -/
def Fleet.reset : Fleet :=
  { fences := [], bist := 0, fails := 0, testing := 0, errors := [], fatal := [], dropped := 0, pdropped := 0,
    throttled := [], tripped := false, coolant := false, mhz := 2400, slow := [], temps := [], ports := [], phases := [], held := [] }

/-- The part after a cold reset (R12, R345): no context, no team, no queue, $cycle 0. The HDM decoder exposes the device's
whole range (log 59). -/
def State.reset : State :=
  { mem := [], poison := [], cycle := 0, core := 0, sub := 0, bar := [], written := [], ctxs := [], errs := [], launches := [],
    teams := [], fresh := 1, tileJobs := [], chains := [], details := [], zones := [], lgfs := [], coh := Coh.reset, threads := [], qcpAt := 0,
    table := [],
    entered := 0, versions := [], records := [], seqs := [], kvmap := [], sending := [], arrived := [], nodes := [],
    serving := [], svc := [], sockets := [], lent := [], boot := Boot.reset, fleet := Fleet.reset,
    pending := [], bar4 := 36, hdm := (0, 2 ^ 52), out := [],
    cur := none, second := none, turn := 0, schedule := [], free := 0 }

end Sys2Proof.Machine
end

