-- ==== Sys2Proof/Machine/Ops.lean ====
section
/-! DEFINITION. The named operations over maps, registers, memory, stops and traps. -/

namespace Sys2Proof.Machine

open Sys2Proof

/-! ### Maps -/

/-- The entry of a map at a key. -/
def aget {α : Type} : AMap α → Nat → Option α
  | [], _ => none
  | (j, x) :: r, k => if j = k then some x else aget r k

/-- A map with an entry set, its keys still rising. -/
def aset {α : Type} : AMap α → Nat → α → AMap α
  | [], k, v => [(k, v)]
  | (j, x) :: r, k, v => if k < j then (k, v) :: (j, x) :: r else if k = j then (k, v) :: r else (j, x) :: aset r k v

/-- A map without what it lists at a key. -/
def adel {α : Type} : AMap α → Nat → AMap α
  | [], _ => []
  | (j, x) :: r, k => if j = k then adel r k else (j, x) :: adel r k

/-- A map with an entry changed where there is one. -/
def amod {α : Type} (m : AMap α) (k : Nat) (f : α → α) : AMap α :=
  match aget m k with
  | some x => aset m k (f x)
  | none => m

/-- The word of a sparse memory; unlisted words are zero. -/
def sget {w : Nat} (m : Sparse w) (k : Nat) : BitVec w := (aget m k).getD 0

/-- A sparse memory with a word set; a zero word is not listed. -/
def sset {w : Nat} (m : Sparse w) (k : Nat) (v : BitVec w) : Sparse w := if v = 0 then adel m k else aset m k v

/-- The canonical form of a sparse memory: addresses strictly rising, and no word listed that reads as an unlisted one. -/
abbrev Memory.wf {w : Nat} (m : Sparse w) : Prop := m.Pairwise (fun p q => p.1 < q.1) ∧ ∀ p ∈ m, p.2 ≠ 0

/-- Words set in list order, the last one remaining. -/
def ssetAll {w : Nat} (m : Sparse w) (ws : List (Nat × BitVec w)) : Sparse w :=
  ws.foldl (fun m p => sset m p.1 p.2) m

/-- A list with its n-th element changed. -/
def modAt {α : Type} : List α → Nat → (α → α) → List α
  | [], _, _ => []
  | x :: r, 0, f => f x :: r
  | x :: r, n + 1, f => x :: modAt r n f

/-- A list without its n-th element. -/
def dropAt {α : Type} : List α → Nat → List α
  | [], _ => []
  | _ :: r, 0 => r
  | x :: r, n + 1 => x :: dropAt r n

/-! ### Bytes -/

/-- The number that bytes make, lowest first (R9). -/
def leNat : List Byte → Nat
  | [] => 0
  | b :: r => b.toNat + 256 * leNat r

/-- The n lowest bytes of a number, lowest first (R9). -/
def leBytes : Nat → Nat → List Byte
  | 0, _ => []
  | n + 1, x => BitVec.ofNat 8 x :: leBytes n (x / 256)

/-- Bits [lo+n-1:lo] of a 64-bit word. -/
def bits64 (w : DWord) (lo n : Nat) : Nat := w.toNat / 2 ^ lo % 2 ^ n

/-- Lanes of a mask in increasing order. -/
def lanesOf (m : Word) : List Nat := (List.range 32).filter fun l => m.getLsbD l

/-- The mask of a list of lanes. -/
def maskOf (ls : List Nat) : Word := ls.foldl (fun m l => m ||| BitVec.ofNat 32 (2 ^ l)) 0

/-! ### Physical memory -/

/-- The physical address holds memory (R428); host addresses lie above the device's. -/
def paReal (pa : Nat) : Bool :=
  pa < Config.hbmEnd || (Config.lpddrBase ≤ pa && pa < Config.lpddrEnd) ||
  (Config.notifyBase ≤ pa && pa < Config.notifyEnd) || Config.hostBase ≤ pa

/-- Device memory of either tier (R252). -/
def paDevice (pa : Nat) : Bool := pa < Config.hbmEnd || (Config.lpddrBase ≤ pa && pa < Config.lpddrEnd)

/-- A byte of physical memory; a reserved address reads all ones (R428). -/
def State.byteAt (s : State) (pa : Nat) : Byte := if paReal pa then sget s.mem pa else 0xFF#8

/-- n bytes of physical memory. -/
def State.bytesAt (s : State) (pa n : Nat) : List Byte := (span pa n).map s.byteAt

/-- A little-endian number of physical memory (R9). -/
def State.natAt (s : State) (pa n : Nat) : Nat := leNat (s.bytesAt pa n)

/-- Bytes written at physical addresses; a write to a reserved address is dropped (R428). -/
def memWrite (m : Sparse 8) (ws : List (Nat × Byte)) : Sparse 8 :=
  ssetAll m (ws.filter fun p => paReal p.1)

/-- Bytes at rising addresses from `pa`. -/
def located (pa : Nat) (bs : List Byte) : List (Nat × Byte) := (span pa bs.length).zip bs

/-- The 128-byte lines of a list of written addresses. -/
def linesOf (ws : List (Nat × Byte)) : List Nat := (ws.map fun p => p.1 / 128).eraseDups

/-- The open regions of a group that have loaded one of the lines see a conflict (R212). -/
def Group.conflictAt (g : Group) (lines : List Nat) : Group :=
  { g with lanes := g.lanes.map fun l => match l.region with
      | some r => if r.loaded.any lines.contains then { l with region := some { r with conflict := true } } else l
      | none => l }

/-- Some lane of the team has a region open. -/
def Team.inRegion (t : Team) : Bool := t.groups.any fun g => g.lanes.any fun l => l.region.isSome

/-- Every open region that has loaded one of the lines sees a conflict (R212). -/
def State.conflictAt (s : State) (lines : List Nat) : State :=
  { s with teams := s.teams.map fun p =>
      if p.2.inRegion then (p.1, { p.2 with groups := p.2.groups.map fun g => g.conflictAt lines }) else p }

/-- The open regions of some teams see a conflict in lines that they have loaded (R212). -/
def State.conflictAmong (s : State) (p : Team → Bool) (lines : List Nat) : State :=
  { s with teams := s.teams.map fun q =>
      if q.2.inRegion && p q.2 then (q.1, { q.2 with groups := q.2.groups.map fun g => g.conflictAt lines }) else q }

/-- Open regions see another agent's write of some lines, or its gain of them to write (R212, R302). -/
def State.seen (s : State) (lines : List Nat) : State :=
  if s.teams.any (fun p => p.2.inRegion) then s.conflictAt lines else s

/-- Bytes written to physical memory at one moment: regions see them as another agent's write (R212, R262). -/
def State.writeBytes (s : State) (ws : List (Nat × Byte)) : State :=
  { s with mem := memWrite s.mem ws }.seen (linesOf ws)

/-! ### Free values, BAR0 -/

/-- The next free value is drawn: the counter moves on. -/
def State.bump (s : State) : State := { s with free := s.free + 1 }

/-- A BAR0 register as last written, or its reset value (R12). -/
def State.reg (s : State) (off : Nat) (reset : DWord) : DWord := if s.written.contains off then sget s.bar off else reset

def State.setReg (s : State) (off : Nat) (v : DWord) : State :=
  { s with bar := sset s.bar off v, written := if s.written.contains off then s.written else off :: s.written }

/-! ### The notify registers of the Gaffer -/

/-- A physical address in the notify pages (R404, R428). -/
def notifyPa (pa : Nat) : Bool := Config.notifyBase ≤ pa && pa < Config.notifyEnd

/-- TAIL of a service queue is written, by a context or by the driver (R403, R404): a store of another context, one below
TAIL, and one beyond the ring are ignored. A queue that is off has a TAIL too, until it is enabled. -/
def State.notify (s : State) (q : Nat) (c : Option Nat) (v : Nat) : State :=
  let ring := 2 ^ bits64 (s.reg (0x300000 + 0x100 * q) 0) 0 5
  let mine := c.all (· == bits64 (s.reg (0x300000 + 0x100 * q + 8) 0) 32 10)
  let x := (aget s.svc q).getD SvcQueue.off
  if q < 64 && mine && x.tail ≤ v && v - x.head ≤ ring then { s with svc := aset s.svc q { x with tail := v } } else s

/-- A store of n bytes to a notify page: only an aligned one of 8 bytes at offset 0 acts (R404). -/
def State.notifyStore (s : State) (c : Option Nat) (pa n v : Nat) : State :=
  if pa % 4096 = 0 && n = 8 then s.notify ((pa - Config.notifyBase) / 4096) c v else s

/-- A load of n bytes from a notify page: HEAD at offset 0, else zero (R404). -/
def State.notifyLoad (s : State) (pa n : Nat) : List Byte :=
  if pa % 4096 = 0 && n = 8 then leBytes 8 (((aget s.svc ((pa - Config.notifyBase) / 4096)).map SvcQueue.head).getD 0)
  else List.replicate n 0

/-! ### Teams, groups, contexts -/

def State.team? (s : State) (t : Nat) : Option Team := aget s.teams t

def State.grp? (s : State) (r : GRef) : Option Group :=
  match s.team? r.team with
  | some t => t.groups[r.grp]?
  | none => none

def State.modTeam (s : State) (t : Nat) (f : Team → Team) : State := { s with teams := amod s.teams t f }

def Team.modGrp (t : Team) (k : Nat) (f : Group → Group) : Team := { t with groups := modAt t.groups k f }

def State.modGrp (s : State) (r : GRef) (f : Group → Group) : State := s.modTeam r.team fun t => t.modGrp r.grp f

def State.ctx? (s : State) (c : Nat) : Option Ctx := aget s.ctxs c

def State.modCtx (s : State) (c : Nat) (f : Ctx → Ctx) : State := { s with ctxs := amod s.ctxs c f }

def State.emit (s : State) (o : Out) : State := { s with out := s.out ++ [o] }

/-- The mask bit of a vector in the MSI-X table (R344): set at reset, as PCI Express has it (log 42). -/
def State.vecMasked (s : State) (vec : Nat) : Bool := (s.reg (0x1000008 + 16 * vec) 0x100000000).getLsbD 32

/-- An interrupt of the part (R344, R355): its message is sent, or waits as a pending bit while the vector is masked. -/
def State.interrupt (s : State) (vec : Nat) : State :=
  if s.vecMasked vec then { s with pending := if s.pending.contains vec then s.pending else vec :: s.pending }
  else s.emit (.msix vec)

/-- The ring of records at a base of BAR0 (R360, R416): bus address, size, vector; 0 records where it is off. -/
def State.ringBase (s : State) (o : Nat) : Nat := bits64 (s.reg o 0) 12 52 * 4096
def State.ringLen (s : State) (o : Nat) : Nat := let n := bits64 (s.reg (o + 8) 0) 0 5; if n = 0 then 0 else 2 ^ n
def State.ringVec (s : State) (o : Nat) : Nat := bits64 (s.reg (o + 8) 0) 16 11

/-- HEAD − TAIL is less than the ring's records (R360). -/
def State.ringRoom (s : State) (o : Nat) : Bool := (s.reg (o + 0x10) 0 - s.reg (o + 0x18) 0).toNat < s.ringLen o

/-- One record written to a ring in host memory, HEAD counted up, the vector sent after it (R355, R360). -/
def State.putRecord (s : State) (o size : Nat) (b : List Byte) : State :=
  let head := s.reg (o + 0x10) 0
  let at_ := Config.hostBase + s.ringBase o + size * (head.toNat % s.ringLen o)
  ((s.writeBytes (located at_ b)).setReg (o + 0x10) (head + 1)).interrupt (s.ringVec o)

def Group.lane? (g : Group) (l : Nat) : Option Lane := g.lanes[l]?

/-- The lanes of a mask changed. -/
def Group.modLanes (g : Group) (m : Word) (f : Lane → Lane) : Group :=
  { g with lanes := g.lanes.mapIdx fun i l => if m.getLsbD i then f l else l }

/-- One lane changed. -/
def Group.modLane (g : Group) (i : Nat) (f : Lane → Lane) : Group := { g with lanes := modAt g.lanes i f }

/-- The lanes that have not exited, as a mask. -/
def Group.live (g : Group) : Word := maskOf ((List.range 32).filter fun i => match g.lane? i with
  | some l => !l.exited | none => false)

/-- The non-exited lanes at one PC and window base (R24). -/
def Group.gangOf (g : Group) (i : Nat) : Word :=
  match g.lane? i with
  | some x => maskOf ((List.range 32).filter fun j => match g.lane? j with
      | some y => !y.exited && y.pc = x.pc && y.wb = x.wb | none => false)
  | none => 0

/-- The lowest-numbered lane of a mask. -/
def lowest (m : Word) : Nat := ((List.range 32).find? fun l => m.getLsbD l).getD 32

/-- The group's non-exited lanes form more than one gang (R26). -/
def Group.diverged (g : Group) : Bool := g.live != 0 && g.gangOf (lowest g.live) != g.live

/-! ### Registers -/

/-- A vector register of a lane by stack position (R47). -/
def Group.vreg (g : Group) (pos lane : Nat) : Word := sget g.vregs (32 * pos + lane)

def Group.setV (g : Group) (pos lane : Nat) (v : Word) : Group := { g with vregs := sset g.vregs (32 * pos + lane) v }

/-- The window base of a lane. -/
def Group.wb (g : Group) (lane : Nat) : Nat := match g.lane? lane with | some l => l.wb | none => 0

def Group.mreg (g : Group) (n : Nat) : Word := sget g.mregs n

/-- A uniform register as a gang sees it, by its lowest lane (R27). -/
def Group.sreg (g : Group) (lane n : Nat) : DWord :=
  if g.split.contains n then sget g.copies (32 * n + lane) else sget g.sregs n

/-- A uniform write by a gang (R27): plain when the gang holds every non-exited lane, which fuses the register; else the
register is split. DESIGN CHOICE (log 63): each such write sets DIVW, also one to a register split before, after software has
cleared the bit. -/
def Group.setS (g : Group) (diverged : Bool) (gang : Word) (n : Nat) (v : DWord) : Group :=
  if diverged then
    let base := if g.split.contains n then g.copies
      else ssetAll g.copies ((List.range 32).map fun l => (32 * n + l, sget g.sregs n))
    { g with
      split := if g.split.contains n then g.split else n :: g.split
      copies := ssetAll base ((lanesOf gang).map fun l => (32 * n + l, v))
      divw := true }
  else { g with sregs := sset g.sregs n v, split := g.split.filter (· != n) }

/-- Fusion of one split register: every lane takes the value of the lowest lane of its gang (R27). -/
def Group.fuseReg (g : Group) (n : Nat) : Group :=
  { g with copies := ssetAll g.copies ((lanesOf g.live).map fun l => (32 * n + l, sget g.copies (32 * n + lowest (g.gangOf l)))) }

/-- Fusion at an issue decision; with one gang left no register stays split (R24, R27). -/
def Group.fuse (g : Group) : Group :=
  if g.split.isEmpty then g
  else if g.diverged then g.split.foldl Group.fuseReg g
  else
    { g with
      sregs := ssetAll g.sregs (g.split.map fun n => (n, sget g.copies (32 * n + lowest g.live)))
      split := []
      copies := [] }

/-- A position is resident (R48). -/
def Group.resident (g : Group) (pos : Nat) : Bool := 64 * g.sbot ≤ pos && pos < 64 * (g.sbot + g.nseg)

/-- Positions outside the resident segments are dropped: a segment added later reads zero (R49, R50). -/
def Group.dropV (g : Group) : Group := { g with vregs := g.vregs.filter fun p => g.resident (p.1 / 32) }

/-- The greatest window base of the non-exited lanes. -/
def Group.maxWb (g : Group) : Nat := g.lanes.foldl (fun m l => if l.exited then m else Nat.max m l.wb) 0

/-- SegCeil (R49). -/
def segCeil (x : Nat) : Nat := (x + 63) / 64

/-! ### Fault records and stops -/

/-- What a fault record says beside its code (R361). -/
structure FaultInfo where
  code   : Nat
  detail : Nat := 0
  ctx    : Nat := 0
  qid    : Nat := 0xFFFF
  seq    : DWord := 0
  x      : Nat := 0
  y      : Nat := 0
  z      : Nat := 0
  grp    : Nat := 0xFF
  lane   : Nat := 0xFF
  stopid : Nat := 0
  pc     : Nat := 0
  addr   : Nat := 0
  die    : Nat := 0
  unit   : Nat := 0
  deriving DecidableEq, Repr

/-- A fault record but for NUM, which it gets when it is written (R360, R361). -/
def FaultInfo.bytes (r : FaultInfo) (time : Nat) : List Byte :=
  leBytes 2 r.code ++ leBytes 2 r.detail ++ leBytes 2 (r.ctx % 1024) ++ leBytes 2 r.qid ++ leBytes 8 r.seq.toNat ++
  leBytes 4 r.x ++ leBytes 4 r.y ++ leBytes 4 r.z ++ leBytes 1 r.grp ++ leBytes 1 r.lane ++ leBytes 2 r.stopid ++
  leBytes 8 r.pc ++ leBytes 8 r.addr ++ leBytes 8 time ++ leBytes 1 r.die ++ leBytes 1 r.unit ++ leBytes 2 0 ++ leBytes 4 0

/-- A record held until the ring takes it (R360). -/
def State.record (s : State) (r : FaultInfo) : State := { s with records := s.records ++ [r.bytes s.cycle] }

/-- STOPIDs outstanding in a context (R357). -/
def State.stopIds (s : State) (c : Nat) : List Nat :=
  s.teams.flatMap (fun p => if p.2.ctx = c then p.2.groups.filterMap (fun g => g.stop.map Stop.id) else []) ++
  s.chains.filterMap (fun p => if p.2.ctx = c then p.2.stop.map ChainStop.id else none)

/-- The first free STOPID from `n` on, 1 to 65,535 (R357). -/
def freeStopId (used : List Nat) : Nat → Nat → Nat
  | 0, n => n
  | k + 1, n => if used.contains n then freeStopId used k (if n ≥ 65535 then 1 else n + 1) else n

/-- A new STOPID of a context; CTXVEC is sent when its state becomes STOPPED (R347, R357, R363). -/
def State.newStop (s : State) (c : Nat) : Nat × State :=
  match s.ctx? c with
  | none => (1, s)
  | some x =>
    let used := s.stopIds c
    let id := freeStopId used 65535 x.nextStop
    let t := s.modCtx c fun x => { x with nextStop := if id ≥ 65535 then 1 else id + 1 }
    (id, if used.isEmpty && x.state = .active then t.interrupt x.ctxvec else t)

/-- Die and core of a team, and of one that is on none (R361). -/
def Team.at_ (t : Team) : Nat × Nat :=
  match t.place with
  | .core d k => (d, k) | .draining d k => (d, k) | .zeroing d k => (d, k) | .saved => (0, 0)

/-- Queue and SEQ of a team's launch (R361). -/
def State.launchOf (s : State) (t : Team) : Nat × DWord :=
  match aget s.launches t.launch with
  | some l => (l.qid, l.seq)
  | none => (0xFFFF, 0)

/-- Answers of failed page requests meant for some agents are spent (R352), and their accesses are over (R297). -/
def State.forgetDenied (s : State) (c : Nat) (p : Agent → Bool) : State :=
  s.modCtx c fun x =>
    { x with denied := x.denied.filter fun d => !p d.agent, inUse := x.inUse.filter fun u => !p u.1 }

def Agent.ofGroup (r : GRef) : Agent → Bool
  | .lane g _ => g = r | .drain g => g = r | _ => false

/-- A prediction the team's launch still is: not yet relabelled (R334, R338). -/
def State.predicted (s : State) (t : Team) : Bool :=
  t.slot != 0 && (match aget s.launches t.launch with
    | some l => match aget s.threads l.thread with
      | some q => q.preds.any fun p => p.launch = t.launch && !p.confirmed
      | none => false
    | none => false)

/-- A team ends: its region drains, and a saved team leaves the pool (R181, R290, R339). -/
def Team.finish (t : Team) (cycle : Nat) : Team :=
  { t with
    endedAt := some cycle
    place := match t.place with | .core d k => .draining d k | p => p
    bars := [], cbars := []
    groups := t.groups.map fun g =>
      { g with
        ended := true, stbuf := [], wcbuf := [], stop := none, yreq := false
        lanes := g.lanes.map fun l => { l with exited := true, wait := .none, region := none } } }

/-- The first prediction of a queue that is not confirmed (R338). -/
def Qcp.firstOpen (q : Qcp) : Nat := (q.preds.takeWhile Prediction.confirmed).length

/-- The predictions of a thread from index k on are discarded (R339, R379): teams end, versions, intervals and
reservations go, and the program rolls back to the newest launch that is left. The record's PSTATE becomes `st`. -/
def State.discardPreds (s : State) (t k : Nat) (st : PState) : State :=
  match aget s.threads t with
  | none => s
  | some q =>
    let gone := q.preds.drop k
    let ls := gone.map Prediction.launch
    let slots := gone.map Prediction.slot
    let back := match (q.preds.take k).getLast? with
      | some p => if p.confirmed then q.history.getLast?.or (some p.rcd) else some p.rcd
      | none => q.history.getLast?
    { s with
      teams := (s.teams.filter fun p => !(ls.contains p.2.launch && p.2.place == .saved)).map fun p =>
        if ls.contains p.2.launch && p.2.endedAt.isNone then (p.1, p.2.finish s.cycle) else p
      launches := s.launches.filter fun p => !ls.contains p.1
      tileJobs := s.tileJobs.filter fun j => match aget s.teams j.team with
        | some x => !ls.contains x.launch
        | none => true
      fleet := { s.fleet with phases := s.fleet.phases.filter fun p => !ls.contains p.launch }
      versions := s.versions.filter fun v => !(v.thread == t && slots.contains v.slot)
      table := s.table.filter fun i => !(i.thread == t && slots.contains i.slot)
      threads := aset s.threads t
        { q with
          preds := q.preds.take k
          pgen := q.pgen + 1
          pstate := st
          discarding := !gone.isEmpty || q.discarding
          program := match q.program, back with
            | some p, some r => some { p with cur := r }
            | p, _ => p } }

/-- A launch still predicted faults: it and every later prediction go, and the queue is PAUSED (R340). -/
def State.failPrediction (s : State) (t : Team) : State :=
  match aget s.launches t.launch with
  | none => s
  | some l => match aget s.threads l.thread with
    | none => s
    | some q => match q.preds.findIdx? fun p => p.launch == t.launch with
      | some k => s.discardPreds l.thread k .paused
      | none => s

/-- A group raises nothing further: it has stopped and is not being stepped, or it has ended (R339, R360, R367). -/
def Group.silent (g : Group) : Bool := g.ended || (g.stop.isSome && g.step.isNone)

/-- A stop for a TRP_ code under R51, or HALT's, is no FLT_ code (R340). -/
def StopKind.faults : StopKind → Bool
  | .afterTrap | .halted => false
  | _ => true

/-- A group stops (R357): it gets a STOPID and a fault record. A launch still predicted reports no FLT_ code: it is discarded
(R340). -/
def State.stopGroup (s : State) (r : GRef) (code detail lane pc addr : Nat) (kind : StopKind) : State :=
  match s.team? r.team with
  | none => s
  | some t =>
    if ((s.grp? r).map Group.silent).getD true then s
    else if s.predicted t && kind.faults then s.failPrediction t
    else
      let n := s.newStop t.ctx
      let q := s.launchOf t
      let k := t.at_
      let u := n.2.record
        { code := code, detail := detail, ctx := t.ctx, qid := q.1, seq := q.2, x := t.x, y := t.y, z := t.z, grp := r.grp,
          lane := lane, stopid := n.1, pc := pc, addr := addr, die := k.1, unit := k.2 }
      let mark := fun (g : Group) => { g with stop := some { id := n.1, code := code, kind := kind }, step := none }
      (u.modGrp r mark).forgetDenied t.ctx (Agent.ofGroup r)

/-- TrapEntry (R241), or the stop of R51 when the group is in a trap or $tvec.EN is 0. `resume` gives each lane its
resume PC. -/
def State.takeTrap (s : State) (r : GRef) (lanes : Word) (code detail pc : Nat) (resume : Nat → DWord) : State :=
  match s.grp? r with
  | none => s
  | some g =>
    if g.silent then s
    else if g.intrap || !g.tvec.getLsbD 0 then
      let halt := fun (g : Group) =>
        { g with
          lanes := g.lanes.mapIdx fun i l =>
            if lanes.getLsbD i then { l with pc := resume i, wait := .none } else l }
      (s.modGrp r halt).stopGroup r code detail 0xFF pc 0 .afterTrap
    else
      s.modGrp r fun g =>
        { g with
          cause := code, intrap := true, trapping := lanes
          lanes := g.lanes.mapIdx fun i l =>
            if lanes.getLsbD i then
              { l with trapPc := resume i, pc := BitVec.ofNat 64 (bits64 g.tvec 2 52 * 4), wait := .none }
            else l }

/-- TRET (R241): the lanes of the trapping gang go to their resume PCs, and the other gangs are ready again. -/
def State.returnTrap (s : State) (r : GRef) : State :=
  s.modGrp r fun g =>
    { g with
      intrap := false, trapping := 0
      lanes := g.lanes.mapIdx fun i l =>
        if g.trapping.getLsbD i && !l.exited then { l with pc := l.trapPc, wait := .none } else l }

/-! ### Translation -/

/-- What an access needs of its page (R186, R194). -/
inductive Need
  | r | w | rw | x | any
  deriving DecidableEq, Repr

/-- What a walk of the device page table gives (R248, R250). -/
inductive Walk
  | leaf (l : Leaf) | fault (code : Nat) | ats
  deriving DecidableEq, Repr

/-- What a translation gives: a page, a fault, or a request that the access waits for (R186). -/
inductive Xlat
  | ok (l : Leaf) | fault (code : Nat) | miss
  deriving DecidableEq, Repr

/-- Fault codes (R358). -/
def fltOpcode : Nat := 0x0001
def fltOperand : Nat := 0x0002
def fltPrefix : Nat := 0x0003
def fltPrivileged : Nat := 0x0004
def fltFeature : Nat := 0x0005
def fltAlign : Nat := 0x0010
def fltNotPresent : Nat := 0x0011
def fltProtection : Nat := 0x0012
def fltRange : Nat := 0x0013
def fltStale : Nat := 0x0014
def fltScratch : Nat := 0x0015
def trpOverflow : Nat := 0x0020
def trpUnderflow : Nat := 0x0021
def trpPromise : Nat := 0x0022
def trpSoftware : Nat := 0x0023
def trpBreakpoint : Nat := 0x0024
def trpStep : Nat := 0x0025
def fltRegion : Nat := 0x0030
def fltEngine : Nat := 0x0031
def fltRing : Nat := 0x0032
def fltSafepoint : Nat := 0x0040
def fltDeferred : Nat := 0x0041
def fltFenced : Nat := 0x0050
def fltPoison : Nat := 0x0051

/-- Bytes a leaf of a level maps (R248). -/
def pageSize (level : Nat) : Nat := 2 ^ (12 + 9 * level)

/-- An entry with P = 1 is malformed at a level (R250). -/
def pteBad (e level : Nat) : Bool :=
  let leaf := field e 1 1 = 1
  let mxa := field e 11 1 = 1
  let nvio := field e 54 1 = 1
  field e 57 7 != 0 ||
  (if leaf then
    level ≥ 3 || field e 8 2 = 3 || field e 5 3 ≥ 5 || (field e 12 40 * 4096) % pageSize level != 0 ||
    (mxa && (level != 0 || field e 4 1 = 1 || field e 10 1 = 1 || nvio)) ||
    (!mxa && field e 52 2 != 0) || (field e 55 1 = 1 && level != 0) ||
    (nvio && (field e 10 1 = 1 || field e 8 2 != 2))
  else level = 0 || field e 2 10 != 0 || field e 52 4 != 0)

/-- AFMT codes (R249). -/
def BlkFmt.ofAfmt : Nat → BlkFmt
  | 0 => .mxfp4 | 1 => .o4 | 2 => .mxE4m3 | _ => .mxE5m2

/-- The page of a leaf entry at a virtual address (R249, R252). -/
def pteLeaf (e level va : Nat) : Leaf :=
  let base := field e 12 40 * 4096
  let mxa := field e 11 1 = 1
  { pa := if mxa then base else base + va % pageSize level, off := va % 4096, r := field e 2 1 = 1, w := field e 3 1 = 1,
    x := field e 4 1 = 1, scope := field e 5 3, cp := field e 8 2, vers := field e 10 1 = 1, nvio := field e 54 1 = 1,
    mxa := if mxa then some (BlkFmt.ofAfmt (field e 52 2)) else none, ats := none }

/-- The walk of the radix tree from a table at a level (R248). -/
def State.walk (s : State) (va : Nat) : Nat → Nat → Walk
  | level, table =>
    let e := s.natAt (table + 8 * field va (12 + 9 * level) (if level = 4 then 6 else 9)) 8
    if field e 0 1 = 0 then (if field e 56 1 = 1 then .ats else .fault fltNotPresent)
    else if pteBad e level then .fault fltProtection
    else if field e 1 1 = 1 then
      let l := pteLeaf e level va
      if l.mxa.isSome && !paDevice l.pa then .fault fltProtection else .leaf l
    else match level with
      | 0 => .fault fltProtection
      | n + 1 => s.walk va n (field e 12 40 * 4096)

def Leaf.grants (l : Leaf) : Need → Bool
  | .r => l.r | .w => l.w | .rw => l.r && l.w | .x => l.x | .any => true

def Need.write : Need → Bool
  | .w | .rw => true | _ => false

/-- The page that ATS gives for a virtual address: a page of host memory, whose addresses have 52 bits (R251, R428). -/
def atsLeaf (va host : Nat) (r w : Bool) : Leaf :=
  { pa := Config.hostBase + host % 2 ^ 40 * 4096 + va % 4096, off := va % 4096, r := r, w := w, x := r, scope := 4, cp := 0, vers := false, nvio := false,
    mxa := none, ats := some (va / 4096) }

/-- An answer that failed for this agent and permission (R352). -/
def Ctx.deniedAt (x : Ctx) (a : Agent) (page : Nat) (write : Bool) : Option Nat :=
  (x.denied.find? fun d => d.agent = a && d.page = page && d.write = write).map Denied.code

/-- The translation that an agent has of a page: that of its access under way, which an invalidation leaves alone, else the
one that the part caches (R297). -/
def Ctx.atsFor (x : Ctx) (a : Agent) (page : Nat) : Option Ats :=
  ((x.inUse.find? fun u => u.1 == a && u.2.page == page).map Prod.snd).or (x.ats.find? fun t => t.page == page)

/-- Accesses of a context that have passed Check wait for a line, with their translations (R297). -/
def State.keepInUse (s : State) (c : Nat) (us : List (Agent × Nat)) : State :=
  s.modCtx c fun x =>
    let add := fun (l : List (Agent × Ats)) (u : Agent × Nat) => match x.atsFor u.1 u.2 with
      | some t => if l.contains (u.1, t) then l else l ++ [(u.1, t)]
      | none => l
    { x with inUse := us.foldl add x.inUse }

/-- A page that a context has lent to the network (R407). -/
def State.lentPage (s : State) (c page : Nat) : Bool :=
  s.lent.any fun d => d.ctx == c && d.spans.any fun p => p.1 ≤ page && page < p.1 + p.2

/-- The answer that fails an access with some need (R352): one that reads and writes fails by either. -/
def Ctx.deniedFor (x : Ctx) (a : Agent) (page : Nat) (n : Need) : Option Nat :=
  (x.deniedAt a page n.write).or (if n = .rw then x.deniedAt a page false else none)

/-- A virtual address translated for an agent of a context (R186, R248 to R252, R352). A lent page has no W (R407); an O4
alias page needs its feature (R64, R75). DEDUCED (log 76): the feature is looked at after the permissions and before what an
access may not be on an alias page. -/
def State.translate (s : State) (c : Nat) (a : Agent) (va : Nat) (n : Need) : Xlat :=
  match s.ctx? c with
  | none => .fault fltNotPresent
  | some x =>
    if va ≥ 2 ^ 54 then .fault fltRange
    else match s.walk va 4 x.ptroot with
      | .fault code => .fault code
      | .leaf l =>
        if !l.grants n || (n.write && s.lentPage c (va / 4096)) then .fault fltProtection
        else if l.mxa = some .o4 && field x.feat 2 1 = 0 then .fault fltFeature else .ok l
      | .ats =>
        if !x.atsOn then .fault fltNotPresent
        else if n.write && s.lentPage c (va / 4096) then .fault fltProtection
        else match x.atsFor a (va / 4096) with
          | some t =>
            let l := atsLeaf va t.host t.r t.w
            if l.grants n then .ok l else match x.deniedFor a (va / 4096) n with
              | some code => .fault code
              | none => .miss
          | none => match x.deniedFor a (va / 4096) n with
            | some code => .fault code
            | none => .miss

/-- Requests of the part that the host has not answered: page requests, or those for a translation (R344). -/
def State.outstanding (s : State) (pri : Bool) : Nat := (s.ctxs.map fun p => (p.2.reqs.filter fun q => q.pri == pri && q.sent).length).sum

/-- The request of a missed access: it joins one that covers it, or an ATS request is sent (R352 steps 1 and 3), of which at
most 1,024 are outstanding (R344). No later miss joins the translation asked for again after a page request. -/
def State.request (s : State) (c : Nat) (a : Agent) (va : Nat) (write : Bool) : State :=
  match s.ctx? c with
  | none => s
  | some x =>
    let page := va / 4096
    let join := fun (q : PageReq) => { q with waiters := if q.waiters.contains (a, write) then q.waiters else (a, write) :: q.waiters }
    let covers := fun (q : PageReq) => q.page == page &&
      (q.waiters.contains (a, write) || (!q.again && (!q.pri || q.write || !write)))
    match x.reqs.findIdx? covers with
    | some k => s.modCtx c fun x => { x with reqs := modAt x.reqs k join }
    | none =>
      if s.outstanding false ≥ 1024 then s
      else (s.modCtx c fun x =>
        { x with reqs := x.reqs ++ [{ page := page, write := write, pri := false, again := false, waiters := [(a, write)], sent := true }] }).emit
          (.ats c page)

/-- The request of an access by its need: one that reads and writes waits for both permissions (R352). -/
def State.requestFor (s : State) (c : Nat) (a : Agent) (va : Nat) (n : Need) : State :=
  (if n = .rw then s.request c a va false else s).request c a va n.write

/-! ### Versions -/

/-- Who accesses memory: a context, and for a launch still predicted its queue's thread, its slot and the slots it reads,
newest first (R336). -/
structure Acc where
  ctx    : Nat
  thread : Nat := 0
  slot   : Nat := 0
  sees   : List Nat := []
  deriving DecidableEq, Repr

/-- The accessor of a team (R336, R338): slot 0 once its launch is relabelled. -/
def State.acc (s : State) (t : Team) : Acc :=
  match aget s.launches t.launch with
  | some l => match aget s.threads l.thread with
    | some q =>
      if t.slot = 0 then { ctx := t.ctx }
      else
        let upTo := (q.preds.map Prediction.slot).takeWhile (· != t.slot)
        { ctx := t.ctx, thread := l.thread, slot := t.slot, sees := t.slot :: upTo.reverse }
    | none => { ctx := t.ctx }
  | none => { ctx := t.ctx }

/-- The newest version of a byte that an accessor sees (R336, R377). -/
def State.versionByte (s : State) (a : Acc) (pa : Nat) : Option Byte :=
  a.sees.findSome? fun k =>
    (s.versions.find? fun v => v.thread == a.thread && v.slot == k && v.line == pa / 128).bind fun v => aget v.bytes (pa % 128)

/-- Version lines of a slot. -/
def State.versionLines (s : State) (t slot : Nat) : List Nat :=
  (s.versions.filter fun v => v.thread == t && v.slot == slot).map Version.line

/-- The 4 KiB units that n versioned lines use of a queue's quota beside a reservation (R335). -/
def unitsFor (reserved n : Nat) : Nat := reserved + (n - 32 * reserved + 31) / 32

/-- A queue's free version-store space in 4 KiB units (R334, R335). -/
def State.queueFree (s : State) (t : Nat) : Nat :=
  match aget s.threads t with
  | some q => q.vquota - (q.preds.map fun p => unitsFor p.units (s.versionLines t p.slot).length).sum
  | none => 0

/-- A slot's versions have room for some lines (R335). -/
def State.versionRoom (s : State) (a : Acc) (lines : List Nat) : Bool :=
  match (aget s.threads a.thread).bind fun q => q.preds.find? fun p => p.slot == a.slot with
  | some p =>
    let old := s.versionLines a.thread a.slot
    let new := (lines.filter fun n => !old.contains n).length
    unitsFor p.units (old.length + new) - unitsFor p.units old.length ≤ s.queueFree a.thread
  | none => true

/-- A team reads the versions of a slot before they are relabelled (R336). -/
def State.seesSlot (s : State) (thread slot : Nat) (t : Team) : Bool :=
  let a := s.acc t
  a.thread == thread && a.sees.contains slot

/-- Bytes written to a slot's version, which the first write makes (R337, R377). Regions of the teams that read it see another
agent's write (R212); those of the rest see it at the relabel (R378). -/
def State.writeVersion (s : State) (a : Acc) (ws : List (Nat × Byte)) : State :=
  ws.foldl (fun s p =>
    match s.versions.findIdx? fun v => v.thread == a.thread && v.slot == a.slot && v.line == p.1 / 128 with
    | some k => { s with versions := modAt s.versions k fun v => { v with bytes := aset v.bytes (p.1 % 128) p.2 } }
    | none => { s with versions := s.versions ++
        [{ thread := a.thread, slot := a.slot, line := p.1 / 128, bytes := [(p.1 % 128, p.2)] }] })
    (if s.teams.any fun p => p.2.inRegion then s.conflictAmong (s.seesSlot a.thread a.slot) (linesOf ws) else s)

/-! ### Access through a page -/

/-- The backing block of an alias offset (R78): data bytes and scale address. -/
def aliasBlock (f : BlkFmt) (frame off : Nat) : Nat × Nat :=
  let b := off / 64
  (frame + b * f.dataBytes, frame + 64 * f.dataBytes + b)

/-- A byte of an alias page (R79). -/
def State.aliasByte (s : State) (f : BlkFmt) (frame off : Nat) : Byte :=
  let p := aliasBlock f frame off
  let v := aliasRead f ((s.bytesAt p.1 f.dataBytes).map BitVec.toNat) (s.natAt p.2 1) (off / 2 % 32)
  BitVec.ofNat 8 (if off % 2 = 0 then v else v / 256)

/-- A byte read through a page at an offset from the translated address (R79, R336). -/
def State.leafByte (s : State) (a : Acc) (l : Leaf) (k : Nat) : Byte :=
  match l.mxa with
  | some f => s.aliasByte f l.pa (l.off + k)
  | none =>
    match (if l.vers && a.slot != 0 then s.versionByte a (l.pa + k) else none) with
    | some b => b
    | none => s.byteAt (l.pa + k)

/-- n bytes read through one page. -/
def State.leafBytes (s : State) (a : Acc) (l : Leaf) (n : Nat) : List Byte :=
  if l.mxa.isNone && notifyPa l.pa then s.notifyLoad l.pa n else (List.range n).map (s.leafByte a l)

/-- One backing block updated with the elements written (R80). -/
def State.aliasUpdate (s : State) (f : BlkFmt) (frame blk : Nat) (ws : List (Nat × Byte)) : State :=
  let p := aliasBlock f frame (64 * blk)
  let old := (s.bytesAt p.1 f.dataBytes).map BitVec.toNat
  let el := fun k => match aget ws (64 * blk + 2 * k), aget ws (64 * blk + 2 * k + 1) with
    | some lo, some hi => some (lo.toNat + 256 * hi.toNat)
    | _, _ => none
  let q := aliasWrite f old (s.natAt p.2 1) el
  s.writeBytes (located p.1 (q.1.map (BitVec.ofNat 8)) ++ [(p.2, BitVec.ofNat 8 q.2)])

/-- Bytes written through a page, at offsets from the translated address, rising (R80, R337). -/
def State.leafWrite (s : State) (a : Acc) (l : Leaf) (ws : List (Nat × Byte)) : State :=
  match l.mxa with
  | some f =>
    let at_ : AMap Byte := ws.foldl (fun m p => aset m (l.off + p.1) p.2) []
    ((at_.map fun p => p.1 / 64).eraseDups).foldl (fun s b => s.aliasUpdate f l.pa b at_) s
  | none =>
    let ps := ws.map fun p => (l.pa + p.1, p.2)
    if l.vers && a.slot != 0 then s.writeVersion a ps
    else if notifyPa l.pa then s.notifyStore (some a.ctx) l.pa ws.length (leNat (ws.map Prod.snd))
    else s.writeBytes ps

/-- Some line of n bytes at a translated address holds an uncorrectable error (R186). -/
def State.poisoned (s : State) (l : Leaf) (n : Nat) : Bool :=
  if s.poison.isEmpty then false
  else match l.mxa with
    | some f => let p := aliasBlock f l.pa l.off; s.poison.contains (p.1 / 128) || s.poison.contains (p.2 / 128)
    | none => (List.range n).any fun k => s.poison.contains ((l.pa + k) / 128)

/-- A line of a tracked KV page has an error that is not classed yet (R396, R397). -/
def State.kvPending (s : State) (line : Nat) : Bool :=
  s.poison.contains line && s.kvmap.any fun k => s.seqs.any (fun e => e.die == k.die && e.id == k.id) &&
    (match aget s.serving k.ctx with
      | some v => k.pa ≤ 128 * line && 128 * line < k.pa + 2 ^ v.log2kv
      | none => false)

/-! ### Scratchpads -/

/-- Cores of a team's cluster (R18). -/
def Team.cores (t : Team) : Nat := t.kern.rows * t.kern.cols

/-- The teams of a team's cluster, by number (R18). -/
def State.cluster (s : State) (t : Team) : List (Nat × Team) :=
  s.teams.filter fun p =>
    p.2.launch == t.launch && p.2.y == t.y && p.2.z == t.z && p.2.x / t.cores == t.x / t.cores && p.2.endedAt.isNone

/-- Bytes of a team's scratchpad (R188). -/
def Team.scratchSize (t : Team) : Nat := t.kern.scratch * 4096

/-- The check of a scratchpad address of some bytes: the team that holds it and the offset (R188, R201). -/
def State.scratchAt (s : State) (t : Team) (addr n : Nat) : Option (Nat × Nat) :=
  if addr / 2 ^ 24 % 256 != 0 || addr / 2 ^ 20 % 16 ≥ t.cores then none
  else match (s.cluster t).find? fun p => p.2.cidx == addr / 2 ^ 20 % 16 with
    | some p => if addr % 2 ^ 20 + n > p.2.scratchSize then none else some (p.1, addr % 2 ^ 20)
    | none => none

/-- n bytes of a team's scratchpad. -/
def State.scratchBytes (s : State) (team off n : Nat) : List Byte :=
  match s.team? team with
  | some t => (span off n).map (sget t.scratch)
  | none => List.replicate n 0

def State.scratchNat (s : State) (team off n : Nat) : Nat := leNat (s.scratchBytes team off n)

def State.scratchWrite (s : State) (team off : Nat) (bs : List Byte) : State :=
  s.modTeam team fun t => { t with scratch := ssetAll t.scratch (located off bs) }

end Sys2Proof.Machine
end

