-- ==== Sys2Proof/Machine/Units.lean ====
section
/-! DEFINITION. Unit paths and fences as other families ask for them (R410, R413, R414). -/

namespace Sys2Proof.Machine

open Sys2Proof

/-- A unit path code (R410). -/
def unitPath (die kind2 idx2 kind3 idx3 : Nat) : Word :=
  BitVec.ofNat 32 (die * 2 ^ 28 + kind2 * 2 ^ 22 + idx2 * 2 ^ 16 + kind3 * 2 ^ 10 + idx3)

/-- Path of a core, of an engine 0 to 5 of a die (R208, R410). -/
def corePath (d k : Nat) : Word := unitPath d 0x01 k 0 0
def enginePath (d e : Nat) : Word :=
  if e < 4 then unitPath d 0x02 e 0 0 else unitPath d (if e = 4 then 0x03 else 0x04) 0 0 0

def qcpPath (t : Nat) : Word := unitPath 8 0x10 0 0x0D t
def gafferPath (q : Nat) : Word := unitPath 8 0x11 0 0x0D q

def State.fenced (s : State) (p : Word) : Bool := s.fleet.fences.contains p

/-- A unit that self-test empties or tests (R412): it takes no new work, and what is on it runs on. -/
def State.underTest (s : State) (p : Word) : Bool := s.fleet.bist != 0 && s.fleet.testing == p

/-- The unit that an engine is fenced and tested with: one of its die, or its core (R410, R414). -/
def engineUnit (d core e : Nat) : Word := if e < 8 then enginePath d e else corePath d core

/-- An engine is fenced: one of its die, or with its core (R414). -/
def State.engineFenced (s : State) (d core e : Nat) : Bool :=
  s.fenced (engineUnit d core e)

/-- A unit that takes no new work: fenced, or under self-test (R412, R414). -/
def State.outOfService (s : State) (p : Word) : Bool := s.fenced p || s.underTest p

/-- A line of HBM lies on a fenced pseudo-channel (R413, R414); which one it lies on the part decides (R428, log 18). -/
def State.lineFenced (s : State) (line : Nat) : Bool :=
  !s.fleet.fences.isEmpty && 128 * line < Config.hbmEnd &&
  (let d := 128 * line / 0x001800000000
   let st := 128 * line % 0x001800000000 / 0x000C00000000
   s.fenced (unitPath d 0x0A st 0x0A (Config.pseudoChannel line).toNat))

end Sys2Proof.Machine
end

