-- ==== Sys2Proof/Machine/Errors.lean ====
section
/-! DEFINITION. Error records and their ring (R415 to R417). -/

namespace Sys2Proof.Machine

open Sys2Proof

/-- The class of an error code (R417). -/
def errClass : Nat → Nat
  | 0x0101 | 0x0103 | 0x0111 | 0x0134 => 1
  | 0x0121 | 0x0140 | 0x0141 => 2
  | 0x0151 | 0x0160 => 3
  | 0x0150 | 0x0152 | 0x0153 | 0x0161 | 0x0162 | 0x0163 | 0x0164 | 0x0165 => 4
  | _ => 0

/-- The class of a record. -/
def recClass (b : List Byte) : Nat := leNat (b.take 1)

/-- The error ring is full (R416); a ring of no records holds records instead (R360). -/
def State.errFull (s : State) : Bool := s.ringLen 0x2020000 != 0 && !s.ringRoom 0x2020000

/-- Records of these classes are dropped where the ring is full (R416). -/
def droppable (b : List Byte) : Bool := recClass b = 0 || recClass b = 4

/-- An error record held for its ring (R415, R416). Fatal ones are kept besides. -/
def State.errRecord (s : State) (code : Nat) (path : Word) (addr ctx detail : Nat) : State :=
  let b := leBytes 1 (errClass code) ++ leBytes 1 0 ++ leBytes 2 code ++ leBytes 4 path.toNat ++ leBytes 8 addr ++
    leBytes 2 ctx ++ leBytes 2 detail ++ leBytes 4 0 ++ leBytes 8 s.cycle
  let f := s.fleet
  if droppable b && s.errFull then { s with fleet := { f with dropped := f.dropped + 1 } }
  else { s with fleet := { f with
    errors := f.errors ++ [b]
    fatal := if errClass code = 3 then f.fatal ++ [b] else f.fatal } }

/-- ERROR_RECORD_WRITE (R416). -/
def execErrorRecordWrite (s : State) : Host.Outcome State Fault Refusal :=
  match s.fleet.errors with
  | [] => .next s
  | b :: r =>
    let t := { s with fleet := { s.fleet with errors := r } }
    if s.ringRoom 0x2020000 then .next (t.putRecord 0x2020000 32 b)
    else if droppable b && s.errFull then .next { t with fleet := { t.fleet with dropped := t.fleet.dropped + 1 } }
    else .next s

end Sys2Proof.Machine
end

