-- ==== Sys2Proof/Machine/Coherence.lean ====
section
/-! DEFINITION. The coherence fabric: homes, parts, recalls, notices, fills (R254, R255, R275 to R295) and the halves of
host lines that the part keeps (R372, R373). It moves no values: an access to device memory takes or leaves its value at
once, and its request then travels (log 16). -/

namespace Sys2Proof.Machine

open Sys2Proof

/-! ### Homes, objects, sharers -/

/-- The home die of a device line (R277, R428). -/
def homeOf (line : Nat) : Nat :=
  if 128 * line < Config.hbmEnd then 128 * line / 0x001800000000 else 128 * line / 2 ^ 16 % 8

/-- A line of host memory (R275). -/
def hostLine (line : Nat) : Bool := Config.hostBase ≤ 128 * line

/-- The slot of a declared object that holds a line, with its context (R275, R276). -/
def State.declOf (s : State) (line : Nat) : Option (Nat × Nat) :=
  s.ctxs.findSome? fun p => (p.2.slots.find? fun q => q.2.decl.contains line).map fun q => (p.2.pasid, q.1)

/-- The object of a device line (R275, R278); a line of host memory belongs to none. -/
def State.objOf (s : State) (line : Nat) : ObjId :=
  match (if hostLine line then none else s.declOf line) with
  | some (pasid, slot) => { decl := true, id := pasid * 2 ^ 20 + slot }
  | none => { decl := false, id := line / 512 }

/-- SID of the cluster whose first core is core k of die d, of a die's L2, of an engine, of the host (R279). -/
def sidL1 (d k : Nat) : Nat := 128 * d + k
def sidL2 (d : Nat) : Nat := 128 * d + 48
def sidEngine (d e : Nat) : Nat := 128 * d + 49 + e
def sidHost : Nat := 1023

/-- The part's own units write at home under a number that is no sharer's. -/
def sidPart : Nat := 1022

/-- Every sharer of the package (R279). -/
def allSids : List Nat :=
  ((List.range 8).flatMap fun d => (List.range 55).map fun i => 128 * d + i) ++ [sidHost]

/-- Die and first core of a team's cluster: cluster index i lies in row ⌊i/c⌋ and column i mod c of its rectangle (R18,
R55, R279). -/
def Team.firstCore (t : Team) : Nat × Nat :=
  let k := t.at_
  (k.1, k.2 - (8 * (t.cidx / t.kern.cols) + t.cidx % t.kern.cols))

/-- The SID of a team's cluster. -/
def Team.clusterSid (t : Team) : Nat := let k := t.firstCore; sidL1 k.1 k.2

/-! ### Promoted releases -/

/-- The group of a mark has not ended, and where its cluster is (R263). -/
def State.markSid (s : State) (m : Mark) : Option (Option Nat) :=
  match s.team? m.grp.team, s.grp? m.grp with
  | some t, some g => if g.ended then none else some (match t.place with | .core _ _ => some t.clusterSid | _ => none)
  | _, _ => none

/-- A reader under a SID waits for a line: stores of a release on it are not yet performed outside the releasing cluster (R263;
inside the cluster a release completes only once they are performed there), or an error in its KV is not classed yet (R397). -/
def State.marked (s : State) (sid : Option Nat) (line : Nat) : Bool :=
  s.kvPending line || s.coh.marks.any fun m => m.line == line && (match s.markSid m with
    | none => false
    | some none => true
    | some k => k != sid)

/-- A line is marked in the L1 of a SID (R263). -/
def State.markedIn (s : State) (sid line : Nat) : Bool :=
  s.coh.marks.any fun m => m.line == line && s.markSid m == some (some sid)

/-- A promoted release of a group marks the lines it wrote where it has stores unacknowledged (R263). -/
def State.promote (s : State) (r : GRef) (lines : List Nat) : State :=
  let n := ((s.grp? r).map Group.unacked).getD 0
  if n = 0 then s
  else { s with coh := { s.coh with marks := s.coh.marks ++ lines.map fun k => { line := k, grp := r, left := n } } }

/-- One store of a group is acknowledged: its marks count down, and one that reaches zero clears (R263). -/
def Coh.acked (c : Coh) (r : GRef) : Coh :=
  { c with marks := (c.marks.map fun m => if m.grp = r then { m with left := m.left - 1 } else m).filter fun m => m.left != 0 }

/-! ### Parts -/

def OctPart.is (p : OctPart) (home : Nat) (o : ObjId) : Bool := p.home == home && p.obj == o

def Coh.part? (c : Coh) (home : Nat) (o : ObjId) : Option OctPart := c.parts.find? fun p => p.is home o

def OctPart.sharer? (p : OctPart) (sid : Nat) : Option Sharer := p.sharers.find? fun r => r.sid == sid

/-- Records with COUNT 0 and no hold are removed, and leave WRITERS (R281); a part without records carries nothing. -/
def OctPart.tidy (p : OctPart) : OctPart :=
  let rs := p.sharers.filter fun r => r.count != 0 || r.hold.isSome
  { p with sharers := rs, writers := p.writers.filter fun w => rs.any fun r => r.sid == w }

/-- A part carries something: a record, or its broadcast record while answers or notices for it are to come (R278, R280). -/
def Coh.carries (c : Coh) (p : OctPart) : Bool :=
  !p.sharers.isEmpty ||
  (p.bcast && !(p.evicting &&
    !(c.recalls.any fun r => r.obj == p.obj && homeOf r.line == p.home) &&
    !(c.acks.any fun a => a.obj == p.obj && homeOf a.line == p.home) &&
    !(c.notices.any fun n => n.obj == p.obj && homeOf n.line == p.home)))

/-- A part changed; a part that carries nothing is dropped. -/
def Coh.modPart (c : Coh) (home : Nat) (o : ObjId) (f : OctPart → OctPart) : Coh :=
  { c with parts := (c.parts.map fun p => if p.is home o then (f p).tidy else p).filter c.carries }

/-- One record of a part changed. -/
def OctPart.modSharer (p : OctPart) (sid : Nat) (f : Sharer → Sharer) : OctPart :=
  { p with sharers := p.sharers.map fun r => if r.sid == sid then f r else r }

/-- More than 64 records merge the oldest into the broadcast record (R278). -/
def OctPart.cap (p : OctPart) : OctPart :=
  if p.sharers.length ≤ 64 then p
  else { p with sharers := p.sharers.drop (p.sharers.length - 63), bcast := true, answered := [] }

/-- OnGrant (R281, R284), with the sharer in WRITERS when it gains the line to write. -/
def OctPart.grant (p : OctPart) (sid used : Nat) (write : Bool) : OctPart :=
  let q : OctPart := match p.sharer? sid with
    | some _ => p.modSharer sid fun (r : Sharer) =>
        { r with count := r.count + 1, hold := r.hold.map fun (h : Nat × Nat) => (h.1 + 1, h.2) }
    | none => { p with sharers := p.sharers ++ [{ sid := sid, count := 1, hold := none }] }
  { q.cap with
    writers := if write && !q.writers.contains sid then sid :: q.writers else q.writers
    answered := q.answered.filter (· != sid), used := used }

/-- OnGrant at a home: the part is made where there is none. -/
def Coh.onGrant (c : Coh) (home : Nat) (o : ObjId) (sid : Nat) (write : Bool) : Coh :=
  let c := { c with next := c.next + 1 }
  match c.part? home o with
  | some _ => c.modPart home o fun p => p.grant sid c.next write
  | none =>
    { c with parts := c.parts ++
        [{ home := home, obj := o, sharers := [{ sid := sid, count := 1, hold := none }],
           writers := if write then [sid] else [], bcast := false, answered := [], used := c.next, evicting := false }] }

/-! ### Lines that sharers hold -/

def Coh.held? (c : Coh) (sid line : Nat) : Option Held := c.held.find? fun h => h.sid == sid && h.line == line

/-- Lines of a part that a sharer holds; of the host, halves (R279, R293). -/
def State.heldOf (s : State) (home : Nat) (o : ObjId) (sid : Nat) : Nat :=
  if sid = sidHost then (s.coh.hosted.filter fun h => homeOf (h / 2) == home && s.objOf (h / 2) == o).length
  else (s.coh.held.filter fun h => h.sid == sid && homeOf h.line == home && s.objOf h.line == o).length

/-- Notices of a sharer that a home has not yet taken (R283). -/
def Coh.untaken (c : Coh) (sid home : Nat) : Nat :=
  (c.notices.filter fun n => n.sid == sid && homeOf n.line == home).length

/-- A sharer may drop a line at once: fewer than 64 notices are untaken (R283), no grant of the line is on its way to it, and
no release has marked it (R263). -/
def State.mayEvict (s : State) (sid line : Nat) : Bool :=
  hostLine line ||
  (s.coh.untaken sid (homeOf line) < 64 && !(s.coh.grants.any fun g => g.sid == sid && g.line == line) &&
    !s.markedIn sid line)

/-- The halves of a line go back to the host (R372). -/
def State.returnHalves (s : State) (line : Nat) : State :=
  [2 * line, 2 * line + 1].foldl (fun s h => match aget s.coh.halves h with
    | some st => ({ s with coh := { s.coh with halves := adel s.coh.halves h } }).emit
        (.cxl h (if st = 3 then "DirtyEvict" else "CleanEvict"))
    | none => s) s

/-- A host line leaves a cache, without a notice; with its last copy its halves go back to the host (R294, R372). -/
def State.evictHost (s : State) (sid line : Nat) : State :=
  let t := { s with coh := { s.coh with held := s.coh.held.filter fun h => !(h.sid == sid && h.line == line) } }
  if t.coh.held.any fun h => h.line == line then t else t.returnHalves line

/-- A sharer drops a line with a notice, or the eviction waits (R281, R283). -/
def State.evict (s : State) (sid line : Nat) : State :=
  let c := s.coh
  let home := homeOf line
  if hostLine line then s.evictHost sid line
  else if s.mayEvict sid line then
    let n := ((aget c.sent (8 * sid + home)).getD 0 + 1) % 256
    { s with coh := { c with
        held := c.held.filter fun h => !(h.sid == sid && h.line == line)
        sent := aset c.sent (8 * sid + home) n
        leaving := c.leaving.filter (· != (sid, line))
        notices := c.notices ++ [{ sid := sid, line := line, obj := s.objOf line, n := n }] } }
  else if c.leaving.contains (sid, line) then s
  else { s with coh := { c with leaving := c.leaving ++ [(sid, line)] } }

/-- Lines dropped in turn. -/
def State.evictAll (s : State) (ls : List (Nat × Nat)) : State := ls.foldl (fun s p => s.evict p.1 p.2) s

/-- Cores of the cluster last fused under a SID of an L1 (R254). -/
def Coh.fusedCores (c : Coh) (d k : Nat) : Nat :=
  match aget c.fused (48 * d + k) with
  | some v => v / 16 % 16 * (v % 16)
  | none => 1

/-- The set and its ways for a line in a sharer's cache: none for an engine or the host, which bound nothing (R254). Which
set of the L2 a line lies in the part decides (log 17). -/
def Coh.setOf (c : Coh) (sid line : Nat) : Option (Nat × Nat × Nat) :=
  let d := sid / 128
  let i := sid % 128
  if i < 48 then
    let n := Nat.max 1 (c.fusedCores d i)
    some (line % n, line / n % 128, 16)
  else if i = 48 then some (0, (Config.l2Set line).toNat, 32)
  else none

/-- Lines of one set. -/
def Coh.inSet (c : Coh) (sid line : Nat) : List Held :=
  match c.setOf sid line with
  | none => []
  | some (a, b, _) => c.held.filter fun h => h.sid == sid && (match c.setOf sid h.line with
      | some (x, y, _) => x == a && y == b
      | none => false)

/-- Re-reference values raised until some way of the set holds 7 (R255). -/
def raise (hs : List Held) : Nat := 7 - hs.foldl (fun m h => Nat.max m h.rrpv) 0

/-- The victim of a full set: the lowest-numbered way whose value is 7 after raising (R255). -/
def victim (hs : List Held) : Option Held :=
  let k := raise hs
  (List.range 32).findSome? fun w => hs.find? fun h => h.way == w && h.rrpv + k == 7

/-- Room for a fill: none when the set is full and its victim has to wait (R283). -/
def State.fillOk (s : State) (sid line : Nat) : Bool :=
  match s.coh.setOf sid line with
  | none => true
  | some (_, _, ways) =>
    let hs := s.coh.inSet sid line
    hs.length < ways || (match victim hs with
      | some v => s.mayEvict sid v.line
      | none => true)

/-- A line is filled at a re-reference value: a victim leaves a full set (R255). -/
def State.fill (s : State) (sid line st rd : Nat) : State :=
  match s.coh.setOf sid line with
  | none =>
    { s with coh := { s.coh with held := s.coh.held ++ [{ sid := sid, line := line, st := st, rrpv := rd, way := 0 }] } }
  | some (_, _, ways) =>
    let hs := s.coh.inSet sid line
    let full := hs.length ≥ ways
    let k := if full then raise hs else 0
    let up := fun (h : Held) => if hs.contains h then { h with rrpv := h.rrpv + k } else h
    let t := { s with coh := { s.coh with held := s.coh.held.map up } }
    let way := if full then (match victim hs with | some v => v.way | none => 0)
      else ((List.range ways).find? fun w => !(hs.any fun h => h.way == w)).getD 0
    let u := if full then (match victim hs with | some v => t.evict sid v.line | none => t) else t
    { u with coh := { u.coh with held := u.coh.held ++ [{ sid := sid, line := line, st := st, rrpv := rd, way := way }] } }

/-! ### Requests -/

/-- A request of a sharer as it sets out. -/
def CohReq.of (kind : ReqKind) (sid line rd : Nat) : CohReq :=
  { kind := kind, sid := sid, line := line, rd := rd, pend := [], served := false, data := [] }

/-- Two requests ask for the same: of the host, the same half, and each of its writes is one of its own (R293). -/
def CohReq.same (r q : CohReq) : Bool :=
  r.sid == q.sid && r.line == q.line && r.kind == q.kind && (q.sid != sidHost || (q.kind == .read && r.rd == q.rd))

/-- A request joins the others at the home, where the sharer has not asked for the same already. -/
def Coh.ask (c : Coh) (q : CohReq) : Coh :=
  if c.reqs.any (fun r => r.same q) ||
    c.grants.any (fun g => g.sid == q.sid && g.line == q.line && (g.st != 0 || q.kind == .read) &&
      (q.sid != sidHost || (q.kind == .read && g.rd == q.rd))) then c
  else { c with reqs := c.reqs ++ [q] }

/-- A hit sets a line's re-reference value to 0 (R255). -/
def Coh.hit (c : Coh) (sid line : Nat) : Coh :=
  { c with held := c.held.map fun x => if x.sid == sid && x.line == line then { x with rrpv := 0 } else x }

/-- An access by a sharer that allocates at a re-reference value: a hit sets the value to 0, a miss asks (R255, R282). -/
def Coh.access (c : Coh) (sid line rd : Nat) (write : Bool) : Coh :=
  match c.held? sid line with
  | some h =>
    if write && h.st = 0 then
      c.ask (.of .own sid line rd)
    else { c with held := c.held.map fun x =>
        if x.sid == sid && x.line == line then { x with rrpv := 0, st := if write then 2 else x.st } else x }
  | none => c.ask (.of (if write then .own else .read) sid line rd)

/-- How an access uses the caches: CLASS, RD and the page's CP (R255). -/
structure Policy where
  cls : Nat
  rd  : Nat
  deriving DecidableEq, Repr

/-- CLASS and RD of an instruction's X field on a page (R97, R255): an alias page behaves as UC (R78). -/
def policyOf (x : Nat) (l : Leaf) (store : Bool) : Policy :=
  { cls := if l.nvio || l.mxa.isSome || l.cp = 2 then 3 else if l.cp = 1 then (if store then 1 else 3) else x / 2 % 4
    rd := x / 8 % 8 }

/-- No cache keeps what a store writes: class 11, RD 7, or a UC page (R255). -/
def Policy.through (p : Policy) : Bool := p.cls = 3 || p.rd = 7

/-- Where a load allocates a line (R255): its own line in L1 and L2, and the next line in L1, each with its value. -/
def Policy.loads (p : Policy) : Option Nat × Option Nat × Option Nat :=
  if p.rd = 7 && p.cls != 1 then (none, none, none)
  else match p.cls with
    | 0 => (some p.rd, some p.rd, none)
    | 1 => (none, some (if p.rd = 7 then 7 else 6), none)
    | 2 => (some 7, some p.rd, some 7)
    | _ => (none, none, none)

/-! ### Host halves -/

/-- Halves of host memory that n bytes at a physical address touch, lower first (R294, R372). -/
def halvesOf (pa n : Nat) : List Nat :=
  if pa < Config.hostBase || n = 0 then []
  else (List.range ((pa + n - 1) / 64 - pa / 64 + 1)).map (pa / 64 + ·)

/-- The halves of some that an access cannot use yet: a read needs S, a write E or M (R372). -/
def Coh.lacks (c : Coh) (hs : List Nat) (write : Bool) : List Nat :=
  hs.filter fun h => let st := (aget c.halves h).getD 0; if write then st < 2 else st < 1

/-- Requests for host halves, each sent once, for an access to a page of a context where it has one (R297, R372). -/
def State.askHalves (s : State) (hs : List Nat) (write : Bool) (page : Option (Nat × Nat) := none) (ahead : Option Nat := none) :
    State :=
  hs.foldl (fun s h =>
    match s.coh.halfReqs.findIdx? fun q => q.half == h && (q.write || !write) with
    | some k => { s with coh := { s.coh with
        halfReqs := modAt s.coh.halfReqs k fun q => { q with pages := q.pages ++ page.toList.filter fun p => !q.pages.contains p } } }
    | none => ({ s with coh := { s.coh with halfReqs := s.coh.halfReqs ++ [HalfReq.mk h write page.toList ahead] } }).emit
        (.cxl h (if write then "RdOwn" else "RdShared"))) s

/-- Halves held E or M become M as they are written (R372). -/
def State.dirtyHalves (s : State) (hs : List Nat) : State :=
  { s with coh := { s.coh with halves := hs.foldl (fun m h => aset m h 3) s.coh.halves } }

/-- A half is no longer held; with its line's last half the caches hold the line no more (R294). -/
def Coh.dropHalf (c : Coh) (h : Nat) : Coh :=
  let d := { c with halves := adel c.halves h }
  if (aget d.halves (h / 2 * 2)).isSome || (aget d.halves (h / 2 * 2 + 1)).isSome then d
  else { d with held := d.held.filter fun x => x.line != h / 2 }

/-- A write of class 01 or 11, RD 7, or to a WC page: the half is written and invalidated at the host's home, the part's own
copy being written back first if it is M (R372). -/
def State.dropHalves (s : State) (hs : List Nat) : State :=
  hs.foldl (fun s h =>
    let t := if aget s.coh.halves h = some 3 then s.emit (.cxl h "DirtyEvict") else s
    ({ t with coh := t.coh.dropHalf h }).emit (.cxl h "WrInv")) s

/-- A host line enters a cache, or is used again there (R254, R255, R294). -/
def State.hostFill (s : State) (sid line : Nat) : Option Nat → State
  | none => s
  | some rd =>
    if (s.coh.held? sid line).isSome then { s with coh := s.coh.hit sid line }
    else if s.fillOk sid line then s.fill sid line 0 rd else s

/-- The requests of a team's access to a device line (R255, R282); a host line the part holds enters its caches (R294). A load of
class 00 to 10 that allocates nowhere still hits the copies that are there. -/
def State.touch (s : State) (t : Team) (line : Nat) (p : Policy) (write : Bool) : State :=
  let l1 := t.clusterSid
  let l2 := sidL2 t.firstCore.1
  let ps := p.loads
  let again := fun (c : Coh) (sid : Nat) => if p.cls = 3 then c else c.hit sid line
  let hostly := fun (s : State) (sid : Nat) (rd : Option Nat) => match rd with
    | some _ => s.hostFill sid line rd
    | none => { s with coh := again s.coh sid }
  if hostLine line then
    if write then (if p.cls = 1 || p.through then s else s.hostFill l1 line (some p.rd))
    else
      let u := hostly (hostly s l1 ps.1) l2 ps.2.1
      if ps.2.2.isSome && (128 * line + 128) % 4096 != 0 then
        let lack := u.coh.lacks [2 * line + 2, 2 * line + 3] false
        if lack.isEmpty then u.hostFill l1 (line + 1) ps.2.2 else u.askHalves lack false none (some l1)
      else u
  else if !paDevice (128 * line) then s
  else if write then
    { s with coh := if p.cls = 1 || p.through then s.coh.ask (.of .atHome l1 line p.rd) else s.coh.access l1 line p.rd true }
  else
    let a := fun (c : Coh) (sid n : Nat) (rd : Option Nat) => match rd with
      | some k => c.access sid n k false
      | none => if n = line then again c sid else c
    { s with coh := a (a (a s.coh l1 line ps.1) l2 line ps.2.1) l1 (line + 1) ps.2.2 }

/-- Lines touched in turn. -/
def State.touchAll (s : State) (t : Team) (ls : List Nat) (p : Policy) (write : Bool) : State :=
  ls.foldl (fun s n => s.touch t n p write) s

/-! ### At the home -/

/-- A recall leaves a home. -/
def Coh.recall (c : Coh) (sid line : Nat) (o : ObjId) (share : Bool) : Coh :=
  { c with
    next := c.next + 1
    recalls := c.recalls ++ [{ n := c.next, sid := sid, line := line, obj := o, share := share, granted := 0 }] }

/-- The sharers that a request recalls from (R276, R282); under a broadcast record all of them (R278). A write of the host
leaves the host's own copies to the host (R293). -/
def OctPart.targets (p : OctPart) (q : CohReq) : List Nat :=
  let all := if p.bcast then allSids else p.sharers.map Sharer.sid
  match q.kind with
  | .read => (if p.bcast then allSids else p.writers).filter (· != q.sid)
  | .own => all.filter (· != q.sid)
  | .atHome => if q.sid = sidHost then all.filter (· != sidHost) else all
  | .move => all

/-- A request is first in its line's order (R282). -/
def Coh.firstOf (c : Coh) (k : Nat) (q : CohReq) : Bool := !((c.reqs.take k).any fun r => r.line == q.line)

/-- The parts of a home fill its slice (R278). -/
def Coh.full (c : Coh) (home : Nat) : Bool := (c.parts.filter fun p => p.home == home).length ≥ 65536

/-- The least recently used part of a home (R280). -/
def Coh.oldest (c : Coh) (home : Nat) : Option OctPart :=
  (c.parts.filter fun p => p.home == home).foldl (fun m p => match m with
    | some q => if p.used < q.used then some p else some q
    | none => some p) none

/-- An entry is being freed (R280): every line that the part's sharers hold, or are being granted, is recalled where no recall of it
is out. Whoever waits for the entry does so again, until nothing is left. -/
def State.evictPart (s : State) (p : OctPart) : State :=
  let mine := fun (line : Nat) => homeOf line == p.home && s.objOf line == p.obj
  let all : List (Nat × Nat) := (s.coh.held.map fun h => (h.sid, h.line)) ++ (s.coh.grants.map fun g => (g.sid, g.line)) ++
    s.coh.hosted.map fun h => (sidHost, h / 2)
  let hs := all.eraseDups.filter fun q => mine q.2
  let c := hs.foldl (fun c q =>
    if c.recalls.any (fun r => r.sid == q.1 && r.line == q.2) then c else c.recall q.1 q.2 p.obj false) s.coh
  { s with coh := c.modPart p.home p.obj fun x => { x with evicting := true } }

/-- The requester of a request holds what it asks for: of the host, the half (R293). -/
def Coh.has (c : Coh) (q : CohReq) : Bool :=
  if q.sid = sidHost then c.hosted.contains (2 * q.line + q.rd) else (c.held? q.sid q.line).isSome

/-- A served request without answers to wait for is granted or done (R281, R282, R284); a write of the host finds its line
free. A copy that a recall on its way takes first counts as one that the sharer does not hold. -/
def State.settleReq (s : State) (q : CohReq) : State :=
  let home := homeOf q.line
  let o := s.objOf q.line
  let c := { s.coh with reqs := s.coh.reqs.filter (· != q) }
  if q.kind == .move then { s with coh := c }
  else if q.kind == .atHome then
    { s with coh := if q.sid = sidHost then { c with landing := c.landing ++ [(2 * q.line + q.rd, q.data)] } else c }
  else
    let write := q.kind == .own
    let had := c.has q && !(c.recalls.any fun r => r.sid == q.sid && r.line == q.line && !r.share)
    let d := if had then c.modPart home o fun p =>
        { p with writers := if write && !p.writers.contains q.sid then q.sid :: p.writers else p.writers }
      else c.onGrant home o q.sid write
    let bump := fun (sid : Nat) (x : ObjId) (line : Nat) => sid == q.sid && x == o && homeOf line == home && !had
    { s with coh := { d with
        next := d.next + 1
        recalls := d.recalls.map fun r => if bump r.sid r.obj r.line then { r with granted := r.granted + 1 } else r
        acks := d.acks.map fun a => if bump a.sid a.obj a.line then { a with granted := a.granted + 1 } else a
        grants := d.grants ++ [{ n := d.next, sid := q.sid, line := q.line, st := if write then 2 else 0, rd := q.rd }] } }

/-- Every request whose answers are all in is settled. -/
def State.settle (s : State) : State :=
  (s.coh.reqs.filter fun q => q.served && q.pend.isEmpty).foldl State.settleReq s

/-- A group that moves lines between objects still stands at its instruction (R276). -/
def State.mover (s : State) (r : GRef) : Bool :=
  match s.team? r.team, s.grp? r with
  | some t, some g => (match t.place with | .core _ _ => true | _ => false) && !g.ended && g.stop.isNone
  | _, _ => false

/-- A line has been recalled for a move that has not ended: other requests wait (R276). -/
def State.movingNow (s : State) (line : Nat) : Bool :=
  (s.coh.moving.any fun m => m.1 == line && s.mover m.2) && !(s.coh.reqs.any fun q => q.kind == .move && q.line == line)

/-- A home serves a request (R282): it recalls, and grants when it waits for none. A part whose entry is being freed, and a
home without a free entry, make it wait (R280), and so does a promoted release that marked the line, of a read from outside it, and an
error in its KV not classed yet (R263, R397). -/
def State.serve (s : State) (k : Nat) (kind : ReqKind) : State :=
  match s.coh.reqs[k]? with
  | none => s
  | some q =>
    if q.kind != kind || q.served || !s.coh.firstOf k q || s.movingNow q.line || (kind == .read && s.marked (some q.sid) q.line) then s
    else
      let home := homeOf q.line
      let o := s.objOf q.line
      match s.coh.part? home o with
      | none =>
        if (q.kind == .read || q.kind == .own) && s.coh.full home then
          (match (s.coh.parts.find? fun p => p.home == home && p.evicting).or (s.coh.oldest home) with
            | some p => s.evictPart p
            | none => s)
        else { s with coh := { s.coh with reqs := modAt s.coh.reqs k fun r => { r with served := true } } }.settle
      | some p =>
        if p.evicting then s.evictPart p
        else
          let ts := p.targets q
          let c := ts.foldl (fun c sid => c.recall sid q.line o (q.kind == .read)) s.coh
          { s with coh := { c with
              reqs := modAt c.reqs k fun r => { r with served := true, pend := ts }
              parts := c.parts.map fun (x : OctPart) => if x.is home o then { x with used := c.next } else x } }.settle

/-- Evictions that waited go on as room appears (R283). -/
def State.flushLeaving (s : State) : State := s.evictAll s.coh.leaving

/-- OnAck (R284): the held count is set, or held until the notices up to A have come. A 65th hold of a sharer waits. Under a broadcast
record an answer of 0 counts once no notice of the sharer is on its way (R278). -/
def State.onAckAt (s : State) (k : Nat) : State :=
  match s.coh.acks[k]? with
  | none => s
  | some a =>
    let home := homeOf a.line
    let taken := (aget s.coh.taken (8 * a.sid + home)).getD 0
    let h := a.carried + a.granted
    let holds := (s.coh.parts.filter fun p => p.home == home && p.sharers.any fun r => r.sid == a.sid && r.hold.isSome).length
    let mine := match s.coh.part? home a.obj with
      | some p => match p.sharer? a.sid with
        | some r => r.hold.isSome
        | none => false
      | none => false
    if a.a != taken && holds ≥ 64 && !mine then s
    else
      let c := { s.coh with acks := dropAt s.coh.acks k }
      let upd := fun (r : Sharer) =>
        if a.a = taken then { r with count := h, hold := none } else { r with hold := some (h, a.a) }
      let ans := fun (p : OctPart) =>
        let q := p.modSharer a.sid upd
        if q.bcast && h = 0 && a.a = taken then
          let done := if q.answered.contains a.sid then q.answered else a.sid :: q.answered
          if allSids.all done.contains then { q with bcast := false, answered := [] }
          else { q with answered := done }
        else q
      let d := c.modPart home a.obj ans
      { s with coh := { d with
          reqs := d.reqs.map fun (q : CohReq) =>
            if q.line == a.line && q.served then { q with pend := q.pend.filter (· != a.sid) } else q } }.settle

/-- A notice would take its record's COUNT below 0 (R284): the record is gone, and no broadcast record stands for it. -/
def Coh.under (c : Coh) (n : Notice) : Bool :=
  match c.part? (homeOf n.line) n.obj with
  | some p => (match p.sharer? n.sid with | some r => r.count = 0 && r.hold.isNone | none => !p.bcast)
  | none => true

/-- The part of an object at a home, made where there is none. -/
def Coh.withPart (c : Coh) (home : Nat) (o : ObjId) : Coh :=
  if (c.part? home o).isSome then c
  else { c with parts := c.parts ++
    [{ home := home, obj := o, sharers := [], writers := [], bcast := true, answered := [], used := c.next, evicting := false }] }

/-- The unit path of a home's directory slice (R410). -/
def octPath (home : Nat) : Word := unitPath home 0x06 0 0 0

/-- OnNotice (R284): notices of one sharer to one home come in order (R283). A record that would go below 0 drops to the
part's broadcast record, and a correctable error is recorded (R417). -/
def State.onNoticeAt (s : State) (k : Nat) : State :=
  match s.coh.notices[k]? with
  | none => s
  | some n =>
    let home := homeOf n.line
    if (s.coh.notices.take k).any (fun m => m.sid == n.sid && homeOf m.line == home) then s
    else
      let c := { s.coh with
        notices := dropAt s.coh.notices k
        taken := aset s.coh.taken (8 * n.sid + home) n.n }
      let dec := fun (r : Sharer) => if r.hold.isSome then r else { r with count := r.count - 1 }
      let d := if s.coh.under n then
          (c.withPart home n.obj).modPart home n.obj fun p =>
            { p with sharers := p.sharers.filter fun r => r.sid != n.sid, bcast := true, answered := [] }
        else c.modPart home n.obj fun p => p.modSharer n.sid dec
      let res := fun (r : Sharer) => match r.hold with
        | some (h, a) => if a = n.n then { r with count := h, hold := none } else r
        | none => r
      let e := { d with
        parts := (d.parts.map fun p => if p.home == home then (p.modSharer n.sid res).tidy else p).filter d.carries }
      let t := if s.coh.under n then s.errRecord 0x0130 (octPath home) (128 * n.line) 0xFFFF n.sid else s
      ({ t with coh := e }).flushLeaving

/-- Messages from one home to one sharer arrive in the order sent (R283). -/
def Coh.inOrder (c : Coh) (n sid line : Nat) : Bool :=
  !(c.recalls.any fun r => r.n < n && r.sid == sid && homeOf r.line == homeOf line) &&
  !(c.grants.any fun g => g.n < n && g.sid == sid && homeOf g.line == homeOf line)

/-- A sharer of an engine of a die, which keeps no line that it passes on (R279, R286). -/
def engineSid (sid : Nat) : Bool := sid != sidHost && sid % 128 ≥ 49

/-- The answer of a sharer to a recall (R282, R284): the line is given up, or kept shared. The host is asked for each half
that it may hold by a back-invalidate snoop, and its sequence is 0 (R293). That a cache that supplies a reader always keeps
its shared copy is a DESIGN CHOICE (log 60). -/
def State.answer (s : State) (k : Nat) : State :=
  match s.coh.recalls[k]? with
  | none => s
  | some r =>
    let mine := if r.sid = sidHost then s.coh.hosted.filter (· / 2 == r.line) else []
    let c := { s.coh with
      recalls := dropAt s.coh.recalls k
      leaving := s.coh.leaving.filter (· != (r.sid, r.line))
      hosted := s.coh.hosted.filter fun h => !mine.contains h
      held := if r.share && !engineSid r.sid then
          s.coh.held.map fun h => if h.sid == r.sid && h.line == r.line then { h with st := 0 } else h
        else s.coh.held.filter fun h => !(h.sid == r.sid && h.line == r.line) }
    let t := mine.foldl (fun s h => s.emit (.cxl h "BISnpInv")) { s with coh := c }
    let home := homeOf r.line
    let a := if r.sid = sidHost then 0 else (aget c.sent (8 * r.sid + home)).getD 0
    { t with coh := { t.coh with acks := t.coh.acks ++
        [{ sid := r.sid, line := r.line, obj := r.obj, carried := t.heldOf home r.obj r.sid, a := a, granted := r.granted }] } }

/-- The host drops a half that it holds: the home takes it as a notice (R293). -/
def State.hostDrop (s : State) (half : Nat) : State :=
  if s.coh.hosted.contains half then
    let c := s.coh.modPart (homeOf (half / 2)) (s.objOf (half / 2)) fun p => p.modSharer sidHost fun r =>
      if r.hold.isSome then r else { r with count := r.count - 1 }
    { s with coh := { c with hosted := c.hosted.filter (· != half) } }
  else s

/-- The first core of the rectangle that a core's L1 slice was last fused in (R295). -/
def Coh.fusedFirst (c : Coh) (d k : Nat) : Nat := (aget c.fused (48 * d + k)).getD (256 * k + 17) / 256

/-- The sharer under which a chain's engine owns lines: those of a core's own engines are in its cluster's L1 (R279). -/
def State.chainSid (s : State) (c : Chain) : Nat :=
  if c.engine < 8 then sidEngine c.die c.engine
  else
    let k := match (if c.engine = 9 then c.bound.bind s.team? else none) with
      | some t => t.at_
      | none => (c.die, c.core)
    sidL1 k.1 (s.coh.fusedFirst k.1 k.2)

/-- Lines that an access of n bytes through a page touches; an alias page's are its blocks' (R78). -/
def Leaf.lines (l : Leaf) (n : Nat) : List Nat :=
  match l.mxa with
  | some f => ((List.range ((l.off % 64 + n - 1) / 64 + 1)).flatMap fun k =>
      let p := aliasBlock f l.pa (l.off + 64 * k); [p.1 / 128, p.2 / 128]).eraseDups
  | none => ((List.range ((l.pa + n - 1) / 128 - l.pa / 128 + 1)).map (l.pa / 128 + ·))

/-- An access of n bytes at an address: its page, and the fault of a line on a fenced pseudo-channel as Check gives it (R186,
R414). -/
def State.reach (s : State) (c : Nat) (a : Agent) (va : Nat) (need : Need) (n : Nat) : Xlat :=
  match s.translate c a va need with
  | .ok l => if (l.lines n).any s.lineFenced then .fault fltFenced else .ok l
  | x => x

/-- Lines that an array owns for a store still to be written (R224). -/
def TileJob.owns (j : TileJob) (line : Nat) : Bool :=
  match j.op with
  | .store cells ty _ _ _ => cells.any fun c => (c.2.lines ty.size).contains line
  | _ => false

/-- The sharer whose engine owns a line that it has not yet written (R224, R285, R286). -/
def State.ownerOf (s : State) (line : Nat) : Option Nat :=
  match s.chains.find? fun p => match p.2.job with | some j => j.owned.contains line | none => false with
  | some p => some (s.chainSid p.2)
  | none => match s.tileJobs.find? fun j => j.owns line with
    | some j => match s.team? j.team with
      | some t => some t.clusterSid
      | none => none
    | none => none

/-- A sharer still has to write a recalled line before it gives it up (R286). -/
def State.mustWrite (s : State) (sid line : Nat) : Bool := s.ownerOf line == some sid

/-- Slices about to join another rectangle write back and drop what they hold (R295); a slice joins once none of its lines
has to wait. A SID's lines lie in the rectangle that its first core was last fused in: DESIGN CHOICE (log 82), as that core leaves the
rectangle its other slices drop their lines too. -/
def State.fuseRect (s : State) (d k rows cols : Nat) : State :=
  let cores := (List.range rows).flatMap fun y => (List.range cols).map fun x => k + 8 * y + x
  let v := 256 * k + 16 * rows + cols
  cores.foldl (fun s c =>
    let old := (aget s.coh.fused (48 * d + c)).getD (256 * c + 17)
    if old = v then s
    else
      let k0 := old / 256
      let n := Nat.max 1 (old / 16 % 16 * (old % 16))
      let i := (c - k0) / 8 * (old % 16) + (c - k0) % 8
      let stands := (aget s.coh.fused (48 * d + k0)).getD (256 * k0 + 17) = old
      let mine := s.coh.held.filter fun h => stands && h.sid == sidL1 d k0 && (c = k0 || h.line % n == i)
      let t := s.evictAll (mine.map fun h => (h.sid, h.line))
      if mine.any fun h => (t.coh.held? h.sid h.line).isSome then t
      else { t with coh := { t.coh with fused := aset t.coh.fused (48 * d + c) v } }) s

/-- Every slice of a rectangle has joined it (R295). -/
def Coh.fusedAs (c : Coh) (d k rows cols : Nat) : Bool :=
  (List.range rows).all fun y => (List.range cols).all fun x =>
    (aget c.fused (48 * d + k + 8 * y + x)).getD (256 * (k + 8 * y + x) + 17) = 256 * k + 16 * rows + cols

end Sys2Proof.Machine
end

