-- ==== Sys2Proof/Machine/Elem.lean ====
section
/-! DEFINITION. The elementary functions of R160 and the exponential of R164. Each is computed in fixed point with 320
fraction bits and rounded once; the tail is marked sticky. That 320 bits decide every rounding is UNVERIFIED (log 12). -/

namespace Sys2Proof

/-- Fraction bits of the fixed-point values. -/
def fixBits : Nat := 320

/-- ⌊ln 2 × 2^320⌋. -/
def fixLn2 : Nat := 0xb17217f7d1cf79abc9e3b39803f2f6af40f343267298b62d8a0d175b8baafa2be7b876206debac98

/-- ⌊π / 2 × 2^640⌋. -/
def fixHalfPi : Nat := 0x1921fb54442d18469898cc51701b839a252049c1114cf98e804177d4c76273644a29410f31c6809bbdf2a33679a748636605614dbe4be286e9fc26adadaa3848bc90b6aecc4bcfd8de89885d34c6fdad6

/-- One in fixed point. -/
def fixOne : Nat := 2 ^ fixBits

/-- Σ t × r^j / (n (n+1) …), the tail of the exponential series from the term `t`, with `fuel` terms. -/
def expTail (r : Nat) : Nat → Nat → Nat → Nat
  | 0, _, _ => 0
  | fuel + 1, n, t => t + expTail r fuel (n + 1) (t * r / fixOne / n)

/-- e^r for 0 ≤ r < 1 in fixed point. -/
def fixExp (r : Nat) : Nat := expTail r 80 1 fixOne

/-- The alternating series t − t r² / (n (n+1)) + … of sine and cosine. -/
def trigTail (r2 : Nat) : Nat → Nat → Nat → Int
  | 0, _, _ => 0
  | fuel + 1, n, t => (t : Int) - trigTail r2 fuel (n + 2) (t * r2 / fixOne / (n * (n + 1)))

/-- Sine and cosine of 0 ≤ r ≤ π / 2 in fixed point. -/
def fixSin (r : Nat) : Nat := (trigTail (r * r / fixOne) 50 2 r).toNat
def fixCos (r : Nat) : Nat := (trigTail (r * r / fixOne) 50 1 fixOne).toNat

/-- z + z³ / 3 + z⁵ / 5 + … -/
def atanhTail (z2 : Nat) : Nat → Nat → Nat → Nat
  | 0, _, _ => 0
  | fuel + 1, n, t => t / n + atanhTail z2 fuel (n + 2) (t * z2 / fixOne)

/-- log2 f for a fixed-point f with 1 ≤ f < 2. -/
def fixLog2 (f : Nat) : Nat :=
  let z := (f - fixOne) * fixOne / (f + fixOne)
  2 * atanhTail (z * z / fixOne) 110 1 z * fixOne / fixLn2

/-- A fixed-point magnitude times 2^k, not exact. -/
def fixVal (neg : Bool) (x : Nat) (k : Int) : FV := .fin neg x (k - fixBits) true

/-- m × 2^e in fixed point, rounded down. -/
def toFix (m : Nat) (e : Int) : Nat :=
  let k := e + fixBits
  if k ≥ 0 then m * pow2 k else m / pow2 (-k)

/-- A magnitude far above, and far below, every format. -/
def hugeVal : FV := .fin false 1 100000 true
def tinyVal : FV := .fin false 1 (-100000) true

/-- The signed fixed-point value of a finite number below 2^12 in magnitude, rounded down. -/
def signedFix (neg : Bool) (m : Nat) (e : Int) : Int :=
  let k := e + fixBits
  let x : Int := if k ≥ 0 then m * pow2 k else m / pow2 (-k)
  if neg then -x else x

/-- 2^x (R160). -/
def FV.exp2 : FV → FV
  | .nan => .nan
  | .inf neg => if neg then .fin false 0 0 false else .inf false
  | .fin neg m e _ =>
    if m = 0 then .fin false 1 0 false
    else if e + bitLen m > 12 then (if neg then tinyVal else hugeVal)
    else
      let x := signedFix neg m e
      let k := x / (fixOne : Int)
      let r := (x % (fixOne : Int)).toNat
      if r = 0 then .fin false 1 k false else fixVal false (fixExp (r * fixLn2 / fixOne)) k

/-- e^x (R164). -/
def FV.exp : FV → FV
  | .nan => .nan
  | .inf neg => if neg then .fin false 0 0 false else .inf false
  | .fin neg m e _ =>
    if m = 0 then .fin false 1 0 false
    else if e + bitLen m > 12 then (if neg then tinyVal else hugeVal)
    else
      let x := signedFix neg m e
      let k := x / (fixLn2 : Int)
      fixVal false (fixExp (x % (fixLn2 : Int)).toNat) k

/-- log2 x (R160). -/
def FV.log2 : FV → FV
  | .nan => .nan
  | .inf neg => if neg then .nan else .inf false
  | .fin neg m e _ =>
    if m = 0 then .inf true
    else if neg then .nan
    else
      let n := bitLen m - 1
      let k := e + n
      if m = 2 ^ n then .ofInt k
      else
        let x := k * fixOne + fixLog2 (toFix m (-(n : Int)))
        fixVal (x < 0) x.natAbs 0

/-- sin x, and cos x with `co` (R160): a quarter turn is taken off k times, then the series of the rest is used. -/
def FV.trig (co : Bool) : FV → FV
  | .nan => .nan
  | .inf _ => .nan
  | .fin neg m e _ =>
    if m = 0 then (if co then .fin false 1 0 false else .fin neg 0 0 false)
    else
      let x := m * pow2 (e + 640)
      let q := x / fixHalfPi + (if co then 1 else 0)
      let r := x % fixHalfPi / 2 ^ 320
      let y := if q % 2 = 0 then fixSin r else fixCos r
      fixVal ((q % 4 ≥ 2) != (neg && !co)) y 0

/-- tanh x (R160), from u = e^(−2|x|). -/
def FV.tanh : FV → FV
  | .nan => .nan
  | .inf neg => .fin neg 1 0 false
  | .fin neg m e _ =>
    if m = 0 then .fin neg 0 0 false
    else if e + bitLen m > 10 then .fin neg (fixOne - 1) (-fixBits) true
    else
      match FV.exp (.fin true m (e + 1) false) with
      | .fin _ u g _ =>
        let v := toFix u g
        let n := fixOne - v
        if v = fixOne then .fin neg m e true else fixVal neg (n * fixOne / (fixOne + v)) 0
      | _ => .nan

/-- 1 / (1 + e^(−x)) (R160). -/
def FV.sigm : FV → FV
  | .nan => .nan
  | .inf neg => if neg then .fin false 0 0 false else .fin false 1 0 false
  | .fin neg m e _ =>
    if m = 0 then .fin false 1 (-1) false
    else if e + bitLen m > 9 then (if neg then tinyVal else .fin false (fixOne - 1) (-fixBits) true)
    else
      match FV.exp (.fin true m e false) with
      | .fin _ u g _ =>
        if neg then fixVal false (u * fixOne / (fixOne + toFix u g)) (g + fixBits)
        else fixVal false (fixOne * fixOne / (fixOne + toFix u g)) 0
      | _ => .nan

end Sys2Proof
end

