-- ==== Sys2Proof/Machine/Absorb.lean ====
section
/-! DEFINITION. What the base dies absorb of writes to armed logit-filter windows (R232 to R234), and the store of bytes
by a thread or an engine. -/

namespace Sys2Proof.Machine

open Sys2Proof

/-- The stack of an HBM address (R428). -/
def stackOf (pa : Nat) : Nat := 2 * (pa / 0x001800000000) + pa % 0x001800000000 / 0x000C00000000

/-- Element bytes of a record's format (R81). -/
def fmtSize (fmt : Nat) : Nat := (Ty.ofCode fmt).size

/-- The element (row, column) of a window that a byte belongs to (R82, R232), by its physical address, or on an alias page by the
backing frame's with the offset in the page. -/
def Lgf.elemAt (g : Lgf) (mxa : Option BlkFmt) (pa : Nat) : Option (Nat × Nat) :=
  match g.pages.find? fun p => p.2.1 == pa / 4096 && p.2.2 == mxa with
  | none => none
  | some p =>
    let off : Int := ((4096 * p.1 + pa % 4096 : Nat) : Int) - g.rcd.base
    let es := fmtSize g.rcd.fmt
    let at_ := fun (r : Nat) => off - r * g.rcd.str.getD 1 0
    ((List.range (g.rcd.dims.getD 1 1)).find? fun r => 0 ≤ at_ r && at_ r < es * g.rcd.dims.getD 0 1).map fun r =>
      (r, (at_ r).toNat / es)

/-- exp of a difference; 1 where it is no number (R234). -/
def expOr1 (x : FV) : FV := match x with | .nan => .fin false 1 0 false | y => y.exp

/-- The shortlist with an entry, the K greatest first, the lower token before on a tie (R234). -/
def rankIn (v : Nat) (x : Word) : List (Nat × Word) → List (Nat × Word)
  | [] => [(v, x)]
  | (w, y) :: r =>
    if (dec32 y).lt (dec32 x) || ((dec32 y).eqv (dec32 x) && v < w) then (v, x) :: (w, y) :: r
    else (w, y) :: rankIn v x r

/-- Absorb (R234). -/
def LgfRow.absorb (r : LgfRow) (k : Nat) (temp : Word) (v : Nat) (x : FV) : LgfRow :=
  if x = .nan then { r with count := r.count + 1, nan := true }
  else
    let cold := temp = 0
    let y := if cold then rnd32 x else rnd32 (x.div (dec32 temp))
    let up := (dec32 r.max).lt (dec32 y)
    let big := if up then y else r.max
    let sum := if cold then r.sum
      else if up then
        rnd32 (FV.add false (FV.mul (dec32 r.sum) (expOr1 (FV.add false (dec32 r.max) (dec32 y).neg))) (.fin false 1 0 false))
      else rnd32 (FV.add false (dec32 r.sum) (expOr1 (FV.add false (dec32 y) (dec32 r.max).neg)))
    { count := r.count + 1, max := big, sum := sum, nan := r.nan, list := (rankIn v (rnd32 x) r.list).take k }

/-- A row's state as armed (R233). -/
def LgfRow.empty : LgfRow := { count := 0, max := 0xFF800000#32, sum := 0, nan := false, list := [] }

/-- A window's share of some written addresses: each element written is absorbed whole, once (R234). DEDUCED (log 80): an element of
an alias page is absorbed as it reads after the update, in the stack of its block. -/
def Lgf.absorbAll (g : Lgf) (mxa : Option BlkFmt) (byteAt : Nat → Byte) (pas : List Nat) : Lgf :=
  let t := Ty.ofCode g.rcd.fmt
  let home := fun (pa : Nat) => match mxa with | some f => (aliasBlock f (pa / 4096 * 4096) (pa % 4096)).1 | none => pa
  let es := (pas.filterMap fun pa => (g.elemAt mxa pa).map fun e => (e, pa - pa % t.size)).eraseDups
  es.foldl (fun g e =>
    let key := 16 * e.1.1 + stackOf (home e.2)
    let x := t.val (leNat ((span e.2 t.size).map byteAt))
    let row := ((aget g.rows key).getD LgfRow.empty).absorb g.k g.temp e.1.2 x
    { g with rows := aset g.rows key row }) g

/-- The windows absorb what was written at some addresses (R234). -/
def State.absorbAs (s : State) (mxa : Option BlkFmt) (byteAt : Nat → Byte) (pas : List Nat) : State :=
  if s.lgfs.isEmpty then s else { s with lgfs := s.lgfs.map fun g => g.absorbAll mxa byteAt pas }

/-- The windows absorb what was written at some physical addresses (R234). -/
def State.absorb (s : State) (pas : List Nat) : State := s.absorbAs none s.byteAt pas

/-- Bytes stored through a page by a thread or an engine, at offsets from the translated address (R80, R234, R337). -/
def State.store (s : State) (a : Acc) (l : Leaf) (ws : List (Nat × Byte)) : State :=
  let t := s.leafWrite a l ws
  if l.vers && a.slot != 0 then t
  else match l.mxa with
    | none => t.absorb (ws.map fun p => l.pa + p.1)
    | some f => t.absorbAs (some f) (fun pa => t.leafByte a { l with off := pa - l.pa } 0) (ws.map fun p => l.pa + l.off + p.1)

end Sys2Proof.Machine
end

