-- ==== Sys2Proof/Machine/Operands.lean ====
section
/-! DEFINITION. Operands: how a gang's instruction reads and writes registers (R134, R135, R174), and the checks of decode
steps 4 to 6 (R106). -/

namespace Sys2Proof

/-- The C operand of a prefix (R103). -/
def FForm.c (f : FForm) : Name := match f.pfx with | some p => p.c | none => .v 0

/-- The Z bit of a prefix (R103). -/
def FForm.z (f : FForm) : Bool := match f.pfx with | some p => p.z | none => false

/-- IMM16 of an operand B. -/
def BOperand.immOf : BOperand → BitVec 16
  | .imm i => i | _ => 0

/-- The register name of an operand B. -/
def BOperand.nameOf : BOperand → Name
  | .reg n | .pat n _ => n
  | .imm _ => .zero

/-- Step 5 (R105): the prefix fields a row accepts. DESIGN CHOICE (log 55): raw INT4 PACK is an integer PACK (R169), so
that an RM of its prefix raises FLT_PREFIX. -/
def Row.prefixOk (r : Row) (op : Nat) (f : FForm) : Bool :=
  match f.pfx with
  | none => true
  | some p =>
    let plain := p.mask = 0 && !p.z
    let zero := plain && p.rm = .cvm && p.sat = .cvm && p.c.code = 0
    if !r.pm && r.rTypes.isEmpty && !r.ps && !r.pc then op = 0 && zero
    else
      (r.pm || plain) &&
      (p.rm = .cvm || (r.rTypes.contains f.ty.code && !(op = 0x54 && f.ty = .packed && f.fn = 1))) &&
      (p.sat = .cvm || r.ps) && (r.pc || p.c.code = 0)

/-- A row as one form uses it: the fields that a form of BOBJ or TLBI leaves unused hold no name (R197, R243). BOBJ.wait
reads its D, a uniform register or zero (R197). -/
def Row.used (r : Row) (op : Nat) (f : FForm) : Row :=
  match op, f.fn with
  | 0x91, 0 => { r with d := .unused }
  | 0x91, 2 => { r with d := .uniz }
  | 0xC8, 0 => { r with b := .unused }
  | 0xC8, 1 => { r with a := .unused }
  | 0xC8, _ => { r with a := .unused, b := .unused }
  | _, _ => r

/-- An operand is a pair (R47): by the type, by the source type in FN, always or never. -/
def Wide.pair (w : Wide) (f : FForm) : Bool :=
  match w with
  | .ty => f.ty.is64 | .src => (Ty.ofCode f.fn).is64 | .always => true | .never => false

end Sys2Proof

namespace Sys2Proof.Machine

open Sys2Proof

/-- A gang at its issue: the state, the team and the group, the group as its operands are read (R23), the lanes that
prefix and mask enable (R104), and the address of the next instruction. `s0` and `all` are the state and the gang before
the regions of its lanes were looked at (R211). -/
structure Gx where
  s0   : State
  all  : Word
  s    : State
  c    : Cur
  t    : Team
  g    : Group
  rd   : Group
  en   : Word
  next : DWord

/-- Budget B in registers (R46). -/
def Gx.budget (x : Gx) : Nat := 64 * x.g.bseg

/-- The lowest lane of the gang. -/
def Gx.low (x : Gx) : Nat := lowest x.c.lanes

/-- The group's non-exited lanes form more than one gang (R26), as the instruction issues. DESIGN CHOICE (log 63): for the second
gang of a cycle that is the group before the cycle, whatever lanes the first gang's EXIT ends. -/
def Gx.diverged (x : Gx) : Bool := x.rd.diverged

/-- A mask register as the gang reads it; m0 is its active lanes (R28). -/
def Gx.mask (x : Gx) (n : Nat) : Word := if n = 0 then x.c.lanes else x.rd.mreg n

/-- A uniform register as the gang sees it (R27). -/
def Gx.uni (x : Gx) (n : Nat) : DWord := x.rd.sreg x.low n

/-- The enabled lanes under a prefix (R104). -/
def enabled (lanes : Word) (rd : Group) : Option Pfx → Word
  | none => lanes
  | some p => if p.mask = 0 then lanes else lanes &&& rd.mreg p.mask

/-- The issuing gang of a state; none when nothing issues. `bytes` is the instruction's length past the word address. -/
def openGang (s : State) (p : Option Pfx) : Option Gx :=
  match s.cur with
  | none => none
  | some c => match s.team? c.g.team with
    | none => none
    | some t => match t.groups[c.g.grp]? with
      | none => none
      | some g =>
        let rd := c.pre.getD g
        some { s0 := s, all := c.lanes, s := s, c := c, t := t, g := g, rd := rd, en := enabled c.lanes rd p,
               next := c.pc + (if p.isSome then 12 else 8) }

/-- The address of the word itself, past a prefix (R98). -/
def Gx.word (x : Gx) : DWord := x.next - 8

/-! ### Sources -/

/-- 1.0 in a floating type, 1 in the others (R53). DESIGN CHOICE (log 78): 1 also in TY F, whose registers hold several codes. -/
def oneOf : Ty → Nat
  | .f16 => 0x3C00 | .bf16 => 0x3F80 | .f32 => 0x3F800000 | .f64 => 0x3FF0000000000000 | .e4m3 => 0x38 | .e5m2 => 0x3C
  | _ => 1

/-- A vector register of a lane through its own window: 32 bits, or the pair when w = 64 (R47). -/
def Group.vsrc (g : Group) (lane n w : Nat) : Nat :=
  let p := g.wb lane + n
  if w = 64 then (g.vreg p lane).toNat + 2 ^ 32 * (g.vreg (p + 1) lane).toNat else (g.vreg p lane).toNat % 2 ^ w

/-- Src of R134 for a named register, w bits, with `t` the type that `one` takes. -/
def Gx.src (x : Gx) (lane : Nat) (n : Name) (t : Ty) (w : Nat) : Nat :=
  match n with
  | .v i => x.rd.vsrc lane i w
  | .s i => (x.uni i).toNat % 2 ^ w
  | .one => oneOf t % 2 ^ w
  | _ => 0

/-- IMM16 widened to a type (R92), w bits. A BF16 infinity or NaN keeps its sign and fraction bits. -/
def immVal (t : Ty) (i : BitVec 16) (w : Nat) : Nat :=
  match t with
  | .b32 | .i8 | .i16 | .i32 | .i64 => (i.signExtend 64).toNat % 2 ^ w
  | .f32 => i.toNat * 2 ^ 16 % 2 ^ w
  | .f64 => (if i.toNat / 2 ^ 7 % 2 ^ 8 = 255 then i.toNat / 2 ^ 15 * 2 ^ 63 + 0x7FF * 2 ^ 52 + i.toNat % 2 ^ 7 * 2 ^ 45
      else Fmt.f64.round .rne false 0 (Fmt.bf16.dec i.toNat)) % 2 ^ w
  | _ => i.toNat % 2 ^ w

/-- SourceLane of R96. -/
def Gx.patLane (x : Gx) (p : Pattern) (lane : Nat) : Nat :=
  match p with
  | .rot n => (lane + n) % 32
  | .rev n => lane ^^^ (2 ^ n - 1)
  | .bc n => n % 32
  | .pm n => 8 * (lane / 8) + (x.uni n).toNat / 8 ^ (lane % 8) % 8

/-- Operand B: a register, a register of the pattern's source lane (R31), an immediate. -/
def Gx.srcB (x : Gx) (lane : Nat) (b : BOperand) (t : Ty) (w : Nat) : Nat :=
  match b with
  | .reg n => x.src lane n t w
  | .pat n p => x.src (x.patLane p lane) n t w
  | .imm i => immVal t i w

/-- Operand B of an opcode that zero-extends IMM16 whatever its type (R141, R142, R150). -/
def Gx.srcBz (x : Gx) (lane : Nat) (b : BOperand) (t : Ty) (w : Nat) : Nat :=
  match b with
  | .imm i => i.toNat
  | b => x.srcB lane b t w

/-- A uniform source of the whole gang, w bits (R174). -/
def Gx.usrc (x : Gx) (n : Name) (t : Ty) (w : Nat) : Nat := x.src x.low n t w
def Gx.usrcB (x : Gx) (b : BOperand) (t : Ty) (w : Nat) : Nat := x.srcB x.low b t w

/-! ### Results -/

/-- Put's extension of a narrow result to 32 bits (R135). -/
def extend (t : Ty) (v : Nat) : Word :=
  if t.bits < 32 && t.signed then BitVec.ofInt 32 (t.intVal v) else BitVec.ofNat 32 (v % 2 ^ t.bits)

/-- The words a value of a type fills: one register, or a pair (R135). -/
def wordsOf (t : Ty) (v : Nat) : List Word :=
  if t.is64 then [BitVec.ofNat 32 v, BitVec.ofNat 32 (v / 2 ^ 32)] else [extend t v]

/-- A lane's register or pair written by name; zero and one discard (R53). -/
def Group.putV (g : Group) (lane : Nat) (d : Name) (ws : List Word) : Group :=
  match d with
  | .v n => (ws.zipIdx).foldl (fun g p => g.setV (g.wb lane + n + p.2) lane p.1) g
  | _ => g

/-- Put of R135 over the gang: `val` gives the value of an enabled lane; Z zeroes the others. -/
def Gx.put (x : Gx) (d : Name) (z : Bool) (t : Ty) (val : Nat → Nat) (g : Group) : Group :=
  (lanesOf x.c.lanes).foldl (fun g l =>
    if x.en.getLsbD l then g.putV l d (wordsOf t (val l))
    else if z then g.putV l d (wordsOf t 0) else g) g

/-- One bit per lane written to a mask register (R28, R104, R144). -/
def Gx.putM (x : Gx) (d : Name) (z : Bool) (bit : Nat → Bool) (g : Group) : Group :=
  match d with
  | .m n =>
    let set := maskOf ((lanesOf x.en).filter bit)
    let keep := if z then ~~~x.c.lanes else ~~~x.en
    { g with mregs := sset g.mregs n ((g.mreg n &&& keep) ||| set) }
  | _ => g

/-- A whole mask written (R28). -/
def Group.putMask (g : Group) (d : Name) (v : Word) : Group :=
  match d with
  | .m n => { g with mregs := sset g.mregs n v }
  | _ => g

/-- A uniform result (R27, R174). -/
def Gx.putS (x : Gx) (d : Name) (v : DWord) (g : Group) : Group :=
  match d with
  | .s n => g.setS x.diverged x.c.lanes n v
  | _ => g

/-- A uniform result at the width of its type: 32-bit types are extended by sign or by zeros (R174). -/
def extend64 (t : Ty) (v : Nat) : DWord :=
  if t.signed then BitVec.ofInt 64 (t.intVal v) else BitVec.ofNat 64 (v % 2 ^ t.bits)

/-! ### How an instruction ends -/

/-- The lanes go on at the next instruction, in a state with the group changed. -/
def Gx.done (x : Gx) (s : State) (f : Group → Group) : State :=
  s.modGrp x.c.g fun g => (f g).modLanes x.c.lanes fun l => { l with pc := x.next, wait := .none }

/-- The lanes wait, at the instruction, in a state. -/
def Gx.waitIn (x : Gx) (s : State) (w : Wait) : State :=
  s.modGrp x.c.g fun g => g.modLanes x.c.lanes fun l => { l with wait := w, since := s.cycle }

/-- The whole gang waits at the instruction, which then runs from its start: nothing of it is performed (R186). One held for the
relabel waits until then (R337). -/
def Gx.stall (x : Gx) (s : State) (held : Bool := false) : State :=
  s.modGrp x.c.g fun g => g.modLanes x.all fun l => { l with wait := .retry held, since := s.cycle }

/-- The gang's lanes with a region open (R209). -/
def Group.inRegion (g : Group) : Word :=
  maskOf ((List.range 32).filter fun i => match g.lane? i with
    | some l => l.region.isSome | none => false)

/-- R214: the lane's registers and all its mask bits go back to their ARB-time values, and it continues at the fallback. -/
def Group.abort (g : Group) (lane code arg flt : Nat) : Group :=
  match g.lane? lane with
  | some l => match l.region with
    | some r =>
      let regs := r.saved.foldl (fun g p => match p.1 with
        | .v pos => g.setV pos lane p.2
        | .m _ => g) g
      let bit := BitVec.ofNat 32 (2 ^ lane)
      let back := (List.range 16).foldl (fun g n =>
        { g with mregs := sset g.mregs n ((g.mreg n &&& ~~~bit) ||| (if r.masks.getLsbD n then bit else 0)) }) regs
      back.modLane lane fun l =>
        { l with region := none, pc := r.fallback, wait := .none, arst := BitVec.ofNat 32 (code + 256 * arg + 65536 * flt) }
    | none => g
  | none => g

/-- Abort codes (R215). -/
def abFault : Nat := 0x0B
def abPreempt : Nat := 0x0C

/-- A fault of the gang (R106, R211): lanes with a region open abort it, and the other lanes stop the group. `lane` is the
failing lane, 0xFF for the whole instruction. Code 0 marks a prediction's write that finds no quota (R340). -/
def Gx.fault (x : Gx) (s : State) (code : Nat) (lane : Nat := 0xFF) (addr : Nat := 0) (detail : Nat := 0) : State :=
  let rs := x.g.inRegion &&& x.c.lanes
  if code = 0 then s.failPrediction x.t else
  let t := s.modGrp x.c.g fun g => (lanesOf rs).foldl (fun g l => g.abort l abFault 0 code) g
  if x.c.lanes &&& ~~~rs = 0 then t else t.stopGroup x.c.g code detail lane x.c.pc.toNat addr .reexec

/-- A trap of the gang (R241). -/
def Gx.trap (x : Gx) (s : State) (code detail pc : Nat) (resume : Nat → DWord) : State :=
  s.takeTrap x.c.g x.c.lanes code detail pc resume

/-- A 64-bit register update at the width the instruction has, then on to the next instruction. -/
def Gx.doneS (x : Gx) (d : Name) (v : DWord) : State := x.done x.s (x.putS d v)

/-! ### Decode steps 4 to 6 -/

/-- The issuing context is privileged (R131, R347). -/
def Gx.privileged (x : Gx) : Bool := match x.s.ctx? x.t.ctx with | some c => c.priv | none => false

/-- $feat (R64). -/
def Gx.feat (x : Gx) : Nat := match x.s.ctx? x.t.ctx with | some c => c.feat | none => 0

/-- Step 4 (R131): the fault of a privileged opcode, or of one whose feature is off. -/
def Gx.step4 (x : Gx) (op : Nat) (f : FForm) : Option Nat :=
  let off := fun bit => field x.feat bit 1 = 0
  if 0xC8 ≤ op && op ≤ 0xCB && !x.privileged then some fltPrivileged
  else if (op = 0xB8 || op = 0xB9) && off 3 then some fltFeature
  else if (op = 0xBD || op = 0xBE) && off 4 then some fltFeature
  else if op = 0xCF && off 5 then some fltFeature
  else if op = 0xD0 && off 0 then some fltFeature
  else if (op = 0xA0 || op = 0x56 || op = 0x57) && f.ty = .packed && f.fn = 1 && off 2 then some fltFeature
  else none

/-- A vector name within the budget, even where a pair is needed, its positions resident (R47, R50). -/
def Gx.vecOk (x : Gx) (wide : Bool) (n : Nat) : Bool :=
  let k := if wide then 2 else 1
  n + k ≤ x.budget && (!wide || n % 2 = 0) &&
  (lanesOf x.c.lanes).all fun l => x.g.resident (x.g.wb l + n) && x.g.resident (x.g.wb l + n + k - 1)

/-- A name of the kind its row calls for, within the launch's counts (R47, R53, R122). -/
def Gx.nameOk (x : Gx) (k : Kind) (wide : Bool) (n : Name) : Bool :=
  match n with
  | .v i => (k matches .vdst | .vec | .vudst | .vus | .vm | .base | .sbase | .index | .vu | .vuz) && x.vecOk wide i
  | .s i => (k matches .udst | .umdst | .vudst | .ureg | .vus | .uni | .uniz | .base | .sbase | .index | .vu | .vuz) &&
      i < x.t.kern.uregs
  | .m i => ((k matches .mdst | .umdst) && i != 0) || (k matches .msk | .vm)
  | .c i => (k matches .tile) && i < x.t.kern.acc
  | .zero => (k matches .vdst | .mdst | .udst | .umdst | .vudst | .vus | .uni | .uniz | .base | .sbase | .vuz)
  | .one => (k matches .vdst | .mdst | .udst | .umdst | .vudst | .vus | .uni)
  | .reserved _ => false

/-- Operand B as its row calls for it (R96, R122): a pattern only on a vector register, permuted by a uniform in range; an
immediate that is no memory offset has no bits beyond an 8-bit element (R92, R97). -/
def Gx.bOk (x : Gx) (r : Row) (f : FForm) : Bool :=
  match f.b with
  | .reg n => x.nameOk r.b (r.bw.pair f) n
  | .pat (.v i) p => x.nameOk r.b (r.bw.pair f) (.v i) && (match p with | .pm n => n < x.t.kern.uregs | _ => true)
  | .pat _ _ => false
  | .imm i => r.b = .index || !(f.ty matches .e4m3 | .e5m2) || i.toNat < 256

/-- Step 6 (R106): every name of its kind. -/
def Gx.namesOk (x : Gx) (r : Row) (f : FForm) : Bool :=
  ((r.d matches .unused | .frame) || x.nameOk r.d (r.dw.pair f) f.d) &&
  (r.a = .unused || x.nameOk r.a (r.aw.pair f) f.a) &&
  (r.b = .unused || x.bOk r f) &&
  (!r.pc || (f.pfx.isSome && x.nameOk r.c (r.cw.pair f) f.c))

/-- The fault of decode steps 4 to 6, in order (R106); `ok` holds the opcode's own operand rules. -/
def Gx.decodeFault (x : Gx) (op : Nat) (f : FForm) (ok : Gx → Bool) : Option Nat :=
  match x.step4 op f with
  | some code => some code
  | none => match rowOf op with
    | none => some fltOpcode
    | some r =>
      if !r.prefixOk op f then some fltPrefix
      else if x.namesOk (r.used op f) f && ok x then none else some fltOperand

end Sys2Proof.Machine
end

