-- ==== Sys2Proof/Machine/Flags.lean ====
section
/-! DEFINITION. The one-bit results: integer and floating compares (R144, R159, R175), completion-word order (R183), and the
computed bits of $gpri and $status (R32, R57, R63). -/

namespace Sys2Proof

/-- ICMP by FN (R144): FN 6 to 9 compare unsigned whatever the type. -/
def icmpBit (fn : Nat) (t : Ty) (a b : Nat) : Bool :=
  let x := t.intVal a
  let y := t.intVal b
  let m := a % 2 ^ t.bits
  let n := b % 2 ^ t.bits
  match fn with
  | 0 => m = n | 1 => m != n | 2 => x < y | 3 => x ≤ y | 4 => y < x | 5 => y ≤ x
  | 6 => m < n | 7 => m ≤ n | 8 => n < m | _ => n ≤ m

/-- FCMP by FN (R159): false with a NaN but for .ne and .un. -/
def fcmpBit (fn : Nat) (t : Ty) (a b : Nat) : Bool :=
  let x := t.val a
  let y := t.val b
  let un := x = .nan || y = .nan
  match fn with
  | 0 => x.eqv y
  | 1 => un || !x.eqv y
  | 2 => x.lt y
  | 3 => x.lt y || x.eqv y
  | 4 => y.lt x
  | 5 => y.lt x || x.eqv y
  | 6 => un
  | _ => !un

/-- A completion word has reached a value (R183). -/
def seqReached (w word value : Nat) : Bool := (word + 2 ^ w - value % 2 ^ w) % 2 ^ w < 2 ^ (w - 1)

namespace Machine

/-- A lane that could issue (R21, R41, R357): running, not waiting, and in the handler's gang while a trap is handled
(R241). -/
def Group.laneReady (g : Group) (i : Nat) : Bool :=
  match g.lane? i with
  | some l =>
    !l.exited && !l.stopped && l.wait = .none && (!g.intrap || g.trapping.getLsbD i)
  | none => false

/-- The lanes that a stop leaves free to issue: all where there is none, none while it stands, and in a step those whose
instruction is not seen through (R357, R367). -/
def Group.released (g : Group) : Word :=
  match g.step with
  | some p => if p.lanes = 0 then BitVec.allOnes 32 else p.left
  | none => if g.stop.isSome then 0 else BitVec.allOnes 32

/-- The ready lanes of a group. -/
def Group.ready (g : Group) : Word :=
  if g.ended then 0 else maskOf ((List.range 32).filter fun i => g.laneReady i && g.released.getLsbD i)

/-- A lane is paused in a core cycle (R34). -/
def Group.lanePaused (g : Group) (core i : Nat) : Bool := match g.lane? i with | some l => core < l.paused | none => false

/-- PAUSED of $gpri (R32, R57): some lane is ready and every ready lane is paused. -/
def Group.paused (g : Group) (core : Nat) : Bool :=
  g.ready != 0 && (lanesOf g.ready).all (g.lanePaused core)

/-- EFF of $gpri (R32). -/
def Group.eff (g : Group) (core : Nat) : Nat := if g.paused core then 0 else g.pri

/-- $gpri (R57). -/
def Group.gpri (g : Group) (core : Nat) : DWord :=
  BitVec.ofNat 64 (g.pri + 16 * g.eff core + (if g.aged then 256 else 0) + (if g.paused core then 512 else 0))

/-- SPLIT of $status (R63). -/
def Group.isSplit (g : Group) : Bool := !g.split.isEmpty && g.diverged

/-- $status (R63). -/
def Group.status (g : Group) : DWord :=
  BitVec.ofNat 64 (g.cause % 65536 * 65536 + (if g.wspan then 128 else 0) + (if g.intrap then 64 else 0) +
    (if g.isSplit then 32 else 0) + (if g.yreq then 2 else 0) + (if g.divw then 1 else 0))

/-- $budget (R62). -/
def Group.budgetReg (g : Group) : DWord :=
  BitVec.ofNat 64 (g.nseg * 2 ^ 48 + g.sbot % 65536 * 2 ^ 32 + g.safelive * 65536 + g.hseg * 256 + g.bseg)

end Machine

end Sys2Proof
end

