-- ==== Sys2Proof/Machine/Regions.lean ====
section
/-! DEFINITION. Atomic regions as instructions run in them: what a lane may execute, its limits, its tags (R209 to R211,
R214). Committing is in Atomic.lean. -/

namespace Sys2Proof.Machine

open Sys2Proof

/-- An opcode that a lane with a region open may execute (R211). -/
def regionAllows (op : Nat) (f : FForm) : Bool :=
  if op = 0x22 then (f.fn = 0 || f.fn = 3) && !(f.d matches .s _)
  else if op = 0x24 || op = 0x27 || op = 0x56 then false
  else if op ≤ 0x57 then true
  else if op = 0xC0 then f.d matches .v _
  else [0x70, 0x71, 0x72, 0x7C, 0x80, 0x81, 0x8E, 0xB1, 0xB2, 0xB3].contains op

/-- A wait instruction, a safe point already (R38, R39). -/
def waitOp (op : Nat) : Bool := [0x78, 0x79, 0x7A, 0x96, 0x7B, 0x93].contains op

/-- What a register read finds of tags: none, a tag of just this register and width, or one it cannot follow (R210). -/
inductive TagRead
  | none | tag (k c : Nat) | other
  deriving DecidableEq, Repr

/-- The tag that a read of w bits at a stack position finds. -/
def Region.readTag (r : Region) (pos w : Nat) : TagRead :=
  let last := if w = 64 then pos + 1 else pos
  match r.tags.find? fun t => pos ≤ (if t.wide then t.pos + 1 else t.pos) && t.pos ≤ last with
  | Option.none => .none
  | some t => if t.pos = pos && ((t.wide && w = 64) || (!t.wide && w = 32)) then .tag t.k t.c else .other

/-- Tags of a register or pair cleared (R210). -/
def Region.clear (r : Region) (pos w : Nat) : Region :=
  let last := if w = 64 then pos + 1 else pos
  { r with tags := r.tags.filter fun t => !(pos ≤ (if t.wide then t.pos + 1 else t.pos) && t.pos ≤ last) }

/-- The tags held by a lane's region, at an operand of the lane (R210); none without a region. -/
def Group.tagAt (g : Group) (lane : Nat) (n : Name) (w : Nat) : TagRead :=
  match n, g.lane? lane with
  | .v i, some l => match l.region with
    | some r => r.readTag (l.wb + i) w
    | Option.none => .none
  | _, _ => .none

/-- Tag of operand B: a pattern reads another lane's register, which can only make the region concrete (R210). -/
def Gx.tagB (x : Gx) (lane : Nat) (b : BOperand) (w : Nat) : TagRead :=
  match b with
  | .reg n => x.rd.tagAt lane n w
  | .pat n p => match x.rd.tagAt (x.patLane p lane) n w with
    | .none => .none
    | _ => .other
  | .imm _ => .none

/-- The lanes whose A a cross-lane instruction reads for a lane (R148, R150, R172). -/
def Gx.crossLanes (x : Gx) (op : Nat) (f : FForm) (lane : Nat) : List Nat :=
  match op with
  | 0x22 | 0x26 => lanesOf x.en
  | 0x25 => (lanesOf x.en).filter (· ≤ lane)
  | 0x23 =>
    let n := x.srcBz lane f.b .ui32 32
    [match f.fn with
      | 0 => n % 32 | 1 => if n ≤ lane then lane - n else lane | 2 => if lane + n ≤ 31 then lane + n else lane
      | _ => lane ^^^ (n % 32)]
  | 0x57 => List.range (if f.ty = .packed then 4 else 8)
  | _ => []

/-- Destination registers of a lane: stack positions or mask registers (R209). -/
def Gx.dests (x : Gx) (op : Nat) (f : FForm) (lane : Nat) : List RegRef :=
  if !(x.en.getLsbD lane || f.z) || (rowOf op).all (fun r => r.d = .unused) then []
  else match f.d with
    | .v n =>
      if op = 0x81 then []
      else
        let k := if op = 0x55 then 32 / f.ty.bits else match rowOf op with
          | some r => if r.dw.pair f then 2 else 1
          | Option.none => 1
        (span (x.rd.wb lane + n) k).map .v
    | .m n => match rowOf op with
      | some r => if r.d matches .mdst | .umdst then [.m n] else []
      | Option.none => []
    | _ => []

/-- The registers recorded with their values, where they are not yet (R209); mask bits were recorded at ARB (R214). -/
def Region.save (r : Region) (g : Group) (lane : Nat) (ds : List RegRef) : Region :=
  ds.foldl (fun r d =>
    if r.saved.any (fun p => p.1 == d) then r
    else { r with saved := r.saved ++ [(d, match d with
      | .v pos => g.vreg pos lane
      | .m n => if (g.mreg n).getLsbD lane then 1 else 0)] }) r

/-- What an instruction makes of a lane's tags (R210). -/
structure TagStep where
  concrete : Bool := false
  tag      : Option (Nat × Nat) := none
  cons     : Option RConstraint := none

/-- Operation on tags by opcode (R210): 0x01 IADD, 0x02 ISUB, 0x1F MOV, 0x1A ICMP; every other read makes it concrete. -/
def tagRule (op fn : Nat) (t : Ty) (a b : TagRead) (va vb : Nat) : TagStep :=
  let w := t.bits
  match op, a, b with
  | _, .none, .none => {}
  | 0x01, .tag k c, .none => { tag := some (k, (c + vb) % 2 ^ w) }
  | 0x01, .none, .tag k c => { tag := some (k, (c + va) % 2 ^ w) }
  | 0x02, .tag k c, .none => { tag := some (k, (c + 2 ^ w - vb % 2 ^ w) % 2 ^ w) }
  | 0x1F, .tag k c, .none => { tag := some (k, c) }
  | 0x1A, .tag k c, .none =>
    { cons := some { k := k, c := c, fn := fn, ty := t, konst := vb, flip := false, outcome := icmpBit fn t va vb } }
  | 0x1A, .none, .tag k c =>
    { cons := some { k := k, c := c, fn := fn, ty := t, konst := va, flip := true, outcome := icmpBit fn t va vb } }
  | _, _, _ => { concrete := true }

/-- An F-form instruction's step on tags for an enabled lane; LD and ST keep their own (R210). -/
def Gx.tagStep (x : Gx) (op : Nat) (f : FForm) (lane : Nat) : TagStep :=
  if !x.en.getLsbD lane || op = 0x80 || op = 0x81 || 0xB1 ≤ op then {}
  else match rowOf op with
    | Option.none => {}
    | some r =>
      let w := f.ty.bits
      let wa := if r.aw.pair f then 64 else if op = 0x54 then 32 else (if op = 0x01 || op = 0x02 || op = 0x1F || op = 0x1A then w else 32)
      let ta := if r.a = .unused then .none else x.rd.tagAt lane f.a wa
      let tb := if r.b = .unused then .none else x.tagB lane f.b (if r.bw.pair f then 64 else if op ≤ 0x02 || op = 0x1A then w else 32)
      let tc := if r.pc then x.rd.tagAt lane f.c (if r.cw.pair f then 64 else 32) else .none
      let td := if op = 0x21 then x.rd.tagAt lane f.d (if f.ty.is64 then 64 else 32) else .none
      let more := if op = 0x54 then (List.range (32 / f.ty.bits)).any fun k => match f.a with
          | .v n => x.rd.tagAt lane (.v (n + k)) 32 != .none
          | _ => false
        else false
      let far := (x.crossLanes op f lane).any fun l => x.rd.tagAt l f.a wa != .none
      if tc != .none || td != .none || more || far then { concrete := true }
      else tagRule op f.fn f.ty ta tb (x.src lane f.a f.ty w) (x.srcB lane f.b f.ty w)

/-- What happens to a region lane before an instruction: it goes on with its region changed, or it aborts with a code and
an argument. -/
inductive Screen
  | go (r : Region) | abort (code arg : Nat)

/-- A lane's region before an F-form instruction (R209 to R211): allowed, within its limits, its writes recorded, its tags
moved on. DESIGN CHOICE (log 79): where several of these hold, the code is the first of 0x09, 0x0A, 0x08, 0x07 and 0x04; then
come the access's own 0x03, 0x05 and 0x06. -/
def Gx.screen (x : Gx) (op : Nat) (f : FForm) (lane : Nat) (r : Region) : Screen :=
  if op = 0xB0 then .abort 0x09 0
  else if !regionAllows op f then .abort 0x0A op
  else if r.count ≥ 512 then .abort 0x08 0
  else
    let ds := if op = 0xB1 || op = 0xB2 then [] else x.dests op f lane
    let r1 := r.save x.g lane ds
    if r1.saved.length > 16 then .abort 0x07 0
    else
      let st := x.tagStep op f lane
      if st.cons.isSome && r1.constraints.length ≥ 8 then .abort 0x04 0
      else
        let r2 := ds.foldl (fun r d => match d with | .v p => r.clear p 32 | .m _ => r) r1
        let r3 := match st.tag, ds.head? with
          | some (k, c), some (.v p) => { r2 with tags := { pos := p, wide := f.ty.is64, k := k, c := c } :: r2.tags }
          | _, _ => r2
        .go { r3 with
          count := r.count + 1
          concrete := r.concrete || st.concrete
          constraints := match st.cons with | some q => r3.constraints ++ [q] | Option.none => r3.constraints }

/-- The gang's lanes screened in turn: those that abort leave the gang, the others' regions move on. -/
def Gx.screenAll (x : Gx) (scr : Nat → Region → Screen) : Gx :=
  let step := fun (p : Word × Group) (l : Nat) =>
    match (x.g.lane? l).bind Lane.region with
    | Option.none => (p.1 ||| BitVec.ofNat 32 (2 ^ l), p.2)
    | some r => match scr l r with
      | .go r' => (p.1 ||| BitVec.ofNat 32 (2 ^ l), p.2.modLane l fun y => { y with region := some r' })
      | .abort code arg => (p.1, p.2.abort l code arg 0)
  let out := (lanesOf x.c.lanes).foldl step (0, x.g)
  let s := x.s.modGrp x.c.g fun _ => out.2
  { x with s := s, g := out.2, c := { x.c with lanes := out.1 }, en := x.en &&& out.1 }

end Sys2Proof.Machine
end

