-- ==== Sys2Proof/Machine/Gang.lean ====
section
/-! DEFINITION. The frame every gang instruction runs in: decode steps 4 to 6 (R106), safe points (R39, R41, R44), regions
(R211), and then the instruction's own effect. -/

namespace Sys2Proof.Machine

open Sys2Proof

/-- The gang's lanes stop at a safe point (R41); a lane with a region open aborts it first and stops later (R44). -/
def Gx.yieldHere (x : Gx) : State :=
  let rs := x.g.inRegion &&& x.all
  x.s0.modGrp x.c.g fun g =>
    let h := (lanesOf rs).foldl (fun g l => g.abort l abPreempt 0 0) g
    h.modLanes (x.all &&& ~~~rs) fun l => { l with stopped := true, wait := .none }

/-- Opcodes that need not go on at the next instruction: transfers, EXIT and the returns. -/
def transferOp (op : Nat) : Bool := [0x70, 0x71, 0x72, 0x73, 0x74, 0x75, 0x77, 0x7F, 0xC3, 0xC6].contains op

/-- Going on past virtual address 2^54 - 1 is refused (R89). -/
def Gx.pastEnd (x : Gx) : Bool := x.next.toNat ≥ 2 ^ 54

/-- Decode faults, then the safe point, then the regions, then the instruction's own effect. DESIGN CHOICE (log 65): an
instruction that would go on past the address space faults only when its decode steps 2 to 6 have passed. DESIGN CHOICE (log 79): so a region that meets several reasons to abort
ends with 0x0B before 0x0C, and with 0x0C before the codes of `Gx.screen` (R211). -/
def Gx.enter (x : Gx) (op : Nat) (f : FForm) (ok : Gx → Bool) (body : Gx → State) : State :=
  match x.decodeFault op f ok with
  | some code => x.fault x.s code
  | none =>
    if x.pastEnd && !transferOp op then x.fault x.s fltRange
    else if x.g.yreq && (f.sp || waitOp op) then x.yieldHere
    else if x.g.inRegion &&& x.c.lanes = 0 then body x
    else
      let y := x.screenAll (x.screen op f)
      if y.c.lanes = 0 then y.s else body y

/-- An F-form instruction of the issuing gang. `ok` holds its own operand rules (step 6), `body` its effect (step 7). -/
def gangF (op : Nat) (f : FForm) (s : State) (ok : Gx → Bool) (body : Gx → State) :
    Host.Outcome State Fault Refusal :=
  match openGang s f.pfx with
  | none => .fault .noGang
  | some x => .next (x.enter op f ok body)

/-- No operand rule beyond the row's. -/
def free (_ : Gx) : Bool := true

/-- Vector results, one value for each enabled lane (R135). -/
def vecF (op : Nat) (f : FForm) (s : State) (val : Gx → Nat → Nat) : Host.Outcome State Fault Refusal :=
  gangF op f s free fun x => x.done x.s (x.put f.d f.z f.ty (val x))

/-- One bit for each enabled lane (R144). -/
def maskF (op : Nat) (f : FForm) (s : State) (bit : Gx → Nat → Bool) : Host.Outcome State Fault Refusal :=
  gangF op f s free fun x => x.done x.s (x.putM f.d f.z (bit x))

/-- A uniform result (R174). -/
def uniF (op : Nat) (f : FForm) (s : State) (val : Gx → DWord) : Host.Outcome State Fault Refusal :=
  gangF op f s free fun x => x.doneS f.d (val x)

/-- Values computed lane by lane with draws of $rng (R71): the values by lane, and the state of $rng afterwards. -/
def drawAll (lanes : List Nat) (rng : DWord) (val : Nat → DWord → Nat × DWord) : List (Nat × Nat) × DWord :=
  lanes.foldl (fun p l => let r := val l p.2; (p.1 ++ [(l, r.1)], r.2)) ([], rng)

/-- Vector results that may round under SR: `val` takes a lane and $rng (R71, R135). -/
def drawF (op : Nat) (f : FForm) (s : State) (t : Ty) (val : Gx → Nat → DWord → Nat × DWord) :
    Host.Outcome State Fault Refusal :=
  gangF op f s free fun x =>
    let r := drawAll (lanesOf x.en) x.g.rng (val x)
    x.done x.s fun g => x.put f.d f.z t (fun l => (aget r.1 l).getD 0) { g with rng := r.2 }

/-! ### Rounding controls -/

/-- The $cvm nibble of a destination: none for formats without one (R58, R70). -/
def nibbleLo : Ty → Option Nat
  | .f16 => some 0 | .bf16 => some 4 | .e4m3 => some 8 | .e5m2 => some 12 | .i8 | .ui8 => some 24
  | .i16 | .ui16 => some 28 | _ => none

/-- ROUND codes of a nibble (R58). -/
def RM.ofRound (k : Nat) : RM := match k with | 2 => .rtz | 3 => .rdn | 4 => .rup | 5 => .rna | 6 => .sr | _ => .rne

/-- Mode by the prefix, else the nibble, else RNE (R70). -/
def modeOf (cvm : DWord) (p : Option Pfx) (lo : Option Nat) : RM :=
  let own := match lo with | some k => RM.ofRound (bits64 cvm k 3) | none => .rne
  match p with
  | some p => if p.rm = .cvm then own else p.rm
  | none => own

/-- SAT by the prefix, else the nibble, else the destination's default (R72). -/
def satOf (cvm : DWord) (p : Option Pfx) (lo : Option Nat) (dflt : Bool) : Bool :=
  let own := match lo with | some k => bits64 cvm (k + 3) 1 = 1 | none => dflt
  match p with
  | some p => match p.sat with | .cvm => own | .sat => true | .wrap => false
  | none => own

/-- Mode and SAT of a result of a type (R70, R72): conversions to wide integers saturate, FP32 and FP64 follow IEEE. -/
def Gx.mode (x : Gx) (f : FForm) (t : Ty) : RM := modeOf x.g.cvm f.pfx (nibbleLo t)
def Gx.sat (x : Gx) (f : FForm) (t : Ty) : Bool := satOf x.g.cvm f.pfx (nibbleLo t) (!t.isFloat)

end Sys2Proof.Machine
end

