-- ==== Sys2Proof/Machine/Memory.lean ====
section
/-! DEFINITION. Access to global memory by a gang: addresses (R97), the check of all lanes (R186), the store and
write-combining buffers and their drain (R265, R353, R362), loads and stores of lanes in a region (R210). -/

namespace Sys2Proof.Machine

open Sys2Proof

/-! ### Addresses -/

/-- The base of an address (R97). -/
def Gx.eaBase (x : Gx) (f : FForm) (l : Nat) : Nat :=
  match f.a with
  | .s i => (x.uni i).toNat
  | .v i => x.rd.vsrc l i 64
  | _ => 0

/-- The offset of an address, scaled (R97). -/
def Gx.eaOff (x : Gx) (f : FForm) (l : Nat) : Int :=
  match f.b with
  | .imm i => i.toInt
  | .reg n | .pat n _ =>
    let k : Int := match n with
      | .s i => (x.uni i).toInt
      | .v i => Ty.i32.intVal (x.rd.vsrc l i 32)
      | _ => 0
    if f.x % 2 = 1 then k * f.ty.size else k

/-- EffectiveAddress (R97). -/
def Gx.ea (x : Gx) (f : FForm) (l : Nat) : Nat := wrapInt 64 (x.eaBase f l + x.eaOff f l)

/-! ### Checks -/

/-- One access that a lane wants, with the X field of its instruction (R255). `halves` says whether it needs host halves, and
to write them (R372); `whole` marks an access of the whole gang, whose fault names no lane (R361); `errOk` one whose errors
show later (R224). -/
structure Want where
  lane   : Nat
  va     : Nat
  size   : Nat
  need   : Need
  xf     : Nat := 0
  atomic : Bool := false
  halves : Option Bool := some false
  whole  : Bool := false
  errOk  : Bool := false
  deriving DecidableEq, Repr

/-- What Check finds: a page, a fault, or what the lane waits for: a translation, an engine that owns a line, host halves,
the stores before a promoted release (R263), the relabel of its launch (R337). -/
inductive Chk
  | ok (l : Leaf) | fault (code : Nat) | miss | held (line : Nat) (p : Policy) | half (hs : List Nat) | marked | pred
  deriving DecidableEq, Repr

def Need.read : Need → Bool
  | .r | .rw => true | _ => false

/-- A tile operation that the group has issued is still to write an NVIO page (R253). -/
def State.nvioPending (s : State) (r : GRef) : Bool :=
  s.tileJobs.any fun j => j.team == r.team && j.grp == r.grp && (match j.op with
    | .store cells _ _ _ _ => cells.any fun c => c.2.nvio
    | _ => false)

/-- Check (R186) past the translation: R80, held accesses of a prediction (R337), lines an engine owns (R286), marked lines
(R263), errors, host halves (R372), an NVIO page that a tile operation of the group is still to write (R253). DESIGN CHOICE (log 61): LDA and STR fault on an alias page whether or not a program
pairs them. -/
def Gx.chkLeaf (x : Gx) (s : State) (w : Want) (l : Leaf) : Chk :=
  if l.mxa.isSome && w.atomic then .fault fltProtection
  else if l.mxa.isSome && w.need.write && w.size % 2 != 0 then .fault fltAlign
  else if x.t.slot != 0 && (l.nvio || l.ats.isSome || (w.need.write && !l.vers)) then .pred
  else if (l.lines w.size).any s.lineFenced then .fault fltFenced
  else match (l.lines w.size).find? fun n => (s.ownerOf n).isSome with
    | some n => .held n (policyOf w.xf l w.need.write)
    | none =>
      if w.need.read && (l.lines w.size).any (s.marked (some x.t.clusterSid)) then .marked
      else if l.nvio && s.nvioPending x.c.g then .marked
      else if w.need.read && !w.errOk && s.poisoned l w.size then .fault fltPoison
      else match w.halves with
        | none => .ok l
        | some wr =>
          let hs := s.coh.lacks (halvesOf l.pa w.size) wr
          if hs.isEmpty then .ok l else .half hs

/-- Check (R186). -/
def Gx.chk (x : Gx) (s : State) (w : Want) : Chk :=
  if w.size != 0 && w.va % w.size != 0 then .fault fltAlign
  else match s.translate x.t.ctx (.lane x.c.g w.lane) w.va w.need with
    | .fault code => .fault code
    | .miss => .miss
    | .ok l => x.chkLeaf s w l

/-- What a waiting check sends for (R352, R282). -/
def Gx.askFor (x : Gx) (s : State) (w : Want) : Chk → State
  | .miss => s.requestFor x.t.ctx (.lane x.c.g w.lane) w.va w.need
  | .held n p => s.touch x.t n p w.need.write
  | _ => s

/-- A check that has passed and waits for host lines (R297, R372). -/
def Chk.passed : Chk → Bool
  | .ok _ | .half _ => true | _ => false

/-- The host halves that passed checks wait for. -/
def Chk.halves : Chk → List Nat
  | .half hs => hs | _ => []

/-- Numbers in increasing order, each once. -/
def sortLines (ls : List Nat) : List Nat := ((ls.foldl (fun (m : AMap Unit) n => aset m n ()) []) : AMap Unit).map Prod.fst

/-- The pages of accesses, for their lanes. -/
def Gx.uses (x : Gx) (ws : List Want) : List (Agent × Nat) := ws.map fun w => (Agent.lane x.c.g w.lane, w.va / 4096)

/-- No access of the gang's lanes keeps a translation. -/
def State.letGo (s : State) (c : Nat) (r : GRef) (m : Word) : State :=
  s.modCtx c fun x => { x with inUse := x.inUse.filter fun u => match u.1 with
    | .lane q l => !(q == r && m.getLsbD l)
    | _ => true }

/-- What waiting checks send for: translations and lines; and once every lane has passed the host halves, the lower address first
(R186, R294), whose accesses keep their translations (R297). While a page is waited for no translation is kept (R353). -/
def Gx.sendFor (x : Gx) (s : State) (cs : List (Want × Chk)) : State :=
  let t := cs.foldl (fun s p => x.askFor s p.1 p.2) s
  if !cs.all (fun p => p.2.passed) then t.letGo x.t.ctx x.c.g x.all
  else
    (sortLines (cs.flatMap fun p => p.2.halves)).foldl (fun s h =>
      (cs.filter fun p => p.2.halves.contains h).foldl (fun s p =>
        s.askHalves [h] (p.1.halves == some true) (some (x.t.ctx, p.1.va / 4096))) s)
      (t.keepInUse x.t.ctx (x.uses (cs.map Prod.fst)))

/-- All lanes' checks together (R186): every page, the lowest failing lane, or a wait with what it sent for. -/
inductive Gather
  | ready (ls : List (Want × Leaf)) | fault (w : Want) (code : Nat) | wait (held : Bool) (s : State)

def Chk.bad : Chk → Bool
  | .fault _ => true | _ => false

def Chk.good : Chk → Bool
  | .ok _ => true | _ => false

/-- The lines that some accesses write have no room among the versions of their launch (R335). -/
def Gx.noRoom (x : Gx) (s : State) (ls : List (Want × Leaf)) : Bool :=
  x.t.slot != 0 &&
    !s.versionRoom (s.acc x.t) (((ls.filter fun p => p.1.need.write).flatMap fun p => p.2.lines p.1.size).eraseDups)

def Gx.gather (x : Gx) (ws : List Want) : Gather :=
  let cs := ws.map fun w => (w, x.chk x.s w)
  let low := cs.takeWhile fun p => !p.2.bad
  let stuck := low.filter fun p => if cs.any (fun q => q.2.bad) then !p.2.passed else !p.2.good
  if !stuck.isEmpty then .wait (stuck.any fun p => p.2 == .pred) (x.sendFor x.s0 low)
  else match cs.find? fun p => p.2.bad with
    | some (w, .fault code) => .fault w code
    | _ =>
      let ls := cs.filterMap fun p => match p.2 with | .ok l => some (p.1, l) | _ => none
      match ls with
      | (w, _) :: _ => if x.noRoom x.s ls then (if x.s.predicted x.t then .fault w 0 else .wait true x.s0) else .ready ls
      | [] => .ready ls

/-- A held instruction of a prediction waits for the relabel, as at a safe point (R337). -/
def Gx.heldHere (x : Gx) : State := if x.g.yreq then x.yieldHere else x.stall x.s0 true

/-! ### The buffers -/

/-- A byte of a group's own buffered stores, the newest (R265): where both buffers hold it, the combined store is the newer. -/
def Group.buffered (g : Group) (pa : Nat) : Option Byte :=
  (g.wcbuf ++ g.stbuf.reverse).findSome? fun e => if e.pa == some (pa / 128) then aget e.bytes (pa % 128) else none

/-- n bytes as a group reads them: its own buffered stores over memory (R186, R262); of a notify page, its queue's HEAD (R404). -/
def State.readBytes (s : State) (t : Team) (g : Group) (l : Leaf) (n : Nat) : List Byte :=
  let a := s.acc t
  if l.mxa.isNone && notifyPa l.pa then s.notifyLoad l.pa n
  else (List.range n).map fun k =>
    match (if l.mxa.isSome then none else g.buffered (l.pa + k)) with
    | some b => b
    | none => s.leafByte a l k

/-- n bytes as a lane of the group loads them (R186, R262). -/
def Gx.loadBytes (x : Gx) (s : State) (l : Leaf) (n : Nat) : List Byte := s.readBytes x.t x.g l n

def Gx.loadNat (x : Gx) (s : State) (l : Leaf) (n : Nat) : Nat := leNat (x.loadBytes s l n)

/-- An entry without the bytes that a newer store to its line replaces (R265). -/
def StEntry.without (n e : StEntry) : StEntry :=
  if e.pa == n.pa then { e with
    bytes := e.bytes.filter fun b => (aget n.bytes b.1).isNone, lanes := e.lanes.filter fun b => (aget n.bytes b.1).isNone } else e

/-- Entries without the bytes that a newer store replaces. -/
def supersede (es : List StEntry) (n : StEntry) : List StEntry := (es.map n.without).filter fun e => !e.bytes.isEmpty

/-- A store joins the entries of its instruction, or of the write-combining buffer: its bytes replace the older ones, in one
entry for each line (R186, R265). -/
def combineIn (es : List StEntry) (n : StEntry) : List StEntry :=
  let same := fun (e : StEntry) => e.pa == n.pa && e.line == n.line
  let put := fun (e : StEntry) =>
    { e with
      lanes := n.lanes.foldl (fun m b => aset m b.1 b.2) e.lanes, bytes := n.bytes.foldl (fun m b => aset m b.1 b.2) e.bytes }
  let old := (es.map fun e => if same e then put e else n.without e).filter fun e => !e.bytes.isEmpty
  if es.any same then old else old ++ [n]

/-- The entries of one instruction, later lanes over earlier ones (R186, R265). -/
def entriesOf (xf : Nat) (ls : List (Want × Leaf × List (Nat × Byte))) : List StEntry :=
  ls.foldl (fun es p =>
    let q := policyOf xf p.2.1 true
    combineIn es
      { line := p.1.va / 128, lanes := p.2.2.map (fun b => (p.1.va % 128 + b.1, p.1.lane)), pa := some (p.2.1.pa / 128)
        bytes := p.2.2.map fun b => (p.1.va % 128 + b.1, b.2)
        through := q.through, rd := q.rd }) []

/-- The bytes of each store that no later lane's replaces, at offsets from its address (R186). -/
def lastOnly : List (Want × Leaf × List Byte) → List (Want × Leaf × List (Nat × Byte))
  | [] => []
  | p :: r =>
    let hidden := fun (pa : Nat) => r.any fun q => q.2.1.mxa.isNone && q.2.1.pa ≤ pa && pa < q.2.1.pa + q.2.2.length
    (p.1, p.2.1, (located 0 p.2.2).filter fun b => p.2.1.mxa.isSome || !hidden (p.2.1.pa + b.1)) :: lastOnly r

/-- How one buffered entry drains: it is written or fails, or whoever drains it waits, having sent for something. -/
inductive Drain
  | done (s : State) | wait (s : State)

/-- The lowest lane whose bytes an entry holds (R361); 0 where a record, which names none, has brought them back (R370). -/
def StEntry.lane (e : StEntry) : Nat :=
  match e.lanes.map Prod.snd with
  | [] => 0
  | l :: r => r.foldl Nat.min l

/-- The virtual address of an entry's first byte. -/
def StEntry.va (e : StEntry) : Nat := 128 * e.line + (match e.bytes with | b :: _ => b.1 | [] => 0)

/-- Entry k of a buffer is removed. -/
def Group.dropEntry (g : Group) (wc : Bool) (k : Nat) : Group :=
  if wc then { g with wcbuf := dropAt g.wcbuf k } else { g with stbuf := dropAt g.stbuf k }

/-- A store of this policy leaves no copy of its line behind: it is written at home (R255, R372). -/
def Policy.atHome (p : Policy) : Bool := p.cls = 1 || p.through

/-- A store to memory is made: its host halves and its line change as its policy says (R255, R282, R372). -/
def State.wrote (s : State) (t : Team) (line : Nat) (hs : List Nat) (p : Policy) : State :=
  (if p.atHome then s.dropHalves hs else s.dirtyHalves hs).touch t line p true

/-- STORE_DRAIN (R265, R353, R362, R372): the entry is translated again as a store. When that fails its bytes are
discarded, and the fault waits for the instruction that waits for the drain. A predicted launch's entry without quota ends the
launch, so that nothing of it goes on (R340, R379). -/
def State.drainEntry (s : State) (r : GRef) (wc : Bool) (k : Nat) : Drain :=
  match s.team? r.team, s.grp? r with
  | some t, some g =>
    match (if wc then g.wcbuf else g.stbuf)[k]? with
    | none => .done s
    | some e =>
      match s.reach t.ctx (.drain r) e.va .w 1 with
      | .miss => .wait (s.request t.ctx (.drain r) e.va true)
      | .fault code =>
        .done ((s.modGrp r fun g =>
          { (g.dropEntry wc k) with deferred := g.deferred.or (some (code, BitVec.ofNat 64 e.va, e.lane)) }).forgetDenied t.ctx
            (fun a => a = .drain r))
      | .ok l =>
        let pa := l.pa - e.va % 128
        let hs := if Config.hostBase ≤ l.pa then (e.bytes.map fun b => (pa + b.1) / 64).eraseDups else []
        let p : Policy := { cls := if wc then 1 else if e.through || (policyOf 0 l true).atHome then 3 else 0, rd := e.rd }
        let lack := s.coh.lacks hs true
        if !p.atHome && !lack.isEmpty then .wait (s.askHalves lack true)
        else if l.vers && t.slot != 0 && !s.versionRoom (s.acc t) [l.pa / 128] then
          .wait (if s.predicted t then s.failPrediction t else s)
        else if (s.ownerOf (l.pa / 128)).isSome then .wait (s.touch t (l.pa / 128) p true)
        else
          let u := s.modGrp r fun g => { (g.dropEntry wc k) with unacked := g.unacked + 1 }
          let v := u.store (s.acc t) { l with pa := pa, off := l.off - e.va % 128 } e.bytes
          .done (v.wrote t (l.pa / 128) hs p)
  | _, _ => .done s

/-- Entries of a buffer drained from the oldest on, until one waits. -/
def State.drainMany (s : State) (r : GRef) (wc : Bool) : Nat → Drain
  | 0 => .done s
  | n + 1 => match s.drainEntry r wc 0 with
    | .done t => t.drainMany r wc n
    | .wait t => .wait t

/-- The store buffer drained, and the write-combining buffer with it where `wc` says so (R265). -/
def State.drainAll (s : State) (r : GRef) (wc : Bool) : Drain :=
  match s.grp? r with
  | none => .done s
  | some g => match s.drainMany r false g.stbuf.length with
    | .wait t => .wait t
    | .done t => if wc then t.drainMany r true g.wcbuf.length else .done t

/-- The group's buffered stores to some lines performed, in their order (R269, ST before AT on a common byte): of one line
the store buffer's are the older. -/
def State.drainLines (s : State) (r : GRef) (lines : List Nat) : Nat → Drain
  | 0 => .done s
  | n + 1 => match s.grp? r with
    | none => .done s
    | some g =>
      let on := fun (e : StEntry) => e.pa.any lines.contains
      match g.stbuf.findIdx? on with
      | some k => (match s.drainEntry r false k with | .done t => t.drainLines r lines n | .wait t => .wait t)
      | none => match g.wcbuf.findIdx? on with
        | some k => (match s.drainEntry r true k with | .done t => t.drainLines r lines n | .wait t => .wait t)
        | none => .done s

/-- Store-buffer entries up to the last whose physical line is unknown: none where all are known (R265, R370). -/
def Group.unresolved (g : Group) : Nat :=
  g.stbuf.length - (g.stbuf.reverse.takeWhile fun e => e.pa.isSome).length

/-- An access of a group whose entries all have a known line; until then they drain first, and the gang waits (log 46). -/
def Gx.resolved (x : Gx) (k : State) : State :=
  match x.g.unresolved with
  | 0 => k
  | n => match x.s0.drainMany x.c.g false n with
    | .wait t => x.stall t
    | .done t => x.stall t

/-- MemInstr of R186: the instruction goes on once every lane has passed. A held access of a prediction is a safe point
(R337). -/
def Gx.memGo (x : Gx) (ws : List Want) (k : List (Want × Leaf) → State) : State :=
  x.resolved (match x.gather ws with
    | .ready ls => k ls
    | .fault w code => x.fault x.s code (if w.whole then 0xFF else w.lane) w.va
    | .wait held s => if held && x.g.yreq then x.yieldHere else x.stall s held)

/-- An address translated only to find its page, as FENCE's is (R194, R205): nothing at it is accessed, and no permission is needed. -/
def Gx.pageGo (x : Gx) (va : Nat) (k : Leaf → State) : State :=
  match x.s.translate x.t.ctx (.lane x.c.g x.low) va .any with
  | .ok l => k l
  | .fault code => x.fault x.s code 0xFF va
  | .miss => x.stall ((x.s0.request x.t.ctx (.lane x.c.g x.low) va false).letGo x.t.ctx x.c.g x.all)

/-- An instruction that waits for the drain (R362): it goes on when every entry is written, stalls while one waits, and
takes a deferred write's fault. Stores sent before the team's last save are waited for too (R266). -/
def Gx.release (x : Gx) (wc : Bool) (k : State → State) : State :=
  match x.s.drainAll x.c.g wc with
  | .wait _ => match x.s0.drainAll x.c.g wc with
    | .wait t => x.stall t
    | .done t => x.stall t
  | .done t => match (t.grp? x.c.g).bind Group.deferred with
    | some (code, va, lane) =>
      (t.modGrp x.c.g fun g => { g with deferred := none }).stopGroup x.c.g fltDeferred code lane x.c.pc.toNat va.toNat
        .reexec
    | none => if ((t.grp? x.c.g).map Group.carried).getD 0 = 0 then k t else x.stall t

/-- A release that also waits for the acknowledgements (R264, R266). -/
def Gx.releaseAcked (x : Gx) (wc : Bool) (k : State → State) : State :=
  x.release wc fun t =>
    if ((t.grp? x.c.g).map Group.unacked).getD 0 = 0 then k t else x.stall t

/-- A fence at a scope (R194, R258): stores in the L1 are performed for the core and the cluster. DESIGN CHOICE (log 62): for
the die and the device they are performed when every agent's acknowledgement is in. -/
def Gx.fenceAt (x : Gx) (scope : Nat) (k : State → State) : State :=
  if scope ≤ 1 then x.release false k else x.releaseAcked (scope = 4) k

/-- Room for new entries in the write-combining buffer, 8 lines (R265): one that overflows drains its oldest lines. -/
def State.fitCombined (s : State) (r : GRef) : Nat → Drain
  | 0 => .done s
  | n + 1 => match s.grp? r with
    | none => .done s
    | some g =>
      if g.wcbuf.length ≤ 8 then .done s
      else match s.drainLines r ((g.wcbuf.take 1).filterMap StEntry.pa) 200 with
        | .done t => t.fitCombined r n
        | .wait t => .wait t

/-- Stores to alias pages brought together by their frames and formats, later bytes over earlier ones (R80). -/
def aliasGroups (ls : List (Leaf × List Byte)) : List (Leaf × AMap Byte) :=
  ls.foldl (fun gs p =>
    let put := fun (m : AMap Byte) => (located p.1.off p.2).foldl (fun m q => aset m q.1 q.2) m
    match gs.findIdx? fun g => g.1.pa == p.1.pa && g.1.mxa == p.1.mxa with
    | some k => modAt gs k fun g => (g.1, put g.2)
    | none => gs ++ [({ p.1 with off := 0 }, put [])]) []

/-- Stores of one instruction performed at once: those to alias pages in one update of each block (R80). -/
def State.storeNow (s : State) (a : Acc) (ls : List (Leaf × List Byte)) : State :=
  let u := (aliasGroups (ls.filter fun p => p.1.mxa.isSome)).foldl (fun s g => s.store a g.1 g.2) s
  (ls.filter fun p => p.1.mxa.isNone).foldl (fun s p => s.store a p.1 (located 0 p.2)) u

/-- The lines of accesses go to their caches, or request what their policy calls for (R255, R282). -/
def Gx.touched (x : Gx) (s : State) (xf : Nat) (ls : List (Want × Leaf)) (write : Bool) : State :=
  (ls.flatMap fun p => (p.2.lines p.1.size).map fun n => (n, policyOf xf p.2 write)).eraseDups.foldl
    (fun s q => s.touch x.t q.1 q.2 write) s

/-- The group's buffered stores to the lines of accesses that are made in place, performed first. -/
def State.drainFor (s : State) (r : GRef) (ls : List (Want × Leaf)) : Drain :=
  s.drainLines r (ls.flatMap fun p => p.2.lines p.1.size) 200

/-- Stores of a gang whose checks have passed (R186, R255, R265): buffered, combined, or performed at once on NVIO and alias
pages and where there is no memory (R80, R253, R428), after what the group has buffered for their lines. The bytes of a lane that a
later one stores too are its alone, whatever their pages. An ordinary store to bytes that are being combined replaces them
there; a combined store to bytes that wait in the store buffer is written after them. `none`: they do not fit yet. -/
def Gx.storeAll (x : Gx) (s : State) (xf : Nat) (ls : List (Want × Leaf × List Byte)) : Option State :=
  let atOnce := fun (l : Leaf) => l.mxa.isSome || l.nvio || !paReal l.pa || notifyPa l.pa
  let now := ls.filter fun p => atOnce p.2.1
  let later := (lastOnly ls).filter fun p => !atOnce p.2.1 && !p.2.2.isEmpty
  let nt := entriesOf xf (later.filter fun p => (policyOf xf p.2.1 true).cls = 1)
  let st := entriesOf xf (later.filter fun p => (policyOf xf p.2.1 true).cls != 1)
  match s.drainFor x.c.g (now.map fun p => (p.1, p.2.1)) with
  | .wait _ => none
  | .done s0 =>
    if ((s0.grp? x.c.g).map fun g => g.stbuf.length).getD 0 + st.length > 64 then none
    else
      let s1 := s0.storeNow (s.acc x.t) (now.map Prod.snd)
      let s2 := x.touched s1 xf (now.map fun p => (p.1, p.2.1)) true
      let s3 := s2.modGrp x.c.g fun g =>
        { g with
          stbuf := g.stbuf ++ st
          wcbuf := nt.foldl combineIn (st.foldl supersede g.wcbuf) }
      match s3.fitCombined x.c.g 200 with
      | .done t => some t
      | .wait _ => none

/-! ### Regions: loads and stores -/

/-- The value a region store leaves (R210). -/
def Region.value (r : Region) : RVal → Nat
  | .lit v => v
  | .sym k c => match r.sources[k]? with | some q => (q.value + c) % 2 ^ (8 * q.width) | none => c

/-- Where a page's address lies as a region compares it: physical, or in the page of an alias frame, whatever its virtual address. -/
def Leaf.spot (l : Leaf) : Nat := if l.mxa.isSome then l.pa + l.off else l.pa

/-- A byte that the region's own stores leave at a place, the newest (R186, R210). -/
def Region.byte (r : Region) (p : Leaf) (k : Nat) : Option Byte :=
  r.stores.reverse.findSome? fun w =>
    if w.mxa == p.mxa && w.pa ≤ p.spot + k && p.spot + k < w.pa + w.width then
      some (BitVec.ofNat 8 (r.value w.val / 256 ^ (p.spot + k - w.pa)))
    else none

/-- The newest region store that touches some bytes. -/
def Region.touching (r : Region) (p : Leaf) (n : Nat) : Option RStore :=
  r.stores.reverse.find? fun w => w.mxa == p.mxa && w.pa < p.spot + n && p.spot < w.pa + w.width

/-- A region store covers exactly these bytes. -/
def RStore.is (w : RStore) (p : Leaf) (n : Nat) : Bool := w.pa = p.spot && w.width = n

/-- The region reads its address from a tagged register (R210). -/
def Gx.tagAddr (x : Gx) (f : FForm) (l : Nat) : Bool :=
  x.rd.tagAt l f.a 64 != .none || x.tagB l f.b 32 != .none

/-- What a region lane's load or store comes to: it goes on with its region and a value, or aborts. -/
inductive RStep
  | go (r : Region) (v : Nat) | abort (code arg flt : Nat)

/-- The footprint with the lines of one more access of n bytes (R209): an alias page's are its blocks' (R78). -/
def Region.line (r : Region) (p : Leaf) (n : Nat) (q : Policy) (store loaded : Bool) : Region :=
  let add := fun (ls : List Nat) => ls ++ (p.lines n).filter fun k => !ls.contains k
  { r with
    system := r.system || p.scope = 4
    lines := add r.lines
    loaded := if loaded then add r.loaded else r.loaded
    uses := (p.lines n).foldl (fun m k => if store || (aget m k).isNone then aset m k (q.cls, q.rd) else m) r.uses }

/-- A region lane's load at a page (R210); `pos` is the destination's stack position. A load that a region
store matches exactly loads from no line (R212, log 54). -/
def Gx.regionLoad (x : Gx) (f : FForm) (l : Nat) (r : Region) (p : Leaf) (va pos : Nat) : RStep :=
  let n := f.ty.size
  let tagged := x.tagAddr f l
  let mem := x.loadBytes x.s p n
  let merged := leNat ((List.range n).map fun k => (r.byte p k).getD (mem.getD k 0))
  let exact := match r.touching p n with | some w => w.is p n | none => false
  let use := policyOf f.x p false
  let plain := fun (q : Region) => let q := q.line p n use false (!exact)
    if q.lines.length > 16 then RStep.abort 0x06 0 0 else .go { q with concrete := true } merged
  let wide := f.ty.is64
  let tag := fun (q : Region) (k c : Nat) => { q with tags := { pos := pos, wide := wide, k := k, c := c } :: q.tags }
  if tagged || !(f.ty matches .i32 | .ui32 | .i64 | .ui64) then plain r
  else match r.touching p n with
    | some w =>
      if w.is p n then
        match w.val with
        | .sym k c => .go (tag r k c) (r.value w.val)
        | .lit v => .go r v
      else plain r
    | none => match r.sources.findIdx? fun q => q.addr == va && q.width == n with
      | some k => .go (tag r k 0) (r.value (.sym k 0))
      | none =>
        if r.sources.length ≥ 4 then .abort 0x03 0 0
        else
          let q := r.line p n use false true
          if q.lines.length > 16 then .abort 0x06 0 0
          else
            let v := leNat mem
            .go (tag { q with sources := q.sources ++ [{ addr := va, width := n, value := v }] } q.sources.length 0) v

/-- A region lane's store at a page (R210). -/
def Gx.regionStore (x : Gx) (f : FForm) (l : Nat) (r : Region) (p : Leaf) (va data : Nat) : RStep :=
  let n := f.ty.size
  if r.stores.length ≥ 8 then .abort 0x05 0 0
  else
    let q := r.line p n (policyOf f.x p true) true false
    if q.lines.length > 16 then .abort 0x06 0 0
    else
      let t := x.rd.tagAt l f.d (if f.ty.is64 then 64 else 32)
      let put := fun (q : Region) (v : RVal) => 
        { q with stores := q.stores ++ [{ addr := va, width := n, val := v, pa := p.spot, mxa := p.mxa }] }
      match t with
      | .none => .go (put (if x.tagAddr f l then { q with concrete := true } else q) (.lit data)) 0
      | .tag k c =>
        let same := match r.sources[k]? with | some y => y.width = n | none => false
        if same && !x.tagAddr f l then .go (put q (.sym k c)) 0 else .go (put { q with concrete := true } (.lit data)) 0
      | .other => .go (put { q with concrete := true } (.lit data)) 0

/-- A region's access has to wait: for a line, for the host, or for the relabel (R211, R337). -/
def Chk.stuck : Chk → Bool
  | .held _ _ | .half _ | .marked | .pred => true | _ => false

/-- Region lanes of an instruction in turn: the gang without those that abort, its group with their regions moved on, and
the values by lane. An access that would fault or miss aborts (R211); one that has to wait stalls the gang, and one held for the relabel
stops with it as at a safe point (R337). -/
def Gx.regionGo (x : Gx) (ws : List Want) (step : Want → Region → Leaf → RStep) (k : Gx → List (Nat × Nat) → State) : State :=
  let cs := ws.map fun w => (w, x.chk x.s w)
  let stuck := cs.filter fun p => p.2.stuck
  if ws.isEmpty then k x []
  else if !stuck.isEmpty then
    (if x.g.yreq && stuck.any (fun p => p.2 == .pred) then x.yieldHere
     else x.stall (x.sendFor x.s0 (cs.filter fun p => p.2.passed || p.2.stuck)) (stuck.any fun p => p.2 == .pred))
  else x.resolved <|
    let quit := fun (y : Gx) (l code arg flt : Nat) =>
      let off := ~~~(BitVec.ofNat 32 (2 ^ l))
      { y with g := y.g.abort l code arg flt, en := y.en &&& off, c := { y.c with lanes := y.c.lanes &&& off } }
    let one := fun (p : Gx × List (Nat × Nat)) (q : Want × Chk) =>
      match (x.g.lane? q.1.lane).bind Lane.region with
      | none => p
      | some r => match q.2 with
        | .ok l => match step q.1 r l with
          | .go r' v => ({ p.1 with g := p.1.g.modLane q.1.lane fun z => { z with region := some r' } }, p.2 ++ [(q.1.lane, v)])
          | .abort code arg flt => (quit p.1 q.1.lane code arg flt, p.2)
        | .fault code => (quit p.1 q.1.lane abFault 0 code, p.2)
        | _ => (quit p.1 q.1.lane abFault 0 fltNotPresent, p.2)
    let y := cs.foldl one (x, [])
    k { y.1 with s := y.1.s.modGrp y.1.c.g fun _ => y.1.g } y.2

end Sys2Proof.Machine
end

