-- ==== Sys2Proof/Machine/Control.lean ====
section
/-! DEFINITION. Branches, calls, JOIN, EXIT, barriers, waits and priority (R30, R34, R178 to R185). -/

namespace Sys2Proof.Machine

open Sys2Proof

/-! ### Transfers -/

/-- Each lane of the gang goes on at its own address. -/
def Gx.jump (x : Gx) (s : State) (pcOf : Nat → DWord) (f : Group → Group := id) : State :=
  s.modGrp x.c.g fun g =>
    let h := f g
    { h with lanes := h.lanes.mapIdx fun i l => if x.c.lanes.getLsbD i then { l with pc := pcOf i, wait := .none } else l }

/-- The target of a PC-relative transfer, as an integer (R98). -/
def Gx.target (x : Gx) (f : FForm) : Int := (x.word.toNat : Int) + 4 * f.b.immOf.toInt

/-- A target within the address space (R98). -/
def inSpace (t : Int) : Bool := 0 ≤ t && t < 2 ^ 54

/-- A transfer by the lanes of a mask (R178): the others go on at the next instruction. -/
def Gx.branch (x : Gx) (f : FForm) (taken : Word) (g : Group → Group := id) : State :=
  let t := x.target f
  if !inSpace t then x.fault x.s fltRange 0xFF (wrapInt 64 t)
  else if x.pastEnd && x.c.lanes &&& ~~~taken != 0 then x.fault x.s fltRange
  else x.jump x.s (fun i => if taken.getLsbD i then BitVec.ofInt 64 t else x.next) g

/-- A target read from a register (R89, R178): its fault, if it has one. DESIGN CHOICE (log 79): one with both faults is FLT_ALIGN. -/
def badTarget (t : DWord) : Option Nat :=
  if t.toNat % 4 != 0 then some fltAlign else if t.toNat ≥ 2 ^ 54 then some fltRange else none

def execBra (f : FForm) (s : State) : Host.Outcome State Fault Refusal :=
  gangF 0x70 f s free fun x => x.branch f (match f.a with | .m n => x.mask n &&& x.c.lanes | _ => 0)

def execBru (f : FForm) (s : State) : Host.Outcome State Fault Refusal :=
  gangF 0x71 f s free fun x =>
    let v := x.usrc f.a .ui64 64
    x.branch f (if (v != 0) = (f.fn = 0) then x.c.lanes else 0)

def execJmpi (f : FForm) (s : State) : Host.Outcome State Fault Refusal :=
  gangF 0x72 f s free fun x =>
    let t := BitVec.ofNat 64 (x.usrc f.a .ui64 64)
    match badTarget t with
    | some code => x.fault x.s code 0xFF t.toNat
    | none => x.jump x.s fun _ => t

/-- Each lane's window base moved by the frames its gang names: the greatest top of the non-exited lanes (R49, R50). -/
def Gx.topOf (x : Gx) (wbOf : Nat → Lane → Nat) : Nat :=
  let tops := (lanesOf x.g.live).map fun i => match x.g.lane? i with
    | some l => if x.c.lanes.getLsbD i then wbOf i l else l.wb
    | none => 0
  segCeil (tops.foldl Nat.max 0 + x.budget)

/-- The link record of a frame (R179). -/
def linkRecord (fr : Nat) (ra : DWord) : Nat := fr * 2 ^ 57 + ra.toNat % 2 ^ 54 / 4 * 4

/-- A lane's new frame: its window base moved on by 8 × fr, and the link record in its v0:v1 (R49, R179). -/
def Group.linkLane (fr : Nat) (ra : DWord) (g : Group) (i : Nat) : Group :=
  let p := g.wb i + 8 * fr
  ((g.setV p i (BitVec.ofNat 32 (linkRecord fr ra))).setV (p + 1) i (BitVec.ofNat 32 (linkRecord fr ra / 2 ^ 32))).modLane i
    fun l => { l with wb := p }

/-- WindowCall (R49) and the link records (R179), to a target. -/
def Gx.call (x : Gx) (fr : Nat) (target : DWord) : State :=
  let f := 8 * fr
  if (lanesOf x.c.lanes).any fun i => x.g.wb i + f + x.budget > 2 ^ 22 then x.fault x.s fltRange
  else
    let top := x.topOf fun _ l => l.wb + f
    if top > x.g.sbot + x.g.nseg && top - x.g.sbot > x.g.bseg + x.g.hseg then
      let span := (lanesOf x.g.live).any fun i => x.g.wb i < 64 * (x.g.sbot + 1)
      x.trap
        (x.s.modGrp x.c.g fun g => { g with wspan := span }) trpOverflow 0 x.c.pc.toNat fun _ => x.c.pc
    else
      x.jump x.s (fun _ => target) fun g =>
        (lanesOf x.c.lanes).foldl (Group.linkLane fr (x.word + 8))
          { g with wspan := false, nseg := if top > g.sbot + g.nseg then top - g.sbot else g.nseg }

/-- The frame of CALL and CALLI: D holds f/8, 1 to 80, with f at most the budget (R49, R127). -/
def Gx.frameOk (f : FForm) (x : Gx) : Bool := 1 ≤ f.d.code && f.d.code ≤ 80 && 8 * f.d.code ≤ x.budget

def execCall (f : FForm) (s : State) : Host.Outcome State Fault Refusal :=
  gangF 0x73 f s (Gx.frameOk f) fun x =>
    let t := x.target f
    if !inSpace t then x.fault x.s fltRange 0xFF (wrapInt 64 t) else x.call f.d.code (BitVec.ofInt 64 t)

def execCalli (f : FForm) (s : State) : Host.Outcome State Fault Refusal :=
  gangF 0x74 f s (Gx.frameOk f) fun x =>
    let t := BitVec.ofNat 64 (x.usrc f.a .ui64 64)
    match badTarget t with
    | some code => x.fault x.s code 0xFF t.toNat
    | none => x.call f.d.code t

/-- A lane's v0:v1 as a link record; none where it is malformed (R180). -/
def Gx.linkOf (x : Gx) (i : Nat) : Option (Nat × DWord) :=
  let k := x.g.vsrc i 0 64
  let fr := k / 2 ^ 57
  if !(x.g.resident (x.g.wb i) && x.g.resident (x.g.wb i + 1)) || fr = 0 || 8 * fr > x.budget || k / 2 ^ 54 % 8 != 0 ||
    k % 4 != 0 || x.g.wb i < 8 * fr then none
  else some (8 * fr, BitVec.ofNat 64 (k % 2 ^ 54))

/-- WindowReturn's segments (R50). -/
def Group.shrink (g : Group) (top : Nat) : Group :=
  if top ≤ g.sbot then { g with sbot := top, nseg := 0 }.dropV
  else if top < g.sbot + g.nseg then { g with nseg := top - g.sbot }.dropV
  else g

def execRet (f : FForm) (s : State) : Host.Outcome State Fault Refusal :=
  gangF 0x75 f s free fun x =>
    let ls := lanesOf x.c.lanes
    match ls.find? fun i => (x.linkOf i).isNone with
    | some i => x.fault x.s fltOperand i
    | none =>
      let pcOf := fun i => match x.linkOf i with | some p => p.2 | none => 0
      let frOf := fun i => match x.linkOf i with | some p => p.1 | none => 0
      let top := x.topOf fun i l => l.wb - frOf i
      let t := x.jump x.s pcOf fun g =>
        (ls.foldl (fun g i => g.modLane i fun l => { l with wb := l.wb - frOf i }) g).shrink top
      let low := match t.grp? x.c.g with
        | some g => ls.any fun i => g.wb i < 64 * g.sbot
        | none => false
      if low then x.trap t trpUnderflow 0 (pcOf x.low).toNat pcOf else t

/-- LOOP (R178): a counter that is zero is left as it is. -/
def execLoop (f : FForm) (s : State) : Host.Outcome State Fault Refusal :=
  gangF 0x7F f s free fun x =>
    let v := x.usrc f.d .ui64 64
    x.branch f (if v > 1 then x.c.lanes else 0) fun g => if v = 0 then g else x.putS f.d (BitVec.ofNat 64 (v - 1)) g

/-! ### Rejoining and ending -/

/-- What a lane waits on. -/
def Group.waitOf (g : Group) (i : Nat) : Wait := match g.lane? i with | some l => l.wait | none => .none

/-- The lanes that JOIN's wait of a lane needs are all there (R30). -/
def Group.joined (g : Group) (i : Nat) : Bool :=
  match g.lane? i with
  | some l => match l.wait with
    | .join m => (lanesOf (m &&& g.live)).all fun j => match g.lane? j with
        | some k => k.pc = l.pc && k.wb = l.wb && (match k.wait with | .join _ => true | _ => false)
        | none => false
    | _ => false
  | none => false

/-- The lanes that a completed JOIN of a lane names proceed as one gang (R30): JOIN is eight bytes long. DESIGN CHOICE
(log 57): where they came with different masks, a lane whose own mask names lanes that have not come waits on. -/
def Group.joinGo (g : Group) (i : Nat) : Group :=
  match g.waitOf i with
  | .join m => g.modLanes (m &&& maskOf ((List.range 32).filter g.joined)) fun l => { l with pc := l.pc + 8, wait := .none }
  | _ => g

/-- Lanes that the mask does not name pass; the named ones wait until all are there (R30). -/
def execJoin (f : FForm) (s : State) : Host.Outcome State Fault Refusal :=
  gangF 0x76 f s free fun x =>
    let m := match f.a with | .m n => x.mask n | _ => 0
    x.s.modGrp x.c.g fun g =>
      let h := (g.modLanes (x.c.lanes &&& ~~~m) fun l => { l with pc := x.next, wait := .none }).modLanes (x.c.lanes &&& m)
        fun l => { l with wait := .join m }
      let i := lowest (x.c.lanes &&& m)
      if h.joined i then h.joinGo i else h

/-- Every non-exited lane of the group waits at the barrier (R182). -/
def Group.at_ (g : Group) (cluster : Bool) (n : Nat) : Bool :=
  let w : Wait := if cluster then .cbar n else .bar n
  g.stop.isNone && g.live != 0 && (lanesOf g.live).all fun i => match g.lane? i with | some l => l.wait = w && !l.stopped | none => false

/-- The masks of arrived groups brought up to date (R182, R369). -/
def Team.noteArrivals (t : Team) : Team :=
  let upd := fun (cluster : Bool) (ms : List Word) => ms.mapIdx fun n m =>
    m ||| maskOf ((List.range t.groups.length).filter fun k => match t.groups[k]? with
      | some g => g.at_ cluster n
      | none => false)
  { t with bars := upd false t.bars, cbars := upd true t.cbars }

/-- EXIT waits for the group's stores (R181, R265, R362); an exited lane leaves every wait. -/
def execExit (f : FForm) (s : State) : Host.Outcome State Fault Refusal :=
  gangF 0x77 f s free fun x => x.release true fun t =>
    (t.modGrp x.c.g fun g => g.modLanes x.c.lanes fun l => { l with exited := true, wait := .none }).modTeam x.c.g.team
      Team.noteArrivals

/-! ### Barriers -/

/-- BAR and CBAR (R182): the group's stores are performed, and the lanes wait. -/
def barF (op : Nat) (cluster : Bool) (f : FForm) (s : State) : Host.Outcome State Fault Refusal :=
  let n := f.b.immOf.toNat
  gangF op f s (fun _ => n < 16) fun x => x.release false fun t =>
    (x.waitIn t (if cluster then .cbar n else .bar n)).modTeam x.c.g.team Team.noteArrivals

def execBar (f : FForm) (s : State) : Host.Outcome State Fault Refusal := barF 0x78 false f s

def execCbar (f : FForm) (s : State) : Host.Outcome State Fault Refusal := barF 0x79 true f s

/-! ### Waits -/

/-- The address of a lane's completion word (R183): a uniform register, or an even pair. -/
def Gx.seqAddr (x : Gx) (f : FForm) (l : Nat) : Nat := x.src l f.a .ui64 64

/-- WAITSEQ (R183): satisfied lanes proceed, the others wait; each sees its group's own stores (R262). -/
def execWaitseq (f : FForm) (s : State) : Host.Outcome State Fault Refusal :=
  gangF 0x7A f s free fun x =>
    let n := f.ty.size
    let ls := lanesOf x.c.lanes
    x.memGo (ls.map fun l => { lane := l, va := x.seqAddr f l, size := n, need := .r }) fun ps =>
      let val := fun l => x.srcBz l f.b f.ty f.ty.bits
      let ok := maskOf ((ps.filter fun p => seqReached (8 * n) (x.loadNat x.s p.2 n) (val p.1.lane)).map fun p => p.1.lane)
      let t := x.s.modGrp x.c.g fun g =>
        { g with lanes := g.lanes.mapIdx fun i l =>
            if ok.getLsbD i then { l with pc := x.next, wait := .none }
            else if x.c.lanes.getLsbD i then
              { l with wait := .seq (BitVec.ofNat 64 (x.seqAddr f i)) (n = 8) (BitVec.ofNat 64 (val i)), since := s.cycle }
            else l }
      x.touched t 0 ps false

/-- SLEEP (R184, R200): B as a duration, a deadline, or a promise. -/
def execSleep (f : FForm) (s : State) : Host.Outcome State Fault Refusal :=
  gangF 0x7B f s free fun x =>
    let b := match f.b with | .imm i => i.toNat | b => x.usrcB b .ui64 64
    if b / 2 ^ 63 = 1 then
      if b % 2 ^ 60 = 2 ^ 60 - 1 then x.done x.s id
      else x.waitIn x.s (.sleep (b % 2 ^ 60) (some (b / 2 ^ 60 % 8)))
    else x.waitIn x.s (.sleep (if f.fn = 1 then b else x.s.cycle + b) none)

/-! ### Priority -/

/-- PAUSE (R34): paused for the next 32 core cycles. -/
def execPause (f : FForm) (s : State) : Host.Outcome State Fault Refusal :=
  gangF 0x7C f s free fun x =>
    x.done x.s fun g => g.modLanes x.c.lanes fun l => { l with paused := x.s.core + 33 }

/-- SETPRI (R185): a uniform value above 15 faults and changes nothing. -/
def execSetpri (f : FForm) (s : State) : Host.Outcome State Fault Refusal :=
  gangF 0x7D f s (fun _ => match f.b with | .imm i => i.toNat < 16 | _ => true) fun x =>
    let b := match f.b with | .imm i => i.toNat | b => x.usrcB b .ui64 64
    if b > 15 then x.fault x.s fltOperand else x.done x.s fun g => { g with pri := b }

/-- YIELD (R185): not ready for the next core cycle. -/
def execYield (f : FForm) (s : State) : Host.Outcome State Fault Refusal :=
  gangF 0x7E f s free fun x =>
    (x.done x.s fun g => { g with aged := false, lastIss := x.s.core }).modGrp x.c.g fun g =>
      g.modLanes x.c.lanes fun l => { l with wait := .yield (x.s.core + 2) }

end Sys2Proof.Machine
end

