-- ==== Sys2Proof/Machine/Integer.lean ====
section
/-! DEFINITION. Integer, logic, shift, bit-field, compare, select, address and constant instructions (R138 to R147). -/

namespace Sys2Proof.Machine

open Sys2Proof

/-- Operands A, B and C of a lane at the width of the type (R134). -/
def Gx.va (x : Gx) (f : FForm) (l : Nat) : Nat := x.src l f.a f.ty f.ty.bits
def Gx.vb (x : Gx) (f : FForm) (l : Nat) : Nat := x.srcB l f.b f.ty f.ty.bits
def Gx.vbz (x : Gx) (f : FForm) (l : Nat) : Nat := x.srcBz l f.b f.ty f.ty.bits
def Gx.vc (x : Gx) (f : FForm) (l : Nat) : Nat := x.src l f.c f.ty f.ty.bits

/-- An integer result of two operands' exact values, modulo 2^w (R138). -/
def intOp (t : Ty) (op : Int → Int → Int) (a b : Nat) : Nat := wrapInt t.bits (op (t.intVal a) (t.intVal b))

/-- IDIV and IREM (R139). -/
def divOp (t : Ty) (a b : Nat) : Nat :=
  let x := t.intVal a
  let y := t.intVal b
  if y = 0 then 2 ^ t.bits - 1 else wrapInt t.bits (x.tdiv y)
def remOp (t : Ty) (a b : Nat) : Nat :=
  let x := t.intVal a
  let y := t.intVal b
  if y = 0 then wrapInt t.bits x else wrapInt t.bits (x.tmod y)

/-- Shifts by n = B[7:0] on w bits (R141). -/
def shlOp (w a b : Nat) : Nat := let n := b % 256; if n < w then a * 2 ^ n % 2 ^ w else 0
def shrOp (w a b : Nat) : Nat := let n := b % 256; if n < w then a / 2 ^ n else 0
def sarOp (t : Ty) (a b : Nat) : Nat :=
  let n := b % 256
  wrapInt t.bits (t.intVal a / (2 ^ (if n < t.bits then n else t.bits) : Int))
def rotOp (w a b : Nat) : Nat := let n := b % 256 % w; (a * 2 ^ n + a / 2 ^ (w - n)) % 2 ^ w

/-- BFE (R142): bits beyond the width are zero, or copies of the sign for a signed type. -/
def bfeOp (t : Ty) (a b : Nat) : Nat :=
  let w := t.bits
  let p := b % 256
  let n := Nat.min (b / 256 % 256) w
  if n = 0 then 0
  else if t.signed then
    let y := (t.intVal a / (2 ^ p : Int)) % (2 ^ n : Int)
    wrapInt w (if y ≥ 2 ^ (n - 1) then y - 2 ^ n else y)
  else a / 2 ^ p % 2 ^ n

/-- BFI (R142): the low n bits of A inserted into C at p. -/
def bfiOp (w a b c : Nat) : Nat :=
  let p := b % 256
  let n := Nat.min (b / 256 % 256) w
  let hi := Nat.min (p + n) w
  if p ≥ w then c
  else c % 2 ^ p + a % 2 ^ (hi - p) * 2 ^ p + c / 2 ^ hi * 2 ^ hi

/-- Bits of a number, w of them, counted, and reversed (R143). -/
def popOp (w a : Nat) : Nat := ((List.range w).filter a.testBit).length
def clzOp (w a : Nat) : Nat := w - bitLen a
def brevOp (w a : Nat) : Nat := ((List.range w).filter a.testBit).foldl (fun r i => r + 2 ^ (w - 1 - i)) 0

/-- LEA (R146). -/
def leaOp (fn a b : Nat) : Nat := wrapInt 64 ((a : Int) + Ty.i32.intVal b * 2 ^ fn)

/-- A 16-bit quarter replaced (R147, R175). -/
def quarter (fn v i : Nat) : Nat := v % 2 ^ (16 * fn) + i % 65536 * 2 ^ (16 * fn) + v / 2 ^ (16 * fn + 16) * 2 ^ (16 * fn + 16)

def execNop (f : FForm) (s : State) : Host.Outcome State Fault Refusal := gangF 0x00 f s free fun x => x.done x.s id

def execIadd (f : FForm) (s : State) : Host.Outcome State Fault Refusal :=
  vecF 0x01 f s fun x l => intOp f.ty (· + ·) (x.va f l) (x.vb f l)

def execIsub (f : FForm) (s : State) : Host.Outcome State Fault Refusal :=
  vecF 0x02 f s fun x l => intOp f.ty (· - ·) (x.va f l) (x.vb f l)

def execImul (f : FForm) (s : State) : Host.Outcome State Fault Refusal :=
  vecF 0x03 f s fun x l => intOp f.ty (· * ·) (x.va f l) (x.vb f l)

/-- The high half of the exact product. -/
def execImulh (f : FForm) (s : State) : Host.Outcome State Fault Refusal :=
  vecF 0x04 f s fun x l => intOp f.ty (fun a b => a * b / 2 ^ f.ty.bits) (x.va f l) (x.vb f l)

def execImad (f : FForm) (s : State) : Host.Outcome State Fault Refusal :=
  vecF 0x05 f s fun x l => intOp f.ty (fun a b => a * b + f.ty.intVal (x.vc f l)) (x.va f l) (x.vb f l)

def execIdiv (f : FForm) (s : State) : Host.Outcome State Fault Refusal :=
  vecF 0x06 f s fun x l => divOp f.ty (x.va f l) (x.vb f l)

def execIrem (f : FForm) (s : State) : Host.Outcome State Fault Refusal :=
  vecF 0x07 f s fun x l => remOp f.ty (x.va f l) (x.vb f l)

def execImin (f : FForm) (s : State) : Host.Outcome State Fault Refusal :=
  vecF 0x08 f s fun x l => intOp f.ty (fun a b => if a ≤ b then a else b) (x.va f l) (x.vb f l)

def execImax (f : FForm) (s : State) : Host.Outcome State Fault Refusal :=
  vecF 0x09 f s fun x l => intOp f.ty (fun a b => if a ≤ b then b else a) (x.va f l) (x.vb f l)

def execIabs (f : FForm) (s : State) : Host.Outcome State Fault Refusal :=
  vecF 0x0A f s fun x l => intOp f.ty (fun a _ => a.natAbs) (x.va f l) 0

def execIneg (f : FForm) (s : State) : Host.Outcome State Fault Refusal :=
  vecF 0x0B f s fun x l => intOp f.ty (fun a _ => -a) (x.va f l) 0

def execAnd (f : FForm) (s : State) : Host.Outcome State Fault Refusal :=
  vecF 0x0C f s fun x l => x.va f l &&& x.vb f l

def execOr (f : FForm) (s : State) : Host.Outcome State Fault Refusal :=
  vecF 0x0D f s fun x l => x.va f l ||| x.vb f l

def execXor (f : FForm) (s : State) : Host.Outcome State Fault Refusal :=
  vecF 0x0E f s fun x l => x.va f l ^^^ x.vb f l

def execAndn (f : FForm) (s : State) : Host.Outcome State Fault Refusal :=
  vecF 0x0F f s fun x l => x.va f l &&& (2 ^ f.ty.bits - 1 - x.vb f l)

def execNot (f : FForm) (s : State) : Host.Outcome State Fault Refusal :=
  vecF 0x10 f s fun x l => 2 ^ f.ty.bits - 1 - x.va f l

def execShl (f : FForm) (s : State) : Host.Outcome State Fault Refusal :=
  vecF 0x11 f s fun x l => shlOp f.ty.bits (x.va f l) (x.vbz f l)

def execShr (f : FForm) (s : State) : Host.Outcome State Fault Refusal :=
  vecF 0x12 f s fun x l => shrOp f.ty.bits (x.va f l) (x.vbz f l)

def execSar (f : FForm) (s : State) : Host.Outcome State Fault Refusal :=
  vecF 0x13 f s fun x l => sarOp f.ty (x.va f l) (x.vbz f l)

def execRot (f : FForm) (s : State) : Host.Outcome State Fault Refusal :=
  vecF 0x14 f s fun x l => rotOp f.ty.bits (x.va f l) (x.vbz f l)

def execBfe (f : FForm) (s : State) : Host.Outcome State Fault Refusal :=
  vecF 0x15 f s fun x l => bfeOp f.ty (x.va f l) (x.vbz f l)

def execBfi (f : FForm) (s : State) : Host.Outcome State Fault Refusal :=
  vecF 0x16 f s fun x l => bfiOp f.ty.bits (x.va f l) (x.vbz f l) (x.vc f l)

def execPopc (f : FForm) (s : State) : Host.Outcome State Fault Refusal :=
  vecF 0x17 f s fun x l => popOp f.ty.bits (x.va f l)

def execClz (f : FForm) (s : State) : Host.Outcome State Fault Refusal :=
  vecF 0x18 f s fun x l => clzOp f.ty.bits (x.va f l)

def execBrev (f : FForm) (s : State) : Host.Outcome State Fault Refusal :=
  vecF 0x19 f s fun x l => brevOp f.ty.bits (x.va f l)

def execIcmp (f : FForm) (s : State) : Host.Outcome State Fault Refusal :=
  maskF 0x1A f s fun x l => icmpBit f.fn f.ty (x.va f l) (x.vb f l)

/-- The mask register that C names (R145). -/
def Gx.maskC (x : Gx) (f : FForm) : Word := match f.c with | .m n => x.mask n | _ => 0

def execSel (f : FForm) (s : State) : Host.Outcome State Fault Refusal :=
  vecF 0x1B f s fun x l => if (x.maskC f).getLsbD l then x.va f l else x.vb f l

/-- The sum clamped to the type's range. -/
def execIadds (f : FForm) (s : State) : Host.Outcome State Fault Refusal :=
  vecF 0x1C f s fun x l => intOp f.ty (fun a b => clampInt (a + b) f.ty.minInt f.ty.maxInt) (x.va f l) (x.vb f l)

def execIsubs (f : FForm) (s : State) : Host.Outcome State Fault Refusal :=
  vecF 0x1D f s fun x l => intOp f.ty (fun a b => clampInt (a - b) f.ty.minInt f.ty.maxInt) (x.va f l) (x.vb f l)

/-- B is a 32-bit index, IMM16 sign-extended (R146). -/
def execLea (f : FForm) (s : State) : Host.Outcome State Fault Refusal :=
  vecF 0x1E f s fun x l => leaOp f.fn (x.va f l) (x.srcB l f.b .i32 32)

def execMov (f : FForm) (s : State) : Host.Outcome State Fault Refusal := vecF 0x1F f s fun x l => x.va f l

def execLil (f : FForm) (s : State) : Host.Outcome State Fault Refusal := vecF 0x20 f s fun x l => x.vb f l

/-- One quarter of the destination, every other bit kept (R147). -/
def execLih (f : FForm) (s : State) : Host.Outcome State Fault Refusal :=
  vecF 0x21 f s fun x l => quarter f.fn (x.src l f.d f.ty f.ty.bits) (x.vbz f l)

end Sys2Proof.Machine
end

