-- ==== Sys2Proof/Machine/Records.lean ====
section
/-! DEFINITION. Shape records, handles and element addresses (R81 to R86). The bytes of a slot's record lie at SHTAB + 128 ×
slot; its generation and use are the slot's own (R84). -/

namespace Sys2Proof.Machine

open Sys2Proof

/-- A signed 64-bit value. -/
def int64 (n : Nat) : Int := (BitVec.ofNat 64 n).toInt

/-- The record that 128 bytes hold (R81). -/
def ShapeRec.ofBytes (b : List Byte) : ShapeRec :=
  let at_ := fun (o n : Nat) => leNat ((b.drop o).take n)
  { base := at_ 0 8, fmt := at_ 8 1, rank := at_ 9 1, sfmt := at_ 10 1, flags := at_ 11 1
    dims := (List.range 5).map fun i => at_ (0x10 + 4 * i) 4
    str := (List.range 5).map fun i => int64 (at_ (0x28 + 8 * i) 8)
    sbase := at_ 0x50 8
    sstr := (List.range 4).map fun i => int64 (at_ (0x58 + 8 * i) 8)
    tile0 := at_ 0x78 2, tile1 := at_ 0x7A 2 }

/-- The block format of a record (R81). -/
def ShapeRec.blk (r : ShapeRec) : Option BlkFmt :=
  BlkFmt.ofCode r.fmt

/-- The element type of a record that is not a block format. -/
def ShapeRec.ty (r : ShapeRec) : Ty := Ty.ofCode r.fmt

/-- Bits of an element. -/
def ShapeRec.bits (r : ShapeRec) : Nat := match r.blk with | some f => f.width | none => r.ty.bits

def ShapeRec.dim (r : ShapeRec) (d : Nat) : Nat := r.dims.getD d 1

/-- Virtual address of an element's first byte (R82). -/
def ShapeRec.addr (r : ShapeRec) (ix : List Nat) : Nat :=
  let outer : Int := ((List.range 5).drop 1).foldl (fun a d => a + (ix.getD d 0 : Int) * r.str.getD d 0) 0
  let inner : Int := match r.blk with
    | some f => ((ix.getD 0 0 * f.width / 8 : Nat) : Int)
    | none => (ix.getD 0 0 : Int) * r.str.getD 0 0
  wrapInt 64 (r.base + outer + inner)

/-- Virtual address of an element's scale (R82). -/
def ShapeRec.scaleAddr (r : ShapeRec) (ix : List Nat) : Nat :=
  let outer : Int := (List.range 4).foldl (fun a d => a + (ix.getD (d + 1) 0 : Int) * r.sstr.getD d 0) 0
  wrapInt 64 (r.sbase + outer + ((ix.getD 0 0 / 32 : Nat) : Int))

/-- The must-be-zero bytes of a record; GEN is the hardware's (R81). -/
def recZeros (b : List Byte) : Bool :=
  let at_ := fun (o n : Nat) => leNat ((b.drop o).take n)
  at_ 0 8 < 2 ^ 54 && at_ 11 1 < 8 && at_ 0x0C 2 < 2 ^ 12 && at_ 0x0E 2 = 0 && at_ 0x24 4 = 0 && at_ 0x7C 4 = 0

/-- SHDEF's rules for a record (R82, R83). -/
def ShapeRec.valid (r : ShapeRec) (b : List Byte) : Bool :=
  recZeros b && (r.fmt ≤ 0x0E || (0x10 ≤ r.fmt && r.fmt ≤ 0x13)) && 1 ≤ r.rank && r.rank ≤ 5 &&
  r.dims.all (· != 0) &&
  (if r.blk.isSome then r.sfmt = 1 && r.dim 0 % 32 = 0 && r.str.getD 0 0 = 0
   else r.sfmt = 0 && r.str.getD 0 0 = r.ty.size) &&
  ((List.range 5).all fun d => d < r.rank || (r.dim d = 1 && r.str.getD d 0 = 0 && (d = 0 || r.sstr.getD (d - 1) 0 = 0))) &&
  1 ≤ r.tile0 && r.tile0 ≤ 256 && 1 ≤ r.tile1 && r.tile1 ≤ 256

/-- A feature the record names is off (R83). -/
def ShapeRec.featureOff (r : ShapeRec) (feat : Nat) : Bool :=
  (r.fmt = 0x11 && field feat 2 1 = 0) || (r.flags % 2 = 1 && field feat 5 1 = 0) ||
  (r.flags / 2 % 2 = 1 && field feat 3 1 = 0)

/-- A slot as it stands: generation 1 and free until it is first used (R84). -/
def Ctx.slot (x : Ctx) (n : Nat) : Slot := (aget x.slots n).getD { gen := 1, used := false, decl := [], held := 0 }

/-- The physical address of a slot's record. -/
def Ctx.recAt (x : Ctx) (n : Nat) : Nat := x.shtab + 128 * n

/-- A handle's slot number, where the handle is current (R84, R85). -/
def State.handleSlot (s : State) (c h : Nat) : Option Nat :=
  match s.ctx? c with
  | none => none
  | some x =>
    let n := h % 2 ^ 20
    let p := x.slot n
    if n < x.shslots && p.used && p.gen = h / 2 ^ 20 % 2 ^ 12 then some n else none

/-- The record of a current handle (R85). -/
def State.handle (s : State) (c h : Nat) : Option (Nat × ShapeRec) :=
  match s.handleSlot c h, s.ctx? c with
  | some n, some x => some (n, ShapeRec.ofBytes (s.bytesAt (x.recAt n) 128))
  | _, _ => none

def State.modSlot (s : State) (c n : Nat) (f : Slot → Slot) : State :=
  s.modCtx c fun x => { x with slots := aset x.slots n (f (x.slot n)) }

end Sys2Proof.Machine
end

