-- ==== Sys2Proof/Machine/LoadStore.lean ====
section
/-! DEFINITION. Loads, stores, atomics, fences and cache control (R187 to R195). -/

namespace Sys2Proof.Machine

open Sys2Proof

/-! ### Global loads and stores -/

/-- The enabled lanes with and without a region open. -/
def Gx.plainLanes (x : Gx) : List Nat := lanesOf (x.en &&& ~~~x.g.inRegion)
def Gx.regionLanes (x : Gx) : List Nat := lanesOf (x.en &&& x.g.inRegion)

/-- The accesses by which region lanes have loaded lines, once their regions have moved on (R212, R255). -/
def Gx.regionLoaded (x y : Gx) (ws : List Want) : List (Want × Leaf) :=
  ws.filterMap fun w => match x.chk x.s w, (y.g.lane? w.lane).bind Lane.region with
    | .ok l, some r => if (l.lines w.size).all r.loaded.contains then some (w, l) else none
    | _, _ => none

def execLd (f : FForm) (s : State) : Host.Outcome State Fault Refusal :=
  gangF 0x80 f s free fun x =>
    let n := f.ty.size
    let want := fun l => ({ lane := l, va := x.ea f l, size := n, need := .r, xf := f.x } : Want)
    x.memGo (x.plainLanes.map want) fun ls =>
      let pos := fun l => x.rd.wb l + (match f.d with | .v i => i | _ => 0)
      let load := fun (w : Want) (r : Region) (p : Leaf) => match f.d with
        | .v _ => x.regionLoad f w.lane r p w.va (pos w.lane)
        | _ => match x.regionLoad f w.lane r p w.va 0 with
          | .go q v => .go { q with tags := r.tags } v
          | y => y
      x.regionGo (x.regionLanes.map want) load fun y rs =>
        let vals := ls.map (fun p => (p.1.lane, x.loadNat x.s p.2 n)) ++ rs
        let t := y.done y.s (y.put f.d f.z f.ty fun l => ((vals.find? fun p => p.1 == l).map Prod.snd).getD 0)
        x.touched t f.x (ls ++ x.regionLoaded y (x.regionLanes.map want)) false

/-- The data that a lane stores: the low bytes of D, or of the pair (R187). -/
def Gx.dataOf (x : Gx) (f : FForm) (l : Nat) : Nat := x.src l f.d f.ty f.ty.bits

def execSt (f : FForm) (s : State) : Host.Outcome State Fault Refusal :=
  gangF 0x81 f s free fun x =>
    let n := f.ty.size
    let want := fun l => ({ lane := l, va := x.ea f l, size := n, need := .w, xf := f.x, halves := none } : Want)
    x.memGo (x.plainLanes.map want) fun ls =>
      let store := fun (w : Want) (r : Region) (p : Leaf) => x.regionStore f w.lane r p w.va (x.dataOf f w.lane)
      x.regionGo (x.regionLanes.map want) store fun y _ =>
        match y.storeAll y.s f.x (ls.map fun p => (p.1, p.2, leBytes n (x.dataOf f p.1.lane))) with
        | none => x.stall x.s0
        | some t => y.done t id

/-! ### Scratchpad -/

/-- The scratchpad address of a lane: a vector base is one 32-bit register (R188). -/
def Gx.scratchEa (x : Gx) (f : FForm) (l : Nat) : Nat :=
  let base := match f.a with | .v i => x.rd.vsrc l i 32 | _ => x.eaBase f l
  wrapInt 32 (base + x.eaOff f l)

/-- Check of a scratchpad address (R186, R188): the fault, or the team and offset. -/
def Gx.scratchChk (x : Gx) (s : State) (addr n : Nat) : Except Nat (Nat × Nat) :=
  if addr % n != 0 then .error fltAlign
  else match s.scratchAt x.t addr n with
    | some p => .ok p
    | none => .error fltScratch

/-- Every enabled lane's scratchpad address checked before any access (R186). -/
def Gx.scratchGo (x : Gx) (addrOf : Nat → Nat) (n : Nat) (k : List (Nat × Nat × Nat) → State) : State :=
  let cs := (lanesOf x.en).map fun l => (l, x.scratchChk x.s (addrOf l) n)
  match cs.find? fun p => match p.2 with | .error _ => true | .ok _ => false with
  | some (l, .error code) => x.fault x.s code l (addrOf l)
  | _ => k (cs.filterMap fun p => match p.2 with | .ok q => some (p.1, q.1, q.2) | .error _ => none)

def execLds (f : FForm) (s : State) : Host.Outcome State Fault Refusal :=
  gangF 0x82 f s free fun x => x.scratchGo (x.scratchEa f) f.ty.size fun ps =>
    x.done x.s (x.put f.d f.z f.ty fun l =>
      match ps.find? fun p => p.1 == l with
      | some p => x.s.scratchNat p.2.1 p.2.2 f.ty.size
      | none => 0)

def execSts (f : FForm) (s : State) : Host.Outcome State Fault Refusal :=
  gangF 0x83 f s free fun x => x.scratchGo (x.scratchEa f) f.ty.size fun ps =>
    x.done (ps.foldl (fun s p => s.scratchWrite p.2.1 p.2.2 (leBytes f.ty.size (x.dataOf f p.1))) x.s) id

/-! ### Arguments -/

/-- A byte of the launch's argument block; beyond ARGSIZE it is zero (R189). -/
def Gx.argByte (x : Gx) (o : Nat) : Byte :=
  match aget x.s.launches x.t.launch with
  | some l => if o < x.t.kern.argsize then l.args.getD o 0 else 0
  | none => 0

def execLdk (f : FForm) (s : State) : Host.Outcome State Fault Refusal :=
  gangF 0x84 f s (fun _ => f.b.immOf.toNat < 4096) fun x =>
    let o := f.b.immOf.toNat
    if o % f.ty.size != 0 then x.fault x.s fltAlign (lowest x.en) o
    else x.done x.s (x.put f.d f.z f.ty fun _ => leNat ((span o f.ty.size).map x.argByte))

/-! ### Tensors -/

/-- The indices of a lane's element (R190). -/
def Gx.indices (x : Gx) (f : FForm) (rank l : Nat) : List Nat :=
  match f.b with
  | .reg (.v i) => (List.range rank).map fun k => x.rd.vsrc l (i + k) 32
  | _ => []

/-- The element width of a record as LDT and STT move it: an FP32 for a block format (R190). -/
def ShapeRec.lanesTy (r : ShapeRec) : Ty := if r.blk.isSome then .f32 else r.ty

/-- The checks LDT and STT share: the handle, the index vector within the budget, an even pair for a 64-bit format (R85,
R190). An index that is not below its dimension faults its lane once every lower lane has passed (R186). -/
def Gx.tensor (x : Gx) (f : FForm) (store : Bool) (wants : ShapeRec → Nat → List Want)
    (k : ShapeRec → List (Want × Leaf) → State) : State :=
  match x.s.handle x.t.ctx (x.usrc f.a .ui64 64 % 2 ^ 32) with
  | none => x.fault x.s fltStale
  | some (_, r) =>
    let b := match f.b with | .reg (.v i) => i | _ => 0
    let wide := r.lanesTy.is64
    let dOk := match f.d with | .v i => !wide || (i % 2 = 0 && i + 1 < x.budget) | _ => true
    if b + r.rank > x.budget || !dOk || (store && r.blk.isSome) then x.fault x.s fltOperand
    else
      let past := (lanesOf x.en).find? fun l => ((x.indices f r.rank l).zip r.dims).any fun p => p.1 ≥ p.2
      let ls := (lanesOf x.en).filter fun l => match past with | some o => l < o | none => true
      x.memGo (ls.flatMap (wants r)) fun ps => match past with
        | some l => x.fault x.s fltRange l
        | none => k r ps

/-- The bytes of an element that LDT reads, with its scale last for a block format: an O4 element needs its pair (R75). -/
def ShapeRec.pieces (r : ShapeRec) (ix : List Nat) : List (Nat × Nat) :=
  match r.blk with
  | none => [(r.addr ix, r.ty.size)]
  | some .o4 => let a := r.addr (ix.set 0 (ix.getD 0 0 / 4 * 4)); [(a, 1), (a + 1, 1), (r.scaleAddr ix, 1)]
  | some _ => [(r.addr ix, 1), (r.scaleAddr ix, 1)]

/-- The element that the pieces read make: decoded times its scale and rounded to FP32 for a block format (R73, R190). -/
def ShapeRec.element (r : ShapeRec) (i : Nat) (vs : List Nat) : Nat :=
  let fp := fun (x : FV) (sc : Nat) =>
    if sc = 255 then 0x7FC00000 else Fmt.f32.round .rne false 0 (x.scale ((sc : Int) - 127))
  match r.blk with
  | none => vs.getD 0 0
  | some .o4 => fp ((o4Pair (vs.getD 0 0) (vs.getD 1 0)).getD (i % 4) .nan) (vs.getD 2 0)
  | some .mxfp4 => fp (Fmt.e2m1.dec (vs.getD 0 0 / 16 ^ (i % 2) % 16)) (vs.getD 1 0)
  | some b => fp (b.elem.dec (vs.getD 0 0)) (vs.getD 1 0)

def execLdt (f : FForm) (s : State) : Host.Outcome State Fault Refusal :=
  gangF 0x85 f s free fun x =>
    let one := fun (r : ShapeRec) (l : Nat) => (r.pieces (x.indices f r.rank l)).map fun p =>
      ({ lane := l, va := p.1, size := p.2, need := .r, xf := f.x } : Want)
    x.tensor f false one fun r ls =>
      let val := fun (l : Nat) =>
        r.element ((x.indices f r.rank l).getD 0 0)
          ((ls.filter fun p => p.1.lane == l).map fun p => x.loadNat x.s p.2 p.1.size)
      x.touched (x.done x.s (x.put f.d f.z r.lanesTy val)) f.x ls false

def execStt (f : FForm) (s : State) : Host.Outcome State Fault Refusal :=
  gangF 0x86 f s free fun x =>
    let one := fun (r : ShapeRec) (l : Nat) =>
      [({ lane := l, va := r.addr (x.indices f r.rank l), size := r.ty.size, need := .w, xf := f.x, halves := none } : Want)]
    x.tensor f true one fun r ls =>
      match x.storeAll x.s f.x (ls.map fun p => (p.1, p.2, leBytes r.ty.size (x.src p.1.lane f.d r.ty r.ty.bits))) with
      | none => x.stall x.s0
      | some t => x.done t id

/-! ### Atomics -/

/-- The new value of ATOM and ATOMS (R191). -/
def atomNew (fn : Nat) (t : Ty) (old c : Nat) : Nat :=
  match fn with
  | 0 => intOp t (· + ·) old c
  | 1 => intOp t (fun a b => if a ≤ b then a else b) old c
  | 2 => intOp t (fun a b => if a ≤ b then b else a) old c
  | 3 => old &&& c
  | 4 => old ||| c
  | 5 => old ^^^ c
  | 6 => c
  | _ => Fmt.f32.round .rne false 0 (FV.add false (Fmt.f32.dec old) (Fmt.f32.dec c))

/-- Accesses that read and write in place, after the group's own stores to their lines. -/
def Gx.inPlace (x : Gx) (ls : List (Want × Leaf)) (k : State → State) : State :=
  match x.s.drainFor x.c.g ls with
  | .done t => k t
  | .wait t => x.stall t

/-- One lane's read-modify-write of memory: the old value, and the state with the new one. On a notify page it reads zero and
writes nothing (R404). -/
def State.rmw (s : State) (a : Acc) (l : Leaf) (n : Nat) (f : Nat → Nat) : Nat × State :=
  if l.mxa.isNone && notifyPa l.pa then (0, s)
  else
  let old := leNat (s.leafBytes a l n)
  let t := s.store a l (located 0 (leBytes n (f old)))
  (old, if Config.hostBase ≤ l.pa then t.dirtyHalves (halvesOf l.pa n) else t)

/-- Lanes applied in increasing order (R191, R192): `new` takes the lane and the old value. -/
def Gx.rmwAll (x : Gx) (s : State) (ls : List (Want × Leaf)) (new : Nat → Nat → Nat) : List (Nat × Nat) × State :=
  let a := s.acc x.t
  ls.foldl (fun p q =>
    let r := p.2.rmw a q.2 q.1.size (new q.1.lane)
    (p.1 ++ [(q.1.lane, r.1)], r.2)) ([], s)

/-- ATOM and CAS (R191, R192). -/
def atomF (op : Nat) (f : FForm) (s : State) (new : Gx → Nat → Nat → Nat) : Host.Outcome State Fault Refusal :=
  gangF op f s free fun x =>
    let want := fun l => ({ lane := l, va := x.ea f l, size := f.ty.size, need := .rw, xf := f.x, atomic := true, halves := some true } : Want)
    x.memGo ((lanesOf x.en).map want) fun ls => x.inPlace ls fun t =>
      let r := x.rmwAll t ls (new x)
      x.touched (x.done r.2 (x.put f.d f.z f.ty fun l => (aget r.1 l).getD 0)) f.x ls true

/-- Lanes of a scratchpad atomic in increasing order. -/
def Gx.rmwScratch (_x : Gx) (s : State) (n : Nat) (ps : List (Nat × Nat × Nat)) (new : Nat → Nat → Nat) :
    List (Nat × Nat) × State :=
  ps.foldl (fun r p =>
    let old := r.2.scratchNat p.2.1 p.2.2 n
    (r.1 ++ [(p.1, old)], r.2.scratchWrite p.2.1 p.2.2 (leBytes n (new p.1 old)))) ([], s)

/-- ATOMS and CASS (R191, R192). -/
def atomSF (op : Nat) (f : FForm) (s : State) (new : Gx → Nat → Nat → Nat) : Host.Outcome State Fault Refusal :=
  gangF op f s free fun x => x.scratchGo (x.scratchEa f) f.ty.size fun ps =>
    let r := x.rmwScratch x.s f.ty.size ps (new x)
    x.done r.2 (x.put f.d f.z f.ty fun l => (aget r.1 l).getD 0)

/-- CAS: the incoming D where the element equals C bit for bit (R192). -/
def casNew (f : FForm) (x : Gx) (l old : Nat) : Nat := if old = x.vc f l then x.dataOf f l else old

def execAtom (f : FForm) (s : State) : Host.Outcome State Fault Refusal :=
  atomF 0x87 f s fun x l old => atomNew f.fn f.ty old (x.vc f l)

def execCas (f : FForm) (s : State) : Host.Outcome State Fault Refusal := atomF 0x88 f s (casNew f)

def execAtoms (f : FForm) (s : State) : Host.Outcome State Fault Refusal :=
  atomSF 0x89 f s fun x l old => atomNew f.fn f.ty old (x.vc f l)

def execCass (f : FForm) (s : State) : Host.Outcome State Fault Refusal := atomSF 0x8A f s (casNew f)

/-! ### Acquire, release, fences -/

/-- LDA (R193): a load that later accesses follow. Every LDA on an alias page faults (log 61). -/
def execLda (f : FForm) (s : State) : Host.Outcome State Fault Refusal :=
  gangF 0x8B f s free fun x =>
    let want := fun l => ({ lane := l, va := x.ea f l, size := f.ty.size, need := .r, xf := f.x, atomic := true } : Want)
    x.memGo ((lanesOf x.en).map want) fun ls =>
      let val := fun l => match ls.find? fun p => p.1.lane == l with
        | some p => x.loadNat x.s p.2 f.ty.size
        | none => 0
      x.touched (x.done x.s (x.put f.d f.z f.ty val)) f.x ls false

/-- STR (R193, R263 to R265, R375): the group's earlier stores are performed, then its own. On a page of system scope it drains
the write-combining buffer too and waits for the acknowledgements; on others it is promoted, and marks its lines. While it waits
its translations stand (R297). Every STR on an alias page faults (log 61). -/
def execStr (f : FForm) (s : State) : Host.Outcome State Fault Refusal :=
  gangF 0x8C f s free fun x =>
    let want := fun l =>
      ({ lane := l, va := x.ea f l, size := f.ty.size, need := .w, xf := f.x, atomic := true, halves := none } : Want)
    x.memGo ((lanesOf x.en).map want) fun ls =>
      let eager := ls.any fun p => p.2.scope = 4
      let y := { x with
        s := x.s.keepInUse x.t.ctx (x.uses (ls.map Prod.fst)), s0 := x.s0.keepInUse x.t.ctx (x.uses (ls.map Prod.fst)) }
      let go := if eager then y.releaseAcked true else y.release false
      go fun t =>
        let owned := ls.filter fun p => !(policyOf f.x p.2 true).atHome
        let lack := t.coh.lacks (owned.flatMap fun p => halvesOf p.2.pa p.1.size) true
        if !lack.isEmpty then x.stall (t.askHalves (sortLines lack) true)
        else if x.noRoom t ls then (if t.predicted x.t then x.fault t 0 else x.stall t true)
        else { x with s := t }.inPlace ls fun u =>
          let a := u.acc x.t
          let put := fun (s : State) (p : Want × Leaf) =>
            (s.store a p.2 (located 0 (leBytes p.1.size (x.dataOf f p.1.lane)))).wrote x.t (p.2.pa / 128)
              (halvesOf p.2.pa p.1.size) (policyOf f.x p.2 true)
          let lines := if eager then [] else (ls.map fun (p : Want × Leaf) => p.2.pa / 128).eraseDups
          x.done ((ls.foldl put u).promote x.c.g lines) id

/-- FENCE (R194): FN 1 orders loads alone and waits for nothing; the others wait at the scope of the page. -/
def execFence (f : FForm) (s : State) : Host.Outcome State Fault Refusal :=
  gangF 0x8D f s free fun x =>
    let go := fun (scope : Nat) => if f.fn = 1 then x.done x.s id else x.fenceAt scope fun t => x.done t id
    match f.a with
    | .s _ =>
      x.pageGo (x.usrc f.a .ui64 64) fun l => go l.scope
    | _ => go 4

/-! ### Cache control -/

/-- PREF (R195): an access that would fault or miss is dropped. -/
def execPref (f : FForm) (s : State) : Host.Outcome State Fault Refusal :=
  gangF 0x8E f s free fun x =>
    x.done ((lanesOf x.en).foldl (fun s l =>
      match s.translate x.t.ctx (.lane x.c.g l) (x.ea f l) .r with
      | .ok p =>
        let lack := s.coh.lacks (halvesOf p.pa 1) false
        if !lack.isEmpty then s.askHalves lack false (some (x.t.ctx, x.ea f l / 4096))
        else (p.lines 1).foldl (fun s n => s.touch x.t n (policyOf f.x p false) false) s
      | _ => s) x.s) id

/-- A line written back to its home: clean copies stay (R195). -/
def State.cleanLine (s : State) (line : Nat) : State :=
  if hostLine line then
    (halvesOf (128 * line) 128).foldl (fun s h =>
      if aget s.coh.halves h = some 3 then
        ({ s with coh := { s.coh with halves := aset s.coh.halves h 2 } }).emit (.cxl h "DirtyEvict")
      else s) s
  else { s with coh := { s.coh with held := s.coh.held.map fun h => if h.line == line && h.st = 2 then { h with st := 1 } else h } }

/-- A line removed from every cache (R195, R281). -/
def State.dropLine (s : State) (line : Nat) : State :=
  if hostLine line then
    { s with coh := { s.coh with held := s.coh.held.filter fun h => h.line != line } }.returnHalves line
  else s.evictAll ((s.coh.held.filter fun h => h.line == line).map fun h => (h.sid, h.line))

/-- CWB and CINV (R195): they translate as loads and check no alignment. The group's own stores to the lines are performed
first, so that what they leave in memory is the lines' newest contents (R89). DESIGN CHOICE (log 81): the check of a line with an
uncorrectable error is FLT_POISON, as for a load. `gone` says that the lines must leave every
cache before the gang goes on. -/
def cacheF (op : Nat) (f : FForm) (s : State) (act : State → Nat → State) (gone : Bool) : Host.Outcome State Fault Refusal :=
  gangF op f s free fun x =>
    let want := fun l => ({ lane := l, va := x.ea f l, size := 0, need := .r, halves := none } : Want)
    x.memGo ((lanesOf x.en).map want) fun ls =>
      let lines := (ls.flatMap fun p => p.2.lines 0).eraseDups
      x.inPlace ls fun t =>
        let u := lines.foldl act t
        if gone && u.coh.held.any (fun h => lines.contains h.line) then x.stall u else x.done u id

def execCwb (f : FForm) (s : State) : Host.Outcome State Fault Refusal := cacheF 0x8F f s State.cleanLine false

def execCinv (f : FForm) (s : State) : Host.Outcome State Fault Refusal := cacheF 0x90 f s State.dropLine true

end Sys2Proof.Machine
end

