-- ==== Sys2Proof/Machine/Atomic.lean ====
section
/-! DEFINITION. Opening, committing and aborting atomic regions (R209, R212 to R215). -/

namespace Sys2Proof.Machine

open Sys2Proof

/-- A lane's bit of each mask register, by the register's number. -/
def Group.maskBits (g : Group) (lane : Nat) : Word := maskOf ((List.range 16).filter fun n => (g.mreg n).getLsbD lane)

/-- A region as ARB opens it (R209), with the lane's mask bits; without $feat.SYMREG it is concrete (R210). -/
def Region.opened (fallback : DWord) (masks : Word) (concrete : Bool) : Region :=
  { fallback := fallback, sources := [], constraints := [], stores := [], lines := [], loaded := [], uses := [], saved := [],
    masks := masks, count := 0, concrete := concrete, conflict := false, system := false, tags := [] }

/-- ARB (R209): the group's buffered stores are performed first; one that fails keeps its fault pending. -/
def execArb (f : FForm) (s : State) : Host.Outcome State Fault Refusal :=
  gangF 0xB0 f s free fun x =>
    let t := x.target f
    if !inSpace t then x.fault x.s fltRange 0xFF (wrapInt 64 t)
    else match x.s.drainAll x.c.g false with
      | .wait u => x.stall u
      | .done u => x.done u fun g =>
          { g with lanes := g.lanes.mapIdx fun i l => if x.c.lanes.getLsbD i then
              { l with region := some (Region.opened (BitVec.ofInt 64 t) (g.maskBits i) (field x.feat 1 1 = 0)) } else l }

/-- A source's or store's access as the Marver repeats it. -/
def srcWant (lane : Nat) (q : RSource) : Want := { lane := lane, va := q.addr, size := q.width, need := .r }
def storeWant (lane : Nat) (q : RStore) : Want :=
  { lane := lane, va := q.addr, size := q.width, need := .w, halves := some true }

/-- A page for an access, or the abort's FAULT field (R211). -/
def Gx.leafOr (x : Gx) (s : State) (w : Want) : Except Nat Leaf :=
  match x.chk s w with
  | .ok l => .ok l
  | .fault code => .error code
  | _ => .error fltNotPresent

/-- The pages of accesses, or the first failing one's code. -/
def Gx.leaves (x : Gx) (s : State) : List Want → Except Nat (List Leaf)
  | [] => .ok []
  | w :: r => match x.leafOr s w with
    | .error code => .error code
    | .ok l => match x.leaves s r with
      | .ok ls => .ok (l :: ls)
      | .error code => .error code

/-- A constraint holds again on fresh values (R213). -/
def RConstraint.holds (q : RConstraint) (fresh : List Nat) (width : Nat) : Bool :=
  let v := (fresh.getD q.k 0 + q.c) % 2 ^ (8 * width)
  icmpBit q.fn q.ty (if q.flip then q.konst else v) (if q.flip then v else q.konst) = q.outcome

/-- What a tag stands for on some values of the sources. -/
def Region.tagVal (r : Region) (vals : List Nat) (k c : Nat) : Nat :=
  (vals.getD k 0 + c) % 2 ^ (8 * (match r.sources[k]? with | some q => q.width | none => 4))

/-- The stores of a region on some values of its sources, in order (R213). -/
def Region.writes (r : Region) (vals : List Nat) : List Nat :=
  r.stores.map fun w => match w.val with | .lit v => v | .sym k c => r.tagVal vals k c

/-- How a region uses a line of its footprint (R255). -/
def Region.useOf (r : Region) (line : Nat) : Policy := match aget r.uses line with | some u => { cls := u.1, rd := u.2 } | none => { cls := 0, rd := 0 }

/-- Stores of a region made together (R213), each as its line's policy has it (R255, R372). -/
def State.storeEach (s : State) (a : Acc) (r : Region) : List (Leaf × Nat × Nat) → State
  | [] => s
  | (l, n, v) :: q =>
    let t := s.store a l (located 0 (leBytes n v))
    (if (r.useOf (l.pa / 128)).atHome then t.dropHalves (halvesOf l.pa n) else t.dirtyHalves (halvesOf l.pa n)).storeEach a r q

/-- The footprint's lines gained to write, in increasing physical address, as the policy of each has it (R213, R255, R282); what is
held already is used. -/
def State.gain (s : State) (t : Team) (r : Region) (lines : List Nat) : State :=
  (sortLines lines).foldl (fun s n => s.touch t n (r.useOf n) true) s

/-- A commit's stores replace the bytes that the group is still combining (R265). -/
def Group.overCombined (g : Group) (ws : List (Leaf × Nat × Nat)) : Group :=
  { g with wcbuf := ws.foldl (fun es w =>
      if w.1.mxa.isSome then es
      else supersede es { line := 0, lanes := [], pa := some (w.1.pa / 128), bytes := located (w.1.pa % 128) (leBytes w.2.1 w.2.2),
                          through := false, rd := 0 }) g.wcbuf }

/-- Registers that hold tags take their fresh values (R213). -/
def Group.retag (g : Group) (lane : Nat) (r : Region) (vals : List Nat) : Group :=
  r.tags.foldl (fun g t =>
    let v := r.tagVal vals t.k t.c
    let h := g.setV t.pos lane (BitVec.ofNat 32 v)
    if t.wide then h.setV (t.pos + 1) lane (BitVec.ofNat 32 (v / 2 ^ 32)) else h) g

/-- The commit of one lane (R213): the state, or the code and argument of its abort. -/
def Gx.commit (x : Gx) (f : FForm) (s : State) (lane : Nat) (r : Region) : Except (Nat × Nat × Nat) State :=
  match x.leaves s (r.stores.map (storeWant lane)) with
  | .error code => .error (abFault, 0, code)
  | .ok ls =>
    let finish := fun (vals : List Nat) (d : Nat) (fresh : Bool) =>
      let ws := (ls.zip ((r.writes vals).zip (r.stores.map RStore.width))).map fun p => (p.1, p.2.2, p.2.1)
      let close := s.modGrp x.c.g fun g =>
        let h := (if fresh then g.retag lane r vals else g).overCombined ws
        (h.modLane lane fun l => { l with region := none, arst := 0, pc := x.next, wait := .none }).putV lane f.d
          [BitVec.ofNat 32 d]
      close.storeEach (s.acc x.t) r ws
    if !r.conflict then .ok (finish (r.sources.map RSource.value) 0 false)
    else if r.concrete then .error (0x02, 0, 0)
    else match x.leaves s (r.sources.map (srcWant lane)) with
      | .error code => .error (abFault, 0, code)
      | .ok qs =>
        let g := (s.grp? x.c.g).getD x.g
        let vals := (qs.zip r.sources).map fun p => leNat (s.readBytes x.t g p.1 p.2.width)
        let width := fun (q : RConstraint) => match r.sources[q.k]? with | some y => y.width | none => 4
        match r.constraints.findIdx? fun q => !q.holds vals (width q) with
        | some j => .error (0x01, j, 0)
        | none => .ok (finish vals 1 true)

/-- The lines that a region's stores write (R213). -/
def Gx.storeLines (x : Gx) (s : State) (lane : Nat) (r : Region) : List Nat :=
  (r.stores.filterMap fun w => match s.translate x.t.ctx (.lane x.c.g lane) w.addr .w with
    | .ok l => some (l.lines w.width)
    | _ => none).flatten.eraseDups

/-- One lane's turn (R213): the footprint is gained, which is a conflict for others also when the region then aborts (R302);
a promoted commit marks the lines that it writes (R263). -/
def Gx.commitLane (x : Gx) (f : FForm) (s : State) (lane : Nat) (r : Region) : State :=
  let g := s.gain x.t r r.lines
  (match x.commit f g lane r with
    | .ok t => t.promote x.c.g (x.storeLines s lane r)
    | .error (code, arg, flt) => g.modGrp x.c.g fun g => g.abort lane code arg flt).conflictAmong
    (fun t => x.t.slot = 0 || s.seesSlot (s.acc x.t).thread x.t.slot t) r.lines

/-- ARC waits, in a state that its drain has left: it has not been counted yet (R209). -/
def Gx.stallArc (x : Gx) (s : State) (held : Bool := false) : State :=
  x.stall (s.modGrp x.c.g fun g => g.modLanes x.all fun l =>
    { l with region := l.region.map fun r => { r with count := r.count - 1 } }) held

/-- Lanes commit in increasing order, each indivisibly (R213): its conflict is seen at its turn. Where a predicted launch's
versions have no room for a commit's lines, the prediction fails, or from that lane on ARC waits, uncounted, and stops with a
request to yield as at a safe point (R335, R337, R340). -/
def Gx.commitAll (x : Gx) (f : FForm) (s : State) : List Nat → State
  | [] => s
  | l :: ls => match ((s.grp? x.c.g).bind fun g => g.lane? l).bind Lane.region with
    | none => x.commitAll f s ls
    | some r =>
      if x.t.slot = 0 || s.versionRoom (s.acc x.t) (x.storeLines s l r) then x.commitAll f (x.commitLane f s l r) ls
      else if s.predicted x.t then s.failPrediction x.t
      else
        let m := maskOf (l :: ls)
        if x.g.yreq then { x with s0 := s, all := m }.yieldHere else { x with all := m }.stallArc s true

/-- The group's deferred write taken out and put back (R362). -/
def State.swapDeferred (s : State) (r : GRef) (d : Option (Nat × DWord × Nat)) : State :=
  s.modGrp r fun g => { g with deferred := d }

/-- ARC (R213). A store that fails in its drain aborts the regions, and its fault stays pending (R362). The commit is a release:
with a page of system scope it waits for the acknowledgements (R263 to R266). It goes on once it can gain every line. -/
def execArc (f : FForm) (s : State) : Host.Outcome State Fault Refusal :=
  gangF 0xB1 f s free fun x =>
    let ls := lanesOf x.c.lanes
    let reg := fun (l : Nat) => (x.g.lane? l).bind Lane.region
    match ls.find? fun l => (reg l).isNone with
    | some l => x.fault x.s fltRegion l
    | none =>
      let sys := ls.any fun l => match reg l with | some r => r.system | none => false
      match (x.s.swapDeferred x.c.g none).drainAll x.c.g sys with
      | .wait t => x.stallArc (t.swapDeferred x.c.g (x.g.deferred.or ((t.grp? x.c.g).bind Group.deferred)))
      | .done t =>
        let failed := (t.grp? x.c.g).bind Group.deferred
        let u := t.swapDeferred x.c.g (x.g.deferred.or failed)
        if failed.isSome then u.modGrp x.c.g fun g => ls.foldl (fun g l => g.abort l abFault 0 fltDeferred) g
        else
          let regs := ls.filterMap reg
          let lines := (regs.flatMap Region.lines).eraseDups
          let wants := ls.flatMap fun l => match reg l with
            | some r => r.sources.map (srcWant l) ++ r.stores.map (storeWant l)
            | none => []
          let stuck := (wants.map fun w => (w, x.chk u w)).filter fun p => p.2.stuck
          let owned := lines.filter fun n => (u.ownerOf n).isSome
          let lack := u.coh.lacks (lines.flatMap fun n => halvesOf (128 * n) 128) true
          let left := ((u.grp? x.c.g).map fun g => if sys then g.unacked else g.carried).getD 0
          if x.g.yreq && stuck.any (fun p => p.2 == .pred) then x.yieldHere
          else if !stuck.isEmpty || !owned.isEmpty || !lack.isEmpty then
            x.stallArc (((x.sendFor u stuck).touchAll x.t owned { cls := 0, rd := 0 } true).askHalves (sortLines lack) true) (stuck.any fun p => p.2 == .pred)
          else if left != 0 then x.stallArc u
          else x.commitAll f u ls

/-- ARA (R215): an explicit abort of each lane's region. -/
def execAra (f : FForm) (s : State) : Host.Outcome State Fault Refusal :=
  let n := f.b.immOf.toNat
  gangF 0xB2 f s (fun _ => n < 256) fun x =>
    let ls := lanesOf x.c.lanes
    match ls.find? fun l => ((x.g.lane? l).bind Lane.region).isNone with
    | some l => x.fault x.s fltRegion l
    | none => x.s.modGrp x.c.g fun g => ls.foldl (fun g l => g.abort l 0x0D n 0) g

/-- ARST (R215). -/
def execArst (f : FForm) (s : State) : Host.Outcome State Fault Refusal :=
  gangF 0xB3 f s free fun x =>
    x.done x.s (x.put f.d f.z .b32 fun l => match x.rd.lane? l with | some y => y.arst.toNat | none => 0)

end Sys2Proof.Machine
end

