-- ==== Sys2Proof/Machine/Scratch.lean ====
section
/-! DEFINITION. Barrier objects, per-lane copies and copy rings (R196 to R203). -/

namespace Sys2Proof.Machine

open Sys2Proof

/-- A uniform scratchpad address of the gang (R188). -/
def Gx.scratchUni (x : Gx) (n : Name) : Nat := x.usrc n .ui64 64 % 2 ^ 32

/-- An object of n bytes at a uniform scratchpad address, aligned (R188, R196, R202). -/
def Gx.scratchObj (x : Gx) (addr align n : Nat) (k : Nat × Nat → State) : State :=
  if addr % align != 0 then x.fault x.s fltAlign 0xFF addr
  else match x.s.scratchAt x.t addr n with
    | some p => k p
    | none => x.fault x.s fltScratch 0xFF addr

/-! ### Barrier objects -/

/-- One arrival at a barrier object (R197): the phase before it; none on an object with COUNT = 0. -/
def State.arrive (s : State) (team off : Nat) : Option (Nat × State) :=
  let v := s.scratchNat team off 8
  let count := v % 2 ^ 16
  let phase := v / 2 ^ 32
  let remain := (v / 2 ^ 16 + 2 ^ 16 - 1) % 2 ^ 16
  if count = 0 then none
  else
    let w := if remain = 0 then (phase + 1) % 2 ^ 32 * 2 ^ 32 + count * 2 ^ 16 + count
      else phase * 2 ^ 32 + remain * 2 ^ 16 + count
    some (phase, s.scratchWrite team off (leBytes 8 w))

def execBobjInit (f : FForm) (s : State) : Host.Outcome State Fault Refusal :=
  let n := f.b.immOf.toNat
  gangF 0x91 f s (fun _ => n != 0) fun x => x.scratchObj (x.scratchUni f.a) 8 8 fun p =>
    x.done (x.s.scratchWrite p.1 p.2 (leBytes 8 (n * 2 ^ 16 + n))) id

/-- The arrival is a release (R197, R362). -/
def execBobjArrive (f : FForm) (s : State) : Host.Outcome State Fault Refusal :=
  gangF 0x91 f s free fun x => x.scratchObj (x.scratchUni f.a) 8 8 fun p => x.release false fun t =>
    match t.arrive p.1 p.2 with
    | none => x.fault x.s fltOperand
    | some (phase, u) => x.done u (x.putS f.d (BitVec.ofNat 64 phase))

def execBobjWait (f : FForm) (s : State) : Host.Outcome State Fault Refusal :=
  gangF 0x91 f s free fun x =>
    let addr := x.scratchUni f.a
    x.scratchObj addr 8 8 fun p =>
      let phase := x.usrc f.d .ui64 64 % 2 ^ 32
      if x.s.scratchNat p.1 p.2 8 / 2 ^ 32 != phase then x.done x.s id
      else x.waitIn x.s (.bobj addr (BitVec.ofNat 32 phase) f.sp)

/-! ### Per-lane copies -/

/-- A tag's counter and the time of its first copy (R199). -/
def Group.countOf (g : Group) (t : Nat) : Nat := g.count.getD t 0
def Group.ordOf (g : Group) (t : Nat) : Nat := g.ord.getD t 0

/-- Some gang of the group is stalled on a page request (R200). -/
def State.onPage (s : State) (c : Nat) (r : GRef) : Bool :=
  match s.ctx? c with
  | some x => x.reqs.any fun q => q.waiters.any fun w => match w.1 with | .lane g _ => g = r | _ => false
  | none => false

/-- Promise(T) of R200: all ones when the part can promise no time, else an estimate. -/
def promiseOf (tag : Nat) (noTime : Bool) (draw : BitVec 60) : DWord :=
  BitVec.ofNat 64 (2 ^ 63 + tag * 2 ^ 60 + (if noTime then 2 ^ 60 - 1 else draw.toNat))

/-- ACP (R198): every lane is checked, the group's earlier stores are performed (ST before AC, R269), the copies are counted and sent,
the promise is written. What an NVIO page gives is
read at once, in program order (R253). -/
def execAcp (f : FForm) (s : State) : Host.Outcome State Fault Refusal :=
  gangF 0x92 f s free fun x =>
    let n := 4 * 2 ^ f.fn
    let tag := f.x / 8
    let es := lanesOf x.en
    let valid := fun (l : Nat) => Nat.min (x.src l f.c .ui32 32) n
    let dst := fun (l : Nat) => x.src l (match f.b with | .reg m => m | _ => .zero) .ui32 32
    let src := fun (l : Nat) => x.src l f.a .ui64 64
    let bad := es.find? fun l => match x.scratchChk x.s (dst l) n with | .error _ => true | .ok _ => false
    let before := match bad with | some b => es.filter (· < b) | none => es
    let want := fun (l : Nat) => ({ lane := l, va := src l, size := n, need := .r } : Want)
    x.memGo ((before.filter fun l => valid l != 0).map want) fun ls =>
      match bad with
      | some l => (match x.scratchChk x.s (dst l) n with
        | .error code => x.fault x.s code l (dst l)
        | .ok _ => x.s)
      | none =>
        if x.g.countOf tag + es.length > 4095 then x.stall x.s0
        else match x.s.drainAll x.c.g true with
        | .wait t => x.stall t
        | .done t =>
          let leafOf := fun (l : Nat) => (ls.find? fun p => p.1.lane == l).map Prod.snd
          let copy := fun (l : Nat) => match x.s.scratchAt x.t (dst l) n with
            | some p =>
              let now := match leafOf l with
                | some q => if q.nvio then some (t.leafBytes (t.acc x.t) q (valid l)) else none
                | none => none
              some ({ tag := tag, va := src l, src := leafOf l, data := now, team := p.1, dst := p.2, valid := valid l,
                      size := n, pc := x.c.pc } : Copy)
            | none => none
          let cs := es.filterMap copy
          let far := ls.any fun p => p.2.pa ≥ Config.hbmEnd
          let noTime := far || t.onPage x.t.ctx x.c.g
          let p := promiseOf tag noTime (Config.promiseWhen t.free)
          let u := cs.foldl (fun s c => s.modTeam c.team fun t => { t with inbound := t.inbound + 1 }) t.bump
          x.done u fun g =>
            x.putS f.d p
              { g with
                count := modAt g.count tag fun k => k + cs.length
                ord := if g.countOf tag = 0 && !cs.isEmpty then modAt g.ord tag fun _ => x.s.cycle else g.ord
                flight := g.flight ++ cs }

/-- The tag of ACWAIT.oldest: the nonzero one with the smallest ORD, the lower on a tie (R199). -/
def Group.oldestTag (g : Group) : Option Nat :=
  ((List.range 8).filter fun t => g.countOf t != 0).foldl (fun b t => match b with
    | some k => if g.ordOf t < g.ordOf k then some t else some k
    | none => some t) none

/-- What an ACWAIT waits for is met (R199): one tag, or all of them. -/
def Group.acDone (g : Group) : Option Nat → Bool
  | some t => g.countOf t = 0
  | none => (List.range 8).all fun t => g.countOf t = 0

def execAcwait (f : FForm) (s : State) : Host.Outcome State Fault Refusal :=
  gangF 0x93 f s free fun x =>
    let w : Option Nat := match f.fn with
      | 0 => some (f.x / 8) | 1 => x.g.oldestTag | _ => none
    if x.g.acDone w then x.done x.s id else x.waitIn x.s (.acwait w)

def execAccnt (f : FForm) (s : State) : Host.Outcome State Fault Refusal :=
  uniF 0x94 f s fun x => BitVec.ofNat 64 (x.g.countOf (f.x / 8))

/-! ### Rings -/

/-- A ring's header (R202). -/
structure Ring where
  nslot : Nat
  slotu : Nat
  wp    : Nat
  rp    : Nat
  ap    : Nat
  deriving DecidableEq, Repr

/-- The header at a scratchpad offset (R202). -/
def State.ringAt (s : State) (team off : Nat) : Ring :=
  { nslot := s.scratchNat team off 2, slotu := s.scratchNat team (off + 2) 2, wp := s.scratchNat team (off + 4) 4,
    rp := s.scratchNat team (off + 8) 4, ap := s.scratchNat team (off + 12) 4 }

/-- A difference of two wrapping 32-bit counts. -/
def diff32 (a b : Nat) : Nat := (a + 2 ^ 32 - b % 2 ^ 32) % 2 ^ 32

/-- R202's consistency. -/
def Ring.consistent (r : Ring) : Bool :=
  r.nslot != 0 && diff32 r.ap r.rp ≤ diff32 r.wp r.rp && diff32 r.wp r.rp ≤ r.nslot

/-- Offset of slot i behind the header (R202). -/
def Ring.slot (r : Ring) (i : Nat) : Nat := 64 + i % (if r.nslot = 0 then 1 else r.nslot) * 128 * r.slotu

/-- A ring that an engine job fills: its card has RING and names it (R203, R206). -/
def State.filling (s : State) (team off : Nat) : Bool :=
  s.chains.any fun p => match p.2.job, (p.2.queue.head?).bind s.team? with
    | some j, some t =>
      p.2.engine != 9 &&
      let at_ := fun (o n : Nat) => leNat ((j.card.drop o).take n)
      let fl := at_ 1 1
      fl / 2 % 2 = 1 && at_ 0x48 4 = off &&
        (if fl / 4 % 2 = 1 then (s.cluster t).any fun q => q.1 == team && (at_ 2 2).testBit q.2.cidx else p.2.queue.head? = some team)
    | _, _ => false

/-- NSLOT and SLOTU of RNGI's B (R203). -/
def Gx.ringShape (x : Gx) (f : FForm) : Nat × Nat :=
  match f.b with
  | .imm i => (i.toNat % 2 ^ 8, i.toNat / 2 ^ 8)
  | b => let v := x.usrcB b .ui64 64; (v % 2 ^ 16, v / 2 ^ 16 % 2 ^ 16)

/-- RNGI (R203). DESIGN CHOICE (log 79): its operand values are checked before the header's alignment and range. -/
def execRngi (f : FForm) (s : State) : Host.Outcome State Fault Refusal :=
  gangF 0x95 f s free fun x =>
    let b := x.ringShape f
    let addr := x.scratchUni f.a
    if b.1 = 0 || b.2 = 0 || b.1 > 1024 || b.2 > 2048 then x.fault x.s fltOperand
    else x.scratchObj addr 128 (64 + b.1 * 128 * b.2) fun p =>
      if x.s.filling p.1 p.2 then x.fault x.s fltRing
      else x.done (x.s.scratchWrite p.1 p.2 (leBytes 2 b.1 ++ leBytes 2 b.2 ++ List.replicate 60 0)) id

/-- AWF's taking of a slot (R203): its scratchpad address and the header moved on; none while the ring is empty. -/
def State.takeSlot (s : State) (team off addr : Nat) : Option (Nat × State) :=
  let r := s.ringAt team off
  if r.ap = r.wp then none
  else some (addr + r.slot r.ap, s.scratchWrite team (off + 12) (leBytes 4 ((r.ap + 1) % 2 ^ 32)))

def execAwf (f : FForm) (s : State) : Host.Outcome State Fault Refusal :=
  gangF 0x96 f s free fun x =>
    let addr := x.scratchUni f.a
    x.scratchObj addr 128 64 fun p =>
      if !(x.s.ringAt p.1 p.2).consistent then x.fault x.s fltRing
      else match x.s.takeSlot p.1 p.2 addr with
        | none => x.waitIn x.s (.awf addr f.d)
        | some (v, t) => x.done t (x.putS f.d (BitVec.ofNat 64 v))

def execRls (f : FForm) (s : State) : Host.Outcome State Fault Refusal :=
  gangF 0x97 f s free fun x =>
    let addr := x.scratchUni f.a
    x.scratchObj addr 128 64 fun p =>
      let r := x.s.ringAt p.1 p.2
      if !r.consistent || r.ap = r.rp then x.fault x.s fltRing
      else x.release false fun t => x.done (t.scratchWrite p.1 (p.2 + 8) (leBytes 4 ((r.rp + 1) % 2 ^ 32))) id

end Sys2Proof.Machine
end

