-- ==== Sys2Proof/Machine/Chains.lean ====
section
/-! DEFINITION. ENQ and ENGST: how a gang hands cards to an engine and reads its state (R204, R205, R208). -/

namespace Sys2Proof.Machine

open Sys2Proof

/-- A field of a chain control block in memory (R204). -/
def ccbField (b : List Byte) (o n : Nat) : Nat := leNat ((b.drop o).take n)

/-- The chain of a context at a CCB, and its number. -/
def State.chainAt (s : State) (c : Nat) (ccb : DWord) : Option (Nat × Chain) :=
  s.chains.find? fun p => p.2.ctx = c && p.2.ccb = ccb && p.2.packet.isNone

/-- What a fault record says of a team (R361): queue and SEQ of its launch, its indices. -/
def State.originOf (s : State) (t : Team) : Nat × DWord × Nat × Nat × Nat :=
  let q := s.launchOf t
  (q.1, q.2, t.x, t.y, t.z)

/-- Cards handed to a chain by a team, each for the engine of its own core (R205, R207, R208); a matrix chain that is not bound is
bound to the team (R229). -/
def State.handCards (s : State) (x : Gx) (ccb : DWord) (engine n : Nat) : State :=
  let k := x.t.at_
  let give := fun (c : Chain) =>
    { c with
      queue := c.queue ++ List.replicate n x.c.g.team
      origin := c.origin ++ List.replicate n (s.originOf x.t)
      posts := c.posts ++ List.replicate n (engine, k.1, k.2)
      engine := if c.queue.isEmpty then engine else c.engine
      die := if c.queue.isEmpty then k.1 else c.die
      core := if c.queue.isEmpty then k.2 else c.core
      bound := if engine = 9 then c.bound.or (some x.c.g.team) else c.bound }
  match s.chainAt x.t.ctx ccb with
  | some (i, _) => { s with chains := amod s.chains i give }
  | none => { s with
      fresh := s.fresh + 1
      chains := aset s.chains s.fresh (give
        { ctx := x.t.ctx, ccb := ccb, engine := engine, die := k.1, core := k.2, queue := [], origin := [], posts := [], bound := none,
          job := none, stop := none, packet := none }) }

/-- ENQ (R205): the group's own stores to the block are performed before its fields are read. -/
def execEnq (f : FForm) (s : State) : Host.Outcome State Fault Refusal :=
  gangF 0x98 f s (fun _ => match f.b with | .imm i => 1 ≤ i.toNat && i.toNat ≤ 256 | _ => true) fun x =>
    let n := match f.b with | .imm i => i.toNat | b => x.usrcB b .ui64 64
    let va := x.usrc f.a .ui64 64
    if n = 0 || n > 256 then x.fault x.s fltOperand
    else if x.t.slot != 0 then x.heldHere
    else
      x.memGo [{ lane := x.low, va := va, size := 64, need := .rw, atomic := true, halves := some true, whole := true }] fun ls =>
        match ls.head? with
        | none => x.s
        | some (_, l) => x.inPlace ls fun t0 =>
          let y := { x with s := t0 }
          let cw := t0.leafBytes (t0.acc x.t) l 64
          y.pageGo (ccbField cw 0x28 8) fun w =>
            y.releaseAcked (w.scope = 4) fun t =>
              let a := t.acc x.t
              let b := t.leafBytes a l 64
              let tail := ccbField b 0x10 8
              let seq := (ccbField b 0x20 8 + n) % 2 ^ 64
              if diff64 (tail + n) (ccbField b 0x18 8) > ccbField b 0x08 4 then x.done t (x.putS f.d 0)
              else
                let u := t.store a l (located 0x10 (leBytes 8 ((tail + n) % 2 ^ 64)) ++ located 0x20 (leBytes 8 seq))
                let v := if Config.hostBase ≤ l.pa then u.dirtyHalves (halvesOf l.pa 64) else u
                x.touched (x.done (v.handCards x (BitVec.ofNat 64 va) (ccbField b 0x0C 2) n) (x.putS f.d (BitVec.ofNat 64 seq))) 0 ls true
where
  /-- A difference of two wrapping 64-bit counts. -/
  diff64 (a b : Nat) : Nat := (a + 2 ^ 64 - b) % 2 ^ 64

/-- Where a chain's engine is: the bound team's core for a matrix chain, else where its oldest card was enqueued (R208, R229). -/
def State.engineAt (s : State) (c : Chain) : Nat × Nat :=
  match (if c.engine = 9 then c.bound.bind s.team? else none) with
  | some t => t.at_
  | none => (c.die, c.core)

/-- The chains on one engine: of the die, or of the core for the local ones (R208). -/
def State.chainsOn (s : State) (d core e : Nat) : List Chain :=
  (s.chains.filter fun p => p.2.engine = e && (s.engineAt p.2).1 = d && (e < 8 || (s.engineAt p.2).2 = core)).map Prod.snd

/-- The number under which a context's last fault on an engine is kept (R208). -/
def detailKey (c d core e : Nat) : Nat := ((8 * c + d) * 48 + (if e < 8 then 0 else core)) * 2 ^ 16 + e

/-- ENGST's word (R208). -/
def State.engineWord (s : State) (c d core e : Nat) : DWord :=
  let cs := s.chainsOn d core e
  let mine := cs.filter fun x => x.ctx = c
  let queued := (mine.filter fun x => x.job.isSome).length
  let detail := (aget s.details (detailKey c d core e)).getD 0 % 2 ^ 16
  let stopped := mine.any fun x => x.stop.isSome
  let busy := cs.any fun x => x.job.isSome && x.stop.isNone
  BitVec.ofNat 64 (queued * 2 ^ 32 + detail * 2 ^ 16 + (if s.engineFenced d core e then 4 else 0) +
    (if stopped then 2 else 0) + (if busy then 1 else 0))

/-- An engine number (R208). -/
def engineNo (e : Nat) : Bool := e ≤ 5 || e = 8 || e = 9

def execEngst (f : FForm) (s : State) : Host.Outcome State Fault Refusal :=
  gangF 0x99 f s (fun _ => match f.b with | .imm i => engineNo i.toNat | _ => true) fun x =>
    let e := x.srcBz x.low f.b .ui64 64
    if !engineNo e then x.fault x.s fltOperand
    else x.doneS f.d (x.s.engineWord x.t.ctx x.t.at_.1 x.t.at_.2 e)

end Sys2Proof.Machine
end

