-- ==== Sys2Proof/Machine/Fabric.lean ====
section
/-! DEFINITION. The steps of homes, sharers and the CXL link (R282 to R284, R293, R294, R372 to R376). -/

namespace Sys2Proof.Machine

open Sys2Proof

/-! ### Homes -/

def execSharedReadRequest (k : Nat) (s : State) : Host.Outcome State Fault Refusal := .next (s.serve k .read)

def execOwnershipRequest (k : Nat) (s : State) : Host.Outcome State Fault Refusal := .next (s.serve k .own)

/-- A device half that the host reads: its bytes, or that they are in error (R293, R396). -/
def State.sendHalf (s : State) (half : Nat) : State :=
  if s.poison.contains (half / 2) then s.emit .poisoned else s.emit (.data (s.bytesAt (64 * half) 64))

/-- The host's writes whose lines are free are made, each also its drop of the half (R293). -/
def State.land (s : State) : State :=
  s.coh.landing.foldl
    (fun s p => ((s.writeBytes (located (64 * p.1) p.2)).absorb (span (64 * p.1) p.2.length)).hostDrop p.1)
    { s with coh := { s.coh with landing := [] } }

/-- WRITE_AT_HOME (R282), and the recall of a line that joins or leaves an object (R276). -/
def execWriteAtHome (k : Nat) (s : State) : Host.Outcome State Fault Refusal :=
  .next (s.serve k (if (s.coh.reqs[k]?).any fun q => q.kind == .move then .move else .atHome)).land

def execOnAck (k : Nat) (s : State) : Host.Outcome State Fault Refusal := .next (s.onAckAt k).land

def execOnNotice (k : Nat) (s : State) : Host.Outcome State Fault Refusal := .next (s.onNoticeAt k)

/-! ### Sharers -/

/-- RECALL (R263, R282, R283, R286): a sharer answers at once, unless an engine of it has still to write the line or a
promoted release has marked it. -/
def execRecall (k : Nat) (s : State) : Host.Outcome State Fault Refusal :=
  match s.coh.recalls[k]? with
  | none => .next s
  | some r =>
    if s.coh.inOrder r.n r.sid r.line && !s.mustWrite r.sid r.line && !s.markedIn r.sid r.line then .next (s.answer k)
    else .next s

/-- Open regions that loaded the line see that an engine or the host gains it to write (R212, R302). What a cluster gains its
threads have written, and its engines asked for, before: those the regions have seen. -/
def State.gained (s : State) (sid line : Nat) : State := if sid % 128 < 48 then s else s.seen [line]

/-- GRANT (R283, R255): the line is filled, or its shared copy becomes an owned one. The host is sent the half that it asked
for (R293), once no marked release or unclassed error holds it (R263, R397). -/
def execGrant (k : Nat) (s : State) : Host.Outcome State Fault Refusal :=
  match s.coh.grants[k]? with
  | none => .next s
  | some g =>
    let up := (s.coh.held? g.sid g.line).isSome
    if !s.coh.inOrder g.n g.sid g.line then .next s
    else if g.sid = sidHost && s.marked none g.line then .next s
    else if g.sid = sidHost then
      let half := 2 * g.line + g.rd
      .next ({ s with coh := { s.coh with
        grants := dropAt s.coh.grants k
        hosted := if s.coh.hosted.contains half then s.coh.hosted else half :: s.coh.hosted } }.sendHalf half)
    else if !up && !s.fillOk g.sid g.line then .next s
    else
      let t := { s with coh := { s.coh with grants := dropAt s.coh.grants k } }
      let u :=
        if up then
          { t with coh := { t.coh with held := t.coh.held.map fun h =>
              if h.sid == g.sid && h.line == g.line then { h with st := Nat.max h.st g.st, rrpv := 0 } else h } }
        else t.fill g.sid g.line g.st g.rd
      .next (if g.st = 0 then u else u.gained g.sid g.line)

/-! ### Snoops of the host -/

/-- Bytes of a half of host memory. -/
def State.halfBytes (s : State) (half : Nat) : List Byte := s.bytesAt (64 * half) 64

/-- A snoop answered at once from the half's state (R373): the answers and next states for M, E and S. -/
def State.snoop (s : State) (half : Nat) (m e sh : String × Nat) : State :=
  let set := fun (n : Nat) =>
    { s with coh := if n = 0 then s.coh.dropHalf half else { s.coh with halves := aset s.coh.halves half n } }
  match (aget s.coh.halves half).getD 0 with
  | 3 => ((set m.2).emit (.snoop half m.1 true)).emit (.data (s.halfBytes half))
  | 2 => (set e.2).emit (.snoop half e.1 false)
  | 1 => (set sh.2).emit (.snoop half sh.1 false)
  | _ => s.emit (.snoop half "RspIHitI" false)

/-- SNPINV (R373): a line of a region's footprint that is taken is a conflict (R294). -/
def execSnpinv (half : Nat) (s : State) : Host.Outcome State Fault Refusal :=
  let t := s.snoop half ("RspIFwdM", 0) ("RspIHitSE", 0) ("RspIHitSE", 0)
  .next (if s.teams.any (fun p => p.2.inRegion) then t.conflictAt [half / 2] else t)

/-- SNPDATA (R373). -/
def execSnpdata (half : Nat) (s : State) : Host.Outcome State Fault Refusal :=
  .next (s.snoop half ("RspSFwdM", 1) ("RspSHitSE", 1) ("RspSHitSE", 1))

/-- SNPCUR (R373). -/
def execSnpcur (half : Nat) (s : State) : Host.Outcome State Fault Refusal :=
  .next (s.snoop half ("RspVFwdV", 3) ("RspVHitV", 2) ("RspVHitV", 1))

/-- CXL_CACHE_COMPLETION (R372, R376): the home completes the part's request with the half's bytes at the host; bytes that the host has
written since are a conflict of the regions that loaded them (R212). A half fetched ahead enters the cache that fetched it (R255). -/
def execCxlCacheCompletion (half : Nat) (exclusive : Bool) (data : List Byte) (s : State) : Host.Outcome State Fault Refusal :=
  match s.coh.halfReqs.find? fun q => q.half == half with
  | none => .next s
  | some q =>
    let held := (aget s.coh.halves half).getD 0
    let st := if q.write || exclusive then 2 else 1
    let t := { s with coh := { s.coh with
      halfReqs := s.coh.halfReqs.filter (· != q), halves := aset s.coh.halves half (Nat.max held st) } }
    let u := if held != 0 || data.length != 64 || Config.hostBase > 64 * half then t
      else
        let v := { t with mem := memWrite t.mem (located (64 * half) data) }
        if s.bytesAt (64 * half) 64 == data then v else v.seen [half / 2]
    .next (match q.ahead with | some sid => u.hostFill sid (half / 2) (some 7) | none => u)

/-! ### The host's accesses to device memory -/

/-- HOST_CXL_MEM_REQUEST (R282, R293, R354, R355): an access to a 64-byte half of device memory is served at its home, in its
order; one outside the HDM decoder's range does not reach it (log 59). A write without data is the host's clean drop. -/
def execHostCxlMemRequest (half : Nat) (write : Bool) (data : List Byte) (s : State) : Host.Outcome State Fault Refusal :=
  let line := half / 2
  let pa := 64 * half
  if Config.hostBase ≤ pa || pa < s.hdm.1 || s.hdm.1 + s.hdm.2 < pa + 64 then .next s
  else if s.lineFenced line then .next (if write then s else s.emit .poisoned)
  else if !paDevice pa then .next (if write then s else s.emit (.data (List.replicate 64 0xFF)))
  else if write && data.isEmpty then .next (s.hostDrop half)
  else if !write && s.coh.hosted.contains half && !s.marked none line then .next (s.sendHalf half)
  else
    let q := CohReq.of (if write then .atHome else .read) sidHost line (half % 2)
    .next { s with coh := s.coh.ask { q with data := if write then data.take 64 else [] } }

end Sys2Proof.Machine
end

