-- ==== Sys2Proof/Machine/Telemetry.lean ====
section
/-! DEFINITION. The phase table and its telemetry (R37, R424). -/

namespace Sys2Proof.Machine

open Sys2Proof

/-- The queue of a launch is one that TELQ names (R424). -/
def State.watched (s : State) (launch : Nat) : Bool :=
  match aget s.launches launch with
  | some l => (s.reg (0x2030000 + 8 * (l.qid / 64)) 0).getLsbD (l.qid % 64)
  | none => false

/-- A unit works for a launch in the present tick. -/
def State.markBusy (s : State) (launch : Nat) (path : Word) : State :=
  if (aget s.launches launch).isNone then s
  else
    let f := s.fleet
    let isIt := fun (p : PhaseCount) => p.launch == launch && p.path == path
    let ps := if f.phases.any isIt then f.phases.map fun p => if isIt p then { p with hot := true } else p
      else f.phases ++ [{ launch := launch, path := path, busy := 0, idle := 0, hot := true }]
    { s with fleet := { f with phases := ps } }

/-- The path of an engine, the core-local ones among them (R208, R410). -/
def localPath (d core e : Nat) : Word :=
  if e < 8 then enginePath d e else unitPath d 0x01 core (if e = 9 then 0x01 else 0x07) 0

/-- The launch that a card's origin names by its queue and SEQ (R361). -/
def State.originLaunch (s : State) (o : Nat × DWord × Nat × Nat × Nat) : Option Nat :=
  (s.launches.find? fun l => l.2.qid = o.1 && l.2.seq = o.2.1).map Prod.fst

/-- The launches and units that a $cycle tick counts: cores with a team of the launch, engines with a job of it, which runs or
waits; whether an engine runs it. -/
def State.counted (s : State) : List (Nat × Word × Bool) :=
  (s.teams.filterMap fun p => match p.2.place with
    | .core d k => if p.2.endedAt.isNone then some (p.2.launch, corePath d k, false) else none
    | _ => none) ++
  s.chains.flatMap fun p => p.2.origin.zipIdx.filterMap fun o => (s.originLaunch o.1).map fun n =>
    let e := s.engineAt p.2
    (n, localPath e.1 e.2 p.2.engine, o.2 = 0 && p.2.stop.isNone && p.2.job.any fun j => !j.paused)

/-- One $cycle tick counted for every launch (R37, R424). -/
def State.countTick (s : State) : State :=
  let us := s.counted.foldl (fun (l : List (Nat × Word × Bool)) u =>
    if l.any fun v => v.1 = u.1 && v.2.1 = u.2.1 then
      l.map fun v => if v.1 = u.1 && v.2.1 = u.2.1 then (v.1, v.2.1, v.2.2 || u.2.2) else v
    else l ++ [u]) []
  let f := s.fleet
  let known := fun (u : Nat × Word × Bool) => f.phases.any fun p => p.launch == u.1 && p.path == u.2.1
  let all := f.phases ++ (us.filter fun u => !known u).map fun u =>
    ({ launch := u.1, path := u.2.1, busy := 0, idle := 0, hot := false } : PhaseCount)
  let count := fun (p : PhaseCount) =>
    match us.find? fun u => u.1 == p.launch && u.2.1 == p.path with
    | some u => if p.hot || u.2.2 then { p with busy := p.busy + 1, hot := false } else { p with idle := p.idle + 1 }
    | none => if p.hot then { p with busy := p.busy + 1, hot := false } else p
  { s with fleet := { f with phases := all.map count } }

/-- Held entries go to the ring while it has space (R360, R424). -/
def State.flushPhases (s : State) : State :=
  s.fleet.held.foldl (fun s b => if s.ringRoom 0x2030200 then
    { s with fleet := { s.fleet with held := s.fleet.held.drop 1 } }.putRecord 0x2030200 32 b else s) s

/-- One telemetry entry written, held while LOG2N is 0, or dropped and counted where the ring is full (R360, R424). -/
def State.putPhase (s : State) (seq : DWord) (phase : Nat) (p : PhaseCount) : State :=
  let b := leBytes 8 seq.toNat ++ leBytes 2 phase ++ leBytes 2 0 ++ leBytes 4 p.path.toNat ++ leBytes 8 p.busy ++ leBytes 8 p.idle
  if s.ringLen 0x2030200 = 0 then { s with fleet := { s.fleet with held := s.fleet.held ++ [b] } }
  else if s.fleet.held.isEmpty && s.ringRoom 0x2030200 then s.putRecord 0x2030200 32 b
  else { s with fleet := { s.fleet with pdropped := s.fleet.pdropped + 1 } }

/-- A phase of a launch ends (R424). -/
def State.endPhase (s : State) (launch : Nat) : State :=
  match aget s.launches launch with
  | none => s
  | some l =>
    let mine := s.fleet.phases.filter fun p => p.launch == launch
    let u := if s.watched launch then mine.foldl (fun s p => s.putPhase l.seq l.phase p) s else s
    { u with
      fleet := { u.fleet with phases := u.fleet.phases.filter fun p => p.launch != launch }
      launches := amod u.launches launch fun l => { l with phase := l.phase + 1 } }

end Sys2Proof.Machine
end

