-- ==== Sys2Proof/Machine/Issue.lean ====
section
/-! DEFINITION. How a core issues: the group, its gangs, the fetch, user-interrupt delivery, the clock (R6, R21 to R24, R33,
R89, R106, R366, R367). -/

namespace Sys2Proof.Machine

open Sys2Proof

/-! ### The clock -/

/-- A lane that has yielded goes on once its cycle is finished (R185). -/
def Lane.endYield (l : Lane) (core : Nat) : Lane :=
  match l.wait with
  | .yield w => if w ≤ core then { l with wait := .none } else l
  | _ => l

/-- A context that KILL has ended is ACTIVE again (R363, log 71). -/
def CtxState.afterKill : CtxState → CtxState
  | .killing => .active | x => x

/-- One core cycle at a clock passes; $cycle counts at 1,000 MHz beside it (R6, log 4), and held telemetry is written. What a
failed page request told the part's own units is spent (log 20). -/
def State.tick (s : State) (mhz : Nat) : State :=
  let core := s.core + 1
  let sub := s.sub + 1000
  let finished := sub ≥ mhz
  let t := if finished then s.countTick.flushPhases else s
  { t with
    core := core
    sub := if finished then sub - mhz else sub
    cycle := if finished then s.cycle + 1 else s.cycle
    ctxs := s.ctxs.map fun p => (p.1, { p.2 with
      state := p.2.state.afterKill, denied := p.2.denied.filter fun d => d.agent != .part })
    teams := s.teams.map fun p =>
      (p.1, { p.2 with groups := p.2.groups.map fun g => { g with lanes := g.lanes.map fun l => l.endYield core } }) }

/-- Lanes that wait inside an instruction try it again (R186); free values change. -/
def State.wake (s : State) : State :=
  { s with free := s.free + 1, teams := s.teams.map fun p =>
      (p.1, { p.2 with groups := p.2.groups.map fun g =>
        { g with lanes := g.lanes.map fun l => if l.wait = .retry false then { l with wait := .none } else l } }) }

/-! ### Groups and gangs -/

/-- The ready lanes at one PC and window base (R22). -/
def Group.readyGang (g : Group) (i : Nat) : Word := g.ready &&& g.gangOf i

/-- The ready gangs, by lowest lane. -/
def Group.gangs (g : Group) : List Word := ((lanesOf g.ready).map g.readyGang).eraseDups

/-- A gang has not issued in 64 issues of its group (R33). DESIGN CHOICE (log 64): the count is its lowest lane's, wherever its
lanes came from, and issues count while the gang is not ready. -/
def Group.gangAged (g : Group) (m : Word) : Bool :=
  match g.lane? (lowest m) with | some l => l.issues ≥ 64 | none => false

/-- The rank of a gang as a number, greater first (R22): aged, whether paused or not (R34), then unpaused; then size and lower
lane. -/
def Group.rank (g : Group) (core : Nat) (m : Word) : Nat :=
  let unpaused := (lanesOf m).any fun l => !g.lanePaused core l
  (if g.gangAged m then 2 ^ 16 else if unpaused then 2 ^ 15 else 0) + (lanesOf m).length * 2 ^ 6 + (32 - lowest m)

/-- The best of some gangs. -/
def Group.best (g : Group) (core : Nat) (ms : List Word) : Option Word :=
  ms.foldl (fun b m => match b with
    | some x => if g.rank core m > g.rank core x then some m else some x
    | none => some m) none

/-- The one or two gangs that issue, the one with the lower lane first (R22, R23). -/
def Group.chosen (g : Group) (core : Nat) (ms : List Word) : List Word :=
  match g.best core ms with
  | none => []
  | some a => match g.best core (ms.filter (· != a)) with
    | none => [a]
    | some b => if lowest a < lowest b then [a, b] else [b, a]

/-- A core's number, 48 × die + core. -/
def Team.coreNo (t : Team) : Option Nat :=
  match t.place with
  | .core d k => some (48 * d + k)
  | _ => none

/-- The PC of a gang. -/
def Group.pcOf (g : Group) (m : Word) : DWord := match g.lane? (lowest m) with | some l => l.pc | none => 0

/-- A ready gang may issue: a stepped group's gangs only where STEPSEL lets them (R349, R367). -/
def State.mayIssue (s : State) (t : Team) (g : Group) (m : Word) : Bool :=
  let r := s.reg (0x100018 + 0x40 * t.ctx) 0
  g.step.isNone || !r.getLsbD 0 || (g.pcOf m).toNat = 4 * bits64 r 2 52

/-- The ready groups of a core. -/
def State.readyOn (s : State) (core : Nat) : List (GRef × Group) :=
  s.teams.flatMap fun p =>
    if p.2.coreNo == some core && p.2.endedAt.isNone then
      (p.2.groups.zipIdx.filter fun q => q.1.gangs.any (s.mayIssue p.2 q.1)).map fun q => ({ team := p.1, grp := q.2 }, q.1)
    else []

/-- R21: an aged group, the longest-waiting first; else the highest effective priority; among equals the one that issued
least recently. -/
def better (core : Nat) (a b : Group) : Bool :=
  if a.aged != b.aged then a.aged
  else if a.aged then a.lastIss < b.lastIss
  else if a.eff core != b.eff core then a.eff core > b.eff core
  else a.lastIss < b.lastIss

/-- The group that a core selects. -/
def State.pick (s : State) (core : Nat) : Option GRef :=
  ((s.readyOn core).foldl (fun (b : Option (GRef × Group)) p => match b with
    | some q => if better s.core p.2 q.2 then some p else some q
    | none => some p) none).map Prod.fst

/-- The first core with a ready group, from the turn on. -/
def State.nextCore (s : State) : Option Nat :=
  let busy := (s.teams.filterMap fun p => p.2.coreNo).eraseDups.filter fun c => (s.pick c).isSome
  let after := busy.filter (· ≥ s.turn)
  match after.min? with
  | some c => some c
  | none => busy.min?

/-! ### Fetch -/

/-- What a fetch of one parcel gives (R89, R106 step 1): the parcel, a fault, a missing translation, a wait. -/
inductive Fetched
  | parcel (bs : List Byte) | fault (code : Nat) | miss (va : Nat) | wait (s : State)

/-- One parcel at a virtual address. It reads memory as it stands, the choice R89 leaves (log 11), and data in error is FLT_POISON
to it as to any reader (R417, log 35). -/
def State.fetchParcel (s : State) (t : Team) (r : GRef) (lane va : Nat) : Fetched :=
  if va ≥ 2 ^ 54 then .fault fltRange
  else match s.reach t.ctx (.lane r lane) va .x 4 with
    | .fault code => .fault code
    | .miss => .miss va
    | .ok l =>
      if (s.ownerOf (l.pa / 128)).isSome then .wait (s.touch t (l.pa / 128) { cls := 0, rd := 0 } false)
      else if (l.lines 4).any (s.marked (some t.clusterSid)) then .wait s
      else
        let hs := s.coh.lacks (halvesOf l.pa 4) false
        if hs.isEmpty then (if s.poisoned l 4 then .fault fltPoison else .parcel (s.leafBytes (s.acc t) l 4))
        else .wait ((s.askHalves hs false (some (t.ctx, va / 4096))).keepInUse t.ctx [(.lane r lane, va / 4096)])

/-- The parcels of the instruction at an address: two, or three behind a prefix (R87, R88). -/
def State.fetch (s : State) (t : Team) (r : GRef) (lane : Nat) (pc : DWord) : Fetched :=
  match s.fetchParcel t r lane pc.toNat with
  | .parcel a => match s.fetchParcel t r lane (pc.toNat + 4) with
    | .parcel b =>
      if (a.getD 3 0).toNat / 16 = 15 then
        match s.fetchParcel t r lane (pc.toNat + 8) with
        | .parcel c => .parcel (a ++ b ++ c)
        | y => y
      else .parcel (a ++ b ++ [0, 0, 0, 0])
    | y => y
  | y => y

/-! ### Issue -/

/-- The gang of a state as its instruction opens it, before any decode. -/
def State.opened (s : State) : Option Gx := openGang s none

/-- A gang's lanes still stand where they were chosen and may issue. -/
def Group.stands (g : Group) (c : Cur) : Bool :=
  g.ready &&& c.lanes = c.lanes && c.lanes != 0 &&
  (lanesOf c.lanes).all fun i => match g.lane? i with | some l => l.pc = c.pc | none => false

/-- The trap and the stop of a group as another holds them. -/
def Group.trapOf (g h : Group) : Group :=
  { g with intrap := h.intrap, trapping := h.trapping, cause := h.cause, stop := h.stop, step := h.step }

/-- The group has trapped or stopped since. -/
def Group.struck (g before : Group) : Bool := (g.intrap && !before.intrap) || (g.stop.isSome && g.stop != before.stop)

/-- The group has returned from its trap since. -/
def Group.returned (g before : Group) : Bool := before.intrap && !g.intrap

/-- Lanes stand at an address. -/
def Group.standAt (g : Group) (m : Word) (pc : DWord) : Group := g.modLanes m fun l => if l.exited then l else { l with pc := pc }

/-- Lanes of the trapping gang go to their resume PCs, as TRET sends them (R241). -/
def Group.resumed (g : Group) (m : Word) : Group :=
  g.modLanes m fun l => if l.exited then l else { l with pc := l.trapPc, wait := .none }

/-- The second gang of a cycle whose first has trapped, stopped or returned from a trap: its instruction completes too (R43), so
it runs as if the group had not trapped or stopped, and from its own address. -/
def State.besideTrap (s : State) (c : Cur) : State × Cur :=
  match s.grp? c.g, c.pre with
  | some g, some p =>
    if g.struck p then (s.modGrp c.g fun g => g.trapOf p, { c with first := some g })
    else if g.returned p then (s.modGrp c.g fun g => g.standAt c.lanes c.pc, { c with first := some g })
    else (s, c)
  | _, _ => (s, c)

/-- How such a gang ends, from the state before it: the first gang's trap or stop is the one reported; where the second raised
one too, it has not executed (R23). Behind a TRET its lanes go to their resume PCs, but where it trapped or stopped itself. -/
def State.settleSecond (s : State) (c : Cur) (t : State) : State :=
  match c.first, c.pre, t.grp? c.g with
  | some g, some p, some h =>
    if g.struck p then (if h.struck p then s.modGrp c.g fun _ => g else t.modGrp c.g fun h => h.trapOf g)
    else if h.struck g then t
    else t.modGrp c.g fun h => h.resumed (c.lanes &&& p.trapping)
  | _, _, _ => t

/-- User-interrupt delivery to a gang (R366): its lanes record their PCs and go on at UIVEC. -/
def State.deliver (s : State) (r : GRef) (lanes : Word) (vec : DWord) : State :=
  s.modGrp r fun g =>
    { g with
      uip := false, uigang := lanes
      lanes := g.lanes.mapIdx fun i l =>
        if lanes.getLsbD i then { l with uiPc := l.pc, pc := vec, wait := .none } else l }

/-- Delivery may happen to a gang now (R366). -/
def State.deliverable (s : State) (r : GRef) (lanes : Word) : Option DWord :=
  match s.team? r.team, s.grp? r with
  | some t, some g => match s.ctx? t.ctx with
    | some c =>
      if g.uip && c.uivec != 0 && !g.intrap && g.uigang &&& g.live = 0 && g.stop.isNone && g.inRegion &&& lanes = 0 && lanes != 0 then
        some c.uivec
      else none
    | none => none
  | _, _ => none

/-- What the issuing gang runs: an instruction, or the state that a fetch or decode fault, a wait or a delivery leaves. -/
inductive Issue
  | run (i : Instr) (s : State) | finished (s : State)

/-- A fetch that misses its translation: lanes with a region open abort it, without a request (R211), and the others wait for
the page (R352). -/
def Gx.fetchMiss (x : Gx) (s : State) (va : Nat) : State :=
  let rs := x.g.inRegion &&& x.c.lanes
  let rest := x.c.lanes &&& ~~~rs
  let t := s.modGrp x.c.g fun g => (lanesOf rs).foldl (fun g l => g.abort l abFault 0 fltNotPresent) g
  if rest = 0 then t
  else { x with all := rest }.stall (t.request x.t.ctx (.lane x.c.g (lowest rest)) va false)

/-- The gang fetched and decoded (R106 steps 1 to 3). An F-form instruction gives way to a pending user interrupt, but not in
a cycle whose first gang has trapped or stopped (R43). -/
def State.issueGang (s : State) (c : Cur) : Issue :=
  let t := { s with cur := some c }
  match t.opened with
  | none => .finished s
  | some x =>
    match s.fetch x.t c.g (lowest c.lanes) c.pc with
    | .fault code => .finished { x.fault t code with cur := none }
    | .miss va => .finished { x.fetchMiss s va with cur := none }
    | .wait u => .finished { x.stall u with cur := none }
    | .parcel bs => match decode bs with
      | .error .opcodeRule | .error .tooShort => .finished { x.fault t fltOpcode with cur := none }
      | .error .prefixRule => .finished { x.fault t fltPrefix with cur := none }
      | .ok (i, _) =>
        match (if (i matches .dual _ _) || c.first.isSome then none else s.deliverable c.g c.lanes) with
        | some v => .finished (s.deliver c.g c.lanes v)
        | none => .run i t

/-- The counts of issues brought up to date as a group issues (R33); a step takes its one cycle (R367). -/
def Group.countIssue (g : Group) (core : Nat) (ms : Word) : Group :=
  { g with
    aged := false, lastIss := core
    step := g.step.map fun p => if p.lanes = 0 then { lanes := ms, left := ms } else p
    lanes := g.lanes.mapIdx fun i l => if ms.getLsbD i then { l with issues := 0 } else { l with issues := l.issues + 1 } }

/-- The issue cycle of a group: its registers fuse, its gangs are chosen, the first becomes the issuing gang and the second
waits its turn in the same cycle (R22 to R24, R27). -/
def State.issueGroup (s : State) (r : GRef) : Option (Cur × State) :=
  match s.team? r.team, s.grp? r with
  | some t, some g0 =>
    let g := g0.fuse
    match g.chosen s.core (g.gangs.filter (s.mayIssue t g)) with
    | [] => none
    | [a] =>
      some ({ g := r, lanes := a, pc := g.pcOf a, pre := none, first := none },
        { (s.modGrp r fun _ => g.countIssue s.core a) with second := none })
    | a :: b :: _ =>
      let h := g.countIssue s.core (a ||| b)
      some ({ g := r, lanes := a, pc := g.pcOf a, pre := some h, first := none },
        { (s.modGrp r fun _ => h) with second := some { g := r, lanes := b, pc := g.pcOf b, pre := some h, first := none } })
  | _, _ => none

end Sys2Proof.Machine
end

