-- ==== Sys2Proof/Machine/Save.lean ====
section
/-! DEFINITION. Group and team records (R369, R370): what a saved context is in memory. -/

namespace Sys2Proof.Machine

open Sys2Proof

/-! ### Group records -/

/-- The gangs of a group, lane 0's first (R370). -/
def Group.allGangs (g : Group) : List Word := ((lanesOf g.live).map g.gangOf).eraseDups

/-- The number of a lane's gang; 0 for an exited lane. -/
def Group.gangNo (g : Group) (i : Nat) : Nat := (g.allGangs.findIdx? fun m => m.getLsbD i).getD 0

/-- The bytes of a store-buffer entry (R370). -/
def StEntry.record (e : StEntry) : List Byte :=
  leBytes 8 (128 * e.line) ++ leBytes 16 (e.bytes.foldl (fun m b => m + 2 ^ b.1) 0) ++
  (List.range 128).map (fun k => (aget e.bytes k).getD 0) ++ leBytes 8 0

/-- The split copies of a register, one for each gang but lane 0's (R370). -/
def Group.splitRecord (g : Group) : List Byte :=
  let regs := (List.range 96).filter g.split.contains
  (regs.flatMap fun r => (g.allGangs.zipIdx.drop 1).flatMap fun p =>
    leBytes 1 p.2 ++ leBytes 1 r ++ leBytes 6 0 ++ leBytes 8 (sget g.copies (32 * r + lowest p.1)).toNat)

/-- Zero bytes up to a length. -/
def padTo (n : Nat) (bs : List Byte) : List Byte := bs ++ List.replicate (n - bs.length) 0

/-- A resume PC that the record holds for a lane without one (log 21). -/
def noPc : Nat := 2 ^ 64 - 1

/-- The resume PC as the record holds it. -/
def resumeWord (m : Word) (i : Nat) (pc : DWord) : List Byte := leBytes 8 (if m.getLsbD i then pc.toNat else noPc)

/-- A word of each lane. -/
def Group.perLane (g : Group) (f : Nat → Lane → List Byte) : List Byte := (g.lanes.zipIdx).flatMap fun p => f p.2 p.1

/-- One word of the MMA latch (R370). -/
def latchHead : Option Latch → Nat
  | some l => 1 + 16 * l.ty.code + 256 * l.fn
  | none => 0

/-- Segment bytes as SPILL writes them (R242). -/
def Group.segment (g : Group) (n : Nat) : List Byte :=
  (List.range 64).flatMap fun p => (List.range 32).flatMap fun l => leBytes 4 (g.vreg (64 * n + p) l).toNat

/-- A group's record (R370). `safe` marks a save at a safe point, `pcOf` gives each lane's PC. -/
def Group.record (g : Group) (k : Kernel) (core : Nat) (safe : Bool) (pcOf : Nat → Lane → DWord) : List Byte :=
  let w := fun (v : DWord) => leBytes 8 v.toNat
  let b := fun (c : Bool) (n : Nat) => if c then 2 ^ n else 0
  let dead := maskOf ((List.range 32).filter fun i => match g.lane? i with | some l => l.exited | none => true)
  let head := w g.budgetReg ++ w g.status ++ w (g.gpri core) ++ w g.cvm ++ w g.rng ++ w g.tvec ++
    leBytes 8 (1 + k.uregs * 2 ^ 8 + k.acc * 2 ^ 16 + b (g.uigang &&& g.live != 0) 20 + b g.uip 21 + b safe 22 +
      dead.toNat * 2 ^ 32) ++
    leBytes 8 (g.unacked % 2 ^ 16) ++ g.perLane (fun i l => leBytes 8 (pcOf i l).toNat) ++
    g.perLane (fun _ l => leBytes 4 l.wb) ++ (List.range 16).flatMap (fun n => leBytes 4 (if n = 0 then 0 else (g.mreg n).toNat)) ++
    (List.range 96).flatMap (fun n => leBytes 8 (g.sreg (lowest g.live) n).toNat) ++
    (List.range 8).flatMap (fun t => leBytes 8 (g.count.getD t 0 % 2 ^ 12)) ++
    (List.range 8).flatMap (fun t => leBytes 8 (g.ord.getD t 0)) ++ g.perLane (fun _ l => leBytes 4 l.arst.toNat) ++
    g.perLane (fun i l => resumeWord g.trapping i l.trapPc) ++ g.perLane (fun i l => resumeWord g.uigang i l.uiPc) ++
    leBytes 8 (latchHead g.latch) ++
    (match g.latch with
      | some l => l.rows.flatMap fun r => r.flatMap fun x => leBytes 4 x.toNat
      | none => [])
  padTo 0x10000 (padTo 0x4000 (padTo 0x3800 (padTo 0x1000 head ++ g.stbuf.flatMap StEntry.record) ++
    (List.range 32).flatMap (fun i => leBytes 1 (g.gangNo i))) ++ g.splitRecord) ++
  (List.range g.nseg).flatMap fun n => g.segment (g.sbot + n)

/-- A group's state read from a record (R370): `rd` reads n bytes at an offset, `paOf` gives the physical line of a buffered
entry where it is known. Pause and aging start afresh, and SAFE zeroes what R40 names. DESIGN CHOICE (log 66): a record that
software has changed is loaded as it stands in what no rule checks: $rng 0, ROUND codes without a meaning, reserved bits; a PC
is a multiple of 4 (R89), so its two low bits are dropped. The record holds no lane, CLASS or RD of an entry (log 67): it drains as a normal store at 0, and lane 0 answers for it. -/
def Group.ofRecord (g : Group) (k : Kernel) (rd : Nat → Nat → Nat) (paOf : Nat → Option Nat) : Group :=
  let word := fun (o : Nat) => BitVec.ofNat 64 (rd o 8)
  let budget := rd 0 8
  let status := rd 8 8
  let flags := rd 0x30 8
  let bit := fun (v n : Nat) => v / 2 ^ n % 2 = 1
  let nseg := budget / 2 ^ 48 % 16
  let bseg := budget % 16
  let safelive := budget / 2 ^ 16 % 2 ^ 10
  let sbot := budget / 2 ^ 32 % 2 ^ 16
  let safe := bit flags 22
  let wbOf := fun (l : Nat) => rd (0x140 + 4 * l) 4
  let gang := fun (l : Nat) => rd (0x3800 + l) 1
  let resume := fun (base : Nat) => maskOf ((List.range 32).filter fun l => rd (base + 8 * l) 8 != noPc)
  let ents := (List.range 3072).filterMap fun n =>
    let e := rd (0x4000 + 16 * n) 2
    if e % 256 = 0 then none else some (e % 256, e / 256, word (0x4000 + 16 * n + 8))
  let split := (ents.map fun e => e.2.1).eraseDups
  let sreg := fun (n : Nat) => if safe && n ≥ k.uregs then 0 else word (0x200 + 8 * n)
  let copyOf := fun (n l : Nat) => match ents.find? fun e => e.1 == gang l && e.2.1 == n with
    | some e => e.2.2
    | none => sreg n
  let latch := rd 0x800 8
  { g with
    bseg := bseg, hseg := budget / 2 ^ 8 % 16, safelive := safelive
    lanes := g.lanes.mapIdx fun i _ =>
      { pc := BitVec.ofNat 64 (rd (0x40 + 8 * i) 8 / 4 * 4), wb := wbOf i, exited := bit flags (32 + i), stopped := false, wait := .none, paused := 0,
        trapPc := word (0x600 + 8 * i), uiPc := word (0x700 + 8 * i), arst := BitVec.ofNat 32 (rd (0x580 + 4 * i) 4),
        region := none, issues := 0, since := 0 }
    vregs := ssetAll [] ((List.range (64 * nseg)).flatMap fun p => (List.range 32).map fun l =>
      let pos := 64 * sbot + p
      let dead := safe && wbOf l + safelive ≤ pos && pos < wbOf l + 64 * bseg
      (32 * pos + l, if dead then 0 else BitVec.ofNat 32 (rd (0x10000 + 128 * p + 4 * l) 4)))
    sregs := ssetAll [] ((List.range 96).map fun n => (n, sreg n))
    split := split
    copies := ssetAll [] (split.flatMap fun n => (List.range 32).map fun l => (32 * n + l, copyOf n l))
    mregs := ssetAll [] (((List.range 16).drop 1).map fun n => (n, BitVec.ofNat 32 (rd (0x1C0 + 4 * n) 4)))
    pri := rd 0x10 8 % 16
    aged := false
    cvm := word 0x18, rng := word 0x20, tvec := word 0x28
    sbot := sbot, nseg := nseg
    cause := status / 2 ^ 16 % 2 ^ 16, wspan := bit status 7, intrap := bit status 6, divw := bit status 0
    trapping := if bit status 6 then resume 0x600 else 0
    uip := bit flags 21
    uigang := if bit flags 20 then resume 0x700 else 0
    stbuf := (List.range 64).filterMap fun n =>
      let o := 0x1000 + 160 * n
      let m := rd (o + 8) 16
      if m = 0 then none
      else some { line := rd o 8 / 128, lanes := [], pa := paOf (rd o 8), through := false, rd := 0
                  bytes := ((List.range 128).filter (bit m)).map fun b => (b, BitVec.ofNat 8 (rd (o + 24 + b) 1)) }
    wcbuf := []
    unacked := rd 0x38 8 % 2 ^ 16
    carried := rd 0x38 8 % 2 ^ 16
    count := (List.range 8).map fun t => rd (0x500 + 8 * t) 8 % 2 ^ 12
    ord := (List.range 8).map fun t => rd (0x540 + 8 * t) 8
    latch := if bit latch 0 then
        some { ty := Ty.ofCode (latch / 16 % 16), fn := latch / 256 % 2,
               rows := (List.range 32).map fun l => (List.range 9).map fun n => BitVec.ofNat 32 (rd (0x808 + 36 * l + 4 * n) 4) }
      else none }

/-- The budget, .uregs and .acc of a record are the launch's (R243), and its NSEG lies within them (R62). -/
def recordFits (k : Kernel) (rd : Nat → Nat → Nat) : Bool :=
  let b := rd 0 8
  let f := rd 0x30 8
  b % 2 ^ 4 = k.bseg && b / 2 ^ 8 % 16 = k.hseg && b / 2 ^ 16 % 2 ^ 10 = k.safelive && f / 2 ^ 8 % 256 = k.uregs &&
  f / 2 ^ 16 % 16 = k.acc && b / 2 ^ 48 % 16 ≤ k.bseg + k.hseg && f % 256 = 1

/-- The record has a lane that has not exited at a PC that is no multiple of 4 (R89). -/
def oddRecord (rd : Nat → Nat → Nat) : Bool :=
  (List.range 32).any fun i => rd 0x30 8 / 2 ^ (32 + i) % 2 = 0 && rd (0x40 + 8 * i) 8 % 4 != 0

/-! ### Team records -/

/-- Bytes of a group record in a team record, and of a team record, rounded to 64 KiB (R369). -/
def Kernel.groupSize (k : Kernel) : Nat := 65536 + 8192 * (k.bseg + k.hseg)
def Kernel.teamSize (k : Kernel) : Nat :=
  let n := 4096 + 262144 * k.acc + 4096 * k.scratch + k.team * k.groupSize
  (n + 65535) / 65536 * 65536

/-- A team's record (R369). -/
def Team.record (t : Team) (qid : Nat) (seq : DWord) (core : Nat) (safe : Group → Bool) : List Byte :=
  let head := leBytes 4 t.x ++ leBytes 4 t.y ++ leBytes 4 t.z ++ leBytes 2 qid ++ leBytes 2 t.cidx ++ leBytes 8 seq.toNat ++
    leBytes 1 t.groups.length ++ leBytes 1 t.kern.acc ++ leBytes 2 t.kern.scratch ++ leBytes 4 0 ++
    padTo 64 (t.tiles.flatMap fun c => leBytes 4 c.iss.toNat ++ leBytes 4 c.cmp.toNat) ++
    padTo 64 (t.bars.flatMap fun m => leBytes 4 m.toNat) ++ padTo 64 (t.cbars.flatMap fun m => leBytes 4 m.toNat)
  padTo 0x1000 head ++
  t.tiles.flatMap (fun c => (List.range 65536).flatMap fun n => leBytes 4 (sget c.cells n).toNat) ++
  (List.range (4096 * t.kern.scratch)).map (sget t.scratch) ++
  t.groups.flatMap fun g => padTo t.kern.groupSize (g.record t.kern core (safe g) fun _ l => l.pc)

/-- Where the group records of a team record begin (R369). -/
def Kernel.groupsAt (k : Kernel) : Nat := 4096 + 262144 * k.acc + 4096 * k.scratch

/-- A team's state read from its record (R369). -/
def Team.ofRecord (t : Team) (rd : Nat → Nat → Nat) (paOf : Nat → Option Nat) : Team :=
  let k := t.kern
  { t with
    tiles := t.tiles.mapIdx fun i _ =>
      { cells := ssetAll [] ((List.range 65536).map fun n => (n, BitVec.ofNat 32 (rd (0x1000 + 262144 * i + 4 * n) 4)))
        iss := BitVec.ofNat 32 (rd (0x20 + 8 * i) 4), cmp := BitVec.ofNat 32 (rd (0x24 + 8 * i) 4) }
    bars := t.bars.mapIdx fun n _ => BitVec.ofNat 32 (rd (0x60 + 4 * n) 4)
    cbars := t.cbars.mapIdx fun n _ => BitVec.ofNat 32 (rd (0xA0 + 4 * n) 4)
    scratch := ssetAll [] ((List.range (4096 * k.scratch)).map fun n =>
      (n, BitVec.ofNat 8 (rd (4096 + 262144 * k.acc + n) 1)))
    groups := t.groups.mapIdx fun i g => g.ofRecord k (fun o n => rd (k.groupsAt + i * k.groupSize + o) n) paOf }

end Sys2Proof.Machine
end

