-- ==== Sys2Proof/Machine/Groups.lean ====
section
/-! DEFINITION. What happens to groups of its own accord: waits end, copies land, stores drain, groups end, priorities age,
user interrupts reach waiting gangs (R30, R33, R34, R181 to R184, R197 to R203, R265, R266, R362, R366). An event whose
condition does not hold leaves the state as it is. -/

namespace Sys2Proof.Machine

open Sys2Proof

/-- The lanes that wait with a lane at one instruction and window: the waiting gang. -/
def Group.waiters (g : Group) (i : Nat) : Word :=
  match g.lane? i with
  | some x => maskOf ((List.range 32).filter fun j => match g.lane? j with
      | some y => !y.exited && !y.stopped && y.pc = x.pc && y.wb = x.wb && y.wait = x.wait
      | none => false)
  | none => 0

/-- Waiting lanes go on past their instruction, eight bytes long; a step has seen it through. -/
def Group.pass (g : Group) (m : Word) : Group :=
  { g.modLanes m fun l => { l with pc := l.pc + 8, wait := .none } with step := g.step.map fun p => p.done m }

/-- An event of one group: the state it leaves. -/
def onGroup (s : State) (r : GRef) (f : Team → Group → State) : Host.Outcome State Fault Refusal :=
  match s.team? r.team with
  | none => .next s
  | some t => match t.groups[r.grp]? with
    | none => .next s
    | some g => .next (f t g)

/-! ### Waits -/

/-- JOIN_COMPLETE (R30). -/
def execJoinComplete (r : GRef) (lane : Nat) (s : State) : Host.Outcome State Fault Refusal :=
  onGroup s r fun _ g => if g.joined lane then s.modGrp r fun g => g.joinGo lane else s

/-- Every lane that waits at a barrier proceeds, and the masks of arrived groups are cleared (R182). -/
def Team.passBarrier (t : Team) (cluster : Bool) (n : Nat) : Team :=
  let w : Wait := if cluster then .cbar n else .bar n
  let clear := fun (ms : List Word) => modAt ms n fun _ => (0 : Word)
  { t with
    bars := if cluster then t.bars else clear t.bars
    cbars := if cluster then clear t.cbars else t.cbars
    groups := t.groups.map fun g => g.pass (maskOf ((List.range 32).filter fun i => g.waitOf i == w)) }

/-- Every group of the team that has not ended has arrived (R182). -/
def Team.arrived (t : Team) (cluster : Bool) (n : Nat) : Bool := t.groups.all fun g => g.ended || g.at_ cluster n

/-- BARRIER_COMPLETE (R182, R424). -/
def execBarrierComplete (team : Nat) (cluster : Bool) (n : Nat) (s : State) : Host.Outcome State Fault Refusal :=
  match s.team? team with
  | none => .next s
  | some t =>
    let ts := if cluster then s.cluster t else [(team, t)]
    if ts.all (fun p => p.2.arrived cluster n) && ts.any (fun p => p.2.groups.any fun g => g.at_ cluster n) then
      let u := ts.foldl (fun s p => s.modTeam p.1 fun t => t.passBarrier cluster n) s
      .next (if n = 15 && !cluster && t.x = 0 && t.y = 0 && t.z = 0 then u.endPhase t.launch else u)
    else .next s

/-- WAITSEQ_SATISFIED (R183): the word is read as the lane's loads are, over its group's own stores (R262) and after those of
a promoted release (R263). One that cannot be read as it stands makes the lane run WAITSEQ again. -/
def execWaitseqSatisfied (r : GRef) (lane : Nat) (s : State) : Host.Outcome State Fault Refusal :=
  onGroup s r fun t g =>
    match g.waitOf lane with
    | .seq addr wide value =>
      let n := if wide then 8 else 4
      let again := s.modGrp r fun g => g.modLane lane fun l => { l with wait := .none }
      match s.reach t.ctx (.lane r lane) addr.toNat .r n with
      | .ok l =>
        if g.unresolved != 0 || (l.lines n).any fun k => (s.ownerOf k).isSome || s.marked (some t.clusterSid) k then s
        else if s.poisoned l n || !(s.coh.lacks (halvesOf l.pa n) false).isEmpty then again
        else if seqReached (8 * n) (leNat (s.readBytes t g l n)) value.toNat then
          s.modGrp r fun g => g.pass (BitVec.ofNat 32 (2 ^ lane))
        else s
      | _ => again
    | _ => s

/-- Lanes of a group cannot issue: it has stopped, or another gang is in a trap (R241, R357). -/
def Group.barred (g : Group) (m : Word) : Bool := g.silent || (g.intrap && m &&& g.trapping != m)

/-- A waiting gang of a stepped group has its opportunity to issue: it belongs to the step's cycle, or would be chosen for it
(R301, R367). -/
def State.stepTurn (s : State) (t : Team) (g : Group) (m : Word) : Bool :=
  match g.step with
  | none => true
  | some p =>
    if p.lanes = 0 then (g.chosen s.core ((m :: g.gangs).filter (s.mayIssue t g))).contains m else m &&& p.left = m

/-- SLEEP_WAKE (R184): a promise missed is a trap after the SLEEP. The counter is read at the gang's first opportunity to
issue (R301). -/
def execSleepWake (r : GRef) (lane : Nat) (s : State) : Host.Outcome State Fault Refusal :=
  onGroup s r fun t g =>
    let m := g.waiters lane
    if g.barred m || !s.stepTurn t g m then s else
    match g.waitOf lane with
    | .sleep wake none => if s.cycle ≥ wake then s.modGrp r fun g => g.pass m else s
    | .sleep wake (some tag) =>
      if s.cycle % 2 ^ 60 < wake then s
      else if g.countOf tag = 0 then s.modGrp r fun g => g.pass m
      else
        let pc := match g.lane? lane with | some l => l.pc + 8 | none => 0
        (s.modGrp r fun g => g.pass m).takeTrap r m trpPromise 0 pc.toNat fun _ => pc
    | _ => s

/-- BOBJ_WAIT_PASS (R197). -/
def execBobjWaitPass (r : GRef) (lane : Nat) (s : State) : Host.Outcome State Fault Refusal :=
  onGroup s r fun t g =>
    match g.waitOf lane with
    | .bobj addr phase _ => match s.scratchAt t addr 8 with
      | some p =>
        if s.scratchNat p.1 p.2 8 / 2 ^ 32 != phase.toNat then s.modGrp r fun g => g.pass (g.waiters lane) else s
      | none => s
    | _ => s

/-- ACWAIT_PROCEED (R199). -/
def execAcwaitProceed (r : GRef) (lane : Nat) (s : State) : Host.Outcome State Fault Refusal :=
  onGroup s r fun _ g =>
    match g.waitOf lane with
    | .acwait w => if g.acDone w then s.modGrp r fun g => g.pass (g.waiters lane) else s
    | _ => s

/-- AWF_SLOT_TAKEN (R203): a header that has become inconsistent makes the gang run AWF again. -/
def execAwfSlotTaken (r : GRef) (lane : Nat) (s : State) : Host.Outcome State Fault Refusal :=
  onGroup s r fun t g =>
    match g.waitOf lane with
    | .awf ring d =>
      let m := g.waiters lane
      match s.scratchAt t ring 64 with
      | some p =>
        if !(s.ringAt p.1 p.2).consistent then s.modGrp r fun g => g.modLanes m fun l => { l with wait := .none }
        else match s.takeSlot p.1 p.2 ring with
          | some (v, u) => u.modGrp r fun g =>
              (match d with
                | .s n => g.setS g.diverged m n (BitVec.ofNat 64 v)
                | _ => g).pass m
          | none => s
      | none => s
    | _ => s

/-! ### Priority -/

/-- PAUSE_EXPIRY (R34). -/
def execPauseExpiry (r : GRef) (s : State) : Host.Outcome State Fault Refusal :=
  onGroup s r fun _ _ => s.modGrp r fun g =>
    { g with lanes := g.lanes.map fun l => if l.paused ≤ s.core then { l with paused := 0 } else l }

/-- GROUP_AGED (R33): it is measured from the group's last issue (log 22). -/
def execGroupAged (r : GRef) (s : State) : Host.Outcome State Fault Refusal :=
  onGroup s r fun _ g =>
    if g.ready != 0 && s.core ≥ g.lastIss + 64 then s.modGrp r fun g => { g with aged := true } else s

/-! ### Copies and stores -/

/-- The bytes that a copy of a team reads, and whether it can read them now (R263, R286). -/
def State.copySource (s : State) (t : Team) (c : Copy) : Option (List Byte) :=
  match c.data, c.src with
  | some bs, _ => some bs
  | none, none => some []
  | none, some l =>
    if (l.lines c.valid).any fun n => (s.ownerOf n).isSome || s.marked (some t.clusterSid) n then none
    else some (s.leafBytes (s.acc t) l c.valid)

/-- COPY_LAND (R198): an error in the source writes nothing and is FLT_POISON at the ACP; so with a line of a pseudo-channel
that has been fenced since (R414). -/
def execCopyLand (r : GRef) (k : Nat) (s : State) : Host.Outcome State Fault Refusal :=
  onGroup s r fun t g =>
    match g.flight[k]? with
    | none => s
    | some c =>
      let src := if c.data.isSome then none else c.src
      let lack := match src with | some l => s.coh.lacks (halvesOf l.pa c.valid) false | none => []
      if !lack.isEmpty then s.askHalves lack false
      else match s.copySource t c with
        | none => s
        | some bs =>
          let bad := src.bind fun l =>
            if (l.lines c.valid).any s.lineFenced then some fltFenced else if s.poisoned l c.valid then some fltPoison else none
          let u := if bad.isSome then s else s.scratchWrite c.team c.dst (bs ++ List.replicate (c.size - bs.length) 0)
          let v := (u.modTeam c.team fun t => { t with inbound := t.inbound - 1 }).modGrp r fun g =>
            { g with flight := dropAt g.flight k, count := modAt g.count c.tag fun n => n - 1 }
          match bad with
          | some code => v.stopGroup r code 0 0xFF c.pc.toNat c.va .reexec
          | none => v

/-- Two entries may lie in one line: a line that is not known yet may be any (R265, R370). -/
def StEntry.meets (d e : StEntry) : Bool := d.pa.isNone || e.pa.isNone || d.pa == e.pa

/-- STORE_DRAIN (R265, R362): the entries of one line drain in order, those of the store buffer first. -/
def execStoreDrain (r : GRef) (k : Nat) (combining : Bool) (s : State) : Host.Outcome State Fault Refusal :=
  onGroup s r fun t g =>
    let es := if combining then g.wcbuf else g.stbuf
    match es[k]?, t.place with
    | some e, .core _ _ =>
      if ((if combining then g.stbuf else []) ++ es.take k).any fun d => d.meets e then s
      else match s.drainEntry r combining k with
        | .done t => t
        | .wait t => t
    | _, _ => s

/-- Where a field of a saved group's record lies in memory (R369). -/
def State.savedField (s : State) (r : GRef) (o : Nat) : Option Nat :=
  match s.team? r.team with
  | some t => match s.ctx? t.ctx, t.place with
    | some x, .saved => some (x.savebase + t.pool + t.kern.groupsAt + r.grp * t.kern.groupSize + o)
    | _, _ => none
  | none => none

/-- STORE_ACK (R263, R266): that of a saved group updates the count in its record. -/
def execStoreAck (r : GRef) (s : State) : Host.Outcome State Fault Refusal :=
  onGroup s r fun _ g =>
    if g.unacked = 0 then s
    else
      let t := s.modGrp r fun g => { g with unacked := g.unacked - 1, carried := g.carried - 1 }
      let u := { t with coh := t.coh.acked r }
      match s.savedField r 0x38 with
      | some a => u.writeBytes (located a (leBytes 2 (s.natAt a 2 - 1)))
      | none => u

/-! ### Ends -/

/-- A group's lanes have exited and nothing of it is outstanding (R181). -/
def Group.finished (g : Group) : Bool :=
  !g.ended && g.stop.isNone && g.live = 0 && g.stbuf.isEmpty && g.wcbuf.isEmpty && g.unacked = 0 && g.flight.isEmpty &&
  g.count.all (· = 0)

/-- A tile operation of the team, or a card of a chain bound to it, is in flight (R218, R229). -/
def State.arrayBusy (s : State) (team : Nat) : Bool :=
  (s.tileJobs.any fun j => j.team == team) ||
  s.chains.any fun p => p.2.bound = some team && !p.2.queue.isEmpty

/-- A context that is being pre-empted and has no resident team left is SAVED, and CTXVEC is sent (R368). -/
def State.settleSave (s : State) (c : Nat) : State :=
  match s.ctx? c with
  | none => s
  | some x =>
    let resident := s.teams.any fun p => p.2.ctx == c && p.2.endedAt.isNone && p.2.place != .saved
    if x.state == .preempting && !resident then
      (s.modCtx c fun x => { x with state := .saved }).interrupt x.ctxvec
    else s

/-- A team ends (R181): its launch counts it, and chains bound to it are unbound (R229). -/
def State.endTeam (s : State) (team : Nat) : State :=
  match s.team? team with
  | none => s
  | some t =>
    let u := s.modTeam team fun t => t.finish s.cycle
    ({ u with
      launches := amod u.launches t.launch fun l => { l with ended := l.ended + 1 }
      chains := u.chains.map fun (p : Nat × Chain) =>
        if p.2.bound = some team then (p.1, { p.2 with bound := none }) else p }).settleSave t.ctx

/-- GROUP_END (R181, R218): the last group of a team waits for the array. -/
def execGroupEnd (r : GRef) (s : State) : Host.Outcome State Fault Refusal :=
  onGroup s r fun t g =>
    let last := (t.groups.zipIdx.all fun p => p.2 = r.grp || p.1.ended)
    if !g.finished || (last && s.arrayBusy r.team) then s
    else
      let u := s.modGrp r fun g => { g with ended := true, vregs := [], nseg := 0 }
      if last then u.endTeam r.team else u

/-! ### User interrupts -/

/-- The waits at which a user interrupt reaches a gang (R38, R366). -/
def Wait.interruptible : Wait → Bool
  | .bar _ | .cbar _ | .seq _ _ _ | .awf _ _ | .sleep _ _ | .acwait _ => true
  | _ => false

/-- UI_DELIVERY to a waiting gang (R366); one about to issue meets it at its issue. -/
def execUiDelivery (r : GRef) (lane : Nat) (s : State) : Host.Outcome State Fault Refusal :=
  onGroup s r fun _ g =>
    let m := g.waiters lane
    if !(g.waitOf lane).interruptible then s
    else match s.deliverable r m with
      | some v => s.deliver r m v
      | none => s

end Sys2Proof.Machine
end

