-- ==== Sys2Proof/Machine/Part.lean ====
section
/-! DEFINITION. The part's own accesses to a context's memory: inboxes, rings, node arrays, completion words, cards (R205, R327,
R385, R393, R400 to R402). An access that cannot be translated reads free values and writes nothing (log 20). -/

namespace Sys2Proof.Machine

open Sys2Proof

/-- Pages that n bytes at a virtual address touch. -/
def pagesOf (va n : Nat) : List Nat := if n = 0 then [] else (List.range ((va + n - 1) / 4096 - va / 4096 + 1)).map (va / 4096 + ·)

/-- The part of a span of bytes on each page, as first byte, length, and whether it is written. -/
def bufferParts (va n : Nat) (write : Bool) : List (Nat × Nat × Bool) :=
  (pagesOf va n).map fun p => (Nat.max va (4096 * p), Nat.min (va + n) (4096 * (p + 1)) - Nat.max va (4096 * p), write)

/-- The page of an access of n bytes by a unit of the part (R414). -/
def State.partLeaf (s : State) (c : Nat) (a : Agent) (va : Nat) (w : Bool) (n : Nat) : Xlat :=
  s.reach c a va (if w then .w else .r) n

/-- What a list of accesses waits for, each by the need that `see` gives a read or a write: the state with its requests sent,
none when each can go on or fails. -/
def State.partWaitAs (see : Bool → Need) (s : State) (c : Nat) (a : Agent) (ws : List (Nat × Nat × Bool)) : Option State :=
  let need := fun (p : State × Bool) (w : Nat × Nat × Bool) =>
    match s.reach c a w.1 (see w.2.2) w.2.1 with
    | .miss => (p.1.request c a w.1 w.2.2, true)
    | .fault _ => p
    | .ok l =>
      let hs := s.coh.lacks (halvesOf l.pa w.2.1) w.2.2
      if !hs.isEmpty then (p.1.askHalves hs w.2.2, true)
      else if (l.lines w.2.1).any fun n => (s.ownerOf n).isSome || (!w.2.2 && s.marked none n) then (p.1, true) else p
  let r := ws.foldl need (s, false)
  if r.2 then some r.1 else none

/-- What a list of accesses by a unit of the part waits for. -/
def State.partWait (s : State) (c : Nat) (a : Agent) (ws : List (Nat × Nat × Bool)) : Option State :=
  s.partWaitAs (fun w => if w then .w else .r) c a ws

/-- The first of some accesses that cannot be made: its code and address. -/
def State.partFail (s : State) (c : Nat) (a : Agent) (ws : List (Nat × Nat × Bool)) : Option (Nat × Nat) :=
  ws.findSome? fun w => match s.partLeaf c a w.1 w.2.2 w.2.1 with
    | .fault code => some (code, w.1)
    | _ => none

/-- n bytes of a context's memory as the part reads them; the object lies in one page. -/
def State.partRead (s : State) (c : Nat) (a : Agent) (va n : Nat) : List Byte :=
  match s.partLeaf c a va false n with
  | .ok l => s.leafBytes { ctx := c } l n
  | _ => (List.range n).map fun i => Config.unread s.free (va + i)

def State.partNat (s : State) (c : Nat) (a : Agent) (va n : Nat) : Nat := leNat (s.partRead c a va n)

/-- A write by the part at a home recalls every cached copy of the lines (R282). -/
def State.atHomes (s : State) (lines : List Nat) : State :=
  { s with coh := lines.foldl (fun c n =>
      if paDevice (128 * n) then c.ask (.of .atHome sidPart n 0) else c) s.coh }

/-- Bytes stored through a page by a unit of the part. -/
def State.partStore (s : State) (c : Nat) (l : Leaf) (bs : List Byte) : State :=
  let t := s.store { ctx := c } l (located 0 bs)
  if Config.hostBase ≤ l.pa then t.dirtyHalves (halvesOf l.pa bs.length) else t.atHomes (l.lines bs.length)

def State.partWrite (s : State) (c : Nat) (a : Agent) (va : Nat) (bs : List Byte) : State :=
  match s.partLeaf c a va true bs.length with
  | .ok l => s.partStore c l bs
  | _ => s

def State.partPut (s : State) (c : Nat) (a : Agent) (va n v : Nat) : State := s.partWrite c a va (leBytes n v)

end Sys2Proof.Machine
end

