-- ==== Sys2Proof/Machine/Engines.lean ====
section
/-! DEFINITION. Engine jobs: taking and checking a card, copy jobs and their segments, ring fills, completion (R204 to R208,
R285 to R290, R306). The checks and iterations of matrix cards are in MatrixJobs. -/

namespace Sys2Proof.Machine

open Sys2Proof

/-! ### Stops of a chain -/

/-- The records that a job holds are let go (R86). -/
def State.dropRecs (s : State) (c : Nat) (j : Job) : State :=
  j.recs.foldl (fun s p => s.modSlot c p.1 fun x => { x with held := x.held - 1 }) s

/-- The counters that count a job's segment are counted down (R290). -/
def State.landed (s : State) (j : Job) : State :=
  j.aimed.foldl (fun s t => s.modTeam t fun x => { x with inbound := x.inbound - 1 }) s

/-- A line that a job has written or leaves is passed on (R286, R289): to a recall that has come, with its answer alone, else
with a notice. A recall that may not be taken yet finds the line later. -/
def State.passOn (s : State) (sid line : Nat) : State :=
  match s.coh.recalls.zipIdx.find? fun p => p.1.sid == sid && p.1.line == line with
  | some (r, k) => if s.coh.inOrder r.n sid line then s.answer k else s
  | none => if (s.coh.held? sid line).isSome then s.evict sid line else s

/-- A job's owned lines are given up (R286, R289). -/
def State.giveUp (s : State) (sid : Nat) (lines : List Nat) : State := lines.foldl (fun s n => s.passOn sid n) s

/-- A job whose chain stops gives its lines back too where the host is their home (R288, R289): what it has written goes
back, the rest is given up. -/
def State.giveBack (s : State) (sid : Nat) (lines : List Nat) : State :=
  (lines.filter hostLine).foldl (fun s n => s.evictHost sid n) (s.giveUp sid lines)

def State.modChain (s : State) (k : Nat) (f : Chain → Chain) : State := { s with chains := amod s.chains k f }

/-- A job is finished, done or failed: what it held is let go (R86, R289, R290). -/
def State.dropJob (s : State) (k : Nat) : State :=
  match aget s.chains k with
  | none => s
  | some c => match c.job with
    | none => s
    | some j => ((s.modChain k fun c => { c with job := none }).landed j).dropRecs c.ctx j |>.giveUp (s.chainSid c) j.owned

/-- A chain's job fails: its host lines are given back as well (R289). -/
def State.failJob (s : State) (k : Nat) : State :=
  match aget s.chains k with
  | none => s
  | some c => (s.dropJob k).giveBack (s.chainSid c) (((c.job.map Job.owned).getD []).filter hostLine)

/-- Queue, SEQ, team index of a chain's fault record: the packet's, or those of the team that enqueued the card (R361). -/
def State.chainOrigin (s : State) (c : Chain) : Nat × DWord × Nat × Nat × Nat :=
  match c.packet with
  | some p => (((aget s.threads p.thread).map Qcp.qid).getD 0xFFFF, p.seq, 0, 0, 0)
  | none => c.origin.head?.getD (0xFFFF, 0, 0, 0, 0)

/-- The card at HEAD is behind the chain. -/
def Chain.past (c : Chain) : Chain :=
  let ps := c.posts.drop 1
  let p := ps.head?.getD (c.engine, c.die, c.core)
  { c with queue := c.queue.drop 1, origin := c.origin.drop 1, posts := ps, engine := p.1, die := p.2.1, core := p.2.2 }

/-- A chain stops (R205, R208, R357, R361): FLT_ENGINE_JOB with a detail and an address. -/
def State.stopChain (s : State) (k detail addr : Nat) (onlyWrite : Bool) : State :=
  match aget s.chains k with
  | none => s
  | some c =>
    let n := (if onlyWrite then s else s.failJob k).newStop c.ctx
    let o := s.chainOrigin c
    let e := s.engineAt c
    let u := n.2.record
      { code := fltEngine, detail := detail, ctx := c.ctx, qid := o.1, seq := o.2.1, x := o.2.2.1, y := o.2.2.2.1,
        z := o.2.2.2.2, stopid := n.1, pc := c.ccb.toNat, addr := addr, die := e.1, unit := 0x80 + c.engine }
    let v : State := { u with details := aset u.details (detailKey c.ctx e.1 e.2 c.engine) detail }
    (v.forgetDenied c.ctx (· = .chain k)).modChain k fun c =>
      { c with stop := some { id := n.1, code := fltEngine, detail := detail, onlyWrite := onlyWrite } }

/-- A card refused for a field of its own: R205 names no detail code (log 13). -/
def State.refuseCard (s : State) (k addr : Nat) : State :=
  s.bump.stopChain k (Config.cardDetail s.free).toNat addr false

/-! ### Pages -/

/-- A page's attributes at an address of the page. -/
def Leaf.shift (l : Leaf) (d : Nat) : Leaf := { l with pa := if l.mxa.isSome then l.pa else l.pa + d, off := l.off + d }

/-- What resolving a job's pages gives (R285): the pages, the code and address of a failure, or a wait. -/
inductive Pages
  | ready (ps : List (Nat × Bool × Leaf)) | failed (code va : Nat) | wait (s : State)

/-- The first address that accesses reach in each page, in their order. -/
def firstInPages (spans : List (Nat × Nat)) : List Nat :=
  (spans.flatMap fun p => (pagesOf p.1 p.2).map fun n => Nat.max p.1 (4096 * n)).eraseDupsBy fun a b => a / 4096 == b / 4096

/-- The page of an address resolved for a chain. The engine does not wait on lines that other engines own (R287). -/
def State.resolvePage (s : State) (c k : Nat) (p : Nat × Bool) : Xlat :=
  s.translate c (.chain k) (4096 * (p.1 / 4096)) (if p.2 then .w else .r)

/-- Pages resolved together, each named by the first address accessed in it: the first failure at that address (R361), else
every missing page is asked for. -/
def State.resolve (s : State) (c k : Nat) (ps : List (Nat × Bool)) : Pages :=
  let xs := ps.map fun p => (p, s.resolvePage c k p)
  match xs.findSome? fun x => match x.2 with | .fault code => some (code, x.1.1) | _ => none with
  | some f => .failed f.1 f.2
  | none =>
    let miss := xs.filter fun x => match x.2 with | .miss => true | _ => false
    if miss.isEmpty then .ready (xs.filterMap fun x => match x.2 with | .ok l => some (x.1.1 / 4096, x.1.2, l) | _ => none)
    else .wait (miss.foldl (fun s x => s.request c (.chain k) (4096 * (x.1.1 / 4096)) x.1.2) s)

/-- The page of an address, at the address. -/
def Job.leafAt (j : Job) (va : Nat) (w : Bool) : Option Leaf :=
  (j.pages.find? fun p => p.1 == va / 4096 && p.2.1 == w).map fun p => p.2.2.shift (va % 4096)

/-- A byte that a job reads. -/
def State.jobByte (s : State) (c : Nat) (j : Job) (va : Nat) : Byte :=
  match j.leafAt va false with
  | some l => s.leafByte { ctx := c } l 0
  | none => match j.leafAt va true with
    | some l => s.leafByte { ctx := c } l 0
    | none => 0

/-- A number that a job reads. -/
def State.jobNat (s : State) (c : Nat) (j : Job) (va n : Nat) : Nat := leNat ((span va n).map (s.jobByte c j))

/-! ### Copy cards -/

/-- A field of a card (R206). -/
def Job.at_ (j : Job) (o n : Nat) : Nat := leNat ((j.card.drop o).take n)
def Job.kind (j : Job) : Nat := j.at_ 0 1
def Job.flag (j : Job) (b : Nat) : Bool := (j.at_ 1 1).testBit b
def Job.sig (j : Job) : Bool := j.flag 0
def Job.ring (j : Job) : Bool := j.flag 1
def Job.mcast (j : Job) : Bool := j.flag 2
def Job.scr (j : Job) : Bool := j.flag 3
def Job.src (j : Job) : Nat := j.at_ 0x10 8
def Job.dst (j : Job) : Nat := j.at_ 0x18 8
def Job.len (j : Job) : Nat := j.at_ 0x20 8

/-- Kinds that an engine accepts (R208). -/
def engineKinds (e : Nat) : List Nat :=
  match e with
  | 4 => [1, 4] | 5 => [1, 5] | _ => [1, 2]

/-- The record of a tile card. -/
def Job.rec? (j : Job) : Option ShapeRec := (j.recs.head?).map Prod.snd

/-- Bytes of a row of a tile, and of its scales (R207). -/
def rowBytes (r : ShapeRec) : Nat := (r.tile0 * r.bits + 7) / 8
def rowScales (r : ShapeRec) : Nat := if r.blk.isSome then r.tile0 / 32 else 0

/-- Element bytes of KIND 0x05 (R206). -/
def accBytes (elem : Nat) : Nat := if elem = 1 then 2 else 4

/-- Bytes of data that a card moves (R206, R207). -/
def Job.total (j : Job) : Nat :=
  match j.kind with
  | 2 => (match j.rec? with | some r => r.tile1 * (rowBytes r + rowScales r) | none => 0)
  | 4 => j.len * j.at_ 8 1
  | _ => j.len

/-- The must-be-zero fields and ranges of a copy card (R206, R207, R208). -/
def Job.copyOk (j : Job) (engine : Nat) : Bool :=
  let k := j.kind
  let elem := j.at_ 8 1
  (engineKinds engine).contains k && j.at_ 1 1 < 16 && j.at_ 2 2 < 2 ^ 12 && (k = 2 || j.at_ 4 4 = 0) &&
  (if k = 4 then [1, 2, 4, 8, 16, 32, 64, 128].contains elem else if k = 5 then elem ≤ 2 else elem = 0) &&
  j.at_ 9 7 = 0 && (!j.scr || j.dst < 2 ^ 20) && 1 ≤ j.len && j.len ≤ 2 ^ 40 && j.at_ 0x4C 52 = 0 &&
  (j.scr || (!j.ring && !j.mcast))

/-- Where an element of a tile's row lies, and its byte in the row (R73, R207): element i0 of row i1. -/
def Job.tileOrigin (j : Job) (r : ShapeRec) : List Nat :=
  let t := fun (i : Nat) => j.at_ (0x30 + 4 * i) 4
  [t 0 * r.tile0, t 1 * r.tile1, t 2, t 3, t 4]

/-- An element lies in the record (R207). -/
def ShapeRec.inside (r : ShapeRec) (ix : List Nat) : Bool := ix.zipIdx.all fun p => p.1 < r.dim p.2

/-- Where byte k of a dense tile comes from (R207): an address, or nothing for bytes beyond a DIM, with the bits kept of a
4-bit pair. -/
def Job.tileByte (j : Job) (r : ShapeRec) (k : Nat) : Option (Nat × Nat) :=
  let o := j.tileOrigin r
  let rb := rowBytes r
  let data := r.tile1 * rb
  let at_ := fun (d0 d1 : Nat) => (o.set 0 (o.getD 0 0 + d0)).set 1 (o.getD 1 0 + d1)
  if k < data then
    let d1 := k / rb
    let d0 := k % rb * 8 / r.bits
    let ix := at_ d0 d1
    if !r.inside ix then none
    else
      let off := k % rb * 8 % r.bits / 8
      some (r.addr ix + off, if r.bits = 4 && !r.inside (at_ (d0 + 1) d1) then 16 else 256)
  else
    let n := k - data
    let ix := at_ (n % rowScales r * 32) (n / rowScales r)
    if r.inside ix then some (r.scaleAddr ix, 256) else none

/-- The addresses that byte k of a card's data is read from, and how many bits of it count. -/
def State.srcOf (s : State) (c : Nat) (j : Job) (k : Nat) : Option (Nat × Nat) :=
  match j.kind with
  | 2 => (j.rec?).bind fun r => j.tileByte r k
  | 4 =>
    let es := j.at_ 8 1
    some (j.src + es * s.jobNat c j (j.at_ 0x28 8 + 4 * (k / es)) 4 + k % es, 256)
  | _ => some (j.src + k, 256)

/-- KIND 0x05 adds two elements (R207). -/
def accAdd (elem a b : Nat) : Nat :=
  let t : Ty := if elem = 0 then .f32 else .bf16
  if elem = 2 then (a + b) % 2 ^ 32 else t.fmt.round .rne false 0 (FV.add false (t.val a) (t.val b))

/-- Byte k of a card's data; `old` reads the destination for KIND 0x05 (R207). DESIGN CHOICE (log 83): where LEN ends inside
an element, that element is added whole and its bytes before LEN's end are written. -/
def State.dataByte (s : State) (c : Nat) (j : Job) (old : Nat → Byte) (k : Nat) : Byte :=
  match aget j.late k with
  | some b => b
  | none =>
    let raw := fun (k : Nat) => match s.srcOf c j k with
      | some p => BitVec.ofNat 8 ((s.jobByte c j p.1).toNat % p.2)
      | none => 0
    if j.kind = 5 then
      let es := accBytes (j.at_ 8 1)
      let e := k - k % es
      let v := accAdd (j.at_ 8 1) (leNat ((span e es).map old)) (leNat ((span e es).map raw))
      BitVec.ofNat 8 (v / 256 ^ (k % es))
    else raw k

/-! ### Targets -/

/-- The teams of a team's cluster, those whose regions drain included (R290). -/
def State.clusterAll (s : State) (t : Team) : List (Nat × Team) :=
  s.teams.filter fun p =>
    p.2.launch == t.launch && p.2.y == t.y && p.2.z == t.z && p.2.x / t.cores == t.x / t.cores

/-- The destination cores of a card as cluster indices (R207). -/
def Job.cores (j : Job) (t : Team) : List Nat :=
  if j.mcast then (List.range 12).filter (j.at_ 2 2).testBit else [t.cidx]

/-- A team's region takes inbound writes: it is not being zeroed (R290). -/
def Team.takes (t : Team) : Bool := match t.place with | .zeroing _ _ => false | _ => true

/-- The teams in a card's destination cores; none when one is gone (R290). -/
def State.targets (s : State) (j : Job) : Option (List (Nat × Team)) :=
  match j.team.bind s.team? with
  | none => none
  | some t => (j.cores t).mapM fun i => (s.clusterAll t).find? fun p => p.2.cidx == i && p.2.takes

/-- The card aims at scratchpads (R207, R290). -/
def Job.aims (j : Job) : Bool := j.scr || j.sig

/-- The cluster of a card's team is resident (R306). -/
def State.clusterHere (s : State) (j : Job) : Bool :=
  match j.team.bind s.team? with
  | none => true
  | some t => (s.clusterAll t).all fun p => p.2.place != .saved

/-- The check of a card's scratchpad targets (R201, R202, R207): the detail code, none where all is right. -/
def State.targetBad (s : State) (j : Job) : Option Nat :=
  if !j.aims then none
  else match s.targets j with
    | none => some fltScratch
    | some ts =>
      let fits := fun (off n : Nat) => ts.all fun p => off + n ≤ p.2.scratchSize
      let bobj := j.at_ 0x44 4
      let ring := j.at_ 0x48 4
      if j.sig && bobj % 8 != 0 then some fltAlign
      else if j.sig && !fits bobj 8 then some fltScratch
      else if j.ring then
        if ring % 128 != 0 then some fltAlign
        else if !fits ring 64 then some fltScratch
        else if ts.any (fun p => !(s.ringAt p.1 ring).consistent) then some fltRing
        else if ts.any (fun p => let r := s.ringAt p.1 ring; !fits (ring + 64 + r.nslot * 128 * r.slotu) 0) then some fltScratch
        else none
      else if j.scr && !fits j.dst j.total then some fltScratch
      else none

/-! ### Taking a card -/

/-- A chain's control block as its engine reads it: a wait, a failure, or its bytes (R204). -/
inductive Ccb
  | ok (l : Leaf) (b : List Byte) | failed (code : Nat) | wait (s : State)

def State.readCcb (s : State) (k : Nat) (c : Chain) : Ccb :=
  match s.reach c.ctx (.chain k) c.ccb.toNat .rw 64 with
  | .fault code => .failed code
  | .miss => .wait (s.requestFor c.ctx (.chain k) c.ccb.toNat .rw)
  | .ok l =>
    let hs := s.coh.lacks (halvesOf l.pa 64) true
    if (l.lines 64).any (s.marked none) then .wait s
    else if hs.isEmpty then .ok l (s.leafBytes { ctx := c.ctx } l 64) else .wait (s.askHalves hs true)

/-- The block is one that software may set up (R204, R208). -/
def ccbOk (b : List Byte) : Bool :=
  let n := ccbField b 8 4
  ccbField b 0 8 % 128 = 0 && 2 ≤ n && n ≤ 65536 && 2 ^ n.log2 = n && ccbField b 0x0E 2 = 0 && ccbField b 0x30 16 = 0 &&
  engineNo (ccbField b 0x0C 2)

/-- A fresh job of a card. -/
def Job.new (seq : DWord) (card : List Byte) (addr : Nat) (team : Option Nat) : Job :=
  { seq := seq, card := card, addr := addr, team := team, recs := [], pos := 0, issued := false, pages := [], todo := [],
    owned := [], late := [], aimed := [], cursor := [], tiles := [], finished := false, paused := false }

/-- Jobs in flight on an engine of a core (R208). -/
def State.running (s : State) (die core e : Nat) : Nat :=
  ((s.chainsOn die core e).filter fun c => c.job.isSome).length

/-- The record of a tile card copied: the job holds its slot (R85, R86). -/
def State.copyRec (s : State) (c h : Nat) : Option ((Nat × ShapeRec) × State) :=
  (s.handle c h).map fun p => (p, s.modSlot c p.1 fun x => { x with held := x.held + 1 })

/-- Features of a context. -/
def State.feat (s : State) (c : Nat) : Nat := match s.ctx? c with | some x => x.feat | none => 0

/-- A copy job starts, or its card is refused (R206 to R208, R306). -/
def State.takeCopy (s : State) (k : Nat) (c : Chain) (j : Job) : State :=
  let fail := fun (code : Nat) => s.stopChain k code j.addr false
  let start := fun (s : State) (j : Job) => s.modChain k fun c => { c with job := some j }
  if j.scr && !s.clusterHere j then s
  else if !j.copyOk c.engine then s.refuseCard k j.addr
  else match j.team.bind s.team? with
    | some t =>
      if j.at_ 2 2 ≥ 2 ^ t.cores then s.refuseCard k j.addr
      else if j.kind = 2 then
        match s.copyRec c.ctx (j.at_ 4 4) with
        | none => fail fltStale
        | some (p, u) =>
          let j2 := { j with recs := [p] }
          if p.2.featureOff (s.feat c.ctx) then fail fltFeature
          else if (p.2.blk.isSome && p.2.tile0 % 32 != 0) || j.len != j2.total then s.refuseCard k j.addr
          else match u.targetBad j2 with
            | some code => fail code
            | none => start u j2
      else match s.targetBad j with
        | some code => fail code
        | none => start s j
    | none =>
      if j.aims then fail fltScratch
      else if j.kind = 2 then
        match s.copyRec c.ctx (j.at_ 4 4) with
        | none => fail fltStale
        | some (p, u) =>
          let j2 := { j with recs := [p] }
          if p.2.featureOff (s.feat c.ctx) then fail fltFeature
          else if (p.2.blk.isSome && p.2.tile0 % 32 != 0) || j.len != j2.total then s.refuseCard k j.addr else start u j2
      else start s j

/-! ### Segments of copy jobs -/

/-- The end of the segment from `pos` on: at most 4,096 destination lines (R285), whole elements for KIND 0x05. -/
def Job.segEnd (j : Job) : Nat :=
  let e := Nat.min j.total (((j.dst + j.pos) / 128 + 4096) * 128 - j.dst)
  if j.kind = 5 && e < j.total then e / accBytes (j.at_ 8 1) * accBytes (j.at_ 8 1) else e

/-- The segment's data in pieces: of one 128-byte line of destination addresses each, one piece for scratchpads. -/
def Job.pieces (j : Job) : List (Nat × Nat) :=
  let a := j.pos
  let b := j.segEnd
  if j.scr then [(a, b - a)]
  else ((List.range ((j.dst + b - 1) / 128 - (j.dst + a) / 128 + 1)).map fun i =>
    let lo := Nat.max a (((j.dst + a) / 128 + i) * 128 - j.dst)
    let hi := Nat.min b (((j.dst + a) / 128 + i + 1) * 128 - j.dst)
    (lo, hi - lo)).filter fun p => p.2 != 0

/-- The indexes that some data of a gather are read by, as addresses of 4 bytes (R207). -/
def Job.indexes (j : Job) (p : Nat × Nat) : List Nat :=
  if j.kind = 4 then
    let es := j.at_ 8 1
    let a := p.1 / es
    (List.range ((p.1 + p.2 + es - 1) / es - a)).map fun i => j.at_ 0x28 8 + 4 * (a + i)
  else []

/-- The index pages of a gather's segment (R207), by the first address in each. -/
def Job.indexPages (j : Job) : List (Nat × Bool) :=
  (firstInPages ((j.indexes (j.pos, j.segEnd - j.pos)).map fun a => (a, 4))).map fun p => (p, false)

/-- Source and destination pages of a segment (R285), by the first address in each; the index pages are in `j.pages`. -/
def State.segPages (s : State) (c : Nat) (j : Job) : List (Nat × Bool) :=
  let n := j.segEnd - j.pos
  let src :=
    if j.kind = 1 || j.kind = 5 then firstInPages [(j.src + j.pos, n)]
    else firstInPages ((List.range n).filterMap fun i => (s.srcOf c j (j.pos + i)).map fun p => (p.1, 1))
  let dst := if j.scr then [] else firstInPages [(j.dst + j.pos, n)]
  src.map (fun p => (p, false)) ++ dst.map (fun p => (p, true)) ++ (if j.kind = 5 then dst.map fun p => (p, false) else [])

/-- The physical lines of a piece's destination. -/
def Job.pieceLines (j : Job) (p : Nat × Nat) : List Nat :=
  if j.scr then []
  else match j.leafAt (j.dst + p.1) true with
    | some l => l.lines p.2
    | none => []

/-- An alias page takes whole elements only (R80). -/
def Job.aliasOdd (j : Job) (p : Nat × Nat) : Bool :=
  !j.scr && (match j.leafAt (j.dst + p.1) true with
    | some l => l.mxa.isSome && ((j.dst + p.1) % 2 != 0 || p.2 % 2 != 0)
    | none => false)

/-- Ownership requested for lines of device memory; halves of host lines are asked for (R285, R288). Open regions see that an
engine gains the lines (R302). -/
def State.own (s : State) (sid : Nat) (lines : List Nat) : State :=
  lines.foldl (fun s n =>
    if hostLine n then
      let lack := s.coh.lacks (halvesOf (128 * n) 128) true
      s.askHalves lack true
    else if (s.coh.held? sid n).any (fun h => h.st = 2) then s
    else { s with coh := s.coh.ask (.of .own sid n 0) }) (s.seen lines)

/-- The engine has every grant for some lines: none of its requests is still out (R285). -/
def State.granted (s : State) (sid : Nat) (lines : List Nat) : Bool :=
  lines.all fun n =>
    if hostLine n then (s.coh.lacks (halvesOf (128 * n) 128) true).isEmpty
    else !(s.coh.reqs.any fun q => q.sid == sid && q.line == n) && !(s.coh.grants.any fun g => g.sid == sid && g.line == n)

/-- A piece's data, with the address of an uncorrectable error that it reads. -/
def State.pieceBytes (s : State) (c : Nat) (j : Job) (old : Nat → Byte) (p : Nat × Nat) : List Byte :=
  (span p.1 p.2).map (s.dataByte c j old)

/-- The addresses that some data of a job are read from, with the bytes at each: indexes, then sources. -/
def State.readsOf (s : State) (c : Nat) (j : Job) (p : Nat × Nat) : List (Nat × Nat) :=
  (j.indexes p).map (fun a => (a, 4)) ++ (span p.1 p.2).filterMap fun k => (s.srcOf c j k).map fun a => (a.1, 1)

/-- The first of some addresses that a job cannot read, with its code: a line of a fenced pseudo-channel (R414), or one with an
uncorrectable error (R205). -/
def State.badRead (s : State) (j : Job) (rs : List (Nat × Nat)) : Option (Nat × Nat) :=
  if s.poison.isEmpty && s.fleet.fences.isEmpty then none
  else rs.findSome? fun a => (j.leafAt a.1 false).bind fun l =>
    if (l.lines a.2).any s.lineFenced then some (fltFenced, a.1)
    else if s.poisoned l a.2 then some (fltPoison, a.1) else none

/-- What stops a job at some of its data: a destination line on a fenced pseudo-channel (R414), or a read. -/
def State.badPiece (s : State) (c : Nat) (j : Job) (p : Nat × Nat) : Option (Nat × Nat) :=
  if s.poison.isEmpty && s.fleet.fences.isEmpty then none
  else if (j.pieceLines p).any s.lineFenced then some (fltFenced, j.dst + p.1)
  else s.badRead j (s.readsOf c j p)

/-- What an engine's reads wait for: halves of host memory (R372), lines that a promoted release has marked (R263). None when
they can be made. -/
def State.readWait (s : State) (j : Job) (rs : List (Nat × Nat)) : Option State :=
  let ls := rs.filterMap fun a => (j.leafAt a.1 false).map fun l => (l, a.2)
  let lack := s.coh.lacks ((ls.flatMap fun p => halvesOf p.1.pa p.2).eraseDups) false
  if !lack.isEmpty then some (s.askHalves lack false)
  else if ls.any fun p => (p.1.lines p.2).any (s.marked none) then some s
  else none

/-- The reads of some data of a job can wait: it reads host memory, or there are marks, or errors that may have to be classed
first (R397). -/
def State.mayWait (s : State) (j : Job) : Bool :=
  !s.coh.marks.isEmpty || !s.poison.isEmpty || !(j.pages.all fun p => p.2.1 || p.2.2.pa < Config.hostBase)

/-- What the reads of some data of a job wait for. -/
def State.srcWait (s : State) (c : Nat) (j : Job) (ps : List (Nat × Nat)) : Option State :=
  if s.mayWait j then s.readWait j (ps.flatMap (s.readsOf c j)) else none

/-- Bytes of elements that lie partly in a piece are kept for the neighbouring lines (R207, KIND 0x05). -/
def State.lateOf (s : State) (c : Nat) (j : Job) (old : Nat → Byte) (p : Nat × Nat) : List (Nat × Byte) :=
  if j.kind = 5 then
    let es := accBytes (j.at_ 8 1)
    let lo := p.1 / es * es
    let hi := (p.1 + p.2 + es - 1) / es * es
    (span lo (p.1 - lo) ++ span (p.1 + p.2) (hi - (p.1 + p.2))).map fun k => (k, s.dataByte c j old k)
  else []

/-- One piece of a job is written (R207): to memory, or to the target scratchpads that still count it (R291). -/
def State.writePiece (s : State) (k : Nat) (p : Nat × Nat) : State :=
  match aget s.chains k with
  | none => s
  | some c => match c.job with
    | none => s
    | some j =>
      let setJob := fun (s : State) (j : Job) => s.modChain k fun c => { c with job := some j }
      if j.scr then
        let u := j.aimed.foldl (fun (u : State) t =>
          u.scratchWrite t (j.dst + p.1) (s.pieceBytes c.ctx j (fun i => BitVec.ofNat 8 (s.scratchNat t (j.dst + i) 1)) p)) s
        setJob u { j with todo := j.todo.filter (· != p) }
      else
        let old := fun (i : Nat) => s.jobByte c.ctx j (j.dst + i)
        let todo := j.todo.filter (· != p)
        let j2 := { j with
          todo := todo
          owned := j.owned.filter fun n => todo.any fun q => (j.pieceLines q).contains n
          late := j.late ++ s.lateOf c.ctx j old p }
        match j.leafAt (j.dst + p.1) true with
        | some l =>
          let u := s.store { ctx := c.ctx } l (located 0 (s.pieceBytes c.ctx j old p))
          setJob (u.dirtyHalves (halvesOf l.pa p.2)) j2
        | none => setJob s j2

/-- What becomes of a segment's writing: it waits, or it is done or has stopped the chain. -/
inductive Written
  | later (s : State) | done (s : State)

/-- The segment that has issued is written (R285, R286, R288); an uncorrectable error stops the job. -/
def State.writeSegment (s : State) (k : Nat) (c : Chain) (j : Job) : Written :=
  let sid := s.chainSid c
  if !s.granted sid j.owned then .later (s.own sid (j.owned.filter hostLine))
  else match s.srcWait c.ctx j j.todo with
    | some t => .later t
    | none => match j.todo.findSome? (s.badPiece c.ctx j) with
      | some f => .done (s.stopChain k f.1 f.2 false)
      | none => .done ((j.todo.foldl (fun s p => s.writePiece k p) s).giveUp sid j.owned)

/-- Data of a ring fill, in one slot of each target (R203). -/
def State.fillRing (s : State) (ring : Nat) (ts : List Nat) (bs : List Byte) : State :=
  ts.foldl (fun s t =>
    let r := s.ringAt t ring
    (s.scratchWrite t (ring + r.slot r.wp) bs).scratchWrite t (ring + 4) (leBytes 4 ((r.wp + 1) % 2 ^ 32))) s

/-- Some teams' inbound counters count one write more (R290). -/
def State.inbound (s : State) (ts : List Nat) : State :=
  ts.foldl (fun s t => s.modTeam t fun (x : Team) => { x with inbound := x.inbound + 1 }) s

/-- Every target ring of a card has a free slot (R203, R207). -/
def State.slotsFree (s : State) (j : Job) : Bool :=
  match s.targets j with
  | some ts => ts.all fun p => let r := s.ringAt p.1 (j.at_ 0x48 4); !r.consistent || diff32 r.wp r.rp < r.nslot
  | none => true

/-- A segment of a copy job issues, and its targets count it (R285, R290). The fill of a ring issues once it has its slots.
DESIGN CHOICE (log 68): a card with SIG alone waits here while its cluster is saved. -/
def State.issueCopy (s : State) (k : Nat) (c : Chain) (j : Job) : State :=
  if (j.aims && !s.clusterHere j) || (j.ring && !s.slotsFree j) then s
  else match s.resolve c.ctx k j.indexPages with
    | .failed code va => s.stopChain k code va false
    | .wait t => t
    | .ready is =>
      let ji := { j with pages := is }
      let rs := (j.indexes (j.pos, j.segEnd - j.pos)).map fun a => (a, 4)
      match s.readWait ji rs, s.badRead ji rs with
      | some t, _ => t
      | none, some f => s.stopChain k f.1 f.2 false
      | none, none =>
        match s.resolve c.ctx k (s.segPages c.ctx ji) with
        | .failed code va => s.stopChain k code va false
        | .wait t => t
        | .ready ps =>
          let jp := { ji with pages := is ++ ps, issued := true }
          let todo := if j.ring then [] else jp.pieces
          if todo.any jp.aliasOdd then s.stopChain k fltAlign (j.dst + j.pos) false
          else match (if j.aims then s.targetBad j else none) with
            | some code => s.stopChain k code j.addr false
            | none =>
              let lines := sortLines (todo.flatMap jp.pieceLines)
              let aimed := if j.aims then ((s.targets j).getD []).map Prod.fst else []
              let v := (s.inbound aimed).modChain k fun c =>
                { c with job := some { jp with todo := todo, owned := lines, aimed := aimed } }
              v.own (s.chainSid c) lines

/-- A segment that has been written gives way to the next. -/
def State.nextSegment (s : State) (k : Nat) : State :=
  match aget s.chains k with
  | none => s
  | some c => match c.job with
    | none => s
    | some j =>
      let u := s.landed j
      u.modChain k fun c => { c with job := some { j with pos := j.segEnd, issued := false, pages := [], aimed := [], late := [] } }

/-! ### Completion -/

/-- Arrivals of a card with SIG (R197, R207): none where an object has COUNT = 0. -/
def State.signalAll (s : State) (j : Job) : Option State :=
  if j.sig then j.aimed.foldlM (fun s t => (s.arrive t (j.at_ 0x44 4)).map Prod.snd) s else some s

/-- A completion word of a chain is written, or the chain stops on it (R205): HEAD moves past the job with it. -/
def State.completeChain (s : State) (k : Nat) (c : Chain) (seq : DWord) : State :=
  match s.readCcb k c with
  | .wait t => t
  | .failed code => if c.stop.isSome then s else s.stopChain k code c.ccb.toNat true
  | .ok l b =>
    let word := ccbField b 0x28 8
    match s.reach c.ctx (.chain k) word .w 8 with
    | .miss => s.request c.ctx (.chain k) word true
    | .fault code => if c.stop.isSome then s else s.stopChain k code word true
    | .ok w =>
      let hs := s.coh.lacks (halvesOf w.pa 8) true
      if !hs.isEmpty then s.askHalves hs true
      else
        if (w.lines 8 ++ l.lines 64).any fun n => (s.ownerOf n).isSome then s
        else
          let head := leBytes 8 ((ccbField b 0x18 8 + 1) % 2 ^ 64)
          let u := ((s.dropJob k).partStore c.ctx (l.shift 0x18) head).partStore c.ctx w (leBytes 8 seq.toNat)
          u.modChain k fun c => { c.past with stop := none }

/-! ### The steps -/

/-- A chain that may act: it has not stopped. -/
def State.liveChain (s : State) (k : Nat) : Option Chain :=
  match aget s.chains k with
  | some c => if c.stop.isNone then some c else none
  | none => none

/-- Every engine of a chain that is fenced fails its current job, and a later card the same way (R414). -/
def State.chainFenced (s : State) (c : Chain) : Bool := let e := s.engineAt c; s.engineFenced e.1 e.2 c.engine

/-- The unit of a chain's engine is under self-test (R412): no job is taken on it. -/
def State.chainUnderTest (s : State) (c : Chain) : Bool :=
  let e := s.engineAt c
  s.underTest (engineUnit e.1 e.2 c.engine)

/-- SEGMENT_ISSUE of a copy job (R285): the segment before it is written first. -/
def State.copySegment (s : State) (k : Nat) (c : Chain) (j : Job) : State :=
  if s.chainFenced c then s.stopChain k fltFenced j.addr false
  else if !j.issued then s.issueCopy k c j
  else if j.ring || j.segEnd ≥ j.total then s
  else match s.writeSegment k c j with
    | .later t => t
    | .done t => if (t.liveChain k).isSome then t.nextSegment k else t

/-- A recall, by its place, that its sharer may take: what the home sent before it has come (R283). -/
def Coh.takable (c : Coh) (k : Option Nat) : Bool :=
  match k.bind fun i => c.recalls[i]? with
  | some r => c.inOrder r.n r.sid r.line
  | none => false

/-- ENGINE_RECALL_ANSWER (R283, R286): what the job writes in a recalled line is written ahead, and the line is passed on. -/
def execEngineRecallAnswer (chain line : Nat) (s : State) : Host.Outcome State Fault Refusal :=
  match s.liveChain chain with
  | none => .next s
  | some c => match c.job with
    | none => .next s
    | some j =>
      let sid := s.chainSid c
      let asked := s.coh.recalls.findIdx? fun r => r.sid == sid && r.line == line
      if c.engine = 9 || !j.owned.contains line || !s.granted sid [line] || !s.coh.takable asked then .next s
      else
        let ps := j.todo.filter fun p => (j.pieceLines p).contains line
        match s.srcWait c.ctx j ps with
        | some t => .next t
        | none => match ps.findSome? (s.badPiece c.ctx j) with
          | some f => .next (s.stopChain chain f.1 f.2 false)
          | none => .next ((ps.foldl (fun s p => s.writePiece chain p) s).passOn sid line)

/-- The targets of a ring fill that has issued and whose slot is full again (R203). A team that is leaving frees none: the
fill lands in its region all the same (R290). -/
def State.ringFull (s : State) (ring t : Nat) : Bool :=
  let r := s.ringAt t ring
  (s.team? t).any (fun t => match t.place with | .draining _ _ => false | _ => true) && diff32 r.wp r.rp ≥ r.nslot

/-- A ring fill in its targets' slots (R203, R207, R290); where a slot is no longer free it has to issue again, and is no
longer counted. DESIGN CHOICE (log 83): KIND 0x05 adds to zeros, not to what a slot held before. -/
def State.ringFill (s : State) (chain : Nat) (c : Chain) (j : Job) (ts : List Nat) : State :=
  let ring := j.at_ 0x48 4
  let rs := ts.map fun t => s.ringAt t ring
  if rs.any fun r => !r.consistent then s.stopChain chain fltRing j.addr false
  else if rs.any fun r => j.total > 128 * r.slotu then s.refuseCard chain j.addr
  else if ts.any (s.ringFull ring) then
    (s.landed j).modChain chain fun c => { c with job := some { j with issued := false, pages := [], aimed := [] } }
  else match s.srcWait c.ctx j [(0, j.total)] with
    | some t => t
    | none => match s.badPiece c.ctx j (0, j.total) with
      | some f => s.stopChain chain f.1 f.2 false
      | none =>
        let u := s.fillRing ring ts (s.pieceBytes c.ctx j (fun _ => 0) (0, j.total))
        u.modChain chain fun c => { c with job := some { j with finished := true, pages := [] } }

/-- RING_FILL (R203, R207): every target ring has a free slot, and all are filled together. The targets are those that
counted the segment as it issued (R290). -/
def execRingFill (chain : Nat) (s : State) : Host.Outcome State Fault Refusal :=
  match s.liveChain chain with
  | none => .next s
  | some c => match c.job with
    | none => .next s
    | some j =>
      .next (if c.engine = 9 || !j.ring || !j.issued || j.finished then s else s.ringFill chain c j j.aimed)

/-- The job of a COPY packet ends: the packet is done (R323, R327). -/
def State.endPacket (s : State) (k : Nat) (p : CopyPacket) : State :=
  let t := s.dropJob k
  { t with
    chains := adel t.chains k
    threads := amod t.threads p.thread fun q =>
      { q with packets := q.packets.map fun x => if x.seq = p.seq then { x with done := true } else x } }

/-- A copy job all of whose data is written ends (R205, R207). -/
def State.finishCopy (s : State) (k : Nat) (j : Job) : State :=
  match s.signalAll j with
  | none => s.stopChain k fltOperand j.addr false
  | some t =>
    let u := t.landed j
    u.modChain k fun c => { c with job := some { j with aimed := [], owned := [], todo := [], pages := [], finished := true } }

/-- The last segment of a copy job is written, or its ring is filled; then its arrivals are made. -/
def State.copyDone (s : State) (k : Nat) (c : Chain) (j : Job) : Written :=
  if j.finished && j.aimed.isEmpty then .done s
  else if j.ring then (if j.finished then .done (s.finishCopy k j) else .later s)
  else if j.issued && j.segEnd ≥ j.total then
    match s.writeSegment k c j with
    | .later t => .later t
    | .done t => if (t.liveChain k).isSome then .done (t.finishCopy k j) else .done t
  else .later s

end Sys2Proof.Machine
end

