-- ==== Sys2Proof/Machine/Float.lean ====
section
/-! DEFINITION. Floating-point instructions (R157 to R164). -/

namespace Sys2Proof.Machine

open Sys2Proof

/-- An infinity that no infinite operand brought in does not saturate (R157). -/
def infFree : FV → Bool
  | .inf _ => false | _ => true

/-- One rounding of an exact result to a type, with its draw (R70, R72, R157). `fin` says that no operand is infinite. -/
def roundRes (t : Ty) (mode : RM) (sat fin : Bool) (v : FV) (rng : DWord) : Nat × DWord :=
  let d := drawOne mode rng
  (t.fmt.round mode (sat && !(fin && !infFree v)) d.2 v, d.1)

/-- A rounding instruction of two operands (R157). -/
def fBin (op : Nat) (f : FForm) (s : State) (val : RM → FV → FV → FV) : Host.Outcome State Fault Refusal :=
  drawF op f s f.ty fun x l rng =>
    let a := f.ty.val (x.va f l)
    let b := f.ty.val (x.vb f l)
    let m := x.mode f f.ty
    roundRes f.ty m (x.sat f f.ty) (infFree a && infFree b) (val m a b) rng

/-- A rounding instruction of one operand (R157). -/
def fUn (op : Nat) (f : FForm) (s : State) (val : FV → FV) : Host.Outcome State Fault Refusal :=
  drawF op f s f.ty fun x l rng =>
    let a := f.ty.val (x.va f l)
    roundRes f.ty (x.mode f f.ty) (x.sat f f.ty) (infFree a) (val a) rng

/-- An elementary function: RNE, IEEE overflow, no $cvm (R160). -/
def fElem (op : Nat) (f : FForm) (s : State) (val : FV → FV) : Host.Outcome State Fault Refusal :=
  vecF op f s fun x l => f.ty.fmt.round .rne false 0 (val (f.ty.val (x.va f l)))

/-- FMIN and FMAX (R158): −0 below +0, one NaN gives the other operand. -/
def fMinMax (t : Ty) (max : Bool) (a b : Nat) : Nat :=
  let x := t.val a
  let y := t.val b
  if x = .nan && y = .nan then t.fmt.nan
  else if x = .nan then b
  else if y = .nan then a
  else
    let less := x.lt y || (x.eqv y && x.isNeg && !y.isNeg)
    if less = max then b else a

/-- A sign set on a magnitude (R158); a NaN A gives the canonical NaN. -/
def fSign (t : Ty) (neg : Bool) (a : Nat) : Nat :=
  let top := 2 ^ (t.bits - 1)
  if t.val a = .nan then t.fmt.nan else a % top + (if neg then top else 0)

/-- The sign bit of a code. -/
def signBit (t : Ty) (a : Nat) : Bool := a / 2 ^ (t.bits - 1) % 2 = 1

/-- FCLAS (R161). -/
def fClass (t : Ty) (a : Nat) : Nat :=
  let f := t.fmt
  let neg := signBit t a
  match f.dec a with
  | .nan => if f.isSignalling a then 256 else 512
  | .inf _ => if neg then 1 else 128
  | .fin _ m _ _ =>
    if m = 0 then (if neg then 8 else 16)
    else if m < 2 ^ f.mbits then (if neg then 4 else 32)
    else if neg then 2 else 64

/-- The mode of FRND by FN (R162). -/
def frndMode (fn : Nat) : RM := match fn with | 0 => .rne | 1 => .rtz | 2 => .rdn | 3 => .rup | _ => .rna

/-- FRND (R162): a zero result keeps the operand's sign. -/
def fRound (t : Ty) (fn a : Nat) : Nat :=
  match t.val a with
  | .fin neg m e st => match (FV.fin neg m e st).toInt (frndMode fn) 0 with
    | some i => t.fmt.round .rne false 0 (.fin neg i.natAbs 0 false)
    | none => t.fmt.nan
  | v => t.fmt.round .rne false 0 v

/-- The exact sum of products and an addend (R163). -/
def dotSum (down : Bool) (c : FV) (ps : List (FV × FV)) : FV :=
  let terms := ps.map fun p => p.1.mul p.2
  let pos := (c :: terms).any (· == .inf false)
  let neg := (c :: terms).any (· == .inf true)
  if (c :: terms).any (· == .nan) || (pos && neg) then .nan
  else if pos then .inf false
  else if neg then .inf true
  else terms.foldl (FV.add down) c

/-- Elements of w bits of a 32-bit register, n of them (R163). -/
def elems (t : Ty) (n a : Nat) : List FV := (List.range n).map fun i => t.val (a / 2 ^ (t.bits * i) % 2 ^ t.bits)

/-- FDOT2 and FDOT4 (R163): IMM16 B gives element 0. -/
def fDot (op n : Nat) (f : FForm) (s : State) : Host.Outcome State Fault Refusal :=
  drawF op f s .f32 fun x l rng =>
    let a := elems f.ty n (x.src l f.a f.ty 32)
    let b := elems f.ty n (match f.b with | .imm i => immVal f.ty i f.ty.bits | b => x.srcB l b f.ty 32)
    let c := dec32 (BitVec.ofNat 32 (x.src l f.c .f32 32))
    let m := x.mode f .f32
    roundRes .f32 m (x.sat f .f32) ((c :: (a ++ b)).all infFree) (dotSum (m == .rdn) c (a.zip b)) rng

def execFadd (f : FForm) (s : State) : Host.Outcome State Fault Refusal := fBin 0x30 f s fun m a b => a.add (m == .rdn) b

def execFsub (f : FForm) (s : State) : Host.Outcome State Fault Refusal := fBin 0x31 f s fun m a b => a.add (m == .rdn) b.neg

def execFmul (f : FForm) (s : State) : Host.Outcome State Fault Refusal := fBin 0x32 f s fun _ a b => a.mul b

/-- One rounding of A × B + C. -/
def execFma (f : FForm) (s : State) : Host.Outcome State Fault Refusal :=
  drawF 0x33 f s f.ty fun x l rng =>
    let a := f.ty.val (x.va f l)
    let b := f.ty.val (x.vb f l)
    let c := f.ty.val (x.vc f l)
    let m := x.mode f f.ty
    roundRes f.ty m (x.sat f f.ty) (infFree a && infFree b && infFree c) (FV.add (m == .rdn) (a.mul b) c) rng

def execFmin (f : FForm) (s : State) : Host.Outcome State Fault Refusal :=
  vecF 0x34 f s fun x l => fMinMax f.ty false (x.va f l) (x.vb f l)

def execFmax (f : FForm) (s : State) : Host.Outcome State Fault Refusal :=
  vecF 0x35 f s fun x l => fMinMax f.ty true (x.va f l) (x.vb f l)

def execFabs (f : FForm) (s : State) : Host.Outcome State Fault Refusal :=
  vecF 0x36 f s fun x l => fSign f.ty false (x.va f l)

def execFneg (f : FForm) (s : State) : Host.Outcome State Fault Refusal :=
  vecF 0x37 f s fun x l => fSign f.ty (!signBit f.ty (x.va f l)) (x.va f l)

def execFsgn (f : FForm) (s : State) : Host.Outcome State Fault Refusal :=
  vecF 0x38 f s fun x l => fSign f.ty (signBit f.ty (x.vb f l)) (x.va f l)

def execFcmp (f : FForm) (s : State) : Host.Outcome State Fault Refusal :=
  maskF 0x39 f s fun x l => fcmpBit f.fn f.ty (x.va f l) (x.vb f l)

def execFrcp (f : FForm) (s : State) : Host.Outcome State Fault Refusal := fUn 0x3A f s fun a => FV.div (.fin false 1 0 false) a

def execFrsq (f : FForm) (s : State) : Host.Outcome State Fault Refusal := fUn 0x3B f s FV.rsqrt

def execFsqrt (f : FForm) (s : State) : Host.Outcome State Fault Refusal := fUn 0x3C f s FV.sqrt

def execFdiv (f : FForm) (s : State) : Host.Outcome State Fault Refusal := fBin 0x3D f s fun _ a b => a.div b

def execFexp2 (f : FForm) (s : State) : Host.Outcome State Fault Refusal := fElem 0x3E f s FV.exp2

def execFlog2 (f : FForm) (s : State) : Host.Outcome State Fault Refusal := fElem 0x3F f s FV.log2

def execFsin (f : FForm) (s : State) : Host.Outcome State Fault Refusal := fElem 0x40 f s (FV.trig false)

def execFcos (f : FForm) (s : State) : Host.Outcome State Fault Refusal := fElem 0x41 f s (FV.trig true)

def execFtanh (f : FForm) (s : State) : Host.Outcome State Fault Refusal := fElem 0x42 f s FV.tanh

def execFsigm (f : FForm) (s : State) : Host.Outcome State Fault Refusal := fElem 0x43 f s FV.sigm

/-- A b32 mask whatever TY (R161). -/
def execFclas (f : FForm) (s : State) : Host.Outcome State Fault Refusal :=
  gangF 0x44 f s free fun x => x.done x.s (x.put f.d f.z .b32 fun l => fClass f.ty (x.va f l))

def execFrnd (f : FForm) (s : State) : Host.Outcome State Fault Refusal :=
  vecF 0x45 f s fun x l => fRound f.ty f.fn (x.va f l)

/-- B is INT32, IMM16 sign-extended whatever TY (R157). -/
def execFscal (f : FForm) (s : State) : Host.Outcome State Fault Refusal :=
  drawF 0x46 f s f.ty fun x l rng =>
    let a := f.ty.val (x.va f l)
    let n := Ty.i32.intVal (x.srcB l f.b .i32 32)
    roundRes f.ty (x.mode f f.ty) (x.sat f f.ty) (infFree a) (a.scale n) rng

def execFdot2 (f : FForm) (s : State) : Host.Outcome State Fault Refusal := fDot 0x47 2 f s

def execFdot4 (f : FForm) (s : State) : Host.Outcome State Fault Refusal := fDot 0x48 4 f s

/-- Merge of two (max, sum) pairs, max in the low word (R164). DESIGN CHOICE (log 56): the max of −0 and +0 is A's. -/
def mergePair (a b : Nat) : Nat :=
  let nan := nan32.toNat
  let w := fun v => Fmt.f32.round .rne false 0 v
  let ma := a % 2 ^ 32
  let mb := b % 2 ^ 32
  let va := Fmt.f32.dec ma
  let vb := Fmt.f32.dec mb
  let sa := Fmt.f32.dec (a / 2 ^ 32)
  let sb := Fmt.f32.dec (b / 2 ^ 32)
  if [va, vb, sa, sb].any (· == .nan) || va == .inf false || vb == .inf false then nan + 2 ^ 32 * nan
  else if va == .inf true && vb == .inf true then 0xFF800000 + 2 ^ 32 * w (sa.add false sb)
  else
    let m := if va.lt vb then mb else ma
    let vm := Fmt.f32.dec m
    let e := fun v => Fmt.f32.dec (w (FV.exp (FV.add false v vm.neg)))
    m + 2 ^ 32 * w (FV.add false (sa.mul (e va)) (sb.mul (e vb)))

def execSmrg (f : FForm) (s : State) : Host.Outcome State Fault Refusal :=
  gangF 0x49 f s free fun x =>
    x.done x.s (x.put f.d f.z .ui64 fun l => mergePair (x.src l f.a .ui64 64) (x.srcB l f.b .ui64 64))

end Sys2Proof.Machine
end

