-- ==== Sys2Proof/Machine/Lanes.lean ====
section
/-! DEFINITION. Instructions across lanes, byte permutation and integer dot products (R148 to R156). -/

namespace Sys2Proof.Machine

open Sys2Proof

/-- Combine of R151: FN mod 8 is 0 add, 1 min, 2 max, 3 and, 4 or, 5 xor. Float adds round, with a draw. -/
def combine (k : Nat) (t : Ty) (mode : RM) (sat : Bool) (a b : Nat) (rng : DWord) : Nat × DWord :=
  if t.isFloat then
    match k with
    | 0 =>
      let u := t.val a
      let v := t.val b
      roundRes t mode sat (infFree u && infFree v) (FV.add (mode == .rdn) u v) rng
    | 1 => (fMinMax t false a b, rng)
    | _ => (fMinMax t true a b, rng)
  else
    match k with
    | 0 => (intOp t (· + ·) a b, rng)
    | 1 => (intOp t (fun x y => if x ≤ y then x else y) a b, rng)
    | 2 => (intOp t (fun x y => if x ≤ y then y else x) a b, rng)
    | 3 => (a &&& b, rng)
    | 4 => (a ||| b, rng)
    | _ => (a ^^^ b, rng)

/-- Identity of R151. -/
def identityOf (k : Nat) (t : Ty) : Nat :=
  if t.isFloat then
    match k with
    | 0 => 0 | 1 => t.fmt.infCode false false | _ => t.fmt.infCode false true
  else
    match k with
    | 1 => wrapInt t.bits t.maxInt | 2 => wrapInt t.bits t.minInt | 3 => 2 ^ t.bits - 1 | _ => 0

/-- The running combinations over participants: for each the exclusive and the inclusive value (R152). -/
def scanAll (k : Nat) (t : Ty) (mode : RM) (sat : Bool) (val : Nat → Nat) :
    List Nat → Option Nat → DWord → List (Nat × Nat × Nat) × DWord
  | [], _, rng => ([], rng)
  | l :: r, acc, rng =>
    let p := match acc with
      | none => (val l, rng)
      | some a => combine k t mode sat a (val l) rng
    let rest := scanAll k t mode sat val r (some p.1) p.2
    ((l, acc.getD (identityOf k t), p.1) :: rest.1, rest.2)

/-- The predicate of VOTE for a lane (R149). -/
def Gx.votes (x : Gx) (f : FForm) (l : Nat) : Bool :=
  match f.a with
  | .m n => (x.mask n).getLsbD l
  | n => x.src l n .b32 32 != 0

def execVote (f : FForm) (s : State) : Host.Outcome State Fault Refusal :=
  gangF 0x22 f s free fun x =>
    let ps := lanesOf x.en
    let yes := ps.filter (x.votes f)
    let n := ps.length
    let c := yes.length
    let same := c = 0 || c = n
    match f.d with
    | .m _ =>
      match f.fn with
      | 0 => x.done x.s (x.putM f.d f.z fun _ => 2 * c > n)
      | 1 => x.done x.s fun g => g.putMask f.d (maskOf yes)
      | 2 => x.done x.s fun g => g.putMask f.d (maskOf (yes.take 1))
      | _ => x.done x.s (x.putM f.d f.z fun _ => same)
    | _ =>
      x.doneS f.d (match f.fn with
        | 0 => BitVec.ofNat 64 c
        | 1 => (maskOf yes).setWidth 64
        | 2 => BitVec.ofNat 64 (yes.head?.getD 32)
        | _ => if same then 1 else 0)

/-- A of the source lane, 32 bits or a pair, resolved against that lane's window (R31, R150). -/
def execShfl (f : FForm) (s : State) : Host.Outcome State Fault Refusal :=
  gangF 0x23 f s free fun x =>
    let t : Ty := if f.ty.is64 then .ui64 else .b32
    x.done x.s (x.put f.d f.z t fun l => match x.crossLanes 0x23 f l with
      | j :: _ => x.src j f.a t t.bits
      | [] => 0)

def execRedu (f : FForm) (s : State) : Host.Outcome State Fault Refusal :=
  gangF 0x24 f s free fun x =>
    let r := scanAll (f.fn % 8) f.ty (x.mode f f.ty) (x.sat f f.ty) (x.va f) (lanesOf x.en) none x.g.rng
    let v := match r.1.getLast? with | some p => p.2.2 | none => identityOf (f.fn % 8) f.ty
    x.done x.s fun g => x.putS f.d (extend64 f.ty v) { g with rng := r.2 }

/-- FN 0 to 5 inclusive, 8 to D exclusive (R152). -/
def execScan (f : FForm) (s : State) : Host.Outcome State Fault Refusal :=
  gangF 0x25 f s free fun x =>
    let r := scanAll (f.fn % 8) f.ty (x.mode f f.ty) (x.sat f f.ty) (x.va f) (lanesOf x.en) none x.g.rng
    let out := fun l => match r.1.find? (fun p => p.1 == l) with
      | some p => if f.fn ≥ 8 then p.2.1 else p.2.2
      | none => 0
    x.done x.s fun g => x.put f.d f.z f.ty out { g with rng := r.2 }

def execMatchEq (f : FForm) (s : State) : Host.Outcome State Fault Refusal :=
  maskF 0x26 f s fun x l =>
    let ps := lanesOf x.en
    if f.fn = 0 then ps.any fun j => j != l && x.va f j = x.va f l else ps.all fun j => x.va f j = x.va f l

def execElect (f : FForm) (s : State) : Host.Outcome State Fault Refusal :=
  gangF 0x27 f s free fun x => x.done x.s fun g => g.putMask f.d (maskOf ((lanesOf x.en).take 1))

/-- One result byte of PRMT by its 5-bit control (R155). -/
def prmtByte (a b c : Nat) : Nat :=
  let v := (a % 2 ^ 32 + 2 ^ 32 * b) / 256 ^ (c % 8) % 256
  let r := if c / 8 % 2 = 1 then brevOp 8 v else v
  if c / 16 % 2 = 1 then 255 - r else r

def prmtOp (a b c : Nat) : Nat :=
  (List.range 4).foldl (fun r i => r + 256 ^ i * prmtByte a b (c / 32 ^ i % 32)) 0

def execPrmt (f : FForm) (s : State) : Host.Outcome State Fault Refusal :=
  vecF 0x28 f s fun x l => prmtOp (x.va f l) (x.vb f l) (x.vc f l)

/-- Integer dot product of n bytes with an INT32 addend (R156). -/
def idotOp (t : Ty) (n a b c : Nat) : Nat :=
  wrapInt 32 ((List.range n).foldl
    (fun r i => r + t.intVal (a / 256 ^ i) * t.intVal (b / 256 ^ i)) (Ty.i32.intVal c))

/-- A and B of n bytes, IMM16 widened to the element type (R92, R156). -/
def idotF (op n : Nat) (f : FForm) (s : State) : Host.Outcome State Fault Refusal :=
  gangF op f s free fun x =>
    x.done x.s (x.put f.d f.z .i32 fun l =>
      idotOp f.ty n (x.src l f.a f.ty (8 * n)) (x.srcB l f.b f.ty (8 * n)) (x.src l f.c .i32 32))

def execIdot4 (f : FForm) (s : State) : Host.Outcome State Fault Refusal := idotF 0x29 4 f s

def execIdot8 (f : FForm) (s : State) : Host.Outcome State Fault Refusal := idotF 0x2A 8 f s

end Sys2Proof.Machine
end

