-- ==== Sys2Proof/Machine/Convert.lean ====
section
/-! DEFINITION. Conversions between formats, packing and block quantization (R165 to R172). -/

namespace Sys2Proof.Machine

open Sys2Proof

/-- One conversion of a code between any two types, with a draw when the destination cannot hold every source value
(R71, R165 to R168). Integers of 32 and 64 bits saturate unless told otherwise (R72). DEDUCED (log 77): a widening conversion
keeps an infinity where SAT is 1, as it is exact. -/
def convert (src dst : Ty) (mode : RM) (sat : Bool) (code : Nat) (rng : DWord) : Nat × DWord :=
  if src.isFloat then
    let v := src.val code
    if dst.isFloat then
      if exactConv src dst then (dst.fmt.round .rne false 0 v, rng)
      else let d := drawOne mode rng; (dst.fmt.round mode sat d.2 v, d.1)
    else let d := drawOne mode rng; (dst.ofFV mode sat d.2 v, d.1)
  else if dst.isFloat then
    let v := FV.ofInt (src.intVal code)
    if exactConv src dst then (dst.fmt.round .rne false 0 v, rng)
    else let d := drawOne mode rng; (dst.fmt.round mode sat d.2 v, d.1)
  else (dst.fitInt sat (src.intVal code), rng)

/-- A conversion instruction: TY is the destination, FN the source (R125). -/
def cvtF (op : Nat) (f : FForm) (s : State) : Host.Outcome State Fault Refusal :=
  drawF op f s f.ty fun x l rng =>
    let src := Ty.ofCode f.fn
    convert src f.ty (x.mode f f.ty) (x.sat f f.ty) (x.src l f.a src src.bits) rng

def execCvt (f : FForm) (s : State) : Host.Outcome State Fault Refusal := cvtF 0x50 f s

def execCvtfi (f : FForm) (s : State) : Host.Outcome State Fault Refusal := cvtF 0x51 f s

def execCvtif (f : FForm) (s : State) : Host.Outcome State Fault Refusal := cvtF 0x52 f s

def execCvtii (f : FForm) (s : State) : Host.Outcome State Fault Refusal := cvtF 0x53 f s

/-- Registers that PACK reads and UNPK writes: A or D is a multiple of 32/w with all of them in the budget, resident
(R169). -/
def Gx.packOk (x : Gx) (f : FForm) (n : Name) : Bool :=
  let k := 32 / f.ty.bits
  match n with
  | .v i => i % k = 0 && (span i k).all (x.vecOk false)
  | n => x.nameOk .vdst false n

/-- One packed element from its 32-bit source (R169): raw INT4 never rounds, E2M1 saturates, others as CVT and CVTII. -/
def packElem (f : FForm) (mode : RM) (sat : Bool) (v : Nat) (rng : DWord) : Nat × DWord :=
  if f.ty = .packed then
    if f.fn = 1 then
      let i := Ty.i32.intVal v
      (wrapInt 4 (if sat then clampInt i (-8) 7 else i), rng)
    else
      let d := drawOne mode rng
      (Fmt.e2m1.round mode true d.2 (Fmt.f32.dec v), d.1)
  else if f.ty.isFloat then convert .f32 f.ty mode sat v rng
  else (f.ty.fitInt sat (Ty.i32.intVal v), rng)

/-- Elements packed in increasing index (R71, R169). -/
def packAll (f : FForm) (mode : RM) (sat : Bool) : List Nat → DWord → Nat × DWord
  | [], rng => (0, rng)
  | v :: r, rng =>
    let e := packElem f mode sat v rng
    let rest := packAll f mode sat r e.2
    (e.1 + 2 ^ f.ty.bits * rest.1, rest.2)

/-- The nibble of PACK's destination: MXFP4's for E2M1, none for raw INT4 (R70, R169). -/
def packNibble (f : FForm) : Option Nat :=
  if f.ty = .packed then (if f.fn = 1 then none else some 16) else nibbleLo f.ty

def execPack (f : FForm) (s : State) : Host.Outcome State Fault Refusal :=
  gangF 0x54 f s (fun x => x.packOk f f.a) fun x =>
    let mode := modeOf x.g.cvm f.pfx (packNibble f)
    let sat := satOf x.g.cvm f.pfx (packNibble f) true
    let k := 32 / f.ty.bits
    let src := fun l => match f.a with
      | .v n => (span n k).map fun i => x.rd.vsrc l i 32
      | _ => []
    let r := drawAll (lanesOf x.en) x.g.rng fun l rng => packAll f mode sat (src l) rng
    x.done x.s fun g => x.put f.d f.z .b32 (fun l => (aget r.1 l).getD 0) { g with rng := r.2 }

/-- One unpacked element as 32 bits (R170). -/
def unpackElem (f : FForm) (c : Nat) : Nat :=
  if f.ty = .packed then
    if f.fn = 1 then wrapInt 32 (if c % 16 ≥ 8 then (c % 16 : Int) - 16 else c % 16)
    else Fmt.f32.round .rne false 0 (Fmt.e2m1.dec (c % 16))
  else if f.ty.isFloat then Fmt.f32.round .rne false 0 (f.ty.val c)
  else wrapInt 32 (f.ty.intVal c)

def execUnpk (f : FForm) (s : State) : Host.Outcome State Fault Refusal :=
  gangF 0x55 f s (fun x => x.packOk f f.d) fun x =>
    let w := f.ty.bits
    let ws := fun l => (List.range (32 / w)).map fun i =>
      BitVec.ofNat 32 (unpackElem f (x.src l f.a f.ty 32 / 2 ^ (w * i) % 2 ^ w))
    x.done x.s fun g => (lanesOf x.c.lanes).foldl (fun g l =>
      if x.en.getLsbD l then g.putV l f.d (ws l)
      else if f.z then g.putV l f.d (List.replicate (32 / w) 0) else g) g

/-- The block format of QNT and DQNT (R171). -/
def blockOf (f : FForm) : BlkFmt :=
  match f.ty with
  | .e4m3 => .mxE4m3 | .e5m2 => .mxE5m2 | _ => if f.fn = 1 then .o4 else .mxfp4

/-- The $cvm nibble of a block format (R58). -/
def blkNibble : BlkFmt → Nat
  | .mxE4m3 => 8 | .mxE5m2 => 12 | .mxfp4 => 16 | .o4 => 20

/-- Every participant draws once, in lane order, and its draw serves its element (R171). -/
def execQnt (f : FForm) (s : State) : Host.Outcome State Fault Refusal :=
  gangF 0x56 f s free fun x =>
    let b := blockOf f
    let mode := modeOf x.g.cvm f.pfx (some (blkNibble b))
    let sat := satOf x.g.cvm f.pfx (some (blkNibble b)) true
    let r := drawAll (lanesOf x.en) x.g.rng fun _ rng => let d := drawOne mode rng; (d.2, d.1)
    let xs := (List.range 32).map fun l =>
      if x.en.getLsbD l then Fmt.f32.dec (x.src l f.a .f32 32) else FV.fin false 0 0 false
    let q := b.quant mode sat (fun l => (aget r.1 l).getD 0) xs
    let word := fun l => leNat (((q.1.drop (4 * l)).take 4).map (BitVec.ofNat 8))
    x.done x.s fun g =>
      x.putS f.c (BitVec.ofNat 64 q.2) (x.put f.d f.z .b32 word { g with rng := r.2 })

/-- Words 0 to n − 1 are read from lanes 0 to n − 1 whatever their state (R31, R172). DESIGN CHOICE (log 78): A holds words of
codes, so `one` there is the integer 1. -/
def execDqnt (f : FForm) (s : State) : Host.Outcome State Fault Refusal :=
  gangF 0x57 f s free fun x =>
    let b := blockOf f
    let data := (List.range (b.dataBytes / 4)).flatMap fun j => (leBytes 4 (x.src j f.a .b32 32)).map BitVec.toNat
    let vals := b.decode data (x.usrc f.c .ui64 64 % 256)
    x.done x.s (x.put f.d f.z .b32 fun l => Fmt.f32.round .rne false 0 (vals.getD l .nan))

end Sys2Proof.Machine
end

