-- ==== Sys2Proof/Machine/Array.lean ====
section
/-! DEFINITION. The arithmetic of the matrix array (R77), the operand blocks that it reads from records (R82, R220, R227) and
from the rows of MMA (R219), and what it does to a tile. -/

namespace Sys2Proof.Machine

open Sys2Proof

/-- One K-block of an operand: its element codes decoded, unscaled, and its scale code (R77). -/
structure KBlock where
  vals  : List FV
  scale : Option Nat
  deriving DecidableEq, Repr

/-- Exact zero, as an element outside a record reads (R220, R227). -/
def zeroVal : FV := .fin false 0 0 false

/-- The exact sum of products of a K-block (R77). -/
def kSum (as bs : List FV) : FV := (as.zip bs).foldl (fun s p => FV.add false s (p.1.mul p.2)) zeroVal

/-- A block sum times a scale, exactly; scale code 0xFF is NaN (R73, R77). -/
def scaleSum (s : FV) : Option Nat → FV
  | none => s
  | some c => if c = 255 then .nan else s.scale ((c : Int) - 127)

/-- The scaled sum of one K-block (R77). -/
def KBlock.dot (a b : KBlock) : FV := scaleSum (scaleSum (kSum a.vals b.vals) a.scale) b.scale

/-- One K-block added to an accumulator element (R77): INT32 with wrap, FP32 with two roundings. -/
def accumulate (int : Bool) (c : Word) (s : FV) : Word :=
  if int then c + BitVec.ofInt 32 ((s.toInt .rtz 0).getD 0) else rnd32 (FV.add false (dec32 (rnd32 s)) (dec32 c))

/-- An accumulator element with the K-blocks of a row and a column added in turn (R77). -/
def accumAll (int : Bool) (c : Word) (as bs : List KBlock) : Word :=
  (as.zip bs).foldl (fun c p => accumulate int c (p.1.dot p.2)) c

/-- Some elements along dimension 0 as the array reads them: `rd` reads bytes at an address. -/
def ShapeRec.kblock (r : ShapeRec) (n : Nat) (rd : Nat → Nat → Nat) (ix : List Nat) : KBlock :=
  let i0 := ix.getD 0 0
  let inside := i0 < r.dim 0 && (ix.zipIdx.drop 1).all fun p => p.1 < r.dim p.2
  if !inside then { vals := List.replicate n zeroVal, scale := none }
  else match r.blk with
    | some f =>
      { vals := f.codes ((List.range f.dataBytes).map fun k => rd (r.addr ix + k) 1), scale := some (rd (r.scaleAddr ix) 1) }
    | none =>
      { vals := (List.range n).map fun k =>
          if i0 + k < r.dim 0 then r.ty.val (rd (r.addr (ix.set 0 (i0 + k))) r.ty.size) else zeroVal
        scale := none }

/-- The bytes that such a block reads, as addresses with sizes. -/
def ShapeRec.kbytes (r : ShapeRec) (n : Nat) (ix : List Nat) : List (Nat × Nat) :=
  let i0 := ix.getD 0 0
  let inside := i0 < r.dim 0 && (ix.zipIdx.drop 1).all fun p => p.1 < r.dim p.2
  if !inside then []
  else match r.blk with
    | some f => [(r.addr ix, f.dataBytes), (r.scaleAddr ix, 1)]
    | none => ((List.range n).filter fun k => i0 + k < r.dim 0).map fun k => (r.addr (ix.set 0 (i0 + k)), r.ty.size)

/-! ### The rows of MMA -/

/-- K by TY (R219). -/
def mmaK : Ty → Nat
  | .f16 | .bf16 => 16 | .packed => 64 | _ => 32

/-- Elements of a K-block (R77). -/
def mmaN (t : Ty) : Nat := if mmaK t = 16 then 16 else 32

/-- MMA reads A + 8 (R219). -/
def mmaScaled (t : Ty) (fn : Nat) : Bool := t = .packed || ((t matches .e4m3 | .e5m2) && fn = 1)

/-- The FMT that the B record must have (R219). -/
def mmaFmt (t : Ty) (fn fmt : Nat) : Bool :=
  match t with
  | .packed => fmt = 0x10 || fmt = 0x11
  | .e4m3 | .e5m2 => if fn = 1 then fmt = 0x12 || fmt = 0x13 else fmt = 0x0D || fmt = 0x0E
  | _ => fmt = t.code

/-- The bytes of some registers, the low byte first (R219). -/
def wordBytes (ws : List Word) : List Nat := ws.flatMap fun w => (leBytes 4 w.toNat).map BitVec.toNat

/-- The K-blocks of one row (R219): nine registers, the ninth for scales. -/
def mmaRow (t : Ty) (fn : Nat) (ws : List Word) : List KBlock :=
  let bs := wordBytes (ws.take 8)
  let sc := ws.getD 8 0
  let scale := fun (k : Nat) => if mmaScaled t fn then some (sc.toNat / 256 ^ k % 256) else none
  match t with
  | .packed =>
    let f : BlkFmt := if fn = 1 then .o4 else .mxfp4
    (List.range 2).map fun k => { vals := f.codes ((bs.drop (16 * k)).take 16), scale := scale k }
  | .f16 | .bf16 =>
    [{ vals := (List.range 16).map fun k => t.val (bs.getD (2 * k) 0 + 256 * bs.getD (2 * k + 1) 0), scale := none }]
  | _ => [{ vals := bs.map t.val, scale := scale 0 }]

/-! ### Tiles -/

/-- A tile as a team starts with it (R216). -/
def Tile.empty : Tile := { cells := [], iss := 0, cmp := 0 }

def Tile.cell (t : Tile) (i j : Nat) : Word := sget t.cells (256 * i + j)

/-- Rows i0 to i0 + rows - 1 of a tile with the products of some K-blocks added (R77). -/
def Tile.accum (t : Tile) (int : Bool) (i0 : Nat) (rows cols : List (List KBlock)) : Tile :=
  { t with cells := ssetAll t.cells (rows.zipIdx.flatMap fun p => cols.zipIdx.map fun q =>
      (256 * (i0 + p.2) + q.2, accumAll int (t.cell (i0 + p.2) q.2) p.1 q.1)) }

/-- The columns of MMA's B at a K-step (R220). -/
def mmaCols (t : Ty) (b : ShapeRec) (kstep : Nat) (rd : Nat → Nat → Nat) : List (List KBlock) :=
  (List.range 256).map fun j => (List.range (mmaK t / mmaN t)).map fun kb =>
    b.kblock (mmaN t) rd [kstep * mmaK t + mmaN t * kb, j]

/-- A cluster scratchpad address holds a byte of some team (R188, R220). -/
def State.scratchHas (s : State) (t : Team) (a : Nat) : Bool := a < 2 ^ 32 && (s.scratchAt t a 1).isSome

/-- n bytes at a cluster scratchpad address. -/
def State.scratchRd (s : State) (t : Team) (a n : Nat) : Nat :=
  leNat ((span a n).map fun b => match s.scratchAt t b 1 with
    | some p => BitVec.ofNat 8 (s.scratchNat p.1 p.2 1)
    | none => 0)

/-- Eight words of a row from column 8 l on (R223). -/
def Tile.oct (t : Tile) (row l : Nat) : List Word := (List.range 8).map fun k => t.cell row (8 * l + k)

/-- ACCRD's result in one lane (R223). -/
def Group.accrd (g : Group) (t : Tile) (d : Name) (row l : Nat) : Group := g.putV l d (t.oct row l)

/-- ACCWR (R223): the row takes A to A + 7 of every lane. -/
def Tile.accwr (t : Tile) (g : Group) (a : Name) (row : Nat) : Tile :=
  match a with
  | .v n => { t with cells := ssetAll t.cells ((List.range 32).flatMap fun l => (List.range 8).map fun k =>
      (256 * row + 8 * l + k, g.vreg (g.wb l + n + k) l)) }
  | _ => t

end Sys2Proof.Machine
end

