-- ==== Sys2Proof/Machine/Matrix.lean ====
section
/-! DEFINITION. Matrix instructions (R216 to R225) and the end of a tile operation. -/

namespace Sys2Proof.Machine

open Sys2Proof

/-! ### What a tile operation waits for -/

/-- A vector name that begins eight registers, or nine, within the budget (R219, R223). -/
def Gx.octName (x : Gx) (n : Name) (k : Nat) : Bool :=
  match n with
  | .v i => i % 8 = 0 && i + k ≤ x.budget
  | _ => true

/-- The number of a tile name. -/
def tileOf : Name → Nat
  | .c n => n | _ => 0

/-- Tile operations in flight on the array of a core (R218). -/
def State.arrayJobs (s : State) (die core : Nat) : List TileJob :=
  s.tileJobs.filter fun j => match s.team? j.team with | some t => t.at_ == (die, core) | none => false

/-- The card that a chain's engine has taken holds a tile of a team (R218, R229). -/
def Chain.holds (c : Chain) (team tile : Nat) : Bool :=
  c.engine = 9 && c.bound = some team && (match c.job with
    | some j =>
      let b := (j.card.getD 0x14 0).toNat
      b ≤ tile && tile < b + (j.card.getD 0x15 0).toNat
    | none => false)

/-- A tile of a team is held by a job card in flight (R218). -/
def State.tileHeld (s : State) (team tile : Nat) : Bool := s.chains.any fun p => p.2.holds team tile

/-- A tile operation has to wait (R218). -/
def Gx.arrayFull (x : Gx) (tile : Nat) : Bool :=
  (x.s.arrayJobs x.t.at_.1 x.t.at_.2).length ≥ 16 || x.s.tileHeld x.c.g.team tile

def Team.tile (t : Team) (n : Nat) : Tile := t.tiles.getD n Tile.empty

def Team.modTile (t : Team) (n : Nat) (f : Tile → Tile) : Team := { t with tiles := modAt t.tiles n f }

/-- A tile operation issues: ISS counts it (R216). -/
def Gx.issueTile (x : Gx) (s : State) (tile : Nat) (op : TileOp) : State :=
  let t := s.modTeam x.c.g.team fun t => t.modTile tile fun (c : Tile) => { c with iss := c.iss + 1 }
  { t with tileJobs := t.tileJobs ++ [{ team := x.c.g.team, grp := x.c.g.grp, tile := tile, op := op, pc := x.c.pc }] }

/-- A token (R217). -/
def token (tile : Nat) (seq : Word) : DWord := BitVec.ofNat 64 (tile * 2 ^ 32 + seq.toNat)

/-! ### MMA -/

/-- Tile number and .ra of MMA's X field (R219). -/
def FForm.mmaTile (f : FForm) : Nat := f.x % 8
def FForm.mmaRa (f : FForm) : Bool := f.x / 32 % 2 = 1

/-- The bytes that MMA reads of its operand map (R220). -/
def mmaBytes (t : Ty) (b : ShapeRec) (kstep : Nat) : List Nat :=
  (List.range (Nat.min (b.dim 1) 256)).flatMap fun j => (List.range (mmaK t / mmaN t)).flatMap fun kb =>
    (b.kbytes (mmaN t) [kstep * mmaK t + mmaN t * kb, j]).flatMap fun p => span p.1 p.2

/-- MMA (R219 to R221). -/
def execMma (f : FForm) (s : State) : Host.Outcome State Fault Refusal :=
  let ok := fun (x : Gx) =>
    FForm.mmaTile f < x.t.kern.acc && x.octName f.a (if mmaScaled f.ty f.fn then 9 else 8)
  gangF 0xA0 f s ok fun x =>
    let sb := x.usrc f.b.nameOf .ui64 64
    let kstep := sb / 2 ^ 32 % 2 ^ 16
    let tile := FForm.mmaTile f
    if sb / 2 ^ 51 != 0 then x.fault x.s fltOperand
    else match x.s.handle x.t.ctx (sb % 2 ^ 32) with
      | none => x.fault x.s fltStale
      | some (_, r) =>
        let b := { r with sbase := r.sbase % 2 ^ 32 }
        if !mmaFmt f.ty f.fn r.fmt || r.rank != 2 || r.base / 2 ^ 32 != 0 then x.fault x.s fltOperand
        else match (mmaBytes f.ty b kstep).find? fun a => !x.s.scratchHas x.t a with
          | some a => x.fault x.s fltScratch 0xFF a
          | none =>
            if x.arrayFull tile then x.stall x.s0
            else
              let clash := match x.g.latch with | some l => l.ty != f.ty || l.fn != f.fn | none => false
              if clash then x.fault x.s fltOperand
              else
                let a := match f.a with | .v i => i | _ => 0
                let read := (List.range 32).map fun l => (List.range 9).map fun k => BitVec.ofNat 32 (x.rd.vsrc l (a + k) 32)
                let rows := match x.g.latch with | some l => l.rows | none => read
                let latch : Option Latch := if FForm.mmaRa f then some { ty := f.ty, fn := f.fn, rows := rows } else none
                let t := x.issueTile x.s tile (.mma f.ty f.fn rows b kstep (sb / 2 ^ 48 % 8))
                x.done t fun g => x.putS f.d (token tile ((x.t.tile tile).iss + 1)) { g with latch := latch }

/-! ### Moving tiles -/

/-- ACCZ (R223). -/
def execAccz (f : FForm) (s : State) : Host.Outcome State Fault Refusal :=
  gangF 0xA3 f s free fun x =>
    let tile := tileOf f.d
    if x.arrayFull tile then x.stall x.s0 else x.done (x.issueTile x.s tile .zero) id

/-- The cells that ACCLD and ACCST move: (row i, column j) with element (j, i) in the record, in row order (R223). -/
def ShapeRec.cells (r : ShapeRec) : List (Nat × Nat) :=
  (List.range (Nat.min (r.dim 1) 256)).flatMap fun i => (List.range (Nat.min (r.dim 0) 256)).map fun j => (i, j)

/-- The checks that ACCLD and ACCST share (R223, R224), and the pages of every element by its cell: `k` goes on in the state
that the group's own stores to those lines have left. -/
def Gx.tileMove (x : Gx) (f : FForm) (need : Need) (k : State → List (Nat × Leaf) → List (Want × Leaf) → State) : State :=
  match x.s.handle x.t.ctx (x.usrc f.a .ui64 64 % 2 ^ 32) with
  | none => x.fault x.s fltStale
  | some (_, r) =>
    if r.fmt != f.ty.code || r.rank != 2 then x.fault x.s fltOperand
    else
      let cs := r.cells
      let want := fun (c : Nat × Nat) =>
        ({ lane := x.low, va := r.addr [c.2, c.1], size := f.ty.size, need := need, halves := some (need == .w),
           whole := true, errOk := need == .r } : Want)
      x.memGo (cs.map want) fun ls =>
        if x.arrayFull (tileOf f.d) then x.stall x.s0
        else x.inPlace ls fun t => k t ((cs.zip ls).map fun p => (256 * p.1.1 + p.1.2, p.2.2)) ls

/-- The elements that a tile load reads (R223, R224): one with an uncorrectable error reads as 0. -/
def State.tileLoad (s : State) (a : Acc) (cells : List (Nat × Leaf)) : List (Nat × Word) :=
  cells.map fun c => (c.1, if s.poisoned c.2 4 then 0 else BitVec.ofNat 32 (leNat (s.leafBytes a c.2 4)))

/-- ACCLD (R223, R224): its reads are made as it issues, in program order (R253, R269 to R274). -/
def execAccld (f : FForm) (s : State) : Host.Outcome State Fault Refusal :=
  gangF 0xA1 f s free fun x => x.tileMove f .r fun t cells ls =>
    let bad := (ls.find? fun p => t.poisoned p.2 4).map fun p => p.1.va
    x.touched (x.done (x.issueTile t (tileOf f.d) (.load (t.tileLoad (t.acc x.t) cells) bad)) id) 0 ls false

/-- ACCST converts (R223). -/
def tileConverts (t : Ty) : Bool := !(t matches .i32 | .f32)

/-- ACCST (R223, R224): it takes the draws of its elements as it issues (log 19), and owns its lines from then on, which open regions
see (R302). -/
def execAccst (f : FForm) (s : State) : Host.Outcome State Fault Refusal :=
  gangF 0xA2 f s free fun x => x.tileMove f .w fun t cells ls =>
    let mode := x.mode f f.ty
    let rng := if tileConverts f.ty then cells.foldl (fun r _ => (drawOne mode r).1) x.g.rng else x.g.rng
    let u := x.issueTile t (tileOf f.d) (.store cells f.ty mode (x.sat f f.ty) x.g.rng)
    (x.touched (x.done u fun g => { g with rng := rng }) 0 ls true).seen (ls.flatMap fun p => p.2.lines p.1.size)

/-- Row number of ACCRD and ACCWR (R223). -/
def Gx.tileRow (x : Gx) (f : FForm) : Nat := x.srcBz x.low f.b .ui64 64

/-- The operand rules of ACCRD and ACCWR that decode checks (R223). -/
def rowImmOk (f : FForm) : Bool := match f.b with | .imm i => i.toNat < 256 | _ => true

/-- ACCRD and ACCWR wait for the tile's token as it stood at issue (R217, R223). -/
def Gx.tileWait (x : Gx) (wr : Bool) (tile : Nat) (reg : Name) (row : Nat) (sp : Bool) (go : State) : State :=
  let t := x.t.tile tile
  if row > 255 then x.fault x.s fltOperand
  else if x.s.tileHeld x.c.g.team tile then x.stall x.s0
  else if seqReached 32 t.cmp.toNat t.iss.toNat then go
  else x.waitIn x.s (.tile wr tile t.iss reg row sp)

/-- ACCRD (R223): its D counts eight registers. -/
def execAccrd (f : FForm) (s : State) : Host.Outcome State Fault Refusal :=
  gangF 0xA4 f s (fun x => rowImmOk f && x.octName f.d 8) fun x =>
    let tile := tileOf f.a
    let row := x.tileRow f
    x.tileWait false tile f.d row f.sp
      (x.done x.s fun g => (lanesOf x.c.lanes).foldl (fun g l => g.accrd (x.t.tile tile) f.d row l) g)

/-- ACCWR (R223). -/
def execAccwr (f : FForm) (s : State) : Host.Outcome State Fault Refusal :=
  gangF 0xA5 f s (fun x => rowImmOk f && x.octName f.a 8) fun x =>
    let tile := tileOf f.d
    let row := x.tileRow f
    x.tileWait true tile f.a row f.sp
      (x.done (x.s.modTeam x.c.g.team fun t => t.modTile tile fun c => c.accwr x.rd f.a row) id)

/-- MTOK (R225). -/
def execMtok (f : FForm) (s : State) : Host.Outcome State Fault Refusal :=
  uniF 0xA6 f s fun x => token (tileOf f.a) (x.t.tile (tileOf f.a)).cmp

/-- MXQ (R225): the measured rate is a free value (log 13). -/
def execMxq (f : FForm) (s : State) : Host.Outcome State Fault Refusal :=
  gangF 0xA7 f s free fun x =>
    let queued := ((x.s.arrayJobs x.t.at_.1 x.t.at_.2).filter fun j => match x.s.team? j.team with
      | some t => t.ctx == x.t.ctx
      | none => false).length
    let job := x.s.chains.any fun p => p.2.engine = 9 && p.2.ctx = x.t.ctx && p.2.job.isSome &&
      (match p.2.job with | some j => !j.paused | none => false) && (match p.2.bound.bind x.s.team? with
        | some t => t.place matches .core _ _ && t.at_ == x.t.at_
        | none => false)
    let rate := (Config.arrayRate x.s.free).toNat % 2 ^ 16
    x.done x.s.bump (x.putS f.d (BitVec.ofNat 64 (rate * 2 ^ 48 + (if job then 2 ^ 16 else 0) + queued)))

/-! ### The end of a tile operation -/

/-- A waiting lane's tile token is complete. -/
def Tile.lets (t : Tile) (tile : Nat) : Wait → Bool
  | .tile _ n seq _ _ _ => n = tile && seqReached 32 t.cmp.toNat seq.toNat
  | _ => false

/-- The rows that a group's lanes waited to write. -/
def Group.tileWrites (g : Group) (t : Tile) (tile : Nat) : List (Name × Nat) :=
  (g.lanes.filterMap fun l => match l.wait with
    | .tile true _ _ reg row _ => if t.lets tile l.wait then some (reg, row) else none
    | _ => none).eraseDups

/-- The lanes that waited to read get their columns, and every lane whose token is complete goes on (R223). -/
def Group.tileGo (g : Group) (t : Tile) (tile : Nat) : Group :=
  (List.range 32).foldl (fun g i => match g.lane? i with
    | some l => if t.lets tile l.wait then
        let h := match l.wait with | .tile false _ _ d row _ => g.accrd t d row i | _ => g
        h.modLane i fun l => { l with pc := l.pc + 8, wait := .none }
      else g
    | none => g) g

/-- Waits on a tile that are now over end (R223): rows are written first. -/
def Team.tileGo (t : Team) (tile : Nat) : Team :=
  let u := t.groups.foldl (fun t g => (g.tileWrites (t.tile tile) tile).foldl
    (fun t w => t.modTile tile fun c => c.accwr g w.1 w.2) t) t
  { u with groups := u.groups.map fun g => g.tileGo (u.tile tile) tile }

/-- The bytes of the elements that a tile store writes, in row order (R223). -/
def Tile.stored (t : Tile) (ty : Ty) (mode : RM) (sat : Bool) (rng : DWord) (cells : List (Nat × Leaf)) :
    List (Leaf × List Byte) :=
  (cells.foldl (fun (p : List (Leaf × List Byte) × DWord) c =>
    let w := (sget t.cells c.1).toNat
    let v := if tileConverts ty then convert .f32 ty mode sat w p.2 else (w, p.2)
    ((c.2, leBytes ty.size v.1) :: p.1, v.2)) ([], rng)).1.reverse

/-- They are written: each block of an alias page in one update (R80). -/
def State.tileStore (s : State) (a : Acc) (ws : List (Leaf × List Byte)) : State :=
  (s.storeNow a ws).dirtyHalves (ws.flatMap fun p => halvesOf p.1.pa p.2.length)

/-- The pages, with their element size, that a tile operation still writes. -/
def TileOp.writes : TileOp → List (Leaf × Nat)
  | .store cells ty _ _ _ => cells.map fun c => (c.2, ty.size)
  | _ => []

/-- The halves of host memory that a tile operation still lacks for its writes (R372). -/
def TileOp.lacks (op : TileOp) (c : Coh) : List Nat := c.lacks (op.writes.flatMap fun p => halvesOf p.1.pa p.2) true

/-- The lines that a tile operation writes have room among the versions of its launch (R335). -/
def State.tileRoom (s : State) (t : Team) (op : TileOp) : Bool :=
  t.slot = 0 || s.versionRoom (s.acc t) (op.writes.flatMap fun p => p.1.lines p.2).eraseDups

/-- A tile operation's effect on its tile and on memory (R77, R221, R223). -/
def State.runTile (s : State) (j : TileJob) (t : Team) : State :=
  let tile := t.tile j.tile
  let set := fun (c : Tile) => s.modTeam j.team fun t => t.modTile j.tile fun _ => c
  match j.op with
  | .zero => set { tile with cells := [] }
  | .mma ty fn rows b kstep slab =>
    set (tile.accum (ty == .i8) (32 * slab) (rows.map (mmaRow ty fn)) (mmaCols ty b kstep (s.scratchRd t)))
  | .load cells _ => set { tile with cells := ssetAll [] cells }
  | .store cells ty mode sat rng => s.tileStore (s.acc t) (tile.stored ty mode sat rng cells)

/-- The address of an element with an uncorrectable error that a tile load has read (R224). -/
def TileOp.bad : TileOp → Option Nat
  | .load _ bad => bad
  | _ => none

/-- TILE_OP_COMPLETE: operations of one tile end in the order they issued (R216). A store of a predicted launch that finds no
room for its versions fails the prediction, or waits for the relabel (R335, R340). -/
def execTileOpComplete (k : Nat) (s : State) : Host.Outcome State Fault Refusal :=
  match s.tileJobs[k]? with
  | none => .next s
  | some j =>
    if (s.tileJobs.take k).any fun i => i.team == j.team && i.tile == j.tile then .next s
    else match s.team? j.team with
      | none => .next { s with tileJobs := dropAt s.tileJobs k }
      | some t =>
        let lack := j.op.lacks s.coh
        if !lack.isEmpty then .next (s.askHalves lack true)
        else if !s.tileRoom t j.op then .next (if s.predicted t then s.failPrediction t else s)
        else
          let u := s.runTile j t
          let v := { u with tileJobs := dropAt u.tileJobs k }
          let w := v.modTeam j.team fun t =>
            (t.modTile j.tile fun (c : Tile) => { c with cmp := c.cmp + 1 }).tileGo j.tile
          .next (match j.op.bad with
            | some va => w.stopGroup { team := j.team, grp := j.grp } fltPoison 0 0xFF j.pc.toNat va .reexec
            | none => w)

end Sys2Proof.Machine
end

