-- ==== Sys2Proof/Machine/MatrixJobs.lean ====
section
/-! DEFINITION. Matrix job cards: their checks, their loop nest, an iteration with its epilogue, the lehr point (R226 to R231,
R289, R307). -/

namespace Sys2Proof.Machine

open Sys2Proof

/-! ### The card -/

/-- A loop level of a card (R226). -/
structure Level where
  dim   : Nat
  zero  : Nat
  trip  : Nat
  step  : Nat
  cstep : Nat
  deriving DecidableEq, Repr

def Job.level (j : Job) (n : Nat) : Level :=
  let v := j.at_ (0x40 + 8 * n) 8
  { dim := v % 256, zero := v / 256 % 256, trip := v / 2 ^ 16 % 2 ^ 16, step := v / 2 ^ 32 % 2 ^ 16, cstep := v / 2 ^ 48 }

def Job.levels (j : Job) : List Level := (List.range 5).map j.level
def Job.accin (j : Job) : Bool := j.flag 0
def Job.epi (j : Job) : Bool := j.flag 1
def Job.bring (j : Job) : Bool := j.flag 2
def Job.tk (j : Job) : Nat := j.at_ 0x16 2

/-- The operand record in the order A, B, output, bias, of those the card names. -/
def Job.aRec (j : Job) : Option ShapeRec := (j.recs[0]?).map Prod.snd
def Job.bRec (j : Job) : Option ShapeRec := (j.recs[1]?).map Prod.snd
def Job.cRec (j : Job) : Option ShapeRec := if j.epi then (j.recs[2]?).map Prod.snd else none
def Job.biasRec (j : Job) : Option ShapeRec :=
  if j.at_ 0x10 4 = 0 then none else (j.recs[if j.epi then 3 else 2]?).map Prod.snd

/-- The card is an INT8 one (R227). -/
def Job.int8 (j : Job) : Bool := j.at_ 2 1 = 0x01

/-- The pairs of formats (R227). -/
def fmtPair (a b : Nat) : Bool :=
  (a = 0x09 && b = 0x09) || (a = 0x0A && b = 0x0A) || (a = 0x01 && b = 0x01) ||
  ((a = 0x0D || a = 0x0E) && (b = 0x0D || b = 0x0E)) || ((a = 0x12 || a = 0x13) && (b = 0x12 || b = 0x13)) ||
  ((a = 0x10 || a = 0x11) && (b = 0x10 || b = 0x11))

/-- Elements of a K-block of a format (R77). -/
def blockN (fmt : Nat) : Nat := if fmt = 0x09 || fmt = 0x0A then 16 else 32

/-- A level is well formed (R226). -/
def Level.ok (l : Level) : Bool :=
  l.zero = 0 && l.trip != 0 &&
  (if l.dim = 0xFF then l.trip = 1 && l.step = 0 && l.cstep = 0 else l.dim ≤ 3 && (l.dim != 2 || l.cstep = 0))

/-- Tile index of a dimension at a cursor (R228). -/
def Job.index (j : Job) (cur : List Nat) (dim : Nat) : Nat :=
  ((j.levels.zip cur).map fun p => if p.1.dim = dim then p.2 * p.1.step else 0).sum

/-- Accumulator tile at a cursor (R228). -/
def Job.tileAt (j : Job) (cur : List Nat) : Nat := j.at_ 0x14 1 + ((j.levels.zip cur).map fun p => p.2 * p.1.cstep).sum

/-- The greatest accumulator index that a cursor reaches. -/
def Job.tileMax (j : Job) : Nat := j.tileAt (j.levels.map fun l => l.trip - 1)

def Job.firstK (j : Job) (cur : List Nat) : Bool := (j.levels.zip cur).all fun p => p.1.dim != 2 || p.2 = 0
def Job.lastK (j : Job) (cur : List Nat) : Bool := (j.levels.zip cur).all fun p => p.1.dim != 2 || p.2 + 1 = p.1.trip

/-- The next cursor in odometer order; none after the last (R228). -/
def nextCursor : List Level → List Nat → Option (List Nat)
  | l :: ls, i :: is => if i + 1 < l.trip then some ((i + 1) :: is) else (nextCursor ls is).map fun r => 0 :: r
  | _, _ => none

/-- The cursor that the card's memory holds (R226, R228). -/
def Job.saved (j : Job) : List Nat :=
  if j.at_ 0x32 1 = 1 then (List.range 5).map fun i => j.at_ (0x28 + 2 * i) 2 else [0, 0, 0, 0, 0]

/-- What the card's own fields must be (R226, R229), for a team with `acc` tiles. -/
def Job.matrixOk (j : Job) (acc : Nat) : Bool :=
  let at_ := j.at_
  let n := blockN (at_ 2 1)
  at_ 0 1 = 0x10 && at_ 1 1 < 8 && fmtPair (at_ 2 1) (at_ 3 1) && (j.epi || at_ 0x0C 4 = 0) && at_ 0x14 1 ≤ 7 &&
  1 ≤ at_ 0x15 1 && at_ 0x15 1 ≤ 8 && at_ 0x14 1 + at_ 0x15 1 ≤ acc && j.tk % n = 0 && 16 ≤ j.tk && j.tk ≤ 256 &&
  at_ 0x18 1 ≤ 3 && 1 ≤ at_ 0x19 1 && at_ 0x19 1 ≤ 5 && at_ 0x1A 1 ≤ 1 && at_ 0x1B 1 = 0 && at_ 0x20 8 % 8 = 0 &&
  at_ 0x33 13 = 0 && at_ 0x68 24 = 0 && j.levels.all Level.ok && j.tileMax < at_ 0x14 1 + at_ 0x15 1 && at_ 0x32 1 ≤ 1 &&
  (at_ 0x32 1 = 0 || (j.levels.zip j.saved).all fun p => p.2 < p.1.trip) && !(j.int8 && at_ 0x18 1 != 0) &&
  (!j.bring || at_ 0x1C 4 % 128 = 0)

/-- What the records must be beside the card (R227, R229). -/
def Job.recsOk (j : Job) : Bool :=
  (match j.aRec, j.bRec with
    | some a, some b => a.fmt = j.at_ 2 1 && b.fmt = j.at_ 3 1 && (!j.bring || (b.tile0 = j.tk && b.tile1 = 256))
    | _, _ => false) &&
  (match j.biasRec with
    | some r => r.rank = 1 && (if j.int8 then r.fmt = Ty.i32.code else
        r.fmt = Ty.f32.code || r.fmt = Ty.bf16.code || r.fmt = Ty.f16.code)
    | none => true)

/-- The handles of a card in the order its records are kept. -/
def Job.handles (j : Job) : List Nat :=
  [j.at_ 4 4, j.at_ 8 4] ++ (if j.epi then [j.at_ 0x0C 4] else []) ++ (if j.at_ 0x10 4 = 0 then [] else [j.at_ 0x10 4])

/-- Records copied in turn (R86); none where a handle is stale. -/
def State.copyRecs (s : State) (c : Nat) : List Nat → Option (List (Nat × ShapeRec) × State)
  | [] => some ([], s)
  | h :: hs => match s.copyRec c h with
    | none => none
    | some (p, t) => (t.copyRecs c hs).map fun q => (p :: q.1, q.2)

/-- Bytes of B's tile in a ring slot: rows of TK elements, then the scales (R207, R228). -/
def Job.slotBytes (j : Job) (r : ShapeRec) : Nat :=
  256 * (j.tk * r.bits / 8) + (if r.blk.isSome then 256 * (j.tk / 32) else 0)

/-- B's ring in the scratchpad of the array's core: the detail code where it cannot serve (R202, R229). -/
def State.bringBad (s : State) (team : Nat) (j : Job) : Option (Option Nat) :=
  match j.bRec, s.team? team with
  | some r, some t =>
    let off := j.at_ 0x1C 4
    if !j.bring then none
    else if off + 64 > t.scratchSize then some (some fltScratch)
    else
      let g := s.ringAt team off
      if !g.consistent then some (some fltRing)
      else if off + 64 + g.nslot * 128 * g.slotu > t.scratchSize then some (some fltScratch)
      else if 128 * g.slotu < j.slotBytes r then some none
      else none
  | _, _ => none

/-- A tile operation of the team is still in flight on a tile that a card would hold (R216, R218). -/
def State.tilesBusy (s : State) (team : Nat) (j : Job) : Bool :=
  s.tileJobs.any fun i => i.team == team && j.at_ 0x14 1 ≤ i.tile && i.tile < j.at_ 0x14 1 + j.at_ 0x15 1

/-- The array of a team's core runs a card. -/
def State.arrayTaken (s : State) (t : Team) : Bool :=
  s.chains.any fun p => p.2.engine = 9 && (match p.2.job with | some j => !j.paused && !j.finished | none => false) &&
    ((p.2.bound.bind s.team?).map Team.at_) == some t.at_

/-- Some group of the team has a yield request (R41, R231). -/
def Team.yielding (t : Team) : Bool := t.groups.any fun g => !g.ended && g.yreq

/-- The team is on a core and nobody asks it to leave. -/
def Team.runs (t : Team) : Bool := (match t.place with | .core _ _ => true | _ => false) && !t.yielding

/-- A card's operands are O4 blocks (R64, R75). -/
def Job.usesO4 (j : Job) : Bool := j.at_ 2 1 = 0x11 || j.at_ 3 1 = 0x11

/-- A matrix card is taken or refused (R229). -/
def State.takeMatrix (s : State) (k : Nat) (c : Chain) (j : Job) : State :=
  match c.bound, c.bound.bind s.team? with
  | some b, some t =>
    if j.team != some b then s.refuseCard k j.addr
    else if !t.runs || s.arrayTaken t then s
    else if !j.matrixOk t.kern.acc then s.refuseCard k j.addr
    else if s.tilesBusy b j then s
    else match s.copyRecs c.ctx j.handles with
      | none => s.stopChain k fltStale j.addr false
      | some (rs, u) =>
        let j2 := { j with recs := rs, cursor := j.saved }
        if j.usesO4 && field (s.feat c.ctx) 2 1 = 0 then s.stopChain k fltFeature j.addr false
        else if rs.any fun p => p.2.featureOff (s.feat c.ctx) then s.stopChain k fltFeature j.addr false
        else if !j2.recsOk then s.refuseCard k j.addr
        else match s.bringBad b j2 with
          | some (some code) => s.stopChain k code j.addr false
          | some none => s.refuseCard k j.addr
          | none => u.modChain k fun c => { c with job := some j2 }
  | _, _ => s

/-! ### The output segment -/

/-- Output elements of the tile at a cursor, row by row: (row, column) of the tile (R230). -/
def Job.outCells (j : Job) (r : ShapeRec) : List (Nat × Nat) :=
  let m := j.index j.cursor 0
  let n := j.index j.cursor 1
  let b := j.index j.cursor 3
  if b ≥ r.dim 2 then []
  else
    let rows := (List.range 256).filter fun i => 256 * m + i < r.dim 1
    let cols := (List.range 256).filter fun q => 256 * n + q < r.dim 0
    rows.flatMap fun i => cols.map fun q => (i, q)

/-- Index of an output element in its record (R227). -/
def Job.outIndex (j : Job) (p : Nat × Nat) : List Nat :=
  [256 * j.index j.cursor 1 + p.2, 256 * j.index j.cursor 0 + p.1, j.index j.cursor 3, 0, 0]

/-- What one output cell writes, as addresses with sizes: an element, or a block with its scale (R230). -/
def Job.outBytes (j : Job) (r : ShapeRec) (p : Nat × Nat) : List (Nat × Nat) :=
  let ix := j.outIndex p
  match r.blk with
  | some f => if p.2 % 32 = 0 then [(r.addr ix, f.dataBytes), (r.scaleAddr ix, 1)] else []
  | none => [(r.addr ix, r.ty.size)]

/-- The addresses that the output tile of the cursor writes. -/
def Job.outSpans (j : Job) : List (Nat × Nat) :=
  match j.cRec with
  | some r => (j.outCells r).flatMap (j.outBytes r)
  | none => []

/-! ### What an iteration reads -/

/-- The index of the K-block at element kk of row or column i of an operand at the cursor (R227, R228). -/
def Job.opIndex (j : Job) (dim i kk : Nat) : List Nat :=
  [j.tk * j.index j.cursor 2 + kk, 256 * j.index j.cursor dim + i, j.index j.cursor 3]

/-- First elements of the K-blocks of a K-tile. -/
def Job.kkList (j : Job) : List Nat := let n := blockN (j.at_ 2 1); (List.range (j.tk / n)).map (n * ·)

/-- The K-blocks of an operand's 256 rows or columns. -/
def Job.operand (j : Job) (r : ShapeRec) (dim : Nat) (rd : Nat → Nat → Nat) : List (List KBlock) :=
  (List.range 256).map fun i => j.kkList.map fun kk => r.kblock (blockN r.fmt) rd (j.opIndex dim i kk)

/-- The bytes that such a read touches. -/
def Job.operandSpans (j : Job) (r : ShapeRec) (dim : Nat) : List (Nat × Nat) :=
  (List.range 256).flatMap fun i => j.kkList.flatMap fun kk => r.kbytes (blockN r.fmt) (j.opIndex dim i kk)

/-- B's tile as a ring slot holds it (R228). -/
def Job.slotRec (j : Job) (r : ShapeRec) (base : Nat) : ShapeRec :=
  let row := j.tk * r.bits / 8
  { r with
    base := base, rank := 2, dims := [j.tk, 256, 1, 1, 1]
    str := [if r.blk.isSome then 0 else (r.ty.size : Int), (row : Int), 0, 0, 0]
    sbase := base + 256 * row, sstr := [((j.tk / 32 : Nat) : Int), 0, 0, 0] }

/-- The K-blocks of B's columns in a ring slot (R228). -/
def Job.slotOperand (j : Job) (r : ShapeRec) (base : Nat) (rd : Nat → Nat → Nat) : List (List KBlock) :=
  (List.range 256).map fun q => j.kkList.map fun kk => (j.slotRec r base).kblock (blockN r.fmt) rd [kk, q, 0]

/-- A bias element as FP32, or its INT32 word (R230). -/
def biasWord (r : ShapeRec) (rd : Nat → Nat → Nat) (i : Nat) : Word :=
  if i ≥ r.dim 0 then 0
  else
    let code := rd (r.addr [i, 0, 0, 0, 0]) r.ty.size
    if r.ty == .i32 then BitVec.ofNat 32 code else rnd32 (r.ty.val code)

/-- The activation of an FP32 sum (R230). -/
def activate (act : Nat) (y : Word) : Word :=
  match act with
  | 1 => (match dec32 y with | .nan => y | v => if zeroVal.lt v then y else 0)
  | 2 => rnd32 ((dec32 y).mul (dec32 (rnd32 (dec32 y).sigm)))
  | 3 => rnd32 (dec32 y).tanh
  | _ => y

/-- A finished element before its conversion (R230). -/
def Job.finish (j : Job) (t : Tile) (bias : Option (Nat → Word)) (p : Nat × Nat) : Word :=
  let w := t.cell p.1 p.2
  let b := bias.map fun f => f (256 * j.index j.cursor 1 + p.2)
  if j.int8 then (match b with | some v => w + v | none => w)
  else activate (j.at_ 0x18 1) (match b with | some v => rnd32 (FV.add false (dec32 w) (dec32 v)) | none => w)

/-- The output rounding mode (R70, R226). -/
def Job.ornd (j : Job) : RM := (RM.ofCode (j.at_ 0x19 1)).getD .rne

/-- An element converted to the output's format (R230). An INT32 sum in a format for which R230 states no conversion is a
free value (log 13). -/
def Job.outCode (j : Job) (r : ShapeRec) (y : Word) : Nat :=
  if j.int8 then
    (match r.ty with
      | .i32 => y.toNat
      | .i8 | .ui8 => (convert .i32 r.ty j.ornd (j.at_ 0x1A 1 = 1) y.toNat 0).1
      | _ => Config.intOutput r.fmt y)
  else if r.ty == .f32 then y.toNat
  else (convert .f32 r.ty j.ornd (j.at_ 0x1A 1 = 1) y.toNat 0).1

/-- The bytes that one output cell writes, by their addresses (R230). -/
def Job.outWrite (j : Job) (r : ShapeRec) (t : Tile) (bias : Option (Nat → Word)) (p : Nat × Nat) : List (Nat × List Byte) :=
  let ix := j.outIndex p
  match r.blk with
  | none => [(r.addr ix, leBytes r.ty.size (j.outCode r (j.finish t bias p)))]
  | some f =>
    if p.2 % 32 != 0 then []
    else
      let xs := (List.range 32).map fun e =>
        if 256 * j.index j.cursor 1 + p.2 + e < r.dim 0 then
          (let y := j.finish t bias (p.1, p.2 + e)
           if j.int8 then FV.ofInt y.toInt else dec32 y)
        else zeroVal
      let q := f.quant j.ornd (j.at_ 0x1A 1 = 1) (fun _ => 0) xs
      [(r.addr ix, q.1.map (BitVec.ofNat 8)), (r.scaleAddr ix, [BitVec.ofNat 8 q.2])]

/-- EPILOGUE (R230): the tile is written to the output record. -/
def State.epilogue (s : State) (c : Nat) (j : Job) (t : Tile) (bias : Option (Nat → Word)) : State :=
  match j.cRec with
  | none => s
  | some r =>
    let ws := ((j.outCells r).flatMap (j.outWrite r t bias)).filterMap fun w => (j.leafAt w.1 true).map fun l => (l, w.2)
    (s.storeNow { ctx := c } ws).dirtyHalves ((ws.flatMap fun p => halvesOf p.1.pa p.2.length).eraseDups)

/-- Addresses that an iteration reads of global memory (R228, R230). -/
def Job.reads (j : Job) : List (Nat × Nat) :=
  (match j.aRec with | some a => j.operandSpans a 0 | none => []) ++
  (if j.bring then [] else match j.bRec with | some b => j.operandSpans b 1 | none => []) ++
  (if j.epi && j.lastK j.cursor then
    match j.biasRec with
    | some r => ((List.range 256).filter fun q => 256 * j.index j.cursor 1 + q < r.dim 0).map fun q =>
        (r.addr [256 * j.index j.cursor 1 + q, 0, 0, 0, 0], r.ty.size)
    | none => []
   else [])

/-! ### The segments -/

/-- The card at another cursor. -/
def Job.cur (j : Job) (c : List Nat) : Job := { j with cursor := c }

/-- The output tile of a cursor, named by the cursor with zeros at the K levels (R228, R285). -/
def Job.tileId (j : Job) (cur : List Nat) : List Nat := (j.levels.zip cur).map fun p => if p.1.dim = 2 then 0 else p.2

/-- The cursors of an output tile in odometer order. -/
def kCursors : List Level → List Nat → List (List Nat)
  | l :: ls, i :: is => (kCursors ls is).flatMap fun r => (if l.dim = 2 then List.range l.trip else [i]).map fun n => n :: r
  | _, _ => [[]]

/-- A cursor comes before another in odometer order (R228). -/
def cursorLt : List Nat → List Nat → Bool
  | a :: as_, b :: bs => cursorLt as_ bs || (as_ == bs && a < b)
  | _, _ => false

/-- What the iterations of an output tile still read, from the card's cursor on. -/
def Job.tileReads (j : Job) (id : List Nat) : List (Nat × Nat) :=
  ((kCursors j.levels id).filter fun c => !cursorLt c j.cursor).flatMap fun c => (j.cur c).reads

/-- The physical lines of the output tiles that are open. -/
def Job.outLines (j : Job) : List Nat :=
  sortLines ((j.tiles.flatMap fun id => (j.cur id).outSpans).flatMap fun p => match j.leafAt p.1 true with
    | some l => l.lines p.2
    | none => [])

/-- An output line on a fenced pseudo-channel, by its code and address (R414). -/
def State.badOutput (s : State) (j : Job) : Option (Nat × Nat) :=
  if s.fleet.fences.isEmpty then none
  else (j.tiles.flatMap fun id => (j.cur id).outSpans).findSome? fun p => (j.leafAt p.1 true).bind fun l =>
    if (l.lines p.2).any s.lineFenced then some (fltFenced, p.1) else none

/-- The pages of the output tiles that are open, and of what they read (R285). -/
def Job.tilePages (j : Job) : List (Nat × Bool) :=
  (firstInPages (j.tiles.flatMap fun id => (j.cur id).outSpans)).map (fun p => (p, true)) ++
  (firstInPages (j.tiles.flatMap j.tileReads)).map fun p => (p, false)

/-- A card's pages and lines become those of some open tiles: it passes on the lines that they do not write (R286). -/
def State.setTiles (s : State) (k : Nat) (c : Chain) (j : Job) : State :=
  let lines := j.outLines
  let gone := j.owned.filter fun n => !lines.contains n
  (s.modChain k fun c => { c with job := some { j with owned := lines } }).giveUp (s.chainSid c) gone

/-- The output tiles reach an element of an alias page only in part (R80, log 61). -/
def Job.oddTiles (j : Job) : Bool :=
  (j.tiles.flatMap fun id => (j.cur id).outSpans).any fun p =>
    (p.1 % 2 != 0 || p.2 % 2 != 0) && (match j.leafAt p.1 true with | some l => l.mxa.isSome | none => false)

/-- A segment is taken (R285, R307): at a tile's first-K iteration, or as a card is taken again. The pages that the tile
writes and reads are resolved before its lines are owned (R287, R356), with those of the tiles that are open; the card holds
no page and no line while it waits for one (R353, R356). -/
def State.matrixSegment (s : State) (k : Nat) (c : Chain) (j : Job) : State :=
  if s.chainFenced c then s.stopChain k fltFenced j.addr false
  else if j.issued || j.paused || j.finished then s
  else
    let id := j.tileId j.cursor
    let j1 := { j with tiles := if j.tiles.contains id then j.tiles else j.tiles ++ [id] }
    match s.resolve c.ctx k j1.tilePages with
    | .failed code va => s.stopChain k code va false
    | .wait t => (t.giveBack (s.chainSid c) j.owned).modChain k fun c => { c with job := some { j with pages := [], owned := [] } }
    | .ready pages =>
      let j2 := { j1 with pages := pages, issued := true }
      if j2.oddTiles then s.stopChain k fltAlign j.addr false
      else match s.badOutput j2 with
      | some f => s.stopChain k f.1 f.2 false
      | none => (s.setTiles k c j2).own (s.chainSid c) j2.outLines

/-! ### An iteration -/

/-- The card after an iteration (R228): a tile whose last K is done closes, and the next one may still have to open. -/
def Job.next (j : Job) : Job :=
  let last := j.lastK j.cursor
  let tiles := if last then j.tiles.filter (· != j.tileId j.cursor) else j.tiles
  match nextCursor j.levels j.cursor with
  | some cur => { j with
      cursor := cur, tiles := tiles, issued := tiles.contains (j.tileId cur)
      pages := if tiles.isEmpty then [] else j.pages }
  | none => { j with finished := true, tiles := [], issued := false, pages := [] }

/-- One iteration's sums and epilogue in a state whose pages are known; `slot` is B's slot in the team's scratchpad. -/
def State.iterate (s : State) (k : Nat) (c : Chain) (j : Job) (team : Nat) (slot : Nat) : State :=
  match s.team? team, j.aRec, j.bRec with
  | some t, some a, some b =>
    let n := j.tileAt j.cursor
    let rd := s.jobNat c.ctx j
    let srd := fun (o m : Nat) => s.scratchNat team o m
    let start := if j.firstK j.cursor && !j.accin then { t.tile n with cells := [] } else t.tile n
    let cols := if j.bring then j.slotOperand b slot srd else j.operand b 1 rd
    let done := start.accum j.int8 0 (j.operand a 0 rd) cols
    let u := s.modTeam team fun x => x.modTile n fun _ => done
    let bias := j.biasRec.map fun r => biasWord r rd
    let last := j.lastK j.cursor
    if last && j.epi then (u.epilogue c.ctx j done bias).setTiles k c j.next
    else u.modChain k fun c => { c with job := some j.next }
  | _, _, _ => s

/-- A word of a ring header moved on by one. -/
def State.ringStep (s : State) (team ring off : Nat) : State :=
  s.scratchWrite team (ring + off) (leBytes 4 ((s.scratchNat team (ring + off) 4 + 1) % 2 ^ 32))

/-- MATRIX_ITERATION (R228): with BRING it takes a slot and releases it. -/
def execMatrixIteration (chain : Nat) (s : State) : Host.Outcome State Fault Refusal :=
  match s.liveChain chain with
  | none => .next s
  | some c => match c.job, c.bound, c.bound.bind s.team? with
    | some j, some b, some t =>
      if c.engine != 9 || j.finished || j.paused || !j.issued || !t.runs || s.chainFenced c then .next s
      else if !s.granted (s.chainSid c) j.owned then .next (s.own (s.chainSid c) (j.owned.filter hostLine))
      else
        let ring := j.at_ 0x1C 4
        match s.bringBad b j with
        | some (some code) => .next (s.stopChain chain code j.addr false)
        | some none => .next (s.refuseCard chain j.addr)
        | none =>
          let r := s.ringAt b ring
          if j.bring && r.ap = r.wp then .next s
          else
            match (if s.mayWait j then s.readWait j j.reads else none) with
            | some u => .next u
            | none => match s.badOutput j |>.or (s.badRead j j.reads) with
              | some f => .next (s.stopChain chain f.1 f.2 false)
              | none =>
                if j.bring then
                  .next (((s.ringStep b ring 12).iterate chain c j b (ring + r.slot r.ap)).ringStep b ring 8)
                else .next (s.iterate chain c j b 0)
    | _, _, _ => .next s

/-! ### The lehr point -/

/-- LEHR_POINT (R229, R231, R289): the card gives up its lines and pages; then the cursor and CSTATE go to the card as one
store. It holds neither while it waits for the card's own page (R353, R356). A card whose page is refused fails. -/
def execLehrPoint (chain : Nat) (s : State) : Host.Outcome State Fault Refusal :=
  match s.liveChain chain with
  | none => .next s
  | some c => match c.job, c.bound.bind s.team? with
    | some j, some t =>
      if c.engine != 9 || j.finished || j.paused || !t.yielding then .next s
      else
        let va := j.addr + 0x28
        let given := (s.giveBack (s.chainSid c) j.owned).modChain chain fun c =>
          { c with job := some { j with issued := false, owned := [], pages := [] } }
        match given.partWait c.ctx (.chain chain) [(va, 11, true)], given.partFail c.ctx (.chain chain) [(va, 11, true)] with
        | some u, _ => .next u
        | none, some (code, a) => .next (given.stopChain chain code a false)
        | none, none =>
          let bytes := j.cursor.flatMap (leBytes 2) ++ [1]
          let u := given.partWrite c.ctx (.chain chain) va bytes
          let j2 := { j with
            paused := true, issued := false, owned := [], pages := [], tiles := []
            card := j.card.take 0x28 ++ bytes ++ j.card.drop 0x33 }
          .next (u.modChain chain fun c => { c with job := some j2 })
    | _, _ => .next s

/-- A card that rested is taken again from the cursor in memory (R231, R307): its records stay as they were copied. -/
def State.retakeMatrix (s : State) (k : Nat) (c : Chain) (j : Job) : State :=
  match c.bound.bind s.team? with
  | some t =>
    if !t.runs || s.arrayTaken t then s
    else match s.partWait c.ctx (.chain k) [(j.addr, 128, false)], s.partFail c.ctx (.chain k) [(j.addr, 128, false)] with
      | some u, _ => u
      | none, some (code, a) => s.stopChain k code a false
      | none, none =>
        let card := s.partRead c.ctx (.chain k) j.addr 128
        let cur := (List.range 5).map fun i => leNat ((card.drop (0x28 + 2 * i)).take 2)
        s.modChain k fun c => { c with job := some { j with paused := false, cursor := cur } }
  | none => s

end Sys2Proof.Machine
end

