-- ==== Sys2Proof/Machine/Jobs.lean ====
section
/-! DEFINITION. The steps that every engine shares: taking a card, issuing a segment, completing a job (R205, R207, R228,
R285, R429). -/

namespace Sys2Proof.Machine

open Sys2Proof

/-- The card at HEAD is taken, or the chain stops on it (R204, R205, R208, R229). -/
def State.takeCard (s : State) (k : Nat) (c : Chain) : State :=
  match s.readCcb k c with
  | .wait t => t
  | .failed code => s.stopChain k code c.ccb.toNat false
  | .ok _ b =>
    let head := ccbField b 0x18 8
    let va := ccbField b 0 8 + 128 * (head % ccbField b 8 4)
    let seq := BitVec.ofNat 64 (ccbField b 0x20 8 + head + 2 ^ 64 + 1 - ccbField b 0x10 8 % 2 ^ 64)
    if !ccbOk b || ccbField b 0x0C 2 != c.engine then s.refuseCard k c.ccb.toNat
    else if s.chainFenced c then s.stopChain k fltFenced va false
    else if c.engine = 8 && s.running c.die c.core 8 ≥ 32 then s
    else match s.reach c.ctx (.chain k) va .r 128 with
      | .miss => s.request c.ctx (.chain k) va false
      | .fault code => s.stopChain k code va false
      | .ok l =>
        let hs := s.coh.lacks (halvesOf l.pa 128) false
        if (l.lines 128).any (s.marked none) then s
        else if !hs.isEmpty then s.askHalves hs false
        else if s.poisoned l 128 then s.stopChain k fltPoison va false
        else
          let j := Job.new seq (s.leafBytes { ctx := c.ctx } l 128) va c.queue.head?
          if c.engine = 9 then s.takeMatrix k c j else s.takeCopy k c j

/-- ENGINE_TAKE_CARD (R204 to R208, R229, R231, R429): the card at HEAD, a COPY packet's own card, or a matrix card that
rests at a lehr point. Under self-test the engine takes none (R412). -/
def execEngineTakeCard (chain : Nat) (s : State) : Host.Outcome State Fault Refusal :=
  match s.liveChain chain with
  | none => .next s
  | some c => if s.chainUnderTest c && !s.chainFenced c then .next s else match c.job with
    | some j => .next (if j.paused then s.retakeMatrix chain c j else s)
    | none => match c.packet with
      | some p =>
        .next (if s.chainFenced c then s.stopChain chain fltFenced 0 false
          else s.modChain chain fun c => { c with job := some (Job.new p.seq p.card 0 none) })
      | none => .next (if c.queue.isEmpty then s else s.takeCard chain c)

/-- SEGMENT_ISSUE (R285). -/
def execSegmentIssue (chain : Nat) (s : State) : Host.Outcome State Fault Refusal :=
  match s.liveChain chain with
  | none => .next s
  | some c => match c.job with
    | none => .next s
    | some j => .next (if c.engine = 9 then s.matrixSegment chain c j else s.copySegment chain c j)

/-- A matrix card is done: CSTATE 2, the chain's word, then the card's own (R228). Where the page of the card or of its word
is refused, the card fails (R229) before any of the three is written (log 74). -/
def State.finishMatrix (s : State) (k : Nat) (c : Chain) (j : Job) : State :=
  let word := j.at_ 0x20 8
  let ws := (j.addr + 0x32, 1, true) :: if word = 0 then [] else [(word, 8, true)]
  match s.partWait c.ctx (.chain k) ws, s.partFail c.ctx (.chain k) ws with
  | some t, _ => t
  | none, some (code, a) => s.stopChain k code a false
  | none, none =>
    let t := (s.partPut c.ctx (.chain k) (j.addr + 0x32) 1 2).completeChain k c j.seq
    if (aget t.chains k).any fun d => d.stop.isSome || d.job.isSome || word = 0 then t
    else t.partPut c.ctx (.chain k) word 8 j.seq.toNat

/-- JOB_COMPLETION (R205, R207, R228): the data is written, arrivals are made, then the completion word is. -/
def execJobCompletion (chain : Nat) (s : State) : Host.Outcome State Fault Refusal :=
  match s.liveChain chain with
  | none => .next s
  | some c => match c.job with
    | none => .next s
    | some j =>
      if c.engine = 9 then .next (if j.finished then s.finishMatrix chain c j else s)
      else match s.copyDone chain c j with
        | .later t => .next t
        | .done t => match t.liveChain chain with
          | none => .next t
          | some d => match d.packet with
            | some p => .next (t.endPacket chain p)
            | none => .next (t.completeChain chain d j.seq)

end Sys2Proof.Machine
end

