-- ==== Sys2Proof/Machine/Teams.lean ====
section
/-! DEFINITION. The dispatcher: admission, swaps, yields, saves, scratchpad regions (R17 to R20, R36 to R45, R290 to R292,
R295, R305, R368). -/

namespace Sys2Proof.Machine

open Sys2Proof

/-! ### What a core has free -/

/-- Teams on a core that hold its registers and tiles. -/
def State.teamsOn (s : State) (d k : Nat) : List Team :=
  (s.teams.filter fun p => p.2.place == .core d k && p.2.endedAt.isNone).map Prod.snd

/-- Scratchpad units of a core that are not FREE (R290). -/
def State.scratchHeld (s : State) (d k : Nat) : Nat :=
  (s.teams.map fun p =>
    if p.2.place == .core d k || p.2.place == .draining d k || p.2.place == .zeroing d k then p.2.kern.scratch else 0).sum +
  (s.zones.map fun z => if z.die = d && z.core = k then z.units else 0).sum

/-- Groups of a team that hold a slot and segments: those that have not ended (R19, R181). -/
def Team.held (t : Team) : Nat := (t.groups.filter fun g => !g.ended).length

/-- Segments that a group reserves (R46). -/
def Kernel.segments (k : Kernel) : Nat := k.bseg + k.hseg

/-- A team can never fit on one core (R19). -/
def Kernel.tooBig (k : Kernel) : Bool := k.team > 64 || k.team * k.segments > 160 || k.scratch > 256 || k.acc > 8

/-- A core can admit a team of a kernel (R19): 64 groups, 160 segments, its scratchpad and its tiles; and it is in service. -/
def State.coreFits (s : State) (k : Kernel) (d c : Nat) : Bool :=
  let ts := s.teamsOn d c
  d < 8 && c < 48 && !s.outOfService (corePath d c) &&
  (ts.map Team.held).sum + k.team ≤ 64 &&
  (ts.map fun t => t.held * t.kern.segments).sum + k.team * k.segments ≤ 160 &&
  (ts.map fun t => t.kern.acc).sum + k.acc ≤ 8 && s.scratchHeld d c + k.scratch ≤ 256

/-- The cores of a cluster's rectangle on a die from its first core on (R18). -/
def rectCores (k : Kernel) (c : Nat) : List Nat :=
  (List.range (k.rows * k.cols)).map fun i => c + 8 * (i / k.cols) + i % k.cols

/-- The rectangle lies on the mesh of 6 rows and 8 columns. -/
def rectOk (k : Kernel) (c : Nat) : Bool := c / 8 + k.rows ≤ 6 && c % 8 + k.cols ≤ 8

/-- A rectangle of unfenced cores exists on some die (R414). -/
def State.rectExists (s : State) (k : Kernel) : Bool :=
  (List.range 8).any fun d => (List.range 48).any fun c =>
    rectOk k c && (rectCores k c).all fun n => !s.fenced (corePath d n)

/-! ### Admission -/

/-- A lane at its start (R20). -/
def Lane.start (pc : DWord) : Lane :=
  { pc := pc, wb := 0, exited := false, stopped := false, wait := .none, paused := 0, trapPc := 0, uiPc := 0, arst := 0,
    region := none, issues := 0, since := 0 }

/-- $rng at a group's start (R59). -/
def rngStart (seed : DWord) (team grp : Nat) : DWord :=
  let v := seed ^^^ (BitVec.ofNat 64 team * 0x9E3779B97F4A7C15#64) ^^^ BitVec.ofNat 64 grp
  if v = 0 then 1 else v

/-- A group at its start (R20, R55 to R63). -/
def Group.start (k : Kernel) (pc : DWord) (rng : DWord) (core : Nat) : Group :=
  { bseg := k.bseg, hseg := k.hseg, safelive := k.safelive, lanes := List.replicate 32 (Lane.start pc)
    vregs := [], sregs := [], split := [], copies := [], mregs := [], pri := 8, aged := false, lastIss := core
    cvm := 0x99991911#64, rng := rng, tvec := 0, sbot := 0, nseg := k.bseg, cause := 0, wspan := false, intrap := false
    yreq := false, divw := false, trapping := 0, uip := false, uigang := 0, stbuf := [], wcbuf := [], unacked := 0, carried := 0
    deferred := none, count := List.replicate 8 0, ord := List.replicate 8 0, flight := [], latch := none, stop := none
    step := none, ended := false, yreqAt := 0 }

/-- A team at its start on a core (R19, R20, R216, R290). -/
def Team.start (n : Nat) (l : Launch) (lin cidx d c core : Nat) : Team :=
  let k := l.kern
  { launch := n, ctx := l.ctx, kern := k, x := lin % l.nx, y := lin / l.nx % l.ny, z := lin / (l.nx * l.ny)
    nx := l.nx, ny := l.ny, nz := l.nz, cidx := cidx, slot := l.slot, place := .core d c
    groups := (List.range k.team).map fun g => Group.start k k.entry (rngStart l.seed lin g) core
    scratch := [], inbound := 0, tiles := List.replicate k.acc Tile.empty, bars := List.replicate 16 0
    cbars := List.replicate 16 0, endedAt := none, pool := 0 }

/-- Teams of a launch (R17). -/
def Launch.total (l : Launch) : Nat := l.nx * l.ny * l.nz

/-- A context that admits teams: it is active, and not being saved (R368). -/
def State.admits (s : State) (c : Nat) : Bool := match s.ctx? c with | some x => x.state == .active | none => false

/-- A saved team comes back (R36, R42, R368): its record is read from the save pool. -/
def State.restoreTeam (s : State) (n d c : Nat) : State :=
  match s.team? n with
  | none => s
  | some t => match s.ctx? t.ctx with
    | none => s
    | some x =>
      let base := x.savebase + t.pool
      let paOf := fun (va : Nat) => match s.translate t.ctx .part va .w with | .ok l => some (l.pa / 128) | _ => none
      let u := t.ofRecord (fun o m => s.natAt (base + o) m) paOf
      let groups := u.groups.map fun g => { g with
        yreq := false, lastIss := s.core, lanes := g.lanes.map fun l => { l with stopped := false } }
      s.modTeam n fun _ => { u with place := .core d c, groups := groups }

/-- Two intervals share a byte. -/
def overlap (a b : Interval) : Bool := a.base < b.base + b.len && b.base < a.base + a.len

/-- Two intervals conflict (R324). -/
def conflict (a b : Interval) : Bool := a.ctx == b.ctx && overlap a b && (a.write || b.write)

/-- A hazard toward an earlier launch of its queue holds a launch's teams back: a prediction is issued before its hazards are
over, and waits on the true ones (R324, R334); one that runs anew as a plain launch waits on all (R341). -/
def State.hazardous (s : State) (l : Launch) : Bool :=
  s.table.any fun i => i.thread == l.thread && i.seq == l.seq &&
    s.table.any fun o => o.thread == i.thread && o.seq != i.seq && o.order < i.order && conflict o i &&
      (l.slot = 0 || (o.write && !i.write))

/-- TEAM_ADMIT (R18, R19, R37, R295): the launch's next team, with its whole cluster, or the first of its saved teams once
every other has been placed. -/
def execTeamAdmit (launch die core : Nat) (s : State) : Host.Outcome State Fault Refusal :=
  match aget s.launches launch with
  | none => .next s
  | some l =>
    let k := l.kern
    let cs := rectCores k core
    if !s.admits l.ctx || s.hazardous l || !rectOk k core || !(cs.all fun c => s.coreFits k die c) then .next s
    else
      let f := s.fuseRect die core k.rows k.cols
      if !f.coh.fusedAs die core k.rows k.cols then .next f
      else if l.next < l.total then
        let put := fun (s : State) (i : Nat) => { s with
          fresh := s.fresh + 1
          teams := aset s.teams s.fresh (Team.start launch l (l.next + i) i die (cs.getD i core) s.core) }
        let u := (List.range cs.length).foldl put f
        .next { u with launches := amod u.launches launch fun l => { l with next := l.next + cs.length } }
      else match l.waiting.head?.bind s.team? with
        | none => .next s
        | some t =>
          let mine := s.cluster t
          let u := mine.foldl (fun s p => s.restoreTeam p.1 die (cs.getD p.2.cidx core)) f
          .next { u with launches := amod u.launches launch fun l =>
            { l with waiting := l.waiting.filter fun n => !(mine.any fun p => p.1 == n) } }

/-! ### Yields -/

/-- A wait instruction at which a lane stops at once (R38, R41), a held one too (R337). -/
def Wait.safe : Wait → Bool
  | .bar _ | .cbar _ | .seq _ _ _ | .awf _ _ | .sleep _ _ | .acwait _ => true
  | .retry held => held
  | .bobj _ _ sp => sp
  | .tile _ _ _ _ _ sp => sp
  | _ => false

/-- A wait that counts as blocked (R38); a held instruction of a prediction does (R337). -/
def Wait.blocks : Wait → Bool
  | .bar _ | .cbar _ | .seq _ _ _ | .awf _ _ | .sleep _ _ | .acwait _ => true
  | .retry held => held
  | _ => false

/-- A yield request reaches a group (R41): lanes at safe waits stop at once. -/
def Group.askYield (g : Group) (core : Nat) : Group :=
  if g.yreq || g.ended then g
  else { g with
    yreq := true, yreqAt := core
    lanes := g.lanes.map fun l => if !l.exited && l.wait.safe then { l with stopped := true, wait := .none } else l }

/-- A yield request reaches a team's cluster (R41, R305). -/
def State.askYield (s : State) (t : Team) : State :=
  (s.cluster t).foldl (fun s p => s.modTeam p.1 fun t => { t with groups := t.groups.map fun g => g.askYield s.core }) s

/-- A group has yielded (R41, R357). -/
def Group.yielded (g : Group) : Bool :=
  g.ended || g.stop.isSome || (g.lanes.all fun l => l.exited || l.stopped)

/-- SAFEPOINT_TIMEOUT (R45): groups of the context that have not yielded stop, each with its own record. -/
def execSafepointTimeout (ctx : Nat) (s : State) : Host.Outcome State Fault Refusal :=
  let asked := fun (g : Group) => g.yreq && !g.yielded
  let ts := s.teams.filter fun p => p.2.ctx == ctx && (match p.2.place with | .core _ _ => true | _ => false)
  if !(ts.any fun p => p.2.groups.any fun g => asked g && s.core ≥ g.yreqAt + 2 ^ 20) then .next s
  else
    let late := ts.flatMap fun p => (p.2.groups.zipIdx.filter fun q => asked q.1).map fun q =>
      (({ team := p.1, grp := q.2 } : GRef), q.1)
    .next (late.foldl (fun s p =>
      let lane := ((List.range 32).find? fun i => match p.2.lane? i with
        | some l => !l.exited && !l.stopped | none => false).getD 0
      let pc := match p.2.lane? lane with | some l => l.pc.toNat | none => 0
      s.stopGroup p.1 fltSafepoint 0 lane pc 0 .timeout) s)

/-! ### Forward progress -/

/-- When a team became blocked: the last of its non-exited lanes' waits began then (R38); none when it is not blocked. -/
def Team.blockedSince (t : Team) : Option Nat :=
  let ls := t.groups.flatMap fun g => if g.ended then [] else g.lanes.filter fun l => !l.exited
  if ls.isEmpty || !(ls.all fun l => l.wait.blocks) || (t.groups.any fun g => g.stop.isSome) then none
  else some (ls.foldl (fun m l => Nat.max m l.since) 0)

/-- Offsets in a context's save pool that its saved teams occupy (R369). -/
def State.poolUsed (s : State) (c : Nat) : List (Nat × Nat) :=
  (s.teams.filter fun p => p.2.ctx == c && p.2.place == .saved).map fun p => (p.2.pool, p.2.kern.teamSize)

/-- A free record of a size in a pool: the lowest offset that overlaps none. -/
def poolFind (used : List (Nat × Nat)) (size total : Nat) : Option Nat :=
  let cands := 0 :: used.map fun p => p.1 + p.2
  (cands.filter fun o => o + size ≤ total && used.all fun p => o + size ≤ p.1 || p.1 + p.2 ≤ o).min?

/-- Records of some teams placed in a pool in turn. -/
def poolPlace (total : Nat) : List (Nat × Nat) → List (Nat × Nat) → Option (List (Nat × Nat))
  | _, [] => some []
  | used, (n, size) :: r => match poolFind used size total with
    | none => none
    | some o => (poolPlace total ((o, size) :: used) r).map fun q => (n, o) :: q

/-- A context's save pool has room for records of some sizes together (R368). -/
def State.poolFits (s : State) (c : Nat) (sizes : List Nat) : Bool :=
  match s.ctx? c with
  | none => false
  | some x => ((s.poolUsed c).map Prod.snd).sum + sizes.sum ≤ x.savesize

/-- The save pool's records moved together, in the order of their offsets. DESIGN CHOICE (log 69): this is done when the free
space is enough but lies in pieces that are too small. -/
def State.packPool (s : State) (c : Nat) : State :=
  match s.ctx? c with
  | none => s
  | some x =>
    let saved : AMap Nat := (s.teams.filter fun p => p.2.ctx == c && p.2.place == .saved).foldl (fun m p => aset m p.2.pool p.1) []
    (saved.foldl (fun (a : State × Nat) p => match a.1.team? p.2 with
      | none => a
      | some t =>
        let n := t.kern.teamSize
        let u := a.1.writeBytes (located (x.savebase + a.2) (a.1.bytesAt (x.savebase + p.1) n))
        (u.modTeam p.2 fun t => { t with pool := a.2 }, a.2 + n)) (s, 0)).1

/-- Places for a team's whole cluster in its context's save pool. -/
def State.poolFor (s : State) (t : Team) : Option (List (Nat × Nat)) :=
  match s.ctx? t.ctx with
  | none => none
  | some x => poolPlace x.savesize (s.poolUsed t.ctx) ((s.cluster t).map fun p => (p.1, p.2.kern.teamSize))

/-- Teams that wait for a core: of a launch whose context admits (R38). -/
def State.teamsWait (s : State) : Bool :=
  s.launches.any fun p => s.admits p.2.ctx && (p.2.next < p.2.total || !p.2.waiting.isEmpty)

/-- The linear index of a team (R37). -/
def Team.linear (t : Team) : Nat := t.x + t.nx * (t.y + t.ny * t.z)

/-- FORWARD_PROGRESS_SWAP (R38, R351, R368): the team blocked longest, ties to the lower linear index, is asked to yield; where its
cluster's records do not fit in the save pool no swap is made. -/
def execForwardProgressSwap (die core : Nat) (s : State) : Host.Outcome State Fault Refusal :=
  let n := bits64 (s.reg 0x7F0100 0x10000) 0 32
  let ts := s.teams.filter fun p => p.2.place == .core die core && p.2.endedAt.isNone
  let idle := ts.all fun p => p.2.groups.all fun g => s.core ≥ g.lastIss + n
  if n = 0 || !idle || !s.teamsWait then .next s
  else
    let cand := ts.filter fun p =>
      ((s.cluster p.2).all fun q => q.2.blockedSince.isSome) && !(p.2.groups.any fun g => g.yreq)
    let better := fun (a b : Team) =>
      let x := a.blockedSince.getD 0
      let y := b.blockedSince.getD 0
      x < y || (x = y && a.linear < b.linear)
    .next (match cand.foldl (fun (b : Option Team) p => match b with
        | some t => if better p.2 t then some p.2 else some t
        | none => some p.2) none with
      | some t => if s.poolFits t.ctx ((s.cluster t).map fun q => q.2.kern.teamSize) then s.askYield t else s
      | none => s)

/-! ### Saving -/

/-- A card of a chain is at its lehr point or at its end (R231, R305). -/
def Job.rests (j : Job) : Bool := j.paused || j.finished

/-- A team is ready to be saved (R41, R231, R292): its groups have yielded, its array is quiet, its scratchpad has drained. -/
def State.saveReady (s : State) (n : Nat) (t : Team) : Bool :=
  (match t.place with | .core _ _ => true | _ => false) && t.endedAt.isNone && (t.groups.any fun g => g.yreq) &&
  (t.groups.all Group.yielded) && t.inbound = 0 && (t.groups.all fun g => g.flight.isEmpty) &&
  !(s.tileJobs.any fun j => j.team == n) &&
  s.chains.all fun p => p.2.bound != some n || (match p.2.job with | some j => j.rests || p.2.stop.isSome | none => true)

/-- The write-combining buffers of a team drain before a save (R266, R362): a failed entry stops its group. -/
def State.drainForSave (s : State) (n : Nat) : Nat → Drain
  | 0 => .done s
  | k + 1 => match s.drainForSave n k with
    | .wait t => .wait t
    | .done t => match t.grp? { team := n, grp := k } with
      | none => .done t
      | some g => match t.drainMany { team := n, grp := k } true g.wcbuf.length with
        | .wait u => .wait u
        | .done u => match (u.grp? { team := n, grp := k }).bind Group.deferred with
          | some (code, va, lane) =>
            if g.stop.isSome then .done u
            else .done ((u.modGrp { team := n, grp := k } fun g => { g with deferred := none }).stopGroup
              { team := n, grp := k } fltDeferred code lane (g.pcOf g.live).toNat va.toNat .reexec)
          | none => .done u

/-- One team written to its place in the pool (R368, R369): it leaves its scratchpad region to be zeroed (R290). -/
def State.writeRecord (s : State) (n pool : Nat) : State :=
  match s.team? n with
  | none => s
  | some t => match s.ctx? t.ctx with
    | none => s
    | some x =>
      let q := s.launchOf t
      let safe := fun (g : Group) => g.stop.isNone && g.lanes.all fun l => l.exited || l.stopped
      let u := s.writeBytes (located (x.savebase + pool) (t.record q.1 q.2 s.core safe))
      let left := match t.place with
        | .core d k => if t.kern.scratch = 0 then [] else [{ team := n, die := d, core := k, units := t.kern.scratch }]
        | _ => []
      { u with zones := u.zones ++ left }.modTeam n fun t => { t with place := .saved, pool := pool }

/-- TEAM_SAVE (R38, R305, R368): a cluster whose teams are all ready is written to the save pool. A swapped team joins the
tail of its launch's waiting teams. -/
def execTeamSave (team : Nat) (s : State) : Host.Outcome State Fault Refusal :=
  match s.team? team with
  | none => .next s
  | some t =>
    let ts := s.cluster t
    if !(ts.all fun p => s.saveReady p.1 p.2) then .next s
    else
      let drained := ts.foldl (fun (d : Drain) p => match d with
        | .done u => u.drainForSave p.1 p.2.groups.length
        | .wait u => .wait u) (.done s)
      match drained with
      | .wait u => .next u
      | .done u =>
        let fits := u.poolFits t.ctx (ts.map fun p => p.2.kern.teamSize)
        let u := if (u.poolFor t).isNone && fits then u.packPool t.ctx else u
        match u.poolFor t with
        | none => .next u
        | some places =>
          let v := places.foldl (fun s p => s.writeRecord p.1 p.2) u
          let swap : Bool := match s.ctx? t.ctx with | some x => x.state != .preempting | none => false
          let w := if swap then
              { v with launches := amod v.launches t.launch fun l => { l with waiting := l.waiting ++ places.map Prod.fst } }
            else v
          .next (w.settleSave t.ctx)

/-! ### Scratchpad regions -/

/-- SCRATCH_DRAINED (R290). -/
def execScratchDrained (team : Nat) (s : State) : Host.Outcome State Fault Refusal :=
  match s.team? team with
  | none => .next s
  | some t => match t.place with
    | .draining d k => .next (if t.inbound = 0 then s.modTeam team fun t => { t with place := .zeroing d k } else s)
    | _ => .next s

/-- SCRATCH_ZEROED (R290): a region is FREE. It is one that the team left when it was saved, or that of the team's end, when
nothing of the team is left. -/
def execScratchZeroed (team : Nat) (s : State) : Host.Outcome State Fault Refusal :=
  match s.zones.findIdx? fun z => z.team == team with
  | some k => .next { s with zones := dropAt s.zones k }
  | none => match s.team? team with
    | none => .next s
    | some t => match t.place with
      | .zeroing _ _ =>
        .next (if t.inbound = 0 && (t.groups.all fun g => g.flight.isEmpty) then { s with teams := adel s.teams team } else s)
      | _ => .next s

/-- SCRATCH_DRAIN_TIMEOUT (R291): what is still counted into the region of an ended team is cancelled. -/
def execScratchDrainTimeout (team : Nat) (s : State) : Host.Outcome State Fault Refusal :=
  match s.team? team with
  | none => .next s
  | some t => match t.place, t.endedAt with
    | .draining _ _, some at_ =>
      if s.cycle < at_ + 64000 || t.inbound = 0 then .next s
      else
        let cut := fun (g : Group) =>
          let gone := g.flight.filter fun c => c.team == team
          { g with
            flight := g.flight.filter fun c => c.team != team
            count := gone.foldl (fun m (c : Copy) => modAt m c.tag fun n => n - 1) g.count }
        let u := { s with
          teams := s.teams.map fun (p : Nat × Team) => (p.1, { p.2 with groups := p.2.groups.map cut })
          chains := s.chains.map fun (p : Nat × Chain) => (p.1, { p.2 with job := p.2.job.map fun (j : Job) =>
            { j with aimed := j.aimed.filter (· != team) } }) }
        .next (u.modTeam team fun t => { t with inbound := 0 })
    | _, _ => .next s

end Sys2Proof.Machine
end

