-- ==== Sys2Proof/Machine/Front.lean ====
section
/-! DEFINITION. The command front end: queues, packets, the interval table, completion (R308 to R327). -/

namespace Sys2Proof.Machine

open Sys2Proof

/-! ### Threads -/

def State.qcp? (s : State) (t : Nat) : Option Qcp := aget s.threads t

def State.modQ (s : State) (t : Nat) (f : Qcp → Qcp) : State := { s with threads := amod s.threads t f }

/-- Virtual address of a ring position (R309). -/
def Qcp.at_ (q : Qcp) (p : DWord) : Nat := q.rbase + p.toNat % 2 ^ q.log2sz

/-- A thread at reset (R311 to R315, R330). One that no queue number is known of has 0xFFFF (R361). -/
def Qcp.reset : Qcp :=
  { qmap := 0, ctx := 0, state := .unmapped, wptr := 0, rptr := 0, qfault := 0, pgen := 0, rbase := 0, log2sz := 12, pri := 0,
    qid := 0xFFFF, desc := 0, idle := 0, vquota := 0, expect := none, packets := [], pstate := .learning,
    reason := 0, cdepth := 0, history := [], program := none, preds := [], nextSlot := 1, lastArr := 0, seen := 0, lastIss := 0,
    reread := 0, entered := false, discarding := false }

/-- Intervals that a packet holds are released (R324, R327). -/
def State.release (s : State) (t : Nat) (seq : DWord) : State :=
  { s with table := s.table.filter fun i => !(i.thread == t && i.seq == seq) }

/-- The packet that waits in HAZARD or is being issued leaves the table. -/
def State.leaveTable (s : State) (t : Nat) : State :=
  match s.qcp? t with
  | some q =>
    if q.entered then
      let mine := fun (i : Interval) => i.thread == t && i.slot == 0 && !(q.packets.any fun p => p.seq == i.seq)
      ({ s with table := s.table.filter fun i => !mine i }).modQ t fun q => { q with entered := false }
    else s
  | none => s

/-- Predictions not confirmed are discarded (R339): PSTATE becomes `st`. -/
def State.refute (s : State) (t : Nat) (st : PState) : State :=
  match s.qcp? t with
  | some q => s.discardPreds t q.firstOpen st
  | none => s

/-- The program and the history go (R328, R339): one event for PGEN where anything changes (R380). -/
def State.unlearn (s : State) (t : Nat) (hist : List LaunchRec) : State :=
  match s.qcp? t with
  | none => s
  | some q =>
    let u := if q.pstate == .learning then s else s.refute t .learning
    u.modQ t fun q => { q with program := none, reason := 0, history := hist }

/-- The queue enters FAULTED (R315, R318, R339, R361): predictions are discarded, and a program is PAUSED. -/
def State.faultQueue (s : State) (t code detail : Nat) (seq : DWord) (pc addr : Nat) : State :=
  match s.qcp? t with
  | none => s
  | some q =>
    let u := if q.program.isSome && q.pstate != .paused then s.refute t .paused else s
    let v := ((u.leaveTable t).forgetDenied q.ctx (· = .queue t)).modQ t fun q =>
      { q with state := .faulted, qfault := BitVec.ofNat 64 (seq.toNat % 2 ^ 32 * 2 ^ 32 + detail * 2 ^ 16 + code) }
    v.record { code := code, detail := detail, ctx := q.ctx, qid := q.qid, seq := seq, pc := pc, addr := addr, die := 8,
               unit := t }

/-! ### Packets -/

/-- A packet's header and type fields (R319 to R323). -/
structure Pkt where
  b : List Byte
  deriving DecidableEq, Repr

def Pkt.at_ (p : Pkt) (o n : Nat) : Nat := leNat ((p.b.drop o).take n)
def Pkt.type (p : Pkt) : Nat := p.at_ 0 1
def Pkt.flags (p : Pkt) : Nat := p.at_ 1 1
def Pkt.len (p : Pkt) : Nat := p.at_ 2 2
def Pkt.nrng (p : Pkt) : Nat := p.at_ 4 1
def Pkt.cscope (p : Pkt) : Nat := p.at_ 5 1
def Pkt.vec (p : Pkt) : Nat := p.at_ 6 2
def Pkt.seq (p : Pkt) : DWord := BitVec.ofNat 64 (p.at_ 8 8)
def Pkt.cword (p : Pkt) : Nat := p.at_ 0x10 8
def Pkt.cw (p : Pkt) : Bool := p.flags.testBit 0
def Pkt.irq (p : Pkt) : Bool := p.flags.testBit 1
def Pkt.fence (p : Pkt) : Bool := p.flags.testBit 2
def Pkt.nolearn (p : Pkt) : Bool := p.flags.testBit 3

/-- Range i of a LAUNCH (R320): its fields and its must-be-zero bits. -/
def Pkt.range (p : Pkt) (i : Nat) : Range × Nat :=
  let w := p.at_ (0x40 + 16 * i + 8) 8
  ({ base := p.at_ (0x40 + 16 * i) 8, len := w % 2 ^ 48, mode := w / 2 ^ 48 % 4 }, w / 2 ^ 50)

def Pkt.ranges (p : Pkt) : List Range := (List.range p.nrng).map fun i => (p.range i).1

def okAddr (a align : Nat) : Bool := a < 2 ^ 54 && a % align = 0

/-- The form of a packet (R318 to R323): the least detail code that applies, 0 where it is well formed; `room` is the ring
space behind its position. -/
def Pkt.bad (p : Pkt) (room upto : Nat) : Nat :=
  let ty := p.type
  let zero := fun (o n : Nat) => p.at_ o n = 0
  if ty = 0 || ty > 7 then 0x0101
  else if (if ty = 7 then p.len = 0 else p.len != 1 + (p.nrng + 3) / 4) || p.nrng > 16 || (ty != 1 && p.nrng != 0) ||
    64 * p.len > room || 64 * p.len > upto then 0x0102
  else
    let flagsOk : Bool := p.flags < 16 && (ty != 7 || p.flags = 0) && (ty = 1 || !p.nolearn)
    let rest : Bool := match ty with
      | 1 => zero 0x3C 4 && (List.range p.nrng).all fun i => (p.range i).2 = 0
      | 2 => zero 0x28 24
      | 3 => zero 0x29 23
      | 4 => p.at_ 0x30 1 < 32 && zero 0x31 15
      | 5 => zero 0x18 40
      | 6 => zero 0x1A 38 && (p.at_ 0x18 1 = 0 || zero 0x19 1)
      | _ => true
    if !flagsOk || p.cscope ≥ 8 || p.vec ≥ 2048 || (!p.cw && p.cword != 0) || !rest then 0x0103
    else
      let addrs : Bool := match ty with
        | 1 => okAddr (p.at_ 0x18 8) 128 && p.ranges.all fun r => r.base < 2 ^ 54
        | 2 | 3 => okAddr (p.at_ 0x18 8) 8
        | 4 => okAddr (p.at_ 0x18 8) 1 && okAddr (p.at_ 0x20 8) 1
        | _ => true
      if (p.cw && !okAddr p.cword 8) || !addrs then 0x0104
      else if p.cw && p.cscope != 3 && p.cscope != 4 then 0x0105
      else if ty = 1 && (p.ranges.any fun r => r.mode = 0 || r.len = 0 || r.base + r.len > 2 ^ 54) then 0x0107
      else
        let operand : Bool := match ty with
          | 3 => p.at_ 0x28 1 ≤ 2
          | 4 => 1 ≤ p.at_ 0x28 8 && p.at_ 0x28 8 ≤ 2 ^ 40
          | 6 => p.at_ 0x18 1 ≤ 2 && (p.at_ 0x18 1 != 0 || p.at_ 0x19 1 ≤ 8)
          | _ => true
        if operand then 0 else 0x0108

/-- n bytes read in pieces of 8, each in one page; an error where a translation fails, with its code and address. -/
def State.pieces (s : State) (c : Nat) (a : Agent) (va n : Nat) : Except (Nat × Nat) (List Byte) :=
  let ks := List.range (n / 8)
  match ks.findSome? fun k => match s.partLeaf c a (va + 8 * k) false 8 with
    | .fault code => some (code, va + 8 * k)
    | _ => none with
  | some f => .error f
  | none => .ok (ks.flatMap fun k => s.partRead c a (va + 8 * k) 8)

/-- What those reads wait for. -/
def State.piecesWait (s : State) (c : Nat) (a : Agent) (va n : Nat) : Option State :=
  s.partWait c a ((List.range (n / 8)).map fun k => (va + 8 * k, 8, false))

/-- What fetching the packet at RPTR gives (R317): nothing yet, a wait, a fault of the queue, or the packet. -/
inductive Fetch
  | none | wait (s : State) | fault (code detail : Nat) (seq : DWord) (addr : Nat) | packet (p : Pkt)

/-- A thread takes packets in these states. -/
def QState.runs : QState → Bool
  | .fetch | .hazard | .blocked | .issue => true | _ => false

/-- Code of the fault record for a detail code. -/
def queueCode : Nat := fltEngine

/-- The packet at RPTR, once it has arrived, checked as far as R319 to R323 go. -/
def State.fetchPacket (s : State) (t : Nat) (q : Qcp) : Fetch :=
  let c := q.ctx
  let a : Agent := .queue t
  let va := q.at_ q.rptr
  if !q.state.runs || q.discarding || s.fenced (qcpPath t) || q.rptr.toNat ≥ q.wptr.toNat then .none
  else match s.piecesWait c a va 64 with
    | some u => .wait u
    | none => match s.pieces c a va 64 with
      | .error f => .fault f.1 0x0109 0 f.2
      | .ok h =>
        let p : Pkt := { b := h }
        if q.expect.any (· != p.seq) then .none
        else
          let room := 2 ^ q.log2sz - q.rptr.toNat % 2 ^ q.log2sz
          let n := if p.type = 7 then 64 else 64 * Nat.min 5 (1 + (p.nrng + 3) / 4)
          let head := p.bad room (q.wptr.toNat - q.rptr.toNat)
          if head = 0x0101 || head = 0x0102 then .fault queueCode head p.seq 0
          else match s.piecesWait c a va n with
            | some u => .wait u
            | none => match s.pieces c a va n with
              | .error f => .fault f.1 0x0109 p.seq f.2
              | .ok all =>
                let p : Pkt := { b := all }
                let d := p.bad room (q.wptr.toNat - q.rptr.toNat)
                if d != 0 then .fault queueCode d p.seq 0 else .packet p

/-- CWORD is translated when a packet is checked (R319): a wait, a fault's code and detail, or nothing. -/
inductive CwordCheck
  | ok | wait (s : State) | bad (code detail : Nat)

def State.checkCword (s : State) (t : Nat) (q : Qcp) (p : Pkt) : CwordCheck :=
  if !p.cw then .ok
  else match s.reach q.ctx (.queue t) p.cword .w 8 with
    | .miss => .wait (s.request q.ctx (.queue t) p.cword true)
    | .fault code => .bad code 0x0109
    | .ok l => if (l.scope = 4 || Config.hostBase ≤ l.pa) && p.cscope != 4 then .bad queueCode 0x0105 else .ok

/-- What issuing a packet waits for: the translations and the memory of its CWORD, of RPTR's word, of the word of a WAIT or a
SIGNAL, of a LAUNCH's descriptor and argument block (R309, R317, R319, R321, R322). -/
def State.packetWait (s : State) (t : Nat) (q : Qcp) (p : Pkt) : Option State :=
  let a : Agent := .queue t
  let va := p.at_ 0x18 8
  let words := match p.type with
    | 2 => [(va, 8, false)]
    | 3 => [(va, 8, false), (va, 8, true)]
    | _ => []
  match s.checkCword t q p, s.partWait q.ctx a ((q.desc + 0x10, 8, true) :: words) with
  | .wait u, _ => some u
  | _, some u => some u
  | _, none =>
    if p.type != 1 then none
    else match s.piecesWait q.ctx a va 32, s.pieces q.ctx a va 32 with
      | some u, _ => some u
      | none, .ok b => s.piecesWait q.ctx a (p.at_ 0x20 8) (leNat ((b.drop 0x16).take 2))
      | none, .error _ => none

/-- Every packet issued before has completed. -/
def Qcp.quiet (q : Qcp) : Bool := q.packets.all Packet.done

/-! ### The interval table -/

/-- Intervals in the table (R324). -/
def State.tableFree (s : State) : Nat := 4096 - s.table.length

/-- Some ranges as intervals. -/
def intervalsOf (c t : Nat) (seq : DWord) (slot order : Nat) (rs : List Range) : List Interval :=
  rs.map fun r => { ctx := c, thread := t, seq := seq, base := r.base, len := r.len, write := r.mode ≥ 2, slot := slot,
                    order := order }

/-- An older interval of another packet holds these up (R325). -/
def State.hazard (s : State) (is : List Interval) : Bool :=
  is.any fun i => s.table.any fun o => o.order < i.order && !(o.thread == i.thread && o.seq == i.seq) && conflict o i

/-- A thread whose predictions some intervals of another queue conflict with (R339). -/
def State.refutedBy (s : State) (t : Nat) (is : List Interval) : Option Nat :=
  (s.threads.find? fun p => p.1 != t &&
    (p.2.preds.drop p.2.firstOpen).any fun r => s.table.any fun o => o.thread == p.1 && o.slot == r.slot && is.any fun i => conflict o i).map
    Prod.fst

/-! ### What the QCP considers -/

/-- The ranges under which a packet enters the table (R324). -/
def Pkt.spans (p : Pkt) : List Range :=
  match p.type with
  | 1 => p.ranges
  | 4 => [{ base := p.at_ 0x18 8, len := p.at_ 0x28 8, mode := 1 }, { base := p.at_ 0x20 8, len := p.at_ 0x28 8, mode := 2 }]
  | _ => []

/-- What a thread in HAZARD waits for has come: it can enter the table, or its hazards are over (R325). -/
def State.hazardOver (s : State) (t : Nat) (q : Qcp) (p : Pkt) : Bool :=
  if q.entered then !s.hazard (s.table.filter fun i => i.thread == t && i.seq == p.seq && i.slot == 0)
  else
    (s.refutedBy t (intervalsOf q.ctx t p.seq 0 (s.entered + 1) p.spans)).isSome ||
    (!(s.threads.any fun p => p.2.discarding) && s.tableFree ≥ p.spans.length)

/-- What a BLOCKED thread waits for has come (R315, R319, R322, R323). -/
def State.unblocked (s : State) (t : Nat) (q : Qcp) (p : Pkt) : Bool :=
  (!p.fence || q.quiet) &&
  (match p.type with
    | 2 => seqReached 64 (s.partNat q.ctx (.queue t) (p.at_ 0x18 8) 8) (p.at_ 0x20 8)
    | 3 | 5 => q.quiet
    | _ => true)

/-- A thread is ready (R315, R316): its packet has arrived, and nothing keeps it from being considered. -/
def State.qcpReady (s : State) (t : Nat) (q : Qcp) : Bool :=
  match s.fetchPacket t q with
  | .none | .wait _ => false
  | .fault _ _ _ _ => true
  | .packet p =>
    (s.packetWait t q p).isNone &&
    (match q.state with
      | .hazard => s.hazardOver t q p
      | .blocked => s.unblocked t q p
      | _ => true)

/-- A thread goes before another (R316): the higher PRI, then the one that issued least recently. DESIGN CHOICE (log 70): of
two that have not issued, the lower-numbered. -/
def Qcp.before (a b : Nat × Qcp) : Bool :=
  b.2.pri < a.2.pri || (a.2.pri = b.2.pri && (a.2.lastIss < b.2.lastIss || (a.2.lastIss = b.2.lastIss && a.1 < b.1)))

/-- The QCP may consider a thread now (R316): it has considered none in this cycle, and no ready thread goes before. -/
def State.qcpTurn (s : State) (t : Nat) (q : Qcp) : Bool :=
  s.qcpAt != s.core + 1 && s.qcpReady t q && !(s.threads.any fun p => Qcp.before p (t, q) && s.qcpReady p.1 p.2)

/-- The QCP has considered a thread in this cycle (R316). -/
def State.considered (s : State) : State := { s with qcpAt := s.core + 1 }

/-- A packet event (R315, R316): it acts on a packet of its type that has arrived, when the QCP considers its thread. -/
def onPacket (t type : Nat) (s : State) (f : State → Qcp → Pkt → State) : Host.Outcome State Fault Refusal :=
  match s.qcp? t with
  | none => .next s
  | some q =>
    let u := s.considered
    match s.fetchPacket t q with
    | .none => .next s
    | .wait v => .next v
    | .fault code detail seq addr =>
      .next (if s.qcpTurn t q then u.faultQueue t code detail seq (q.at_ q.rptr) addr else s)
    | .packet p =>
      if p.type != type then .next s
      else match s.packetWait t q p with
        | some v => .next v
        | none =>
          if !s.qcpTurn t q then .next s
          else match s.checkCword t q p with
            | .bad code detail =>
              .next (u.faultQueue t code detail p.seq (q.at_ q.rptr) (if detail = 0x0109 then p.cword else 0))
            | _ =>
              if p.fence && !q.quiet then .next (u.modQ t fun q => { q with state := .blocked })
              else .next (f u q p)

/-- The packet issues (R309, R315, R317): RPTR moves past it, and the next expected SEQ is one more. -/
def State.issuePacket (s : State) (t : Nat) (p : Pkt) (launch : Option Nat) (done : Bool) : State :=
  match s.qcp? t with
  | none => s
  | some q =>
    let rptr := q.rptr + BitVec.ofNat 64 (64 * p.len)
    let pk : Packet :=
      { seq := p.seq, addr := q.at_ q.rptr, type := p.type, cw := p.cw, irq := p.irq, cscope := p.cscope, vec := p.vec,
        cword := BitVec.ofNat 64 p.cword, launch := launch, done := done, abandoned := false }
    let u := s.modQ t fun q =>
      { q with
        state := .fetch, rptr := rptr, expect := some (p.seq + 1), entered := false, lastIss := s.core + 1
        seen := if q.seen.toNat < rptr.toNat then rptr else q.seen
        lastArr := if q.seen.toNat < rptr.toNat then s.cycle else q.lastArr
        packets := if p.type = 7 then q.packets else q.packets ++ [pk] }
    u.partPut q.ctx (.queue t) (q.desc + 0x10) 8 rptr.toNat

/-! ### Entering the table -/

/-- What entering the table comes to: a wait, or the state with the packet in it and free of hazards (R316, R325). -/
inductive Enter
  | wait (s : State) | clear (s : State)

/-- A packet enters the table and waits there for its hazards (R325). -/
def State.enterTable (s : State) (t : Nat) (q : Qcp) (seq : DWord) (rs : List Range) : Enter :=
  let held := fun (s : State) => s.modQ t fun q => { q with state := .hazard }
  if q.entered then
    let mine := s.table.filter fun i => i.thread == t && i.seq == seq && i.slot == 0
    if s.hazard mine then .wait (held s) else .clear s
  else
    let is := intervalsOf q.ctx t seq 0 (s.entered + 1) rs
    match s.refutedBy t is with
    | some o => .wait (held (s.refute o .paused))
    | none =>
      if s.threads.any (fun p => p.2.discarding) || s.tableFree < is.length then .wait (held s)
      else
        let u := { s with table := s.table ++ is, entered := s.entered + 1 }
        let v := u.modQ t fun q => { q with entered := true }
        if v.hazard is then .wait (held v) else .clear v

/-! ### Doorbells and commands -/

/-- The ring position behind the packets at a position that have arrived and whose headers can be read, at most n, with their
number (R312, R317). -/
def State.fetchedAhead (s : State) (t : Nat) (q : Qcp) : Nat → DWord → Option DWord → Nat × DWord
  | 0, pos, _ => (0, pos)
  | n + 1, pos, want =>
    if pos.toNat ≥ q.wptr.toNat then (0, pos)
    else match s.pieces q.ctx (.queue t) (q.at_ pos) 64 with
      | .error _ => (0, pos)
      | .ok h =>
        let p : Pkt := { b := h }
        if want.any (· != p.seq) || p.len = 0 then (0, pos)
        else
          let r := s.fetchedAhead t q n (pos + BitVec.ofNat 64 (64 * p.len)) (some (p.seq + 1))
          (r.1 + 1, r.2)

/-- A mapped queue's fetcher looks (R317): packets that have arrived since set the time of the last arrival (R339). -/
def State.noteArrivals (s : State) (t : Nat) : State :=
  match s.qcp? t with
  | none => s
  | some q =>
    let pos := (s.fetchedAhead t q 17 q.rptr q.expect).2
    if q.state.runs && q.seen.toNat < pos.toNat then s.modQ t fun q => { q with seen := pos, lastArr := s.cycle } else s

/-- DOORBELL (R309). -/
def execDoorbell (thread : Nat) (pos : DWord) (s : State) : Host.Outcome State Fault Refusal :=
  match s.qcp? thread with
  | none => .next s
  | some q =>
    let p := pos.toNat
    if q.state == .unmapped || p % 64 != 0 || p < q.wptr.toNat || p - q.rptr.toNat > 2 ^ q.log2sz then .next s
    else .next ((s.modQ thread fun q => { q with wptr := pos }).noteArrivals thread)

/-- PACKET_REREAD (R317): the header is read afresh at every step that looks for it; the thread notes when it last looked. -/
def execPacketReread (thread : Nat) (s : State) : Host.Outcome State Fault Refusal :=
  match s.qcp? thread with
  | none => .next s
  | some q =>
    if q.state == .fetch && q.rptr.toNat < q.wptr.toNat && s.cycle ≥ q.reread + 1024 then
      .next ((s.modQ thread fun q => { q with reread := s.cycle }).noteArrivals thread)
    else .next s

/-- START (R313, R315, R317). -/
def execStart (thread : Nat) (s : State) : Host.Outcome State Fault Refusal :=
  match s.qcp? thread with
  | none => .next s
  | some q =>
    if s.fenced (qcpPath thread) then .next s
    else match q.state with
      | .stopped => .next (s.modQ thread fun q => { q with state := .fetch, expect := none })
      | .faulted => .next (s.modQ thread fun q => { q with state := .fetch })
      | _ => .next s

/-- STOP (R313, R328, R339). -/
def execStop (thread : Nat) (s : State) : Host.Outcome State Fault Refusal :=
  match s.qcp? thread with
  | none => .next s
  | some q =>
    if q.state.runs || q.state == .faulted then
      .next (((s.unlearn thread []).leaveTable thread).modQ thread fun q =>
        { q with state := if q.state == .faulted then .faulted else .stopped })
    else .next s

/-- A queue is being unmapped (R313, R328, R339). -/
def State.unmap (s : State) (thread : Nat) : State :=
  match s.qcp? thread with
  | none => s
  | some q =>
    if q.state == .unmapped || q.state == .draining then s
    else ((s.unlearn thread []).leaveTable thread).modQ thread fun q =>
      { q with state := .draining, qmap := q.qmap &&& ~~~1#64 }

/-- UNMAP (R313). -/
def execUnmap (thread : Nat) (s : State) : Host.Outcome State Fault Refusal := .next (s.unmap thread)

/-- FORGET (R313, R328, R339). -/
def execForget (thread : Nat) (s : State) : Host.Outcome State Fault Refusal := .next (s.unlearn thread [])

/-- DRAINING_END (R315): the thread is UNMAPPED, as at reset but for its counters. -/
def execDrainingEnd (thread : Nat) (s : State) : Host.Outcome State Fault Refusal :=
  match s.qcp? thread with
  | none => .next s
  | some q =>
    if q.state == .draining && q.packets.isEmpty && !q.discarding then
      .next (s.modQ thread fun q => { q with state := .unmapped })
    else .next s

/-- A queue descriptor that keeps R308. -/
def descOk (b : List Byte) : Bool :=
  let at_ := fun (o n : Nat) => leNat ((b.drop o).take n)
  at_ 0 8 < 2 ^ 54 && at_ 0 8 % 4096 = 0 && 12 ≤ at_ 8 1 && at_ 8 1 ≤ 26 && at_ 9 1 < 16 && at_ 10 1 ≤ 8 && at_ 11 1 = 0 &&
  at_ 12 2 < 4096 && at_ 14 2 = 0 && at_ 0x10 8 % 64 = 0 && at_ 0x20 32 = 0

/-- A thread before its descriptor is read: what it shows of an earlier queue stays (R310, R314), and so does when it last
issued (R316). -/
def Qcp.mapping (q : Qcp) (m : DWord) (c : Nat) : Qcp :=
  { Qcp.reset with
    qmap := m, ctx := c, pgen := q.pgen, wptr := q.wptr, rptr := q.rptr, qfault := q.qfault, lastIss := q.lastIss }

/-- QUEUE_MAP (R311): a write of QMAP; with EN = 0 it is an UNMAP, and CTX and DVA are kept as written. A descriptor whose
translation is still out leaves the thread UNMAPPED with EN set; so does self-test, which maps no queue (R412). A mapping that fails leaves the thread without a queue number;
the fault record names the descriptor's where another thread has it (R361). -/
def execQueueMap (thread : Nat) (value : DWord) (s : State) : Host.Outcome State Fault Refusal :=
  if thread ≥ 32 then .next s
  else
    let q := (s.qcp? thread).getD Qcp.reset
    let m := value &&& 0xFFFFFFFFFFFFFFC1#64
    if !value.getLsbD 0 then
      let u := if (s.qcp? thread).isSome then s else { s with threads := aset s.threads thread Qcp.reset }
      .next ((u.unmap thread).modQ thread fun q => { q with qmap := m })
    else if q.state != .unmapped then .next s
    else
      let c := bits64 m 54 10
      let dva := bits64 m 6 48 * 64
      let base := { s with threads := aset s.threads thread (q.mapping m c) }
      let fail := fun (code detail addr : Nat) => base.faultQueue thread code detail 0 0 addr
      let active := (s.ctx? c).isSome
      if s.fenced (qcpPath thread) then .next (fail fltFenced 0 0)
      else if s.underTest (qcpPath thread) then .next base
      else if !active then .next (fail fltEngine 0x0110 0)
      else match base.partLeaf c (.queue thread) dva false 64 with
        | .fault code => .next (fail code 0x0109 dva)
        | _ => match base.partWait c (.queue thread) [(dva, 64, false)] with
          | some u => .next u
          | none =>
            let b := base.partRead c (.queue thread) dva 64
            let at_ := fun (o n : Nat) => leNat ((b.drop o).take n)
            let rptr := BitVec.ofNat 64 (at_ 0x10 8)
            if !descOk b then .next (fail fltEngine 0x0110 0)
            else if s.threads.any fun p => p.1 != thread && p.2.state != .unmapped && p.2.qid == at_ 12 2 then
              .next (((base.modQ thread fun q => { q with qid := at_ 12 2 }).faultQueue thread fltEngine 0x0111 0 0 0).modQ thread
                fun q => { q with qid := 0xFFFF })
            else .next (base.modQ thread fun q =>
              { q with
                state := .stopped, wptr := rptr, rptr := rptr, rbase := at_ 0 8, log2sz := at_ 8 1, pri := at_ 9 1
                cdepth := at_ 10 1, qid := at_ 12 2, desc := dva, idle := at_ 0x18 4, vquota := at_ 0x1C 4
                lastArr := s.cycle, seen := rptr })

/-! ### Completion -/

/-- A packet's work is over (R327, R338): a predicted launch once it is confirmed and relabelled. -/
def State.workDone (s : State) (p : Packet) : Bool :=
  p.done || (match p.launch.bind (aget s.launches) with
    | some l => l.slot = 0 && l.next = l.total && l.ended = l.total
    | none => p.launch.isSome)

/-- A packet completes (R327): its intervals are released, and its launch is over. -/
def State.completeWork (s : State) (t : Nat) (p : Packet) : State :=
  let u := (s.release t p.seq).modQ t fun q => { q with
    packets := q.packets.map fun x => if x.seq = p.seq then { x with done := true } else x }
  match p.launch with
  | some n => let v := u.endPhase n; { v with launches := adel v.launches n }
  | none => u

/-- The packet leaves the queue's list. -/
def State.dropPacket (s : State) (t : Nat) (seq : DWord) : State :=
  s.modQ t fun q => { q with packets := q.packets.filter fun x => x.seq != seq }

/-- PACKET_COMPLETION (R327): the work ends; the completion write is made in SEQ order, and then its vector is sent. -/
def execPacketCompletion (thread : Nat) (seq : DWord) (s : State) : Host.Outcome State Fault Refusal :=
  match s.qcp? thread with
  | none => .next s
  | some q => match q.packets.find? fun p => p.seq == seq with
    | none => .next s
    | some p =>
      if p.abandoned then .next (s.dropPacket thread seq)
      else if !s.workDone p then .next s
      else
        let u := if p.done && p.launch.isNone then s.release thread seq else s.completeWork thread p
        let earlier := q.packets.takeWhile fun x => x.seq != seq
        let vec := fun (s : State) => if p.irq then s.interrupt p.vec else s
        if !p.cw then .next (vec (u.dropPacket thread seq))
        else if earlier.any fun x => x.cw && !x.abandoned then .next u
        else match u.partLeaf q.ctx (.queue thread) p.cword.toNat true 8 with
          | .fault code =>
            .next ((u.dropPacket thread seq).faultQueue thread code 0x0109 seq p.addr p.cword.toNat)
          | _ => match u.partWait q.ctx (.queue thread) [(p.cword.toNat, 8, true)] with
            | some v => .next v
            | none =>
              .next (vec ((u.partPut q.ctx (.queue thread) p.cword.toNat 8 seq.toNat).dropPacket thread seq))

/-! ### Packets other than LAUNCH -/

/-- A packet other than LAUNCH, NOPAD or SETDEPTH empties the history and refutes (R328, R339); it goes on once the discard
is done (R379). -/
def State.plainPacket (s : State) (t : Nat) (q : Qcp) (f : State → State) : State :=
  let u := if q.program.isSome || !q.history.isEmpty || q.pstate != .learning then s.unlearn t [] else s
  if ((u.qcp? t).map Qcp.discarding).getD false then u else f u

/-- The word of a WAIT is reached (R322). -/
def State.tryWait (s : State) (t : Nat) (q : Qcp) (p : Pkt) : State :=
  let va := p.at_ 0x18 8
  match s.partLeaf q.ctx (.queue t) va false 8 with
  | .fault code => s.faultQueue t code 0x0109 p.seq (q.at_ q.rptr) va
  | _ => match s.partWait q.ctx (.queue t) [(va, 8, false)] with
    | some u => u
    | none =>
      if seqReached 64 (s.partNat q.ctx (.queue t) va 8) (p.at_ 0x20 8) then s.issuePacket t p none true
      else s.modQ t fun q => { q with state := .blocked }

/-- A packet with an ADDR (R318, R322, R328): where that cannot be translated, the packet is malformed and leaves the history as
it was. -/
def State.addrPacket (s : State) (t : Nat) (q : Qcp) (p : Pkt) (need : Need) (f : State → State) : State :=
  let va := p.at_ 0x18 8
  match s.reach q.ctx (.queue t) va need 8 with
  | .fault code => s.faultQueue t code 0x0109 p.seq (q.at_ q.rptr) va
  | _ => s.plainPacket t q f

/-- WAIT (R322). -/
def execWait (thread : Nat) (s : State) : Host.Outcome State Fault Refusal :=
  onPacket thread 2 s fun s q p => s.addrPacket thread q p .r fun u => u.tryWait thread q p

/-- QUEUE_WAIT_SATISFIED (R322): a blocked WAIT's word is read again. -/
def execQueueWaitSatisfied (thread : Nat) (s : State) : Host.Outcome State Fault Refusal :=
  onPacket thread 2 s fun u q p => if q.state == .blocked then u.tryWait thread q p else s

/-- The new word of a SIGNAL (R322). -/
def signalOp (op w v : Nat) : Nat := match op with | 0 => v | 1 => (w + v) % 2 ^ 64 | _ => Nat.max w v

/-- SIGNAL (R322): it waits for every earlier packet of its queue. -/
def execSignal (thread : Nat) (s : State) : Host.Outcome State Fault Refusal :=
  onPacket thread 3 s fun s q p => s.addrPacket thread q p .rw fun u =>
    let va := p.at_ 0x18 8
    match u.reach q.ctx (.queue thread) va .rw 8 with
    | .fault code => u.faultQueue thread code 0x0109 p.seq (q.at_ q.rptr) va
    | .miss => u.requestFor q.ctx (.queue thread) va .rw
    | .ok l =>
      if !q.quiet then u.modQ thread fun q => { q with state := .blocked }
      else match u.partWait q.ctx (.queue thread) [(va, 8, true)] with
        | some v => v
        | none =>
          let w := leNat (u.leafBytes { ctx := q.ctx } l 8)
          (u.partStore q.ctx l (leBytes 8 (signalOp (p.at_ 0x28 1) w (p.at_ 0x20 8)))).issuePacket thread p none true

/-- The linear card of a COPY packet (R206, R323). -/
def copyCard (src dst len : Nat) : List Byte :=
  padTo 128 (leBytes 16 1 ++ leBytes 8 src ++ leBytes 8 dst ++ leBytes 8 len)

/-- COPY (R323, R429). -/
def execCopy (thread : Nat) (s : State) : Host.Outcome State Fault Refusal :=
  onPacket thread 4 s fun s q p => s.plainPacket thread q fun u =>
    let src := p.at_ 0x18 8
    let dst := p.at_ 0x20 8
    let len := p.at_ 0x28 8
    match u.enterTable thread q p.seq p.spans with
    | .wait v => v
    | .clear v =>
      let eng := p.at_ 0x30 1
      let chain : Chain :=
        { ctx := q.ctx, ccb := BitVec.ofNat 64 (q.at_ q.rptr), engine := eng / 8 % 4, die := eng % 8, core := 0, queue := [],
          origin := [], posts := [], bound := none, job := none, stop := none
          packet := some { thread := thread, seq := p.seq, card := copyCard src dst len } }
      ({ v with fresh := v.fresh + 1, chains := aset v.chains v.fresh chain }).issuePacket thread p none false

/-- BARRIER (R323). -/
def execBarrier (thread : Nat) (s : State) : Host.Outcome State Fault Refusal :=
  onPacket thread 5 s fun s q p => s.plainPacket thread q fun u =>
    if q.quiet then u.issuePacket thread p none true else u.modQ thread fun q => { q with state := .blocked }

/-- NOPAD (R323). -/
def execNopad (thread : Nat) (s : State) : Host.Outcome State Fault Refusal :=
  onPacket thread 7 s fun s _ p => s.issuePacket thread p none true

end Sys2Proof.Machine
end

