-- ==== Sys2Proof/Machine/Parison.lean ====
section
/-! DEFINITION. LAUNCH and LOOPCTL packets and the Parison: programs, predictions, relabelling (R116, R117, R321, R323, R328
to R343, R377 to R380). -/

namespace Sys2Proof.Machine

open Sys2Proof

/-! ### Kernels -/

/-- The kernel that the first 32 bytes of a descriptor give (R116). -/
def Kernel.ofBytes (desc : Nat) (b : List Byte) : Kernel :=
  let at_ := fun (o n : Nat) => leNat ((b.drop o).take n)
  { entry := BitVec.ofNat 64 (desc + at_ 0 8), bseg := at_ 0x0C 1, hseg := at_ 0x0D 1, safelive := at_ 0x0E 2
    uregs := at_ 0x10 1, acc := at_ 0x11 1, team := at_ 0x12 1, rows := at_ 0x13 1 / 16, cols := at_ 0x13 1 % 16
    scratch := at_ 0x14 2, argsize := at_ 0x16 2, rasafe := at_ 0x18 4 % 2 = 1 }

/-- A descriptor that R117 accepts; its alignment is the packet's (R321). -/
def kernelOk (b : List Byte) (k : Kernel) : Bool :=
  let at_ := fun (o n : Nat) => leNat ((b.drop o).take n)
  at_ 0 8 % 4 = 0 && at_ 0x18 4 < 2 && at_ 0x1C 4 = 0 && 1 ≤ k.bseg && k.bseg ≤ 10 && k.hseg ≤ 5 &&
  k.safelive ≤ 64 * k.bseg && k.uregs ≤ 96 && k.acc ≤ 8 && 1 ≤ k.team && k.team ≤ 32 && 1 ≤ k.rows && k.rows ≤ 6 &&
  1 ≤ k.cols && k.cols ≤ 8 && k.rows * k.cols ≤ 12 && k.scratch ≤ 256 && k.argsize ≤ 4096 && k.argsize % 8 = 0 && !k.tooBig

/-- Grid dimension d of a LAUNCH (R321). -/
def Pkt.grid (p : Pkt) (d : Nat) : Nat := p.at_ (0x30 + 4 * d) 4

/-- The grid suits a kernel (R18, R321). -/
def gridOk (k : Kernel) (x y z : Nat) : Bool :=
  [x, y, z].all (fun n => 1 ≤ n && n < 2 ^ 31) && x % (k.rows * k.cols) = 0

/-- What the checks of a LAUNCH give: a wait, a fault's code, detail and address, or its kernel and argument block. -/
inductive LaunchCheck
  | wait (s : State) | bad (code detail addr : Nat) | ok (k : Kernel) (args : List Byte)

/-- The descriptor is read and checked, and the argument block is copied (R117, R318, R321). -/
def State.checkLaunch (s : State) (t : Nat) (q : Qcp) (p : Pkt) : LaunchCheck :=
  let c := q.ctx
  let a : Agent := .queue t
  let desc := p.at_ 0x18 8
  let args := p.at_ 0x20 8
  match s.pieces c a desc 32, s.piecesWait c a desc 32 with
  | .error f, _ => .bad f.1 0x0109 f.2
  | .ok _, some u => .wait u
  | .ok b, none =>
    let k := Kernel.ofBytes desc b
    if !kernelOk b k || !gridOk k (p.grid 0) (p.grid 1) (p.grid 2) then .bad queueCode 0x0106 0
    else if k.argsize != 0 && !okAddr args 8 then .bad queueCode 0x0104 0
    else if !s.rectExists k then .bad queueCode 0x0140 0
    else if k.argsize = 0 then .ok k []
    else match s.pieces c a args k.argsize, s.piecesWait c a args k.argsize with
      | .error f, _ => .bad f.1 0x0109 f.2
      | .ok _, some u => .wait u
      | .ok bs, none => .ok k bs

/-- What the Parison keeps of a LAUNCH with its argument block (R329, R338). -/
def LaunchRec.ofPkt (p : Pkt) (args : List Byte) : LaunchRec :=
  { desc := BitVec.ofNat 64 (p.at_ 0x18 8), gx := p.grid 0, gy := p.grid 1, gz := p.grid 2, flags := p.flags
    cscope := p.cscope, vec := p.vec, cword := BitVec.ofNat 64 p.cword, seq := p.seq, seed := BitVec.ofNat 64 (p.at_ 0x28 8)
    words := (List.range (args.length / 8)).map fun i => BitVec.ofNat 64 (leNat ((args.drop (8 * i)).take 8))
    ranges := p.ranges }

/-! ### Programs -/

/-- The first rule that fits a word of three launches, with its step (R329). -/
def ruleOf (w1 w2 w3 s1 s2 s3 : DWord) : Option (Nat × DWord) :=
  if w1 = w2 && w2 = w3 then some (0, 0)
  else if w1 = s1 && w2 = s2 && w3 = s3 then some (2, 0)
  else if w2 - w1 = w3 - w2 then some (1, w3 - w2)
  else none

/-- The elements of a list of options where all are there. -/
def allSome {α : Type} (xs : List (Option α)) : Option (List α) := if xs.all Option.isSome then some (xs.filterMap id) else none

/-- The rule of range i: constant as none, or the word that its base follows (R329). -/
def linkOf (a b c : LaunchRec) (rules : List (Nat × DWord)) (i : Nat) : Option (Option Nat) :=
  match a.ranges[i]?, b.ranges[i]?, c.ranges[i]? with
  | some x, some y, some z =>
    if x.mode != y.mode || y.mode != z.mode || x.len != y.len || y.len != z.len then none
    else if x.base = y.base && y.base = z.base then some none
    else
      let off := fun (r : LaunchRec) (g : Range) (k : Nat) => BitVec.ofNat 64 g.base - r.words.getD k 0
      let fits := fun (k : Nat) => (rules.getD k (0, 0)).1 = 1 && off a x k = off b y k && off b y k = off c z k
      ((List.range rules.length).find? fits).map some
  | _, _, _ => none

/-- The parison program that three launches form (R329). -/
def formProgram : List LaunchRec → Option Program
  | [a, b, c] =>
    let same := fun (x y : LaunchRec) =>
      x.desc = y.desc && x.gx = y.gx && x.gy = y.gy && x.gz = y.gz && x.flags = y.flags && x.cscope = y.cscope &&
      x.vec = y.vec && x.cword = y.cword && x.ranges.length = y.ranges.length && x.words.length = y.words.length
    let word := fun (r : LaunchRec) (i : Nat) => r.words.getD i 0
    if !same a b || !same b c || c.seq - b.seq != b.seq - a.seq then none
    else
      match ruleOf a.seed b.seed c.seed a.seq b.seq c.seq,
        allSome ((List.range c.words.length).map fun i => ruleOf (word a i) (word b i) (word c i) a.seq b.seq c.seq) with
      | some sr, some rules =>
        (allSome ((List.range c.ranges.length).map (linkOf a b c rules))).map fun links =>
          { cur := c, sstep := c.seq - b.seq, srule := sr.1, sdelta := sr.2, rules := rules, links := links }
      | _, _ => none
  | _ => none

/-- The next value of a word under its rule (R329). -/
def ruleNext (rule : Nat × DWord) (w seq : DWord) : DWord := match rule.1 with | 0 => w | 2 => seq | _ => w + rule.2

/-- The launch that a program predicts next (R329). -/
def Program.next (g : Program) : LaunchRec :=
  let c := g.cur
  let seq := c.seq + g.sstep
  let words := c.words.zipIdx.map fun p => ruleNext (g.rules.getD p.2 (0, 0)) p.1 seq
  let base := fun (r : Range) (i : Nat) => match g.links.getD i none with
    | some a => (BitVec.ofNat 64 r.base - c.words.getD a 0 + words.getD a 0).toNat
    | none => r.base
  { c with
    seq := seq, seed := ruleNext (g.srule, g.sdelta) c.seed seq, words := words
    ranges := c.ranges.zipIdx.map fun p => { p.1 with base := base p.1 p.2 } }

/-- $feat.RUNAHEAD of a context (R64). -/
def State.runahead (s : State) (c : Nat) : Bool := match s.ctx? c with | some x => x.feat.testBit 0 | none => false

/-- REASON 2: some byte of a W or RW range lies on a page that is not versionable, or is not present (R330). -/
def State.reason2 (s : State) (c : Nat) (rs : List Range) : Bool :=
  rs.any fun r => r.mode ≥ 2 && (pagesOf r.base r.len).any fun p =>
    match s.translate c .part (4096 * p) .any with
    | .ok l => !l.vers
    | _ => true

/-- A launch that issues plainly or confirmed joins the history, and three of them may form a program (R328 to R330). -/
def State.learn (s : State) (t : Nat) (k : Kernel) (r : LaunchRec) : State :=
  match s.qcp? t with
  | none => s
  | some q =>
    if r.flags.testBit 3 then s.modQ t fun q => { q with history := [] }
    else
      let all := q.history ++ [r]
      let hist := all.drop (all.length - 3)
      let u := s.modQ t fun q => { q with history := hist }
      if q.pstate != .learning then u
      else match formProgram hist with
        | none => u
        | some g =>
          let why := if !k.rasafe then 1 else if s.reason2 q.ctx r.ranges then 2 else if !s.runahead q.ctx then 3
            else if q.cdepth = 0 then 4 else 0
          u.modQ t fun q =>
            { q with program := some g, pstate := if why = 0 then .active else .barred, reason := why, pgen := q.pgen + 1 }

/-! ### LAUNCH -/

/-- The launch that an arriving LAUNCH is compared with (R330, R338). -/
def Qcp.awaited (q : Qcp) : Option LaunchRec :=
  match q.preds[q.firstOpen]?, q.program with
  | some p, _ => some p.rcd
  | none, some g => some g.next
  | none, none => none

/-- A match makes a program that is PAUSED ACTIVE (R330). PGEN counts the match once (R310, R380): a plain one too, which changes
the record, DEDUCED (log 85). -/
def Qcp.matched (q : Qcp) : Qcp := { q with pgen := q.pgen + 1, pstate := if q.pstate == .paused then .active else q.pstate }

/-- A prediction is confirmed: the packet takes over its intervals, which stay with its slot until the relabel (R338). -/
def State.confirm (s : State) (t : Nat) (k : Kernel) (p : Pkt) (pr : Prediction) : State :=
  let u := (s.leaveTable t).modQ t fun q =>
    ({ q with
      preds := q.preds.map fun (x : Prediction) => if x.slot = pr.slot then { x with confirmed := true } else x }).matched
  (u.learn t k pr.rcd).issuePacket t p (some pr.launch) false

/-- A launch passed to the dispatcher (R37, R321). -/
def State.newLaunch (s : State) (t : Nat) (q : Qcp) (k : Kernel) (r : LaunchRec) (slot : Nat) : State :=
  { s with
    fresh := s.fresh + 1
    launches := aset s.launches s.fresh
      { ctx := q.ctx, qid := q.qid, thread := t, seq := r.seq, kern := k, nx := r.gx, ny := r.gy, nz := r.gz, seed := r.seed
        args := r.words.flatMap fun w => leBytes 8 w.toNat
        slot := slot, next := 0, ended := 0, waiting := [], phase := 0 } }

/-- A LAUNCH issues plainly once it is in the table and free of hazards; a program that it matches advances, and PGEN counts the
change of the record (R310, R325, R330). -/
def State.issuePlain (s : State) (t : Nat) (q : Qcp) (k : Kernel) (p : Pkt) (r : LaunchRec) : State :=
  match s.enterTable t q p.seq r.ranges with
  | .wait u => u
  | .clear u =>
    let v := u.modQ t fun q =>
      match q.program with
      | some g => ({ q with program := some { g with cur := r } }).matched
      | none => q
    (((v.learn t k r).newLaunch t q k r 0).issuePacket t p (some v.fresh) false)

/-- LAUNCH (R321, R328 to R330, R338, R339). -/
def execLaunch (thread : Nat) (s : State) : Host.Outcome State Fault Refusal :=
  onPacket thread 1 s fun s q p =>
    match s.checkLaunch thread q p with
    | .wait u => u
    | .bad code detail addr => s.faultQueue thread code detail p.seq (q.at_ q.rptr) addr
    | .ok k args =>
      let r := LaunchRec.ofPkt p args
      if q.awaited.all (· == r) then
        match q.preds[q.firstOpen]? with
        | some pr => s.confirm thread k p pr
        | none => s.issuePlain thread q k p r
      else
        let u := s.unlearn thread []
        match u.qcp? thread with
        | some v => if v.discarding then u else u.issuePlain thread v k p r
        | none => u

/-! ### LOOPCTL -/

/-- A LOOPCTL packet of an operation (R323). -/
def onLoopctl (thread op : Nat) (s : State) (f : State → Qcp → Pkt → State) : Host.Outcome State Fault Refusal :=
  onPacket thread 6 s fun u q p => if p.at_ 0x18 1 = op then f u q p else s

/-- LOOPCTL SETDEPTH (R323, R330, R380). -/
def execLoopctlSetdepth (thread : Nat) (s : State) : Host.Outcome State Fault Refusal :=
  onLoopctl thread 0 s fun s _ p =>
    let d := p.at_ 0x19 1
    let set := fun (q : Qcp) =>
      let lift := q.pstate == .barred && q.reason = 4 && d != 0
      { q with
        cdepth := d, pgen := q.pgen + 1
        pstate := if lift then .active else q.pstate
        reason := if lift then 0 else q.reason }
    (s.modQ thread set).issuePacket thread p none true

/-- LOOPCTL DROP (R328, R339): the program stays, PAUSED. -/
def execLoopctlDrop (thread : Nat) (s : State) : Host.Outcome State Fault Refusal :=
  onLoopctl thread 1 s fun s q p =>
    let u := if q.program.isSome && (q.pstate != .paused || !(q.preds.drop q.firstOpen).isEmpty) then s.refute thread .paused else s
    let v := u.modQ thread fun q => { q with history := [], reason := 0 }
    if ((v.qcp? thread).map Qcp.discarding).getD false then v else v.issuePacket thread p none true

/-- LOOPCTL FORGET (R328, R339). -/
def execLoopctlForget (thread : Nat) (s : State) : Host.Outcome State Fault Refusal :=
  onLoopctl thread 2 s fun s q p => s.plainPacket thread q fun u => u.issuePacket thread p none true

/-! ### Predictions -/

/-- 4 KiB units that a prediction reserves (R334). -/
def unitsOf (rs : List Range) : Nat := ((rs.filter fun r => r.mode ≥ 2).map fun r => (r.len + 4095) / 4096).sum

/-- The interval table admits a prediction beside `used` further intervals: 512 stay free, and none of its own conflicts with
another queue's (R334). -/
def State.tableTakes (s : State) (t : Nat) (q : Qcp) (r : LaunchRec) (used : Nat) : Bool :=
  r.ranges.length + 512 + used ≤ s.tableFree &&
  !((intervalsOf q.ctx t r.seq 0 0 r.ranges).any fun i => s.table.any fun o => o.thread != t && conflict o i)

/-- How many more predictions of a program, up to some number, the table would admit now (R334). -/
def State.tableAdmits (s : State) (t : Nat) (q : Qcp) : Nat → Nat → Program → Nat
  | 0, _, _ => 0
  | k + 1, used, g =>
    let r := g.next
    if s.tableTakes t q r used then s.tableAdmits t q k (used + r.ranges.length) { g with cur := r } + 1 else 0

/-- Everything that R334 asks of a prediction's start, but for its kernel. -/
def State.predictable (s : State) (t : Nat) (q : Qcp) (r : LaunchRec) : Bool :=
  q.pstate == .active && !q.discarding && (q.preds.drop q.firstOpen).length < q.cdepth &&
  unitsOf r.ranges ≤ s.queueFree t && s.tableTakes t q r 0 && !(q.preds.any fun p => p.slot == q.nextSlot) && !s.reason2 q.ctx r.ranges && s.runahead q.ctx

/-- Earlier launches of the queue whose hazards a prediction waives: anti and write-write (R324, R334). -/
def waivedOf (table is : List Interval) : List DWord :=
  ((table.filter fun o => is.any fun i => o.thread == i.thread && o.seq != i.seq && conflict o i && i.write).map Interval.seq).eraseDups

/-- PREDICTION_START (R334, R343). A kernel that cannot be run ahead is not started; one whose descriptor cannot be read is a
prediction that fails at once (R340). -/
def execPredictionStart (thread : Nat) (s : State) : Host.Outcome State Fault Refusal :=
  match s.qcp? thread with
  | none => .next s
  | some q => match q.program with
    | none => .next s
    | some g =>
      let r := g.next
      let desc := r.desc.toNat
      if !s.predictable thread q r then .next s
      else match s.pieces q.ctx (.queue thread) desc 32, s.piecesWait q.ctx (.queue thread) desc 32 with
        | .error _, _ => .next (s.discardPreds thread q.preds.length .paused)
        | .ok _, some u => .next u
        | .ok b, none =>
          let k := Kernel.ofBytes desc b
          if !kernelOk b k || !gridOk k r.gx r.gy r.gz || !k.rasafe || 8 * r.words.length != k.argsize || !s.rectExists k then
            .next s
          else
            let is := intervalsOf q.ctx thread r.seq q.nextSlot (s.entered + 1) r.ranges
            let pr : Prediction :=
              { rcd := r, slot := q.nextSlot, launch := s.fresh, units := unitsOf r.ranges, confirmed := false
                waived := waivedOf s.table is, started := s.cycle }
            let u := s.newLaunch thread q k r q.nextSlot
            .next ({ u with table := u.table ++ is, entered := u.entered + 1 }.modQ thread fun q =>
              { q with
                preds := q.preds ++ [pr], nextSlot := q.nextSlot % 8 + 1, pgen := q.pgen + 1
                program := some { g with cur := r } })

/-- A team whose launch's versions are relabelled: what it held goes on (R337, R338). -/
def Team.relabelled (t : Team) : Team :=
  { t with slot := 0, groups := t.groups.map fun g =>
      { g with lanes := g.lanes.map fun l => if l.wait = .retry true then { l with wait := .none } else l } }

/-- RELABEL (R338, R377): the versions of a confirmed launch are committed once each launch it waived has completed; armed
windows absorb what it wrote to them (R234), and regions that could not see it yet see it (R378). -/
def execRelabel (thread : Nat) (s : State) : Host.Outcome State Fault Refusal :=
  match s.qcp? thread with
  | none => .next s
  | some q =>
    let open_ := fun (n : DWord) => q.packets.any fun x => x.seq == n && !x.done && !x.abandoned
    match q.preds.find? fun p => p.confirmed && !(p.waived.any open_) with
    | none => .next s
    | some p =>
      let mine := s.versions.filter fun v => v.thread == thread && v.slot == p.slot
      let bytes := mine.flatMap fun v => v.bytes.map fun b => (128 * v.line + b.1, b.2)
      let w := { s with mem := memWrite s.mem bytes }
      let v := if s.teams.any fun x => x.2.inRegion then w.conflictAmong (fun t => !s.seesSlot thread p.slot t) (linesOf bytes) else w
      let u := (v.absorb (bytes.map Prod.fst)).atHomes (mine.map Version.line)
      .next (({ u with
        versions := u.versions.filter fun v => !(v.thread == thread && v.slot == p.slot)
        launches := amod u.launches p.launch fun l => { l with slot := 0 }
        teams := u.teams.map fun (x : Nat × Team) => if x.2.launch == p.launch then (x.1, x.2.relabelled) else x
        table := u.table.map fun (i : Interval) => if i.thread == thread && i.slot == p.slot then { i with slot := 0 } else i }).modQ thread
          fun q => { q with preds := q.preds.filter fun x => x.slot != p.slot })

/-- DISCARD_DONE (R379): the discard is whole within its own step, so what is left of it is over at once. -/
def execDiscardDone (thread : Nat) (s : State) : Host.Outcome State Fault Refusal :=
  .next (s.modQ thread fun q => { q with discarding := false })

/-- Ticks of a queue's idle timeout (R308). -/
def Qcp.idleTicks (q : Qcp) : Nat := 1024 * (if q.idle = 0 then 977 else q.idle)

/-- IDLE_TIMEOUT (R339). -/
def execIdleTimeout (thread : Nat) (s : State) : Host.Outcome State Fault Refusal :=
  match s.qcp? thread with
  | none => .next s
  | some q => match (q.preds.drop q.firstOpen).getLast? with
    | none => .next s
    | some p =>
      if s.cycle < Nat.max q.lastArr p.started + q.idleTicks then .next s else .next (s.refute thread .paused)

/-! ### What the registers show -/

/-- STATE code of a thread (R315). -/
def QState.code : QState → Nat
  | .unmapped => 0 | .stopped => 1 | .fetch => 2 | .hazard => 3 | .blocked => 4 | .issue => 5 | .faulted => 6 | .draining => 7

/-- PSTATE code (R330). -/
def PState.code : PState → Nat
  | .learning => 0 | .active => 1 | .paused => 2 | .barred => 3

/-- OUT as QSTATE and the record show it (R380). -/
def Qcp.out (q : Qcp) : Nat := if q.pstate == .active then (q.preds.drop q.firstOpen).length else 0

/-- EDEPTH (R334, R380). -/
def State.edepth (s : State) (t : Nat) (q : Qcp) : Nat :=
  match q.program with
  | none => 0
  | some g =>
    if q.pstate != .active then 0
    else
      let need := unitsOf g.next.ranges
      let byQuota := if need = 0 then 8 else q.out + s.queueFree t / need
      Nat.min q.cdepth (Nat.min byQuota (q.out + s.tableAdmits t q 8 0 g))

/-- QSTATE (R312); PFETCH counts the arrived packets beyond the one at RPTR (R317). -/
def State.qstate (s : State) (t : Nat) (q : Qcp) : Nat :=
  let ahead := if q.state.runs then (s.fetchedAhead t q 17 q.rptr q.expect).1 - 1 else 0
  s.edepth t q * 2 ^ 20 + q.out * 2 ^ 16 + q.pstate.code * 2 ^ 12 + ahead * 2 ^ 4 + q.state.code

/-- The parison record (R331, R332). -/
def State.parisonRecord (s : State) (t : Nat) (q : Qcp) : List Byte :=
  let head := leBytes 1 q.pstate.code ++ leBytes 1 (if q.pstate == .barred then q.reason else 0) ++ leBytes 1 q.cdepth
  match q.program with
  | none => padTo 0x2200 head
  | some g =>
    let c := g.cur
    let code := fun (i : Nat) => (g.rules.getD i (0, 0)).1
    let map := (List.range 128).map fun j =>
      BitVec.ofNat 8 (code (4 * j) + 4 * code (4 * j + 1) + 16 * code (4 * j + 2) + 64 * code (4 * j + 3))
    let fixed := head ++ leBytes 1 q.out ++ leBytes 1 (s.edepth t q) ++ leBytes 1 c.ranges.length ++
      leBytes 2 c.words.length ++ leBytes 8 c.desc.toNat ++ leBytes 4 c.gx ++ leBytes 4 c.gy ++ leBytes 4 c.gz ++
      leBytes 1 c.flags ++ leBytes 1 c.cscope ++ leBytes 2 c.vec ++ leBytes 8 c.cword.toNat ++ leBytes 8 c.seq.toNat ++
      leBytes 8 g.sstep.toNat ++ leBytes 8 g.srule ++ leBytes 8 c.seed.toNat ++ leBytes 8 g.sdelta.toNat
    let words := c.words.zipIdx.flatMap fun p => leBytes 8 p.1.toNat ++ leBytes 8 (g.rules.getD p.2 (0, 0)).2.toNat
    let ranges := c.ranges.zipIdx.flatMap fun p =>
      let link := match g.links.getD p.2 none with | some a => 2 ^ 50 + a * 2 ^ 51 | none => 0
      leBytes 8 p.1.base ++ leBytes 8 (p.1.len + p.1.mode * 2 ^ 48 + link)
    padTo 0x2200 (padTo 0x80 fixed ++ map ++ words ++ ranges)

end Sys2Proof.Machine
end

