-- ==== Sys2Proof/Machine/Commands.lean ====
section
/-! DEFINITION. Context activation and commands, stops answered, fault records, user-interrupt posts, the BAR4 window (R346
to R350, R357, R360 to R370, R414). -/

namespace Sys2Proof.Machine

open Sys2Proof

/-! ### Registers -/

/-- BAR0 offset of a context's block (R349). -/
def ctxBlock (c : Nat) : Nat := 0x100000 + 0x40 * c

/-- CTXSTAT.ERR set (R349). -/
def State.setErr (s : State) (c : Nat) : State := { s with errs := if s.errs.contains c then s.errs else c :: s.errs }

/-- The record address of CREC (R349). -/
def State.recordAddr (s : State) (c : Nat) : Nat := bits64 (s.reg (ctxBlock c) 0) 8 44 * 256

/-- ACC0 (R422). -/
def State.acc0 (s : State) : Nat := (s.reg 0x200 0).toNat

/-! ### Activation -/

/-- The context that a record describes (R347). -/
def Ctx.ofRecord (b : List Byte) : Ctx :=
  let at_ := fun (o n : Nat) => leNat ((b.drop o).take n)
  let flag := fun (k : Nat) => (at_ 0x0C 4).testBit k
  { state := .active, ptroot := at_ 0 8, pasid := at_ 8 4, priv := flag 0, atsOn := flag 1, priOn := flag 2
    feat := at_ 0x10 8, shtab := at_ 0x18 8, shslots := at_ 0x20 4, savebase := at_ 0x28 8, savesize := at_ 0x30 8
    uivec := BitVec.ofNat 64 (at_ 0x38 8), uimbox := BitVec.ofNat 64 (at_ 0x40 8), ctxvec := at_ 0x48 2, slots := []
    ats := [], reqs := [], denied := [], inUse := [], inval := [], nextStop := 1 }

/-- The part accepts a context record (R347, R348). -/
def State.recordOk (s : State) (b : List Byte) (x : Ctx) : Bool :=
  let at_ := fun (o n : Nat) => leNat ((b.drop o).take n)
  at_ 0x0C 4 < 8 && at_ 0x24 4 = 0 && at_ 0x4A 182 = 0 && x.pasid < 2 ^ 20 && x.ctxvec < 2048 && x.ptroot < 2 ^ 52 &&
  x.ptroot % 4096 = 0 && x.shtab % 4096 = 0 && x.savebase % 65536 = 0 && x.savesize % 65536 = 0 &&
  x.uivec.toNat % 4 = 0 && x.uimbox.toNat % 8 = 0 && 1 ≤ x.shslots && x.shslots ≤ 2 ^ 20 &&
  (List.range 64).all (fun k => !x.feat.testBit k || s.acc0.testBit k) &&
  !(s.ctxs.any fun p => p.2.pasid == x.pasid) && (!x.priv || (s.reg 0x308 0).getLsbD 0)

/-- CONTEXT_ACTIVATE (R348, R419): the driver writes 1 to CREC.EN. -/
def execContextActivate (ctx : Nat) (s : State) : Host.Outcome State Fault Refusal :=
  if ctx ≥ 1024 || (s.ctx? ctx).isSome then .next s
  else
    let b := s.bytesAt (s.recordAddr ctx) 256
    let x := Ctx.ofRecord b
    if s.boot.ran = 2 || !s.recordOk b x then .next (s.setErr ctx)
    else .next ({ s with ctxs := aset s.ctxs ctx x }.setReg (ctxBlock ctx) (s.reg (ctxBlock ctx) 0 ||| 1))

/-- A team of the context is resident, saved or stopped (R349). -/
def State.hasTeam (s : State) (c : Nat) : Bool := s.teams.any fun p => p.2.ctx == c && p.2.endedAt.isNone

/-- The details of a context's job faults, which go with it (R208). -/
def State.forgetDetails (s : State) (c : Nat) : State :=
  { s with details := s.details.filter fun p => p.1 / detailKey 1 0 0 0 != c }

/-- The directory's parts of a context's declared objects (R278). -/
def State.declParts (s : State) (x : Ctx) : List OctPart :=
  s.coh.parts.filter fun p => p.obj.decl && p.obj.id / 2 ^ 20 == x.pasid

/-- CONTEXT_DEACTIVATE (R349): the driver writes 0 to CREC.EN. Its armed windows are let go with its shape table; lines of its
declared objects are recalled before, as undeclaring does (R276). -/
def execContextDeactivate (ctx : Nat) (s : State) : Host.Outcome State Fault Refusal :=
  let mapped := s.threads.any fun p => p.2.ctx == ctx && p.2.state != .unmapped
  let parts := match s.ctx? ctx with | some x => s.declParts x | none => []
  if (s.ctx? ctx).isNone || mapped || s.hasTeam ctx then .next s
  else if !parts.isEmpty then .next (parts.foldl State.evictPart s)
  else .next (({ s with ctxs := adel s.ctxs ctx, lgfs := s.lgfs.filter fun g => g.ctx != ctx }.forgetDetails ctx).setReg
    (ctxBlock ctx) (s.reg (ctxBlock ctx) 0 &&& ~~~1#64))

/-! ### Pre-emption -/

/-- A team that stands on a core. -/
def Team.resident (t : Team) : Bool := t.endedAt.isNone && (match t.place with | .core _ _ => true | _ => false)

/-- PREEMPT (R368): refused unless the context runs and its save pool can hold every resident team. -/
def execPreempt (ctx : Nat) (s : State) : Host.Outcome State Fault Refusal :=
  match s.ctx? ctx with
  | none => .next s
  | some x =>
    let ts := s.teams.filter fun p => p.2.ctx == ctx && p.2.resident
    let fits := s.poolFits ctx (ts.map fun p => p.2.kern.teamSize)
    if x.state != .active || !fits then .next (s.setErr ctx)
    else
      let u := s.modCtx ctx fun x => { x with state := .preempting }
      .next ((ts.foldl (fun s p => s.askYield p.2) u).settleSave ctx)

/-- A list of teams by their linear index, lowest first. -/
def insertTeam (p : Nat × Team) : List (Nat × Team) → List (Nat × Team)
  | [] => [p]
  | q :: r => if p.2.linear < q.2.linear then p :: q :: r else q :: insertTeam p r

/-- RESUME (R368): every saved team waits to be admitted again. A context with saved stops is STOPPED from then on, so CTXVEC
is sent (R347, R363). -/
def execResume (ctx : Nat) (s : State) : Host.Outcome State Fault Refusal :=
  match s.ctx? ctx with
  | none => .next s
  | some x =>
    if x.state != .saved then .next (s.setErr ctx)
    else
      let mine := fun (n : Nat) => (s.teams.filter fun (p : Nat × Team) =>
        p.2.launch == n && p.2.place == .saved).foldl (fun l p => insertTeam p l) []
      let u := s.modCtx ctx fun x => { x with state := .active }
      .next { (if (s.stopIds ctx).isEmpty then u else u.interrupt x.ctxvec) with
        launches := s.launches.map fun (p : Nat × Launch) =>
          if p.2.ctx == ctx then
            (p.1, { p.2 with waiting := p.2.waiting ++ ((mine p.1).map Prod.fst).filter fun n => !p.2.waiting.contains n })
          else p }

/-! ### Ends by command -/

/-- A chain goes, its job dropped. -/
def State.dropChain (s : State) (k : Nat) : State := { s.dropJob k with chains := adel s.chains k }

/-- Chains of some kind go. -/
def State.dropChains (s : State) (f : Chain → Bool) : State :=
  (s.chains.filter fun p => f p.2).foldl (fun s p => s.dropChain p.1) s

/-- A packet that will not complete: its intervals are released, and it holds up no completion write (R327). -/
def State.abandon (s : State) (t : Nat) (seq : DWord) : State :=
  (s.release t seq).modQ t fun q => { q with
    packets := q.packets.map fun x => if x.seq = seq && !x.done then { x with abandoned := true } else x }

/-- Every team of a launch ends with the matrix chains bound to it; its packet is abandoned, and its last phase is counted
(R181, R363, R424). -/
def State.endLaunch (s : State) (n : Nat) : State :=
  match aget s.launches n with
  | none => s
  | some l =>
    let s := s.endPhase n
    let mine := (s.teams.filter fun (p : Nat × Team) => p.2.launch == n).map Prod.fst
    let u := s.dropChains fun c => c.bound.any mine.contains
    let slots := match u.qcp? l.thread with
      | some q => (q.preds.filter fun (p : Prediction) => p.launch == n).map Prediction.slot
      | none => []
    let v : State := { u with
      teams := (u.teams.filter fun (p : Nat × Team) => !(mine.contains p.1 && p.2.place == .saved)).map fun (p : Nat × Team) =>
        if mine.contains p.1 && p.2.endedAt.isNone then (p.1, p.2.finish s.cycle) else p
      tileJobs := u.tileJobs.filter fun j => !mine.contains j.team
      versions := u.versions.filter fun v => !(v.thread == l.thread && slots.contains v.slot)
      launches := adel u.launches n }
    ((v.abandon l.thread l.seq).modQ l.thread fun q => { q with preds := q.preds.filter fun (p : Prediction) => p.launch != n }).settleSave l.ctx

/-- A queue whose launch or job was ended by a command is FAULTED (R318, R363). -/
def State.faultEnded (s : State) (t : Nat) (seq : DWord) (pc : Nat) : State :=
  match s.qcp? t with
  | some q => if q.state == .unmapped then s else s.faultQueue t fltEngine 0x0120 seq pc 0
  | none => s

/-- The ring address of an issued packet. -/
def State.packetAddr (s : State) (t : Nat) (seq : DWord) : Nat :=
  match (s.qcp? t).bind fun q => q.packets.find? fun p => p.seq == seq with
  | some p => p.addr
  | none => 0

/-- KILL of one queue: its predictions end, what it has issued is abandoned, and it is FAULTED (R363). -/
def State.killQueue (s : State) (t : Nat) : State :=
  match s.qcp? t with
  | none => s
  | some q =>
    let u := if (q.preds.drop q.firstOpen).isEmpty then s else s.refute t .paused
    let v := q.packets.foldl (fun s p => s.abandon t p.seq) u
    v.faultEnded t 0 (q.at_ q.rptr)

/-- KILL (R363, R407): every team, chain and prediction of the context ends, and its Gaffer calls. It is KILLING until the next
tick and ACTIVE afterwards: DESIGN CHOICE (log 71). -/
def execKill (ctx : Nat) (s : State) : Host.Outcome State Fault Refusal :=
  match s.ctx? ctx with
  | none => .next s
  | some _ =>
    let qs := (s.threads.filter fun p => p.2.ctx == ctx && p.2.state != .unmapped).map Prod.fst
    let u := qs.foldl State.killQueue s
    let v := ((u.launches.filter fun p => p.2.ctx == ctx).map Prod.fst).foldl State.endLaunch u
    let w := v.dropChains fun c => c.ctx == ctx
    .next ({ w with
      teams := (w.teams.filter fun (p : Nat × Team) => !(p.2.ctx == ctx && p.2.place == Place.saved)).map fun (p : Nat × Team) =>
        if p.2.ctx == ctx && p.2.endedAt.isNone then (p.1, p.2.finish w.cycle) else p
      svc := w.svc.map fun (p : Nat × SvcQueue) =>
        if bits64 (w.reg (0x300000 + 0x100 * p.1 + 8) 0) 32 10 = ctx then (p.1, { p.2 with calls := [] }) else p
      lent := w.lent.map fun (d : Lent) => if d.ctx == ctx && !d.finished then { d with rword := none, finished := true } else d }.modCtx
        ctx fun x => { x with state := .killing, denied := [] })

/-! ### Answers to a stop -/

/-- The group that a STOPID of a context names. -/
def State.stoppedGroup (s : State) (c id : Nat) : Option (GRef × Group × Stop) :=
  (s.teams.filter fun p => p.2.ctx == c).findSome? fun p => p.2.groups.zipIdx.findSome? fun q => match q.1.stop with
    | some x => if x.id = id then some ({ team := p.1, grp := q.2 }, q.1, x) else none
    | none => none

/-- The chain that a STOPID of a context names. -/
def State.stoppedChain (s : State) (c id : Nat) : Option (Nat × Chain × ChainStop) :=
  s.chains.findSome? fun p => match p.2.stop with
    | some x => if p.2.ctx = c && x.id = id then some (p.1, p.2, x) else none
    | none => none

/-- A stop that GRESUME does not end (R363, R414). -/
def StopKind.final : StopKind → Bool
  | .timeout | .fenced => true | _ => false

/-- GRESUME (R363, R414, R429): a group goes on from where its lanes stand, a chain retakes its card. -/
def execGresume (ctx stopid : Nat) (s : State) : Host.Outcome State Fault Refusal :=
  match s.stoppedGroup ctx stopid, s.stoppedChain ctx stopid with
  | some (r, _, x), _ =>
    if x.kind.final then .next (s.setErr ctx)
    else .next (s.modGrp r fun g => { g with stop := none, step := none })
  | none, some (k, c, x) =>
    if c.engine = 9 && x.detail = fltFenced then .next (s.setErr ctx)
    else .next (s.modChain k fun c => { c with stop := none })
  | none, none => .next (s.setErr ctx)

/-- HEAD moves past a job of which only the completion write failed (R205). -/
def State.passHead (s : State) (c : Chain) : State :=
  match s.partLeaf c.ctx .part (c.ccb.toNat + 0x18) true 8 with
  | .ok l => s.partStore c.ctx l (leBytes 8 ((leNat (s.leafBytes { ctx := c.ctx } l 8) + 1) % 2 ^ 64))
  | _ => s

/-- The thread of a queue of a context. -/
def State.threadOf (s : State) (c qid : Nat) : Option Nat :=
  (s.threads.find? fun p => p.2.ctx == c && p.2.qid == qid && p.2.state != .unmapped).map Prod.fst

/-- The launch that enqueued an abandoned card will not write its completion, and its queue is FAULTED (R363). -/
def State.faultOrigin (s : State) (c : Chain) : State :=
  match c.origin.head? with
  | none => s
  | some o => match s.threadOf c.ctx o.1 with
    | none => s
    | some t =>
      let pc := s.packetAddr t o.2.1
      (s.modQ t fun q => { q with packets := q.packets.map fun (p : Packet) =>
        if p.seq = o.2.1 && !p.done then { p with cw := false, irq := false } else p }).faultEnded t o.2.1 pc

/-- GKILL (R363, R429). -/
def execGkill (ctx stopid : Nat) (s : State) : Host.Outcome State Fault Refusal :=
  match s.stoppedGroup ctx stopid, s.stoppedChain ctx stopid with
  | some (r, _, _), _ =>
    match (s.team? r.team).map Team.launch with
    | none => .next s
    | some n => match aget s.launches n with
      | none => .next s
      | some l => let pc := s.packetAddr l.thread l.seq; .next ((s.endLaunch n).faultEnded l.thread l.seq pc)
  | none, some (k, c, x) =>
    match c.packet with
    | some p => .next (((s.dropChain k).abandon p.thread p.seq).faultEnded p.thread p.seq c.ccb.toNat)
    | none => .next (((if x.onlyWrite then s.passHead c else s).dropChain k).faultOrigin c)
  | none, none => .next (s.setErr ctx)

/-- GSTEP (R367): the group may issue one cycle; a second GSTEP before it ends is refused, and one of a group on a fenced core,
whose stop only GKILL or KILL ends (R414). -/
def execGstep (ctx stopid : Nat) (s : State) : Host.Outcome State Fault Refusal :=
  match s.stoppedGroup ctx stopid with
  | some (r, g, x) => .next (if g.step.isSome || x.kind == .fenced then s.setErr ctx
      else s.modGrp r fun g => { g with step := some { lanes := 0, left := 0 } })
  | none => .next (s.setErr ctx)

/-- Physical address of the context's debug area (R349). -/
def State.debugArea (s : State) (c : Nat) : Nat := bits64 (s.reg (ctxBlock c + 0x20) 0) 16 36 * 65536

/-- Bytes written by the part at a physical address, the lines' copies recalled. -/
def State.physWrite (s : State) (pa : Nat) (bs : List Byte) : State :=
  let lines := (List.range ((pa % 128 + bs.length + 127) / 128)).map (pa / 128 + ·)
  (s.writeBytes (located pa bs)).atHomes lines

/-- GSAVE (R363, R370): the write-combined stores drain first (R266). -/
def execGsave (ctx stopid : Nat) (s : State) : Host.Outcome State Fault Refusal :=
  match s.stoppedGroup ctx stopid with
  | none => .next (s.setErr ctx)
  | some (r, g, _) => match s.drainMany r true g.wcbuf.length with
    | .wait u => .next u
    | .done u => match u.team? r.team, u.grp? r with
      | some t, some g => .next (u.physWrite (u.debugArea ctx) (g.record t.kern u.core false fun _ l => l.pc))
      | _, _ => .next u

/-- What GLOAD asks of a record (R370): its version, and a budget that keeps R62 and lies within the launch's. -/
def loadFits (k : Kernel) (rd : Nat → Nat → Nat) : Bool :=
  let b := rd 0 8
  let f := rd 0x30 8
  let bseg := b % 16
  let hseg := b / 2 ^ 8 % 16
  f % 256 = 1 && 1 ≤ bseg && bseg ≤ k.bseg && hseg ≤ k.hseg && b / 2 ^ 16 % 2 ^ 10 ≤ 64 * bseg && f / 2 ^ 8 % 256 ≤ k.uregs &&
  f / 2 ^ 16 % 16 ≤ k.acc && b / 2 ^ 48 % 16 ≤ k.bseg + k.hseg

/-- GLOAD (R363, R370). The record of a saved group in the save pool is replaced with it. -/
def execGload (ctx stopid : Nat) (s : State) : Host.Outcome State Fault Refusal :=
  match s.stoppedGroup ctx stopid with
  | none => .next (s.setErr ctx)
  | some (r, _, _) => match s.team? r.team with
    | none => .next s
    | some t =>
      let base := s.debugArea ctx
      let rd := fun (o n : Nat) => s.natAt (base + o) n
      let paOf := fun (va : Nat) => match s.translate ctx .part va .w with | .ok l => some (l.pa / 128) | _ => none
      if !loadFits t.kern rd then .next (s.setErr ctx)
      else
        let u := s.modGrp r fun g => g.ofRecord t.kern rd paOf
        .next (match s.savedField r 0 with
          | some a => u.writeBytes (located a (s.bytesAt base t.kern.groupSize))
          | none => u)

/-! ### Records and posts -/

/-- FAULT_RECORD_WRITE (R360, R361): the oldest record held, with its number. -/
def execFaultRecordWrite (s : State) : Host.Outcome State Fault Refusal :=
  match s.records with
  | [] => .next s
  | b :: r =>
    if !s.ringRoom 0x200000 then .next s
    else
      let num := (s.reg 0x200010 0).toNat % 65536
      .next ({ s with records := r }.putRecord 0x200000 64 (b.take 0x3A ++ leBytes 2 num ++ b.drop 0x3C))

/-- UIP set in group 0 of a team, in its record too where the team is saved (R365, R370). -/
def State.postUip (s : State) (n : Nat) : State :=
  let r : GRef := { team := n, grp := 0 }
  let u := s.modGrp r fun g => { g with uip := true }
  match s.savedField r 0x32 with
  | some a => u.writeBytes [(a, s.byteAt a ||| 0x20#8)]
  | none => u

/-- UIPOST (R364, R365). -/
def execUipost (value : DWord) (s : State) : Host.Outcome State Fault Refusal :=
  let c := bits64 value 54 10
  match s.ctx? c with
  | none => .next s
  | some x =>
    let va := x.uimbox.toNat
    match s.partWait c .part [(va, 8, false), (va, 8, true)] with
    | some u => .next u
    | none =>
      let u := s.partPut c .part va 8 (s.partNat c .part va 8 ||| 2 ^ bits64 value 0 6)
      let ts := u.teams.filter fun p => p.2.ctx == c && p.2.endedAt.isNone
      .next (if x.uivec = 0 then u else ts.foldl (fun s p => s.postUip p.1) u)

/-! ### The BAR4 window -/

/-- Device physical address of a BAR4 offset: bits of WINBASE below the size of the window count for nothing (R345, R346,
R350). -/
def State.windowAt (s : State) (off : Nat) : Nat := bits64 (s.reg 0x200080 0) s.bar4 (52 - s.bar4) * 2 ^ s.bar4 + off

/-- The host gives BAR4 another size (R345). -/
def State.resizeBar4 (s : State) (n : Nat) : State := if 30 ≤ n && n ≤ 42 then { s with bar4 := n } else s

/-- An access through BAR4 that must wait: an engine owns a line of it (R286), or stores of a release on it are not yet
performed (R263). -/
def State.heldUp (s : State) (pa n : Nat) : Bool :=
  ((span pa n).map (· / 128)).eraseDups.any fun k => (s.ownerOf k).isSome || s.marked none k

/-- BAR4_READ (R346). -/
def execBar4Read (off size : Nat) (s : State) : Host.Outcome State Fault Refusal :=
  let pa := s.windowAt off
  if off + size > 2 ^ s.bar4 || s.heldUp pa size then .next s
  else if (span pa size).any fun a => s.poison.contains (a / 128) || s.lineFenced (a / 128) then .next (s.emit .poisoned)
  else .next (s.emit (.data (if notifyPa pa then s.notifyLoad pa size else s.bytesAt pa size)))

/-- BAR4_WRITE (R346). -/
def execBar4Write (off : Nat) (data : List Byte) (s : State) : Host.Outcome State Fault Refusal :=
  let pa := s.windowAt off
  if off + data.length > 2 ^ s.bar4 || s.heldUp pa data.length then .next s
  else if notifyPa pa then .next (s.notifyStore none pa data.length (leNat data))
  else
    let keep := (located pa data).filter fun p => !s.lineFenced (p.1 / 128)
    let lines := (keep.map fun p => p.1 / 128).eraseDups
    .next (((s.writeBytes keep).absorb (keep.map Prod.fst)).atHomes lines)

/-! ### CTXSTAT -/

/-- CTXSTAT (R349, R363). -/
def State.ctxStat (s : State) (c : Nat) : Nat :=
  let saved := (s.teams.filter fun p => p.2.ctx == c && p.2.place == .saved).length
  let stops := (s.stopIds c).length
  let st := match (s.ctx? c).map Ctx.state with
    | none => 0
    | some .active => if stops = 0 then 1 else 4
    | some .preempting => 2
    | some .saved => 3
    | some .killing => 5
  saved * 2 ^ 48 + stops * 2 ^ 32 + (if s.errs.contains c then 256 else 0) + st

end Sys2Proof.Machine
end

