-- ==== Sys2Proof/Machine/Dual.lean ====
section
/-! DEFINITION. The D-form word: two slots as one indivisible step (R99 to R102, R132, R133, R173, R177). -/

namespace Sys2Proof

/-- The element type of a TY3 (R99). -/
def Ty3.ty : Ty3 → Ty
  | .i32 => .i32 | .ui32 => .ui32 | .f32 => .f32 | .f16 => .f16 | .bf16 => .bf16 | .i16 => .i16 | .i8 => .i8 | .b32 => .b32

/-- IMM9 widened in the type of the operand it stands for (R100), w bits: CVT reads it in its source type (R132). -/
def imm9Val (t : Ty) (i : BitVec 9) (w : Nat) : Nat :=
  match t with
  | .ui32 | .b32 => i.toNat
  | .f32 | .f16 | .bf16 => t.fmt.round .rne false 0 (.ofInt i.toInt)
  | _ => (i.signExtend 64).toNat % 2 ^ w

/-- Uniform dual opcodes (R133). -/
def DOp.uniform : DOp → Bool
  | .uadd | .usub | .uand | .uor | .umov | .ulil => true | _ => false

/-- Scratchpad dual opcodes. -/
def DOp.scratch : DOp → Bool
  | .lds | .sts => true | _ => false

/-- Dual compares, which write m14 or m15 (R102). -/
def DOp.compare : DOp → Bool
  | .icmpEq | .icmpNe | .icmpLt | .icmpLe | .icmpLtu | .icmpLeu | .fcmpEq | .fcmpLt | .fcmpLe => true | _ => false

/-- A is read, B is read as a name, A is written (R132). -/
def DOp.readsA : DOp → Bool
  | .nop | .iabs | .ineg | .mov | .lil | .brev | .fabs | .fneg | .cvtF32F16 | .cvtF32Bf16 | .cvtF16F32 | .cvtBf16F32
  | .umov | .ulil | .lds => false
  | _ => true
def DOp.readsB : DOp → Bool
  | .nop | .lil | .ulil => false | _ => true
def DOp.writesA (o : DOp) : Bool := o != .nop && o != .sts && !o.compare

end Sys2Proof

namespace Sys2Proof.Machine

open Sys2Proof

/-! ### Decode step 6 -/

/-- A vector name of a slot obeys the bank rule (R101). -/
def bankOk (slot n : Nat) : Bool := (n % 4 ≥ 2) = (slot = 1)

/-- A name that a slot reads or writes: vector or uniform as its dual opcode asks, in the budget, in its bank (R101, R133). -/
def Gx.dualName (x : Gx) (slot : Nat) (vec uni : Bool) (n : Name) : Bool :=
  match n with
  | .v i => vec && bankOk slot i && x.vecOk false i
  | .s i => uni && i < x.t.kern.uregs
  | _ => false

def Gx.slotOk (x : Gx) (k : Nat) (p : DSlot) : Bool :=
  let o := p.op
  let vecA := !o.uniform
  let uniA := o.uniform || o = .sts
  o = .nop ||
  (x.dualName k vecA uniA p.a &&
   (!o.readsB || (match p.b with
     | .reg n => x.dualName k (!o.uniform) true n
     | .imm _ => true)))

/-- The rules of a pair of slots (R101). -/
def Gx.dualOk (x : Gx) (p q : DSlot) : Bool :=
  x.slotOk 0 p && x.slotOk 1 q && !(p.op.writesA && q.op.writesA && p.a = q.a) && !(p.op.scratch && q.op.scratch)

/-! ### The slots -/

/-- Source B of a lane (R100, R133). -/
def Gx.dualB (x : Gx) (p : DSlot) (l w : Nat) : Nat :=
  match p.b with
  | .reg n => x.src l n p.ty.ty w
  | .imm i => imm9Val p.ty.ty i w

/-- What a slot leaves: values of lanes for a vector register, bits of lanes for a mask, a uniform value, bytes to store. -/
inductive SlotOut
  | none | vec (d : Name) (t : Ty) (vals : List (Nat × Nat)) | msk (n : Nat) (bits : List Nat) | uni (d : Name) (v : DWord)

/-- A compare of a slot (R144, R159). -/
def dualCompare (o : DOp) (t : Ty) (a b : Nat) : Bool :=
  match o with
  | .icmpEq => icmpBit 0 t a b | .icmpNe => icmpBit 1 t a b | .icmpLt => icmpBit 2 t a b | .icmpLe => icmpBit 3 t a b
  | .icmpLtu => icmpBit 6 t a b | .icmpLeu => icmpBit 7 t a b
  | .fcmpEq => fcmpBit 0 t a b | .fcmpLt => fcmpBit 2 t a b | _ => fcmpBit 3 t a b

/-- A vector result of a slot for a lane, with $rng (R173). -/
def dualValue (cvm : DWord) (o : DOp) (t : Ty) (a b : Nat) (bit : Bool) (rng : DWord) : Nat × DWord :=
  let m := modeOf cvm .none (nibbleLo t)
  let st := satOf cvm .none (nibbleLo t) (!t.isFloat)
  let fl := fun (v : FV) => roundRes t m st (infFree (t.val a) && infFree (t.val b)) v rng
  match o with
  | .iadd => (intOp t (· + ·) a b, rng)
  | .isub => (intOp t (· - ·) a b, rng)
  | .imul => (intOp t (· * ·) a b, rng)
  | .imin => (intOp t (fun x y => if x ≤ y then x else y) a b, rng)
  | .imax => (intOp t (fun x y => if x ≤ y then y else x) a b, rng)
  | .iabs => (intOp t (fun x _ => x.natAbs) b 0, rng)
  | .ineg => (intOp t (fun x _ => -x) b 0, rng)
  | .and => (a &&& b, rng)
  | .or => (a ||| b, rng)
  | .xor => (a ^^^ b, rng)
  | .andn => (a &&& (2 ^ t.bits - 1 - b), rng)
  | .shl => (shlOp t.bits a b, rng)
  | .shr => (shrOp t.bits a b, rng)
  | .sar => (sarOp t a b, rng)
  | .rot => (rotOp t.bits a b, rng)
  | .mov | .lil => (b, rng)
  | .brev => (brevOp t.bits b, rng)
  | .sel => (if bit then b else a, rng)
  | .fadd => fl (FV.add (m == .rdn) (t.val a) (t.val b))
  | .fsub => fl (FV.add (m == .rdn) (t.val a) (t.val b).neg)
  | .fmul => fl ((t.val a).mul (t.val b))
  | .fmin => (fMinMax t false a b, rng)
  | .fmax => (fMinMax t true a b, rng)
  | .fabs => (fSign t false b, rng)
  | .fneg => (fSign t (!signBit t b) b, rng)
  | .cvtF32F16 | .cvtF32Bf16 => convert .f32 t m st b rng
  | .cvtF16F32 => convert .f16 .f32 m st b rng
  | .cvtBf16F32 => convert .bf16 .f32 m st b rng
  | _ => (0, rng)

/-- The type of B, where it differs from TY3 (R132). -/
def DOp.srcTy (o : DOp) (t : Ty) : Ty :=
  match o with
  | .cvtF32F16 | .cvtF32Bf16 => .f32 | .cvtF16F32 => .f16 | .cvtBf16F32 => .bf16 | _ => t

/-- A uniform result of a slot (R133, R177). -/
def dualUniform (o : DOp) (t : Ty3) (a b : Nat) : DWord :=
  let u : Ty := match t with | .i32 => .i32 | .ui32 => .ui32 | _ => .ui64
  let v := match o with
    | .uadd => intOp u (· + ·) a b | .usub => intOp u (· - ·) a b | .uand => a &&& b | .uor => a ||| b | _ => b
  extend64 u (v % 2 ^ u.bits)

/-- One slot evaluated, with $rng: every operand is read from the group as it stood (R102). The IMM9 of a CVT is the integer
of R100 in the source type: DEDUCED (log 75); one that a narrow type cannot hold keeps its low bits, LIL's too (log 77). -/
def Gx.slotEval (x : Gx) (k : Nat) (p : DSlot) (rng : DWord) : SlotOut × DWord :=
  let t := p.ty.ty
  let o := p.op
  if o = .nop || o = .sts then (.none, rng)
  else if o.uniform then
    let w := if p.ty = .i32 || p.ty = .ui32 then 32 else 64
    let u : Ty := if w = 64 then .ui64 else t
    let b := match p.b with | .reg n => x.usrc n u w | .imm i => imm9Val p.ty.ty i w
    (.uni p.a (dualUniform o p.ty (x.usrc p.a u w) b), rng)
  else if o.compare then
    (.msk (14 + k) ((lanesOf x.en).filter fun l => dualCompare o t (x.src l p.a t t.bits) (x.dualB p l t.bits)), rng)
  else
    let bt := DOp.srcTy o t
    let r := drawAll (lanesOf x.en) rng fun l rng =>
      dualValue x.g.cvm o t (x.src l p.a t t.bits)
        (match p.b with | .reg n => x.src l n bt bt.bits | .imm i => imm9Val bt i bt.bits) ((x.mask (14 + k)).getLsbD l) rng
    (.vec p.a t r.1, r.2)

/-- A slot's result written. -/
def Gx.slotWrite (x : Gx) (r : SlotOut) (g : Group) : Group :=
  match r with
  | .none => g
  | .vec d t vals => x.put d false t (fun l => (aget vals l).getD 0) g
  | .msk n bits => x.putM (.m n) false (fun l => bits.contains l) g
  | .uni d v => x.putS d v g

/-- The scratchpad slot of a word, if it has one. -/
def scratchSlot (p q : DSlot) : Option DSlot := if p.op.scratch then some p else if q.op.scratch then some q else none

/-- Both slots (R102): the scratchpad slot's checks come first, and nothing is written when one fails. -/
def Gx.dualBody (x : Gx) (p q : DSlot) : State :=
  let addr := fun (d : DSlot) (l : Nat) => match d.b with | .reg n => x.src l n .ui32 32 | .imm _ => 0
  let go := fun (d : Option DSlot) (ps : List (Nat × Nat × Nat)) =>
    let lds := fun (r : SlotOut) (z : DSlot) => if z.op = .lds then
        SlotOut.vec z.a z.ty.ty (ps.map fun e => (e.1, x.s.scratchNat e.2.1 e.2.2 z.ty.ty.size))
      else r
    let a := x.slotEval 0 p x.g.rng
    let b := x.slotEval 1 q a.2
    let t := match d with
      | some z => if z.op = .sts then
          ps.foldl (fun s e => s.scratchWrite e.2.1 e.2.2 (leBytes z.ty.ty.size (x.src e.1 z.a z.ty.ty z.ty.ty.bits))) x.s
        else x.s
      | none => x.s
    x.done t fun g => x.slotWrite (lds b.1 q) (x.slotWrite (lds a.1 p) { g with rng := b.2 })
  match scratchSlot p q with
  | some d => x.scratchGo (addr d) d.ty.ty.size fun ps => go (some d) ps
  | none => go none []

/-! ### Regions -/

/-- The F-form opcode and FN whose tag rule a slot follows (R210); 0xFF makes a tagged operand concrete. -/
def DOp.tagOp : DOp → Nat × Nat
  | .iadd => (0x01, 0) | .isub => (0x02, 0) | .mov => (0x1F, 0) | .icmpEq => (0x1A, 0) | .icmpNe => (0x1A, 1)
  | .icmpLt => (0x1A, 2) | .icmpLe => (0x1A, 3) | .icmpLtu => (0x1A, 6) | .icmpLeu => (0x1A, 7) | _ => (0xFF, 0)

/-- A slot's step on tags (R210). -/
def Gx.slotTags (x : Gx) (p : DSlot) (l : Nat) : TagStep :=
  let t := p.ty.ty
  let k := DOp.tagOp p.op
  let ta := if p.op.readsA then x.rd.tagAt l p.a t.bits else .none
  let tb := match p.b with
    | .reg n => if p.op.readsB then x.rd.tagAt l n (DOp.srcTy p.op t).bits else .none
    | .imm _ => .none
  if p.op = .nop then {}
  else if p.op = .mov then tagRule k.1 k.2 t tb .none (x.dualB p l t.bits) 0
  else tagRule k.1 k.2 t ta tb (x.src l p.a t t.bits) (x.dualB p l t.bits)

/-- What a slot writes of a lane (R209). -/
def Gx.slotDests (x : Gx) (k : Nat) (p : DSlot) (l : Nat) : List RegRef :=
  if p.op.compare then [.m (14 + k)]
  else if p.op.writesA then (match p.a with | .v n => [.v (x.rd.wb l + n)] | _ => [])
  else []

/-- The code of the first slot a region lane may not execute (R211). -/
def dualForbidden (p q : DSlot) : Option Nat :=
  let bad := fun (d : DSlot) => d.op.uniform || d.op.scratch
  if bad p then some (dops.idxOf p.op) else if bad q then some (dops.idxOf q.op) else none

/-- A lane's region before a D-form word (R209 to R211). -/
def Gx.dualScreen (x : Gx) (p q : DSlot) (lane : Nat) (r : Region) : Screen :=
  match dualForbidden p q with
  | some k => .abort 0x0A k
  | none =>
    if r.count ≥ 512 then .abort 0x08 0
    else
      let da := x.slotDests 0 p lane
      let db := x.slotDests 1 q lane
      let r1 := r.save x.g lane (da ++ db)
      if r1.saved.length > 16 then .abort 0x07 0
      else
        let sa := x.slotTags p lane
        let sb := x.slotTags q lane
        let cons := sa.cons.toList ++ sb.cons.toList
        if r1.constraints.length + cons.length > 8 then .abort 0x04 0
        else
          let r2 := (da ++ db).foldl (fun r d => match d with | .v n => r.clear n 32 | .m _ => r) r1
          let tagOf := fun (st : TagStep) (ds : List RegRef) => match st.tag, ds.head? with
            | some (k, c), some (.v n) => [({ pos := n, wide := false, k := k, c := c } : RTag)]
            | _, _ => []
          .go { r2 with
            count := r.count + 1
            concrete := r.concrete || sa.concrete || sb.concrete
            tags := tagOf sa da ++ tagOf sb db ++ r2.tags
            constraints := r2.constraints ++ cons }

/-! ### The word -/

/-- The D-form word of the issuing gang: it takes no prefix, has no safe point, and privilege and features do not apply. -/
def execDual (p q : DSlot) (s : State) : Host.Outcome State Fault Refusal :=
  match openGang s none with
  | none => .fault .noGang
  | some x =>
    .next (
      if !x.dualOk p q then x.fault x.s fltOperand
      else if x.pastEnd then x.fault x.s fltRange
      else if x.g.inRegion &&& x.c.lanes = 0 then x.dualBody p q
      else
        let y := x.screenAll (x.dualScreen p q)
        if y.c.lanes = 0 then y.s else y.dualBody p q)

end Sys2Proof.Machine
end

