-- ==== Sys2Proof/Machine/System.lean ====
section
/-! DEFINITION. System registers, traps, spilling, user-interrupt return and the privileged instructions (R54 to R65, R240
to R243). -/

namespace Sys2Proof.Machine

open Sys2Proof

/-! ### System registers -/

/-- $coreid (R55) of core K = 8 × row + column. -/
def coreidReg (k : Nat) : Nat := k % 8 * 64 + k / 8 * 8

/-- $clusterid (R55). -/
def Team.clusterReg (t : Team) : Nat := t.kern.cols * 256 + t.kern.rows * 16 + t.cidx

/-- A system register that is not a lane's (R54), read before anything of its cycle is written (R23). -/
def Gx.sysReg (x : Gx) (n : Nat) : DWord :=
  let w := BitVec.ofNat 64
  match n with
  | 0x001 => w x.c.g.grp
  | 0x002 => w x.t.x | 0x003 => w x.t.y | 0x004 => w x.t.z
  | 0x005 => w x.t.nx | 0x006 => w x.t.ny | 0x007 => w x.t.nz
  | 0x008 => w x.t.clusterReg
  | 0x009 => w (coreidReg x.t.at_.2)
  | 0x00A => w x.t.at_.1
  | 0x00B => w x.s.cycle
  | 0x00C => x.rd.gpri x.s.core
  | 0x00D => x.rd.cvm
  | 0x00E => x.rd.rng
  | 0x00F => x.rd.tvec
  | 0x011 => x.rd.budgetReg
  | 0x012 => x.rd.status
  | 0x013 => w x.feat
  | _ => 0

/-- The registers held per lane (R54). -/
def laneReg (n : Nat) : Bool := n = 0x000 || n = 0x010

/-- The name and the register number go together (R54, R240). -/
def sysOk (n : Nat) (d : Name) : Bool :=
  n < 0x14 && (match d with | .v _ => laneReg n | .s _ => !laneReg n | _ => true)

/-- MFS (R240). -/
def execMfs (f : FForm) (s : State) : Host.Outcome State Fault Refusal :=
  let n := f.b.immOf.toNat
  gangF 0xC0 f s (fun _ => sysOk n f.d) fun x =>
    if laneReg n then x.done x.s (x.put f.d f.z f.ty fun l => if n = 0 then l else x.rd.wb l)
    else x.doneS f.d (x.sysReg n)

/-- $cvm as a write leaves it: undefined ROUND codes keep the old one (R13, R58). -/
def cvmWrite (old v : DWord) : DWord :=
  BitVec.ofNat 64 ((List.range 8).foldl (fun a k =>
    let n := bits64 v (4 * k) 4
    let r := if n % 8 = 0 || n % 8 = 7 then bits64 old (4 * k) 3 else n % 8
    a + (n / 8 * 8 + r) * 2 ^ (4 * k)) 0)

/-- A system register written, field by field (R11, R13, R56 to R64). -/
def Group.writeSys (g : Group) (n : Nat) (v : DWord) : Group :=
  match n with
  | 0x00C => { g with pri := bits64 v 0 4 }
  | 0x00D => { g with cvm := cvmWrite g.cvm v }
  | 0x00E => { g with rng := if v = 0 then 1 else v }
  | 0x00F => { g with tvec := BitVec.ofNat 64 (bits64 v 2 52 * 4 + bits64 v 0 1) }
  | 0x012 => if bits64 v 0 1 = 1 then { g with divw := false } else g
  | _ => g

/-- MTS (R240). -/
def execMts (f : FForm) (s : State) : Host.Outcome State Fault Refusal :=
  let n := f.b.immOf.toNat
  gangF 0xC1 f s (fun _ => sysOk n f.a) fun x =>
    x.done x.s fun g => g.writeSys n (BitVec.ofNat 64 (x.usrc f.a .ui64 64))

/-! ### Traps -/

/-- TRAP (R241). -/
def execTrap (f : FForm) (s : State) : Host.Outcome State Fault Refusal :=
  let n := f.b.immOf.toNat
  gangF 0xC2 f s (fun _ => n = 0x23 || n ≥ 0x100) fun x => x.trap x.s n 0 x.c.pc.toNat fun _ => x.next

/-- BKPT (R241). -/
def execBkpt (f : FForm) (s : State) : Host.Outcome State Fault Refusal :=
  gangF 0xC7 f s free fun x => x.trap x.s trpBreakpoint f.b.immOf.toNat x.c.pc.toNat fun _ => x.next

/-- Some lane would go to an address that is no multiple of 4 (R89). -/
def Group.oddPc (g : Group) (m : Word) (pc : Lane → DWord) : Bool :=
  (lanesOf m).any fun i => match g.lane? i with | some l => !l.exited && (pc l).toNat % 4 != 0 | none => false

/-- TRET (R241); a resume PC that a loaded record made odd faults here (R89). -/
def execTret (f : FForm) (s : State) : Host.Outcome State Fault Refusal :=
  gangF 0xC3 f s free fun x =>
    if !x.g.intrap then x.fault x.s fltOperand
    else if x.g.oddPc x.g.trapping Lane.trapPc then x.fault x.s fltAlign
    else x.s.returnTrap x.c.g

/-- UIRET (R241, R366), with TRET's check (R89). -/
def execUiret (f : FForm) (s : State) : Host.Outcome State Fault Refusal :=
  gangF 0xC6 f s free fun x =>
    if x.c.lanes &&& x.g.uigang != x.c.lanes then x.fault x.s fltOperand
    else if x.g.oddPc x.c.lanes Lane.uiPc then x.fault x.s fltAlign
    else x.jump x.s (fun i => match x.g.lane? i with | some l => l.uiPc | none => 0) fun g =>
      { g with uigang := g.uigang &&& ~~~x.c.lanes }

/-! ### Spilling -/

/-- The 64 lines of a segment's spill area (R242). -/
def Gx.segWants (x : Gx) (va n : Nat) (need : Need) : List Want :=
  (List.range 64).map fun (k : Nat) =>
    { lane := x.low, va := (va + 8192 * n + 128 * k) % 2 ^ 64, size := 128, need := need,
      halves := if need == .r then some false else none, whole := true }

/-- SPILL (R242): its 64 lines fill the store buffer, so they wait until it is empty. -/
def execSpill (f : FForm) (s : State) : Host.Outcome State Fault Refusal :=
  gangF 0xC4 f s free fun x =>
    let va := x.usrc f.a .ui64 64
    if va % 128 != 0 then x.fault x.s fltAlign 0xFF va
    else if (lanesOf x.g.live).any (fun l => 64 * (x.g.sbot + 1) > x.g.wb l) then x.fault x.s fltOperand
    else x.memGo (x.segWants va x.g.sbot .w) fun ls =>
      let seg := x.g.segment x.g.sbot
      match x.storeAll x.s 0 (ls.zipIdx.map fun (p : (Want × Leaf) × Nat) => (p.1.1, p.1.2, (seg.drop (128 * p.2)).take 128)) with
      | none => x.stall x.s0
      | some t => x.done t fun g => { g with sbot := g.sbot + 1, nseg := g.nseg - 1 }.dropV

/-- FILL (R242). -/
def execFill (f : FForm) (s : State) : Host.Outcome State Fault Refusal :=
  gangF 0xC5 f s free fun x =>
    let va := x.usrc f.a .ui64 64
    if va % 128 != 0 then x.fault x.s fltAlign 0xFF va
    else if x.g.sbot = 0 || x.g.nseg ≥ x.g.bseg + x.g.hseg then x.fault x.s fltOperand
    else
      let n := x.g.sbot - 1
      x.memGo (x.segWants va n .r) fun ls =>
        let bs := ls.map fun p => x.loadBytes x.s p.2 128
        let word := fun (p l : Nat) => BitVec.ofNat 32 (leNat (((bs.getD p []).drop (4 * l)).take 4))
        let t := x.done x.s fun g =>
          { g with
            sbot := n, nseg := g.nseg + 1
            vregs := ssetAll g.vregs ((List.range 64).flatMap fun p => (List.range 32).map fun l =>
              (32 * (64 * n + p) + l, word p l)) }
        x.touched t 0 ls false

/-! ### Privileged instructions -/

/-- The pages of memory that a tile operation has yet to access: those of a store (R224). -/
def TileOp.leaves : TileOp → List Leaf
  | .store cells _ _ _ _ => cells.map Prod.snd
  | _ => []

/-- An agent's access is under way: its group has not ended. -/
def State.alive (s : State) : Agent → Bool
  | .lane r _ => (s.grp? r).any fun g => !g.ended
  | _ => true

/-- The ATS pages of a context's accesses that used a translation and are not over, none for one of the device: copies, tile
stores, segments that have issued, accesses whose host halves are on their way (R297, R353). -/
def State.pagesInUse (s : State) (c : Nat) : List (Option Nat) :=
  let mine := s.teams.filter fun p => p.2.ctx == c
  (mine.flatMap fun p => p.2.groups.flatMap fun g => (g.flight.filterMap Copy.src).map Leaf.ats) ++
  (s.tileJobs.flatMap fun j => if mine.any (fun p => p.1 == j.team) then j.op.leaves.map Leaf.ats else []) ++
  (s.chains.flatMap fun p => match p.2.job with
    | some j => if p.2.ctx == c then j.pages.map fun q => q.2.2.ats else []
    | none => []) ++
  (s.coh.halfReqs.flatMap fun q => (q.pages.filter fun p => p.1 == c).map fun p => some p.2) ++
  match s.ctx? c with
  | some x => (x.inUse.filter fun u => s.alive u.1).map fun u => some u.2.page
  | none => []

/-- Such accesses of a context are under way. -/
def State.translating (s : State) (c : Nat) : Bool := !(s.pagesInUse c).isEmpty

/-- TLBI (R243): it drops cached translations and waits for the accesses that used them. -/
def execTlbi (f : FForm) (s : State) : Host.Outcome State Fault Refusal :=
  gangF 0xC8 f s free fun x =>
    let b := match f.b with | .imm i => i.toNat | b => x.usrcB b .ui64 64
    let page := x.usrc f.a .ui64 64 / 4096
    let drops := fun (n : Nat) (c : Ctx) => match f.fn with
      | 0 => n = x.t.ctx || (match x.s.ctx? x.t.ctx with | some d => c.pasid = d.pasid | none => false)
      | 1 => c.pasid = b
      | _ => true
    if f.fn = 1 && b ≥ 2 ^ 20 then x.fault x.s fltOperand
    else
      let t : State := { x.s with
        ctxs := x.s.ctxs.map fun p =>
          if drops p.1 p.2 then (p.1, { p.2 with ats := p.2.ats.filter fun a => f.fn = 0 && a.page != page }) else p }
      if x.s.ctxs.any (fun p => drops p.1 p.2 && x.s.translating p.1) then x.stall t else x.done t id

/-- The checks that CTXS and CTXR share: one gang and an aligned area (R243). -/
def Gx.areaOk (x : Gx) (va : Nat) : Bool := x.g.live = x.c.lanes && va % 4096 = 0

/-- Stores of an instruction have been made: host halves and lines change as their pages have it (R255, R282, R372). -/
def Gx.wroteAll (x : Gx) (s : State) (xf : Nat) (ls : List (Want × Leaf)) : State :=
  let hs := (ls.flatMap fun p => (halvesOf p.2.pa p.1.size).map fun h => (h, (policyOf xf p.2 true).atHome)).eraseDups
  x.touched (hs.foldl (fun s q => if q.2 then s.dropHalves [q.1] else s.dirtyHalves [q.1]) s) xf ls true

/-- The 8-byte pieces of an area. -/
def Gx.areaWants (x : Gx) (va n : Nat) (need : Need) : List Want :=
  (List.range (n / 8)).map fun k =>
    { lane := x.low, va := va + 8 * k, size := 8, need := need, halves := some (need == .w), whole := true }

/-- CTXS (R243, R370): the PCs it saves are those after it. -/
def execCtxs (f : FForm) (s : State) : Host.Outcome State Fault Refusal :=
  gangF 0xC9 f s free fun x =>
    let va := x.usrc f.a .ui64 64
    if !x.areaOk va then x.fault x.s fltOperand
    else x.memGo (x.areaWants va (65536 + 8192 * x.g.nseg) .w) fun ls => x.inPlace ls fun t =>
      match t.grp? x.c.g with
      | none => x.s
      | some g =>
        if !g.wcbuf.isEmpty then
          (match t.drainMany x.c.g true g.wcbuf.length with | .done u => x.stall u | .wait u => x.stall u)
        else
          let bytes := g.record x.t.kern x.s.core false fun i l => if x.c.lanes.getLsbD i then x.next else l.pc
          let ws := ls.zipIdx.map fun (p : (Want × Leaf) × Nat) => (p.1.2, (bytes.drop (8 * p.2)).take 8)
          x.done (x.wroteAll (t.storeNow (t.acc x.t) ws) 0 ls) id

/-- CTXR (R243, R370): stores that the group has buffered are performed first. It is a transfer to the record's PCs, so that one
of a lane that has not exited that is no multiple of 4 is FLT_ALIGN (R89, log 66). -/
def execCtxr (f : FForm) (s : State) : Host.Outcome State Fault Refusal :=
  gangF 0xCA f s free fun x =>
    let va := x.usrc f.a .ui64 64
    if !x.areaOk va then x.fault x.s fltOperand
    else x.memGo (x.areaWants va 64 .r) fun hs =>
      let head := hs.flatMap fun p => x.loadBytes x.s p.2 8
      let rh := fun (o n : Nat) => leNat ((head.drop o).take n)
      if !recordFits x.t.kern rh then x.fault x.s fltOperand
      else x.release true fun t =>
        let y := { x with s := t, g := (t.grp? x.c.g).getD x.g }
        y.memGo (x.areaWants va (65536 + 8192 * (rh 0 8 / 2 ^ 48 % 16)) .r) fun ls =>
          let bs := ls.flatMap fun p => y.loadBytes t p.2 8
          let rd := fun (o n : Nat) => leNat ((bs.drop o).take n)
          if oddRecord rd then y.fault t fltAlign else
          let paOf := fun (a : Nat) => match t.translate x.t.ctx (.lane x.c.g x.low) a .any with
            | .ok l => some (l.pa / 128)
            | _ => none
          t.modGrp x.c.g fun g => g.ofRecord x.t.kern rd paOf

/-- HALT (R243): the lanes stand after it, and the group stops with a halt notice. -/
def execHalt (f : FForm) (s : State) : Host.Outcome State Fault Refusal :=
  gangF 0xCB f s free fun x => (x.done x.s id).stopGroup x.c.g 0 0 0xFF x.c.pc.toNat 0 .halted

end Sys2Proof.Machine
end

