-- ==== Sys2Proof/Machine/Gaffer.lean ====
section
/-! DEFINITION. The Gaffer: service queues, call records, sockets, lent pages, ports (R403 to R409). -/

namespace Sys2Proof.Machine

open Sys2Proof

/-! ### Service queues -/

/-- BAR0 offset of a service queue's registers (R403). -/
def svcBlock (q : Nat) : Nat := 0x300000 + 0x100 * q

/-- CTX of SQCTL (R403). -/
def State.svcCtx (s : State) (q : Nat) : Nat := bits64 (s.reg (svcBlock q + 8) 0) 32 10

/-- Virtual address of record k of a queue's ring (R403). -/
def State.recordAt (s : State) (q k : Nat) : Nat :=
  let r := s.reg (svcBlock q) 0
  bits64 r 12 42 * 4096 + 64 * (k % 2 ^ bits64 r 0 5)

def State.modSvc (s : State) (q : Nat) (f : SvcQueue → SvcQueue) : State := { s with svc := amod s.svc q f }

/-- A queue that starts to serve (R403); SQSTAT.DETAIL keeps the cause of the last stop. -/
def SvcQueue.start (detail : Nat) : SvcQueue := { SvcQueue.off with on := true, detail := detail }

/-- A queue whose context a warm reset has ended: it is off, and its registers stay (R12, R403). -/
def SvcQueue.ended (x : SvcQueue) : SvcQueue := { x with on := false, stopped := false, calls := [], lastRead := 0, closing := false }

/-- SERVICE_QUEUE_ENABLE (R403, R412, R414): a thread out of service takes no queue. -/
def execServiceQueueEnable (queue : Nat) (s : State) : Host.Outcome State Fault Refusal :=
  if queue ≥ 64 || ((aget s.svc queue).map SvcQueue.on).getD false || s.outOfService (gafferPath queue) then .next s
  else .next ({ s with svc := aset s.svc queue (SvcQueue.start (((aget s.svc queue).map SvcQueue.detail).getD 0)) }.setReg (svcBlock queue + 8)
    (s.reg (svcBlock queue + 8) 0 ||| 1))

/-- SERVICE_QUEUE_DISABLE (R403, R406): untaken records are abandoned; it takes effect once every taken call has completed.
SQHEAD and SQTAIL stay until the queue is enabled again (R12). -/
def execServiceQueueDisable (queue : Nat) (s : State) : Host.Outcome State Fault Refusal :=
  match aget s.svc queue with
  | none => .next s
  | some x =>
    if !x.on then .next s
    else if x.calls.isEmpty then
      .next ((s.modSvc queue fun x => { x with on := false, closing := false, stopped := false }).setReg
        (svcBlock queue + 8) (s.reg (svcBlock queue + 8) 0 &&& ~~~1#64))
    else .next (s.modSvc queue fun x => { x with closing := true })

/-- NOTIFY (R404): a context's store to its queue's notify register. -/
def execNotify (queue ctx : Nat) (value : DWord) (s : State) : Host.Outcome State Fault Refusal :=
  .next (s.notify queue (some ctx) value.toNat)

/-- RECORD_REREAD (R404): a record is read afresh at every step that looks for it; the thread notes when it last looked. -/
def execRecordReread (queue : Nat) (s : State) : Host.Outcome State Fault Refusal :=
  match aget s.svc queue with
  | none => .next s
  | some x =>
    if x.on && !x.stopped && x.head < x.tail && s.cycle ≥ x.lastRead + 1024 then
      .next (s.modSvc queue fun x => { x with lastRead := s.cycle })
    else .next s

/-- SQSTAT (R403): a thread that only waits for the network sleeps. -/
def SvcQueue.stat (x : SvcQueue) : Nat :=
  (if x.stopped then 3 else if !x.on then 0 else if x.head < x.tail then 2 else 1) * 2 ^ 16 + x.detail

/-- The queue stops on a record (R406). -/
def State.stopSvc (s : State) (q num : Nat) : State :=
  (s.modSvc q fun x => { x with stopped := true, detail := num % 2 ^ 16 }).record
    { code := fltEngine, detail := 0x0130, ctx := s.svcCtx q, qid := q, pc := s.recordAt q num, die := 8, unit := 0x40 + q }

/-! ### Call records -/

/-- Fields of a call record (R405). -/
structure Rec where
  b : List Byte
  deriving DecidableEq, Repr

def Rec.at_ (r : Rec) (o n : Nat) : Nat := leNat ((r.b.drop o).take n)
def Rec.op (r : Rec) : Nat := r.at_ 0 1
def Rec.lend (r : Rec) : Bool := (r.at_ 1 1).testBit 0
def Rec.sock (r : Rec) : Nat := r.at_ 4 4
def Rec.seq (r : Rec) : Nat := r.at_ 8 8
def Rec.buf (r : Rec) : Nat := r.at_ 0x10 8
def Rec.len (r : Rec) : Nat := r.at_ 0x18 8
def Rec.arg (r : Rec) : Nat := r.at_ 0x20 8
def Rec.cword (r : Rec) : Nat := r.at_ 0x28 8
def Rec.rword (r : Rec) : Nat := r.at_ 0x30 8

/-- A record that R405 and R406 accept, but for its words. -/
def Rec.ok (r : Rec) : Bool :=
  1 ≤ r.op && r.op ≤ 0x0B && r.at_ 1 1 < 2 && r.at_ 2 2 = 0 && r.len ≤ 2 ^ 32 && r.cword % 8 = 0 && r.rword % 8 = 0 &&
  (r.lend || r.rword = 0)

/-- A word that the Gaffer can write, of scope 3 or 4 where `narrow` asks for it (R405). -/
def State.wordOk (s : State) (c va : Nat) (narrow : Bool) : Bool :=
  match s.reach c .part va .w 8 with
  | .ok l => !narrow || l.scope = 3 || l.scope = 4
  | .fault _ => false
  | .miss => true

/-- The record at the head of a queue as its thread may take it (R403, R404, R406): nothing yet, the state that a wait or a
stop leaves, or the record. -/
inductive Taken
  | none | finished (s : State) | record (r : Rec)

def State.headRecord (s : State) (q : Nat) : Taken :=
  match aget s.svc q with
  | none => .none
  | some x =>
    let c := s.svcCtx q
    let va := s.recordAt q x.head
    if !x.on || x.stopped || x.closing || x.head ≥ x.tail || s.fenced (gafferPath q) then .none
    else match s.partWait c .part [(va, 64, true)] with
      | some u => .finished u
      | none =>
        match s.partLeaf c .part va true 64 with
        | .ok _ =>
          let r : Rec := { b := s.partRead c .part va 64 }
          if r.seq != x.head + 1 then .none
          else if !r.ok then .finished (s.stopSvc q x.head)
          else match s.partWait c .part ((r.cword, 8, true) :: if r.lend then [(r.rword, 8, true)] else []) with
            | some u => .finished u
            | none =>
              if !s.wordOk c r.cword true || (r.lend && !s.wordOk c r.rword false) then .finished (s.stopSvc q x.head)
              else .record r
        | _ => .finished (s.stopSvc q x.head)

/-- What a call comes to when it is taken: a wait, or a state and its result where that is known already. -/
inductive Called
  | wait (s : State) | call (s : State) (result : Option Int)

/-- A call of one operation: the record is taken (R403). -/
def onRecord (q op : Nat) (s : State) (f : Nat → Nat → Rec → Called) : Host.Outcome State Fault Refusal :=
  match s.headRecord q with
  | .none => .next s
  | .finished u => .next u
  | .record r =>
    if r.op != op then .next s
    else
      let num := r.seq - 1
      match f (s.svcCtx q) num r with
      | .wait u => .next u
      | .call u res => .next (u.modSvc q fun x =>
          { x with head := x.head + 1, calls := x.calls ++ [{ num := num, bytes := r.b, result := res }] })

/-! ### Sockets -/

/-- A socket of a context (R406). -/
def State.sock? (s : State) (c id : Nat) : Option Socket := s.sockets.find? fun k => k.ctx == c && k.id == id && !k.closed

/-- A socket that a call was made on, closed since or not (R408). -/
def State.callSock (s : State) (c id : Nat) : Option Socket := s.sockets.find? fun k => k.ctx == c && k.id == id

def State.modSock (s : State) (c id : Nat) (f : Socket → Socket) : State :=
  { s with sockets := s.sockets.map fun k => if k.ctx == c && k.id == id then f k else k }

/-- A socket id that is free, from a free value on (R406 names none; log 13). -/
def State.newSockId (s : State) : Nat := freeStopId (s.sockets.map Socket.id) s.sockets.length (Config.socketId s.free).toNat

/-- A new socket. -/
def State.addSock (s : State) (c kind port : Nat) (peer : List Byte) : Nat × State :=
  let id := s.newSockId
  (id, { s.bump with sockets := s.sockets ++ [{ id := id, ctx := c, kind := kind, port := port, bound := [], peer := peer, backlog := 0, closed := false }] })

/-- SOCKET (R406). -/
def execSocket (queue : Nat) (s : State) : Host.Outcome State Fault Refusal :=
  onRecord queue 1 s fun c _ r =>
    let kind := r.arg % 4
    if kind = 3 || r.arg / 4 % 64 != 0 || r.arg / 2 ^ 11 != 0 || r.lend then .call s (some (-1))
    else let p := s.addSock c kind (r.arg / 256 % 8) []; .call p.2 (some p.1)

/-- An operation on a socket: −2 where the context has none of that id, and −1 where a call lends that cannot (R406). -/
def withSock (s : State) (c : Nat) (r : Rec) (f : Socket → Called) : Called :=
  if r.lend && !(r.op = 6 || r.op = 7 || r.op = 9 || r.op = 10) then .call s (some (-1))
  else match s.sock? c r.sock with
    | none => .call s (some (-2))
    | some k => f k

/-- A buffer that the Gaffer can reach (R406): a wait, the failure of a translation, or what the call does then. -/
def withBuffer (s : State) (c va n : Nat) (write : Bool) (f : Called) : Called :=
  match s.partWait c .part (bufferParts va n write) with
  | some u => .wait u
  | none =>
    if (s.partFail c .part (bufferParts va n write)).isSome then .call s (some (-7)) else f

/-- The bytes of a buffer. -/
def State.bufferBytes (s : State) (c va n : Nat) : List Byte :=
  (List.range n).map fun i => match s.translate c .part (va + i) .r with
    | .ok l => s.leafByte { ctx := c } l 0
    | _ => 0

/-- The address record that BUF names (R405): −7 where it cannot be read, −1 where it is no address. -/
def withAddress (s : State) (c : Nat) (r : Rec) (f : List Byte → Called) : Called :=
  withBuffer s c r.buf 32 false (
    let b := s.bufferBytes c r.buf 32
    if (leNat (b.take 2) != 4 && leNat (b.take 2) != 6) || leNat (b.drop 28) != 0 then .call s (some (-1)) else f b)

/-- BIND (R406). -/
def execBind (queue : Nat) (s : State) : Host.Outcome State Fault Refusal :=
  onRecord queue 2 s fun c _ r => withSock s c r fun _ => withAddress s c r fun b =>
    .call (s.modSock c r.sock fun k => { k with bound := b }) (some 0)

/-- CONNECT (R406): a datagram socket has its peer at once, a connection waits for the network. -/
def execConnect (queue : Nat) (s : State) : Host.Outcome State Fault Refusal :=
  onRecord queue 3 s fun c _ r => withSock s c r fun k => withAddress s c r fun b =>
    .call (s.modSock c r.sock fun k => { k with peer := b }) (if k.kind = 1 then some 0 else none)

/-- LISTEN (R406). -/
def execListen (queue : Nat) (s : State) : Host.Outcome State Fault Refusal :=
  onRecord queue 4 s fun c _ r => withSock s c r fun _ =>
    if r.arg = 0 || r.arg > 1024 then .call s (some (-1))
    else .call (s.modSock c r.sock fun k => { k with backlog := r.arg }) (some 0)

/-- ACCEPT (R406): the new socket is made when the call completes. -/
def execAcceptConn (queue : Nat) (s : State) : Host.Outcome State Fault Refusal :=
  onRecord queue 5 s fun c _ r => withSock s c r fun _ => .call s none

/-- Calls on a socket that wait for the network. -/
def State.callsOn (s : State) (c id : Nat) : Bool :=
  s.svc.any fun p => s.svcCtx p.1 == c && p.2.calls.any fun k => k.result.isNone && Rec.sock { b := k.bytes } = id

/-- Closed sockets that no call waits on any more are gone. -/
def State.dropClosed (s : State) : State := { s with sockets := s.sockets.filter fun k => !k.closed || s.callsOn k.ctx k.id }

/-- SOCKET_CLOSE (R406, R408): the calls made on the socket before go on, and its port may still end them. -/
def execSocketClose (queue : Nat) (s : State) : Host.Outcome State Fault Refusal :=
  onRecord queue 8 s fun c _ r => withSock s c r fun _ =>
    .call (s.modSock c r.sock fun k => { k with closed := true }).dropClosed (some 0)

/-! ### Buffers and lending -/

/-- The level of the leaf that maps an address, and where its entry lies (R248). -/
def State.leafLevel (s : State) (va : Nat) : Nat → Nat → Option (Nat × Nat)
  | level, table =>
    let a := table + 8 * field va (12 + 9 * level) (if level = 4 then 6 else 9)
    let e := s.natAt a 8
    if field e 0 1 = 0 then none
    else if field e 1 1 = 1 then some (level, a)
    else match level with
      | 0 => none
      | n + 1 => s.leafLevel va n (field e 12 40 * 4096)

/-- The 16 entries of a C64 run agree (R249, R250): equal attributes, consecutive frames. -/
def State.runAgrees (s : State) (entry : Nat) : Bool :=
  let a := entry / 128 * 128
  field (s.natAt entry 8) 55 1 = 1 && (List.range 16).all fun i => s.natAt (a + 8 * i) 8 = s.natAt a 8 + 4096 * i

/-- The whole page that holds an address, as its first 4 KiB page and its length in them (R249, R407). -/
def State.pageSpan (s : State) (c va : Nat) : Nat × Nat :=
  match (s.ctx? c).bind fun x => s.leafLevel va 4 x.ptroot with
  | some (level, a) =>
    let n := if level = 0 && s.runAgrees a then 16 else 512 ^ level
    (va / 4096 / n * n, n)
  | none => (va / 4096, 1)

/-- Pages are lent (R407): their cached translations go, as in an invalidation (R353). -/
def State.lend (s : State) (d : Lent) : State :=
  { s with lent := s.lent ++ [d] }.modCtx d.ctx fun x =>
    { x with ats := x.ats.filter fun a => !(d.spans.any fun p => p.1 ≤ a.page && a.page < p.1 + p.2) }

/-- A call that moves a buffer (R406, R407): with LEND its pages are lent when it is taken, once no access of the context
that used a translation is under way. -/
def withLoan (s : State) (q c num : Nat) (r : Rec) (write : Bool) (f : State → Called) : Called :=
  if !r.lend then withBuffer s c r.buf r.len write (f s)
  else if r.buf % 4096 != 0 || r.len % 4096 != 0 then .call s (some (-1))
  else if (pagesOf r.buf r.len).any (s.lentPage c) then .call s (some (-8))
  else withBuffer s c r.buf r.len write (
    if s.translating c then .wait s
    else
      let spans := ((pagesOf r.buf r.len).map fun p => s.pageSpan c (4096 * p)).eraseDups
      f (s.lend { ctx := c, spans := spans, queue := q, num := num, rword := some r.rword, recv := write, finished := false }))

/-- SEND (R406, R407): the bytes are those of the buffer as the call is taken. -/
def execSend (queue : Nat) (s : State) : Host.Outcome State Fault Refusal :=
  onRecord queue 6 s fun c num r => withSock s c r fun k => withLoan s queue c num r false fun t =>
    .call (t.emit (.net queue k 0 (s.bufferBytes c r.buf r.len))) none

/-- RECV (R406, R407). -/
def execRecv (queue : Nat) (s : State) : Host.Outcome State Fault Refusal :=
  onRecord queue 7 s fun c num r => withSock s c r fun _ => withLoan s queue c num r true fun t => .call t none

/-- RDWRITE (R406, R407): only a reliable connection carries it, to the remote address in ARG. -/
def execRdwrite (queue : Nat) (s : State) : Host.Outcome State Fault Refusal :=
  onRecord queue 9 s fun c num r => withSock s c r fun k =>
    if k.kind != 2 then .call s (some (-2))
    else withLoan s queue c num r false fun t => .call (t.emit (.net queue k r.arg (s.bufferBytes c r.buf r.len))) none

/-- RDREAD (R406, R407). -/
def execRdread (queue : Nat) (s : State) : Host.Outcome State Fault Refusal :=
  onRecord queue 10 s fun c num r => withSock s c r fun k =>
    if k.kind != 2 then .call s (some (-2)) else withLoan s queue c num r true fun t => .call t none

/-! ### Ports -/

/-- PORTCFG of a port (R409). -/
def State.portCfg (s : State) (p : Nat) : DWord := s.reg (0x308000 + 0x40 * p) 0x10005DC#64

/-- PORTQ (R406, R409). -/
def execPortq (queue : Nat) (s : State) : Host.Outcome State Fault Refusal :=
  onRecord queue 11 s fun _ _ r =>
    if r.arg > 7 || r.lend then .call s (some (-1))
    else
      let lanes := (aget s.fleet.ports r.arg).getD 0
      let mtu := bits64 (s.portCfg r.arg) 0 14
      .call s (some (((if lanes = 0 then 0 else 1) + lanes * 2 ^ 8 + mtu * 2 ^ 32 : Nat) : Int))

/-- Taken calls end with a result. -/
def State.failCalls (s : State) (f : Nat → Call → Bool) (code : Int) : State :=
  { s with svc := s.svc.map fun (p : Nat × SvcQueue) => (p.1, { p.2 with
      calls := p.2.calls.map fun (k : Call) => if f p.1 k then { k with result := some code } else k }) }

/-- A call of a queue goes over a port: the port of its socket. -/
def State.callPort (s : State) (q : Nat) (k : Call) : Option Socket := s.callSock (s.svcCtx q) (Rec.sock { b := k.bytes })

/-- A port goes down (R408): the calls of its TCP and RC sockets that wait for the network end with −6. -/
def State.portDown (s : State) (port : Nat) : State :=
  let onPort := fun (q : Nat) (k : Call) => k.result.isNone && (s.callPort q k).any fun x => x.port = port && x.kind != 1
  { s.failCalls onPort (-6) with fleet := { s.fleet with ports := adel s.fleet.ports port } }.dropClosed

/-- PORT_DOWN (R408). -/
def execPortDown (port : Nat) (s : State) : Host.Outcome State Fault Refusal := .next (s.portDown port)

/-- The lanes of a port that are fenced (R410, R413). -/
def State.portFenced (s : State) (port : Nat) : Nat :=
  ((List.range 8).filter fun l => s.fenced (unitPath 8 0x14 port 0x0C l)).length

/-- PORT_LINK_UP (R408, R414, R422): a link comes up on lanes that are not fenced. -/
def execPortLinkUp (port lanes : Nat) (s : State) : Host.Outcome State Fault Refusal :=
  if port ≥ 8 || lanes = 0 || lanes + s.portFenced port > 8 then .next s
  else .next { s with fleet := { s.fleet with ports := aset s.fleet.ports port lanes } }

/-! ### Completion -/

/-- The pages of a buffer that received bytes go to still translate and have W; the context may have lent them (R406, R407). -/
def State.bufferTakes (s : State) (c va n : Nat) : Bool :=
  (bufferParts va n true).all fun p => match s.reach c .part p.1 .any p.2.1 with
    | .ok l => l.w
    | _ => false

/-- Received bytes written to the buffer of a call. -/
def State.fillBuffer (s : State) (c va : Nat) (bs : List Byte) : State :=
  (bufferParts va bs.length true).foldl (fun s p => match s.translate c .part p.1 .any with
    | .ok l => s.partStore c l ((bs.drop (p.1 - va)).take p.2.1)
    | _ => s) s

/-- The result of a call whose network part has ended with an outcome and, for what receives, data (R406). -/
def State.callEffect (s : State) (c : Nat) (r : Rec) (outcome : Int) (data : List Byte) : Int × State :=
  if outcome < 0 then (outcome, s)
  else if (r.op = 7 || r.op = 10) && !s.bufferTakes c r.buf (data.take r.len).length then (-7, s)
  else match r.op with
    | 5 =>
      let k := (s.callSock c r.sock).map fun k => (k.kind, k.port)
      let p := s.addSock c (k.getD (0, 0)).1 (k.getD (0, 0)).2 data
      (p.1, p.2)
    | 6 => (min outcome r.len, s)
    | 7 => ((data.take r.len).length, s.fillBuffer c r.buf (data.take r.len))
    | 9 => (r.len, s)
    | 10 => (r.len, s.fillBuffer c r.buf (data.take r.len))
    | _ => (0, s)

/-- What the bytes that a call has received wait for. -/
def State.fillWait (s : State) (c : Nat) (k : Call) (outcome : Int) (n : Nat) : Option State :=
  let r : Rec := { b := k.bytes }
  if k.result.isNone && 0 ≤ outcome && (r.op = 7 || r.op = 10) then
    s.partWaitAs (fun _ => .any) c .part (bufferParts r.buf (Nat.min n r.len) true)
  else none

/-- CALL_COMPLETION (R406): the oldest call of the queue completes, with its own result or the network's outcome. RESULT is
written, then SEQ to CWORD; a word that cannot be written stops the queue. -/
def execCallCompletion (queue : Nat) (outcome : Int) (data : List Byte) (s : State) : Host.Outcome State Fault Refusal :=
  match aget s.svc queue with
  | none => .next s
  | some x => match x.calls with
    | [] => .next s
    | k :: rest =>
      let c := s.svcCtx queue
      let r : Rec := { b := k.bytes }
      let va := s.recordAt queue k.num
      match s.partWait c .part [(va + 0x38, 8, true), (r.cword, 8, true)], s.fillWait c k outcome data.length with
      | some u, _ => .next u
      | none, some u => .next u
      | none, none =>
        let e := match k.result with | some v => (v, s) | none => s.callEffect c r outcome data
        let done := fun (s : State) => { s with lent := s.lent.map fun (d : Lent) =>
          if d.queue == queue && d.num == k.num then { d with finished := true } else d }
        let t := done (e.2.modSvc queue fun x => { x with calls := rest }).dropClosed
        let u := t.partPut c .part (va + 0x38) 8 (BitVec.ofInt 64 e.1).toNat
        .next (if s.wordOk c r.cword true then u.partPut c .part r.cword 8 (k.num + 1) else u.stopSvc queue k.num)

/-- A loan whose pages come back as soon as its call is over: no peer has to acknowledge them (R407). -/
def Lent.free (d : Lent) : Bool := d.finished && (d.recv || d.rword.isNone)

/-- PAGE_RETURN (R407): pages of the queue are writable again, and SEQ goes to RWORD: those of a loan that no peer has to
acknowledge, else of the oldest whose peer has acknowledged every byte. A RWORD that cannot be written stops the queue (R406). -/
def execPageReturn (queue : Nat) (s : State) : Host.Outcome State Fault Refusal :=
  match (s.lent.findIdx? fun d => d.queue == queue && d.free).or (s.lent.findIdx? fun d => d.queue == queue && d.finished) with
  | none => .next s
  | some k => match s.lent[k]? with
    | none => .next s
    | some d => match d.rword with
      | none => .next { s with lent := dropAt s.lent k }
      | some w => match s.partWait d.ctx .part [(w, 8, true)] with
        | some u => .next u
        | none =>
          let t := { s with lent := dropAt s.lent k }
          .next (if s.wordOk d.ctx w false then t.partPut d.ctx .part w 8 (d.num + 1) else t.stopSvc queue d.num)

end Sys2Proof.Machine
end

