-- ==== Sys2Proof/Machine/Serving.lean ====
section
/-! DEFINITION. The logit filter, sampling, token messages, the sequence table and the prefix tree, as instructions reach
them (R232 to R239, R401, R402). -/

namespace Sys2Proof.Machine

open Sys2Proof

/-! ### The logit filter -/

/-- Virtual pages of a window, and of its result array (R232). -/
def ShapeRec.windowPages (r : ShapeRec) : List Nat :=
  ((List.range (r.dim 1)).flatMap fun i => pagesOf (r.addr [0, i]) (r.ty.size * r.dim 0)).eraseDups
def ShapeRec.resultPages (r : ShapeRec) : List Nat := pagesOf r.sbase (1024 * r.dim 1)

/-- K and the temperature of LGFA; none where they are out of range (R233). -/
def Gx.lgfParams (x : Gx) (f : FForm) : Option (Nat × Word) :=
  let p : Nat × Nat × Nat := match f.b with
    | .imm i => (i.toNat % 256, 0x3F800000, 0)
    | b => let v := x.usrcB b .ui64 64; (v % 256, v / 2 ^ 32, v / 256 % 2 ^ 24)
  if p.2.2 = 0 && 1 ≤ p.1 && p.1 ≤ 64 && p.2.1 ≤ 0x7F7FFFFF then some (p.1, BitVec.ofNat 32 p.2.1) else none

/-- The armed window of a slot. -/
def State.lgfOf (s : State) (c slot : Nat) : Option Lgf := s.lgfs.find? fun g => g.ctx == c && g.slot == slot

/-- Windows of a slot disarmed (R233). -/
def State.disarm (s : State) (c slot : Nat) : State := { s with lgfs := s.lgfs.filter fun g => !(g.ctx == c && g.slot == slot) }

/-- LGFA (R232, R233). -/
def execLgfa (f : FForm) (s : State) : Host.Outcome State Fault Refusal :=
  gangF 0xB8 f s free fun x =>
    if x.t.slot != 0 then x.heldHere
    else match x.s.handle x.t.ctx (x.usrc f.a .ui64 64 % 2 ^ 32) with
      | none => x.fault x.s fltStale
      | some (slot, r) =>
        match x.lgfParams f with
        | none => x.fault x.s fltOperand
        | some (k, temp) =>
          if r.flags / 2 % 2 = 0 || r.fmt != f.ty.code || r.rank != 2 then x.fault x.s fltOperand
          else
            let ps := r.windowPages
            let want := fun p => ({ lane := x.low, va := 4096 * p, size := 0, need := .any, halves := none, whole := true } : Want)
            x.memGo ((ps ++ r.resultPages).map want) fun ls =>
              match ls.find? fun p => p.2.pa ≥ Config.hbmEnd with
              | some p => x.fault x.s fltRange 0xFF p.1.va
              | none =>
                let g : Lgf := { ctx := x.t.ctx, slot := slot, rcd := r,
                                 pages := (ls.take ps.length).map fun p => (p.1.va / 4096, p.2.pa / 4096, p.2.mxa),
                                 k := k, temp := temp, rows := [] }
                let t := x.s.disarm x.t.ctx slot
                x.done { t with lgfs := t.lgfs ++ [g] } id

/-- The states of a row, by rising stack (R235). -/
def Lgf.row (g : Lgf) (r : Nat) : List LgfRow := (List.range 16).filterMap fun k => aget g.rows (16 * r + k)

/-- A row's states combined (R235). -/
def Lgf.combine (g : Lgf) (r : Nat) : LgfRow :=
  let rs := g.row r
  let big := rs.foldl (fun (m : Word) x => if (dec32 m).lt (dec32 x.max) then x.max else m) LgfRow.empty.max
  let sum := rs.foldl (fun (a : Word) x =>
    rnd32 (FV.add false (dec32 a) (FV.mul (dec32 x.sum) (expOr1 (FV.add false (dec32 x.max) (dec32 big).neg))))) 0
  { count := (rs.map LgfRow.count).sum, max := big, sum := if g.temp = 0 then 0 else sum, nan := rs.any LgfRow.nan
    list := ((rs.flatMap LgfRow.list).foldl (fun l e => rankIn e.1 e.2 l) []).take g.k }

/-- The bytes of a result record (R235): the header and its N entries. -/
def Lgf.result (g : Lgf) (r : Nat) : List Byte :=
  let c := g.combine r
  leBytes 4 c.count ++ leBytes 2 c.list.length ++ leBytes 2 g.k ++ leBytes 4 g.temp.toNat ++ leBytes 4 c.max.toNat ++
  leBytes 4 c.sum.toNat ++ leBytes 4 r ++ leBytes 4 (if c.nan then 1 else 0) ++ leBytes 36 0 ++
  c.list.flatMap fun e => leBytes 4 e.1 ++ leBytes 4 e.2.toNat

/-- LGFR (R235): the group's own stores to the window are absorbed first. -/
def execLgfr (f : FForm) (s : State) : Host.Outcome State Fault Refusal :=
  gangF 0xB9 f s free fun x =>
    match x.s.handle x.t.ctx (x.usrc f.a .ui64 64 % 2 ^ 32) with
    | none => x.fault x.s fltStale
    | some (slot, r) =>
      let row := x.srcBz x.low f.b .ui64 64
      if (x.s.lgfOf x.t.ctx slot).isNone then x.fault x.s fltOperand
      else if row ≥ r.dim 1 then x.fault x.s fltRange
      else
        let lines := match x.s.lgfOf x.t.ctx slot with
          | some g => g.pages.flatMap fun p => (List.range 32).map fun k => 32 * p.2.1 + k
          | none => []
        match x.s.drainLines x.c.g lines 80 with
        | .wait t => x.stall t
        | .done t =>
          match t.lgfOf x.t.ctx slot with
          | none => x.s
          | some g =>
            let bs := g.result row
            let piece := fun (i : Nat) =>
              ({ lane := x.low, va := wrapInt 64 (r.sbase + 1024 * row + 8 * i), size := 8, need := .w, halves := none,
                 whole := true } : Want)
            { x with s := t, s0 := t }.memGo ((List.range (bs.length / 8)).map piece) fun ls =>
              match x.storeAll t 0 (ls.zipIdx.map fun (p : (Want × Leaf) × Nat) => (p.1.1, p.1.2, (bs.drop (8 * p.2)).take 8)) with
              | none => x.stall t
              | some u => x.done u (x.putS f.d (BitVec.ofNat 64 (g.combine row).count))

/-! ### Sampling -/

/-- The number in [0, 2^24) that a seed gives (R236). -/
def sampBits (seed : DWord) : Nat :=
  let a := seed + 0x9E3779B97F4A7C15#64
  let b := (a ^^^ (a >>> 30)) * 0xBF58476D1CE4E5B9#64
  let c := (b ^^^ (b >>> 27)) * 0x94D049BB133111EB#64
  let d := c ^^^ (c >>> 31)
  bits64 d 40 24

/-- The cumulative weights of a shortlist (R236). -/
def sampCums (temp first : Word) : Word → List Word → List Word
  | _, [] => []
  | cum, x :: r =>
    let d := rnd32 ((dec32 (rnd32 (FV.add false (dec32 x) (dec32 first).neg))).div (dec32 temp))
    let c := rnd32 (FV.add false (dec32 cum) (dec32 (rnd32 (dec32 d).exp)))
    c :: sampCums temp first c r

/-- SAMP of one seed from a record's temperature and entries (R236). -/
def sampOf (temp : Word) (es : List (Word × Word)) (seed : DWord) : Word :=
  match es with
  | [] => 0xFFFFFFFF#32
  | e :: _ =>
    if temp = 0 then e.1
    else
      let cs := sampCums temp e.2 0 (es.map Prod.snd)
      let t := rnd32 (FV.mul (.fin false (sampBits seed) (-24) false) (dec32 (cs.getLast?.getD 0)))
      let i := (cs.findIdx? fun c => (dec32 t).lt (dec32 c)).getD (es.length - 1)
      ((es[i]?).map Prod.fst).getD 0

/-- The seed of a lane (R236). -/
def Gx.sampSeed (x : Gx) (f : FForm) (l : Nat) : DWord :=
  match f.b with
  | .reg (.s n) => x.uni n + BitVec.ofNat 64 l
  | b => BitVec.ofNat 64 (x.srcB l b .ui64 64)

/-- SAMP (R236): the header is read, and then its N entries. -/
def execSamp (f : FForm) (s : State) : Host.Outcome State Fault Refusal :=
  gangF 0xBA f s free fun x =>
    let va := x.usrc f.a .ui64 64
    let want := fun (o : Nat) =>
      ({ lane := x.low, va := wrapInt 64 (va + o), size := 8, need := .r, whole := true } : Want)
    if va % 8 != 0 then x.fault x.s fltAlign 0xFF va
    else x.memGo ((List.range 8).map fun i => want (8 * i)) fun hs =>
      let word := fun (i : Nat) => match hs[i]? with | some p => x.loadNat x.s p.2 8 | none => 0
      let n := word 0 / 2 ^ 32 % 2 ^ 16
      let temp := BitVec.ofNat 32 (word 1)
      x.memGo ((List.range n).map fun i => want (64 + 8 * i)) fun ls =>
        let es := ls.map fun p =>
          let v := x.loadNat x.s p.2 8
          (BitVec.ofNat 32 v, BitVec.ofNat 32 (v / 2 ^ 32))
        x.touched (x.done x.s (x.put f.d f.z f.ty fun l => (sampOf temp es (x.sampSeed f l)).toNat)) 0 (hs ++ ls) false

/-! ### Token messages -/

/-- SVCFG.RINGS as the number of dies in a ring (R381, R382). -/
def State.ringSize (s : State) : Nat := match (s.reg 0x7F1000 0).toNat % 4 with | 1 => 4 | 2 => 2 | _ => 8

/-- TOKS (R237, R384, R391). -/
def execToks (f : FForm) (s : State) : Host.Outcome State Fault Refusal :=
  gangF 0xBB f s free fun x =>
    let va := x.usrc f.a .ui64 64
    let die := x.t.at_.1
    let want := fun (i : Nat) => ({ lane := x.low, va := va + 8 * i, size := 8, need := .r, whole := true } : Want)
    if x.t.slot != 0 then x.heldHere
    else if va % 64 != 0 then x.fault x.s fltAlign 0xFF va
    else if (aget x.s.serving x.t.ctx).isNone then x.fault x.s fltOperand
    else x.memGo ((List.range 8).map want) fun ls =>
      let bs := ls.flatMap fun p => x.loadBytes x.s p.2 8
      let head := leNat (bs.take 8)
      let type := head % 256
      let dest := head / 256 % 8
      if type = 0 || type > 7 || head / 2 ^ 11 % 32 != 0 || head / 2 ^ 48 != 0 || dest / x.s.ringSize != die / x.s.ringSize then
        x.fault x.s fltOperand
      else x.releaseAcked false fun t =>
        if (t.sending.filter fun m => m.src == die && m.ctx == x.t.ctx).length ≥ 64 then x.stall t
        else x.touched (x.done { t with sending := t.sending ++ [{ src := die, dest := dest, ctx := x.t.ctx, bytes := bs }] } id) 0 ls false

/-- STATE codes (R386). -/
def SeqState.code : SeqState → Nat
  | .run => 1 | .moving => 2 | .done => 3 | .fenced => 4

/-- A die's entry for a sequence id (R386). -/
def State.seqAt (s : State) (die id : Nat) : Option SeqEntry := s.seqs.find? fun e => e.die == die && e.id == id

/-- SEQQ (R238). -/
def execSeqq (f : FForm) (s : State) : Host.Outcome State Fault Refusal :=
  uniF 0xBC f s fun x =>
    match x.s.seqAt x.t.at_.1 (x.srcBz x.low f.b .ui64 64 % 2 ^ 32) with
    | some e =>
      if e.ctx != x.t.ctx then BitVec.allOnes 64
      else match f.fn with
        | 0 => BitVec.ofNat 64 e.pos
        | 1 => BitVec.ofNat 64 e.state.code
        | 2 => e.seed
        | _ => BitVec.ofNat 64 e.mark
    | none => BitVec.allOnes 64

/-! ### The prefix tree -/

/-- Nodes of one tree (R239). -/
def State.tree (s : State) (die c : Nat) : List PfxNode := s.nodes.filter fun n => n.die == die && n.ctx == c

def State.node? (s : State) (die c id : Nat) : Option PfxNode := s.nodes.find? fun n => n.die == die && n.ctx == c && n.id == id

def State.modNode (s : State) (die c id : Nat) (f : PfxNode → PfxNode) : State :=
  { s with nodes := s.nodes.map fun n => if n.die == die && n.ctx == c && n.id == id then f n else n }

/-- The address of a node in its node array (R385, R401). -/
def nodeAddr (v : Serving) (die id : Nat) : Nat := v.nodes + die * 2 ^ 21 + 32 * id

/-- A node's 32 bytes (R401). -/
def PfxNode.bytes (n : PfxNode) : List Byte :=
  leBytes 8 n.kv.toNat ++ leBytes 4 n.parent ++ leBytes 4 n.refs ++ leBytes 4 n.depth ++ leBytes 4 1 ++ leBytes 8 n.last

/-- A node as the array shows it (R401). -/
def State.showNode (s : State) (v : Serving) (die c id : Nat) : State :=
  match s.node? die c id with
  | some n => s.partWrite c .part (nodeAddr v die id) n.bytes
  | none => s

/-- A node touched by a lookup or an insertion: one more reference, and recent (R239, R401). -/
def State.touchNode (s : State) (v : Serving) (die c id : Nat) : State :=
  (s.modNode die c id fun n => { n with refs := n.refs + 1, last := s.cycle }).showNode v die c id

/-- The longest path of a string's blocks from a node on (R239). -/
def pathFrom (t : List PfxNode) : Nat → List (List Word) → List PfxNode
  | _, [] => []
  | p, b :: r => match t.find? fun n => n.parent == p && n.toks == b with
    | some n => n :: pathFrom t n.id r
    | none => []

/-- A token string cut into blocks of PT; a last part that is short falls away (R239). -/
def blocksOf (pt : Nat) (toks : List Word) : Nat → List (List Word)
  | 0 => []
  | n + 1 => toks.take pt :: blocksOf pt (toks.drop pt) n

/-- PUB and CONS of a die's eviction ring (R402). -/
def evPub (v : Serving) (die : Nat) : Nat := v.icnt + 0x400 + 128 * die

/-- The eviction ring has no room (R402). -/
def State.evFull (s : State) (v : Serving) (die c : Nat) : Bool :=
  let pub := s.partNat c .part (evPub v die) 8
  let cons := s.partNat c .part (evPub v die + 64) 8
  (pub + 2 ^ 64 - cons) % 2 ^ 64 ≥ 2 ^ v.log2ev

/-- The least-recent leaf with count 0; the lower id on a tie (R239). -/
def State.leafOut (s : State) (die c : Nat) : Option PfxNode :=
  let t := s.tree die c
  (t.filter fun n => n.refs = 0 && !(t.any fun m => m.parent == n.id)).foldl (fun b n => match b with
    | some m => if n.last < m.last || (n.last = m.last && n.id < m.id) then some n else some m
    | none => some n) none

/-- A leaf evicted (R402). -/
def State.evictLeaf (s : State) (v : Serving) (n : PfxNode) : State :=
  let pub := s.partNat n.ctx .part (evPub v n.die) 8
  let t := { s with nodes := s.nodes.filter (· != n) }
  let u := t.partPut n.ctx .part (nodeAddr v n.die n.id + 0x14) 4 0
  let w := u.partPut n.ctx .part (v.evring + n.die * 2 ^ (v.log2ev + 3) + 8 * (pub % 2 ^ v.log2ev)) 8 n.kv.toNat
  w.partPut n.ctx .part (evPub v n.die) 8 ((pub + 1) % 2 ^ 64)

/-- Room for one node: a free id, after an eviction where the pool is full (R239, R402). -/
def State.roomNode (s : State) (v : Serving) (die c : Nat) : Option (Nat × State) :=
  let idFree := fun (s : State) => (List.range v.nnode).findSome? fun k => if (s.node? die c (k + 1)).isNone then some (k + 1) else none
  match idFree s with
  | some id => some (id, s)
  | none =>
    if s.evFull v die c then none
    else match s.leafOut die c with
      | some n => let t := s.evictLeaf v n; (idFree t).map fun id => (id, t)
      | none => none

/-- Insertion of blocks under a node: the deepest node and the number of blocks covered (R239). `kv` gives the page of a
block. -/
def State.insertBlocks (s : State) (v : Serving) (die c : Nat) (kv : Nat → DWord) : Nat → Nat → List (List Word) → Nat × Nat × State
  | p, j, [] => (p, j, s)
  | p, j, b :: r =>
    match (s.tree die c).find? fun n => n.parent == p && n.toks == b with
    | some n => (s.touchNode v die c n.id).insertBlocks v die c kv n.id (j + 1) r
    | none => match s.roomNode v die c with
      | none => (p, j, s)
      | some (id, t) =>
        let n : PfxNode := { die := die, ctx := c, id := id, kv := kv j, parent := p, refs := 1, depth := (j + 1) * v.pt,
                             last := s.cycle, toks := b }
        ({ t with nodes := t.nodes ++ [n] }.showNode v die c id).insertBlocks v die c kv id (j + 1) r

/-- A node and its ancestors lose one reference (R239). -/
def State.releasePath (s : State) (v : Serving) (die c : Nat) : Nat → Nat → State
  | 0, _ => s
  | k + 1, id => match s.node? die c id with
    | none => s
    | some n =>
      ((s.modNode die c id fun n => { n with refs := n.refs - 1, last := s.cycle }).showNode v die c id).releasePath v die c k
        n.parent

/-- The part's memory that a tree operation may touch: the node array, the eviction ring and its counts. -/
def treeWants (v : Serving) (die : Nat) : List (Nat × Nat × Bool) :=
  ((pagesOf (nodeAddr v die 0) (32 * (v.nnode + 1)) ++ pagesOf (v.evring + die * 2 ^ (v.log2ev + 3)) (2 ^ (v.log2ev + 3))).map
    fun p => (4096 * p, 8, true)) ++ [(evPub v die, 8, true), (evPub v die + 64, 8, false)]

/-- The result of a lookup or an insertion (R239). -/
def pfxWord (m node : Nat) : DWord := BitVec.ofNat 64 (m * 2 ^ 32 + node)

/-- PFXL and PFXI: what they share (R239, R384). The tokens are read as loads; PFXI with L = 0 has a node id in S[A]. -/
def Gx.pfx (x : Gx) (f : FForm) (lookup : Bool) (k : Serving → Nat → Nat → State → List (Want × Leaf) → State) : State :=
  let va := x.usrc f.a .ui64 64
  let n := x.srcBz x.low f.b .ui64 64
  if x.t.slot != 0 then x.heldHere
  else match aget x.s.serving x.t.ctx with
    | none => x.fault x.s fltOperand
    | some v =>
      if n > 65536 then x.fault x.s fltOperand
      else if (lookup || n != 0) && va % 4 != 0 then x.fault x.s fltAlign 0xFF va
      else match x.s.partWait x.t.ctx .part (treeWants v x.t.at_.1) with
        | some t => x.stall { x.s0 with ctxs := t.ctxs, out := t.out, coh := t.coh }
        | none =>
          let want := fun (i : Nat) =>
            ({ lane := x.low, va := wrapInt 64 (va + 4 * i), size := 4, need := .r, whole := true } : Want)
          x.memGo ((List.range n).map want) fun ls => k v va n x.s ls

/-- The tokens that were loaded. -/
def Gx.tokens (x : Gx) (ls : List (Want × Leaf)) : List Word := ls.map fun p => BitVec.ofNat 32 (x.loadNat x.s p.2 4)

/-- PFXL (R239). -/
def execPfxl (f : FForm) (s : State) : Host.Outcome State Fault Refusal :=
  gangF 0xBD f s free fun x => x.pfx f true fun v _ n s ls =>
    let die := x.t.at_.1
    let path := pathFrom (s.tree die x.t.ctx) 0 (blocksOf v.pt (x.tokens ls) (n / v.pt))
    let t := path.foldl (fun s p => s.touchNode v die x.t.ctx p.id) s
    x.touched (x.done t (x.putS f.d (pfxWord (path.length * v.pt) ((path.getLast?.map PfxNode.id).getD 0)))) 0 ls false

/-- PFXI with L = 0 (R239). -/
def Gx.pfxRelease (x : Gx) (f : FForm) (v : Serving) (id : Nat) : State :=
  match x.s.node? x.t.at_.1 x.t.ctx id with
  | some n =>
    if n.refs = 0 then x.fault x.s fltOperand
    else x.done (x.s.releasePath v x.t.at_.1 x.t.ctx (n.depth / v.pt + 1) id) (x.putS f.d 0)
  | none => x.fault x.s fltOperand

/-- PFXI (R239): the page of block j is entry j after the tokens; those of new nodes are read. -/
def execPfxi (f : FForm) (s : State) : Host.Outcome State Fault Refusal :=
  gangF 0xBE f s free fun x => x.pfx f false fun v va n s ls =>
    let die := x.t.at_.1
    if n = 0 then x.pfxRelease f v (va % 2 ^ 20)
    else
      let blocks := blocksOf v.pt (x.tokens ls) (n / v.pt)
      let old := (pathFrom (s.tree die x.t.ctx) 0 blocks).length
      let base := (va + 4 * n + 7) / 8 * 8
      let want := fun (i : Nat) =>
        ({ lane := x.low, va := wrapInt 64 (base + 8 * (old + i)), size := 8, need := .r, whole := true } : Want)
      x.memGo ((List.range (blocks.length - old)).map want) fun ks =>
        let kv := fun (j : Nat) => match ks[j - old]? with | some p => BitVec.ofNat 64 (x.loadNat x.s p.2 8) | none => 0
        let r := s.insertBlocks v die x.t.ctx kv 0 0 blocks
        x.touched (x.done r.2.2 (x.putS f.d (pfxWord (r.2.1 * v.pt) r.1))) 0 (ls ++ ks) false

end Sys2Proof.Machine
end

