-- ==== Sys2Proof/Machine/Tokens.lean ====
section
/-! DEFINITION. The serving fabric: serving records, token messages and their steps, KV errors, stealing (R381 to R400). -/

namespace Sys2Proof.Machine

open Sys2Proof

/-! ### The serving record -/

/-- SVREC of a context (R384). -/
def svrec (c : Nat) : Nat := 0x7F8000 + 8 * c

/-- The record that 128 bytes hold (R385, R399): HTR as entry array, LOG2N and the address of PUB. -/
def Serving.ofBytes (b : List Byte) : Serving :=
  let at_ := fun (o n : Nat) => leNat ((b.drop o).take n)
  { inbox := at_ 0 8, icnt := at_ 8 8, log2in := at_ 0x10 1, log2kv := at_ 0x11 1, pt := at_ 0x12 2, nnode := at_ 0x14 4
    nodes := at_ 0x18 8, evring := at_ 0x20 8, log2ev := at_ 0x28 1
    htr := (List.range 4).map fun r =>
      (at_ (0x30 + 16 * r) 8 / 64 * 64, at_ (0x30 + 16 * r) 8 % 32, at_ (0x38 + 16 * r) 8) }

/-- A serving record that R385 and R399 accept. -/
def servingOk (b : List Byte) (v : Serving) : Bool :=
  let at_ := fun (o n : Nat) => leNat ((b.drop o).take n)
  let htrOk := fun (r : Nat) =>
    let h := at_ (0x30 + 16 * r) 8
    let n := h % 32
    h < 2 ^ 54 && h / 32 % 2 = 0 && (n = 0 || (4 ≤ n && n ≤ 20)) && at_ (0x38 + 16 * r) 8 % 128 = 0
  v.inbox % 4096 = 0 && v.icnt % 4096 = 0 && 4 ≤ v.log2in && v.log2in ≤ 12 && 16 ≤ v.log2kv && v.log2kv ≤ 21 &&
  (List.range 16).any (fun k => v.pt = 2 ^ k) && v.pt ≤ 2 ^ (v.log2kv - 7) && v.nnode ≤ 65535 && v.nodes % 2 ^ 21 = 0 &&
  v.evring % 4096 = 0 && 6 ≤ v.log2ev && v.log2ev ≤ 16 && at_ 0x29 7 = 0 && at_ 0x70 16 = 0 && (List.range 4).all htrOk

/-- PUB and CONS of a die's inbox (R393). -/
def inPub (v : Serving) (die : Nat) : Nat := v.icnt + 128 * die

/-- SERVING_ENABLE (R384, R385, R393): PUB and CONS of every inbox are zero from then on. -/
def execServingEnable (ctx : Nat) (s : State) : Host.Outcome State Fault Refusal :=
  let r := s.reg (svrec ctx) 0
  let b := s.bytesAt (bits64 r 7 45 * 128) 128
  let v := Serving.ofBytes b
  if ctx ≥ 1024 || (aget s.serving ctx).isSome then .next s
  else if (s.ctx? ctx).isNone || !servingOk b v then .next (s.setReg (svrec ctx) (r ||| 2))
  else match s.partWait ctx .part [(v.icnt, 1024, true)] with
    | some u => .next u
    | none =>
      let words := (List.range 8).flatMap fun d => [inPub v d, inPub v d + 64]
      let u := words.foldl (fun s a => s.partPut ctx .part a 8 0) s
      .next ({ u with serving := aset u.serving ctx v }.setReg (svrec ctx) ((r ||| 1) &&& ~~~2#64))

/-- SERVING_DISABLE (R384): messages and nodes of the context go with its record. -/
def execServingDisable (ctx : Nat) (s : State) : Host.Outcome State Fault Refusal :=
  if s.seqs.any fun e => e.ctx == ctx then .next s
  else .next ({ s with
    serving := adel s.serving ctx
    sending := s.sending.filter fun m => m.ctx != ctx
    arrived := s.arrived.filter fun m => m.ctx != ctx
    nodes := s.nodes.filter fun n => n.ctx != ctx }.setReg (svrec ctx) (s.reg (svrec ctx) 0 &&& ~~~1#64))

/-! ### Messages -/

/-- Fields of a message (R237, R389). -/
def Msg.at_ (m : Msg) (o n : Nat) : Nat := leNat ((m.bytes.drop o).take n)
def Msg.type (m : Msg) : Nat := m.at_ 0 1
def Msg.id (m : Msg) : Nat := m.at_ 2 4

/-- A message whose arrival space has room moves to its die; what one die sends another stays in order (R391). -/
def State.deliverMsgs (s : State) : State :=
  let r := s.sending.foldl (fun (p : List Msg × List Msg) m =>
    let full := (p.1.filter fun a => a.dest == m.dest && a.ctx == m.ctx).length ≥ 64
    let behind := p.2.any fun w => w.src == m.src && w.dest == m.dest && w.ctx == m.ctx
    if full || behind then (p.1, p.2 ++ [m]) else (p.1 ++ [m], p.2)) (s.arrived, [])
  { s with arrived := r.1, sending := r.2 }

/-- The first message of a context at a die. -/
def State.firstMsg (s : State) (die c : Nat) : Option Msg := s.arrived.find? fun m => m.dest == die && m.ctx == c

/-- That message is taken. -/
def State.takeMsg (s : State) (die c : Nat) : State :=
  match s.arrived.findIdx? fun m => m.dest == die && m.ctx == c with
  | some k => { s with arrived := dropAt s.arrived k }
  | none => s

/-- The first word of an inbox entry (R392). -/
def inboxHead (status id src dest type : Nat) : List Byte :=
  leBytes 8 (type + dest * 2 ^ 8 + src * 2 ^ 11 + id * 2 ^ 16 + status * 2 ^ 48)

/-- The inbox of a die has room for one entry (R393). -/
def State.inboxRoom (s : State) (v : Serving) (die c : Nat) : Bool :=
  (s.partNat c .part (inPub v die) 8 + 2 ^ 64 - s.partNat c .part (inPub v die + 64) 8) % 2 ^ 64 < 2 ^ v.log2in

/-- What writing an inbox entry touches: PUB and CONS, and once PUB can be read the entry that it names (R393). -/
def State.inboxWants (s : State) (v : Serving) (die c : Nat) : List (Nat × Nat × Bool) :=
  let words := [(inPub v die, 8, true), (inPub v die + 64, 8, false)]
  if (s.partWait c .part words).isSome then words
  else words ++ [(v.inbox + die * 2 ^ (v.log2in + 6) + 64 * (s.partNat c .part (inPub v die) 8 % 2 ^ v.log2in), 64, true)]

/-- One inbox entry written, then PUB (R393). -/
def State.inboxPut (s : State) (v : Serving) (die c : Nat) (b : List Byte) : State :=
  let pub := s.partNat c .part (inPub v die) 8
  let u := s.partWrite c .part (v.inbox + die * 2 ^ (v.log2in + 6) + 64 * (pub % 2 ^ v.log2in)) (padTo 64 b)
  u.partPut c .part (inPub v die) 8 ((pub + 1) % 2 ^ 64)

/-- A message of the part (R396, R398): 0x80 to 0x82 on their way to a die. -/
def partMsg (src dest c type id : Nat) (body : List Byte) : Msg :=
  { src := src, dest := dest, ctx := c, bytes := padTo 64 (leBytes 8 (type + dest * 2 ^ 8 + id * 2 ^ 16) ++ body) }

/-! ### The sequence table -/

def State.modSeq (s : State) (die id : Nat) (f : SeqEntry → SeqEntry) : State :=
  { s with seqs := s.seqs.map fun e => if e.die == die && e.id == id then f e else e }

def State.dropSeq (s : State) (die id : Nat) : State := { s with seqs := s.seqs.filter fun e => !(e.die == die && e.id == id) }

/-- Map records of an entry go (R388). -/
def State.untrack (s : State) (die c id : Nat) : State :=
  { s with kvmap := s.kvmap.filter fun k => !(k.die == die && k.ctx == c && k.id == id) }

/-- The pages of an entry's list are recorded where they can be; whether all were (R388). Page addresses are the
context's, and a page lies in one piece from where its first byte lies. -/
def State.track (s : State) (die c id pladdr npg : Nat) : State × Bool :=
  let rd := fun (i : Nat) => s.partNat c .part (pladdr + 8 * i) 8
  (List.range npg).foldl (fun (p : State × Bool) i =>
    match p.1.translate c .part (rd i) .any with
    | .ok l =>
      let full := (p.1.kvmap.filter fun k => homeOf (k.pa / 128) == homeOf (l.pa / 128)).length ≥ 262144
      if l.pa ≥ Config.hbmEnd || full then (p.1, false)
      else ({ p.1 with kvmap := p.1.kvmap ++ [{ pa := l.pa, die := die, ctx := c, id := id, idx := i }] }, p.2)
    | _ => (p.1, false)) (s.untrack die c id, true)

/-- What reading a page list touches. -/
def listWants (pladdr npg : Nat) : List (Nat × Nat × Bool) := bufferParts pladdr (8 * npg) false

/-! ### Applying a message -/

/-- The status of a message's requirements: none when it applies to an entry that is RUN (R390). -/
def State.runEntry (s : State) (die c id : Nat) : Option SeqEntry :=
  match s.seqAt die id with
  | some e => if e.ctx = c && e.state == .run then some e else none
  | none => none

/-- A die's ring and its place in it (R381). -/
def State.ringOf (s : State) (die : Nat) : Nat × Nat := (die / s.ringSize, die % s.ringSize)

/-- PUB and CONS of a ring's host token ring, the bytes that an entry there takes (R399). -/
def Serving.host (v : Serving) (ring : Nat) : Nat × Nat × Nat := v.htr.getD ring (0, 0, 0)

/-- The host token ring has room for n entries, or there is none (R400). -/
def State.hostRoom (s : State) (v : Serving) (ring c n : Nat) : Bool :=
  let h := v.host ring
  h.2.1 = 0 || (s.partNat c .part h.2.2 8 + n + 2 ^ 64 - s.partNat c .part (h.2.2 + 64) 8) % 2 ^ 64 ≤ 2 ^ h.2.1

/-- What publishing n entries touches. -/
def State.hostWants (s : State) (v : Serving) (ring c n : Nat) : List (Nat × Nat × Bool) :=
  let h := v.host ring
  if h.2.1 = 0 then []
  else
    let pub := s.partNat c .part h.2.2 8
    [(h.2.2, 8, true), (h.2.2 + 64, 8, false)] ++
      (List.range n).map fun i => (h.1 + 16 * ((pub + i) % 2 ^ 64 % 2 ^ h.2.1), 16, true)

/-- What TOKEN comes to at an entry: its status, and NEWPOS and N as applied (R390). -/
def State.tokenStep (s : State) (die c : Nat) (v : Serving) (m : Msg) : Nat × Nat × Nat :=
  let newpos := m.at_ 8 8
  let n := m.at_ 0x10 1
  if m.at_ 0x11 1 ≥ 4 || m.at_ 0x12 14 != 0 then (4, newpos, n)
  else match s.runEntry die c m.id with
    | none => (2, newpos, n)
    | some e =>
      if n = 0 || n > 8 || newpos != e.pos + n then (4, newpos, n)
      else if newpos > e.npg * v.pt then (6, newpos, n)
      else if newpos > e.mark + 1 then (1, e.mark + 1, e.mark + 1 - e.pos)
      else (0, newpos, n)

/-- The tokens that a TOKEN publishes at its head: how many (R390, R400). -/
def State.published (s : State) (die c : Nat) (v : Serving) (m : Msg) : Nat :=
  let r := s.tokenStep die c v m
  if r.1 ≤ 1 && (m.at_ 0x11 1).testBit 0 && (s.ringOf die).2 = 0 then r.2.2 else 0

/-- The thief can take a sequence (R398 step 2). -/
def State.adopts (s : State) (die : Nat) (m : Msg) : Bool :=
  (s.seqAt die m.id).isNone && (s.seqs.filter fun e => e.die == die).length < 16384

/-- What a message touches besides the inbox (R388, R400). -/
def State.msgWants (s : State) (v : Serving) (die : Nat) (m : Msg) : List (Nat × Nat × Bool) :=
  match m.type with
  | 1 | 2 | 0x80 => listWants (m.at_ 0x18 8) (m.at_ 0x20 2)
  | 4 => if (m.at_ 0x11 1).testBit 0 && (s.ringOf die).2 = 0 then s.hostWants v (s.ringOf die).1 m.ctx (m.at_ 0x10 1 % 16) else []
  | _ => []

/-- A message waits for no room in the host token ring (R400). -/
def State.msgReady (s : State) (v : Serving) (die : Nat) (m : Msg) : Bool :=
  m.type != 4 || s.published die m.ctx v m = 0 || s.hostRoom v (s.ringOf die).1 m.ctx (s.published die m.ctx v m)

/-- A message writes an inbox entry: every one but a message of the part that leaves no notice (R392, R398). -/
def State.notices (s : State) (die : Nat) (m : Msg) : Bool :=
  match m.type with | 0x80 => s.adopts die m | 0x81 => false | _ => true

/-- A message that waits, for memory or for room (R393, R400). -/
def State.msgStuck (s : State) (die : Nat) (m : Msg) : Bool :=
  match aget s.serving m.ctx with
  | none => true
  | some v => s.notices die m && ((s.partWait m.ctx .part (s.inboxWants v die m.ctx ++ s.msgWants v die m)).isSome ||
      !s.inboxRoom v die m.ctx || !s.msgReady v die m)

/-- The oldest of some arrived messages of a die that does not wait; what waits holds up the later ones of its context alone
(R391, R393). -/
def State.offered (s : State) (die : Nat) (held : List Nat) : List Msg → Option Msg
  | [] => none
  | m :: r =>
    if m.dest != die || held.contains m.ctx then s.offered die held r
    else if s.msgStuck die m then s.offered die (m.ctx :: held) r
    else some m

/-- The message that a die applies next (R391). -/
def State.nextMsg (s : State) (die : Nat) : Option Msg := s.offered die [] s.arrived

/-- A software message applied when its turn has come: its entry updated, its inbox entry written (R390 to R393). `f` gives the
status, the message as applied from byte 8 on, and the state. -/
def applyMsg (die ctx type : Nat) (s : State) (f : State → Serving → Msg → Nat × List Byte × State)
    (after : State → Serving → Msg → List Byte → State) : Host.Outcome State Fault Refusal :=
  let t := s.deliverMsgs
  match t.firstMsg die ctx, aget t.serving ctx with
  | some m, some v =>
    if m.type != type then .next t
    else match t.partWait ctx .part (t.inboxWants v die ctx ++ t.msgWants v die m) with
      | some u => .next u
      | none =>
        if t.nextMsg die != some m then .next t
        else
          let r := f t v m
          let u := (r.2.2.takeMsg die ctx).inboxPut v die ctx (inboxHead r.1 m.id m.src die type ++ r.2.1)
          .next (if r.1 ≤ 1 || r.1 = 5 then after u v m r.2.1 else u)
  | _, _ => .next t

def nothingAfter (s : State) (_ : Serving) (_ : Msg) (_ : List Byte) : State := s

/-- OPEN (R388, R390). -/
def execOpenSeq (die ctx : Nat) (s : State) : Host.Outcome State Fault Refusal :=
  applyMsg die ctx 1 s (fun s _ m =>
    let body := m.bytes.drop 8
    let pl := m.at_ 0x18 8
    if m.at_ 0x22 30 != 0 || pl % 8 != 0 || pl ≥ 2 ^ 54 then (4, body, s)
    else if (s.seqAt die m.id).isSome || (s.seqs.filter fun e => e.die == die).length ≥ 16384 then (3, body, s)
    else
      let e : SeqEntry :=
        { die := die, id := m.id, ctx := ctx, state := .run, pos := m.at_ 8 8, mark := m.at_ 8 8
          seed := BitVec.ofNat 64 (m.at_ 0x10 8), pladdr := pl, npg := m.at_ 0x20 2 }
      let r := { s with seqs := s.seqs ++ [e] }.track die ctx m.id pl (m.at_ 0x20 2)
      (if r.2 then 0 else 5, body, r.1)) nothingAfter

/-- EXTEND (R388, R390). -/
def execExtend (die ctx : Nat) (s : State) : Host.Outcome State Fault Refusal :=
  applyMsg die ctx 2 s (fun s _ m =>
    let body := m.bytes.drop 8
    let pl := m.at_ 0x18 8
    if m.at_ 8 16 != 0 || m.at_ 0x22 30 != 0 || pl % 8 != 0 || pl ≥ 2 ^ 54 then (4, body, s)
    else if (s.runEntry die ctx m.id).isNone then (2, body, s)
    else
      let r := (s.modSeq die m.id fun e => { e with pladdr := pl, npg := m.at_ 0x20 2 }).track die ctx m.id pl (m.at_ 0x20 2)
      (if r.2 then 0 else 5, body, r.1)) nothingAfter

/-- DRAFT (R387, R390). -/
def execDraft (die ctx : Nat) (s : State) : Host.Outcome State Fault Refusal :=
  applyMsg die ctx 3 s (fun s _ m =>
    let body := m.bytes.drop 8
    let mark := m.at_ 8 8
    if m.at_ 0x10 48 != 0 then (4, body, s)
    else match s.runEntry die ctx m.id with
      | none => (2, body, s)
      | some e =>
        if mark < e.pos || mark > e.pos + 256 then (4, body, s)
        else (0, body, s.modSeq die m.id fun e => { e with mark := mark })) nothingAfter

/-- Entries published in a ring's host token ring, then PUB (R400). -/
def State.publish (s : State) (v : Serving) (ring c : Nat) (es : List (List Byte)) : State :=
  let h := v.host ring
  if h.2.1 = 0 then s
  else
    let pub := s.partNat c .part h.2.2 8
    let u := es.zipIdx.foldl (fun s p => s.partWrite c .part (h.1 + 16 * ((pub + p.2) % 2 ^ 64 % 2 ^ h.2.1)) p.1) s
    u.partPut c .part h.2.2 8 ((pub + es.length) % 2 ^ 64)

/-- An entry of the host token ring (R399). -/
def hostEntry (id tok pos status : Nat) : List Byte :=
  leBytes 4 id ++ leBytes 4 tok ++ leBytes 4 pos ++ leBytes 1 status ++ leBytes 3 0

/-- TOKEN (R390, R400). -/
def execToken (die ctx : Nat) (s : State) : Host.Outcome State Fault Refusal :=
  applyMsg die ctx 4 s
    (fun s v m =>
      let r := s.tokenStep die ctx v m
      if r.1 > 1 then (r.1, m.bytes.drop 8, s)
      else
        let ends := (m.at_ 0x11 1).testBit 1 && r.2.2 = m.at_ 0x10 1
        (r.1, leBytes 8 r.2.1 ++ leBytes 1 r.2.2 ++ m.bytes.drop 0x11,
          s.modSeq die m.id fun e =>
            { e with pos := r.2.1, mark := r.2.1, state := if ends then .done else e.state }))
    fun s v m body =>
      let newpos := leNat (body.take 8)
      let n := leNat ((body.drop 8).take 1)
      let ends := (m.at_ 0x11 1).testBit 1 && n = m.at_ 0x10 1
      if !(m.at_ 0x11 1).testBit 0 || (s.ringOf die).2 != 0 || n = 0 then s
      else s.publish v (s.ringOf die).1 ctx ((List.range n).map fun i =>
        hostEntry m.id (m.at_ (0x20 + 4 * i) 4) ((newpos - n + i) % 2 ^ 32) (if ends && i + 1 = n then 1 else 0))

/-- CLOSE (R390, R396, R398). -/
def execCloseSeq (die ctx : Nat) (s : State) : Host.Outcome State Fault Refusal :=
  applyMsg die ctx 5 s (fun s _ m =>
    let body := m.bytes.drop 8
    if m.at_ 8 56 != 0 then (4, body, s)
    else match s.seqAt die m.id with
      | some e =>
        if e.ctx != ctx || e.state == .moving then (2, body, s) else (0, body, (s.dropSeq die m.id).untrack die ctx m.id)
      | none => (2, body, s)) nothingAfter

/-- GIVE (R390, R398 step 1). -/
def execGive (die ctx : Nat) (s : State) : Host.Outcome State Fault Refusal :=
  applyMsg die ctx 6 s (fun s _ m =>
    let body := m.bytes.drop 8
    let t := m.at_ 8 1
    let r := s.ringOf die
    if m.at_ 9 55 != 0 then (4, body, s)
    else match s.runEntry die ctx m.id with
      | none => (2, body, s)
      | some e =>
        if t = r.1 || t ≥ 8 / s.ringSize then (4, body, s)
        else
          let load := leBytes 8 e.pos ++ leBytes 8 e.seed.toNat ++ leBytes 8 e.pladdr ++ leBytes 2 e.npg
          let u := s.modSeq die m.id fun e => { e with state := .moving, mark := e.pos }
          (0, body, { u with sending := u.sending ++ [partMsg die (s.ringSize * t + r.2) ctx 0x80 m.id load] })) nothingAfter

/-- NOTE (R389, R390). -/
def execNote (die ctx : Nat) (s : State) : Host.Outcome State Fault Refusal :=
  applyMsg die ctx 7 s (fun s _ m => (0, m.bytes.drop 8, s)) nothingAfter

/-- A message of the part applied when its turn has come (R391, R398). -/
def onPartMsg (die ctx type : Nat) (s : State) (f : State → Serving → Msg → State) : Host.Outcome State Fault Refusal :=
  let t := s.deliverMsgs
  match t.firstMsg die ctx, aget t.serving ctx with
  | some m, some v =>
    if m.type != type then .next t
    else match (if t.notices die m then t.partWait ctx .part (t.inboxWants v die ctx ++ t.msgWants v die m) else none) with
      | some u => .next u
      | none => .next (if t.nextMsg die == some m then f (t.takeMsg die ctx) v m else t)
  | _, _ => .next t

/-- ADOPT (R388, R398 step 2): the map's records now name this die, and the page list is read; the notice reports 5 where a page
is left untracked. -/
def execAdopt (die ctx : Nat) (s : State) : Host.Outcome State Fault Refusal :=
  onPartMsg die ctx 0x80 s fun s v m =>
    let reply := fun (s : State) (type : Nat) =>
      { s with sending := s.sending ++ [partMsg die m.src ctx type m.id []] }
    if !s.adopts die m then reply s 0x82
    else
      let e : SeqEntry :=
        { die := die, id := m.id, ctx := ctx, state := .run, pos := m.at_ 8 8, mark := m.at_ 8 8
          seed := BitVec.ofNat 64 (m.at_ 0x10 8), pladdr := m.at_ 0x18 8, npg := m.at_ 0x20 2 }
      let r := (({ s with seqs := s.seqs ++ [e] }).untrack m.src ctx m.id).track die ctx m.id e.pladdr e.npg
      reply (r.1.inboxPut v die ctx (inboxHead (if r.2 then 0 else 5) m.id m.src die 0x92 ++ leBytes 8 (m.at_ 8 8))) 0x81

/-- ACK (R398 step 3). -/
def execAck (die ctx : Nat) (s : State) : Host.Outcome State Fault Refusal :=
  onPartMsg die ctx 0x81 s fun s _ m => s.dropSeq die m.id

/-- REFUSE (R398 step 3). -/
def execRefuse (die ctx : Nat) (s : State) : Host.Outcome State Fault Refusal :=
  onPartMsg die ctx 0x82 s fun s v m =>
    (s.modSeq die m.id fun e => { e with state := .run }).inboxPut v die ctx
      (inboxHead 0 m.id m.src die 0x93 ++ leBytes 8 m.src)

/-! ### KV errors -/

/-- A tracked page that holds a line, and the entry that owns it (R388). -/
def State.kvOwner (s : State) (line : Nat) : Option (KvPage × SeqEntry × Serving) :=
  s.kvmap.findSome? fun k => match aget s.serving k.ctx with
    | some v =>
      if k.pa ≤ 128 * line && 128 * line < k.pa + 2 ^ v.log2kv then (s.seqAt k.die k.id).map fun e => (k, e, v) else none
    | none => none

/-- The path of an HBM line's pseudo-channel (R410, R428, log 18). -/
def linePath (line : Nat) : Word :=
  let pa := 128 * line
  unitPath (homeOf line) 0x0A (pa % 0x001800000000 / 0x000C00000000) 0x0A (Config.pseudoChannel line).toNat

/-- The entry of a page is on its way to its die, which has not been acknowledged yet, or away from it (R398): at the same place of
some ring it is MOVING. -/
def State.moving (s : State) (k : KvPage) : Bool :=
  s.seqs.any fun x => x.ctx == k.ctx && x.id == k.id && x.state == .moving && x.die % s.ringSize == k.die % s.ringSize

/-- KV_ERROR (R396 to R398): the line reads as zero, and the error is classed against its entry. It is held while the entry
moves. -/
def execKvError (line : Nat) (s : State) : Host.Outcome State Fault Refusal :=
  match s.kvOwner line with
  | none => .next s
  | some (k, e, v) =>
    if s.moving k then .next s
    else
      let c := k.ctx
      let r := s.ringOf k.die
      let dies := (List.range s.ringSize).map fun i => s.ringSize * r.1 + i
      let p := k.idx * v.pt + (128 * line - k.pa) * v.pt / 2 ^ v.log2kv
      let clean := fun (s : State) =>
        { s.writeBytes (located (128 * line) (List.replicate 128 0)) with poison := s.poison.filter (· != line) }
      let noted := fun (s : State) (type : Nat) (body : List Byte) => dies.foldl (fun s d =>
        s.inboxPut v d c (inboxHead 0 e.id k.die d type ++ body)) s
      let fence := p + 1 < e.pos
      let wants := (dies.flatMap fun d => s.inboxWants v d c) ++ (if fence then s.hostWants v r.1 c 1 else [])
      if p ≥ e.mark && !fence then .next ((clean s).errRecord 0x0133 (linePath line) (128 * line) c 0)
      else match s.partWait c .part wants with
        | some u => .next u
        | none =>
          if !(dies.all fun d => s.inboxRoom v d c) || (fence && !s.hostRoom v r.1 c 1) then .next s
          else if fence then
            let u := dies.foldl (fun s d => s.modSeq d e.id fun x => if x.ctx = c then { x with state := .fenced } else x) (clean s)
            let w := (noted u 0x91 (leBytes 8 p)).publish v r.1 c [hostEntry e.id 0xFFFFFFFF (p % 2 ^ 32) 2]
            .next (w.errRecord 0x0134 (linePath line) e.id c (e.id % 2 ^ 16))
          else
            let u := dies.foldl (fun s d => s.modSeq d e.id fun x => if x.ctx = c then { x with mark := p } else x) (clean s)
            .next ((noted u 0x90 (leBytes 8 p ++ leBytes 8 p)).errRecord 0x0132 (linePath line) (128 * line) c 0)

end Sys2Proof.Machine
end

