-- ==== Sys2Proof/Machine/Xmss.lean ====
section
/-! DEFINITION. SHAKE256 (FIPS 202) and XMSS-SHAKE256_20_256 (RFC 8391, NIST SP 800-208), which sign firmware, requests and
attestation reports (R5, R418 to R421). Numbers in them have their highest byte first. -/

namespace Sys2Proof.Machine

open Sys2Proof

/-! ### SHAKE256 -/

/-- The 25 words of a Keccak state, five to a sheet of equal y. -/
abbrev Keccak := List DWord

/-- Theta: each word takes in the parities of the two columns beside its own. -/
def Keccak.theta (a : Keccak) : Keccak :=
  let parity := fun (x : Nat) => [0, 5, 10, 15, 20].foldl (fun w y => w ^^^ a.getD (x % 5 + y) 0#64) 0
  let mix := [0, 1, 2, 3, 4].map fun x => parity (x + 4) ^^^ (parity (x + 1)).rotateLeft 1
  a.mapIdx fun i w => w ^^^ mix.getD (i % 5) 0

/-- A step of the walk of rho and pi, by (x, y) ↦ (y, 2x + 3y): the word it leaves turns by a triangular number and moves to the
place it comes to. -/
def Keccak.stirAt (a : Keccak) (p : (Nat × Nat) × Keccak) (t : Nat) : (Nat × Nat) × Keccak :=
  let y := (2 * p.1.1 + 3 * p.1.2) % 5
  ((p.1.2, y), p.2.set (p.1.2 + 5 * y) ((a.getD (p.1.1 + 5 * p.1.2) 0).rotateLeft ((t + 1) * (t + 2) / 2)))

/-- Rho and pi, as one walk from (1, 0). -/
def Keccak.stir (a : Keccak) : Keccak := ((List.range 24).foldl a.stirAt ((1, 0), a)).2

/-- Chi, along the rows. -/
def Keccak.chi (a : Keccak) : Keccak :=
  a.mapIdx fun i w => w ^^^ (a.getD (i / 5 * 5 + (i + 2) % 5) 0 &&& ~~~a.getD (i / 5 * 5 + (i + 1) % 5) 0)

/-- One step of the register x⁸ + x⁶ + x⁵ + x⁴ + 1 that gives iota its bits. -/
def keccakNext (r : Nat) : Nat := if r < 128 then 2 * r else (2 * r) ^^^ 0x171

/-- Iota's word, from seven bits of that register for the places 2^j − 1, and the register after them. -/
def keccakIota (r : Nat) : DWord × Nat :=
  (List.range 7).foldl (fun p j =>
    (if p.2 % 2 = 1 then p.1 ||| BitVec.ofNat 64 (2 ^ (2 ^ j - 1)) else p.1, keccakNext p.2)) (0, r)

/-- One round, with iota's register. -/
def Keccak.round (p : Keccak × Nat) : Keccak × Nat :=
  let k := keccakIota p.2
  (p.1.theta.stir.chi.mapIdx fun i w => if i = 0 then w ^^^ k.1 else w, k.2)

/-- The 24 rounds. -/
def Keccak.permute (a : Keccak) : Keccak := ((List.range 24).foldl (fun p _ => Keccak.round p) (a, 1)).1

/-- A block of 136 bytes is absorbed. -/
def Keccak.absorb (a : Keccak) (b : List Byte) : Keccak :=
  Keccak.permute (a.mapIdx fun i w => if i < 17 then w ^^^ BitVec.ofNat 64 (leNat ((b.drop (8 * i)).take 8)) else w)

/-- The input in whole blocks: 0x1F, zeros, and the last bit. -/
def shakePad (bs : List Byte) : List Byte :=
  let n := 136 - bs.length % 136
  bs ++ if n = 1 then [0x9F#8] else [0x1F#8] ++ List.replicate (n - 2) 0#8 ++ [0x80#8]

/-- The first 32 bytes of SHAKE256. -/
def shake256 (bs : List Byte) : List Byte :=
  let p := shakePad bs
  let a := (List.range (p.length / 136)).foldl (fun a k => Keccak.absorb a ((p.drop (136 * k)).take 136))
    (List.replicate 25 0#64)
  (a.take 4).flatMap fun w => leBytes 8 w.toNat

/-- A SHAKE256 digest as a number, its first byte the lowest. -/
def digest (bs : List Byte) : Nat := leNat (shake256 bs)

/-! ### The functions and addresses of XMSS -/

/-- toByte: n bytes, highest first. -/
def beBytes (n x : Nat) : List Byte := (leBytes n x).reverse

/-- The number of bytes, highest first. -/
def beNat (bs : List Byte) : Nat := leNat bs.reverse

/-- F, H, H_msg, PRF and PRF_keygen, by their padding 0 to 4. -/
def xmssHash (pad : Nat) (key msg : List Byte) : List Byte := shake256 (beBytes 32 pad ++ key ++ msg)

/-- A hash address: its type, and the three words before keyAndMask; layer and tree are zero. -/
structure Adrs where
  type : Nat
  a    : Nat
  b    : Nat
  c    : Nat
  deriving DecidableEq, Repr

def Adrs.bytes (x : Adrs) (keyAndMask : Nat) : List Byte :=
  beBytes 12 0 ++ beBytes 4 x.type ++ beBytes 4 x.a ++ beBytes 4 x.b ++ beBytes 4 x.c ++ beBytes 4 keyAndMask

/-- PRF under the public seed, at an address. -/
def Adrs.prf (x : Adrs) (seed : List Byte) (keyAndMask : Nat) : List Byte := xmssHash 3 seed (x.bytes keyAndMask)

def xorBytes (p q : List Byte) : List Byte := List.zipWith (· ^^^ ·) p q

/-- RAND_HASH. -/
def randHash (seed : List Byte) (x : Adrs) (l r : List Byte) : List Byte :=
  xmssHash 1 (x.prf seed 0) (xorBytes l (x.prf seed 1) ++ xorBytes r (x.prf seed 2))

/-! ### WOTS+ -/

/-- The chaining function: n steps from hash address i on, of chain c of the key pair k. -/
def wotsChain (seed : List Byte) (k c i n : Nat) (v : List Byte) : List Byte :=
  (List.range n).foldl (fun v j =>
    let x : Adrs := { type := 0, a := k, b := c, c := i + j }
    xmssHash 0 (x.prf seed 0) (xorBytes v (x.prf seed 1))) v

/-- The 67 digits of a digest in base 16, with those of its checksum. -/
def wotsDigits (m : List Byte) : List Nat :=
  let d := m.flatMap fun b => [b.toNat / 16, b.toNat % 16]
  let sum := (d.map fun x => 15 - x).sum
  d ++ [sum / 256, sum / 16 % 16, sum % 16]

/-- The chains of a key pair, each from its value at a digit for some number of steps. -/
def wotsChains (seed : List Byte) (k : Nat) (digits : List Nat) (span : Nat → Nat × Nat) (vs : List (List Byte)) : List (List Byte) :=
  digits.zipIdx.map fun p => let s := span p.1; wotsChain seed k p.2 s.1 s.2 (vs.getD p.2 [])

/-- One level of an L-tree. -/
def ltreeLevel (seed : List Byte) (k h : Nat) (ns : List (List Byte)) : List (List Byte) :=
  (List.range (ns.length / 2)).map (fun i =>
    randHash seed { type := 1, a := k, b := h, c := i } (ns.getD (2 * i) []) (ns.getD (2 * i + 1) [])) ++
  (if ns.length % 2 = 1 then ns.drop (ns.length - 1) else [])

/-- The L-tree over the 67 values of a key pair, seven levels high. -/
def ltree (seed : List Byte) (k : Nat) (ns : List (List Byte)) : List Byte :=
  ((List.range 7).foldl (fun ns h => ltreeLevel seed k h ns) ns).headD []

/-! ### XMSS -/

/-- Bytes of a public key: its OID, root and seed; its OID; bytes of a signature (R418). -/
def pkBytes : Nat := 68
def xmssOid : Nat := 0x00000012
def sigBytes : Nat := 2820

/-- The digest that is signed. -/
def xmssMessage (r root : List Byte) (idx : Nat) (msg : List Byte) : List Byte :=
  xmssHash 2 (r ++ root ++ beBytes 32 idx) msg

/-- The index of a signature. -/
def sigIndex (sig : List Byte) : Nat := beNat (sig.take 4)

/-- The node of 32 bytes at a place of a byte string. -/
def node32 (bs : List Byte) (o k : Nat) : List Byte := (bs.drop (o + 32 * k)).take 32

/-- The root that a signature leads to. -/
def xmssRoot (seed : List Byte) (sig m : List Byte) : List Byte :=
  let idx := sigIndex sig
  let ots := (List.range 67).map (node32 sig 36)
  let leaf := ltree seed idx (wotsChains seed idx (wotsDigits m) (fun d => (d, 15 - d)) ots)
  (List.range 20).foldl (fun v k =>
    let x : Adrs := { type := 2, a := 0, b := k, c := idx / 2 ^ (k + 1) }
    let w := node32 sig 2180 k
    if idx / 2 ^ k % 2 = 0 then randHash seed x v w else randHash seed x w v) leaf

/-- A signature of a message verifies under a public key. -/
def xmssVerify (pk msg sig : List Byte) : Bool :=
  let root := (pk.drop 4).take 32
  let m := xmssMessage ((sig.drop 4).take 32) root (sigIndex sig) msg
  pk.length = pkBytes && beNat (pk.take 4) = xmssOid && sig.length = sigBytes && sigIndex sig < 2 ^ 20 &&
  xmssRoot (pk.drop 36) sig m == root

/-! ### Signing -/

/-- A secret of an identity key (R421): 0 and 1 its secret seeds, 2 its public one. -/
def idSecret (key n : Nat) : List Byte := (List.range 32).map (Config.secret key n)

/-- The secret values of a key pair (SP 800-208). -/
def wotsSecret (key k : Nat) : List (List Byte) :=
  (List.range 67).map fun c => xmssHash 4 (idSecret key 0) (idSecret key 2 ++ ({ type := 0, a := k, b := c, c := 0 } : Adrs).bytes 0)

/-- The node at a height and an index of an identity key's tree. -/
def xmssNode (key : Nat) : Nat → Nat → List Byte
  | 0, i =>
    let seed := idSecret key 2
    ltree seed i (wotsChains seed i (List.replicate 67 0) (fun _ => (0, 15)) (wotsSecret key i))
  | h + 1, i => randHash (idSecret key 2) { type := 2, a := 0, b := h, c := i } (xmssNode key h (2 * i)) (xmssNode key h (2 * i + 1))

/-- The signature of a message by an identity key at an index (R421). -/
def xmssSign (key idx : Nat) (msg : List Byte) : List Byte :=
  let seed := idSecret key 2
  let r := xmssHash 3 (idSecret key 1) (beBytes 32 idx)
  let m := xmssMessage r (xmssNode key 20 0) idx msg
  beBytes 4 idx ++ r ++ (wotsChains seed idx (wotsDigits m) (fun d => (0, d)) (wotsSecret key idx)).flatten ++
    (List.range 20).flatMap fun h => xmssNode key h (idx / 2 ^ h ^^^ 1)

end Sys2Proof.Machine
end

