-- ==== Sys2Proof/Machine/Fleet.lean ====
section
/-! DEFINITION. Self-test, fences, memory and link errors, power and heat, resets, boot, keys, attestation (R410 to R423,
R425 to R427). -/

namespace Sys2Proof.Machine

open Sys2Proof

/-! ### Unit paths -/

/-- Fields of a unit path (R410). -/
def pDie (p : Word) : Nat := p.toNat / 2 ^ 28
def pKind (p : Word) : Nat := p.toNat / 2 ^ 22 % 64
def pIdx (p : Word) : Nat := p.toNat / 2 ^ 16 % 64
def pKind3 (p : Word) : Nat := p.toNat / 2 ^ 10 % 64
def pIdx3 (p : Word) : Nat := p.toNat % 2 ^ 10

/-- What a fence takes out of service (R413). -/
inductive Function
  | core (d k : Nat) | engine (d e : Nat) | channel (d st pc : Nat) | lane (p : Word) | qcp (t : Nat) | gaffer (q : Nat)
  deriving DecidableEq, Repr

/-- The function that holds a unit (R410, R413): a unit of a core fails with its core. -/
def functionOf (p : Word) : Option Function :=
  let d := pDie p
  let k := pIdx p
  match pKind p with
  | 0x01 => if d < 8 && k < 48 then some (.core d k) else none
  | 0x02 => if d < 8 && k < 4 then some (.engine d k) else none
  | 0x03 => if d < 8 && k = 0 then some (.engine d 4) else none
  | 0x04 => if d < 8 && k = 0 then some (.engine d 5) else none
  | 0x0A => if d < 8 && k < 2 && pKind3 p = 0x0A && pIdx3 p < 32 then some (.channel d k (pIdx3 p)) else none
  | 0x0B | 0x0C | 0x0D => if d < 8 && k = 0 && pKind3 p = 0x0C && pIdx3 p < 16 then some (.lane p) else none
  | 0x14 => if d = 8 && k < 8 && pKind3 p = 0x0C && pIdx3 p < 8 then some (.lane p) else none
  | 0x10 => if d = 8 && k = 0 && pKind3 p = 0x0D && pIdx3 p < 32 then some (.qcp (pIdx3 p)) else none
  | 0x11 => if d = 8 && k = 0 && pKind3 p = 0x0D && pIdx3 p < 64 then some (.gaffer (pIdx3 p)) else none
  | _ => none

/-- The path of a function. -/
def Function.path : Function → Word
  | .core d k => corePath d k | .engine d e => enginePath d e | .channel d st pc => unitPath d 0x0A st 0x0A pc
  | .lane p => p | .qcp t => qcpPath t | .gaffer q => gafferPath q

/-! ### Fences -/

/-- Chains of some kind stop, each at its current job (R414). -/
def State.fenceChains (s : State) (f : Chain → Bool) : State :=
  (s.chains.filter fun p => f p.2 && p.2.stop.isNone).foldl
    (fun s p => s.stopChain p.1 fltFenced ((p.2.job.map Job.addr).getD 0) false) s

/-- A group of a fenced core stops (R414): its buffered stores are discarded; one that has stopped can no longer resume. -/
def State.fenceGroup (s : State) (r : GRef) : State :=
  match s.grp? r with
  | none => s
  | some g =>
    if g.ended then s
    else
      let u := s.modGrp r fun g => { g with stbuf := [], wcbuf := [], deferred := none, stop := g.stop.map fun x => { x with kind := .fenced } }
      if g.stop.isSome then u else u.stopGroup r fltFenced 0 0xFF (g.pcOf g.live).toNat 0 .fenced

/-- A core is fenced (R414): its groups, the matrix chains bound to its teams, its local copy unit's chains. -/
def State.fenceCore (s : State) (d k : Nat) : State :=
  let ts := s.teams.filter fun p => p.2.place == .core d k && p.2.endedAt.isNone
  let nums := ts.map Prod.fst
  let rs := ts.flatMap fun p => (List.range p.2.groups.length).map fun g => ({ team := p.1, grp := g } : GRef)
  let u := rs.foldl State.fenceGroup s
  let v := { u with tileJobs := u.tileJobs.filter fun j => !nums.contains j.team }
  v.fenceChains fun c => (c.engine = 9 && c.bound.any nums.contains) || (c.engine = 8 && c.die = d && c.core = k && c.job.isSome)

/-- Launches that have teams to place and whose clusters now fit no rectangle of unfenced cores: their queues are FAULTED
(R414). -/
def State.faultUnplaced (s : State) : State :=
  let stuck := fun (p : Packet) => match p.launch.bind (aget s.launches) with
    | some l => (l.next < l.total || !l.waiting.isEmpty) && !s.rectExists l.kern
    | none => false
  s.threads.foldl (fun u q => match q.2.packets.find? stuck with
    | some p => if q.2.state.runs || q.2.state == .stopped then u.faultQueue q.1 queueCode 0x0140 p.seq p.addr 0 else u
    | none => u) s

/-- An Ethernet port loses a lane (R408, R414): without lanes it is down. -/
def State.narrowPort (s : State) (port : Nat) : State :=
  match aget s.fleet.ports port with
  | some n => if n ≤ 1 then s.portDown port else { s with fleet := { s.fleet with ports := aset s.fleet.ports port (n - 1) } }
  | none => s

/-- A Gaffer thread's queue stops, its calls end with −3, and its lent pages come back (R414). -/
def State.fenceGaffer (s : State) (q : Nat) : State :=
  let u := (s.modSvc q fun x => if x.on then { x with stopped := true } else x).failCalls (fun n _ => n == q) (-3)
  { u with lent := u.lent.map fun (d : Lent) => if d.queue == q then { d with recv := true } else d }

/-- What a fence does to its users (R414). -/
def State.fenceEffect (s : State) : Function → State
  | .core d k => (s.fenceCore d k).faultUnplaced
  | .engine d e => s.fenceChains fun c => c.engine = e && c.die = d && c.job.isSome
  | .channel _ _ _ => s.evictAll ((s.coh.held.filter fun h => s.lineFenced h.line).map fun h => (h.sid, h.line))
  | .lane p => if pKind p = 0x14 then s.narrowPort (pIdx p) else s
  | .qcp t => match s.qcp? t with
    | some q => if q.state == .unmapped then s else s.faultQueue t fltFenced 0 0 (q.at_ q.rptr) 0
    | none => s
  | .gaffer q => s.fenceGaffer q

/-- A function out of service until the next cold reset (R413). -/
def State.fence (s : State) (f : Function) : State :=
  if s.fenced f.path then s else { s with fleet := { s.fleet with fences := s.fleet.fences ++ [f.path] } }.fenceEffect f

/-- A function is fenced for a cause, with its record (R413, R417). -/
def State.fenceFor (s : State) (f : Function) (path : Word) (cause : Nat) : State :=
  if s.fenced f.path then s else (s.fence f).errRecord 0x0141 path 0 0xFFFF cause

/-- A path that names a function that can be fenced (R413). -/
def fencible (p : Word) : Bool := (functionOf p).any fun f => f.path == p

/-- FENCE_UNIT (R413, R414, R417): FENCECMD, whose cause code is 0, names a function, and an uncorrected error of another cause
code the unit of a function (log 53). -/
def execFenceUnit (path : Word) (cause : Nat) (s : State) : Host.Outcome State Fault Refusal :=
  match functionOf path with
  | none => .next s
  | some f => .next (if cause = 0 && f.path != path then s else s.fenceFor f path cause)

/-- The word of a fence mask (R413): a bit for each fenced path that `f` numbers. -/
def State.fenceMask (s : State) (f : Function → Option Nat) : Nat :=
  (((s.fleet.fences.filterMap functionOf).filterMap f).eraseDups.map fun b => 2 ^ b).sum

/-! ### Self-test -/

/-- BISTCTL names a unit that can be tested: a core, an engine, an HBM stack, a link, a thread, a port (R411). -/
def testable (p : Word) : Bool :=
  match functionOf p with
  | some (.channel _ _ _) | some (.lane _) => false
  | some f => f.path == p
  | none => pKind3 p = 0 && pIdx3 p = 0 && ((pDie p < 8 && pKind p = 0x0A && pIdx p < 2) ||
      (pDie p < 8 && 0x0B ≤ pKind p && pKind p ≤ 0x0D && pIdx p = 0) || (pDie p = 8 && pKind p = 0x14 && pIdx p < 8))

/-- BIST_RUN (R411, R412): the unit leaves service; a RUN while one is under way only marks FAILS. -/
def execBistRun (path : Word) (s : State) : Host.Outcome State Fault Refusal :=
  let f := s.fleet
  if f.bist != 0 then .next { s with fleet := { f with fails := BitVec.allOnes 32 } }
  else if !testable path then .next s
  else .next { s with fleet := { f with bist := 1, testing := path } }

/-- No context has a team, a job, a queue or a call on a unit (R412). -/
def State.unitEmpty (s : State) (p : Word) : Bool :=
  match functionOf p with
  | some (.core d k) =>
    !(s.teams.any fun t => t.2.place == .core d k || t.2.place == .draining d k || t.2.place == .zeroing d k) &&
    !(s.chains.any fun c => c.2.engine ≥ 8 && s.engineAt c.2 == (d, k) && c.2.job.isSome)
  | some (.engine d e) => !(s.chains.any fun c => c.2.engine = e && c.2.die = d && c.2.job.isSome)
  | some (.qcp t) => match s.qcp? t with | some q => q.state == .unmapped | none => true
  | some (.gaffer q) => match aget s.svc q with | some x => !x.on | none => true
  | _ => if pKind p = 0x14 then s.svc.all fun q => q.2.calls.all fun k => !(s.callPort q.1 k).any fun x => x.port = pIdx p else true

/-- An HBM stack's lines are lost, their errors with them (R412): they read as memory that nothing has written (log 2, log 35). -/
def State.loseStack (s : State) (d st : Nat) : State :=
  let inStack := fun (pa : Nat) => pa / 0x000C00000000 = 2 * d + st
  { s with mem := s.mem.filter fun p => !inStack p.1, poison := s.poison.filter fun n => !inStack (128 * n) }

/-- An element lies in a unit (R410). -/
def inUnit (unit p : Word) : Bool :=
  pDie p = pDie unit && pKind p = pKind unit && pIdx p = pIdx unit &&
  (pKind3 unit = 0 || (pKind3 p = pKind3 unit && pIdx3 p = pIdx3 unit))

/-- Elements that fail a test, each with its number: their functions are fenced, and each has its record (R412, R413, R417). -/
def State.failUnits (s : State) (failed : List (Word × Nat)) : State :=
  failed.foldl (fun s p => (match functionOf p.1 with | some f => s.fence f | none => s).errRecord 0x0140 p.1 0 0xFFFF p.2) s

/-- BIST_TEST (R412, R417): an emptied unit begins its test; then what has failed in it is fenced, and the unit returns to service.
Where it does not pass, `path` names the deepest failing elements and `test` the numbers of the tests that they fail. -/
def execBistTest (pass : Bool) (path : List Word) (test : List Nat) (s : State) : Host.Outcome State Fault Refusal :=
  let f := s.fleet
  let failed := if pass then [] else path.zip test
  if f.bist = 1 then
    if !s.unitEmpty f.testing then .next s
    else
      let u := if pKind f.testing = 0x0A then s.loseStack (pDie f.testing) (pIdx f.testing) else s
      .next { u with fleet := { f with bist := 2 } }
  else if f.bist != 2 then .next s
  else
    let bad := failed.filter fun p => inUnit f.testing p.1
    .next ({ s with fleet := { f with bist := 0, testing := 0, fails := BitVec.ofNat 32 bad.length } }.failUnits bad)

/-! ### Errors -/

/-- The thread of a prediction not yet relabelled that has a version of a line, and the prediction's place (R341). -/
def State.versionAt (s : State) (line : Nat) : Option (Nat × Nat) :=
  (s.versions.filter fun v => v.line == line).findSome? fun v => match s.qcp? v.thread with
    | some q => (q.preds.findIdx? fun p => p.slot == v.slot).map fun k => (v.thread, k)
    | none => none

/-- The packet of a prediction that was confirmed has a plain launch from now on, `n` its number before (R341). -/
def State.runAnew (s : State) (t : Nat) (p : Prediction) (k : Kernel) : State :=
  match s.qcp? t with
  | none => s
  | some q => (s.newLaunch t q k p.rcd 0).modQ t fun q => { q with
      packets := q.packets.map fun (x : Packet) => if x.launch = some p.launch then { x with launch := some s.fresh } else x }

/-- The predictions of a thread from index k on are lost with a version of theirs (R341): they are discarded as under R340, and
those whose packets have arrived run again as plain launches, with the intervals of their packets. -/
def State.loseVersions (s : State) (t k : Nat) : State :=
  match s.qcp? t with
  | none => s
  | some q =>
    let redo := ((q.preds.drop k).filter Prediction.confirmed).filterMap fun p =>
      (aget s.launches p.launch).map fun l => (p, l.kern)
    let plain := fun (i : Interval) => i.thread == t && redo.any fun r => r.1.slot == i.slot
    let u := { s with table := s.table.map fun i => if plain i then { i with slot := 0 } else i }
    redo.foldl (fun s r => s.runAnew t r.1 r.2) (u.discardPreds t k .paused)

/-- SRAM that holds lines: not a core's register file, scratchpad or accumulators (R410, R417). -/
def holdsLines (path : Word) : Bool :=
  !(pKind path = 0x01 && (pKind3 path = 0x02 || pKind3 path = 0x03 || pKind3 path = 0x04))

/-- ADDR of an error in SRAM (R415): 0 where it holds no lines. -/
def sramAddr (path : Word) (line : Nat) : Nat := if holdsLines path then 128 * line else 0

/-- A line whose data is in error from now on (log 35). -/
def State.poisonLine (s : State) (line : Nat) : State :=
  { s with poison := if s.poison.contains line then s.poison else s.poison ++ [line] }

/-- An uncorrected error in SRAM: the line that it held is in error, and a core or an engine that it lies in is fenced (R413,
R417, log 53). -/
def State.sramError (s : State) (path : Word) (line : Nat) : State :=
  let u := (if holdsLines path then s.poisonLine line else s).errRecord 0x0111 path (sramAddr path line) 0xFFFF 0
  match functionOf path with
  | some f => u.fenceFor f path 0x0111
  | none => u

/-- MEMORY_ERROR (R341, R396, R413, R417): uncorrected data is FLT_POISON to its readers, but for a tracked KV line, whose readers
wait for KV_ERROR, and for a version that is not yet committed. An error in SRAM at a line that has versions strikes the oldest of them: DESIGN CHOICE
(log 73). -/
def execMemoryError (kind : MemErr) (corrected : Bool) (path : Word) (line detail : Nat) (s : State) :
    Host.Outcome State Fault Refusal :=
  let code := match kind with | .hbm | .store => 0x0100 | .lpddr => 0x0102 | .sram => 0x0110
  if corrected then .next (s.errRecord code path (if kind = .sram then sramAddr path line else 128 * line) 0xFFFF (if kind = .sram then 0 else detail))
  else match (if (kind = .sram && holdsLines path) || kind = .store then s.versionAt line else none) with
    | some (t, k) =>
      let qid := ((s.qcp? t).map Qcp.qid).getD 0
      .next ((s.loseVersions t k).errRecord 0x0131 path (128 * line) 0xFFFF qid)
    | none =>
      if kind = .sram then .next (s.sramError path line)
      else if kind = .store then .next (s.errRecord 0x0101 path (128 * line) 0xFFFF detail)
      else if (s.kvOwner line).isSome then .next (s.poisonLine line)
      else .next ((s.poisonLine line).errRecord (code + 1) path (128 * line) 0xFFFF detail)

/-- LINK_FLIT_REPLAYED (R417). -/
def execLinkFlitReplayed (path : Word) (lane : Nat) (s : State) : Host.Outcome State Fault Refusal :=
  .next (s.errRecord 0x0120 path 0 0xFFFF lane)

/-- A lane of a link (R410). -/
def lanePath (p : Word) (lane : Nat) : Word := (p &&& 0xFFFF0000#32) ||| BitVec.ofNat 32 (0x0C * 2 ^ 10 + lane % 2 ^ 10)

/-- LINK_LANE_FAILED (R414, R417): the lane is fenced, and the link runs narrower. -/
def execLinkLaneFailed (path : Word) (lane : Nat) (s : State) : Host.Outcome State Fault Refusal :=
  match functionOf (lanePath path lane) with
  | some (.lane l) =>
    .next (if s.fenced l then s else (s.fence (.lane l)).errRecord 0x0121 l 0 0xFFFF lane)
  | _ => .next s

/-! ### Heat, power, coolant -/

/-- The path of a die, and of the power manager (R410). -/
def diePath (d : Nat) : Word := unitPath d 0 0 0 0
def pmcPath : Word := unitPath 8 0x17 0 0 0

/-- THERMAL_THROTTLE (R427): recorded as the die enters it. -/
def execThermalThrottle (die celsius : Nat) (s : State) : Host.Outcome State Fault Refusal :=
  if celsius ≤ 95 || 105 ≤ celsius || 8 < die then .next s
  else
    let f := s.fleet
    let u := { s with fleet := { f with temps := aset f.temps die celsius } }
    .next (if f.throttled.contains die then u
      else { u with fleet := { u.fleet with throttled := f.throttled ++ [die] } }.errRecord 0x0150 (diePath die) 0 0xFFFF celsius)

/-- THERMAL_TRIP (R427): the part stops every die and waits for a cold reset. -/
def execThermalTrip (die celsius : Nat) (s : State) : Host.Outcome State Fault Refusal :=
  if celsius < 105 || 255 < celsius || 8 < die || s.fleet.tripped then .next s
  else
    let f := s.fleet
    .next ({ s with fleet := { f with tripped := true, temps := aset f.temps die celsius } }.errRecord 0x0151 (diePath die) 0
      0xFFFF celsius)

/-- COOLANT_FLOW_LOW (R427): below 3.0 L/min. -/
def execCoolantFlowLow (dlpm : Nat) (s : State) : Host.Outcome State Fault Refusal :=
  if dlpm ≥ 30 || s.fleet.coolant then .next s
  else .next ({ s with fleet := { s.fleet with coolant := true } }.errRecord 0x0153 pmcPath 0 0xFFFF dlpm)

/-- COOLANT_FLOW_RESTORED (R427). -/
def execCoolantFlowRestored (dlpm : Nat) (s : State) : Host.Outcome State Fault Refusal :=
  .next (if dlpm < 30 then s else { s with fleet := { s.fleet with coolant := false } })

/-- The package power cap in force (R426, R427). -/
def State.watts (s : State) : Nat :=
  let w := bits64 (s.reg 0x2040000 4600) 0 13
  if s.fleet.coolant then Nat.min w 2000 else w

/-- The dies whose temperature has fallen to 95 °C or less are no longer throttled (R427); a die's temperature is a free value
(log 13). -/
def Fleet.cooled (f : Fleet) (free : Nat) : Fleet :=
  let hot := fun (d : Nat) => 95 < (Config.sensor (free + d)).toNat
  { f with throttled := f.throttled.filter hot, temps := f.temps.filter fun p => !f.throttled.contains p.1 || hot p.1 }

/-- POWER_CAP_CORRECTION (R426, R427): under a cap the issue clock is some step of 100 MHz from 1.2 GHz up, a free value (log 13),
and so is that of a throttled die, which is no faster; else it is nominal. Limiting is recorded as it begins. -/
def execPowerCapCorrection (s : State) : Host.Outcome State Fault Refusal :=
  let f := s.fleet.cooled (s.free + 1)
  if s.watts ≥ 4600 && f.throttled.isEmpty then .next { s with fleet := { f with mhz := Config.nominalMhz, slow := [] } }
  else
    let step := fun (k : Nat) => 1200 + 100 * ((Config.sensor (s.free + k)).toNat % 13)
    let mhz := if s.watts ≥ 4600 then Config.nominalMhz else step 0
    let slow := (f.throttled.filter (· < 8)).map fun d => (d, Nat.min mhz (step (d + 10)))
    let u := { s.bump with fleet := { f with mhz := mhz, slow := slow } }
    .next (if f.mhz = Config.nominalMhz && mhz < Config.nominalMhz && s.watts < 4600 then
      u.errRecord 0x0152 pmcPath 0 0xFFFF s.watts else u)

/-! ### Boot -/

/-- The digest of a signing key by its number: 0 the vendor's, else an owner's (R418, R420); none where it may not sign. -/
def Boot.keyOf (b : Boot) (k : Nat) : Option Nat :=
  if k = 0 then (if b.vendoff then none else some Config.vendorDigest)
  else match b.owners.getD (k - 1) none with
    | some (digest, revoked) => if revoked then none else some digest
    | none => none

/-- What the boot ROM finds in a slot (R418, R417): an image it accepts, or the code of a refusal. An image whose index is
the highest its key has had is the one that raised it, and has been accepted (log 30). -/
def Boot.tries (b : Boot) : Option Image → Option Nat
  | none => some 0x0163
  | some i =>
    if (b.keyOf i.key).isNone then some 0x0163
    else if i.index < b.counters.getD i.key 0 then some 0x0162
    else none

/-- BOOT in unit paths (R410). -/
def bootPath : Word := unitPath 8 0x16 0 0 0

/-- The record of a refused image names the slot of its key (R417); for an image of no owner's key the rule gives no value. -/
def State.slotRecord (s : State) (code : Nat) (key : Option Nat) : State :=
  match key with
  | some n => s.errRecord code bootPath 0 0xFFFF n
  | none => s.bump.errRecord code bootPath 0 0xFFFF (Config.keySlot s.free).toNat

/-- What a slot holds while it is written (R419): an image that the ROM refuses. -/
def Image.torn : Image := { key := 5, index := 0, digest := 0 }

/-- The ROM tries NEXT's slot, the other, then the Cullet image (R418). -/
def State.bootUp (s : State) : State :=
  let b := s.boot
  let slot := fun (n : Nat) => if n = 0 then b.slotA else b.slotB
  let ran := fun (s : State) (n : Nat) => { s with boot := { b with ran := n } }
  let refuse := fun (s : State) (n code : Nat) => match slot n with
    | some i => s.slotRecord code (if 1 ≤ i.key && i.key ≤ 4 then some (i.key - 1) else none)
    | none => s
  let one := b.next
  let two := 1 - b.next
  match b.tries (slot one) with
  | none => ran s one
  | some c1 =>
    let u := refuse s one c1
    match b.tries (slot two) with
    | none => ran u two
    | some c2 =>
      let v := refuse u two c2
      if b.cullet then (ran v 2).errRecord 0x0161 bootPath 0 0xFFFF 0
      else { v.errRecord 0x0160 bootPath 0 0xFFFF 0 with fleet := { (v.errRecord 0x0160 bootPath 0 0xFFFF 0).fleet with tripped := true } }

/-- COLD_RESET (R12, R411, R413, R416, R418 to R420): the part is as after reset, but for what flash and fuses hold, where a slot
whose write it cuts stays torn, for fatal records (log 84), host memory, and what self-test fails: the failing elements with the numbers of their tests. The OWNER strap is sampled. -/
def execColdReset (start : PowerOn) (s : State) : Host.Outcome State Fault Refusal :=
  let r := State.reset
  let fs := (start.failed.filterMap fun p => functionOf p.1).eraseDups
  let u := { r with
    mem := s.mem.filter fun p => Config.hostBase ≤ p.1
    boot := { s.boot with result := 0, strap := start.strap, writing := none }
    fleet := { r.fleet with fatal := s.fleet.fatal, fences := fs.map Function.path, fails := BitVec.ofNat 32 start.failed.length }
    out := s.out, schedule := s.schedule, free := s.free, fresh := s.fresh }
  .next (start.failed.foldl (fun s p => s.errRecord 0x0140 p.1 0 0xFFFF p.2) u).bootUp

/-- A thread whose context a warm reset has ended: it is unmapped, and its registers stay (R12, R310); PGEN counts the loss of a
program. -/
def Qcp.ended (q : Qcp) : Qcp :=
  { Qcp.reset with
    qmap := q.qmap &&& ~~~1#64, wptr := q.wptr, rptr := q.rptr, qfault := q.qfault, lastIss := q.lastIss
    pgen := if q.program.isSome then q.pgen + 1 else q.pgen }

/-- Fatal records are readable again after a warm reset (R416, log 84): those not still held go to the ring once more. -/
def Fleet.readFatal (f : Fleet) : Fleet :=
  { f with errors := f.errors ++ f.fatal.filter (fun b => !f.errors.contains b), fatal := [] }

/-- WARM_RESET (R12, R416, R423): every context ends with all that serves it; other registers stay. -/
def execWarmReset (s : State) : Host.Outcome State Fault Refusal :=
  let ens := (List.range 1024).flatMap fun c => [ctxBlock c, svrec c]
  let off := fun (s : State) (o : Nat) => if s.written.contains o then s.setReg o (s.reg o 0 &&& ~~~1#64) else s
  let u := ens.foldl off s
  let v := ((List.range 64).map fun q => svcBlock q + 8).foldl off u
  let w := v.setReg 0x308 (v.reg 0x308 0 &&& ~~~2#64)
  .next { w with
    ctxs := [], launches := [], teams := [], tileJobs := [], chains := [], details := [], zones := [], lgfs := []
    coh := Coh.reset, threads := w.threads.map fun p => (p.1, p.2.ended), qcpAt := 0, table := [], versions := [], seqs := [], kvmap := [], sending := [], arrived := [], nodes := []
    serving := [], svc := w.svc.map fun p => (p.1, p.2.ended), sockets := [], lent := [], cur := none, second := none
    fleet := { w.fleet.readFatal with phases := [] } }

/-! ### Images and keys -/

/-- A request (R419): its body, then the public key that signs, then the signature over the body (log 30). -/
structure Request where
  body : List Byte
  pk   : List Byte
  sig  : List Byte
  deriving DecidableEq, Repr

/-- The bytes of a request taken apart. -/
def Request.ofBytes (b : List Byte) : Request :=
  let n := b.length - sigBytes
  { body := b.take (n - pkBytes), pk := (b.take n).drop (n - pkBytes), sig := b.drop n }

/-- The bytes of the request in the recovery mailbox (R419). -/
def State.requestBytes (s : State) : List Byte := s.bytesAt (s.reg 0x2050008 0).toNat (bits64 (s.reg 0x2050010 0) 32 32)

/-- That request. -/
def State.mailbox (s : State) : Request := Request.ofBytes s.requestBytes

/-- The key among some whose public key a request brings and whose signature it bears (R418, R420). -/
def Boot.signer (b : Boot) (keys : List Nat) (r : Request) : Option Nat :=
  keys.find? fun k => match b.keyOf k with
    | some d => xmssVerify r.pk r.body r.sig && digest r.pk = d
    | none => false

/-- A command ends with its RESULT and DONE (R419). -/
def State.finishCommand (s : State) (result : Nat) : State :=
  { s.setReg 0x2050010 (s.reg 0x2050010 0 ||| 8) with boot := { s.boot with result := BitVec.ofNat 64 result } }

/-- The owner slot that holds the digest of a request's key, revoked or not (R417, R420). -/
def Boot.slotOf (b : Boot) (r : Request) : Option Nat := b.owners.findIdx? fun o => o.any fun k => k.1 == digest r.pk

/-- A key's counter is the highest index it has had accepted (R420). -/
def Boot.accepted (b : Boot) (key index : Nat) : Boot := { b with counters := modAt b.counters key fun n => Nat.max n index }

def Boot.setSlot (b : Boot) (slot : Nat) (i : Image) : Boot :=
  if slot = 0 then { b with slotA := some i } else { b with slotB := some i }

/-- An image for a slot (R418 to R420): it verifies, its index exceeds the highest accepted of its key, and the slot is not
the one that runs (log 30). The slot is torn until it is written whole. -/
def State.beginSlot (s : State) (slot : Nat) : State :=
  let r := s.mailbox
  let b := s.boot
  if b.ran = slot then s.finishCommand 4
  else match b.signer [0, 1, 2, 3, 4] r with
    | none => (s.slotRecord 0x0163 (b.slotOf r)).finishCommand 1
    | some k =>
      let i := sigIndex r.sig
      if i ≤ b.counters.getD k 0 then (s.slotRecord 0x0162 (if k = 0 then none else some (k - 1))).finishCommand 2
      else
        let img : Image := { key := k, index := i, digest := digest r.body }
        { s with boot := { (b.accepted k i).setSlot slot Image.torn with writing := some (slot, img) } }

/-- A slot's write begins, or ends where it has begun (R419): a power failure between the two leaves the slot torn. -/
def State.writeSlot (s : State) (slot : Nat) : State :=
  match s.boot.writing with
  | none => s.beginSlot slot
  | some (n, i) =>
    let t := { s with boot := { s.boot.setSlot n i with writing := none } }.finishCommand 0
    if n = slot then t else t.beginSlot slot

/-- WRITE_SLOT_A, WRITE_SLOT_B (R419). -/
def execWriteSlotA (s : State) : Host.Outcome State Fault Refusal := .next (s.writeSlot 0)
def execWriteSlotB (s : State) : Host.Outcome State Fault Refusal := .next (s.writeSlot 1)

/-- Owner keys, by their numbers among the keys. -/
def ownerKeys : List Nat := [1, 2, 3, 4]

/-- The firmware takes the commands on keys: normal firmware takes 1 and 2 alone (R419, log 30). -/
def Boot.takesKeys (b : Boot) : Bool := b.ran = 2

/-- ENROL_OWNER_KEY (R419, R420): with the OWNER strap the request is the public key alone, else a signed one. -/
def execEnrolOwnerKey (s : State) : Host.Outcome State Fault Refusal :=
  let r := s.mailbox
  let b := s.boot
  let key := if b.strap then s.requestBytes else r.body
  if !b.takesKeys || (!b.strap && (b.signer ownerKeys r).isNone) then .next (s.finishCommand 4)
  else match b.owners.findIdx? Option.isNone with
    | none => .next (s.finishCommand 3)
    | some n =>
      let c := match (if b.strap then none else b.signer ownerKeys r) with
        | some k => b.accepted k (sigIndex r.sig)
        | none => b
      let u := { s with boot := { c with owners := modAt b.owners n fun _ => some (digest key, false) } }
      .next ((u.errRecord 0x0164 bootPath 0 0xFFFF n).finishCommand 0)

/-- REVOKE_OWNER_KEY (R420): the signed request names the slot in its first byte (log 30). -/
def execRevokeOwnerKey (s : State) : Host.Outcome State Fault Refusal :=
  let r := s.mailbox
  let b := s.boot
  let n := leNat (r.body.take 1)
  match b.signer ownerKeys r with
  | none => .next (s.finishCommand 4)
  | some k =>
    if !b.takesKeys || (b.owners.getD n none).isNone then .next (s.finishCommand 4)
    else
      let u := { s with boot := { b.accepted k (sigIndex r.sig) with
        owners := modAt b.owners n fun (o : Option (Nat × Bool)) => o.map fun (k : Nat × Bool) => (k.1, true) } }
      .next ((u.errRecord 0x0165 bootPath 0 0xFFFF n).finishCommand 0)

/-- SET_VENDOFF (R420). -/
def execSetVendoff (s : State) : Host.Outcome State Fault Refusal :=
  match s.boot.signer ownerKeys s.mailbox with
  | none => .next (s.finishCommand 4)
  | some k =>
    if !s.boot.takesKeys then .next (s.finishCommand 4)
    else .next ({ s with boot := { s.boot.accepted k (sigIndex s.mailbox.sig) with vendoff := true } }.finishCommand 0)

/-! ### Attestation -/

/-- The words of the fence masks (R413). -/
def State.fenceWords (s : State) : List Nat :=
  let die := fun (d : Nat) =>
    [s.fenceMask fun f => match f with | .core e k => if e = d then some k else none | _ => none,
     s.fenceMask fun f => match f with | .engine e k => if e = d then some k else none | _ => none,
     s.fenceMask fun f => match f with | .channel e st pc => if e = d then some (32 * st + pc) else none | _ => none,
     s.fenceMask fun f => match f with
       | .lane p => if pDie p = d then some (16 * (pKind p - 0x0B) + pIdx3 p) else none | _ => none]
  (List.range 8).flatMap die ++
    [s.fenceMask fun f => match f with | .qcp t => some t | _ => none,
     s.fenceMask fun f => match f with | .gaffer q => some q | _ => none,
     s.fenceMask fun f => match f with | .lane p => if pDie p = 8 then some (8 * pIdx p + pIdx3 p) else none | _ => none]

/-- ATTESTATION_REPORT (R421): the report is signed with the next index of the current identity key; none is left after
8 × 2^20, and none is made while the Cullet image runs. -/
def execAttestationReport (nonce output : DWord) (s : State) : Host.Outcome State Fault Refusal :=
  let b := s.boot
  let t := (s.setReg 0x2050020 nonce).setReg 0x2050028 output
  if b.ran = 2 || b.reports ≥ 2 ^ 23 then .next (t.setReg 0x2050028 0)
  else
    let key := b.reports / 2 ^ 20
    let image := ((if b.ran = 0 then b.slotA else b.slotB).map Image.digest).getD 0
    let owners := digest (b.owners.flatMap fun o => match o with
      | some (d, false) => leBytes 32 d
      | _ => leBytes 32 0)
    let body := leBytes 4 1 ++ leBytes 4 key ++ leBytes 8 (Config.serial 0).toNat ++ s.bytesAt nonce.toNat 32 ++
      leBytes 32 Config.romDigest ++ leBytes 32 image ++ leBytes 32 Config.culletDigest ++ leBytes 32 owners ++
      leBytes 32 s.acc0 ++ leBytes 32 (digest (s.fenceWords.flatMap (leBytes 8))) ++ leBytes 8 s.cycle ++ leBytes 8 0
    let sig := xmssSign key (b.reports % 2 ^ 20) body
    .next { t.physWrite output.toNat (body ++ sig) with boot := { b with reports := b.reports + 1 } }

end Sys2Proof.Machine
end

