-- ==== Sys2Proof/Machine/Regs.lean ====
section
/-! DEFINITION. The registers of BAR0: what a write does field by field, and what a read gives (R11 to R13, R345). The
command fields of registers that have rows of their own act through those rows; here they are kept as written. -/

namespace Sys2Proof.Machine

open Sys2Proof

/-- Bits [lo+n-1:lo] of a word replaced. -/
def putBits (r : DWord) (lo n x : Nat) : DWord := BitVec.ofNat 64 (r.toNat - bits64 r lo n * 2 ^ lo + x % 2 ^ n * 2 ^ lo)

/-- The fields of a word that a write may change, taken from the written word (R11, R13). -/
def setFields (old v : DWord) (fs : List (Nat × Nat × Bool)) : DWord :=
  fs.foldl (fun r f => if f.2.2 then putBits r f.1 f.2.1 (bits64 v f.1 f.2.1) else r) old

/-- The bits of the bytes that a write names. -/
def byteMask (bytes : Byte) : DWord :=
  BitVec.ofNat 64 ((List.range 8).map fun k => if bytes.getLsbD k then 0xFF * 2 ^ (8 * k) else 0).sum

/-- Reset values other than zero (R335, R351, R409, R426), the mask bits of the MSI-X table among them (log 42). -/
def regReset (off : Nat) : DWord :=
  if 0x308000 ≤ off && off < 0x308200 && off % 0x40 = 0 then 0x10005DC
  else if 0x1000000 ≤ off && off < 0x1008000 && off % 16 = 8 then 0x100000000
  else match off with
    | 0x7F0000 => 8
    | 0x7F0100 => 0x10000
    | 0x2040000 => 4600
    | _ => 0

/-- RW fields of a ring of records (R360, R416, R424). -/
def ringFields (o : Nat) (v : DWord) : List (Nat × Nat × Bool) :=
  let n := bits64 v 0 5
  match o with
  | 0 => [(12, 52, true)]
  | 8 => [(16, 11, true), (0, 5, n = 0 || (6 ≤ n && n ≤ 16))]
  | 0x18 => [(0, 64, true)]
  | _ => []

/-- RW fields of a context block (R349). -/
def ctxFields (en : Bool) (o : Nat) (v : DWord) : List (Nat × Nat × Bool) :=
  match o with
  | 0x00 => [(8, 44, !en)]
  | 0x08 => [(48, 16, true), (0, 4, bits64 v 0 4 < 9)]
  | 0x18 => [(2, 52, true), (0, 1, true)]
  | 0x20 => [(16, 36, true)]
  | _ => []

/-- RW fields of a service queue's registers (R403). -/
def svcFields (en : Bool) (o : Nat) (v : DWord) : List (Nat × Nat × Bool) :=
  match o with
  | 0x00 => [(12, 42, !en), (0, 5, 4 ≤ bits64 v 0 5 && bits64 v 0 5 ≤ 16)]
  | 0x08 => [(32, 10, !en)]
  | _ => []

/-- RW fields of self-test, fences (whose PATH keeps its value where a written one names no such unit, R13), telemetry, power and boot (R411, R413, R416, R419, R421, R424, R426). -/
def fleetFields (off : Nat) (v : DWord) : List (Nat × Nat × Bool) :=
  if 0x2020000 ≤ off && off < 0x2020020 then ringFields (off - 0x2020000) v
  else if 0x2030000 ≤ off && off < 0x2030200 then [(0, 64, true)]
  else if 0x2030200 ≤ off && off < 0x2030220 then ringFields (off - 0x2030200) v
  else match off with
    | 0x2000000 => [(32, 32, testable (v.extractLsb' 32 32)), (0, 2, bits64 v 0 2 < 2)]
    | 0x2010000 => [(32, 32, fencible (v.extractLsb' 32 32)), (0, 1, true)]
    | 0x2040000 => [(0, 13, 1500 ≤ bits64 v 0 13 && bits64 v 0 13 ≤ 4600)]
    | 0x2050008 | 0x2050020 | 0x2050028 => [(0, 64, true)]
    | 0x2050010 => [(32, 32, true), (0, 3, true)]
    | _ => []

/-- No queue is mapped (R335). -/
def State.noQueue (s : State) : Bool := s.threads.all fun p => p.2.state == .unmapped

/-- The RW fields of a register, each by place, width, and whether a write of this value changes it now. -/
def State.regFields (s : State) (off : Nat) (v : DWord) : List (Nat × Nat × Bool) :=
  if 0x100000 ≤ off && off < 0x110000 then ctxFields ((s.reg (off / 0x40 * 0x40) 0).getLsbD 0) (off % 0x40) v
  else if 0x200000 ≤ off && off < 0x200020 then ringFields (off - 0x200000) v
  else if 0x300000 ≤ off && off < 0x304000 then svcFields ((s.reg (off / 0x100 * 0x100 + 8) 0).getLsbD 0) (off % 0x100) v
  else if 0x308000 ≤ off && off < 0x308200 && off % 0x40 = 0 then
    let mtu := bits64 v 0 14
    [(24, 1, true), (16, 8, true),
      (0, 14, 1500 ≤ mtu && mtu ≤ 9216 && s.sockets.all fun k => k.port != (off - 0x308000) / 0x40)]
  else if 0x7F8000 ≤ off && off < 0x7FA000 then [(7, 45, !(s.reg off 0).getLsbD 0)]
  else if 0x800000 ≤ off && off < 0x880000 then
    (if off % 0x4000 = 0x10 then [(0, 3, bits64 v 0 3 < 5)] else [])
  else if 0x1000000 ≤ off && off < 0x1008000 then [(0, 64, true)]
  else if 0x2000000 ≤ off then fleetFields off v
  else match off with
    | 0x200 => [(0, 6, s.ctxs.isEmpty)]
    | 0x300 => [(0, 2, true)]
    | 0x308 => [(1, 1, v.getLsbD 1), (0, 1, !(s.reg 0x308 0).getLsbD 1)]
    | 0x200040 => [(54, 10, true), (0, 6, true)]
    | 0x200080 => [(30, 22, bits64 v 30 (s.bar4 - 30) = 0)]
    | 0x7F0000 => [(0, 7, 1 ≤ bits64 v 0 7 && bits64 v 0 7 ≤ 64 && s.noQueue)]
    | 0x7F0100 => [(0, 32, bits64 v 0 32 = 0 || 1024 ≤ bits64 v 0 32)]
    | 0x7F1000 => [(0, 2, bits64 v 0 2 != 3 && s.serving.isEmpty)]
    | _ => []

/-- W1C bits of a register that is kept as written: SVREC.ERR, RECCMD.DONE (R384, R419). -/
def w1cBits (off : Nat) : DWord :=
  if 0x7F8000 ≤ off && off < 0x7FA000 then 2 else if off = 0x2050010 then 8 else 0

/-- A vector whose mask a write of the MSI-X table has cleared is sent where it is pending (R344). -/
def State.sendPending (s : State) (vec : Nat) : State :=
  if s.pending.contains vec && !s.vecMasked vec then { s with pending := s.pending.filter (· != vec) }.emit (.msix vec) else s

/-- REGISTER_WRITE (R11, R13, R345): an aligned register of BAR0, of which `bytes` names the bytes written. SQTAIL is the
notify register (R403, R404); CTXSTAT.ERR and BOOTSTAT.NEXT are kept apart (R349, R419). -/
def execRegisterWrite (off : Nat) (value : DWord) (bytes : Byte) (s : State) : Host.Outcome State Fault Refusal :=
  let m := byteMask bytes
  let old := s.reg off (regReset off)
  let v := (old &&& ~~~m) ||| (value &&& m)
  if off % 8 != 0 then .next s
  else if 0x100000 ≤ off && off < 0x110000 && off % 0x40 = 0x10 then
    .next (if (value &&& m).getLsbD 8 then { s with errs := s.errs.filter (· != (off - 0x100000) / 0x40) } else s)
  else if 0x300000 ≤ off && off < 0x304000 && off % 0x100 = 0x18 then
    let q := (off - 0x300000) / 0x100
    let tail := BitVec.ofNat 64 (((aget s.svc q).map SvcQueue.tail).getD 0)
    .next (s.notify q none ((tail &&& ~~~m) ||| (value &&& m)).toNat)
  else if off = 0x2050000 then
    let n := bits64 ((BitVec.ofNat 64 (64 * s.boot.next) &&& ~~~m) ||| (value &&& m)) 6 2
    .next (if n < 2 then { s with boot := { s.boot with next := n } } else s)
  else
    let fs := s.regFields off v
    let new := setFields old v fs &&& ~~~(w1cBits off &&& value &&& m)
    let t := if fs.isEmpty then s else s.setReg off new
    .next (if 0x1000000 ≤ off && off < 0x1008000 then t.sendPending ((off - 0x1000000) / 16) else t)

/-! ### Reads -/

/-- A word of a byte string at an offset; beyond it, zero. -/
def wordAt (b : List Byte) (o : Nat) : DWord := BitVec.ofNat 64 (leNat ((b.drop o).take 8))

/-- Registers of a QCP thread (R310 to R314). -/
def State.qcpRead (s : State) (t o : Nat) : DWord :=
  match s.qcp? t with
  | none => if o = 0x10 then s.reg (0x800000 + 0x4000 * t + 0x10) 0 else 0
  | some q => match o with
    | 0x000 => q.qmap
    | 0x008 => BitVec.ofNat 64 (s.qstate t q)
    | 0x010 => s.reg (0x800000 + 0x4000 * t + 0x10) 0
    | 0x018 => q.qfault
    | 0x020 => q.wptr
    | 0x028 => q.rptr
    | 0x030 => q.pgen
    | _ => if 0x1000 ≤ o then wordAt (s.parisonRecord t q) (o - 0x1000) else 0

/-- Registers of a service queue (R403). -/
def State.svcRead (s : State) (q o : Nat) : DWord :=
  match o, aget s.svc q with
  | 0x10, some x => BitVec.ofNat 64 x.head
  | 0x18, some x => BitVec.ofNat 64 x.tail
  | 0x20, some x => BitVec.ofNat 64 x.stat
  | 0x00, _ => s.reg (svcBlock q) 0
  | 0x08, _ => s.reg (svcBlock q + 8) 0
  | _, _ => 0

/-- CAP0 to CAP3 (R422): the features, then cores in service and memory, then ports with a link. -/
def State.capRead (s : State) (n : Nat) : DWord :=
  match n with
  | 0 => 63
  | 1 =>
    let cores := 384 - (s.fleet.fences.filter fun p => match functionOf p with | some (.core _ _) => true | _ => false).length
    BitVec.ofNat 64 (cores + 768 * 2 ^ 16 + 2048 * 2 ^ 32)
  | 2 => BitVec.ofNat 64 ((s.fleet.ports.filter fun p => p.2 != 0).map fun p => 2 ^ p.1).sum
  | _ => 0

/-- Self-test, fences, error records, telemetry, power, boot (R411 to R426). -/
def State.fleetRead (s : State) (off : Nat) : DWord :=
  if 0x2010100 ≤ off && off < 0x2010300 then
    (if off % 0x40 < 0x20 then BitVec.ofNat 64 (s.fenceWords.getD (4 * ((off - 0x2010100) / 0x40) + off % 0x40 / 8) 0) else 0)
  else if 0x2031000 ≤ off && off < 0x2031C00 then
    BitVec.ofNat 64 ((Config.arrayRate (s.free + (off - 0x2031000) / 8)).toNat % 2 ^ 16)
  else if 0x2032000 ≤ off && off < 0x2032048 then
    let d := (off - 0x2032000) / 8
    BitVec.ofNat 64 ((aget s.fleet.temps d).getD ((Config.sensor (s.free + d)).toNat % 256))
  else match off with
    | 0x2000008 => BitVec.ofNat 64 (s.fleet.fails.toNat * 2 ^ 32 + s.fleet.bist)
    | 0x2010400 => BitVec.ofNat 64 (s.fenceWords.getD 32 0)
    | 0x2010408 => BitVec.ofNat 64 (s.fenceWords.getD 33 0)
    | 0x2010410 => BitVec.ofNat 64 (s.fenceWords.getD 34 0)
    | 0x2020020 => BitVec.ofNat 64 s.fleet.dropped
    | 0x2030220 => BitVec.ofNat 64 s.fleet.pdropped
    | 0x2050000 =>
      let owners := (s.boot.owners.zipIdx.map fun (p : Option (Nat × Bool) × Nat) => if p.1.isSome then 2 ^ p.2 else 0).sum
      BitVec.ofNat 64 (64 * s.boot.next + 16 * s.boot.ran + owners)
    | 0x2050018 => s.boot.result
    | _ => s.reg off (regReset off)

/-- What an aligned read of BAR0 returns (R11, R345): registers never written read their reset value. -/
def State.barRead (s : State) (off : Nat) : DWord :=
  if 0x100 ≤ off && off < 0x120 then s.capRead ((off - 0x100) / 8)
  else if 0x100000 ≤ off && off < 0x110000 && off % 0x40 = 0x10 then BitVec.ofNat 64 (s.ctxStat ((off - 0x100000) / 0x40))
  else if 0x300000 ≤ off && off < 0x304000 then s.svcRead ((off - 0x300000) / 0x100) (off % 0x100)
  else if off = 0x7F0008 then BitVec.ofNat 64 s.tableFree
  else if 0x800000 ≤ off && off < 0x880000 then s.qcpRead ((off - 0x800000) / 0x4000) (off % 0x4000)
  else if 0x1008000 ≤ off && off < 0x1008100 then
    BitVec.ofNat 64 ((s.pending.eraseDups.filter fun v => v / 64 = (off - 0x1008000) / 8).map fun v => 2 ^ (v % 64)).sum
  else if 0x2000000 ≤ off then s.fleetRead off
  else s.reg off (regReset off)

/-- What an aligned read of BAR2 returns (R309, R345): zero but at a thread's doorbell, for whose reads no rule gives a value. -/
def State.bar2Read (s : State) (off : Nat) : DWord :=
  if off % 0x1000 = 0 && off / 0x1000 < 32 then Config.doorbell s.free else 0

end Sys2Proof.Machine
end

