-- ==== Sys2Proof/Machine/Shape.lean ====
section
/-! DEFINITION. Shape records and coherence objects as instructions reach them, and VERQ (R83 to R86, R244 to R246, R276). -/

namespace Sys2Proof.Machine

open Sys2Proof

/-! ### Extents -/

/-- The indices of a record's rows: every index but that of dimension 0, which runs along the row. -/
def ShapeRec.rows (r : ShapeRec) : List (List Nat) :=
  (List.range (r.dim 4)).flatMap fun l => (List.range (r.dim 3)).flatMap fun k => (List.range (r.dim 2)).flatMap fun j =>
    (List.range (r.dim 1)).map fun i => [0, i, j, k, l]

/-- The virtual lines that hold a byte of an element or of a scale (R245). -/
def ShapeRec.extent (r : ShapeRec) : List Nat :=
  let linesIn := fun (va n : Nat) => if n = 0 then [] else (List.range ((va + n - 1) / 128 - va / 128 + 1)).map (va / 128 + ·)
  ((r.rows.flatMap fun ix => linesIn (r.addr ix) (r.dim 0 * r.bits / 8)) ++
   (if r.blk.isSome then r.rows.flatMap fun ix => linesIn (r.scaleAddr ix) (r.dim 0 / 32) else [])).eraseDups

/-- The physical lines of an extent, once every page of it translates as a load's does (R245, R276). -/
def Gx.extentGo (x : Gx) (r : ShapeRec) (k : List Nat → State) : State :=
  x.memGo (r.extent.map fun n =>
    ({ lane := x.low, va := 128 * n, size := 0, need := .r, halves := none, whole := true } : Want)) fun ls =>
      k (ls.flatMap fun p => p.2.lines 128).eraseDups

/-- No copy of a line is left, and none is on its way (R276). -/
def Coh.gone (c : Coh) (line : Nat) : Bool :=
  !(c.held.any fun h => h.line == line) && !(c.hosted.any fun h => h / 2 == line) && !(c.grants.any fun g => g.line == line) &&
  !(c.recalls.any fun r => r.line == line) && !(c.acks.any fun a => a.line == line)

/-- A request that recalls a line for a move is still out (R276). -/
def Coh.moveAsked (c : Coh) (line : Nat) : Bool := c.reqs.any fun q => q.kind == .move && q.line == line

/-- A group has recalled a line for its move, and has kept it since. -/
def Coh.recalled (c : Coh) (r : GRef) (line : Nat) : Bool :=
  c.moving.contains (line, r) && !c.moveAsked line && c.gone line

/-- Some lines are kept for a group's move, and those not yet recalled are asked for at their homes (R276). -/
def State.askMove (s : State) (r : GRef) (lines : List Nat) : State :=
  let kept := s.coh.moving.filter fun m => s.mover m.2 && !(m.2 == r && lines.contains m.1)
  let c := { s.coh with moving := kept ++ lines.map fun n => (n, r) }
  { s with coh := (lines.filter fun n => !s.coh.recalled r n).foldl (fun c n => c.ask (.of .move sidPart n 0)) c }

/-- Every cached copy of some device lines is recalled, the instruction waiting for the answers (R276): accesses that come in
the meantime wait at the homes until it goes on. -/
def Gx.recallAll (x : Gx) (lines : List Nat) (k : State → State) : State :=
  let ds := lines.filter fun n => paDevice (128 * n)
  if ds.any fun n => (x.s.ownerOf n).isSome then x.stall x.s0
  else if ds.all (x.s.coh.recalled x.c.g) then
    k { x.s with coh := { x.s.coh with moving := x.s.coh.moving.filter fun m => m.2 != x.c.g } }
  else x.stall (x.s0.askMove x.c.g ds)

/-- Some line belongs to a declared object other than a slot's (R245). -/
def State.overlaps (s : State) (c slot : Nat) (lines : List Nat) : Bool :=
  s.ctxs.any fun p => p.2.slots.any fun q => (p.1 != c || q.1 != slot) && lines.any q.2.decl.contains

/-- octl.decl (R245, R276) of a slot's record, and the instruction's end. -/
def Gx.declare (x : Gx) (slot : Nat) (r : ShapeRec) (k : State → State) : State :=
  x.extentGo r fun lines =>
    if x.s.overlaps x.t.ctx slot lines then x.fault x.s fltOperand
    else x.recallAll lines fun t => k (t.modSlot x.t.ctx slot fun q => { q with decl := lines })

/-! ### SHDEF, SHREL, SHID -/

/-- The lowest-numbered free slot that no job holds (R85). -/
def Ctx.freeSlot (c : Ctx) : Option Nat :=
  (List.range c.shslots).find? fun n => let q := c.slot n; !q.used && q.held = 0

/-- A handle (R84). -/
def handleOf (gen slot : Nat) : DWord := BitVec.ofNat 64 (gen * 2 ^ 20 + slot)

/-- A record placed in a slot: its bytes go to the table with the slot's generation (R81, R84). -/
def State.place (s : State) (c slot : Nat) (bs : List Byte) : State :=
  match s.ctx? c with
  | none => s
  | some x =>
    let gen := (x.slot slot).gen
    (s.modSlot c slot fun q => { q with used := true }).writeBytes
      (located (x.recAt slot) (bs.take 12 ++ leBytes 2 gen ++ bs.drop 14))

/-- SHDEF (R83, R85, R244). -/
def execShdef (f : FForm) (s : State) : Host.Outcome State Fault Refusal :=
  gangF 0xCD f s free fun x =>
    let va := x.usrc f.a .ui64 64
    let want := fun (k : Nat) => ({ lane := x.low, va := va + 8 * k, size := 8, need := .r, whole := true } : Want)
    if x.t.slot != 0 then x.heldHere
    else if va % 128 != 0 then x.fault x.s fltAlign 0xFF va
    else x.memGo ((List.range 16).map want) fun ls =>
      let bs := ls.flatMap fun p => x.loadBytes x.s p.2 8
      let r := ShapeRec.ofBytes bs
      if !r.valid (bs.take 12 ++ leBytes 2 (leNat ((bs.drop 12).take 2) / 2 ^ 12 * 2 ^ 12) ++ bs.drop 14) then
        x.fault x.s fltOperand
      else if r.featureOff x.feat then x.fault x.s fltFeature
      else match (x.s.ctx? x.t.ctx).bind Ctx.freeSlot with
        | none => x.doneS f.d 0
        | some n =>
          let gen := match x.s.ctx? x.t.ctx with | some c => (c.slot n).gen | none => 1
          let fin := fun (t : State) => x.touched (x.done (t.place x.t.ctx n bs) (x.putS f.d (handleOf gen n))) 0 ls false
          if r.flags % 2 = 1 then x.declare n r fin else fin x.s

/-- An object's lines go back to implicit objects (R245, R276). -/
def Gx.undeclare (x : Gx) (slot : Nat) (k : State → State) : State :=
  match (x.s.ctx? x.t.ctx).map fun c => (c.slot slot).decl with
  | some (d :: ds) => x.recallAll (d :: ds) fun t => k (t.modSlot x.t.ctx slot fun q => { q with decl := [] })
  | _ => k x.s

/-- The next generation: from 4,095 to 1 (R84). -/
def nextGen (g : Nat) : Nat := if g ≥ 4095 then 1 else g + 1

/-- SHREL (R84, R86, R233, R244). -/
def execShrel (f : FForm) (s : State) : Host.Outcome State Fault Refusal :=
  gangF 0xCE f s free fun x =>
    if x.t.slot != 0 then x.heldHere
    else match x.s.handleSlot x.t.ctx (x.usrc f.a .ui64 64 % 2 ^ 32) with
      | none => x.fault x.s fltStale
      | some n => x.undeclare n fun t =>
        x.done ((t.disarm x.t.ctx n).modSlot x.t.ctx n fun q => { q with used := false, gen := nextGen q.gen }) id

/-- The slot of a context is a declared object. -/
def State.declared (s : State) (c slot : Nat) : Bool :=
  match s.ctx? c with
  | some x => !(x.slot slot).decl.isEmpty
  | none => false

/-- SHID (R244). -/
def execShid (f : FForm) (s : State) : Host.Outcome State Fault Refusal :=
  gangF 0xCC f s free fun x =>
    match x.s.handle x.t.ctx (x.usrc f.a .ui64 64 % 2 ^ 32) with
    | none => x.fault x.s fltStale
    | some (n, r) =>
      x.doneS f.d (BitVec.ofNat 64 ((if x.s.declared x.t.ctx n then 2 ^ 24 else 0) + r.flags * 2 ^ 16 + r.rank * 2 ^ 8 + r.fmt))

/-! ### OCTL -/

/-- The D of FN 0 to 2 must be `zero` (R245). -/
def octlD (f : FForm) (_ : Gx) : Bool := f.d = .zero

/-- What the forms of OCTL share (R245). -/
def octlF (f : FForm) (s : State) (ok : Gx → Bool) (k : Gx → Nat → ShapeRec → State) : Host.Outcome State Fault Refusal :=
  gangF 0xCF f s ok fun x =>
    if x.t.slot != 0 then x.heldHere
    else match x.s.handle x.t.ctx (x.usrc f.a .ui64 64 % 2 ^ 32) with
      | none => x.fault x.s fltStale
      | some (n, r) => k x n r

def execOctlDecl (f : FForm) (s : State) : Host.Outcome State Fault Refusal :=
  octlF f s (octlD f) fun x n r => if x.s.declared x.t.ctx n then x.done x.s id else x.declare n r fun t => x.done t id

def execOctlUndecl (f : FForm) (s : State) : Host.Outcome State Fault Refusal :=
  octlF f s (octlD f) fun x n _ => x.undeclare n fun t => x.done t id

/-- The lines of an object: as declared, or as its extent translates. -/
def Gx.objectGo (x : Gx) (slot : Nat) (r : ShapeRec) (k : List Nat → State) : State :=
  match (x.s.ctx? x.t.ctx).map fun c => (c.slot slot).decl with
  | some (d :: ds) => k (d :: ds)
  | _ => x.extentGo r k

/-- octl.flush (R195, R245): as CINV, it performs the group's own stores to the lines first, and waits until no cache holds one. -/
def execOctlFlush (f : FForm) (s : State) : Host.Outcome State Fault Refusal :=
  octlF f s (octlD f) fun x n r => x.objectGo n r fun lines =>
    if lines.any fun n => (x.s.ownerOf n).isSome then x.stall x.s0
    else match x.s.drainLines x.c.g lines 200 with
    | .wait t => x.stall t
    | .done u =>
      let t := lines.foldl State.dropLine u
      if t.coh.held.any fun h => lines.contains h.line then x.stall t else x.done t id

/-- octl.query (R245, R277): lines of host memory belong to no object (R275). -/
def execOctlQuery (f : FForm) (s : State) : Host.Outcome State Fault Refusal :=
  octlF f s free fun x n r => x.objectGo n r fun lines =>
    let hs := x.s.coh.held.filter fun h => lines.contains h.line && !hostLine h.line
    let cached := (hs.map Held.line).eraseDups.length
    let clusters := ((hs.map Held.sid).filter fun i => i % 128 < 48).eraseDups.length
    x.doneS f.d (BitVec.ofNat 64 (cached * 2 ^ 32 + clusters % 2 ^ 16 * 2 ^ 16 + (if x.s.declared x.t.ctx n then 1 else 0)))

/-! ### VERQ -/

/-- VERQ (R246, R335). -/
def execVerq (f : FForm) (s : State) : Host.Outcome State Fault Refusal :=
  gangF 0xD0 f s free fun x =>
    let b := x.srcBz x.low f.b .ui64 64
    let thread := match aget x.s.launches x.t.launch with | some l => l.thread | none => 32
    match b with
    | 0 => x.doneS f.d (BitVec.ofNat 64 x.t.slot)
    | 1 => x.doneS f.d (BitVec.ofNat 64 (x.s.queueFree thread))
    | _ => x.fault x.s fltOperand

end Sys2Proof.Machine
end

