-- ==== Sys2Proof/Machine/Translation.lean ====
section
/-! DEFINITION. Translation through ATS, page requests and invalidation (R251, R297, R352, R353). -/

namespace Sys2Proof.Machine

open Sys2Proof

/-- What the part caches for a page after a completion (R352). -/
def cacheAts (ats : List Ats) (page host : Nat) (r w : Bool) : List Ats :=
  let rest := ats.filter fun a => a.page != page
  if r || w then { page := page, host := host, r := r, w := w } :: rest else rest

/-- Waiters whose access fails get the code it raises (R352). -/
def State.deny (s : State) (c page code : Nat) (ws : List (Agent × Bool)) : State :=
  s.modCtx c fun x =>
    { x with denied := x.denied ++ ws.map fun w => { agent := w.1, page := page, write := w.2, code := code } }

/-- One waiter joins a page request that covers its need, or has one sent (R352 step 3), of which at most 1,024 are outstanding
(R344): beyond them the access asks again. -/
def State.pageRequest (s : State) (c page : Nat) (w : Agent × Bool) : State :=
  match s.ctx? c with
  | none => s
  | some x =>
    let join := fun (q : PageReq) => { q with waiters := if q.waiters.contains w then q.waiters else w :: q.waiters }
    match x.reqs.findIdx? fun q => q.pri && q.page == page && (q.write || !w.2) with
    | some k => s.modCtx c fun x => { x with reqs := modAt x.reqs k join }
    | none =>
      if s.outstanding true ≥ 1024 then s
      else (s.modCtx c fun x =>
        { x with reqs := x.reqs ++ [{ page := page, write := w.2, pri := true, again := false, waiters := [w], sent := true }] }).emit
          (.pri c page w.2)

/-- A translation that waited to be asked for again goes out where there is room (R344). -/
def State.sendAgain (s : State) : State :=
  match s.ctxs.findSome? fun p => (p.2.reqs.findIdx? fun q => !q.sent).map fun k => (p.1, k) with
  | some (c, k) =>
    if s.outstanding false ≥ 1024 then s
    else
      let page := ((s.ctx? c).bind fun x => x.reqs[k]?.map PageReq.page).getD 0
      (s.modCtx c fun x => { x with reqs := modAt x.reqs k fun q => { q with sent := true } }).emit (.ats c page)
  | none => s

/-- ATS_TRANSLATION_COMPLETION (R352 step 2): the translation, which names the page of host memory (log 15), is cached; an access that it does not serve asks for the page,
or fails. -/
def execAtsTranslationCompletion (ctx page host : Nat) (r w : Bool) (s : State) : Host.Outcome State Fault Refusal :=
  match s.ctx? ctx with
  | none => .next s
  | some x => match x.reqs.findIdx? fun q => !q.pri && q.page == page && q.sent with
    | none => .next s
    | some k =>
      let q := x.reqs.getD k { page := page, write := false, pri := false, again := false, waiters := [], sent := true }
      let u := s.modCtx ctx fun x => { x with reqs := dropAt x.reqs k, ats := cacheAts x.ats page host r w }
      let lacking := q.waiters.filter fun a => if a.2 then !w else !r
      .next (if q.again then u.deny ctx page fltProtection lacking
        else if !x.priOn then u.deny ctx page fltNotPresent lacking
        else lacking.foldl (fun s a => s.pageRequest ctx page a) u).sendAgain

/-- PRI_RESPONSE (R344, R352 step 4): after Success the translation is asked for again, as soon as there is room for one more
request. -/
def execPriResponse (ctx page : Nat) (write success : Bool) (s : State) : Host.Outcome State Fault Refusal :=
  match s.ctx? ctx with
  | none => .next s
  | some x => match x.reqs.findIdx? fun q => q.pri && q.page == page && q.write == write with
    | none => .next s
    | some k =>
      let q := x.reqs.getD k { page := page, write := false, pri := false, again := false, waiters := [], sent := true }
      let u := s.modCtx ctx fun x => { x with reqs := dropAt x.reqs k }
      .next (if success then
          (u.modCtx ctx fun x => { x with
            reqs := x.reqs ++ [{ page := page, write := false, pri := false, again := true, waiters := q.waiters, sent := false }] }).sendAgain
        else u.deny ctx page fltNotPresent q.waiters)

/-- ATS_INVALIDATE (R353): the translation goes at once; buffered stores keep their bytes. The queue of invalidations holds 32
(R344): DESIGN CHOICE (log 72), one beyond them waits at the host. -/
def execAtsInvalidate (ctx page : Nat) (s : State) : Host.Outcome State Fault Refusal :=
  .next (if (s.ctxs.map fun p => p.2.inval.length).sum ≥ 32 then s else s.modCtx ctx fun x => { x with
    ats := x.ats.filter fun a => a.page != page
    inval := if x.inval.contains page then x.inval else x.inval ++ [page] })

/-- An access that used a page's translation of a context is not over (R297, R353). -/
def State.pageInUse (s : State) (c page : Nat) : Bool := (s.pagesInUse c).contains (some page)

/-- INVALIDATION_COMPLETE (R353). -/
def execInvalidationComplete (ctx page : Nat) (s : State) : Host.Outcome State Fault Refusal :=
  match s.ctx? ctx with
  | none => .next s
  | some x =>
    if !x.inval.contains page || s.pageInUse ctx page then .next s
    else .next ((s.modCtx ctx fun x => { x with inval := x.inval.filter (· != page) }).emit (.invalDone ctx page))

end Sys2Proof.Machine
end

