-- ==== Sys2Proof/Machine/Uniform.lean ====
section
/-! DEFINITION. Uniform instructions (R174 to R176). -/

namespace Sys2Proof.Machine

open Sys2Proof

/-- Uniform operands A, B and C at the width of the type (R174). -/
def Gx.ua (x : Gx) (f : FForm) : Nat := x.usrc f.a f.ty f.ty.bits
def Gx.ub (x : Gx) (f : FForm) : Nat := x.usrcB f.b f.ty f.ty.bits
def Gx.ubz (x : Gx) (f : FForm) : Nat := x.srcBz x.low f.b f.ty f.ty.bits

/-- A uniform result of two integers, extended to 64 bits (R174, R175). -/
def uniInt (op : Nat) (f : FForm) (s : State) (val : Gx → Nat) : Host.Outcome State Fault Refusal :=
  uniF op f s fun x => extend64 f.ty (val x)

/-- A uniform floating result with one draw under SR (R71, R175). -/
def uniDraw (op : Nat) (f : FForm) (s : State) (val : Gx → DWord → Nat × DWord) : Host.Outcome State Fault Refusal :=
  gangF op f s free fun x =>
    let r := val x x.g.rng
    x.done x.s fun g => x.putS f.d (extend64 f.ty r.1) { g with rng := r.2 }

def execUadd (f : FForm) (s : State) : Host.Outcome State Fault Refusal :=
  uniInt 0x58 f s fun x => intOp f.ty (· + ·) (x.ua f) (x.ub f)

def execUsub (f : FForm) (s : State) : Host.Outcome State Fault Refusal :=
  uniInt 0x59 f s fun x => intOp f.ty (· - ·) (x.ua f) (x.ub f)

def execUmul (f : FForm) (s : State) : Host.Outcome State Fault Refusal :=
  uniInt 0x5A f s fun x => intOp f.ty (· * ·) (x.ua f) (x.ub f)

def execUand (f : FForm) (s : State) : Host.Outcome State Fault Refusal :=
  uniInt 0x5B f s fun x => x.ua f &&& x.ub f

def execUor (f : FForm) (s : State) : Host.Outcome State Fault Refusal :=
  uniInt 0x5C f s fun x => x.ua f ||| x.ub f

def execUxor (f : FForm) (s : State) : Host.Outcome State Fault Refusal :=
  uniInt 0x5D f s fun x => x.ua f ^^^ x.ub f

def execUshl (f : FForm) (s : State) : Host.Outcome State Fault Refusal :=
  uniInt 0x5E f s fun x => shlOp f.ty.bits (x.ua f) (x.ub f)

def execUshr (f : FForm) (s : State) : Host.Outcome State Fault Refusal :=
  uniInt 0x5F f s fun x => shrOp f.ty.bits (x.ua f) (x.ub f)

def execUcmp (f : FForm) (s : State) : Host.Outcome State Fault Refusal :=
  uniF 0x60 f s fun x => if icmpBit f.fn f.ty (x.ua f) (x.ub f) then 1 else 0

/-- C is tested on all 64 bits. -/
def execUsel (f : FForm) (s : State) : Host.Outcome State Fault Refusal :=
  uniInt 0x61 f s fun x => if x.usrc f.c f.ty 64 != 0 then x.ua f else x.ub f

def execUlil (f : FForm) (s : State) : Host.Outcome State Fault Refusal := uniInt 0x62 f s fun x => x.ub f

/-- With a 32-bit type the high word is rewritten as the result is extended (R175). -/
def execUlih (f : FForm) (s : State) : Host.Outcome State Fault Refusal :=
  uniInt 0x63 f s fun x => quarter f.fn (x.usrc f.d f.ty f.ty.bits) (x.ubz f)

def execUmin (f : FForm) (s : State) : Host.Outcome State Fault Refusal :=
  uniInt 0x64 f s fun x => intOp f.ty (fun a b => if a ≤ b then a else b) (x.ua f) (x.ub f)

def execUmax (f : FForm) (s : State) : Host.Outcome State Fault Refusal :=
  uniInt 0x65 f s fun x => intOp f.ty (fun a b => if a ≤ b then b else a) (x.ua f) (x.ub f)

/-- An IMM16 lane above 31 is refused (R176). -/
def execUpick (f : FForm) (s : State) : Host.Outcome State Fault Refusal :=
  gangF 0x66 f s (fun _ => match f.b with | .imm i => i.toNat < 32 | _ => true) fun x =>
    x.doneS f.d (extend64 f.ty (x.src (x.srcBz x.low f.b .ui64 64 % 32) f.a f.ty f.ty.bits))

def execUlea (f : FForm) (s : State) : Host.Outcome State Fault Refusal :=
  uniF 0x67 f s fun x => BitVec.ofNat 64 (leaOp f.fn (x.ua f) (x.usrcB f.b f.ty 32))

def execUfadd (f : FForm) (s : State) : Host.Outcome State Fault Refusal :=
  uniDraw 0x68 f s fun x rng =>
    let a := f.ty.val (x.ua f)
    let b := f.ty.val (x.ub f)
    let m := x.mode f f.ty
    roundRes f.ty m (x.sat f f.ty) (infFree a && infFree b) (a.add (m == .rdn) b) rng

def execUfmul (f : FForm) (s : State) : Host.Outcome State Fault Refusal :=
  uniDraw 0x69 f s fun x rng =>
    let a := f.ty.val (x.ua f)
    let b := f.ty.val (x.ub f)
    roundRes f.ty (x.mode f f.ty) (x.sat f f.ty) (infFree a && infFree b) (a.mul b) rng

def execUfma (f : FForm) (s : State) : Host.Outcome State Fault Refusal :=
  uniDraw 0x6A f s fun x rng =>
    let a := f.ty.val (x.ua f)
    let b := f.ty.val (x.ub f)
    let c := f.ty.val (x.usrc f.c f.ty f.ty.bits)
    let m := x.mode f f.ty
    roundRes f.ty m (x.sat f f.ty) (infFree a && infFree b && infFree c) (FV.add (m == .rdn) (a.mul b) c) rng

def execUmov (f : FForm) (s : State) : Host.Outcome State Fault Refusal := uniInt 0x6B f s fun x => x.ua f

/-- FN is the source type (R175). -/
def execUcvt (f : FForm) (s : State) : Host.Outcome State Fault Refusal :=
  uniDraw 0x6C f s fun x rng =>
    let src := Ty.ofCode f.fn
    convert src f.ty (x.mode f f.ty) (x.sat f f.ty) (x.usrc f.a src src.bits) rng

end Sys2Proof.Machine
end

