-- ==== Sys2Proof/Machine/Dispatch.lean ====
section
/-! DEFINITION. exec: one arm for each constructor of Instr. -/

namespace Sys2Proof.Machine

open Sys2Proof

def exec (i : Instr) (s : State) : Host.Outcome State Fault Refusal :=
  match i with
  | .nop f => Sys2Proof.Machine.execNop f s
  | .iadd f => Sys2Proof.Machine.execIadd f s
  | .isub f => Sys2Proof.Machine.execIsub f s
  | .imul f => Sys2Proof.Machine.execImul f s
  | .imulh f => Sys2Proof.Machine.execImulh f s
  | .imad f => Sys2Proof.Machine.execImad f s
  | .idiv f => Sys2Proof.Machine.execIdiv f s
  | .irem f => Sys2Proof.Machine.execIrem f s
  | .imin f => Sys2Proof.Machine.execImin f s
  | .imax f => Sys2Proof.Machine.execImax f s
  | .iabs f => Sys2Proof.Machine.execIabs f s
  | .ineg f => Sys2Proof.Machine.execIneg f s
  | .and f => Sys2Proof.Machine.execAnd f s
  | .or f => Sys2Proof.Machine.execOr f s
  | .xor f => Sys2Proof.Machine.execXor f s
  | .andn f => Sys2Proof.Machine.execAndn f s
  | .not f => Sys2Proof.Machine.execNot f s
  | .shl f => Sys2Proof.Machine.execShl f s
  | .shr f => Sys2Proof.Machine.execShr f s
  | .sar f => Sys2Proof.Machine.execSar f s
  | .rot f => Sys2Proof.Machine.execRot f s
  | .bfe f => Sys2Proof.Machine.execBfe f s
  | .bfi f => Sys2Proof.Machine.execBfi f s
  | .popc f => Sys2Proof.Machine.execPopc f s
  | .clz f => Sys2Proof.Machine.execClz f s
  | .brev f => Sys2Proof.Machine.execBrev f s
  | .icmp f => Sys2Proof.Machine.execIcmp f s
  | .sel f => Sys2Proof.Machine.execSel f s
  | .iadds f => Sys2Proof.Machine.execIadds f s
  | .isubs f => Sys2Proof.Machine.execIsubs f s
  | .lea f => Sys2Proof.Machine.execLea f s
  | .mov f => Sys2Proof.Machine.execMov f s
  | .lil f => Sys2Proof.Machine.execLil f s
  | .lih f => Sys2Proof.Machine.execLih f s
  | .vote f => Sys2Proof.Machine.execVote f s
  | .shfl f => Sys2Proof.Machine.execShfl f s
  | .redu f => Sys2Proof.Machine.execRedu f s
  | .scan f => Sys2Proof.Machine.execScan f s
  | .matchEq f => Sys2Proof.Machine.execMatchEq f s
  | .elect f => Sys2Proof.Machine.execElect f s
  | .prmt f => Sys2Proof.Machine.execPrmt f s
  | .idot4 f => Sys2Proof.Machine.execIdot4 f s
  | .idot8 f => Sys2Proof.Machine.execIdot8 f s
  | .fadd f => Sys2Proof.Machine.execFadd f s
  | .fsub f => Sys2Proof.Machine.execFsub f s
  | .fmul f => Sys2Proof.Machine.execFmul f s
  | .fma f => Sys2Proof.Machine.execFma f s
  | .fmin f => Sys2Proof.Machine.execFmin f s
  | .fmax f => Sys2Proof.Machine.execFmax f s
  | .fabs f => Sys2Proof.Machine.execFabs f s
  | .fneg f => Sys2Proof.Machine.execFneg f s
  | .fsgn f => Sys2Proof.Machine.execFsgn f s
  | .fcmp f => Sys2Proof.Machine.execFcmp f s
  | .frcp f => Sys2Proof.Machine.execFrcp f s
  | .frsq f => Sys2Proof.Machine.execFrsq f s
  | .fsqrt f => Sys2Proof.Machine.execFsqrt f s
  | .fdiv f => Sys2Proof.Machine.execFdiv f s
  | .fexp2 f => Sys2Proof.Machine.execFexp2 f s
  | .flog2 f => Sys2Proof.Machine.execFlog2 f s
  | .fsin f => Sys2Proof.Machine.execFsin f s
  | .fcos f => Sys2Proof.Machine.execFcos f s
  | .ftanh f => Sys2Proof.Machine.execFtanh f s
  | .fsigm f => Sys2Proof.Machine.execFsigm f s
  | .fclas f => Sys2Proof.Machine.execFclas f s
  | .frnd f => Sys2Proof.Machine.execFrnd f s
  | .fscal f => Sys2Proof.Machine.execFscal f s
  | .fdot2 f => Sys2Proof.Machine.execFdot2 f s
  | .fdot4 f => Sys2Proof.Machine.execFdot4 f s
  | .smrg f => Sys2Proof.Machine.execSmrg f s
  | .cvt f => Sys2Proof.Machine.execCvt f s
  | .cvtfi f => Sys2Proof.Machine.execCvtfi f s
  | .cvtif f => Sys2Proof.Machine.execCvtif f s
  | .cvtii f => Sys2Proof.Machine.execCvtii f s
  | .pack f => Sys2Proof.Machine.execPack f s
  | .unpk f => Sys2Proof.Machine.execUnpk f s
  | .qnt f => Sys2Proof.Machine.execQnt f s
  | .dqnt f => Sys2Proof.Machine.execDqnt f s
  | .dual p q => Sys2Proof.Machine.execDual p q s
  | .uadd f => Sys2Proof.Machine.execUadd f s
  | .usub f => Sys2Proof.Machine.execUsub f s
  | .umul f => Sys2Proof.Machine.execUmul f s
  | .uand f => Sys2Proof.Machine.execUand f s
  | .uor f => Sys2Proof.Machine.execUor f s
  | .uxor f => Sys2Proof.Machine.execUxor f s
  | .ushl f => Sys2Proof.Machine.execUshl f s
  | .ushr f => Sys2Proof.Machine.execUshr f s
  | .ucmp f => Sys2Proof.Machine.execUcmp f s
  | .usel f => Sys2Proof.Machine.execUsel f s
  | .ulil f => Sys2Proof.Machine.execUlil f s
  | .ulih f => Sys2Proof.Machine.execUlih f s
  | .umin f => Sys2Proof.Machine.execUmin f s
  | .umax f => Sys2Proof.Machine.execUmax f s
  | .upick f => Sys2Proof.Machine.execUpick f s
  | .ulea f => Sys2Proof.Machine.execUlea f s
  | .ufadd f => Sys2Proof.Machine.execUfadd f s
  | .ufmul f => Sys2Proof.Machine.execUfmul f s
  | .ufma f => Sys2Proof.Machine.execUfma f s
  | .umov f => Sys2Proof.Machine.execUmov f s
  | .ucvt f => Sys2Proof.Machine.execUcvt f s
  | .bra f => Sys2Proof.Machine.execBra f s
  | .bru f => Sys2Proof.Machine.execBru f s
  | .jmpi f => Sys2Proof.Machine.execJmpi f s
  | .call f => Sys2Proof.Machine.execCall f s
  | .calli f => Sys2Proof.Machine.execCalli f s
  | .ret f => Sys2Proof.Machine.execRet f s
  | .join f => Sys2Proof.Machine.execJoin f s
  | .joinComplete g lane => Sys2Proof.Machine.execJoinComplete g lane s
  | .exit f => Sys2Proof.Machine.execExit f s
  | .bar f => Sys2Proof.Machine.execBar f s
  | .cbar f => Sys2Proof.Machine.execCbar f s
  | .barrierComplete team cluster n => Sys2Proof.Machine.execBarrierComplete team cluster n s
  | .waitseq f => Sys2Proof.Machine.execWaitseq f s
  | .waitseqSatisfied g lane => Sys2Proof.Machine.execWaitseqSatisfied g lane s
  | .sleep f => Sys2Proof.Machine.execSleep f s
  | .sleepWake g lane => Sys2Proof.Machine.execSleepWake g lane s
  | .pause f => Sys2Proof.Machine.execPause f s
  | .pauseExpiry g => Sys2Proof.Machine.execPauseExpiry g s
  | .setpri f => Sys2Proof.Machine.execSetpri f s
  | .yield f => Sys2Proof.Machine.execYield f s
  | .loop f => Sys2Proof.Machine.execLoop f s
  | .ld f => Sys2Proof.Machine.execLd f s
  | .st f => Sys2Proof.Machine.execSt f s
  | .lds f => Sys2Proof.Machine.execLds f s
  | .sts f => Sys2Proof.Machine.execSts f s
  | .ldk f => Sys2Proof.Machine.execLdk f s
  | .ldt f => Sys2Proof.Machine.execLdt f s
  | .stt f => Sys2Proof.Machine.execStt f s
  | .atom f => Sys2Proof.Machine.execAtom f s
  | .atoms f => Sys2Proof.Machine.execAtoms f s
  | .cas f => Sys2Proof.Machine.execCas f s
  | .cass f => Sys2Proof.Machine.execCass f s
  | .lda f => Sys2Proof.Machine.execLda f s
  | .str f => Sys2Proof.Machine.execStr f s
  | .fence f => Sys2Proof.Machine.execFence f s
  | .pref f => Sys2Proof.Machine.execPref f s
  | .cwb f => Sys2Proof.Machine.execCwb f s
  | .cinv f => Sys2Proof.Machine.execCinv f s
  | .bobjInit f => Sys2Proof.Machine.execBobjInit f s
  | .bobjArrive f => Sys2Proof.Machine.execBobjArrive f s
  | .bobjWait f => Sys2Proof.Machine.execBobjWait f s
  | .bobjWaitPass g lane => Sys2Proof.Machine.execBobjWaitPass g lane s
  | .acp f => Sys2Proof.Machine.execAcp f s
  | .copyLand g k => Sys2Proof.Machine.execCopyLand g k s
  | .acwait f => Sys2Proof.Machine.execAcwait f s
  | .acwaitProceed g lane => Sys2Proof.Machine.execAcwaitProceed g lane s
  | .accnt f => Sys2Proof.Machine.execAccnt f s
  | .rngi f => Sys2Proof.Machine.execRngi f s
  | .awf f => Sys2Proof.Machine.execAwf f s
  | .awfSlotTaken g lane => Sys2Proof.Machine.execAwfSlotTaken g lane s
  | .rls f => Sys2Proof.Machine.execRls f s
  | .enq f => Sys2Proof.Machine.execEnq f s
  | .engst f => Sys2Proof.Machine.execEngst f s
  | .arb f => Sys2Proof.Machine.execArb f s
  | .arc f => Sys2Proof.Machine.execArc f s
  | .ara f => Sys2Proof.Machine.execAra f s
  | .arst f => Sys2Proof.Machine.execArst f s
  | .mma f => Sys2Proof.Machine.execMma f s
  | .tileOpComplete k => Sys2Proof.Machine.execTileOpComplete k s
  | .accld f => Sys2Proof.Machine.execAccld f s
  | .accst f => Sys2Proof.Machine.execAccst f s
  | .accz f => Sys2Proof.Machine.execAccz f s
  | .accrd f => Sys2Proof.Machine.execAccrd f s
  | .accwr f => Sys2Proof.Machine.execAccwr f s
  | .mtok f => Sys2Proof.Machine.execMtok f s
  | .mxq f => Sys2Proof.Machine.execMxq f s
  | .lgfa f => Sys2Proof.Machine.execLgfa f s
  | .lgfr f => Sys2Proof.Machine.execLgfr f s
  | .samp f => Sys2Proof.Machine.execSamp f s
  | .toks f => Sys2Proof.Machine.execToks f s
  | .seqq f => Sys2Proof.Machine.execSeqq f s
  | .pfxl f => Sys2Proof.Machine.execPfxl f s
  | .pfxi f => Sys2Proof.Machine.execPfxi f s
  | .mfs f => Sys2Proof.Machine.execMfs f s
  | .mts f => Sys2Proof.Machine.execMts f s
  | .trap f => Sys2Proof.Machine.execTrap f s
  | .tret f => Sys2Proof.Machine.execTret f s
  | .spill f => Sys2Proof.Machine.execSpill f s
  | .fill f => Sys2Proof.Machine.execFill f s
  | .uiret f => Sys2Proof.Machine.execUiret f s
  | .bkpt f => Sys2Proof.Machine.execBkpt f s
  | .tlbi f => Sys2Proof.Machine.execTlbi f s
  | .ctxs f => Sys2Proof.Machine.execCtxs f s
  | .ctxr f => Sys2Proof.Machine.execCtxr f s
  | .halt f => Sys2Proof.Machine.execHalt f s
  | .shid f => Sys2Proof.Machine.execShid f s
  | .shdef f => Sys2Proof.Machine.execShdef f s
  | .shrel f => Sys2Proof.Machine.execShrel f s
  | .octlDecl f => Sys2Proof.Machine.execOctlDecl f s
  | .octlUndecl f => Sys2Proof.Machine.execOctlUndecl f s
  | .octlFlush f => Sys2Proof.Machine.execOctlFlush f s
  | .octlQuery f => Sys2Proof.Machine.execOctlQuery f s
  | .verq f => Sys2Proof.Machine.execVerq f s
  | .groupAged g => Sys2Proof.Machine.execGroupAged g s
  | .teamAdmit launch die core => Sys2Proof.Machine.execTeamAdmit launch die core s
  | .forwardProgressSwap die core => Sys2Proof.Machine.execForwardProgressSwap die core s
  | .safepointTimeout ctx => Sys2Proof.Machine.execSafepointTimeout ctx s
  | .groupEnd g => Sys2Proof.Machine.execGroupEnd g s
  | .storeDrain g k combining => Sys2Proof.Machine.execStoreDrain g k combining s
  | .storeAck g => Sys2Proof.Machine.execStoreAck g s
  | .atsTranslationCompletion ctx page host r w => Sys2Proof.Machine.execAtsTranslationCompletion ctx page host r w s
  | .priResponse ctx page write success => Sys2Proof.Machine.execPriResponse ctx page write success s
  | .atsInvalidate ctx page => Sys2Proof.Machine.execAtsInvalidate ctx page s
  | .invalidationComplete ctx page => Sys2Proof.Machine.execInvalidationComplete ctx page s
  | .engineTakeCard chain => Sys2Proof.Machine.execEngineTakeCard chain s
  | .segmentIssue chain => Sys2Proof.Machine.execSegmentIssue chain s
  | .engineRecallAnswer chain line => Sys2Proof.Machine.execEngineRecallAnswer chain line s
  | .ringFill chain => Sys2Proof.Machine.execRingFill chain s
  | .jobCompletion chain => Sys2Proof.Machine.execJobCompletion chain s
  | .matrixIteration chain => Sys2Proof.Machine.execMatrixIteration chain s
  | .lehrPoint chain => Sys2Proof.Machine.execLehrPoint chain s
  | .sharedReadRequest k => Sys2Proof.Machine.execSharedReadRequest k s
  | .ownershipRequest k => Sys2Proof.Machine.execOwnershipRequest k s
  | .writeAtHome k => Sys2Proof.Machine.execWriteAtHome k s
  | .onAck k => Sys2Proof.Machine.execOnAck k s
  | .onNotice k => Sys2Proof.Machine.execOnNotice k s
  | .snpinv half => Sys2Proof.Machine.execSnpinv half s
  | .snpdata half => Sys2Proof.Machine.execSnpdata half s
  | .snpcur half => Sys2Proof.Machine.execSnpcur half s
  | .hostCxlMemRequest half write data => Sys2Proof.Machine.execHostCxlMemRequest half write data s
  | .scratchDrained team => Sys2Proof.Machine.execScratchDrained team s
  | .scratchZeroed team => Sys2Proof.Machine.execScratchZeroed team s
  | .scratchDrainTimeout team => Sys2Proof.Machine.execScratchDrainTimeout team s
  | .uiDelivery g lane => Sys2Proof.Machine.execUiDelivery g lane s
  | .doorbell thread pos => Sys2Proof.Machine.execDoorbell thread pos s
  | .packetReread thread => Sys2Proof.Machine.execPacketReread thread s
  | .launch thread => Sys2Proof.Machine.execLaunch thread s
  | .wait thread => Sys2Proof.Machine.execWait thread s
  | .queueWaitSatisfied thread => Sys2Proof.Machine.execQueueWaitSatisfied thread s
  | .signal thread => Sys2Proof.Machine.execSignal thread s
  | .copy thread => Sys2Proof.Machine.execCopy thread s
  | .barrier thread => Sys2Proof.Machine.execBarrier thread s
  | .loopctlSetdepth thread => Sys2Proof.Machine.execLoopctlSetdepth thread s
  | .loopctlDrop thread => Sys2Proof.Machine.execLoopctlDrop thread s
  | .loopctlForget thread => Sys2Proof.Machine.execLoopctlForget thread s
  | .nopad thread => Sys2Proof.Machine.execNopad thread s
  | .packetCompletion thread seq => Sys2Proof.Machine.execPacketCompletion thread seq s
  | .predictionStart thread => Sys2Proof.Machine.execPredictionStart thread s
  | .relabel thread => Sys2Proof.Machine.execRelabel thread s
  | .discardDone thread => Sys2Proof.Machine.execDiscardDone thread s
  | .idleTimeout thread => Sys2Proof.Machine.execIdleTimeout thread s
  | .start thread => Sys2Proof.Machine.execStart thread s
  | .stop thread => Sys2Proof.Machine.execStop thread s
  | .unmap thread => Sys2Proof.Machine.execUnmap thread s
  | .forget thread => Sys2Proof.Machine.execForget thread s
  | .queueMap thread value => Sys2Proof.Machine.execQueueMap thread value s
  | .drainingEnd thread => Sys2Proof.Machine.execDrainingEnd thread s
  | .contextActivate ctx => Sys2Proof.Machine.execContextActivate ctx s
  | .contextDeactivate ctx => Sys2Proof.Machine.execContextDeactivate ctx s
  | .preempt ctx => Sys2Proof.Machine.execPreempt ctx s
  | .teamSave team => Sys2Proof.Machine.execTeamSave team s
  | .resume ctx => Sys2Proof.Machine.execResume ctx s
  | .kill ctx => Sys2Proof.Machine.execKill ctx s
  | .gresume ctx stopid => Sys2Proof.Machine.execGresume ctx stopid s
  | .gkill ctx stopid => Sys2Proof.Machine.execGkill ctx stopid s
  | .gstep ctx stopid => Sys2Proof.Machine.execGstep ctx stopid s
  | .gsave ctx stopid => Sys2Proof.Machine.execGsave ctx stopid s
  | .gload ctx stopid => Sys2Proof.Machine.execGload ctx stopid s
  | .faultRecordWrite => Sys2Proof.Machine.execFaultRecordWrite s
  | .uipost value => Sys2Proof.Machine.execUipost value s
  | .bar4Read off size => Sys2Proof.Machine.execBar4Read off size s
  | .bar4Write off data => Sys2Proof.Machine.execBar4Write off data s
  | .openSeq die ctx => Sys2Proof.Machine.execOpenSeq die ctx s
  | .extend die ctx => Sys2Proof.Machine.execExtend die ctx s
  | .draft die ctx => Sys2Proof.Machine.execDraft die ctx s
  | .token die ctx => Sys2Proof.Machine.execToken die ctx s
  | .closeSeq die ctx => Sys2Proof.Machine.execCloseSeq die ctx s
  | .give die ctx => Sys2Proof.Machine.execGive die ctx s
  | .note die ctx => Sys2Proof.Machine.execNote die ctx s
  | .adopt die ctx => Sys2Proof.Machine.execAdopt die ctx s
  | .ack die ctx => Sys2Proof.Machine.execAck die ctx s
  | .refuse die ctx => Sys2Proof.Machine.execRefuse die ctx s
  | .kvError line => Sys2Proof.Machine.execKvError line s
  | .servingEnable ctx => Sys2Proof.Machine.execServingEnable ctx s
  | .servingDisable ctx => Sys2Proof.Machine.execServingDisable ctx s
  | .serviceQueueEnable queue => Sys2Proof.Machine.execServiceQueueEnable queue s
  | .serviceQueueDisable queue => Sys2Proof.Machine.execServiceQueueDisable queue s
  | .notify queue ctx value => Sys2Proof.Machine.execNotify queue ctx value s
  | .recordReread queue => Sys2Proof.Machine.execRecordReread queue s
  | .socket queue => Sys2Proof.Machine.execSocket queue s
  | .bind queue => Sys2Proof.Machine.execBind queue s
  | .connect queue => Sys2Proof.Machine.execConnect queue s
  | .listen queue => Sys2Proof.Machine.execListen queue s
  | .acceptConn queue => Sys2Proof.Machine.execAcceptConn queue s
  | .send queue => Sys2Proof.Machine.execSend queue s
  | .recv queue => Sys2Proof.Machine.execRecv queue s
  | .socketClose queue => Sys2Proof.Machine.execSocketClose queue s
  | .rdwrite queue => Sys2Proof.Machine.execRdwrite queue s
  | .rdread queue => Sys2Proof.Machine.execRdread queue s
  | .portq queue => Sys2Proof.Machine.execPortq queue s
  | .callCompletion queue outcome data => Sys2Proof.Machine.execCallCompletion queue outcome data s
  | .pageReturn queue => Sys2Proof.Machine.execPageReturn queue s
  | .portDown port => Sys2Proof.Machine.execPortDown port s
  | .bistRun path => Sys2Proof.Machine.execBistRun path s
  | .bistTest pass path test => Sys2Proof.Machine.execBistTest pass path test s
  | .fenceUnit path cause => Sys2Proof.Machine.execFenceUnit path cause s
  | .errorRecordWrite => Sys2Proof.Machine.execErrorRecordWrite s
  | .memoryError kind corrected path line detail => Sys2Proof.Machine.execMemoryError kind corrected path line detail s
  | .linkFlitReplayed path lane => Sys2Proof.Machine.execLinkFlitReplayed path lane s
  | .linkLaneFailed path lane => Sys2Proof.Machine.execLinkLaneFailed path lane s
  | .thermalThrottle die celsius => Sys2Proof.Machine.execThermalThrottle die celsius s
  | .thermalTrip die celsius => Sys2Proof.Machine.execThermalTrip die celsius s
  | .coolantFlowLow dlpm => Sys2Proof.Machine.execCoolantFlowLow dlpm s
  | .powerCapCorrection => Sys2Proof.Machine.execPowerCapCorrection s
  | .coldReset start => Sys2Proof.Machine.execColdReset start s
  | .warmReset => Sys2Proof.Machine.execWarmReset s
  | .writeSlotA => Sys2Proof.Machine.execWriteSlotA s
  | .writeSlotB => Sys2Proof.Machine.execWriteSlotB s
  | .enrolOwnerKey => Sys2Proof.Machine.execEnrolOwnerKey s
  | .revokeOwnerKey => Sys2Proof.Machine.execRevokeOwnerKey s
  | .setVendoff => Sys2Proof.Machine.execSetVendoff s
  | .attestationReport nonce output => Sys2Proof.Machine.execAttestationReport nonce output s
  | .registerWrite off value bytes => Sys2Proof.Machine.execRegisterWrite off value bytes s
  | .recallLine k => Sys2Proof.Machine.execRecall k s
  | .grant k => Sys2Proof.Machine.execGrant k s
  | .cxlCacheCompletion half exclusive data => Sys2Proof.Machine.execCxlCacheCompletion half exclusive data s
  | .coolantFlowRestored dlpm => Sys2Proof.Machine.execCoolantFlowRestored dlpm s
  | .portLinkUp port lanes => Sys2Proof.Machine.execPortLinkUp port lanes s

end Sys2Proof.Machine
end

