-- ==== Sys2Proof/Machine/Auto.lean ====
section
/-! DEFINITION. What runs next: the part's own events, the issue of a core, the passing of a cycle, and what the end of an
issue leaves (log 4, log 5). -/

namespace Sys2Proof.Machine

open Sys2Proof

/-! ### The part's own events -/

/-- The meaning of an event. -/
abbrev Act := State → Host.Outcome State Fault Refusal

/-- Events of the coherence fabric that can lie ahead. -/
def State.cohEvents (s : State) : List Act :=
  let upTo := fun (n : Nat) (f : Nat → Act) => (List.range n).map f
  upTo s.coh.recalls.length execRecall ++ upTo s.coh.acks.length execOnAck ++ upTo s.coh.notices.length execOnNotice ++
  upTo s.coh.grants.length execGrant ++
  (s.coh.reqs.zipIdx.map fun p => match p.1.kind with
    | .read => execSharedReadRequest p.2 | .own => execOwnershipRequest p.2 | .atHome | .move => execWriteAtHome p.2)

/-- Events of one waiting lane. -/
def laneEvents (r : GRef) (g : Group) (i : Nat) : List Act :=
  match g.lane? i with
  | none => []
  | some l =>
    (if g.uip then [execUiDelivery r i] else []) ++
    match l.wait with
    | .join _ => [execJoinComplete r i]
    | .bar n => [execBarrierComplete r.team false n]
    | .cbar n => [execBarrierComplete r.team true n]
    | .seq _ _ _ => [execWaitseqSatisfied r i]
    | .sleep _ _ => [execSleepWake r i]
    | .bobj _ _ _ => [execBobjWaitPass r i]
    | .acwait _ => [execAcwaitProceed r i]
    | .awf _ _ => [execAwfSlotTaken r i]
    | _ => []

/-- Events of one group. -/
def groupEvents (core : Nat) (r : GRef) (g : Group) : List Act :=
  if g.ended then []
  else
    ((List.range g.stbuf.length).map fun k => execStoreDrain r k false) ++
    ((List.range g.wcbuf.length).map fun k => execStoreDrain r k true) ++
    (if g.unacked = 0 then [] else [execStoreAck r]) ++
    ((List.range g.flight.length).map (execCopyLand r)) ++
    ((List.range 32).flatMap (laneEvents r g)) ++
    (if g.lanes.any fun l => l.paused != 0 && l.paused ≤ core then [execPauseExpiry r] else []) ++
    (if g.aged then [] else [execGroupAged r]) ++ [execGroupEnd r]

/-- Events of one team. -/
def teamEvents (core n : Nat) (t : Team) : List Act :=
  match t.place with
  | .draining _ _ => [execScratchDrained n, execScratchDrainTimeout n] ++ t.groups.zipIdx.flatMap fun q =>
      (List.range q.1.flight.length).map (execCopyLand { team := n, grp := q.2 })
  | .zeroing _ _ => [execScratchZeroed n]
  | .saved => t.groups.zipIdx.flatMap fun q => if q.1.unacked = 0 then [] else [execStoreAck { team := n, grp := q.2 }]
  | .core _ _ =>
    (t.groups.zipIdx.flatMap fun q => groupEvents core { team := n, grp := q.2 } q.1) ++
    (if t.groups.any fun g => g.yreq then [execTeamSave n] else [])

/-- Events of one chain: a recall that reaches lines of its job comes first. -/
def State.chainEvents (s : State) (k : Nat) (c : Chain) : List Act :=
  (match c.job with
    | some j => (j.owned.filter fun n => s.coh.recalls.any fun r => r.line == n && r.sid == s.chainSid c).map
        (execEngineRecallAnswer k)
    | none => []) ++
  [execLehrPoint k, execEngineTakeCard k, execSegmentIssue k, execRingFill k, execMatrixIteration k, execJobCompletion k]

/-- What a thread's next packet could do. -/
def packetEvent (t : Nat) : Act := fun s =>
  match s.qcp? t with
  | none => .next s
  | some q =>
    if s.qcpAt = s.core + 1 then .next s
    else match s.fetchPacket t q with
      | .none => .next s
      | .packet p => match p.type, p.at_ 0x18 1 with
        | 1, _ => execLaunch t s
        | 2, _ => if q.state == .blocked then execQueueWaitSatisfied t s else execWait t s
        | 3, _ => execSignal t s
        | 4, _ => execCopy t s
        | 5, _ => execBarrier t s
        | 6, 0 => execLoopctlSetdepth t s
        | 6, 1 => execLoopctlDrop t s
        | 6, _ => execLoopctlForget t s
        | _, _ => execNopad t s
      | _ => execNopad t s

/-- Events of one QCP thread. A mapped thread that is still UNMAPPED waits to read its descriptor. -/
def threadEvents (t : Nat) (q : Qcp) : List Act :=
  (q.packets.map fun p => execPacketCompletion t p.seq) ++
  [execRelabel t, execDiscardDone t, execIdleTimeout t, execDrainingEnd t, packetEvent t, execPredictionStart t, execPacketReread t] ++
  if q.state == .unmapped && q.qmap.getLsbD 0 then [execQueueMap t q.qmap] else []

/-- QCP threads, the highest priority first, and among equals the one that issued least recently (R316). -/
def insertThread (p : Nat × Qcp) : List (Nat × Qcp) → List (Nat × Qcp)
  | [] => [p]
  | q :: r =>
    if Qcp.before p q then p :: q :: r else q :: insertThread p r

/-- Messages under way or arrived. -/
def State.messageEvents (s : State) : List Act :=
  ((s.arrived ++ s.sending).map fun m => (m.dest, m.ctx)).eraseDups.flatMap fun p =>
    [execOpenSeq p.1 p.2, execExtend p.1 p.2, execDraft p.1 p.2, execToken p.1 p.2, execCloseSeq p.1 p.2, execGive p.1 p.2, execNote p.1 p.2,
     execAdopt p.1 p.2, execAck p.1 p.2, execRefuse p.1 p.2]

/-- Events of one service queue: a call whose result is known completes, and pages come back that no peer need acknowledge. -/
def State.svcEvents (s : State) (q : Nat) (x : SvcQueue) : List Act :=
  (match x.calls with
    | k :: _ => if k.result.isSome then [execCallCompletion q 0 []] else []
    | [] => []) ++
  (if s.lent.any fun d => d.queue == q && d.free then [execPageReturn q] else []) ++
  (if x.closing then [execServiceQueueDisable q] else []) ++
  [execSocket q, execBind q, execConnect q, execListen q, execAcceptConn q, execSend q, execRecv q, execSocketClose q, execRdwrite q, execRdread q, execPortq q,
   execRecordReread q]

/-- Where a launch's next teams could go. -/
def launchEvents (n : Nat) : List Act :=
  (List.range 8).flatMap fun d => (List.range 48).map fun c => execTeamAdmit n d c

/-- The slot that is being written is finished (R419). -/
def State.slotEvents (s : State) : List Act :=
  match s.boot.writing with
  | some (n, _) => [if n = 0 then execWriteSlotA else execWriteSlotB]
  | none => []

/-- Everything that the part could do by itself, in the order in which the model looks (log 5). -/
def State.candidates (s : State) : List Act :=
  [execFaultRecordWrite, execErrorRecordWrite] ++ s.slotEvents ++ s.cohEvents ++
  (s.teams.flatMap fun p => teamEvents s.core p.1 p.2) ++ (s.zones.map fun z => execScratchZeroed z.team) ++
  ((List.range s.tileJobs.length).map execTileOpComplete) ++
  (s.chains.flatMap fun p => s.chainEvents p.1 p.2) ++
  ((s.threads.foldl (fun l p => insertThread p l) []).flatMap fun p => threadEvents p.1 p.2) ++
  ((s.poison.filter fun n => (s.kvOwner n).isSome).map execKvError) ++ s.messageEvents ++ (s.svc.flatMap fun p => s.svcEvents p.1 p.2) ++
  (s.ctxs.flatMap fun p => execSafepointTimeout p.1 :: p.2.inval.map (execInvalidationComplete p.1)) ++
  (s.launches.flatMap fun p => if p.2.next < p.2.total || !p.2.waiting.isEmpty then launchEvents p.1 else []) ++
  ((s.teams.filterMap fun p => match p.2.place with | .core d c => some (d, c) | _ => none).eraseDups.map fun p =>
    execForwardProgressSwap p.1 p.2)

/-- The state that the first candidate leaves which changes anything. -/
def State.autoNext (s : State) : Option State :=
  s.candidates.findSome? fun f => match f s with
    | .next t => if t = s then none else some t.wake
    | _ => none

/-! ### The end of an issue -/

/-- A wait that belongs to its instruction, which a step sees through: DESIGN CHOICE (log 58). -/
def Wait.inside : Wait → Bool
  | .retry _ | .acwait _ | .sleep _ _ => true
  | _ => false

/-- The instruction of a stepped gang has run: the lanes that do not wait inside it are through (log 58). -/
def Group.stepDone (g : Group) (m : Word) : Group :=
  { g with step := g.step.map fun p => p.done (maskOf ((lanesOf m).filter fun i => !(g.waitOf i).inside)) }

/-- A stepped group's cycle is finished once every instruction of it is seen through (R367): its regions abort (R211), its stop
ends, and it takes TRP_STEP, unless it has stopped otherwise. Where all lanes of the cycle have exited the group stops (log 58). -/
def State.endStep (s : State) (r : GRef) : State :=
  match s.grp? r with
  | none => s
  | some g => match g.step with
    | none => s
    | some p =>
      if p.lanes = 0 || p.left != 0 then s
      else
        let ls := p.lanes &&& g.live
        let h := (lanesOf (ls &&& g.inRegion)).foldl (fun g i => g.abort i abFault 0 trpStep) { g with stop := none, step := none }
        let u := s.modGrp r fun _ => h
        if ls = 0 then u.stopGroup r trpStep 0 0xFF (g.pcOf p.lanes).toNat 0 .afterTrap
        else u.takeTrap r ls trpStep 0 (h.pcOf ls).toNat fun i => match h.lane? i with | some l => l.pc | none => 0

/-- The steps that an event has seen through end. -/
def State.endSteps (s : State) : State :=
  (s.teams.flatMap fun p => p.2.groups.zipIdx.filterMap fun q =>
    if q.1.step.isSome then some { team := p.1, grp := q.2 } else none).foldl State.endStep s

/-- The issue clock of a group's core: its die's where that is throttled (R427). -/
def State.clockOf (s : State) (r : GRef) : Nat :=
  match s.team? r.team with
  | some t => (aget s.fleet.slow t.at_.1).getD s.fleet.mhz
  | none => s.fleet.mhz

/-- An idle cycle of the part. -/
def State.idle (s : State) : State := s.tick s.fleet.mhz

/-- The issue cycle of a group ends: time passes. -/
def State.endCycle (s : State) (r : GRef) : State := (s.endStep r).tick (s.clockOf r)

/-- A gang has run: answers that failed for its lanes are spent, but where they still wait; its launch was at work. -/
def State.afterGang (s : State) (c : Cur) : State :=
  let u := { s with cur := none, free := s.free + 1 }
  match u.team? c.g.team, u.grp? c.g with
  | some t, some g =>
    let waits := fun (i : Nat) => match g.lane? i with | some l => (l.wait matches .retry _) | none => false
    let spent := fun (a : Agent) => match a with
      | .lane q i => q == c.g && c.lanes.getLsbD i && !waits i
      | _ => false
    let v := (u.forgetDenied t.ctx spent).markBusy t.launch (match t.place with | .core d k => corePath d k | _ => 0)
    let w := v.modGrp c.g fun g => g.stepDone c.lanes
    if w.second.isNone then w.endCycle c.g else w
  | _, _ => if u.second.isNone then u.endCycle c.g else u

/-! ### What runs next -/

/-- An instruction of a gang, which is under way in the state; an event, in the state; or a state that needs neither. -/
inductive Choice
  | gang (c : Cur) (i : Instr) (s : State) | event (i : Instr) (s : State) | finished (s : State)

/-- A chosen gang goes on to its instruction. -/
def State.gangChoice (s : State) (c : Cur) : Choice :=
  match s.issueGang c with
  | .run i t => .gang c i t
  | .finished t => .finished ((s.settleSecond c t).afterGang c)

/-- A core issues; one with nothing ready lets the cycle pass. -/
def State.coreChoice (s : State) (k : Nat) : Choice :=
  match (s.pick k).bind s.issueGroup with
  | some (c, t) => t.gangChoice c
  | none => .finished s.idle

/-- The second gang of a cycle goes on where it still may (R23, R43). -/
def State.secondChoice (s : State) (c : Cur) : Choice :=
  let t := { s with second := none }
  let p := t.besideTrap c
  match p.1.grp? c.g with
  | some g =>
    if g.stands c then p.1.gangChoice p.2 else .finished ((t.modGrp c.g fun g => g.stepDone c.lanes).endCycle c.g)
  | none => .finished (t.endCycle c.g)

/-- What still happens once the part has stopped (R416, R427, log 84): a reset, and the writing of its error records. -/
def afterTrip : Instr → Bool
  | .coldReset _ | .warmReset | .errorRecordWrite => true
  | _ => false

/-- An event that needs no gang. -/
def State.eventChoice (s : State) (i : Instr) : Choice := if s.fleet.tripped && !afterTrip i then .finished s else .event i s

/-- The model's own rule where the schedule is empty: events before issues, cores in turn (log 5). -/
def State.ownChoice (s : State) : Choice :=
  if s.fleet.tripped then (if s.fleet.errors.isEmpty || !s.ringRoom 0x2020000 then .finished s.idle else .event .errorRecordWrite s)
  else match s.autoNext with
    | some t => .finished t
    | none => match s.nextCore with
      | some k => { s with turn := k + 1 }.coreChoice k
      | none => .finished s.idle

/-- What runs next. -/
def State.choose (s : State) : Choice :=
  match s.second, s.schedule with
  | some c, _ => s.secondChoice c
  | none, .event i :: r => { s with schedule := r }.eventChoice i
  | none, .issue k :: r => if s.fleet.tripped then .finished { s with schedule := r }.idle else { s with schedule := r }.coreChoice k
  | none, .tick :: r => .finished { s with schedule := r }.idle
  | none, .resize n :: r => .finished ({ s with schedule := r }.resizeBar4 n)
  | none, .decoder b n :: r => .finished { s with schedule := r, hdm := (b, n) }
  | none, [] => s.ownChoice

/-- What an outcome of exec makes of a step: a gang's instruction ends its issue, an event may end waits, and an event row
that is an instruction of a gang does nothing. -/
def State.finish (s : State) (c : Option Cur) : Host.Outcome State Fault Refusal → Host.Outcome State Fault Refusal
  | .next t => .next (match c with | some g => (s.settleSecond g t).afterGang g | none => t.wake.endSteps)
  | .fault e => if c.isSome then .fault e else .next s
  | .refused e => .refused e

end Sys2Proof.Machine
end

