-- ==== Sys2Proof/Machine/Place.lean ====
section
/-! DEFINITION. How an instruction's bytes come to lie where the next step fetches them (log 32). -/

namespace Sys2Proof.Machine

open Sys2Proof

/-- A kernel of one team with one group, every register and the whole of a core. -/
def bareKernel : Kernel :=
  { entry := 0x20000, bseg := 10, hseg := 5, safelive := 0, uregs := 96, acc := 8, team := 1, rows := 1, cols := 1,
    scratch := 256, argsize := 0, rasafe := false }

/-- A privileged context with every feature, whose page table maps the first GiB onto itself. -/
def bareCtx : Ctx :=
  { state := .active, ptroot := 0x10000, pasid := 0, priv := true, atsOn := false, priOn := false, feat := 63
    shtab := 0x40000, shslots := 64, savebase := 0x200000, savesize := 0x100000, uivec := 0, uimbox := 0, ctxvec := 0
    slots := [], ats := [], reqs := [], denied := [], inUse := [], inval := [], nextStop := 1 }

/-- Its launch of one team, which is placed. -/
def bareLaunch (c : Nat) : Launch :=
  { ctx := c, qid := 0, thread := 32, seq := 0, kern := bareKernel, nx := 1, ny := 1, nz := 1, seed := 0, args := [], slot := 0
    next := 1, ended := 0, waiting := [], phase := 0 }

/-- Page table entries (R248, R249): the first entries of levels 4 and 3, and a leaf of 1 GiB with R, W, X and SCOPE 3. -/
def barePages : List (Nat × Byte) :=
  located 0x10000 (leBytes 8 0x11001) ++ located 0x11000 (leBytes 8 0x12001) ++ located 0x12000 (leBytes 8 0x7F)

/-- Such a context, launch and team on a core that holds no other, the bytes at the kernel's entry, and that core to issue
next. -/
def State.load (s : State) (bs : List Byte) : State :=
  let c := ((List.range 1024).find? fun n => (s.ctx? n).isNone).getD 0
  let k := ((List.range 384).find? fun n => s.teams.all fun p => p.2.coreNo != some n).getD 0
  { s with
    mem := memWrite s.mem (barePages ++ located 0x20000 bs)
    ctxs := aset s.ctxs c bareCtx
    launches := aset s.launches s.fresh (bareLaunch c)
    teams := aset s.teams (s.fresh + 1) (Team.start s.fresh (bareLaunch c) 0 0 (k / 48) (k % 48) s.core)
    fresh := s.fresh + 2
    fleet := { s.fleet with tripped := false }
    cur := none, second := none, schedule := .issue k :: s.schedule }

/-- The bytes at the address where a core's next gang fetches, and that core to issue next. -/
def State.patch (s : State) (k : Nat) (bs : List Byte) : Option State :=
  match (s.pick k).bind s.issueGroup with
  | some (c, t) => match t.team? c.g.team with
    | some x => match t.translate x.ctx (.lane c.g (lowest c.lanes)) c.pc.toNat .x with
      | .ok l => some { s with mem := memWrite s.mem (located l.pa bs), second := none, schedule := .issue k :: s.schedule }
      | _ => none
    | none => none
  | none => none

/-- The bytes where the next step fetches: patched where a gang stands ready to fetch them, else loaded. -/
def State.placeBytes (s : State) (bs : List Byte) : State :=
  match s.nextCore.bind fun k => s.patch k bs with
  | some t => match t.choose with
    | .gang _ _ _ => t
    | _ => s.load bs
  | none => s.load bs

end Sys2Proof.Machine
end

