-- ==== Sys2Proof/Machine/Step.lean ====
section
/-! DEFINITION. One step of the part. -/

namespace Sys2Proof.Machine

open Sys2Proof

/-- One step: what runs next is chosen, run, and finished. -/
def step (s : State) : Host.Outcome State Fault Refusal :=
  match s.choose with
  | .gang c i t => t.finish (some c) (exec i t)
  | .event i t => t.finish none (exec i t)
  | .finished t => .next t

/-- The instruction whose bits are `w`, bit 0 the least significant of its first parcel, stored where step fetches next;
bits above `nbits` are zero. -/
def State.withFetchWord (s : State) (nbits w : Nat) : State := s.placeBytes (leBytes 12 (w % 2 ^ nbits))

end Sys2Proof.Machine
end

