-- ==== Sys2Proof/Safety.lean ====
section
/-! DEFINITION. The terms in which statements speak of a run: when a gang's instruction goes through to its own effect, what
its results look like register by register, and the form that memory keeps. -/

namespace Sys2Proof.Machine

open Sys2Proof

/-- The issuing gang of `s` is `x`, and its instruction reaches its own effect: decode steps 4 to 6 find no fault (R106), it
is not the safe point of a pending pre-emption (R41), it does not end past the address space (R89), and no lane of the gang
has a region open (R211). -/
def Runs (s : State) (op : Nat) (f : FForm) (ok : Gx → Bool) (x : Gx) : Prop :=
  openGang s f.pfx = some x ∧ x.decodeFault op f ok = none ∧ (x.pastEnd && !transferOp op) = false ∧
  (x.g.yreq && (f.sp || waitOp op)) = false ∧ x.g.inRegion &&& x.c.lanes = 0

/-- A group with other vector registers, mask registers, $rng. -/
def Group.withV (g : Group) (v : Sparse 32) : Group := { g with vregs := v }
def Group.withM (g : Group) (m : Sparse 32) : Group := { g with mregs := m }
def Group.withRng (g : Group) (r : DWord) : Group := { g with rng := r }

/-- What a lane's vector register at a stack position holds after `d` is written with a value of type `t` for each enabled
lane, a disabled lane being zeroed where `z` says so (R53, R104, R135). -/
def Gx.vecAfter (x : Gx) (d : Name) (z : Bool) (t : Ty) (val : Nat → Nat) (pos lane : Nat) : Word :=
  match d with
  | .v n =>
    let v := if x.en.getLsbD lane then val lane else 0
    if !(x.c.lanes.getLsbD lane && (x.en.getLsbD lane || z)) then x.g.vreg pos lane
    else if pos = x.g.wb lane + n then (if t.is64 then BitVec.ofNat 32 v else extend t v)
    else if t.is64 && pos = x.g.wb lane + n + 1 then BitVec.ofNat 32 (v / 2 ^ 32)
    else x.g.vreg pos lane
  | _ => x.g.vreg pos lane

/-- The instruction completes: its lanes go on, the destination of every lane holds its value, and nothing else changes. -/
def VecResult (x : Gx) (d : Name) (z : Bool) (t : Ty) (val : Nat → Nat) (o : Host.Outcome State Fault Refusal) : Prop :=
  ∃ v : Sparse 32, o = .next (x.done x.s fun g => g.withV v) ∧
    ∀ pos lane, lane < 32 → sget v (32 * pos + lane) = x.vecAfter d z t val pos lane

/-- The state of $rng after some draws of a mode (R71). -/
def rngAt (m : RM) (r : DWord) : Nat → DWord
  | 0 => r
  | n + 1 => (drawOne m (rngAt m r n)).1

/-- The draw that an enabled lane takes: they are taken in lane order (R71). -/
def Gx.drawOf (x : Gx) (m : RM) (lane : Nat) : Nat :=
  (drawOne m (rngAt m x.g.rng ((lanesOf x.en).filter (· < lane)).length)).2

/-- As VecResult, for an instruction of which each enabled lane draws once under SR (R71). -/
def DrawResult (x : Gx) (d : Name) (z : Bool) (t : Ty) (m : RM) (val : Nat → Nat → Nat)
    (o : Host.Outcome State Fault Refusal) : Prop :=
  ∃ v : Sparse 32,
    o = .next (x.done x.s fun g => (g.withV v).withRng (rngAt m x.g.rng (lanesOf x.en).length)) ∧
    ∀ pos lane, lane < 32 → sget v (32 * pos + lane) = x.vecAfter d z t (fun l => val l (x.drawOf m l)) pos lane

/-- The instruction completes with one bit for each enabled lane in the mask register `d` (R28, R104, R144). -/
def MaskResult (x : Gx) (d : Name) (z : Bool) (bit : Nat → Bool) (o : Host.Outcome State Fault Refusal) : Prop :=
  ∃ m : Sparse 32, o = .next (x.done x.s fun g => g.withM m) ∧
    ∀ k lane, lane < 32 → (sget m k).getLsbD lane =
      if d = .m k && x.en.getLsbD lane then bit lane
      else if d = .m k && z && x.c.lanes.getLsbD lane then false
      else (x.g.mreg k).getLsbD lane

/-- A group in which a gang has written a uniform register: the gang sees the value, the lanes of other gangs see what they
saw, and every other register is as it was. A write by a diverged group's gang splits the register and sets $status.DIVW; one
by a gang that holds every lane splits none and leaves DIVW alone (R27, R63). -/
def UniAfter (x : Gx) (d : Name) (v : DWord) (h : Group) : Prop :=
  { h with sregs := x.g.sregs, split := x.g.split, copies := x.g.copies, divw := x.g.divw } = x.g ∧
  (∀ k lane, lane < 32 → h.sreg lane k =
    if d = .s k && (!x.diverged || x.c.lanes.getLsbD lane) then v else x.g.sreg lane k) ∧
  (∀ k, k ∈ h.split ↔ if d = .s k then x.diverged = true else k ∈ x.g.split) ∧
  h.divw = (x.g.divw || match d with | .s _ => x.diverged | _ => false)

/-- The instruction completes with a uniform result (R27, R174). -/
def UniResult (x : Gx) (d : Name) (v : DWord) (o : Host.Outcome State Fault Refusal) : Prop :=
  ∃ h : Group, UniAfter x d v h ∧ o = .next (x.done x.s fun _ => h)

/-- A stop of the gang's group by a fault of the whole instruction, where no region is open (R106, R357). -/
def Faults (x : Gx) (code : Nat) (o : Host.Outcome State Fault Refusal) : Prop := ∃ t, o = .next t ∧ t = x.fault x.s code

/-! ### Rows of statements -/

/-- The integer that a word of a type stands for (R66). -/
def numOf (t : Ty) {w : Nat} (a : BitVec w) : Int := if t.signed then a.toInt else a.toNat

/-- A whole number moved to the nearest end of a type's range where it lies outside (R66). -/
def clampTo (t : Ty) (i : Int) : Int :=
  if t.signed then max (-(2 ^ (t.bits - 1) : Int)) (min (2 ^ (t.bits - 1) - 1) i) else max 0 (min (2 ^ t.bits - 1) i)

/-- Every run of an instruction that reaches its effect gives each enabled lane its value. -/
def VecRow (mk : FForm → Instr) (op : Nat) (val : FForm → Gx → Nat → Nat) : Prop :=
  ∀ s f x, Runs s op f free x → VecResult x f.d f.z f.ty (val f x) (exec (mk f) s)

/-- As VecRow, with a value of A, B and C as words of the type's width. -/
def AluRow (mk : FForm → Instr) (op : Nat) (val : (t : Ty) → (a b c : BitVec t.bits) → BitVec t.bits) : Prop :=
  VecRow mk op fun f x l => (val f.ty (BitVec.ofNat _ (x.va f l)) (BitVec.ofNat _ (x.vb f l)) (BitVec.ofNat _ (x.vc f l))).toNat

/-- As AluRow, where an immediate B is zero-extended whatever the type, and B is taken as a number. -/
def ShiftRow (mk : FForm → Instr) (op : Nat) (val : (t : Ty) → (a : BitVec t.bits) → Nat → (c : BitVec t.bits) → BitVec t.bits) :
    Prop :=
  VecRow mk op fun f x l => (val f.ty (BitVec.ofNat _ (x.va f l)) (x.vbz f l) (BitVec.ofNat _ (x.vc f l))).toNat

/-- Every run of an instruction that reaches its effect gives each enabled lane its bit. -/
def MaskRow (mk : FForm → Instr) (op : Nat) (bit : FForm → Gx → Nat → Bool) : Prop :=
  ∀ s f x, Runs s op f free x → MaskResult x f.d f.z (bit f x) (exec (mk f) s)

/-- Every run of an instruction that reaches its effect gives the gang its value, of 64 bits. -/
def UniRow (mk : FForm → Instr) (op : Nat) (val : FForm → Gx → DWord) : Prop :=
  ∀ s f x, Runs s op f free x → UniResult x f.d (val f x) (exec (mk f) s)

/-- A uniform result of the type's width, extended to 64 bits by sign or by zeros (R174). -/
def widened (t : Ty) (v : BitVec t.bits) : DWord := if t.signed then v.signExtend 64 else v.setWidth 64

/-- As UniRow, with a value of A, B and C as words of the type's width. -/
def UniAluRow (mk : FForm → Instr) (op : Nat) (val : (t : Ty) → (a b : BitVec t.bits) → BitVec t.bits) : Prop :=
  UniRow mk op fun f x => widened f.ty (val f.ty (BitVec.ofNat _ (x.ua f)) (BitVec.ofNat _ (x.ub f)))

/-- Every run of an instruction that reaches its effect gives each enabled lane its value, with one draw each (R71). -/
def DrawRow (mk : FForm → Instr) (op : Nat) (t : FForm → Ty) (val : FForm → Gx → Nat → Nat → Nat) : Prop :=
  ∀ s f x, Runs s op f free x → DrawResult x f.d f.z (t f) (x.mode f (t f)) (val f x) (exec (mk f) s)

/-- As UniResult, with one draw of $rng under SR (R71, R174). -/
def UniDrawRow (mk : FForm → Instr) (op : Nat) (val : FForm → Gx → Nat → Nat) : Prop :=
  ∀ s f x, Runs s op f free x → ∃ h : Group, ∃ d : DWord × Nat, d = drawOne (x.mode f f.ty) x.g.rng ∧
    UniAfter x f.d (extend64 f.ty (val f x d.2)) h ∧ exec (mk f) s = .next (x.done x.s fun _ => h.withRng d.1)

/-- A well-formed instruction has one of the types. -/
def TypesOf (mk : FForm → Instr) (ts : List Ty) : Prop := ∀ f, WellFormed (mk f) = true → f.ty ∈ ts

/-- An exact value rounded once in the instruction's mode, its overflow as its SAT says; an infinity that no infinite operand
brought in is not saturated (R70, R72, R157). -/
def Gx.rounded (x : Gx) (f : FForm) (t : Ty) (ops : List FV) (v : FV) (draw : Nat) : Nat :=
  t.fmt.round (x.mode f t) (x.sat f t && !(ops.all infFree && !infFree v)) draw v

/-- The value of an operand of the type (R67). -/
def Gx.fa (x : Gx) (f : FForm) (l : Nat) : FV := f.ty.val (x.va f l)
def Gx.fb (x : Gx) (f : FForm) (l : Nat) : FV := f.ty.val (x.vb f l)
def Gx.fc (x : Gx) (f : FForm) (l : Nat) : FV := f.ty.val (x.vc f l)

/-- Rounding under RDN, where an exact zero sum is negative (R157). -/
def Gx.down (x : Gx) (f : FForm) (t : Ty) : Bool := x.mode f t == .rdn

/-- x lies below y, −0 below +0 (R158). -/
def fBelow (x y : FV) : Bool := x.lt y || (x.eqv y && x.isNeg && !y.isNeg)

/-- The elements and the addend of a float dot product (R163). -/
def Gx.dotA (x : Gx) (f : FForm) (n l : Nat) : List FV := elems f.ty n (x.src l f.a f.ty 32)
def Gx.dotB (x : Gx) (f : FForm) (n l : Nat) : List FV :=
  elems f.ty n (match f.b with | .imm i => immVal f.ty i f.ty.bits | b => x.srcB l b f.ty 32)
def Gx.dotC (x : Gx) (f : FForm) (l : Nat) : FV := dec32 (BitVec.ofNat 32 (x.src l f.c .f32 32))

/-- The source of a conversion, at the width of its own type (R125). -/
def Gx.convSrc (x : Gx) (f : FForm) (l : Nat) : Nat := x.src l f.a (Ty.ofCode f.fn) (Ty.ofCode f.fn).bits

/-- A conversion from the type in FN to TY: one that holds every source value rounds and draws nothing, one to or from a float
rounds once with one draw, one between integers fits or wraps (R71, R165 to R168). -/
def ConvRow (mk : FForm → Instr) (op : Nat) : Prop :=
  ∀ s f x, Runs s op f free x →
    let src := Ty.ofCode f.fn
    let v := fun l => src.val (x.convSrc f l)
    if f.ty.isFloat then
      if exactConv src f.ty then VecResult x f.d f.z f.ty (fun l => f.ty.fmt.round .rne false 0 (v l)) (exec (mk f) s)
      else DrawResult x f.d f.z f.ty (x.mode f f.ty)
        (fun l d => f.ty.fmt.round (x.mode f f.ty) (x.sat f f.ty) d (v l)) (exec (mk f) s)
    else if src.isFloat then
      DrawResult x f.d f.z f.ty (x.mode f f.ty) (fun l d => f.ty.ofFV (x.mode f f.ty) (x.sat f f.ty) d (v l)) (exec (mk f) s)
    else VecResult x f.d f.z f.ty (fun l => f.ty.fitInt (x.sat f f.ty) (src.intVal (x.convSrc f l))) (exec (mk f) s)

/-- The lanes that take part in a cross-lane instruction (R148). -/
def Gx.parts (x : Gx) : List Nat := lanesOf x.en

/-- The combination over the participants in lane order (R151, R152): what each lane gets, and $rng. -/
def Gx.combined (x : Gx) (f : FForm) : List (Nat × Nat × Nat) × DWord :=
  scanAll (f.fn % 8) f.ty (x.mode f f.ty) (x.sat f f.ty) (x.va f) x.parts none x.g.rng

/-- A dot product of n bytes with a 32-bit addend, modulo 2^32 (R156). -/
def DotRow (mk : FForm → Instr) (op n : Nat) : Prop :=
  ∀ s f x, Runs s op f free x → VecResult x f.d f.z .i32 (fun l =>
    (BitVec.ofInt 32 (((List.range n).map fun i =>
      f.ty.intVal (x.src l f.a f.ty (8 * n) / 256 ^ i) * f.ty.intVal (x.srcB l f.b f.ty (8 * n) / 256 ^ i)).sum +
      Ty.i32.intVal (x.src l f.c .i32 32))).toNat) (exec (mk f) s)

/-- Every access passes its checks, and the pages are `ps` (R186); the lines of the group's buffered stores are known
(R265). -/
def Passed (x : Gx) (ws : List Want) (ps : List (Want × Leaf)) : Prop := x.gather ws = .ready ps ∧ x.g.unresolved = 0

/-- The scratchpad address of every enabled lane passes its checks: the team that holds it and the offset (R186, R188). -/
def ScratchPassed (x : Gx) (addr : Nat → Nat) (n : Nat) (team off : Nat → Nat) : Prop :=
  ∀ l ∈ lanesOf x.en, x.scratchChk x.s (addr l) n = .ok (team l, off l)

/-- The stores that an instruction waits for drain at once, none of them failing, in the state `t`, and none sent before the
team's last save is still unacknowledged (R265, R266, R362). -/
def Drains (x : Gx) (wc : Bool) (t : State) : Prop :=
  x.s.drainAll x.c.g wc = .done t ∧ (t.grp? x.c.g).bind Group.deferred = none ∧
  ((t.grp? x.c.g).map Group.carried).getD 0 = 0

/-- As Drains, with every store acknowledged (R264, R266). -/
def DrainsAcked (x : Gx) (wc : Bool) (t : State) : Prop :=
  Drains x wc t ∧ ((t.grp? x.c.g).map Group.unacked).getD 0 = 0

/-- The group's buffered stores to the lines of some accesses drain at once, in the state `t` (R269). -/
def DrainsLines (x : Gx) (ps : List (Want × Leaf)) (t : State) : Prop :=
  x.s.drainFor x.c.g ps = .done t

/-- As Runs, for a gang of which some lane has a region open: `y` is the gang after its regions were looked at, without the
lanes that aborted (R209 to R211). -/
def RunsIn (s : State) (op : Nat) (f : FForm) (ok : Gx → Bool) (x y : Gx) : Prop :=
  openGang s f.pfx = some x ∧ x.decodeFault op f ok = none ∧ (x.pastEnd && !transferOp op) = false ∧
  (x.g.yreq && (f.sp || waitOp op)) = false ∧ x.g.inRegion &&& x.c.lanes ≠ 0 ∧ y = x.screenAll (x.screen op f) ∧ y.c.lanes ≠ 0

/-- The accesses of a load or store: one of the type's size at each enabled lane's effective address (R97, R187). -/
def Gx.wants (x : Gx) (f : FForm) (need : Need) (atomic : Bool) (halves : Option Bool) : List Want :=
  (lanesOf x.en).map fun l =>
    { lane := l, va := x.ea f l, size := f.ty.size, need := need, xf := f.x, atomic := atomic, halves := halves }

/-- What a lane loads from its page. -/
def Gx.loaded (x : Gx) (ps : List (Want × Leaf)) (n l : Nat) : Nat :=
  ((ps.find? fun p => p.1.lane == l).map fun p => x.loadNat x.s p.2 n).getD 0

/-- Pages of a store that only buffers: memory of the part or the host, neither alias nor NVIO nor a notify page, and not
write-combining (R80, R253, R265). -/
def PlainStores (xf : Nat) (ps : List (Want × Leaf)) : Prop :=
  ∀ p ∈ ps, p.2.mxa = none ∧ p.2.nvio = false ∧ paReal p.2.pa = true ∧ notifyPa p.2.pa = false ∧
    (policyOf xf p.2 true).cls ≠ 1

/-- Pages of a store that only combines: as PlainStores, but write-combining (R255, R265). -/
def CombinedStores (xf : Nat) (ps : List (Want × Leaf)) : Prop :=
  ∀ p ∈ ps, p.2.mxa = none ∧ p.2.nvio = false ∧ paReal p.2.pa = true ∧ notifyPa p.2.pa = false ∧
    (policyOf xf p.2 true).cls = 1

/-- Pages of a store that nothing buffers: alias, NVIO and notify pages, and where there is no memory (R80, R253, R404, R428). -/
def DirectStores (ps : List (Want × Leaf)) : Prop :=
  ∀ p ∈ ps, (p.2.mxa.isSome || p.2.nvio || !paReal p.2.pa || notifyPa p.2.pa) = true

/-- A gang's stores complete as their pages have it (R186, R253, R265). Plain ones join the store buffer, one entry for each line
with the bytes that no later lane replaces, and take their bytes from what is being combined; combined ones join the
write-combining buffer, which drains its oldest lines until it keeps 8; direct ones are performed at once, after what the group
has buffered for their lines. `fin` is what else the instruction does to its group. -/
def StoreResult (x : Gx) (xf : Nat) (ws : List (Want × Leaf × List Byte)) (fin : Group → Group)
    (o : Host.Outcome State Fault Refusal) : Prop :=
  let es := entriesOf xf ((lastOnly ws).filter fun p => !p.2.2.isEmpty)
  let ps := ws.map fun p => (p.1, p.2.1)
  (PlainStores xf ps → x.g.stbuf.length + es.length ≤ 64 → x.g.wcbuf.length ≤ 8 →
    o = .next (x.done (x.s.modGrp x.c.g fun g =>
      { g with stbuf := g.stbuf ++ es, wcbuf := es.foldl supersede g.wcbuf }) fin)) ∧
  (∀ t, CombinedStores xf ps → x.g.stbuf.length ≤ 64 →
    (x.s.modGrp x.c.g fun g => { g with wcbuf := es.foldl combineIn g.wcbuf }).fitCombined x.c.g 200 = .done t →
    o = .next (x.done t fin)) ∧
  (∀ t, DirectStores ps → x.s.drainFor x.c.g ps = .done t →
    ((t.grp? x.c.g).map fun g => g.stbuf.length).getD 0 ≤ 64 →
    let u := x.touched (t.storeNow (x.s.acc x.t) (ws.map Prod.snd)) xf ps true
    (∀ h, u.grp? x.c.g = some h → h.wcbuf.length ≤ 8) → o = .next (x.done u fin))

/-- The record that a home's part of an object has of a sharer. -/
def Coh.recordAt (c : Coh) (home : Nat) (o : ObjId) (sid : Nat) : Option Sharer := (c.part? home o).bind fun p => p.sharer? sid

/-- The stores of a region, on some values of its sources, as memory shows them: a byte has what the last store over it
writes, and any other what it had (R213). -/
def Committed (r : Region) (ls : List Leaf) (vals : List Nat) (s t : State) : Prop :=
  ∀ pa, paReal pa = true → t.byteAt pa =
    match (ls.zip (r.stores.zip (r.writes vals))).reverse.find? fun w => w.1.pa ≤ pa && pa < w.1.pa + w.2.1.width with
    | some w => BitVec.ofNat 8 (w.2.2 / 256 ^ (pa - w.1.pa))
    | none => s.byteAt pa

/-- The value of an instruction's only whole-gang access. -/
def Gx.one (x : Gx) (va size : Nat) (need : Need) (atomic : Bool := false) (halves : Option Bool := some false) : Want :=
  { lane := x.low, va := va, size := size, need := need, atomic := atomic, halves := halves, whole := true }

/-- A group whose gang has entered a trap with a code: the resume PC of each lane is the next instruction (R241). -/
def Group.entered (g : Group) (x : Gx) (code : Nat) : Group :=
  { g with
    cause := code, intrap := true, trapping := x.c.lanes
    lanes := g.lanes.mapIdx fun i l =>
      if x.c.lanes.getLsbD i then
        { l with trapPc := x.next, pc := BitVec.ofNat 64 (bits64 g.tvec 2 52 * 4), wait := .none }
      else l }

/-- Every cached copy of the device lines among some has been recalled for the group (R276). -/
def Gx.Recalled (x : Gx) (lines : List Nat) : Prop :=
  ∀ m ∈ lines, paDevice (128 * m) = true → x.s.ownerOf m = none ∧ x.s.coh.recalled x.c.g m = true

/-- The move for which a group's lines were recalled has ended (R276). -/
def Gx.moved (x : Gx) : State :=
  { x.s with coh := { x.s.coh with moving := x.s.coh.moving.filter fun m => m.2 != x.c.g } }

/-- A thread as it stands after a change. -/
def State.setQ (s : State) (t : Nat) (q : Qcp) : State := { s with threads := aset s.threads t q }

/-- The packet at RPTR of a thread has arrived, is well formed and of a type, what it touches can be reached, the QCP considers
the thread, and a FENCE it asks for holds (R316 to R323). -/
def Arrived (s : State) (t type : Nat) (q : Qcp) (p : Pkt) : Prop :=
  s.qcp? t = some q ∧ s.fetchPacket t q = .packet p ∧ p.type = type ∧ s.checkCword t q p = .ok ∧
  s.packetWait t q p = none ∧ s.qcpTurn t q = true ∧ (p.fence = true → q.packets.all Packet.done = true)

/-- As Arrived, of a packet that empties the history and refutes: `u` is the state in which it goes on (R328, R339). -/
def Goes (s : State) (t type : Nat) (q : Qcp) (p : Pkt) (u : State) : Prop :=
  Arrived s t type q p ∧ ((u.qcp? t).map Qcp.discarding).getD false = false ∧
  u = (if q.program = none ∧ q.history = [] ∧ q.pstate = .learning then s.considered else s.considered.unlearn t [])

/-- The message that a die applies next is a context's first, and of a type; `t` is the state in which messages have moved as
far as they can (R391). -/
def Msged (s : State) (die ctx type : Nat) (t : State) (m : Msg) (v : Serving) : Prop :=
  t = s.deliverMsgs ∧ t.nextMsg die = some m ∧ t.firstMsg die ctx = some m ∧ aget t.serving ctx = some v ∧ m.type = type

/-- A message applied with a status: it is taken and its inbox entry written, its own bytes from byte 8 on as they are
(R390 to R393). -/
def State.applied (u : State) (die ctx : Nat) (v : Serving) (m : Msg) (status : Nat) (body : List Byte) : State :=
  (u.takeMsg die ctx).inboxPut v die ctx (inboxHead status m.id m.src die m.type ++ body)

/-- The next record of a service queue can be taken and calls an operation (R403 to R405). -/
def Calls (s : State) (queue op : Nat) (r : Rec) : Prop := s.headRecord queue = .record r ∧ r.op = op

/-- The record is taken: HEAD moves on, and the call is the queue's latest (R403). -/
def State.taken (s : State) (queue : Nat) (r : Rec) (result : Option Int) : Host.Outcome State Fault Refusal :=
  .next (s.modSvc queue fun x =>
    { x with head := x.head + 1, calls := x.calls ++ [{ num := r.seq - 1, bytes := r.b, result := result }] })

/-- The part's fleet state changed. -/
def State.setFleet (s : State) (f : Fleet) : State := { s with fleet := f }

/-- Memory is in its canonical form. -/
def State.Inv (s : State) : Prop := Memory.wf s.mem

/-- Every byte of memory reads as before. -/
def SameMemory (s t : State) : Prop := ∀ pa, t.byteAt pa = s.byteAt pa

end Sys2Proof.Machine
end

