-- ==== Sys2Proof/Certificates/Slice0/Obligations.lean ====
section
/-! DEFINITION. The statements for the provers. -/

open Sys2Proof Sys2Proof.Machine

/-- R138: IADD, ISUB, IMUL, IMULH, IMAD, IMIN, IMAX, IABS, INEG, IADDS and ISUBS of w-bit words, written with Put. -/
def Obligations.IntegerArithmetic : Prop :=
  AluRow .iadd 0x01 (fun _ a b _ => a + b) ∧
  AluRow .isub 0x02 (fun _ a b _ => a - b) ∧
  AluRow .imul 0x03 (fun _ a b _ => a * b) ∧
  AluRow .imulh 0x04 (fun t a b _ => BitVec.ofInt _ (numOf t a * numOf t b / 2 ^ t.bits)) ∧
  AluRow .imad 0x05 (fun _ a b c => a * b + c) ∧
  AluRow .imin 0x08 (fun t a b _ => if numOf t b < numOf t a then b else a) ∧
  AluRow .imax 0x09 (fun t a b _ => if numOf t a < numOf t b then b else a) ∧
  AluRow .iabs 0x0A (fun t a _ _ => BitVec.ofNat _ (numOf t a).natAbs) ∧
  AluRow .ineg 0x0B (fun _ a _ _ => -a) ∧
  AluRow .iadds 0x1C (fun t a b _ => BitVec.ofInt _ (clampTo t (numOf t a + numOf t b))) ∧
  AluRow .isubs 0x1D (fun t a b _ => BitVec.ofInt _ (clampTo t (numOf t a - numOf t b))) ∧
  TypesOf .imulh [.i32, .ui32, .i64, .ui64] ∧ TypesOf .iabs [.i8, .i16, .i32, .i64] ∧ TypesOf .ineg [.i8, .i16, .i32, .i64]

/-- R139: IDIV and IREM with the corners of a zero divisor and of signed overflow. -/
def Obligations.IntegerDivision : Prop :=
  AluRow .idiv 0x06 (fun t a b _ =>
    if b = 0 then BitVec.allOnes _
    else if t.signed ∧ a = BitVec.intMin _ ∧ b = BitVec.allOnes _ then BitVec.intMin _
    else BitVec.ofInt _ ((numOf t a).tdiv (numOf t b))) ∧
  AluRow .irem 0x07 (fun t a b _ =>
    if b = 0 then a
    else if t.signed ∧ a = BitVec.intMin _ ∧ b = BitVec.allOnes _ then 0
    else BitVec.ofInt _ (numOf t a - numOf t b * (numOf t a).tdiv (numOf t b))) ∧
  TypesOf .idiv [.i32, .ui32, .i64, .ui64] ∧ TypesOf .irem [.i32, .ui32, .i64, .ui64]

/-- R140: bitwise logic on w bits; Put extends the result of a narrow type. -/
def Obligations.Logic : Prop :=
  AluRow .and 0x0C (fun _ a b _ => a &&& b) ∧ AluRow .or 0x0D (fun _ a b _ => a ||| b) ∧
  AluRow .xor 0x0E (fun _ a b _ => a ^^^ b) ∧ AluRow .andn 0x0F (fun _ a b _ => a &&& ~~~b) ∧
  AluRow .not 0x10 (fun _ a _ _ => ~~~a)

/-- R141: shifts by B[7:0], an immediate B zero-extended. -/
def Obligations.Shifts : Prop :=
  ShiftRow .shl 0x11 (fun _ a b _ => a <<< (b % 256)) ∧ ShiftRow .shr 0x12 (fun _ a b _ => a >>> (b % 256)) ∧
  ShiftRow .sar 0x13 (fun t a b _ => if t.signed then a.sshiftRight (b % 256) else a >>> (b % 256)) ∧ ShiftRow .rot 0x14 (fun _ a b _ => a.rotateLeft (b % 256)) ∧
  TypesOf .shl [.b32, .i32, .ui32, .i64, .ui64] ∧ TypesOf .shr [.b32, .i32, .ui32, .i64, .ui64] ∧
  TypesOf .rot [.b32, .i32, .ui32, .i64, .ui64] ∧ TypesOf .sar [.i32, .i64]

/-- R142, R143: BFE takes n bits from p on, bits past the word being zero or copies of a signed type's sign; BFI puts n bits
of A into C at p; counts of bits, and bits reversed. -/
def Obligations.BitFieldsAndCounts : Prop :=
  ShiftRow .bfe 0x15 (fun t a b _ =>
    let n := min (b / 256 % 256) t.bits
    if n = 0 then 0
    else if t.signed then ((a.sshiftRight (b % 256)).setWidth n).signExtend _
    else ((a >>> (b % 256)).setWidth n).setWidth _) ∧
  ShiftRow .bfi 0x16 (fun t a b c =>
    let m := ((BitVec.allOnes (min (b / 256 % 256) t.bits)).setWidth t.bits) <<< (b % 256)
    (c &&& ~~~m) ||| ((a <<< (b % 256)) &&& m)) ∧
  TypesOf .bfe [.b32, .i32, .ui32, .i64, .ui64] ∧ TypesOf .bfi [.b32, .ui32, .ui64] ∧
  AluRow .popc 0x17 (fun t a _ _ => BitVec.ofNat _ ((List.range t.bits).countP fun i => a.getLsbD i)) ∧
  AluRow .clz 0x18 (fun t a _ _ => BitVec.ofNat _ ((List.range t.bits).takeWhile fun i => !a.getMsbD i).length) ∧
  AluRow .brev 0x19 (fun _ a _ _ => a.reverse)

/-- R123, R145 to R147: NOP, SEL, LEA, MOV, LIL and LIH. -/
def Obligations.MovesAndConstants : Prop :=
  (∀ s f x, Runs s 0x00 f free x → exec (.nop f) s = .next (x.done x.s id)) ∧
  VecRow .sel 0x1B (fun f x l => if (match f.c with | .m n => (x.mask n).getLsbD l | _ => false) then x.va f l else x.vb f l) ∧
  VecRow .lea 0x1E (fun f x l =>
    (BitVec.ofNat 64 (x.va f l) + (BitVec.ofNat 32 (x.srcB l f.b .i32 32)).signExtend 64 * BitVec.ofNat 64 (2 ^ f.fn)).toNat) ∧
  VecRow .mov 0x1F (fun f x l => x.va f l) ∧
  VecRow .lil 0x20 (fun f x l => x.vb f l) ∧
  VecRow .lih 0x21 (fun f x l =>
    let d := x.src l f.d f.ty f.ty.bits
    (d % 2 ^ (16 * f.fn) + x.vbz f l % 65536 * 2 ^ (16 * f.fn) + d / 2 ^ (16 * f.fn + 16) * 2 ^ (16 * f.fn + 16)))

/-- R144, R159: compares write one bit for each lane of the gang; FN 6 to 9 of ICMP compare unsigned. -/
def Obligations.Compares : Prop :=
  MaskRow .icmp 0x1A (fun f x l =>
    let a := BitVec.ofNat f.ty.bits (x.va f l)
    let b := BitVec.ofNat f.ty.bits (x.vb f l)
    match f.fn with
    | 0 => a == b | 1 => a != b
    | 2 => numOf f.ty a < numOf f.ty b | 3 => numOf f.ty a ≤ numOf f.ty b
    | 4 => numOf f.ty b < numOf f.ty a | 5 => numOf f.ty b ≤ numOf f.ty a
    | 6 => a < b | 7 => a ≤ b | 8 => b < a | _ => b ≤ a) ∧
  MaskRow .fcmp 0x39 (fun f x l =>
    let a := x.fa f l
    let b := x.fb f l
    let un := a == .nan || b == .nan
    match f.fn with
    | 0 => a.eqv b | 1 => un || !a.eqv b | 2 => a.lt b | 3 => a.lt b || a.eqv b | 4 => b.lt a | 5 => b.lt a || a.eqv b
    | 6 => un | _ => !un)

/-- R137, R157, R163: the rounding float instructions round the exact result once, and each enabled lane draws once. -/
def Obligations.FloatRounding : Prop :=
  DrawRow .fadd 0x30 FForm.ty (fun f x l => x.rounded f f.ty [x.fa f l, x.fb f l] ((x.fa f l).add (x.down f f.ty) (x.fb f l))) ∧
  DrawRow .fsub 0x31 FForm.ty (fun f x l =>
    x.rounded f f.ty [x.fa f l, x.fb f l] ((x.fa f l).add (x.down f f.ty) (x.fb f l).neg)) ∧
  DrawRow .fmul 0x32 FForm.ty (fun f x l => x.rounded f f.ty [x.fa f l, x.fb f l] ((x.fa f l).mul (x.fb f l))) ∧
  DrawRow .fma 0x33 FForm.ty (fun f x l => x.rounded f f.ty [x.fa f l, x.fb f l, x.fc f l]
    (((x.fa f l).mul (x.fb f l)).add (x.down f f.ty) (x.fc f l))) ∧
  DrawRow .frcp 0x3A FForm.ty (fun f x l => x.rounded f f.ty [x.fa f l] ((FV.ofInt 1).div (x.fa f l))) ∧
  DrawRow .frsq 0x3B FForm.ty (fun f x l => x.rounded f f.ty [x.fa f l] (x.fa f l).rsqrt) ∧
  DrawRow .fsqrt 0x3C FForm.ty (fun f x l => x.rounded f f.ty [x.fa f l] (x.fa f l).sqrt) ∧
  DrawRow .fdiv 0x3D FForm.ty (fun f x l => x.rounded f f.ty [x.fa f l, x.fb f l] ((x.fa f l).div (x.fb f l))) ∧
  DrawRow .fscal 0x46 FForm.ty (fun f x l => x.rounded f f.ty [x.fa f l]
    ((x.fa f l).scale (BitVec.ofNat 32 (x.srcB l f.b .i32 32)).toInt)) ∧
  DrawRow .fdot2 0x47 (fun _ => .f32) (fun f x l => x.rounded f .f32 (x.dotC f l :: x.dotA f 2 l ++ x.dotB f 2 l)
    (dotSum (x.down f .f32) (x.dotC f l) ((x.dotA f 2 l).zip (x.dotB f 2 l)))) ∧
  DrawRow .fdot4 0x48 (fun _ => .f32) (fun f x l => x.rounded f .f32 (x.dotC f l :: x.dotA f 4 l ++ x.dotB f 4 l)
    (dotSum (x.down f .f32) (x.dotC f l) ((x.dotA f 4 l).zip (x.dotB f 4 l))))

/-- R158, R161, R162: FMIN, FMAX, FABS, FNEG, FSGN, FCLAS and FRND round nothing. -/
def Obligations.FloatExact : Prop :=
  VecRow .fmin 0x34 (fun f x l =>
    if x.fa f l = .nan ∧ x.fb f l = .nan then f.ty.fmt.nan
    else if x.fa f l = .nan then x.vb f l else if x.fb f l = .nan then x.va f l
    else if fBelow (x.fa f l) (x.fb f l) then x.va f l else x.vb f l) ∧
  VecRow .fmax 0x35 (fun f x l =>
    if x.fa f l = .nan ∧ x.fb f l = .nan then f.ty.fmt.nan
    else if x.fa f l = .nan then x.vb f l else if x.fb f l = .nan then x.va f l
    else if fBelow (x.fa f l) (x.fb f l) then x.vb f l else x.va f l) ∧
  VecRow .fabs 0x36 (fun f x l => if x.fa f l = .nan then f.ty.fmt.nan else x.va f l % 2 ^ (f.ty.bits - 1)) ∧
  VecRow .fneg 0x37 (fun f x l => if x.fa f l = .nan then f.ty.fmt.nan else x.va f l ^^^ 2 ^ (f.ty.bits - 1)) ∧
  VecRow .fsgn 0x38 (fun f x l => if x.fa f l = .nan then f.ty.fmt.nan
    else x.va f l % 2 ^ (f.ty.bits - 1) + x.vb f l / 2 ^ (f.ty.bits - 1) * 2 ^ (f.ty.bits - 1)) ∧
  (∀ s f x, Runs s 0x44 f free x → VecResult x f.d f.z .b32 (fun l => fClass f.ty (x.va f l)) (exec (.fclas f) s)) ∧
  VecRow .frnd 0x45 (fun f x l => fRound f.ty f.fn (x.va f l))

/-- R160, R164: the elementary functions round to nearest even, which is the model's precision (log 12); SMRG merges two (max, sum)
pairs. The max of −0 and +0 is the model's (log 56). -/
def Obligations.FloatElementary : Prop :=
  VecRow .fexp2 0x3E (fun f x l => f.ty.fmt.round .rne false 0 (x.fa f l).exp2) ∧
  VecRow .flog2 0x3F (fun f x l => f.ty.fmt.round .rne false 0 (x.fa f l).log2) ∧
  VecRow .fsin 0x40 (fun f x l => f.ty.fmt.round .rne false 0 ((x.fa f l).trig false)) ∧
  VecRow .fcos 0x41 (fun f x l => f.ty.fmt.round .rne false 0 ((x.fa f l).trig true)) ∧
  VecRow .ftanh 0x42 (fun f x l => f.ty.fmt.round .rne false 0 (x.fa f l).tanh) ∧
  VecRow .fsigm 0x43 (fun f x l => f.ty.fmt.round .rne false 0 (x.fa f l).sigm) ∧
  (∀ s f x, Runs s 0x49 f free x → VecResult x f.d f.z .ui64
    (fun l => mergePair (x.src l f.a .ui64 64) (x.srcB l f.b .ui64 64)) (exec (.smrg f) s))

/-- R71, R165 to R168: conversions by source and destination type. -/
def Obligations.Conversions : Prop := ConvRow .cvt 0x50 ∧ ConvRow .cvtfi 0x51 ∧ ConvRow .cvtif 0x52 ∧ ConvRow .cvtii 0x53

/-- R122, R169 to R172: PACK packs 32/w registers in order of index, UNPK writes 32/w registers, none where D is zero or one, QNT
quantizes 32 values to a block whose scale goes to a uniform register, DQNT gives back its values. -/
def Obligations.PackingAndBlocks : Prop :=
  (∀ s f x n, Runs s 0x54 f (fun x => x.packOk f f.a) x → f.a = .v n →
    let mode := modeOf x.g.cvm f.pfx (packNibble f)
    let sat := satOf x.g.cvm f.pfx (packNibble f) true
    let r := drawAll x.parts x.g.rng fun l rng =>
      packAll f mode sat ((span n (32 / f.ty.bits)).map fun i => x.rd.vsrc l i 32) rng
    exec (.pack f) s =
      .next (x.done x.s fun g => x.put f.d f.z .b32 (fun l => (aget r.1 l).getD 0) { g with rng := r.2 })) ∧
  (∀ s f x n, Runs s 0x55 f (fun x => x.packOk f f.d) x → f.d = .v n → f.ty.bits ≤ 16 →
    ∃ v : Sparse 32, exec (.unpk f) s = .next (x.done x.s fun g => g.withV v) ∧
      ∀ pos lane, lane < 32 → sget v (32 * pos + lane) =
        let p := x.g.wb lane + n
        if (x.c.lanes.getLsbD lane && (x.en.getLsbD lane || f.z)) = true ∧ p ≤ pos ∧ pos < p + 32 / f.ty.bits then
          (if x.en.getLsbD lane then
            BitVec.ofNat 32 (unpackElem f (x.src lane f.a f.ty 32 / 2 ^ (f.ty.bits * (pos - p)) % 2 ^ f.ty.bits))
          else 0)
        else x.g.vreg pos lane) ∧
  (∀ s f x, Runs s 0x55 f (fun x => x.packOk f f.d) x → (∀ n, f.d ≠ .v n) → exec (.unpk f) s = .next (x.done x.s id)) ∧
  (∀ s f x, Runs s 0x56 f free x →
    let b := blockOf f
    let mode := modeOf x.g.cvm f.pfx (some (blkNibble b))
    let sat := satOf x.g.cvm f.pfx (some (blkNibble b)) true
    let q := b.quant mode sat (x.drawOf mode) ((List.range 32).map fun l =>
      if x.en.getLsbD l then Fmt.f32.dec (x.src l f.a .f32 32) else .ofInt 0)
    ∃ (v : Sparse 32) (h : Group), UniAfter x f.c (BitVec.ofNat 64 q.2) h ∧
      exec (.qnt f) s = .next (x.done x.s fun _ => (h.withV v).withRng (rngAt mode x.g.rng x.parts.length)) ∧
      ∀ pos lane, lane < 32 → sget v (32 * pos + lane) =
        x.vecAfter f.d f.z .b32 (fun l => leNat (((q.1.drop (4 * l)).take 4).map (BitVec.ofNat 8))) pos lane) ∧
  (∀ s f x, Runs s 0x57 f free x →
    let b := blockOf f
    let data := (List.range (b.dataBytes / 4)).flatMap fun j => (leBytes 4 (x.src j f.a .b32 32)).map BitVec.toNat
    VecResult x f.d f.z .b32
      (fun l => Fmt.f32.round .rne false 0 ((b.decode data (x.usrc f.c .ui64 64 % 256)).getD l .nan)) (exec (.dqnt f) s))

/-- R148 to R156: VOTE, SHFL, REDU, SCAN, MATCH, ELECT combine the participants alone; PRMT, IDOT4 and IDOT8. -/
def Obligations.CrossLane : Prop :=
  (∀ s f x, Runs s 0x22 f free x →
    let yes := x.parts.filter (x.votes f)
    let same := yes.length = 0 ∨ yes.length = x.parts.length
    (∀ n, f.d = .m n →
      (f.fn = 0 → MaskResult x f.d f.z (fun _ => x.parts.length < 2 * yes.length) (exec (.vote f) s)) ∧
      (f.fn = 1 → exec (.vote f) s = .next (x.done x.s fun g => g.withM (sset x.g.mregs n (maskOf yes)))) ∧
      (f.fn = 2 → exec (.vote f) s = .next (x.done x.s fun g => g.withM (sset x.g.mregs n (maskOf (yes.take 1))))) ∧
      (f.fn = 3 → MaskResult x f.d f.z (fun _ => decide same) (exec (.vote f) s))) ∧
    ((∀ n, f.d ≠ .m n) →
      (f.fn = 0 → UniResult x f.d (BitVec.ofNat 64 yes.length) (exec (.vote f) s)) ∧
      (f.fn = 1 → UniResult x f.d ((maskOf yes).setWidth 64) (exec (.vote f) s)) ∧
      (f.fn = 2 → UniResult x f.d (BitVec.ofNat 64 (yes.head?.getD 32)) (exec (.vote f) s)) ∧
      (f.fn = 3 → UniResult x f.d (if same then 1 else 0) (exec (.vote f) s)))) ∧
  (∀ s f x, Runs s 0x23 f free x →
    let t : Ty := if f.ty.is64 then .ui64 else .b32
    VecResult x f.d f.z t
      (fun l =>
        let n := x.srcBz l f.b .ui32 32
        let j := match f.fn with
          | 0 => n % 32 | 1 => if n ≤ l then l - n else l | 2 => if l + n ≤ 31 then l + n else l | _ => l ^^^ (n % 32)
        x.src j f.a t t.bits) (exec (.shfl f) s)) ∧
  (∀ s f x, Runs s 0x24 f free x →
    let v := match (x.combined f).1.getLast? with | some p => p.2.2 | none => identityOf (f.fn % 8) f.ty
    ∃ h, UniAfter x f.d (extend64 f.ty v) h ∧ exec (.redu f) s = .next (x.done x.s fun _ => h.withRng (x.combined f).2)) ∧
  (∀ s f x, Runs s 0x25 f free x → ∃ v : Sparse 32,
    exec (.scan f) s = .next (x.done x.s fun g => (g.withV v).withRng (x.combined f).2) ∧
    ∀ pos lane, lane < 32 → sget v (32 * pos + lane) = x.vecAfter f.d f.z f.ty
      (fun l => ((x.combined f).1.find? (fun p => p.1 == l)).elim 0 fun p => if f.fn ≥ 8 then p.2.1 else p.2.2) pos lane) ∧
  MaskRow .matchEq 0x26 (fun f x l =>
    if f.fn = 0 then x.parts.any (fun j => j != l && x.va f j == x.va f l) else x.parts.all (fun j => x.va f j == x.va f l)) ∧
  (∀ s f x n, Runs s 0x27 f free x → f.d = .m n →
    exec (.elect f) s = .next (x.done x.s fun g => g.withM (sset x.g.mregs n (maskOf (x.parts.take 1))))) ∧
  VecRow .prmt 0x28 (fun f x l =>
    prmtByte (x.va f l) (x.vb f l) (x.vc f l % 32) + 256 * prmtByte (x.va f l) (x.vb f l) (x.vc f l / 32 % 32) +
    65536 * prmtByte (x.va f l) (x.vb f l) (x.vc f l / 1024 % 32) +
    16777216 * prmtByte (x.va f l) (x.vb f l) (x.vc f l / 32768 % 32)) ∧
  DotRow .idot4 0x29 4 ∧ DotRow .idot8 0x2A 8

/-- R27, R63, R174, R175, R176: integer instructions on uniform registers; the result is extended to 64 bits by the type. A
diverged write splits its register and sets $status.DIVW; a plain one splits none and leaves DIVW alone. That a diverged write of
a register already split sets DIVW again is the model's choice (log 63). -/
def Obligations.UniformInteger : Prop :=
  UniAluRow .uadd 0x58 (fun _ a b => a + b) ∧ UniAluRow .usub 0x59 (fun _ a b => a - b) ∧
  UniAluRow .umul 0x5A (fun _ a b => a * b) ∧ UniAluRow .uand 0x5B (fun _ a b => a &&& b) ∧
  UniAluRow .uor 0x5C (fun _ a b => a ||| b) ∧ UniAluRow .uxor 0x5D (fun _ a b => a ^^^ b) ∧
  UniAluRow .ushl 0x5E (fun _ a b => a <<< (b.toNat % 256)) ∧ UniAluRow .ushr 0x5F (fun _ a b => a >>> (b.toNat % 256)) ∧
  UniRow .ucmp 0x60 (fun f x => if icmpBit f.fn f.ty (x.ua f) (x.ub f) then 1 else 0) ∧
  UniRow .usel 0x61 (fun f x => extend64 f.ty (if x.usrc f.c f.ty 64 ≠ 0 then x.ua f else x.ub f)) ∧
  UniRow .ulil 0x62 (fun f x => extend64 f.ty (x.ub f)) ∧
  UniRow .ulih 0x63 (fun f x => extend64 f.ty
    (let d := x.usrc f.d f.ty f.ty.bits
     (d % 2 ^ (16 * f.fn) + x.ubz f % 65536 * 2 ^ (16 * f.fn) + d / 2 ^ (16 * f.fn + 16) * 2 ^ (16 * f.fn + 16)))) ∧
  UniAluRow .umin 0x64 (fun t a b => if numOf t b < numOf t a then b else a) ∧
  UniAluRow .umax 0x65 (fun t a b => if numOf t a < numOf t b then b else a) ∧
  (∀ s f x, Runs s 0x66 f (fun _ => match f.b with | .imm i => i.toNat < 32 | _ => true) x →
    UniResult x f.d (extend64 f.ty (x.src (x.srcBz x.low f.b .ui64 64 % 32) f.a f.ty f.ty.bits)) (exec (.upick f) s)) ∧
  UniRow .ulea 0x67 (fun f x =>
    BitVec.ofNat 64 (x.ua f) + (BitVec.ofNat 32 (x.usrcB f.b f.ty 32)).signExtend 64 * BitVec.ofNat 64 (2 ^ f.fn)) ∧
  UniRow .umov 0x6B (fun f x => extend64 f.ty (x.ua f))

/-- R174, R175: floating instructions on uniform registers round once, with one draw. -/
def Obligations.UniformFloat : Prop :=
  UniDrawRow .ufadd 0x68 (fun f x => x.rounded f f.ty [f.ty.val (x.ua f), f.ty.val (x.ub f)]
    ((f.ty.val (x.ua f)).add (x.down f f.ty) (f.ty.val (x.ub f)))) ∧
  UniDrawRow .ufmul 0x69 (fun f x => x.rounded f f.ty [f.ty.val (x.ua f), f.ty.val (x.ub f)]
    ((f.ty.val (x.ua f)).mul (f.ty.val (x.ub f)))) ∧
  UniDrawRow .ufma 0x6A (fun f x =>
    let c := f.ty.val (x.usrc f.c f.ty f.ty.bits)
    x.rounded f f.ty [f.ty.val (x.ua f), f.ty.val (x.ub f), c]
      (((f.ty.val (x.ua f)).mul (f.ty.val (x.ub f))).add (x.down f f.ty) c)) ∧
  (∀ s f x, Runs s 0x6C f free x →
    let src := Ty.ofCode f.fn
    let r := convert src f.ty (x.mode f f.ty) (x.sat f f.ty) (x.usrc f.a src src.bits) x.g.rng
    ∃ h, UniAfter x f.d (extend64 f.ty r.1) h ∧ exec (.ucvt f) s = .next (x.done x.s fun _ => h.withRng r.2))

/-- R102, R173, R177: the two slots of a D-form word read before either writes, and both results are written; one slot may be a
scratchpad access. That slot 0 draws its random bits first is the model's choice (log 24). -/
def Obligations.DualIssue : Prop :=
  ∀ s p q x, openGang s none = some x → x.dualOk p q = true → x.pastEnd = false → x.g.inRegion &&& x.c.lanes = 0 →
    let a := x.slotEval 0 p x.g.rng
    let b := x.slotEval 1 q a.2
    (p.op.scratch = false → q.op.scratch = false →
      exec (.dual p q) s = .next (x.done x.s fun g => x.slotWrite b.1 (x.slotWrite a.1 (g.withRng b.2)))) ∧
    (∀ n team off, q.op.scratch = false → p.b = .reg n →
      ScratchPassed x (fun l => x.src l n .ui32 32) p.ty.ty.size team off →
      (p.op = .lds → exec (.dual p q) s = .next (x.done x.s fun g => x.slotWrite b.1 (x.slotWrite
        (.vec p.a p.ty.ty ((lanesOf x.en).map fun l => (l, x.s.scratchNat (team l) (off l) p.ty.ty.size))) (g.withRng b.2)))) ∧
      (p.op = .sts → exec (.dual p q) s = .next (x.done
        ((lanesOf x.en).foldl (fun s l =>
          s.scratchWrite (team l) (off l) (leBytes p.ty.ty.size (x.src l p.a p.ty.ty p.ty.ty.bits))) x.s)
        fun g => x.slotWrite b.1 (g.withRng b.2)))) ∧
    (∀ n team off, p.op.scratch = false → q.b = .reg n →
      ScratchPassed x (fun l => x.src l n .ui32 32) q.ty.ty.size team off →
      (q.op = .lds → exec (.dual p q) s = .next (x.done x.s fun g => x.slotWrite
        (.vec q.a q.ty.ty ((lanesOf x.en).map fun l => (l, x.s.scratchNat (team l) (off l) q.ty.ty.size)))
        (x.slotWrite a.1 (g.withRng b.2)))) ∧
      (q.op = .sts → exec (.dual p q) s = .next (x.done
        ((lanesOf x.en).foldl (fun s l =>
          s.scratchWrite (team l) (off l) (leBytes q.ty.ty.size (x.src l q.a q.ty.ty q.ty.ty.bits))) x.s)
        fun g => x.slotWrite a.1 (g.withRng b.2))))

/-- R178: BRA takes the lanes of its mask, BRU the whole gang or none, JMPI the address in a register, and LOOP counts down;
lanes that do not transfer go on at the next instruction. -/
def Obligations.Branches : Prop :=
  (∀ s f x, Runs s 0x70 f free x → inSpace (x.target f) = true → x.pastEnd = false →
    exec (.bra f) s = .next (x.jump x.s fun i =>
      if (match f.a with | .m n => x.mask n &&& x.c.lanes | _ => 0).getLsbD i then BitVec.ofInt 64 (x.target f) else x.next)) ∧
  (∀ s f x, Runs s 0x71 f free x → inSpace (x.target f) = true → x.pastEnd = false →
    exec (.bru f) s = .next (x.jump x.s fun i =>
      if (if (x.usrc f.a .ui64 64 ≠ 0) = (f.fn = 0) then x.c.lanes else 0).getLsbD i then BitVec.ofInt 64 (x.target f)
      else x.next)) ∧
  (∀ s f x, Runs s 0x72 f free x → x.usrc f.a .ui64 64 % 4 = 0 → x.usrc f.a .ui64 64 < 2 ^ 54 →
    exec (.jmpi f) s = .next (x.jump x.s fun _ => BitVec.ofNat 64 (x.usrc f.a .ui64 64))) ∧
  (∀ s f x, Runs s 0x7F f free x → inSpace (x.target f) = true → x.pastEnd = false →
    let v := x.usrc f.d .ui64 64
    exec (.loop f) s = .next (x.jump x.s
      (fun i => if (if v > 1 then x.c.lanes else 0).getLsbD i then BitVec.ofInt 64 (x.target f) else x.next)
      fun g => if v = 0 then g else x.putS f.d (BitVec.ofNat 64 (v - 1)) g))

/-- R49, R50, R179, R180: CALL and CALLI move each lane's window on by its frame and write its link record; RET moves each lane back to its caller, and traps where the caller's window is not
resident. A CALL whose window does not fit traps with TRP_WINDOW_OVERFLOW, nothing written but $status.WSPAN, and one past
the end of the stack faults. -/
def Obligations.CallsAndReturns : Prop :=
  (∀ s f x, let fr := f.d.code
    let top := x.topOf fun _ l => l.wb + 8 * fr
    let segs := fun (g : Group) => { g with wspan := false, nseg := if top > g.sbot + g.nseg then top - g.sbot else g.nseg }
    let go := fun (t : DWord) => x.jump x.s (fun _ => t) fun g => (lanesOf x.c.lanes).foldl (Group.linkLane fr (x.word + 8)) (segs g)
    (∀ i ∈ lanesOf x.c.lanes, x.g.wb i + 8 * fr + x.budget ≤ 2 ^ 22) →
    (top ≤ x.g.sbot + x.g.nseg ∨ top - x.g.sbot ≤ x.g.bseg + x.g.hseg) →
    (Runs s 0x73 f (Gx.frameOk f) x → inSpace (x.target f) = true →
      exec (.call f) s = .next (go (BitVec.ofInt 64 (x.target f)))) ∧
    (Runs s 0x74 f (Gx.frameOk f) x → x.usrc f.a .ui64 64 % 4 = 0 → x.usrc f.a .ui64 64 < 2 ^ 54 →
      exec (.calli f) s = .next (go (BitVec.ofNat 64 (x.usrc f.a .ui64 64))))) ∧
  (∀ s f x, let fr := f.d.code
    let calls := fun (t : State) =>
      (Runs s 0x73 f (Gx.frameOk f) x → inSpace (x.target f) = true → exec (.call f) s = .next t) ∧
      (Runs s 0x74 f (Gx.frameOk f) x → x.usrc f.a .ui64 64 % 4 = 0 → x.usrc f.a .ui64 64 < 2 ^ 54 → exec (.calli f) s = .next t)
    let top := x.topOf fun _ l => l.wb + 8 * fr
    ((∃ i ∈ lanesOf x.c.lanes, 2 ^ 22 < x.g.wb i + 8 * fr + x.budget) → calls (x.fault x.s fltRange)) ∧
    ((∀ i ∈ lanesOf x.c.lanes, x.g.wb i + 8 * fr + x.budget ≤ 2 ^ 22) → x.g.sbot + x.g.nseg < top →
      x.g.bseg + x.g.hseg < top - x.g.sbot →
      calls (x.trap (x.s.modGrp x.c.g fun g =>
          { g with wspan := (lanesOf x.g.live).any fun i => x.g.wb i < 64 * (x.g.sbot + 1) })
        trpOverflow 0 x.c.pc.toNat fun _ => x.c.pc))) ∧
  (∀ s f x (fr : Nat → Nat) (ra : Nat → DWord), Runs s 0x75 f free x →
    (∀ i ∈ lanesOf x.c.lanes, x.linkOf i = some (fr i, ra i)) →
    let t := x.jump x.s ra fun g =>
      ((lanesOf x.c.lanes).foldl (fun g i => g.modLane i fun l => { l with wb := l.wb - fr i }) g).shrink
        (x.topOf fun i l => l.wb - fr i)
    let low := match t.grp? x.c.g with
      | some h => (lanesOf x.c.lanes).any fun i => h.wb i < 64 * h.sbot
      | none => false
    exec (.ret f) s = .next (if low then x.trap t trpUnderflow 0 (ra x.low).toNat ra else t))

/-- R30, R181: the lanes that JOIN's mask does not name go on, the named ones wait and go on together once all are there;
EXIT ends its lanes once the group's stores are performed. Where masks differ the lanes that go on are the model's choice
(log 57). -/
def Obligations.JoinAndExit : Prop :=
  (∀ s f x, Runs s 0x76 f free x →
    let m := match f.a with | .m n => x.mask n | _ => 0
    let waits := fun (g : Group) => (g.modLanes (x.c.lanes &&& ~~~m) fun l => { l with pc := x.next, wait := .none }).modLanes
      (x.c.lanes &&& m) fun l => { l with wait := .join m }
    ((waits x.g).joined (lowest (x.c.lanes &&& m)) = false → exec (.join f) s = .next (x.s.modGrp x.c.g waits)) ∧
    ((waits x.g).joined (lowest (x.c.lanes &&& m)) = true →
      exec (.join f) s = .next (x.s.modGrp x.c.g fun g => (waits g).joinGo (lowest (x.c.lanes &&& m))))) ∧
  (∀ s f x t, Runs s 0x77 f free x → Drains x true t →
    exec (.exit f) s = .next ((t.modGrp x.c.g fun g => g.modLanes x.c.lanes fun l => { l with exited := true, wait := .none }).modTeam
      x.c.g.team Team.noteArrivals))

/-- R182, R265: BAR and CBAR perform the group's stores and wait at their barrier, the arrival noted. -/
def Obligations.Barriers : Prop :=
  (∀ s f x t, Runs s 0x78 f (fun _ => f.b.immOf.toNat < 16) x → Drains x false t →
    exec (.bar f) s = .next ((x.waitIn t (.bar f.b.immOf.toNat)).modTeam x.c.g.team Team.noteArrivals)) ∧
  (∀ s f x t, Runs s 0x79 f (fun _ => f.b.immOf.toNat < 16) x → Drains x false t →
    exec (.cbar f) s = .next ((x.waitIn t (.cbar f.b.immOf.toNat)).modTeam x.c.g.team Team.noteArrivals))

/-- R34, R183 to R185, R200: WAITSEQ lets on the lanes whose word has reached its value; SLEEP takes a duration, a deadline
or a promise; PAUSE, SETPRI and YIELD. -/
def Obligations.WaitsAndPriority : Prop :=
  (∀ s f x ps, Runs s 0x7A f free x →
    Passed x ((lanesOf x.c.lanes).map fun l => { lane := l, va := x.seqAddr f l, size := f.ty.size, need := .r }) ps →
    let val := fun l => x.srcBz l f.b f.ty f.ty.bits
    let go := maskOf ((ps.filter fun p => seqReached (8 * f.ty.size) (x.loadNat x.s p.2 f.ty.size) (val p.1.lane)).map fun p => p.1.lane)
    let lane := fun (i : Nat) (l : Lane) =>
      if go.getLsbD i then { l with pc := x.next, wait := .none }
      else if x.c.lanes.getLsbD i then
        { l with wait := .seq (BitVec.ofNat 64 (x.seqAddr f i)) (f.ty.size = 8) (BitVec.ofNat 64 (val i)), since := s.cycle }
      else l
    exec (.waitseq f) s = .next (x.touched (x.s.modGrp x.c.g fun g => { g with lanes := g.lanes.mapIdx lane }) 0 ps false)) ∧
  (∀ s f x, Runs s 0x7B f free x →
    let b := match f.b with | .imm i => i.toNat | b => x.usrcB b .ui64 64
    (b < 2 ^ 63 → exec (.sleep f) s = .next (x.waitIn x.s (.sleep (if f.fn = 1 then b else x.s.cycle + b) none))) ∧
    (2 ^ 63 ≤ b → b % 2 ^ 60 ≠ 2 ^ 60 - 1 → b < 2 ^ 64 →
      exec (.sleep f) s = .next (x.waitIn x.s (.sleep (b % 2 ^ 60) (some (b / 2 ^ 60 % 8))))) ∧
    (2 ^ 63 ≤ b → b % 2 ^ 60 = 2 ^ 60 - 1 → b < 2 ^ 64 → exec (.sleep f) s = .next (x.done x.s id))) ∧
  (∀ s f x, Runs s 0x7C f free x →
    exec (.pause f) s = .next (x.done x.s fun g => g.modLanes x.c.lanes fun l => { l with paused := x.s.core + 33 })) ∧
  (∀ s f x, Runs s 0x7D f (fun _ => match f.b with | .imm i => i.toNat < 16 | _ => true) x →
    let b := match f.b with | .imm i => i.toNat | b => x.usrcB b .ui64 64
    (b ≤ 15 → exec (.setpri f) s = .next (x.done x.s fun g => { g with pri := b })) ∧
    (15 < b → exec (.setpri f) s = .next (x.fault x.s fltOperand))) ∧
  (∀ s f x, Runs s 0x7E f free x →
    exec (.yield f) s = .next ((x.done x.s fun g => { g with aged := false, lastIss := x.s.core }).modGrp x.c.g fun g =>
      g.modLanes x.c.lanes fun l => { l with wait := .yield (x.s.core + 2) }))

/-- R187 to R190, R193: loads give each enabled lane the bytes at its address; the coherence fabric is told of the lines. -/
def Obligations.Loads : Prop :=
  (∀ s f x ps, Runs s 0x80 f free x → Passed x (x.wants f .r false (some false)) ps →
    ∃ u, VecResult x f.d f.z f.ty (x.loaded ps f.ty.size) (.next u) ∧ exec (.ld f) s = .next (x.touched u f.x ps false)) ∧
  (∀ s f x team off, Runs s 0x82 f free x → ScratchPassed x (x.scratchEa f) f.ty.size team off →
    VecResult x f.d f.z f.ty (fun l => x.s.scratchNat (team l) (off l) f.ty.size) (exec (.lds f) s)) ∧
  (∀ s f x, Runs s 0x84 f (fun _ => f.b.immOf.toNat < 4096) x → f.b.immOf.toNat % f.ty.size = 0 →
    VecResult x f.d f.z f.ty (fun _ => leNat ((span f.b.immOf.toNat f.ty.size).map x.argByte)) (exec (.ldk f) s)) ∧
  (∀ s f x n r ps, Runs s 0x85 f free x → x.s.handle x.t.ctx (x.usrc f.a .ui64 64 % 2 ^ 32) = some (n, r) →
    (∀ l ∈ lanesOf x.en, ∀ p ∈ (x.indices f r.rank l).zip r.dims, p.1 < p.2) →
    (match f.b with | .reg (.v i) => i | _ => 0) + r.rank ≤ x.budget →
    (∀ i, f.d = .v i → r.lanesTy.is64 = true → i % 2 = 0 ∧ i + 1 < x.budget) →
    Passed x ((lanesOf x.en).flatMap fun l => (r.pieces (x.indices f r.rank l)).map fun p =>
      { lane := l, va := p.1, size := p.2, need := .r, xf := f.x }) ps →
    ∃ u, VecResult x f.d f.z r.lanesTy (fun l => r.element ((x.indices f r.rank l).getD 0 0)
        ((ps.filter fun p => p.1.lane == l).map fun p => x.loadNat x.s p.2 p.1.size)) (.next u) ∧
      exec (.ldt f) s = .next (x.touched u f.x ps false)) ∧
  (∀ s f x ps, Runs s 0x8B f free x → Passed x (x.wants f .r true (some false)) ps →
    ∃ u, VecResult x f.d f.z f.ty (x.loaded ps f.ty.size) (.next u) ∧ exec (.lda f) s = .next (x.touched u f.x ps false))

/-- R80, R186 to R188, R190, R193, R253, R263 to R265, R404: stores of plain memory join the group's store buffer, one entry for
each line, those of write-combining pages its other buffer, and those of alias, NVIO and notify pages are performed at once;
scratchpad stores are performed at once; STR performs the group's stores, at SCOPE 4 waits for them to be acknowledged, and
then performs its own; at a lesser SCOPE its lines are marked while the group's stores are unacknowledged. -/
def Obligations.Stores : Prop :=
  (∀ s f x ps, Runs s 0x81 f free x → Passed x (x.wants f .w false none) ps →
    StoreResult x f.x (ps.map fun p => (p.1, p.2, leBytes f.ty.size (x.dataOf f p.1.lane))) id (exec (.st f) s)) ∧
  (∀ s f x team off, Runs s 0x83 f free x → ScratchPassed x (x.scratchEa f) f.ty.size team off →
    exec (.sts f) s = .next (x.done ((lanesOf x.en).foldl (fun s l =>
      s.scratchWrite (team l) (off l) (leBytes f.ty.size (x.dataOf f l))) x.s) id)) ∧
  (∀ s f x n r ps, Runs s 0x86 f free x → x.s.handle x.t.ctx (x.usrc f.a .ui64 64 % 2 ^ 32) = some (n, r) → r.blk = none →
    (∀ l ∈ lanesOf x.en, ∀ p ∈ (x.indices f r.rank l).zip r.dims, p.1 < p.2) →
    (match f.b with | .reg (.v i) => i | _ => 0) + r.rank ≤ x.budget →
    (∀ i, f.d = .v i → r.ty.is64 = true → i % 2 = 0 ∧ i + 1 < x.budget) →
    Passed x ((lanesOf x.en).map fun l =>
      { lane := l, va := r.addr (x.indices f r.rank l), size := r.ty.size, need := .w, xf := f.x, halves := none }) ps →
    StoreResult x f.x (ps.map fun p => (p.1, p.2, leBytes r.ty.size (x.src p.1.lane f.d r.ty r.ty.bits))) id (exec (.stt f) s)) ∧
  (∀ (s : State) (a : Acc) (l : Leaf) (b : List Byte), l.mxa = none → (l.vers && a.slot != 0) = false → notifyPa l.pa = true →
    s.leafWrite a l (located 0 b) = if l.pa % 4096 = 0 ∧ b.length = 8 then
      s.notify ((l.pa - Config.notifyBase) / 4096) (some a.ctx) (leNat b) else s) ∧
  (∀ s f x ps t u, Runs s 0x8C f free x → Passed x (x.wants f .w true none) ps →
    let eager := ps.any fun p => p.2.scope = 4
    let keep := fun (s : State) => s.keepInUse x.t.ctx (ps.map fun p => (.lane x.c.g p.1.lane, p.1.va / 4096))
    let y := { x with s := keep x.s, s0 := keep x.s0 }
    (if eager then DrainsAcked y true t else Drains y false t) →
    t.coh.lacks ((ps.filter fun p => !(policyOf f.x p.2 true).atHome).flatMap fun p => halvesOf p.2.pa p.1.size) true = [] →
    x.noRoom t ps = false → DrainsLines { x with s := t } ps u →
    let put := fun (s : State) (p : Want × Leaf) =>
      (s.store (u.acc x.t) p.2 (located 0 (leBytes p.1.size (x.dataOf f p.1.lane)))).wrote x.t (p.2.pa / 128)
        (halvesOf p.2.pa p.1.size) (policyOf f.x p.2 true)
    exec (.str f) s = .next (x.done ((ps.foldl put u).promote x.c.g
      (if eager then [] else (ps.map fun p => p.2.pa / 128).eraseDups)) id))

/-- R191, R192, R269: the lanes of an atomic apply in increasing order, each getting the value it found; CAS writes where
what it found equals C. -/
def Obligations.Atomics : Prop :=
  (∀ s f x ps t, Runs s 0x87 f free x → Passed x (x.wants f .rw true (some true)) ps → DrainsLines x ps t →
    let r := x.rmwAll t ps fun l old => atomNew f.fn f.ty old (x.vc f l)
    exec (.atom f) s = .next (x.touched (x.done r.2 (x.put f.d f.z f.ty fun l => (aget r.1 l).getD 0)) f.x ps true)) ∧
  (∀ s f x ps t, Runs s 0x88 f free x → Passed x (x.wants f .rw true (some true)) ps → DrainsLines x ps t →
    let r := x.rmwAll t ps fun l old => if old = x.vc f l then x.dataOf f l else old
    exec (.cas f) s = .next (x.touched (x.done r.2 (x.put f.d f.z f.ty fun l => (aget r.1 l).getD 0)) f.x ps true)) ∧
  (∀ s f x team off, Runs s 0x89 f free x → ScratchPassed x (x.scratchEa f) f.ty.size team off →
    let r := x.rmwScratch x.s f.ty.size ((lanesOf x.en).map fun l => (l, team l, off l))
      fun l old => atomNew f.fn f.ty old (x.vc f l)
    exec (.atoms f) s = .next (x.done r.2 (x.put f.d f.z f.ty fun l => (aget r.1 l).getD 0))) ∧
  (∀ s f x team off, Runs s 0x8A f free x → ScratchPassed x (x.scratchEa f) f.ty.size team off →
    let r := x.rmwScratch x.s f.ty.size ((lanesOf x.en).map fun l => (l, team l, off l))
      fun l old => if old = x.vc f l then x.dataOf f l else old
    exec (.cass f) s = .next (x.done r.2 (x.put f.d f.z f.ty fun l => (aget r.1 l).getD 0)))

/-- R194, R195, R258: FENCE of loads alone goes on at once; another waits until the group's stores have drained at SCOPE 0
and 1, and until they are acknowledged at a higher one; PREF has the caches fetch its lines as its class says, or the host's
halves, and where it would fault or miss does nothing; CWB writes lines back, CINV drops them, after the group's own buffered
stores to them. That the fence of a die and of the device waits for every agent is the model's choice (log 62), what a write-back
and a drop do to a line's copies is too (log 45). -/
def Obligations.FencesAndCaches : Prop :=
  (∀ s f x, Runs s 0x8D f free x → (∀ n, f.a ≠ .s n) →
    (f.fn = 1 → exec (.fence f) s = .next (x.done x.s id)) ∧
    (∀ t, f.fn ≠ 1 → DrainsAcked x true t → exec (.fence f) s = .next (x.done t id))) ∧
  (∀ s f x n, Runs s 0x8D f free x → f.a = .s n →
    let page := x.s.translate x.t.ctx (.lane x.c.g x.low) (x.usrc f.a .ui64 64) .any
    (∀ code, page = .fault code → exec (.fence f) s = .next (x.fault x.s code 0xFF (x.usrc f.a .ui64 64))) ∧
    ∀ l, page = .ok l →
      (f.fn = 1 → exec (.fence f) s = .next (x.done x.s id)) ∧
      (∀ t, f.fn ≠ 1 → (if l.scope ≤ 1 then Drains x false t else DrainsAcked x (l.scope = 4) t) →
        exec (.fence f) s = .next (x.done t id))) ∧
  (∀ s f x, Runs s 0x8E f free x →
    (∃ t, exec (.pref f) s = .next (x.done t id) ∧ t.mem = x.s.mem ∧ t.teams = x.s.teams) ∧
    ∀ i, lanesOf x.en = [i] →
      let page := x.s.translate x.t.ctx (.lane x.c.g i) (x.ea f i) .r
      ((∀ l, page ≠ .ok l) → exec (.pref f) s = .next (x.done x.s id)) ∧
      ∀ l, page = .ok l → exec (.pref f) s = .next (x.done (
        if x.s.coh.lacks (halvesOf l.pa 1) false = [] then
          (l.lines 1).foldl (fun s n => s.touch x.t n (policyOf f.x l false) false) x.s
        else x.s.askHalves (x.s.coh.lacks (halvesOf l.pa 1) false) false (some (x.t.ctx, x.ea f i / 4096))) id)) ∧
  (∀ s f x ps t, Runs s 0x8F f free x → Passed x ((lanesOf x.en).map fun l =>
      { lane := l, va := x.ea f l, size := 0, need := .r, halves := none }) ps → DrainsLines x ps t →
    exec (.cwb f) s = .next (x.done (((ps.flatMap fun p => p.2.lines 0).eraseDups).foldl State.cleanLine t) id)) ∧
  (∀ s f x ps t, Runs s 0x90 f free x → Passed x ((lanesOf x.en).map fun l =>
      { lane := l, va := x.ea f l, size := 0, need := .r, halves := none }) ps → DrainsLines x ps t →
    let lines := (ps.flatMap fun p => p.2.lines 0).eraseDups
    let u := lines.foldl State.dropLine t
    (∀ h ∈ u.coh.held, h.line ∉ lines) → exec (.cinv f) s = .next (x.done u id))

/-- R196, R197: bobj.init sets both counts and phase 0; bobj.arrive releases the group's stores and counts down, the last
arrival moving the phase on; bobj.wait goes on when the phase has moved. -/
def Obligations.BarrierObjects : Prop :=
  (∀ s f x team off, Runs s 0x91 f (fun _ => f.b.immOf.toNat != 0) x → x.scratchUni f.a % 8 = 0 →
    x.s.scratchAt x.t (x.scratchUni f.a) 8 = some (team, off) →
    exec (.bobjInit f) s = .next (x.done
      (x.s.scratchWrite team off (leBytes 8 (f.b.immOf.toNat * 2 ^ 16 + f.b.immOf.toNat))) id)) ∧
  (∀ s f x team off t, Runs s 0x91 f free x → x.scratchUni f.a % 8 = 0 →
    x.s.scratchAt x.t (x.scratchUni f.a) 8 = some (team, off) → Drains x false t →
    let v := t.scratchNat team off 8
    let count := v % 2 ^ 16
    let left := v / 2 ^ 16 % 2 ^ 16
    let phase := v / 2 ^ 32
    (count ≠ 0 → left = 1 → exec (.bobjArrive f) s = .next (x.done
      (t.scratchWrite team off (leBytes 8 ((phase + 1) % 2 ^ 32 * 2 ^ 32 + count * 2 ^ 16 + count)))
      (x.putS f.d (BitVec.ofNat 64 phase)))) ∧
    (count ≠ 0 → 1 < left → exec (.bobjArrive f) s = .next (x.done
      (t.scratchWrite team off (leBytes 8 (phase * 2 ^ 32 + (left - 1) * 2 ^ 16 + count)))
      (x.putS f.d (BitVec.ofNat 64 phase)))) ∧
    (count = 0 → exec (.bobjArrive f) s = .next (x.fault x.s fltOperand))) ∧
  (∀ s f x team off, Runs s 0x91 f free x → x.scratchUni f.a % 8 = 0 →
    x.s.scratchAt x.t (x.scratchUni f.a) 8 = some (team, off) →
    let phase := x.usrc f.d .ui64 64 % 2 ^ 32
    (x.s.scratchNat team off 8 / 2 ^ 32 ≠ phase → exec (.bobjWait f) s = .next (x.done x.s id)) ∧
    (x.s.scratchNat team off 8 / 2 ^ 32 = phase →
      exec (.bobjWait f) s = .next (x.waitIn x.s (.bobj (x.scratchUni f.a) (BitVec.ofNat 32 phase) f.sp))))

/-- R198 to R200, R253, R269: ACP performs the group's buffered stores, puts one copy per enabled lane in flight, a copy of an
NVIO page with its data, and counts them under its tag; its promise is a free value of
the model (log 13) unless the part can promise no time; ACWAIT and ACCNT look at the counts. -/
def Obligations.LaneCopies : Prop :=
  (∀ s f x team off ps t, Runs s 0x92 f free x →
    let n := 4 * 2 ^ f.fn
    let tag := f.x / 8
    let valid := fun (l : Nat) => Nat.min (x.src l f.c .ui32 32) n
    let dst := fun (l : Nat) => x.src l (match f.b with | .reg m => m | _ => .zero) .ui32 32
    ScratchPassed x dst n team off →
    Passed x (((lanesOf x.en).filter fun l => valid l != 0).map fun l =>
      { lane := l, va := x.src l f.a .ui64 64, size := n, need := .r }) ps →
    x.g.countOf tag + (lanesOf x.en).length ≤ 4095 → x.s.drainAll x.c.g true = .done t →
    let src := fun (l : Nat) => (ps.find? fun p => p.1.lane == l).map Prod.snd
    let data := fun (l : Nat) =>
      (src l).bind fun q => if q.nvio then some (t.leafBytes (t.acc x.t) q (valid l)) else none
    let copies := (lanesOf x.en).map fun l => ({ tag := tag, va := x.src l f.a .ui64 64, src := src l, data := data l
                                                 team := team l, dst := off l, valid := valid l, size := n
                                                 pc := x.c.pc } : Copy)
    let noTime := (ps.any fun p => p.2.pa ≥ Config.hbmEnd) || t.onPage x.t.ctx x.c.g
    exec (.acp f) s = .next (x.done
      (copies.foldl (fun s c => s.modTeam c.team fun t => { t with inbound := t.inbound + 1 }) t.bump) fun g =>
        x.putS f.d (promiseOf tag noTime (Config.promiseWhen t.free))
          { g with
            count := modAt g.count tag fun k => k + copies.length
            ord := if g.countOf tag = 0 && !copies.isEmpty then modAt g.ord tag fun _ => x.s.cycle else g.ord
            flight := g.flight ++ copies })) ∧
  (∀ s f x, Runs s 0x93 f free x →
    let w : Option Nat := match f.fn with | 0 => some (f.x / 8) | 1 => x.g.oldestTag | _ => none
    exec (.acwait f) s = .next (if x.g.acDone w then x.done x.s id else x.waitIn x.s (.acwait w))) ∧
  UniRow .accnt 0x94 (fun f x => BitVec.ofNat 64 (x.g.countOf (f.x / 8)))

/-- R202, R203: RNGI writes a header of empty counts, unless its shape is out of range or an engine fills the ring; AWF takes the
oldest filled slot or waits, RLS gives the oldest back, although slots taken after it may still be held; a ring that is not
consistent is refused, and so is giving back what was not taken. -/
def Obligations.CopyRings : Prop :=
  (∀ s f x team off, Runs s 0x95 f free x →
    let b := x.ringShape f
    1 ≤ b.1 → b.1 ≤ 1024 → 1 ≤ b.2 → b.2 ≤ 2048 → x.scratchUni f.a % 128 = 0 →
    x.s.scratchAt x.t (x.scratchUni f.a) (64 + b.1 * 128 * b.2) = some (team, off) → x.s.filling team off = false →
    exec (.rngi f) s = .next (x.done
      (x.s.scratchWrite team off (leBytes 2 b.1 ++ leBytes 2 b.2 ++ List.replicate 60 0)) id)) ∧
  (∀ s f x, Runs s 0x95 f free x →
    let b := x.ringShape f
    let addr := x.scratchUni f.a
    let size := 64 + b.1 * 128 * b.2
    let ok := 1 ≤ b.1 ∧ b.1 ≤ 1024 ∧ 1 ≤ b.2 ∧ b.2 ≤ 2048
    (¬ok → exec (.rngi f) s = .next (x.fault x.s fltOperand)) ∧
    (ok → addr % 128 ≠ 0 → exec (.rngi f) s = .next (x.fault x.s fltAlign 0xFF addr)) ∧
    (ok → addr % 128 = 0 → x.s.scratchAt x.t addr size = none → exec (.rngi f) s = .next (x.fault x.s fltScratch 0xFF addr)) ∧
    (∀ team off, ok → addr % 128 = 0 → x.s.scratchAt x.t addr size = some (team, off) → x.s.filling team off = true →
      exec (.rngi f) s = .next (x.fault x.s fltRing))) ∧
  (∀ s f x team off, Runs s 0x96 f free x → x.scratchUni f.a % 128 = 0 →
    x.s.scratchAt x.t (x.scratchUni f.a) 64 = some (team, off) →
    let r := x.s.ringAt team off
    (r.consistent = false → exec (.awf f) s = .next (x.fault x.s fltRing)) ∧
    (r.consistent = true → r.ap ≠ r.wp → exec (.awf f) s = .next (x.done
      (x.s.scratchWrite team (off + 12) (leBytes 4 ((r.ap + 1) % 2 ^ 32)))
      (x.putS f.d (BitVec.ofNat 64 (x.scratchUni f.a + 64 + r.ap % r.nslot * 128 * r.slotu))))) ∧
    (r.consistent = true → r.ap = r.wp → exec (.awf f) s = .next (x.waitIn x.s (.awf (x.scratchUni f.a) f.d)))) ∧
  (∀ s f x team off t, Runs s 0x97 f free x → x.scratchUni f.a % 128 = 0 →
    x.s.scratchAt x.t (x.scratchUni f.a) 64 = some (team, off) →
    let r := x.s.ringAt team off
    (r.consistent = true → r.ap ≠ r.rp → Drains x false t → exec (.rls f) s = .next (x.done
      (t.scratchWrite team (off + 8) (leBytes 4 ((r.rp + 1) % 2 ^ 32))) id)) ∧
    (r.consistent = false ∨ r.ap = r.rp → exec (.rls f) s = .next (x.fault x.s fltRing)))

/-- R204, R205, R208: ENQ gives cards to a chain where its ring has room, moving TAIL and SEQ on, else answers 0; ENGST
answers an engine's word. -/
def Obligations.EngineQueues : Prop :=
  (∀ s f x l q t0 t, Runs s 0x98 f (fun _ => match f.b with | .imm i => 1 ≤ i.toNat && i.toNat ≤ 256 | _ => true) x →
    let n := match f.b with | .imm i => i.toNat | b => x.usrcB b .ui64 64
    let va := x.usrc f.a .ui64 64
    let ccb := x.one va 64 .rw true (some true)
    1 ≤ n → n ≤ 256 → x.t.slot = 0 → Passed x [ccb] [(ccb, l)] → DrainsLines x [(ccb, l)] t0 →
    t0.translate x.t.ctx (.lane x.c.g x.low) (ccbField (t0.leafBytes (t0.acc x.t) l 64) 0x28 8) .any = .ok q →
    DrainsAcked { x with s := t0 } (q.scope = 4) t →
    let b := t.leafBytes (t.acc x.t) l 64
    let room := execEnq.diff64 (ccbField b 0x10 8 + n) (ccbField b 0x18 8) ≤ ccbField b 0x08 4
    let seq := (ccbField b 0x20 8 + n) % 2 ^ 64
    (¬room → exec (.enq f) s = .next (x.done t (x.putS f.d 0))) ∧
    let u := t.store (t.acc x.t) l (located 0x10 (leBytes 8 ((ccbField b 0x10 8 + n) % 2 ^ 64)) ++ located 0x20 (leBytes 8 seq))
    let v := if Config.hostBase ≤ l.pa then u.dirtyHalves (halvesOf l.pa 64) else u
    (room → exec (.enq f) s = .next (x.touched (x.done (v.handCards x (BitVec.ofNat 64 va) (ccbField b 0x0C 2) n)
      (x.putS f.d (BitVec.ofNat 64 seq))) 0 [(ccb, l)] true))) ∧
  (∀ s f x, Runs s 0x99 f (fun _ => match f.b with | .imm i => engineNo i.toNat | _ => true) x →
    engineNo (x.srcBz x.low f.b .ui64 64) = true →
    UniResult x f.d (x.s.engineWord x.t.ctx x.t.at_.1 x.t.at_.2 (x.srcBz x.low f.b .ui64 64)) (exec (.engst f) s))

/-- R209, R213 to R215: ARB opens a region in each lane, ARC commits them lane by lane, ARA aborts them with its argument, and
without a region both fault; a commit writes the region's stores in their order, recomputed where a conflict was seen and every
constraint still holds, and nothing else; an abort puts the lane's registers and mask bits back and goes on at the fallback; ARST
reads how the last one ended. -/
def Obligations.AtomicRegions : Prop :=
  (∀ s f x u, Runs s 0xB0 f free x → inSpace (x.target f) = true → x.s.drainAll x.c.g false = .done u →
    let open_ := fun (g : Group) (i : Nat) (l : Lane) => if x.c.lanes.getLsbD i then
        { l with region := some (Region.opened (BitVec.ofInt 64 (x.target f)) (g.maskBits i) (field x.feat 1 1 = 0)) }
      else l
    exec (.arb f) s = .next (x.done u fun g => { g with lanes := g.lanes.mapIdx (open_ g) })) ∧
  (∀ s f x y t, RunsIn s 0xB1 f free x y → (∀ l ∈ lanesOf y.c.lanes, ((y.g.lane? l).bind Lane.region).isSome) →
    let sys := (lanesOf y.c.lanes).any fun l => match (y.g.lane? l).bind Lane.region with | some r => r.system | none => false
    (y.s.swapDeferred y.c.g none).drainAll y.c.g sys = .done t →
    (t.grp? y.c.g).bind Group.deferred = none →
    let u := t.swapDeferred y.c.g y.g.deferred
    let lines := (((lanesOf y.c.lanes).filterMap fun l => (y.g.lane? l).bind Lane.region).flatMap Region.lines).eraseDups
    (∀ n ∈ lines, u.ownerOf n = none) → u.coh.lacks (lines.flatMap fun n => halvesOf (128 * n) 128) true = [] →
    ((u.grp? y.c.g).map fun g => if sys then g.unacked else g.carried).getD 0 = 0 →
    (∀ l ∈ lanesOf y.c.lanes, ∀ r, (y.g.lane? l).bind Lane.region = some r →
      ∀ w ∈ r.sources.map (srcWant l) ++ r.stores.map (storeWant l), ∃ p, y.chk u w = .ok p) →
    exec (.arc f) s = .next (y.commitAll f u (lanesOf y.c.lanes))) ∧
  (∀ (x : Gx) f s lane r ls, x.leaves s (r.stores.map (storeWant lane)) = .ok ls →
    (∀ l ∈ ls, l.mxa = none ∧ (l.vers && (s.acc x.t).slot != 0) = false ∧ notifyPa l.pa = false) →
    (r.conflict = false → ∃ t, x.commit f s lane r = .ok t ∧ Committed r ls (r.sources.map RSource.value) s t) ∧
    (r.conflict = true → r.concrete = true → x.commit f s lane r = .error (0x02, 0, 0)) ∧
    (∀ qs, r.conflict = true → r.concrete = false → x.leaves s (r.sources.map (srcWant lane)) = .ok qs →
      let vals := (qs.zip r.sources).map fun p => leNat (s.readBytes x.t ((s.grp? x.c.g).getD x.g) p.1 p.2.width)
      let width := fun (q : RConstraint) => ((r.sources[q.k]?).map RSource.width).getD 4
      ((∀ q ∈ r.constraints, q.holds vals (width q) = true) →
        ∃ t, x.commit f s lane r = .ok t ∧ Committed r ls vals s t) ∧
      (∀ j, (r.constraints.findIdx? fun q => !q.holds vals (width q)) = some j →
        x.commit f s lane r = .error (0x01, j, 0)))) ∧
  (∀ (g : Group) lane l r code arg flt, lane < 32 → g.lane? lane = some l → l.region = some r →
    let h := g.abort lane code arg flt
    h.lane? lane = some { l with
      region := none, pc := r.fallback, wait := .none, arst := BitVec.ofNat 32 (code + 256 * arg + 65536 * flt) } ∧
    (∀ k, k ≠ lane → h.lane? k = g.lane? k) ∧
    (∀ pos k, k < 32 → h.vreg pos k =
      if k = lane then ((r.saved.reverse.find? fun p => p.1 == .v pos).map Prod.snd).getD (g.vreg pos k) else g.vreg pos k) ∧
    (∀ n k, n < 16 → k < 32 → (h.mreg n).getLsbD k = if k = lane then r.masks.getLsbD n else (g.mreg n).getLsbD k)) ∧
  (∀ s f x i, (lanesOf x.c.lanes).head? = some i →
    (Runs s 0xB1 f free x → exec (.arc f) s = .next (x.fault x.s fltRegion i)) ∧
    (Runs s 0xB2 f (fun _ => f.b.immOf.toNat < 256) x → exec (.ara f) s = .next (x.fault x.s fltRegion i))) ∧
  (∀ s f x y, RunsIn s 0xB2 f (fun _ => f.b.immOf.toNat < 256) x y →
    (∀ l ∈ lanesOf y.c.lanes, ((y.g.lane? l).bind Lane.region).isSome) →
    exec (.ara f) s = .next (y.s.modGrp y.c.g fun g =>
      (lanesOf y.c.lanes).foldl (fun g l => g.abort l 0x0D f.b.immOf.toNat 0) g)) ∧
  (∀ s f x, Runs s 0xB3 f free x →
    VecResult x f.d f.z .b32 (fun l => ((x.rd.lane? l).map fun y => y.arst.toNat).getD 0) (exec (.arst f) s))

/-- R216 to R225: matrix instructions issue tile operations, counted in ISS, or read and write rows of a tile whose
operations are complete; an MMA that finds rows latched uses them, and faults where they are of another type. MXQ's measured rate is a free
value of the model (log 13); that ACCST draws for its elements as it issues is the model's choice (log 19). -/
def Obligations.MatrixInstructions : Prop :=
  (∀ s f x n r, Runs s 0xA0 f
      (fun (x : Gx) => (FForm.mmaTile f) < x.t.kern.acc && x.octName f.a (if mmaScaled f.ty f.fn then 9 else 8)) x →
    let sb := x.usrc f.b.nameOf .ui64 64
    let b := { r with sbase := r.sbase % 2 ^ 32 }
    sb < 2 ^ 51 → x.s.handle x.t.ctx (sb % 2 ^ 32) = some (n, r) → mmaFmt f.ty f.fn r.fmt = true → r.rank = 2 → r.base < 2 ^ 32 →
    (∀ a ∈ mmaBytes f.ty b (sb / 2 ^ 32 % 2 ^ 16), x.s.scratchHas x.t a = true) → x.arrayFull (FForm.mmaTile f) = false →
    let a := match f.a with | .v i => i | _ => 0
    let issue := fun (rows : List (List Word)) => Host.Outcome.next (x.done
      (x.issueTile x.s (FForm.mmaTile f) (.mma f.ty f.fn rows b (sb / 2 ^ 32 % 2 ^ 16) (sb / 2 ^ 48 % 8))) fun g =>
        x.putS f.d (token (FForm.mmaTile f) ((x.t.tile (FForm.mmaTile f)).iss + 1))
          { g with latch := if FForm.mmaRa f then some { ty := f.ty, fn := f.fn, rows := rows } else none })
    (x.g.latch = none → exec (.mma f) s =
      issue ((List.range 32).map fun l => (List.range 9).map fun k => BitVec.ofNat 32 (x.rd.vsrc l (a + k) 32))) ∧
    (∀ l, x.g.latch = some l → exec (.mma f) s =
      if l.ty = f.ty ∧ l.fn = f.fn then issue l.rows else .next (x.fault x.s fltOperand))) ∧
  (∀ s f x, Runs s 0xA3 f free x → x.arrayFull (tileOf f.d) = false →
    exec (.accz f) s = .next (x.done (x.issueTile x.s (tileOf f.d) .zero) id)) ∧
  (∀ s f x n r ps t, Runs s 0xA1 f free x → x.s.handle x.t.ctx (x.usrc f.a .ui64 64 % 2 ^ 32) = some (n, r) →
    r.fmt = f.ty.code → r.rank = 2 → x.arrayFull (tileOf f.d) = false →
    Passed x (r.cells.map fun c => { x.one (r.addr [c.2, c.1]) f.ty.size .r with errOk := true }) ps → DrainsLines x ps t →
    exec (.accld f) s = .next (x.touched (x.done (x.issueTile t (tileOf f.d)
      (.load (t.tileLoad (t.acc x.t) ((r.cells.zip ps).map fun p => (256 * p.1.1 + p.1.2, p.2.2)))
        ((ps.find? fun p => t.poisoned p.2 4).map fun p => p.1.va))) id) 0 ps false)) ∧
  (∀ s f x n r ps t, Runs s 0xA2 f free x → x.s.handle x.t.ctx (x.usrc f.a .ui64 64 % 2 ^ 32) = some (n, r) →
    r.fmt = f.ty.code → r.rank = 2 → x.arrayFull (tileOf f.d) = false →
    Passed x (r.cells.map fun c => x.one (r.addr [c.2, c.1]) f.ty.size .w false (some true)) ps → DrainsLines x ps t →
    let cells := (r.cells.zip ps).map fun p => (256 * p.1.1 + p.1.2, p.2.2)
    let rng := if tileConverts f.ty then rngAt (x.mode f f.ty) x.g.rng cells.length else x.g.rng
    exec (.accst f) s = .next ((x.touched (x.done (x.issueTile t (tileOf f.d)
      (.store cells f.ty (x.mode f f.ty) (x.sat f f.ty) x.g.rng)) fun g => g.withRng rng) 0 ps true).seen
        (ps.flatMap fun p => p.2.lines p.1.size))) ∧
  (∀ s f x, Runs s 0xA4 f (fun x => rowImmOk f && x.octName f.d 8) x → x.tileRow f ≤ 255 →
    x.s.tileHeld x.c.g.team (tileOf f.a) = false →
    let t := x.t.tile (tileOf f.a)
    exec (.accrd f) s = .next (if seqReached 32 t.cmp.toNat t.iss.toNat then
        x.done x.s fun g => (lanesOf x.c.lanes).foldl (fun g l => g.accrd t f.d (x.tileRow f) l) g
      else x.waitIn x.s (.tile false (tileOf f.a) t.iss f.d (x.tileRow f) f.sp))) ∧
  (∀ s f x, Runs s 0xA5 f (fun x => rowImmOk f && x.octName f.a 8) x → x.tileRow f ≤ 255 →
    x.s.tileHeld x.c.g.team (tileOf f.d) = false →
    let t := x.t.tile (tileOf f.d)
    exec (.accwr f) s = .next (if seqReached 32 t.cmp.toNat t.iss.toNat then
        x.done (x.s.modTeam x.c.g.team fun t => t.modTile (tileOf f.d) fun c => c.accwr x.rd f.a (x.tileRow f)) id
      else x.waitIn x.s (.tile true (tileOf f.d) t.iss f.a (x.tileRow f) f.sp))) ∧
  UniRow .mtok 0xA6 (fun f x => BitVec.ofNat 64 (tileOf f.a * 2 ^ 32 + (x.t.tile (tileOf f.a)).cmp.toNat)) ∧
  (∀ s f x, Runs s 0xA7 f free x →
    let queued := ((x.s.arrayJobs x.t.at_.1 x.t.at_.2).filter fun j => match x.s.team? j.team with
      | some t => t.ctx == x.t.ctx
      | none => false).length
    let onArray := ∃ p ∈ x.s.chains, p.2.engine = 9 ∧ p.2.ctx = x.t.ctx ∧
      (∃ j, p.2.job = some j ∧ j.paused = false) ∧ ∃ t, p.2.bound.bind x.s.team? = some t ∧ t.at_ = x.t.at_ ∧
        ∃ a b, t.place = .core a b
    ∃ rate h, rate < 2 ^ 16 ∧ exec (.mxq f) s = .next (x.done x.s.bump fun _ => h) ∧
      (onArray → UniAfter x f.d (BitVec.ofNat 64 (rate * 2 ^ 48 + 2 ^ 16 + queued)) h) ∧
      (¬onArray → UniAfter x f.d (BitVec.ofNat 64 (rate * 2 ^ 48 + queued)) h))

/-- R232, R233, R235, R236: LGFA arms a window, LGFR reports a row of one, SAMP draws a token from a shortlist. -/
def Obligations.LogitFilter : Prop :=
  (∀ s f x slot r k temp ps, Runs s 0xB8 f free x → x.t.slot = 0 →
    x.s.handle x.t.ctx (x.usrc f.a .ui64 64 % 2 ^ 32) = some (slot, r) → x.lgfParams f = some (k, temp) →
    r.flags / 2 % 2 = 1 → r.fmt = f.ty.code → r.rank = 2 →
    Passed x ((r.windowPages ++ r.resultPages).map fun p => x.one (4096 * p) 0 .any false none) ps →
    (∀ p ∈ ps, p.2.pa < Config.hbmEnd) →
    let t := x.s.disarm x.t.ctx slot
    exec (.lgfa f) s = .next (x.done { t with lgfs := t.lgfs ++
      [{ ctx := x.t.ctx, slot := slot, rcd := r, k := k, temp := temp, rows := []
         pages := (ps.take r.windowPages.length).map fun p => (p.1.va / 4096, p.2.pa / 4096, p.2.mxa) }] } id)) ∧
  (∀ s f x slot r g t ps u, Runs s 0xB9 f free x →
    x.s.handle x.t.ctx (x.usrc f.a .ui64 64 % 2 ^ 32) = some (slot, r) → x.s.lgfOf x.t.ctx slot = some g →
    let row := x.srcBz x.low f.b .ui64 64
    row < r.dim 1 →
    x.s.drainLines x.c.g (g.pages.flatMap fun p => (List.range 32).map fun k => 32 * p.2.1 + k) 80 = .done t →
    (∀ h, t.lgfOf x.t.ctx slot = some h →
      let bs := h.result row
      Passed { x with s := t, s0 := t } ((List.range (bs.length / 8)).map fun (i : Nat) =>
        x.one (wrapInt 64 (r.sbase + 1024 * row + 8 * i)) 8 .w false none) ps →
      x.storeAll t 0 (ps.zipIdx.map fun p => (p.1.1, p.1.2, (bs.drop (8 * p.2)).take 8)) = some u →
      exec (.lgfr f) s = .next (x.done u (x.putS f.d (BitVec.ofNat 64 (h.combine row).count))))) ∧
  (∀ s f x hs ps, Runs s 0xBA f free x →
    let va := x.usrc f.a .ui64 64
    let want := fun (o : Nat) => x.one (wrapInt 64 (va + o)) 8 .r
    let word := fun (i : Nat) => match hs[i]? with | some p => x.loadNat x.s p.2 8 | none => 0
    va % 8 = 0 → Passed x ((List.range 8).map fun i => want (8 * i)) hs →
    Passed x ((List.range (word 0 / 2 ^ 32 % 2 ^ 16)).map fun i => want (64 + 8 * i)) ps →
    ∃ v, VecResult x f.d f.z f.ty (fun l => (sampOf (BitVec.ofNat 32 (word 1)) (ps.map fun p =>
        let e := x.loadNat x.s p.2 8
        (BitVec.ofNat 32 e, BitVec.ofNat 32 (e / 2 ^ 32))) (x.sampSeed f l)).toNat) (.next v) ∧
      exec (.samp f) s = .next (x.touched v 0 (hs ++ ps) false))

/-- R237 to R239: TOKS queues a message of its die, SEQQ reads the die's sequence table, PFXL and PFXI walk, extend and
release the prefix tree of the die. -/
def Obligations.ServingInstructions : Prop :=
  (∀ s f x ps t v, Runs s 0xBB f free x → x.t.slot = 0 → x.usrc f.a .ui64 64 % 64 = 0 →
    aget x.s.serving x.t.ctx = some v →
    Passed x ((List.range 8).map fun i => x.one (x.usrc f.a .ui64 64 + 8 * i) 8 .r) ps →
    let die := x.t.at_.1
    let bs := ps.flatMap fun p => x.loadBytes x.s p.2 8
    let head := leNat (bs.take 8)
    let dest := head / 256 % 8
    1 ≤ head % 256 → head % 256 ≤ 7 → head / 2 ^ 11 % 32 = 0 → head < 2 ^ 48 → dest / x.s.ringSize = die / x.s.ringSize →
    DrainsAcked x false t → (t.sending.filter fun m => m.src == die && m.ctx == x.t.ctx).length < 64 →
    exec (.toks f) s = .next (x.touched (x.done
      { t with sending := t.sending ++ [{ src := die, dest := dest, ctx := x.t.ctx, bytes := bs }] } id) 0 ps false)) ∧
  UniRow .seqq 0xBC (fun f x =>
    match x.s.seqAt x.t.at_.1 (x.srcBz x.low f.b .ui64 64 % 2 ^ 32) with
    | none => BitVec.allOnes 64
    | some e =>
      if e.ctx ≠ x.t.ctx then BitVec.allOnes 64
      else match f.fn with
        | 0 => BitVec.ofNat 64 e.pos | 1 => BitVec.ofNat 64 e.state.code | 2 => e.seed | _ => BitVec.ofNat 64 e.mark) ∧
  (∀ s f x v ps,
    let va := x.usrc f.a .ui64 64
    let n := x.srcBz x.low f.b .ui64 64
    let die := x.t.at_.1
    x.t.slot = 0 → aget x.s.serving x.t.ctx = some v → n ≤ 65536 →
    x.s.partWait x.t.ctx .part (treeWants v die) = none →
    Passed x ((List.range n).map fun (i : Nat) => x.one (wrapInt 64 (va + 4 * i)) 4 .r) ps →
    let blocks := blocksOf v.pt (x.tokens ps) (n / v.pt)
    let path := pathFrom (x.s.tree die x.t.ctx) 0 blocks
    (Runs s 0xBD f free x → va % 4 = 0 →
      exec (.pfxl f) s = .next (x.touched (x.done (path.foldl (fun s p => s.touchNode v die x.t.ctx p.id) x.s)
        (x.putS f.d (pfxWord (path.length * v.pt) ((path.getLast?.map PfxNode.id).getD 0)))) 0 ps false)) ∧
    (∀ qs, Runs s 0xBE f free x → n ≠ 0 → va % 4 = 0 →
      let base := (va + 4 * n + 7) / 8 * 8
      Passed x ((List.range (blocks.length - path.length)).map fun (i : Nat) =>
        x.one (wrapInt 64 (base + 8 * (path.length + i))) 8 .r) qs →
      let kv := fun (j : Nat) => match qs[j - path.length]? with | some p => BitVec.ofNat 64 (x.loadNat x.s p.2 8) | none => 0
      let r := x.s.insertBlocks v die x.t.ctx kv 0 0 blocks
      exec (.pfxi f) s =
        .next (x.touched (x.done r.2.2 (x.putS f.d (pfxWord (r.2.1 * v.pt) r.1))) 0 (ps ++ qs) false)) ∧
    (∀ m, Runs s 0xBE f free x → n = 0 → x.s.node? die x.t.ctx (va % 2 ^ 20) = some m → m.refs ≠ 0 →
      exec (.pfxi f) s = .next (x.done (x.s.releasePath v die x.t.ctx (m.depth / v.pt + 1) (va % 2 ^ 20)) (x.putS f.d 0))))

/-- R54 to R64, R240: MFS gives a system register, MTS writes one field by field. -/
def Obligations.SystemRegisters : Prop :=
  (∀ s f x, Runs s 0xC0 f (fun _ => sysOk f.b.immOf.toNat f.d) x →
    (f.b.immOf.toNat = 0 → VecResult x f.d f.z f.ty (fun l => l) (exec (.mfs f) s)) ∧
    (f.b.immOf.toNat = 0x10 → VecResult x f.d f.z f.ty (fun l => x.rd.wb l) (exec (.mfs f) s)) ∧
    (laneReg f.b.immOf.toNat = false → UniResult x f.d (x.sysReg f.b.immOf.toNat) (exec (.mfs f) s))) ∧
  (∀ s f x, Runs s 0xC1 f (fun _ => sysOk f.b.immOf.toNat f.a) x →
    let v := BitVec.ofNat 64 (x.usrc f.a .ui64 64)
    let after := fun (h : Group) => exec (.mts f) s = .next (x.done x.s fun _ => h)
    (f.b.immOf.toNat = 0x0C → after { x.g with pri := v.toNat % 16 }) ∧
    (f.b.immOf.toNat = 0x0D → after { x.g with cvm := cvmWrite x.g.cvm v }) ∧
    (f.b.immOf.toNat = 0x0E → after { x.g with rng := if v = 0 then 1 else v }) ∧
    (f.b.immOf.toNat = 0x0F → after { x.g with tvec := v &&& 0x003FFFFFFFFFFFFD#64 }) ∧
    (f.b.immOf.toNat = 0x12 → after { x.g with divw := x.g.divw && !v.getLsbD 0 }) ∧
    (f.b.immOf.toNat ∉ [0x0C, 0x0D, 0x0E, 0x0F, 0x12] → after x.g))

/-- R89, R241: TRAP and BKPT enter the trap with their code and resume after themselves; TRET returns the trapping lanes, and
faults outside a trap; UIRET returns from a user interrupt; both fault on a return address that is no multiple of 4, which a changed
record may hold (log 66). That a UIRET by some of the handler's lanes returns those alone is the model's choice (log 33). -/
def Obligations.Traps : Prop :=
  (∀ s f x, Runs s 0xC2 f (fun _ => f.b.immOf.toNat = 0x23 || f.b.immOf.toNat ≥ 0x100) x →
    x.g.silent = false → x.g.intrap = false → x.g.tvec.getLsbD 0 = true →
    exec (.trap f) s = .next (x.s.modGrp x.c.g fun g => g.entered x f.b.immOf.toNat)) ∧
  (∀ s f x, Runs s 0xC7 f free x → x.g.silent = false → x.g.intrap = false → x.g.tvec.getLsbD 0 = true →
    exec (.bkpt f) s = .next (x.s.modGrp x.c.g fun g => g.entered x 0x24)) ∧
  (∀ s f x, Runs s 0xC3 f free x →
    (x.g.intrap = true → x.g.oddPc x.g.trapping Lane.trapPc = true → exec (.tret f) s = .next (x.fault x.s fltAlign)) ∧
    (x.g.intrap = true → x.g.oddPc x.g.trapping Lane.trapPc = false →
      let back := fun (g : Group) (i : Nat) (l : Lane) =>
        if g.trapping.getLsbD i && !l.exited then { l with pc := l.trapPc, wait := .none } else l
      exec (.tret f) s = .next (x.s.modGrp x.c.g fun g =>
        { g with intrap := false, trapping := 0, lanes := g.lanes.mapIdx (back g) })) ∧
    (x.g.intrap = false → exec (.tret f) s = .next (x.fault x.s fltOperand))) ∧
  (∀ s f x, Runs s 0xC6 f free x →
    (x.c.lanes &&& x.g.uigang = x.c.lanes → x.g.oddPc x.c.lanes Lane.uiPc = true →
      exec (.uiret f) s = .next (x.fault x.s fltAlign)) ∧
    (x.c.lanes &&& x.g.uigang = x.c.lanes → x.g.oddPc x.c.lanes Lane.uiPc = false → exec (.uiret f) s = .next (x.jump x.s
      (fun i => ((x.g.lane? i).map Lane.uiPc).getD 0) fun g => { g with uigang := g.uigang &&& ~~~x.c.lanes })) ∧
    (x.c.lanes &&& x.g.uigang ≠ x.c.lanes → exec (.uiret f) s = .next (x.fault x.s fltOperand)))

/-- R49, R242: SPILL stores the lowest resident segment to its place in the spill area and lets it go, unless a lane's window still
uses it; FILL brings the one below back, where there is one and the group has room for it. -/
def Obligations.SpillAndFill : Prop :=
  (∀ s f x ps, Runs s 0xC4 f free x → x.usrc f.a .ui64 64 % 128 = 0 →
    (∀ l ∈ lanesOf x.g.live, 64 * (x.g.sbot + 1) ≤ x.g.wb l) → Passed x (x.segWants (x.usrc f.a .ui64 64) x.g.sbot .w) ps →
    StoreResult x 0 (ps.zipIdx.map fun p => (p.1.1, p.1.2, ((x.g.segment x.g.sbot).drop (128 * p.2)).take 128))
      (fun g => { g with sbot := g.sbot + 1, nseg := g.nseg - 1 }.dropV) (exec (.spill f) s)) ∧
  (∀ s f x, let va := x.usrc f.a .ui64 64
    (Runs s 0xC4 f free x →
      (va % 128 ≠ 0 → exec (.spill f) s = .next (x.fault x.s fltAlign 0xFF va)) ∧
      (va % 128 = 0 → (∃ l ∈ lanesOf x.g.live, x.g.wb l < 64 * (x.g.sbot + 1)) →
        exec (.spill f) s = .next (x.fault x.s fltOperand))) ∧
    (Runs s 0xC5 f free x →
      (va % 128 ≠ 0 → exec (.fill f) s = .next (x.fault x.s fltAlign 0xFF va)) ∧
      (va % 128 = 0 → x.g.sbot = 0 ∨ x.g.bseg + x.g.hseg ≤ x.g.nseg →
        exec (.fill f) s = .next (x.fault x.s fltOperand)))) ∧
  (∀ s f x ps, Runs s 0xC5 f free x → x.usrc f.a .ui64 64 % 128 = 0 → x.g.sbot ≠ 0 →
    x.g.nseg < x.g.bseg + x.g.hseg → Passed x (x.segWants (x.usrc f.a .ui64 64) (x.g.sbot - 1) .r) ps →
    let word := fun (p l : Nat) =>
      BitVec.ofNat 32 (leNat ((((ps.map fun q => x.loadBytes x.s q.2 128).getD p []).drop (4 * l)).take 4))
    exec (.fill f) s = .next (x.touched (x.done x.s fun g =>
      { g with sbot := x.g.sbot - 1, nseg := g.nseg + 1
               vregs := ssetAll g.vregs ((List.range 64).flatMap fun p => (List.range 32).map fun l =>
                 (32 * (64 * (x.g.sbot - 1) + p) + l, word p l)) }) 0 ps false))

/-- R89, R243: TLBI drops cached translations and waits for their users, CTXS writes the group's record, CTXR takes one, unless it
sends a lane to no multiple of 4, HALT stops the group after itself. The model's choices: the PCs that CTXS saves and HALT leaves
(log 25), which translations TLBI drops and waits for (logs 29, 34), a record that software has changed (log 66) and the buffered
stores of one (log 67). -/
def Obligations.PrivilegedInstructions : Prop :=
  (∀ s f x, Runs s 0xC8 f free x →
    let b := match f.b with | .imm i => i.toNat | b => x.usrcB b .ui64 64
    let drops : Nat → Ctx → Bool := fun n c => match f.fn with
      | 0 => n = x.t.ctx || (match x.s.ctx? x.t.ctx with | some d => c.pasid = d.pasid | none => false)
      | 1 => c.pasid = b | _ => true
    (f.fn = 1 → b < 2 ^ 20) → (∀ p ∈ x.s.ctxs, drops p.1 p.2 = true → x.s.translating p.1 = false) →
    let keep := fun (p : Nat × Ctx) => if drops p.1 p.2 then
        (p.1, { p.2 with ats := p.2.ats.filter fun a => f.fn = 0 && a.page != x.usrc f.a .ui64 64 / 4096 })
      else p
    exec (.tlbi f) s = .next (x.done { x.s with ctxs := x.s.ctxs.map keep } id)) ∧
  (∀ s f x ps t g, Runs s 0xC9 f free x → x.g.live = x.c.lanes → x.usrc f.a .ui64 64 % 4096 = 0 →
    Passed x (x.areaWants (x.usrc f.a .ui64 64) (65536 + 8192 * x.g.nseg) .w) ps → DrainsLines x ps t →
    t.grp? x.c.g = some g → g.wcbuf = [] →
    let bytes := g.record x.t.kern x.s.core false fun i l => if x.c.lanes.getLsbD i then x.next else l.pc
    exec (.ctxs f) s = .next (x.done (x.wroteAll (t.storeNow (t.acc x.t)
      (ps.zipIdx.map fun p => (p.1.2, (bytes.drop (8 * p.2)).take 8))) 0 ps) id)) ∧
  (∀ s f x hs ps t, Runs s 0xCA f free x → x.g.live = x.c.lanes → x.usrc f.a .ui64 64 % 4096 = 0 →
    Passed x (x.areaWants (x.usrc f.a .ui64 64) 64 .r) hs →
    let head := hs.flatMap fun p => x.loadBytes x.s p.2 8
    let rh := fun (o n : Nat) => leNat ((head.drop o).take n)
    let y := { x with s := t, g := (t.grp? x.c.g).getD x.g }
    let bs := ps.flatMap fun p => y.loadBytes t p.2 8
    let paOf := fun (a : Nat) => match t.translate x.t.ctx (.lane x.c.g x.low) a .any with | .ok l => some (l.pa / 128) | _ => none
    let rd := fun (o n : Nat) => leNat ((bs.drop o).take n)
    recordFits x.t.kern rh = true → Drains x true t →
    Passed y (x.areaWants (x.usrc f.a .ui64 64) (65536 + 8192 * (rh 0 8 / 2 ^ 48 % 16)) .r) ps →
    exec (.ctxr f) s = .next (if oddRecord rd = true then y.fault t fltAlign
      else t.modGrp x.c.g fun g => g.ofRecord x.t.kern rd paOf)) ∧
  (∀ s f x, Runs s 0xCB f free x →
    exec (.halt f) s = .next ((x.done x.s id).stopGroup x.c.g 0 0 0xFF x.c.pc.toNat 0 .halted))

/-- R83 to R86, R244: SHDEF places a record in a free slot and answers its handle, SHREL frees a slot under a new
generation, SHID describes one. -/
def Obligations.ShapeRecords : Prop :=
  (∀ s f x ps, Runs s 0xCD f free x → x.t.slot = 0 → x.usrc f.a .ui64 64 % 128 = 0 →
    Passed x ((List.range 16).map fun k => x.one (x.usrc f.a .ui64 64 + 8 * k) 8 .r) ps →
    let bs := ps.flatMap fun p => x.loadBytes x.s p.2 8
    let r := ShapeRec.ofBytes bs
    r.valid (bs.take 12 ++ leBytes 2 (leNat ((bs.drop 12).take 2) / 2 ^ 12 * 2 ^ 12) ++ bs.drop 14) = true →
    r.featureOff x.feat = false →
    ((x.s.ctx? x.t.ctx).bind Ctx.freeSlot = none → UniResult x f.d 0 (exec (.shdef f) s)) ∧
    (∀ c n, x.s.ctx? x.t.ctx = some c → c.freeSlot = some n →
      let fin := fun (t : State) => x.touched (x.done (t.place x.t.ctx n bs) (x.putS f.d (handleOf (c.slot n).gen n))) 0 ps false
      (r.flags % 2 = 0 → exec (.shdef f) s = .next (fin x.s)) ∧
      (∀ qs, r.flags % 2 = 1 → Passed x (r.extent.map fun n => x.one (128 * n) 0 .r false none) qs →
        let lines := (qs.flatMap fun p => p.2.lines 128).eraseDups
        x.s.overlaps x.t.ctx n lines = false → x.Recalled lines →
        exec (.shdef f) s = .next (fin (x.moved.modSlot x.t.ctx n fun q => { q with decl := lines }))))) ∧
  (∀ s f x n c, Runs s 0xCE f free x → x.t.slot = 0 → x.s.handleSlot x.t.ctx (x.usrc f.a .ui64 64 % 2 ^ 32) = some n →
    x.s.ctx? x.t.ctx = some c → x.Recalled (c.slot n).decl →
    let t := if (c.slot n).decl = [] then x.s else x.moved.modSlot x.t.ctx n fun q => { q with decl := [] }
    exec (.shrel f) s = .next (x.done ((t.disarm x.t.ctx n).modSlot x.t.ctx n fun q =>
      { q with used := false, gen := if q.gen ≥ 4095 then 1 else q.gen + 1 }) id)) ∧
  (∀ s f x n r, Runs s 0xCC f free x → x.s.handle x.t.ctx (x.usrc f.a .ui64 64 % 2 ^ 32) = some (n, r) →
    UniResult x f.d (BitVec.ofNat 64
      ((if x.s.declared x.t.ctx n then 2 ^ 24 else 0) + r.flags * 2 ^ 16 + r.rank * 2 ^ 8 + r.fmt)) (exec (.shid f) s))

/-- R245, R246, R276, R335: OCTL declares, undeclares, flushes and queries an object, a declaration going on once its lines are recalled; VERQ answers the team's slot and the
queue's free version-store space. -/
def Obligations.CoherenceObjects : Prop :=
  (∀ s f x n r, x.t.slot = 0 → x.s.handle x.t.ctx (x.usrc f.a .ui64 64 % 2 ^ 32) = some (n, r) →
    (∀ ps, Runs s 0xCF f (octlD f) x →
      Passed x (r.extent.map fun n => x.one (128 * n) 0 .r false none) ps →
      let lines := (ps.flatMap fun p => p.2.lines 128).eraseDups
      (x.s.declared x.t.ctx n = true → exec (.octlDecl f) s = .next (x.done x.s id)) ∧
      (x.s.declared x.t.ctx n = false → x.s.overlaps x.t.ctx n lines = false → x.Recalled lines →
        exec (.octlDecl f) s = .next (x.done (x.moved.modSlot x.t.ctx n fun q => { q with decl := lines }) id))) ∧
    (∀ ps c, x.s.ctx? x.t.ctx = some c → Passed x (r.extent.map fun n => x.one (128 * n) 0 .r false none) ps →
      let lines := if (c.slot n).decl = [] then (ps.flatMap fun p => p.2.lines 128).eraseDups else (c.slot n).decl
      (∀ u, Runs s 0xCF f (octlD f) x → (∀ m ∈ lines, x.s.ownerOf m = none) → x.s.drainLines x.c.g lines 200 = .done u →
        (∀ h ∈ (lines.foldl State.dropLine u).coh.held, h.line ∉ lines) →
        exec (.octlFlush f) s = .next (x.done (lines.foldl State.dropLine u) id)) ∧
      (Runs s 0xCF f free x →
        let hs := x.s.coh.held.filter fun h => lines.contains h.line && !hostLine h.line
        UniResult x f.d (BitVec.ofNat 64 ((hs.map Held.line).eraseDups.length * 2 ^ 32 +
          ((hs.map Held.sid).filter fun i => i % 128 < 48).eraseDups.length % 2 ^ 16 * 2 ^ 16 +
          (if (c.slot n).decl = [] then 0 else 1))) (exec (.octlQuery f) s))) ∧
    (∀ c, Runs s 0xCF f (octlD f) x → x.s.ctx? x.t.ctx = some c →
      ((c.slot n).decl = [] → exec (.octlUndecl f) s = .next (x.done x.s id)) ∧
      ((c.slot n).decl ≠ [] → x.Recalled (c.slot n).decl →
        exec (.octlUndecl f) s = .next (x.done (x.moved.modSlot x.t.ctx n fun q => { q with decl := [] }) id)))) ∧
  (∀ s f x, Runs s 0xD0 f free x →
    (x.srcBz x.low f.b .ui64 64 = 0 → UniResult x f.d (BitVec.ofNat 64 x.t.slot) (exec (.verq f) s)) ∧
    (∀ l, x.srcBz x.low f.b .ui64 64 = 1 → aget x.s.launches x.t.launch = some l →
      UniResult x f.d (BitVec.ofNat 64 (x.s.queueFree l.thread)) (exec (.verq f) s)))

/-- R30, R182 to R184, R197, R199, R203: a waiting lane goes on, past its instruction of eight bytes, when what it waits
for holds; a promise that the part missed is a trap; a sleeping gang is looked at while it may issue. That a JOIN waits for what
its own mask names, where masks differ, is the model's choice (log 57). -/
def Obligations.WaitsEnd : Prop :=
  ∀ s r t g, s.team? r.team = some t → t.groups[r.grp]? = some g →
    (∀ lane, g.joined lane = true → exec (.joinComplete r lane) s = .next (s.modGrp r fun g => g.joinGo lane)) ∧
    (∀ n, t.arrived false n = true → (t.groups.any fun g => g.at_ false n) = true → n ≠ 15 →
      exec (.barrierComplete r.team false n) s = .next (s.modTeam r.team fun t => t.passBarrier false n)) ∧
    (∀ n, (∀ p ∈ s.cluster t, p.2.arrived true n = true) →
      (∃ p ∈ s.cluster t, (p.2.groups.any fun g => g.at_ true n) = true) →
      exec (.barrierComplete r.team true n) s =
        .next ((s.cluster t).foldl (fun s p => s.modTeam p.1 fun t => t.passBarrier true n) s)) ∧
    (∀ lane addr wide value l, g.waitOf lane = .seq addr wide value →
      let n := if wide then 8 else 4
      s.reach t.ctx (.lane r lane) addr.toNat .r n = .ok l →
      g.unresolved = 0 → (∀ k ∈ l.lines n, s.ownerOf k = none ∧ s.marked (some t.clusterSid) k = false) →
      s.poisoned l n = false → s.coh.lacks (halvesOf l.pa n) false = [] →
      seqReached (8 * n) (leNat (s.readBytes t g l n)) value.toNat = true →
      exec (.waitseqSatisfied r lane) s = .next (s.modGrp r fun g => g.pass (BitVec.ofNat 32 (2 ^ lane)))) ∧
    (∀ lane wake, g.waitOf lane = .sleep wake none → g.barred (g.waiters lane) = false → s.stepTurn t g (g.waiters lane) = true → wake ≤ s.cycle →
      exec (.sleepWake r lane) s = .next (s.modGrp r fun g => g.pass (g.waiters lane))) ∧
    (∀ lane wake tag, g.waitOf lane = .sleep wake (some tag) → g.barred (g.waiters lane) = false → s.stepTurn t g (g.waiters lane) = true →
      wake ≤ s.cycle % 2 ^ 60 → g.countOf tag = 0 →
      exec (.sleepWake r lane) s = .next (s.modGrp r fun g => g.pass (g.waiters lane))) ∧
    (∀ lane wake tag l, g.waitOf lane = .sleep wake (some tag) → g.barred (g.waiters lane) = false → s.stepTurn t g (g.waiters lane) = true →
      wake ≤ s.cycle % 2 ^ 60 → g.countOf tag ≠ 0 →
      g.lane? lane = some l → exec (.sleepWake r lane) s = .next ((s.modGrp r fun g => g.pass (g.waiters lane)).takeTrap r
        (g.waiters lane) trpPromise 0 (l.pc + 8).toNat fun _ => l.pc + 8)) ∧
    (∀ lane addr phase sp p, g.waitOf lane = .bobj addr phase sp → s.scratchAt t addr 8 = some p →
      s.scratchNat p.1 p.2 8 / 2 ^ 32 ≠ phase.toNat →
      exec (.bobjWaitPass r lane) s = .next (s.modGrp r fun g => g.pass (g.waiters lane))) ∧
    (∀ lane w, g.waitOf lane = .acwait w → g.acDone w = true →
      exec (.acwaitProceed r lane) s = .next (s.modGrp r fun g => g.pass (g.waiters lane))) ∧
    (∀ lane ring n p v u, g.waitOf lane = .awf ring (.s n) → s.scratchAt t ring 64 = some p →
      (s.ringAt p.1 p.2).consistent = true → s.takeSlot p.1 p.2 ring = some (v, u) →
      exec (.awfSlotTaken r lane) s = .next (u.modGrp r fun h =>
        (h.setS h.diverged (g.waiters lane) n (BitVec.ofNat 64 v)).pass (g.waiters lane)))

/-- R33, R34, R181, R198, R216, R265, R266, R366: a group ages 64 core cycles after its last issue, its paused lanes go on, a
copy lands, a buffered store drains and is acknowledged, in the saved record too where its team is saved, a user interrupt reaches a waiting gang, a tile operation completes
and counts CMP up, and a group with nothing outstanding ends. The model's choices: a group that has not issued ages from its start (log 22),
and a copy reads its source as it lands (log 40). -/
def Obligations.GroupEvents : Prop :=
  ∀ s r t g, s.team? r.team = some t → t.groups[r.grp]? = some g →
    (g.ready ≠ 0 → g.lastIss + 64 ≤ s.core →
      exec (.groupAged r) s = .next (s.modGrp r fun g => { g with aged := true })) ∧
    (exec (.pauseExpiry r) s = .next (s.modGrp r fun g =>
      { g with lanes := g.lanes.map fun l => { l with paused := if l.paused ≤ s.core then 0 else l.paused } })) ∧
    (∀ k c bs, g.flight[k]? = some c → s.copySource t c = some bs →
      (∀ l, c.data = none → c.src = some l → s.coh.lacks (halvesOf l.pa c.valid) false = [] ∧
        (l.lines c.valid).any s.lineFenced = false ∧ s.poisoned l c.valid = false) →
      exec (.copyLand r k) s = .next
        (((s.scratchWrite c.team c.dst (bs ++ List.replicate (c.size - bs.length) 0)).modTeam c.team fun t =>
          { t with inbound := t.inbound - 1 }).modGrp r fun g =>
            { g with flight := dropAt g.flight k, count := modAt g.count c.tag fun n => n - 1 })) ∧
    (∀ k combining e u die core, (if combining then g.wcbuf else g.stbuf)[k]? = some e → t.place = .core die core →
      (∀ d ∈ (if combining then g.stbuf else []) ++ (if combining then g.wcbuf else g.stbuf).take k, d.meets e = false) →
      s.drainEntry r combining k = .done u → exec (.storeDrain r k combining) s = .next u) ∧
    (g.unacked ≠ 0 →
      let u := s.modGrp r fun g => { g with unacked := g.unacked - 1, carried := g.carried - 1 }
      let v := { u with coh := u.coh.acked r }
      (s.savedField r 0x38 = none → exec (.storeAck r) s = .next v) ∧
      (∀ a, s.savedField r 0x38 = some a →
        exec (.storeAck r) s = .next (v.writeBytes (located a (leBytes 2 (s.natAt a 2 - 1)))))) ∧
    (∀ k j y, s.tileJobs[k]? = some j → (∀ i ∈ s.tileJobs.take k, i.team ≠ j.team ∨ i.tile ≠ j.tile) →
      s.team? j.team = some y → j.op.lacks s.coh = [] → s.tileRoom y j.op = true → j.op.bad = none →
      let u := s.runTile j y
      exec (.tileOpComplete k) s = .next ({ u with tileJobs := dropAt u.tileJobs k }.modTeam j.team fun t =>
        (t.modTile j.tile fun (c : Tile) => { c with cmp := c.cmp + 1 }).tileGo j.tile)) ∧
    (g.finished = true → (∃ p ∈ t.groups.zipIdx, p.2 ≠ r.grp ∧ p.1.ended = false) →
      exec (.groupEnd r) s = .next (s.modGrp r fun g => { g with ended := true, vregs := [], nseg := 0 })) ∧
    (g.finished = true → (∀ p ∈ t.groups.zipIdx, p.2 = r.grp ∨ p.1.ended = true) → s.arrayBusy r.team = false →
      exec (.groupEnd r) s =
        .next ((s.modGrp r fun g => { g with ended := true, vregs := [], nseg := 0 }).endTeam r.team)) ∧
    (∀ lane v, (g.waitOf lane).interruptible = true → s.deliverable r (g.waiters lane) = some v →
      let dest := fun (i : Nat) (l : Lane) =>
        if (g.waiters lane).getLsbD i then { l with uiPc := l.pc, pc := v, wait := .none } else l
      exec (.uiDelivery r lane) s = .next (s.modGrp r fun g =>
        { g with uip := false, uigang := (g.waiters lane), lanes := g.lanes.mapIdx dest }))

/-- R265, R266: the drain of a buffered store to plain device memory writes its bytes where the store's address translates
to, leaves every other byte of memory as it was, and waits for its acknowledgement. -/
def Obligations.StoreDrainWritesItsBytes : Prop :=
  ∀ s r t g k e l u die core, s.team? r.team = some t → t.groups[r.grp]? = some g → g.stbuf[k]? = some e →
    t.place = .core die core → (∀ d ∈ g.stbuf.take k, d.meets e = false) →
    s.translate t.ctx (.drain r) e.va .w = .ok l → l.mxa = none → l.vers = false → l.nvio = false →
    e.va % 128 ≤ l.pa → l.pa + 256 < Config.hbmEnd → (∀ b ∈ e.bytes, b.1 < 128) → (e.bytes.map Prod.fst).Nodup →
    s.ownerOf (l.pa / 128) = none → s.lgfs = [] → exec (.storeDrain r k false) s = .next u →
    (∀ b ∈ e.bytes, u.byteAt (l.pa - e.va % 128 + b.1) = b.2) ∧
    (∀ pa, (∀ b ∈ e.bytes, pa ≠ l.pa - e.va % 128 + b.1) → u.byteAt pa = s.byteAt pa) ∧
    ∃ h, u.grp? r = some h ∧ h.stbuf = dropAt g.stbuf k ∧ h.unacked = g.unacked + 1

/-- R18, R19, R37, R38, R45, R290, R291, R295, R368: the dispatcher admits, swaps, saves and retires teams. Where a saved team's
record goes, and what it holds of a budget that CTXR changed, are the model's readings (logs 46, 69). -/
def Obligations.TeamEvents : Prop :=
  (∀ s n l die core, aget s.launches n = some l → s.admits l.ctx = true → s.hazardous l = false → rectOk l.kern core = true →
    (∀ c ∈ rectCores l.kern core, s.coreFits l.kern die c = true) → l.next < l.total →
    (s.fuseRect die core l.kern.rows l.kern.cols).coh.fusedAs die core l.kern.rows l.kern.cols = true →
    let cs := rectCores l.kern core
    let put := fun (s : State) (i : Nat) => { s with
      fresh := s.fresh + 1
      teams := aset s.teams s.fresh (Team.start n l (l.next + i) i die (cs.getD i core) s.core) }
    let u := (List.range cs.length).foldl put (s.fuseRect die core l.kern.rows l.kern.cols)
    exec (.teamAdmit n die core) s =
      .next { u with launches := amod u.launches n fun l => { l with next := l.next + cs.length } }) ∧
  (∀ s die core, bits64 (s.reg 0x7F0100 0x10000) 0 32 ≠ 0 →
    (∀ p ∈ s.teams, p.2.place = .core die core → p.2.endedAt = none →
      ∀ g ∈ p.2.groups, g.lastIss + bits64 (s.reg 0x7F0100 0x10000) 0 32 ≤ s.core) → s.teamsWait = true →
    ∀ n t, s.teams.filter (fun p => p.2.place == .core die core && p.2.endedAt.isNone) = [(n, t)] →
      (∀ q ∈ s.cluster t, q.2.blockedSince.isSome = true) →
      s.poolFits t.ctx ((s.cluster t).map fun q => q.2.kern.teamSize) = true → (∀ g ∈ t.groups, g.yreq = false) →
      exec (.forwardProgressSwap die core) s = .next (s.askYield t)) ∧
  (∀ s ctx n t g i, s.teams.filter (fun p => p.2.ctx == ctx && (match p.2.place with | .core _ _ => true | _ => false)) = [(n, t)] →
    t.groups = [g] → g.yreq = true → g.yielded = false → g.yreqAt + 2 ^ 20 ≤ s.core →
    ((List.range 32).find? fun i => match g.lane? i with | some l => !l.exited && !l.stopped | none => false) = some i →
    ∀ l, g.lane? i = some l → exec (.safepointTimeout ctx) s =
      .next (s.stopGroup { team := n, grp := 0 } fltSafepoint 0 i l.pc.toNat 0 .timeout)) ∧
  (∀ s n t d k, s.team? n = some t → t.place = .draining d k → t.inbound = 0 →
    exec (.scratchDrained n) s = .next (s.modTeam n fun t => { t with place := .zeroing d k })) ∧
  (∀ s n t d k, s.team? n = some t → t.place = .zeroing d k → t.inbound = 0 → (∀ g ∈ t.groups, g.flight = []) →
    (∀ z ∈ s.zones, z.team ≠ n) → exec (.scratchZeroed n) s = .next { s with teams := adel s.teams n }) ∧
  (∀ s n k, s.zones.findIdx? (fun z => z.team == n) = some k →
    exec (.scratchZeroed n) s = .next { s with zones := dropAt s.zones k }) ∧
  (∀ s n t d k e, s.team? n = some t → t.place = .draining d k → t.endedAt = some e → e + 64000 ≤ s.cycle → t.inbound ≠ 0 →
    ∃ u, exec (.scratchDrainTimeout n) s = .next u ∧ u.mem = s.mem ∧ (u.team? n).map Team.inbound = some 0 ∧
      (∀ q ∈ u.teams, ∀ g ∈ q.2.groups, ∀ c ∈ g.flight, c.team ≠ n) ∧
      (∀ q ∈ u.chains, ∀ j, q.2.job = some j → n ∉ j.aimed)) ∧
  (∀ s n t, s.team? n = some t → (∀ p ∈ s.cluster t, s.saveReady p.1 p.2 = true) →
    ∀ u places x, (s.cluster t).foldl (fun (d : Drain) p => match d with
        | .done u => u.drainForSave p.1 p.2.groups.length
        | .wait u => .wait u) (.done s) = .done u →
      u.poolFor t = some places → s.ctx? t.ctx = some x → x.state = .preempting →
      exec (.teamSave n) s = .next ((places.foldl (fun s p => s.writeRecord p.1 p.2) u).settleSave t.ctx))

/-- R344, R352, R353: a completion caches the translation, a page response that succeeds asks for it again once fewer than 1,024
requests are outstanding, an invalidation drops it at once and completes when no access uses it. -/
def Obligations.TranslationEvents : Prop :=
  (∀ s : State, (∀ p ∈ s.ctxs, ∀ q ∈ p.2.reqs, q.sent = true) → s.sendAgain = s) ∧
  (∀ s : State, 1024 ≤ s.outstanding false → s.sendAgain = s) ∧
  (∀ (s : State) c x k q, s.outstanding false < 1024 → s.ctxs = [(c, x)] → x.reqs[k]? = some q → q.sent = false →
    (∀ p ∈ x.reqs.take k, p.sent = true) →
    s.sendAgain = ({ s with ctxs := [(c, { x with reqs := modAt x.reqs k fun q => { q with sent := true } })] }).emit (.ats c q.page)) ∧
  ∀ s c x page, s.ctx? c = some x →
    (∀ host r w k q, x.reqs.findIdx? (fun q => !q.pri && q.page == page && q.sent) = some k → x.reqs[k]? = some q →
      (∀ a ∈ q.waiters, (if a.2 then w else r) = true) →
      exec (.atsTranslationCompletion c page host r w) s =
        .next (s.modCtx c fun x => { x with reqs := dropAt x.reqs k, ats := cacheAts x.ats page host r w }).sendAgain) ∧
    (∀ write k q, x.reqs.findIdx? (fun q => q.pri && q.page == page && q.write == write) = some k → x.reqs[k]? = some q →
      exec (.priResponse c page write true) s = .next (((s.modCtx c fun x => { x with reqs := dropAt x.reqs k }).modCtx c fun x =>
        { x with reqs := x.reqs ++
            [{ page := page, write := false, pri := false, again := true, waiters := q.waiters, sent := false }] }).sendAgain) ∧
      exec (.priResponse c page write false) s =
        .next ((s.modCtx c fun x => { x with reqs := dropAt x.reqs k }).deny c page fltNotPresent q.waiters)) ∧
    ((s.ctxs.map fun p => p.2.inval.length).sum < 32 → exec (.atsInvalidate c page) s = .next (s.modCtx c fun x =>
      { x with ats := x.ats.filter (fun a => a.page != page)
               inval := if x.inval.contains page then x.inval else x.inval ++ [page] })) ∧
    (page ∈ x.inval → s.pageInUse c page = false → exec (.invalidationComplete c page) s =
      .next ((s.modCtx c fun x => { x with inval := x.inval.filter (· != page) }).emit (.invalDone c page)))

/-- R276, R278, R280 to R284: a home serves the first request of a line by recalling the sharers that stand in its way, or
frees its oldest entry first where it has none left; an acknowledgement sets or holds a count, a notice counts a line out and
resolves the hold that waited for it, a sharer answers a recall, a grant fills a line. Which line a fill evicts where its set is
full is the model's order (log 45), and so is whether a recalled
holder keeps a shared copy (log 60). -/
def Obligations.CoherenceEvents : Prop :=
  (∀ e ∈ ([(.read, .sharedReadRequest, id), (.own, .ownershipRequest, id), (.atHome, .writeAtHome, State.land),
      (.move, .writeAtHome, State.land)] : List (ReqKind × (Nat → Instr) × (State → State))),
    ∀ s k q, s.coh.reqs[k]? = some q → q.kind = e.1 → q.served = false → s.coh.firstOf k q = true → s.movingNow q.line = false →
    (q.kind = .read → s.marked (some q.sid) q.line = false) →
    (s.coh.part? (homeOf q.line) (s.objOf q.line) = none →
      (q.kind = .atHome ∨ q.kind = .move ∨ s.coh.full (homeOf q.line) = false) →
      exec (e.2.1 k) s =
        .next (e.2.2 { s with coh := { s.coh with reqs := modAt s.coh.reqs k fun r => { r with served := true } } }.settle)) ∧
    (∀ p, s.coh.part? (homeOf q.line) (s.objOf q.line) = none → (q.kind = .read ∨ q.kind = .own) →
      s.coh.full (homeOf q.line) = true → (∀ y ∈ s.coh.parts, y.home = homeOf q.line → y.evicting = false) →
      s.coh.oldest (homeOf q.line) = some p → exec (e.2.1 k) s = .next (e.2.2 (s.evictPart p))) ∧
    (∀ p, s.coh.part? (homeOf q.line) (s.objOf q.line) = some p → p.evicting = false →
      let c := (p.targets q).foldl (fun c sid => c.recall sid q.line (s.objOf q.line) (q.kind == .read)) s.coh
      let used := fun (x : OctPart) => if x.is (homeOf q.line) (s.objOf q.line) then { x with used := c.next } else x
      exec (e.2.1 k) s = .next (e.2.2 { s with coh := { c with
        reqs := modAt c.reqs k fun r => { r with served := true, pend := p.targets q }
        parts := c.parts.map used } }.settle))) ∧
  (∀ s k a, s.coh.acks[k]? = some a → (∀ p ∈ s.coh.parts, p.bcast = false) →
    let taken := (aget s.coh.taken (8 * a.sid + homeOf a.line)).getD 0
    let count := a.carried + a.granted
    let c := { s.coh with acks := dropAt s.coh.acks k }
    let after := fun (f : Sharer → Sharer) =>
      let d := c.modPart (homeOf a.line) a.obj fun p => p.modSharer a.sid f
      let answered := fun (q : CohReq) =>
        if q.line == a.line && q.served then { q with pend := q.pend.filter (· != a.sid) } else q
      { s with coh := { d with reqs := d.reqs.map answered } }.settle.land
    (a.a = taken → exec (.onAck k) s = .next (after fun r => { r with count := count, hold := none })) ∧
    (a.a ≠ taken →
      (s.coh.parts.filter fun p => p.home == homeOf a.line && p.sharers.any fun r => r.sid == a.sid && r.hold.isSome).length < 64 →
      exec (.onAck k) s = .next (after fun r => { r with hold := some (count, a.a) }))) ∧
  (∀ s k n, s.coh.notices[k]? = some n → (∀ m ∈ s.coh.notices.take k, m.sid ≠ n.sid ∨ homeOf m.line ≠ homeOf n.line) →
    s.coh.leaving = [] → ∃ u, exec (.onNotice k) s = .next u ∧ u.mem = s.mem ∧ u.coh.notices = dropAt s.coh.notices k ∧
      aget u.coh.taken (8 * n.sid + homeOf n.line) = some n.n ∧
      ∀ p r, s.coh.parts.filter (fun p => p.is (homeOf n.line) n.obj) = [p] → p.sharers.filter (fun r => r.sid == n.sid) = [r] →
        (r.hold = none → 0 < r.count) →
        let r' := match r.hold with
          | none => { r with count := r.count - 1 }
          | some (h, a) => if a = n.n then { r with count := h, hold := none } else r
        u.coh.recordAt (homeOf n.line) n.obj n.sid = if r'.count = 0 ∧ r'.hold = none then none else some r') ∧
  (∀ s k r, s.coh.recalls[k]? = some r → s.coh.inOrder r.n r.sid r.line = true → s.mustWrite r.sid r.line = false →
    s.markedIn r.sid r.line = false →
    ∃ u a, exec (.recallLine k) s = .next u ∧ u.mem = s.mem ∧ u.coh.recalls = dropAt s.coh.recalls k ∧
      u.coh.acks = s.coh.acks ++ [a] ∧ a.sid = r.sid ∧ a.line = r.line ∧ a.obj = r.obj ∧ a.granted = r.granted ∧
      (r.share = false → ∀ h ∈ u.coh.held, ¬(h.sid = r.sid ∧ h.line = r.line))) ∧
  (∀ s k g, s.coh.grants[k]? = some g → s.coh.inOrder g.n g.sid g.line = true → s.coh.held? g.sid g.line = none →
    g.sid ≠ sidHost → s.fillOk g.sid g.line = true →
    let u := { s with coh := { s.coh with grants := dropAt s.coh.grants k } }.fill g.sid g.line g.st g.rd
    exec (.grant k) s = .next (if g.st = 0 then u else u.gained g.sid g.line))

/-- R293, R294, R372, R373, R376: a snoop is answered from the state the part holds the half in; a completion of the part's
own request gives the half and its bytes; the host's read or write of a half inside its range goes to the line's home, which
sends it what it grants. That an access outside the range reaches nothing is the model's reading (log 59). -/
def Obligations.HostLink : Prop :=
  (∀ s half,
    let st := (aget s.coh.halves half).getD 0
    let now := fun (n : Nat) =>
      { s with coh := if n = 0 then s.coh.dropHalf half else { s.coh with halves := aset s.coh.halves half n } }
    let data := fun (t : State) (r : String) => (t.emit (.snoop half r true)).emit (.data (s.halfBytes half))
    let plain := fun (t : State) (r : String) => t.emit (.snoop half r false)
    (∀ p ∈ s.teams, p.2.inRegion = false) →
    (st = 3 → exec (.snpinv half) s = .next (data (now 0) "RspIFwdM") ∧ exec (.snpdata half) s = .next (data (now 1) "RspSFwdM") ∧
      exec (.snpcur half) s = .next (data (now 3) "RspVFwdV")) ∧
    (st = 2 → exec (.snpinv half) s = .next (plain (now 0) "RspIHitSE") ∧ exec (.snpdata half) s = .next (plain (now 1) "RspSHitSE") ∧
      exec (.snpcur half) s = .next (plain (now 2) "RspVHitV")) ∧
    (st = 1 → exec (.snpinv half) s = .next (plain (now 0) "RspIHitSE") ∧ exec (.snpdata half) s = .next (plain (now 1) "RspSHitSE") ∧
      exec (.snpcur half) s = .next (plain (now 1) "RspVHitV")) ∧
    (st = 0 → ∀ mk ∈ [Instr.snpinv, .snpdata, .snpcur], exec (mk half) s = .next (plain s "RspIHitI"))) ∧
  (∀ s half exclusive data q, s.coh.halfReqs.find? (fun q => q.half == half) = some q → aget s.coh.halves half = none →
    data.length = 64 → Config.hostBase ≤ 64 * half → q.ahead = none →
    let u := { s with
      coh := { s.coh with
        halfReqs := s.coh.halfReqs.filter (· != q)
        halves := aset s.coh.halves half (if q.write || exclusive then 2 else 1) }
      mem := memWrite s.mem (located (64 * half) data) }
    exec (.cxlCacheCompletion half exclusive data) s = .next (if s.bytesAt (64 * half) 64 = data then u else u.seen [half / 2])) ∧
  (∀ s half data, 64 * half < Config.hostBase → s.hdm.1 ≤ 64 * half → 64 * half + 64 ≤ s.hdm.1 + s.hdm.2 →
    s.lineFenced (half / 2) = false → paDevice (64 * half) = true →
    let q := fun (k : ReqKind) (bs : List Byte) =>
      ({ kind := k, sid := sidHost, line := half / 2, rd := half % 2, pend := [], served := false, data := bs } : CohReq)
    let ask := fun (k : ReqKind) (bs : List Byte) => { s with coh := s.coh.ask (q k bs) }
    (data.length = 64 → exec (.hostCxlMemRequest half true data) s = .next (ask .atHome data)) ∧
    (exec (.hostCxlMemRequest half true []) s = .next (s.hostDrop half)) ∧
    (s.coh.hosted.contains half = false ∨ s.marked none (half / 2) = true →
      exec (.hostCxlMemRequest half false data) s = .next (ask .read [])) ∧
    (s.coh.hosted.contains half = true → s.marked none (half / 2) = false → exec (.hostCxlMemRequest half false data) s = .next (s.sendHalf half))) ∧
  (∀ s half write data, 64 * half < Config.hostBase → (64 * half < s.hdm.1 ∨ s.hdm.1 + s.hdm.2 < 64 * half + 64) →
    exec (.hostCxlMemRequest half write data) s = .next s) ∧
  (∀ s k g, s.coh.grants[k]? = some g → s.coh.inOrder g.n g.sid g.line = true → g.sid = sidHost →
    s.marked none g.line = false →
    let half := 2 * g.line + g.rd
    let c := { s.coh with grants := dropAt s.coh.grants k, hosted := half :: s.coh.hosted }
    s.coh.hosted.contains half = false → exec (.grant k) s = .next ({ s with coh := c }.sendHalf half))

/-- R203 to R208, R228, R229, R231, R285, R289, R290, R412: an engine out of self-test takes the card at HEAD of a live chain (a
card that its checks pass becomes the chain's job), issues its segments (their pages and pieces are known, and their lines asked
for), answers recalls, fills rings, iterates, rests at a lehr point, and completes: HEAD and the completion word. The model's
readings: HEAD moves with the completion word (log 28), when a card rests (log 39), when a segment writes (log 40), the
order of a matrix card's words (log 74), what a ring is added to (log 83). -/
def Obligations.EngineEvents : Prop :=
  ∀ s k c, s.liveChain k = some c →
    (∀ g b l, c.job = none → c.packet = none → c.queue ≠ [] → s.readCcb k c = .ok g b → ccbOk b = true →
      ccbField b 0x0C 2 = c.engine → s.chainFenced c = false → s.chainUnderTest c = false →
      let head := ccbField b 0x18 8
      let va := ccbField b 0 8 + 128 * (head % ccbField b 8 4)
      let seq := BitVec.ofNat 64 (ccbField b 0x20 8 + head + 2 ^ 64 + 1 - ccbField b 0x10 8 % 2 ^ 64)
      let j := Job.new seq (s.leafBytes { ctx := c.ctx } l 128) va c.queue.head?
      s.reach c.ctx (.chain k) va .r 128 = .ok l → s.coh.lacks (halvesOf l.pa 128) false = [] → s.poisoned l 128 = false →
      (l.lines 128).any (s.marked none) = false →
      (c.engine ≠ 9 → (c.engine = 8 → s.running c.die c.core 8 < 32) → exec (.engineTakeCard k) s = .next (s.takeCopy k c j)) ∧
      (c.engine = 9 → exec (.engineTakeCard k) s = .next (s.takeMatrix k c j))) ∧
    (∀ p, c.job = none → c.packet = some p → s.chainFenced c = false → s.chainUnderTest c = false →
      exec (.engineTakeCard k) s = .next (s.modChain k fun c => { c with job := some (Job.new p.seq p.card 0 none) })) ∧
    (∀ j, (j.scr = true → s.clusterHere j = true) → j.copyOk c.engine = false → s.takeCopy k c j = s.refuseCard k j.addr) ∧
    (∀ j, (j.scr = true → s.clusterHere j = true) → j.copyOk c.engine = true → j.kind ≠ 2 →
      (match j.team.bind s.team? with
        | some t => j.at_ 2 2 < 2 ^ t.cores ∧ s.targetBad j = none
        | none => j.aims = false) →
      s.takeCopy k c j = s.modChain k fun c => { c with job := some j }) ∧
    (∀ j n t rs u, c.bound = some n → s.team? n = some t → j.team = some n → t.runs = true → s.arrayTaken t = false →
      j.matrixOk t.kern.acc = true → s.tilesBusy n j = false → s.copyRecs c.ctx j.handles = some (rs, u) →
      (j.usesO4 = true → field (s.feat c.ctx) 2 1 ≠ 0) → (∀ p ∈ rs, p.2.featureOff (s.feat c.ctx) = false) →
      let j2 := { j with recs := rs, cursor := j.saved }
      j2.recsOk = true → s.bringBad n j2 = none → s.takeMatrix k c j = u.modChain k fun c => { c with job := some j2 }) ∧
    (∀ j, c.job = some j →
      (∀ is ps, c.engine ≠ 9 → s.chainFenced c = false → j.issued = false → (j.aims = true → s.clusterHere j = true) →
        (j.ring = true → s.slotsFree j = true) → s.resolve c.ctx k j.indexPages = .ready is →
        let ji := { j with pages := is }
        let rs := (j.indexes (j.pos, j.segEnd - j.pos)).map fun a => (a, 4)
        s.readWait ji rs = none → s.badRead ji rs = none → s.resolve c.ctx k (s.segPages c.ctx ji) = .ready ps →
        let jp := { j with pages := is ++ ps, issued := true }
        let todo := if j.ring then [] else jp.pieces
        (∀ p ∈ todo, jp.aliasOdd p = false) → (j.aims = true → s.targetBad j = none) →
        let lines := sortLines (todo.flatMap jp.pieceLines)
        let aimed := if j.aims then ((s.targets j).getD []).map Prod.fst else []
        exec (.segmentIssue k) s = .next (((s.inbound aimed).modChain k fun c =>
          { c with job := some { jp with todo := todo, owned := lines, aimed := aimed } }).own (s.chainSid c) lines)) ∧
      (∀ ps, c.engine = 9 → s.chainFenced c = false → j.issued = false → j.paused = false → j.finished = false →
        let j1 := { j with tiles := if j.tiles.contains (j.tileId j.cursor) then j.tiles else j.tiles ++ [j.tileId j.cursor] }
        let j2 := { j1 with pages := ps, issued := true }
        s.resolve c.ctx k j1.tilePages = .ready ps → j2.oddTiles = false → s.badOutput j2 = none →
        exec (.segmentIssue k) s = .next ((s.setTiles k c j2).own (s.chainSid c) j2.outLines)) ∧
      (s.chainFenced c = true → exec (.segmentIssue k) s = .next (s.stopChain k fltFenced j.addr false)) ∧
      (∀ line, c.engine ≠ 9 → j.owned.contains line = true → s.granted (s.chainSid c) [line] = true →
        s.coh.takable (s.coh.recalls.findIdx? fun r => r.sid == s.chainSid c && r.line == line) = true →
        let ps := j.todo.filter fun p => (j.pieceLines p).contains line
        s.srcWait c.ctx j ps = none → (∀ p ∈ ps, s.badPiece c.ctx j p = none) →
        exec (.engineRecallAnswer k line) s =
          .next ((ps.foldl (fun s p => s.writePiece k p) s).passOn (s.chainSid c) line)) ∧
      (let ring := j.at_ 0x48 4
       c.engine ≠ 9 → j.ring = true → j.issued = true → j.finished = false →
       (∀ r ∈ j.aimed.map fun t => s.ringAt t ring, r.consistent = true ∧ j.total ≤ 128 * r.slotu) →
       (∀ t ∈ j.aimed, s.ringFull ring t = false) →
       s.srcWait c.ctx j [(0, j.total)] = none → s.badPiece c.ctx j (0, j.total) = none →
       exec (.ringFill k) s =
         .next ((s.fillRing ring j.aimed (s.pieceBytes c.ctx j (fun _ => 0) (0, j.total))).modChain k fun c =>
           { c with job := some { j with finished := true, pages := [] } })) ∧
      (∀ t d, c.engine ≠ 9 → s.copyDone k c j = .done t → t.liveChain k = some d →
        (d.packet = none → exec (.jobCompletion k) s = .next (t.completeChain k d j.seq)) ∧
        (∀ p, d.packet = some p → exec (.jobCompletion k) s = .next (t.endPacket k p))) ∧
      (j.finished = true → j.aimed = [] → s.copyDone k c j = .done s) ∧
      (∀ l b w, s.readCcb k c = .ok l b → s.reach c.ctx (.chain k) (ccbField b 0x28 8) .w 8 = .ok w →
        s.coh.lacks (halvesOf w.pa 8) true = [] → (∀ n ∈ w.lines 8 ++ l.lines 64, s.ownerOf n = none) →
        s.completeChain k c j.seq =
          (((s.dropJob k).partStore c.ctx (l.shift 0x18) (leBytes 8 ((ccbField b 0x18 8 + 1) % 2 ^ 64))).partStore c.ctx w
            (leBytes 8 j.seq.toNat)).modChain k fun c => { c.past with stop := none }) ∧
      (let word := j.at_ 0x20 8
       let ws := (j.addr + 0x32, 1, true) :: if word = 0 then [] else [(word, 8, true)]
       c.engine = 9 → j.finished = true → s.partWait c.ctx (.chain k) ws = none → s.partFail c.ctx (.chain k) ws = none →
       let t := (s.partPut c.ctx (.chain k) (j.addr + 0x32) 1 2).completeChain k c j.seq
       (word = 0 → exec (.jobCompletion k) s = .next t) ∧
       ((∀ d, aget t.chains k = some d → d.stop = none ∧ d.job = none) → word ≠ 0 →
         exec (.jobCompletion k) s = .next (t.partPut c.ctx (.chain k) word 8 j.seq.toNat))) ∧
      (∀ n t a b, c.engine = 9 → c.bound = some n → s.team? n = some t → j.finished = false → j.paused = false →
        j.issued = true → t.runs = true → s.chainFenced c = false → s.granted (s.chainSid c) j.owned = true → j.bring = false →
        s.bringBad n j = none → (s.mayWait j = false ∨ s.readWait j j.reads = none) → s.badOutput j = none →
        s.badRead j j.reads = none → j.aRec = some a → j.bRec = some b →
        let tile := j.tileAt j.cursor
        let rd := s.jobNat c.ctx j
        let start := if j.firstK j.cursor && !j.accin then { t.tile tile with cells := [] } else t.tile tile
        let done := start.accum j.int8 0 (j.operand a 0 rd) (j.operand b 1 rd)
        let u := s.modTeam n fun x => x.modTile tile fun _ => done
        exec (.matrixIteration k) s = .next (if j.lastK j.cursor && j.epi then
            (u.epilogue c.ctx j done (j.biasRec.map fun r => biasWord r rd)).setTiles k c j.next
          else u.modChain k fun c => { c with job := some j.next })) ∧
      (∀ t, c.engine = 9 → c.bound.bind s.team? = some t → j.finished = false → j.paused = false → t.yielding = true →
        let given := (s.giveBack (s.chainSid c) j.owned).modChain k fun c =>
          { c with job := some { j with issued := false, owned := [], pages := [] } }
        given.partWait c.ctx (.chain k) [(j.addr + 0x28, 11, true)] = none →
        given.partFail c.ctx (.chain k) [(j.addr + 0x28, 11, true)] = none →
        let bytes := j.cursor.flatMap (leBytes 2) ++ [1]
        exec (.lehrPoint k) s = .next ((given.partWrite c.ctx (.chain k) (j.addr + 0x28) bytes).modChain k fun c =>
          { c with job := some { j with
            paused := true, issued := false, owned := [], pages := [], tiles := []
            card := j.card.take 0x28 ++ bytes ++ j.card.drop 0x33 } })))

/-- R309, R311, R313, R315, R317, R319 to R325, R327, R329, R330, R334, R338, R339: queues take positions, commands and
packets; packets issue and complete; the Parison starts, confirms and relabels predictions. -/
def Obligations.QueueEvents : Prop :=
  (∀ s t value, t < 32 →
    let q := (s.qcp? t).getD Qcp.reset
    let m := value &&& 0xFFFFFFFFFFFFFFC1#64
    let c := bits64 m 54 10
    let dva := bits64 m 6 48 * 64
    let base := s.setQ t
      { Qcp.reset with
        qmap := m, ctx := c, pgen := q.pgen, wptr := q.wptr, rptr := q.rptr, qfault := q.qfault, lastIss := q.lastIss }
    let b := base.partRead c (.queue t) dva 64
    let at_ := fun (o n : Nat) => leNat ((b.drop o).take n)
    (value.getLsbD 0 = false → exec (.queueMap t value) s = .next (
      if (s.qcp? t).isSome then (s.unmap t).modQ t fun q => { q with qmap := m } else s.setQ t { Qcp.reset with qmap := m })) ∧
    (value.getLsbD 0 = true → q.state = .unmapped → s.outOfService (qcpPath t) = false → (s.ctx? c).isSome = true →
      ∀ l, base.partLeaf c (.queue t) dva false 64 = .ok l → base.partWait c (.queue t) [(dva, 64, false)] = none →
      descOk b = true → (∀ p ∈ s.threads, p.1 ≠ t → p.2.state ≠ .unmapped → p.2.qid ≠ at_ 12 2) →
      exec (.queueMap t value) s = .next (base.setQ t { Qcp.reset with
        qmap := m, ctx := c, pgen := q.pgen, qfault := q.qfault, lastIss := q.lastIss, state := .stopped, wptr := BitVec.ofNat 64 (at_ 0x10 8), rptr := BitVec.ofNat 64 (at_ 0x10 8)
        rbase := at_ 0 8, log2sz := at_ 8 1, pri := at_ 9 1, cdepth := at_ 10 1, qid := at_ 12 2, desc := dva, idle := at_ 0x18 4
        vquota := at_ 0x1C 4, lastArr := s.cycle, seen := BitVec.ofNat 64 (at_ 0x10 8) }))) ∧
  ∀ (s : State) (t : Nat) (q : Qcp), s.qcp? t = some q →
    (∀ pos : DWord, exec (.doorbell t pos) s = .next (
      if q.state ≠ .unmapped ∧ pos.toNat % 64 = 0 ∧ q.wptr.toNat ≤ pos.toNat ∧ pos.toNat - q.rptr.toNat ≤ 2 ^ q.log2sz then
        (s.setQ t { q with wptr := pos }).noteArrivals t else s)) ∧
    (q.state = .fetch → q.rptr.toNat < q.wptr.toNat → q.reread + 1024 ≤ s.cycle →
      exec (.packetReread t) s = .next ((s.setQ t { q with reread := s.cycle }).noteArrivals t)) ∧
    (s.fenced (qcpPath t) = false →
      (q.state = .stopped → exec (.start t) s = .next (s.setQ t { q with state := .fetch, expect := none })) ∧
      (q.state = .faulted → exec (.start t) s = .next (s.setQ t { q with state := .fetch }))) ∧
    (let forgot := fun (u : State) (st : QState) => u.mem = s.mem ∧ ∃ r, u.qcp? t = some r ∧ r.state = st ∧ r.program = none ∧
       r.history = [] ∧ r.pstate = .learning ∧ r.packets = q.packets ∧ r.rptr = q.rptr ∧ r.wptr = q.wptr
     (q.state.runs = true ∨ q.state = .faulted →
       ∃ u, exec (.stop t) s = .next u ∧ forgot u (if q.state = .faulted then .faulted else .stopped)) ∧
     (q.state ≠ .unmapped → q.state ≠ .draining → ∃ u, exec (.unmap t) s = .next u ∧ forgot u .draining) ∧
     ∃ u, exec (.forget t) s = .next u ∧ forgot u q.state) ∧
    (q.state = .draining → q.packets = [] → q.discarding = false →
      exec (.drainingEnd t) s = .next (s.setQ t { q with state := .unmapped })) ∧
    (exec (.discardDone t) s = .next (s.setQ t { q with discarding := false })) ∧
    (∀ p, (q.preds.drop q.firstOpen).getLast? = some p → max q.lastArr p.started + q.idleTicks ≤ s.cycle →
      exec (.idleTimeout t) s = .next (s.refute t .paused)) ∧
    (∀ (p : Pkt) launch done,
      let rptr := q.rptr + BitVec.ofNat 64 (64 * p.len)
      let pk : Packet := { seq := p.seq, addr := q.at_ q.rptr, type := p.type, cw := p.cw, irq := p.irq, cscope := p.cscope,
                           vec := p.vec, cword := BitVec.ofNat 64 p.cword, launch := launch, done := done, abandoned := false }
      (s.issuePacket t p launch done).qcp? t = some { q with
        state := .fetch, rptr := rptr, expect := some (p.seq + 1), entered := false, lastIss := s.core + 1
        seen := if q.seen.toNat < rptr.toNat then rptr else q.seen
        lastArr := if q.seen.toNat < rptr.toNat then s.cycle else q.lastArr
        packets := if p.type = 7 then q.packets else q.packets ++ [pk] }) ∧
    (∀ p code, Arrived s t 2 q p → s.considered.reach q.ctx (.queue t) (p.at_ 0x18 8) .r 8 = .fault code →
      exec (.wait t) s = .next (s.considered.faultQueue t code 0x0109 p.seq (q.at_ q.rptr) (p.at_ 0x18 8))) ∧
    (∀ p u, Goes s t 2 q p u → (∀ code, s.considered.reach q.ctx (.queue t) (p.at_ 0x18 8) .r 8 ≠ .fault code) →
      ∀ l, u.partLeaf q.ctx (.queue t) (p.at_ 0x18 8) false 8 = .ok l →
      u.partWait q.ctx (.queue t) [(p.at_ 0x18 8, 8, false)] = none →
      exec (.wait t) s = .next (
        if seqReached 64 (u.partNat q.ctx (.queue t) (p.at_ 0x18 8) 8) (p.at_ 0x20 8) = true then u.issuePacket t p none true
        else u.modQ t fun q => { q with state := .blocked })) ∧
    (∀ p, Arrived s t 2 q p → q.state = .blocked → let u := s.considered
      ∀ l, u.partLeaf q.ctx (.queue t) (p.at_ 0x18 8) false 8 = .ok l →
      u.partWait q.ctx (.queue t) [(p.at_ 0x18 8, 8, false)] = none →
      seqReached 64 (u.partNat q.ctx (.queue t) (p.at_ 0x18 8) 8) (p.at_ 0x20 8) = true →
      exec (.queueWaitSatisfied t) s = .next (u.issuePacket t p none true)) ∧
    (∀ p u l, Goes s t 3 q p u → (∀ code, s.considered.reach q.ctx (.queue t) (p.at_ 0x18 8) .rw 8 ≠ .fault code) →
      u.reach q.ctx (.queue t) (p.at_ 0x18 8) .rw 8 = .ok l →
      (q.packets.all Packet.done = true → u.partWait q.ctx (.queue t) [(p.at_ 0x18 8, 8, true)] = none →
        let w := leNat (u.leafBytes { ctx := q.ctx } l 8)
        let n := p.at_ 0x20 8
        let v := match p.at_ 0x28 1 with | 0 => n | 1 => (w + n) % 2 ^ 64 | _ => max w n
        exec (.signal t) s = .next ((u.partStore q.ctx l (leBytes 8 v)).issuePacket t p none true)) ∧
      (q.packets.all Packet.done = false → exec (.signal t) s = .next (u.modQ t fun q => { q with state := .blocked }))) ∧
    (∀ p u v, Goes s t 4 q p u →
      let src := p.at_ 0x18 8
      let dst := p.at_ 0x20 8
      let len := p.at_ 0x28 8
      let job : Chain :=
        { ctx := q.ctx, ccb := BitVec.ofNat 64 (q.at_ q.rptr), engine := p.at_ 0x30 1 / 8 % 4, die := p.at_ 0x30 1 % 8, core := 0
          queue := [], bound := none, job := none, stop := none
          packet := some { thread := t, seq := p.seq, card := copyCard src dst len }, origin := [], posts := [] }
      u.enterTable t q p.seq [{ base := src, len := len, mode := 1 }, { base := dst, len := len, mode := 2 }] = .clear v →
      exec (.copy t) s = .next
        (({ v with fresh := v.fresh + 1, chains := aset v.chains v.fresh job }).issuePacket t p none false)) ∧
    (∀ p u, Goes s t 5 q p u → exec (.barrier t) s = .next (
      if q.packets.all Packet.done = true then u.issuePacket t p none true else u.modQ t fun q => { q with state := .blocked })) ∧
    (∀ p, Arrived s t 7 q p → exec (.nopad t) s = .next (s.considered.issuePacket t p none true)) ∧
    (∀ p, Arrived s t 6 q p → p.at_ 0x18 1 = 0 →
      let lift := q.pstate = .barred ∧ q.reason = 4 ∧ p.at_ 0x19 1 ≠ 0
      exec (.loopctlSetdepth t) s = .next ((s.considered.setQ t { q with
        cdepth := p.at_ 0x19 1, pgen := q.pgen + 1, pstate := if lift then .active else q.pstate
        reason := if lift then 0 else q.reason }).issuePacket t p none true)) ∧
    (∀ p, Arrived s t 6 q p → p.at_ 0x18 1 = 1 →
      (q.program = none → q.discarding = false → exec (.loopctlDrop t) s =
        .next ((s.considered.setQ t { q with history := [], reason := 0 }).issuePacket t p none true)) ∧
      (q.program ≠ none → q.preds.drop q.firstOpen ≠ [] → ∃ u r, exec (.loopctlDrop t) s = .next u ∧ u.qcp? t = some r ∧
        u.mem = s.mem ∧ r.pstate = .paused ∧ r.discarding = true ∧ r.preds = q.preds.take q.firstOpen ∧ r.history = [] ∧
        r.rptr = q.rptr ∧ ∀ v ∈ u.versions, v.thread = t → ∀ x ∈ q.preds.drop q.firstOpen, v.slot ≠ x.slot)) ∧
    (∀ p u, Goes s t 6 q p u → p.at_ 0x18 1 = 2 → exec (.loopctlForget t) s = .next (u.issuePacket t p none true)) ∧
    (∀ p k args, Arrived s t 1 q p → let u := s.considered
      u.checkLaunch t q p = .ok k args →
      let r := LaunchRec.ofPkt p args
      (∀ pr, q.preds[q.firstOpen]? = some pr → pr.rcd = r → exec (.launch t) s = .next (u.confirm t k p pr)) ∧
      (q.preds[q.firstOpen]? = none → (∀ g, q.program = some g → g.next = r) →
        exec (.launch t) s = .next (u.issuePlain t q k p r)) ∧
      (∀ w v, q.awaited = some w → w ≠ r → (u.unlearn t []).qcp? t = some v → v.discarding = false →
        exec (.launch t) s = .next ((u.unlearn t []).issuePlain t v k p r)) ∧
      (∀ v, q.program = none → u.enterTable t q p.seq r.ranges = .clear v →
        ∃ w, u.issuePlain t q k p r = w ∧ w.fresh = v.fresh + 1 ∧ ∃ n, aget w.launches v.fresh = some n ∧ n.seq = p.seq ∧ n.kern = k ∧
          n.ctx = q.ctx ∧ n.thread = t ∧ n.nx = p.grid 0 ∧ n.ny = p.grid 1 ∧ n.nz = p.grid 2 ∧ n.slot = 0 ∧ n.next = 0)) ∧
    (∀ seq p, (q.packets.find? fun p => p.seq == seq) = some p → p.abandoned = false → s.workDone p = true →
      let u := if p.launch = none ∧ p.done = true then s.release t seq else s.completeWork t p
      let sent := fun (u : State) => if p.irq = true then u.interrupt p.vec else u
      (p.cw = false → exec (.packetCompletion t seq) s = .next (sent (u.dropPacket t seq))) ∧
      (∀ l, p.cw = true → (∀ x ∈ q.packets.takeWhile (fun x => x.seq != seq), x.cw = true → x.abandoned = true) →
        u.partLeaf q.ctx (.queue t) p.cword.toNat true 8 = .ok l → u.partWait q.ctx (.queue t) [(p.cword.toNat, 8, true)] = none →
        exec (.packetCompletion t seq) s =
          .next (sent ((u.partPut q.ctx (.queue t) p.cword.toNat 8 seq.toNat).dropPacket t seq)))) ∧
    (∀ g b, q.program = some g →
      let r := g.next
      let k := Kernel.ofBytes r.desc.toNat b
      s.predictable t q r = true → s.pieces q.ctx (.queue t) r.desc.toNat 32 = .ok b →
      s.piecesWait q.ctx (.queue t) r.desc.toNat 32 = none → kernelOk b k = true → gridOk k r.gx r.gy r.gz = true →
      k.rasafe = true → 8 * r.words.length = k.argsize → s.rectExists k = true →
      let is := intervalsOf q.ctx t r.seq q.nextSlot (s.entered + 1) r.ranges
      let u := s.newLaunch t q k r q.nextSlot
      let pr : Prediction :=
        { rcd := r, slot := q.nextSlot, launch := s.fresh, units := unitsOf r.ranges, confirmed := false
          waived := waivedOf s.table is, started := s.cycle }
      exec (.predictionStart t) s = .next ({ u with table := s.table ++ is, entered := s.entered + 1 }.setQ t { q with
        preds := q.preds ++ [pr], nextSlot := q.nextSlot % 8 + 1, pgen := q.pgen + 1, program := some { g with cur := r } })) ∧
    (∀ p, (q.preds.find? fun p => p.confirmed &&
        !p.waived.any fun n => q.packets.any fun x => x.seq == n && !x.done && !x.abandoned) = some p →
      let mine := s.versions.filter fun v => v.thread == t && v.slot == p.slot
      ∃ u r, exec (.relabel t) s = .next u ∧ u.qcp? t = some r ∧ r.preds = q.preds.filter (fun x => x.slot != p.slot) ∧
        u.versions = s.versions.filter (fun v => !(v.thread == t && v.slot == p.slot)) ∧
        u.mem = memWrite s.mem (mine.flatMap fun v => v.bytes.map fun b => (128 * v.line + b.1, b.2)) ∧
        ∀ x ∈ u.teams, x.2.launch = p.launch → x.2.slot = 0)

/-- R346 to R349, R360, R363 to R365, R367, R368, R370: contexts begin and end, are pre-empted and resumed, their stops are
answered one by one or all by KILL; fault records go to their ring; the driver reaches device memory through BAR4. That the
context is KILLING from the command until the next tick is the model's choice (log 71). So is what GLOAD keeps of the
launch's budget (log 46). -/
def Obligations.ContextCommands : Prop :=
  (∀ s c, c < 1024 → s.ctx? c = none →
    let b := s.bytesAt (bits64 (s.reg (0x100000 + 0x40 * c) 0) 8 44 * 256) 256
    (s.boot.ran ≠ 2 → s.recordOk b (Ctx.ofRecord b) = true → exec (.contextActivate c) s =
      .next ({ s with ctxs := aset s.ctxs c (Ctx.ofRecord b) }.setReg (ctxBlock c) (s.reg (ctxBlock c) 0 ||| 1))) ∧
    ((s.boot.ran = 2 ∨ s.recordOk b (Ctx.ofRecord b) = false) → exec (.contextActivate c) s = .next (s.setErr c))) ∧
  (∀ s c x, s.ctx? c = some x →
    ((∀ p ∈ s.threads, p.2.ctx = c → p.2.state = .unmapped) → (∀ p ∈ s.teams, p.2.ctx = c → p.2.endedAt.isSome = true) →
      (s.declParts x ≠ [] → exec (.contextDeactivate c) s = .next ((s.declParts x).foldl State.evictPart s)) ∧
      (s.declParts x = [] → exec (.contextDeactivate c) s =
        .next (({ s with ctxs := adel s.ctxs c, lgfs := s.lgfs.filter fun g => g.ctx != c }.forgetDetails c).setReg (ctxBlock c)
          (s.reg (ctxBlock c) 0 &&& ~~~1#64)))) ∧
    (let ts := s.teams.filter fun p => p.2.ctx == c && p.2.resident
     let fits := s.poolFits c (ts.map fun p => p.2.kern.teamSize)
     (x.state = .active → fits = true → exec (.preempt c) s =
       .next ((ts.foldl (fun s p => s.askYield p.2) (s.modCtx c fun x => { x with state := .preempting })).settleSave c)) ∧
     (x.state ≠ .active ∨ fits = false → exec (.preempt c) s = .next (s.setErr c))) ∧
    (x.state = .saved → ∃ u, exec (.resume c) s = .next u ∧ (u.ctx? c).map Ctx.state = some .active ∧ u.mem = s.mem ∧
      u.teams = s.teams ∧ ∀ n l, aget s.launches n = some l → l.ctx = c → ∃ k, aget u.launches n = some k ∧
        ∀ p ∈ s.teams, p.2.launch = n → p.2.place = .saved → p.1 ∈ k.waiting) ∧
    (x.state ≠ .saved → exec (.resume c) s = .next (s.setErr c)) ∧
    (∃ u, exec (.kill c) s = .next u ∧ (u.ctx? c).map Ctx.state = some .killing ∧ (∀ p ∈ u.chains, p.2.ctx ≠ c) ∧
      (∀ p ∈ u.launches, p.2.ctx ≠ c) ∧ (∀ p ∈ u.teams, p.2.ctx = c → p.2.endedAt.isSome = true) ∧
      (∀ d ∈ u.lent, d.ctx = c → d.finished = true) ∧
      ∀ t q, s.qcp? t = some q → q.ctx = c → q.state ≠ .unmapped → ∃ v, u.qcp? t = some v ∧ v.state = .faulted ∧
        v.qfault = BitVec.ofNat 64 (0x0120 * 2 ^ 16 + fltEngine) ∧ v.preds.drop v.firstOpen = [] ∧
        ∀ p ∈ v.packets, p.done = true ∨ p.abandoned = true)) ∧
  (∀ s c id r g x, s.stoppedGroup c id = some (r, g, x) →
    (x.kind ≠ .timeout → x.kind ≠ .fenced →
      exec (.gresume c id) s = .next (s.modGrp r fun g => { g with stop := none, step := none })) ∧
    (x.kind = .timeout ∨ x.kind = .fenced → exec (.gresume c id) s = .next (s.setErr c)) ∧
    (g.step = none → x.kind ≠ .fenced →
      exec (.gstep c id) s = .next (s.modGrp r fun g => { g with step := some { lanes := 0, left := 0 } })) ∧
    (g.step.isSome = true ∨ x.kind = .fenced → exec (.gstep c id) s = .next (s.setErr c)) ∧
    (∀ t l, s.team? r.team = some t → aget s.launches t.launch = some l → exec (.gkill c id) s =
      .next ((s.endLaunch t.launch).faultEnded l.thread l.seq (s.packetAddr l.thread l.seq))) ∧
    (∀ u t h, s.drainMany r true g.wcbuf.length = .done u → u.team? r.team = some t → u.grp? r = some h → exec (.gsave c id) s =
      .next (u.physWrite (bits64 (u.reg (ctxBlock c + 0x20) 0) 16 36 * 65536) (h.record t.kern u.core false fun _ l => l.pc))) ∧
    (∀ t, s.team? r.team = some t →
      let rd := fun (o n : Nat) => s.natAt (bits64 (s.reg (ctxBlock c + 0x20) 0) 16 36 * 65536 + o) n
      let paOf := fun (va : Nat) => match s.translate c .part va .w with | .ok l => some (l.pa / 128) | _ => none
      let u := s.modGrp r fun g => g.ofRecord t.kern rd paOf
      (loadFits t.kern rd = false → exec (.gload c id) s = .next (s.setErr c)) ∧
      (loadFits t.kern rd = true → s.savedField r 0 = none → exec (.gload c id) s = .next u) ∧
      (∀ a, loadFits t.kern rd = true → s.savedField r 0 = some a → exec (.gload c id) s = .next (u.writeBytes
        (located a (s.bytesAt (bits64 (s.reg (ctxBlock c + 0x20) 0) 16 36 * 65536) t.kern.groupSize)))))) ∧
  (∀ s c id, s.stoppedGroup c id = none →
    (∀ k ch x, s.stoppedChain c id = some (k, ch, x) →
      (exec (.gresume c id) s = .next (
        if ch.engine = 9 ∧ x.detail = 0x50 then s.setErr c else s.modChain k fun c => { c with stop := none })) ∧
      (∀ p, ch.packet = some p →
        exec (.gkill c id) s = .next (((s.dropChain k).abandon p.thread p.seq).faultEnded p.thread p.seq ch.ccb.toNat)) ∧
      (ch.packet = none →
        exec (.gkill c id) s = .next (((if x.onlyWrite = true then s.passHead ch else s).dropChain k).faultOrigin ch))) ∧
    (∀ i ∈ [Instr.gstep c id, .gsave c id, .gload c id], exec i s = .next (s.setErr c)) ∧
    (s.stoppedChain c id = none → ∀ i ∈ [Instr.gresume c id, .gkill c id], exec i s = .next (s.setErr c))) ∧
  (∀ s b rest, s.records = b :: rest → s.ringRoom 0x200000 = true →
    exec .faultRecordWrite s = .next ({ s with records := rest }.putRecord 0x200000 64
      (b.take 0x3A ++ leBytes 2 ((s.reg 0x200010 0).toNat % 65536) ++ b.drop 0x3C))) ∧
  (∀ s value x, s.ctx? (bits64 value 54 10) = some x →
    let c := bits64 value 54 10
    let va := x.uimbox.toNat
    s.partWait c .part [(va, 8, false), (va, 8, true)] = none →
    let u := s.partPut c .part va 8 (s.partNat c .part va 8 ||| 2 ^ bits64 value 0 6)
    (x.uivec = 0 → exec (.uipost value) s = .next u) ∧
    (x.uivec ≠ 0 → ∃ v, exec (.uipost value) s = .next v ∧
      ((∀ p ∈ u.teams, u.savedField { team := p.1, grp := 0 } 0x32 = none) → v.mem = u.mem) ∧
      ∀ n t g, v.team? n = some t → t.ctx = c → t.endedAt = none → t.groups[0]? = some g → g.uip = true)) ∧
  (∀ s off size, off + size ≤ 2 ^ s.bar4 →
    let pa := s.windowAt off
    s.heldUp pa size = false → notifyPa pa = false →
    ((∀ a ∈ span pa size, s.poison.contains (a / 128) = false ∧ s.lineFenced (a / 128) = false) →
      exec (.bar4Read off size) s = .next (s.emit (.data (s.bytesAt pa size)))) ∧
    ((∃ a ∈ span pa size, s.poison.contains (a / 128) = true ∨ s.lineFenced (a / 128) = true) →
      exec (.bar4Read off size) s = .next (s.emit .poisoned))) ∧
  (∀ s off data, off + data.length ≤ 2 ^ s.bar4 →
    let pa := s.windowAt off
    s.heldUp pa data.length = false → notifyPa pa = false → (∀ a, s.lineFenced a = false) →
    exec (.bar4Write off data) s = .next (((s.writeBytes (located pa data)).absorb (span pa data.length)).atHomes
      ((span pa data.length).map (· / 128)).eraseDups))

/-- R382, R384, R385, R387, R388, R390 to R393, R396 to R398, R400: a context's serving begins and ends; each message that
arrives is applied to its die's sequence table with its status, written to the inbox; KV errors are classed. Messages and nodes
that go when serving ends, STATUS 4 for a PLADDR that is misaligned or too high, and STATUS 5 in the notice of an adoption are the
model's readings (log 43). -/
def Obligations.ServingEvents : Prop :=
  (∀ s c, c < 1024 → aget s.serving c = none →
    let r := s.reg (0x7F8000 + 8 * c) 0
    let b := s.bytesAt (bits64 r 7 45 * 128) 128
    let v := Serving.ofBytes b
    ((s.ctx? c = none ∨ servingOk b v = false) → exec (.servingEnable c) s = .next (s.setReg (svrec c) (r ||| 2))) ∧
    ((s.ctx? c).isSome = true → servingOk b v = true → s.partWait c .part [(v.icnt, 1024, true)] = none →
      let words := (List.range 8).flatMap fun d => [v.icnt + 128 * d, v.icnt + 128 * d + 64]
      let u := words.foldl (fun s a => s.partPut c .part a 8 0) s
      exec (.servingEnable c) s =
        .next ({ u with serving := aset u.serving c v }.setReg (svrec c) ((r ||| 1) &&& ~~~2#64)))) ∧
  (∀ s c, (∀ e ∈ s.seqs, e.ctx ≠ c) → exec (.servingDisable c) s = .next ({ s with
    serving := adel s.serving c, sending := s.sending.filter fun m => m.ctx != c, arrived := s.arrived.filter fun m => m.ctx != c
    nodes := s.nodes.filter fun n => n.ctx != c }.setReg (svrec c) (s.reg (svrec c) 0 &&& ~~~1#64))) ∧
  (∀ s die c t m v, Msged s die c 1 t m v →
    let pl := m.at_ 0x18 8
    t.partWait c .part (t.inboxWants v die c ++ listWants pl (m.at_ 0x20 2)) = none →
    let out := fun (st : Nat) (u : State) => Host.Outcome.next (u.applied die c v m st (m.bytes.drop 8))
    ((m.at_ 0x22 30 ≠ 0 ∨ pl % 8 ≠ 0 ∨ 2 ^ 54 ≤ pl) → exec (.openSeq die c) s = out 4 t) ∧
    (m.at_ 0x22 30 = 0 → pl % 8 = 0 → pl < 2 ^ 54 →
      ((t.seqAt die m.id).isSome = true ∨ 16384 ≤ (t.seqs.filter fun e => e.die == die).length →
        exec (.openSeq die c) s = out 3 t) ∧
      (t.seqAt die m.id = none → (t.seqs.filter fun e => e.die == die).length < 16384 →
        let e : SeqEntry := { die := die, id := m.id, ctx := c, state := .run, pos := m.at_ 8 8, mark := m.at_ 8 8
                              seed := BitVec.ofNat 64 (m.at_ 0x10 8), pladdr := pl, npg := m.at_ 0x20 2 }
        let r := { t with seqs := t.seqs ++ [e] }.track die c m.id pl (m.at_ 0x20 2)
        exec (.openSeq die c) s = out (if r.2 = true then 0 else 5) r.1))) ∧
  (∀ s die c t m v, Msged s die c 2 t m v →
    let pl := m.at_ 0x18 8
    t.partWait c .part (t.inboxWants v die c ++ listWants pl (m.at_ 0x20 2)) = none →
    m.at_ 8 16 = 0 → m.at_ 0x22 30 = 0 → pl % 8 = 0 → pl < 2 ^ 54 →
    let out := fun (st : Nat) (u : State) => Host.Outcome.next (u.applied die c v m st (m.bytes.drop 8))
    (t.runEntry die c m.id = none → exec (.extend die c) s = out 2 t) ∧
    (∀ e, t.runEntry die c m.id = some e →
      let r := (t.modSeq die m.id fun e => { e with pladdr := pl, npg := m.at_ 0x20 2 }).track die c m.id pl (m.at_ 0x20 2)
      exec (.extend die c) s = out (if r.2 = true then 0 else 5) r.1)) ∧
  (∀ s die c t m v k, Msged s die c k t m v → t.partWait c .part (t.inboxWants v die c) = none →
    let out := fun (st : Nat) (u : State) => Host.Outcome.next (u.applied die c v m st (m.bytes.drop 8))
    (k = 3 → m.at_ 0x10 48 = 0 →
      (t.runEntry die c m.id = none → exec (.draft die c) s = out 2 t) ∧
      ∀ e, t.runEntry die c m.id = some e → exec (.draft die c) s = (
        if e.pos ≤ m.at_ 8 8 ∧ m.at_ 8 8 ≤ e.pos + 256 then out 0 (t.modSeq die m.id fun e => { e with mark := m.at_ 8 8 })
        else out 4 t)) ∧
    (k = 5 → m.at_ 8 56 = 0 →
      (t.seqAt die m.id = none → exec (.closeSeq die c) s = out 2 t) ∧
      ∀ e, t.seqAt die m.id = some e → exec (.closeSeq die c) s = (
        if e.ctx = c ∧ e.state ≠ .moving then out 0 ((t.dropSeq die m.id).untrack die c m.id) else out 2 t)) ∧
    (k = 6 → m.at_ 9 55 = 0 →
      (t.runEntry die c m.id = none → exec (.give die c) s = out 2 t) ∧
      ∀ e, t.runEntry die c m.id = some e →
        let dest := m.at_ 8 1
        let r := t.ringOf die
        let load := leBytes 8 e.pos ++ leBytes 8 e.seed.toNat ++ leBytes 8 e.pladdr ++ leBytes 2 e.npg
        let u := t.modSeq die m.id fun e => { e with state := .moving, mark := e.pos }
        exec (.give die c) s = (
          if dest ≠ r.1 ∧ dest < 8 / t.ringSize then
            out 0 { u with sending := u.sending ++ [partMsg die (t.ringSize * dest + r.2) c 0x80 m.id load] }
          else out 4 t)) ∧
    (k = 7 → exec (.note die c) s = out 0 t)) ∧
  (∀ s die c t m v, Msged s die c 4 t m v →
    let last := m.at_ 0x11 1
    let head : Bool := last.testBit 0 && (t.ringOf die).2 = 0
    let ring := (t.ringOf die).1
    let n := m.at_ 0x10 1
    let newpos := m.at_ 8 8
    t.partWait c .part (t.inboxWants v die c ++ (if head then t.hostWants v ring c (n % 16) else [])) = none →
    last < 4 → m.at_ 0x12 14 = 0 →
    let out := fun (st : Nat) => Host.Outcome.next (t.applied die c v m st (m.bytes.drop 8))
    (t.runEntry die c m.id = none → exec (.token die c) s = out 2) ∧
    ∀ e, t.runEntry die c m.id = some e →
      (n = 0 ∨ 8 < n ∨ newpos ≠ e.pos + n → exec (.token die c) s = out 4) ∧
      (1 ≤ n → n ≤ 8 → newpos = e.pos + n →
        (e.npg * v.pt < newpos → exec (.token die c) s = out 6) ∧
        (newpos ≤ e.npg * v.pt →
          let dest := min newpos (e.mark + 1)
          let k := dest - e.pos
          let ends : Bool := last.testBit 1 && k = n
          (head = true → k ≠ 0 → t.hostRoom v ring c k = true) →
          let u := (t.modSeq die m.id fun e =>
            { e with pos := dest, mark := dest, state := if ends then .done else e.state }).applied die c v m
              (if newpos ≤ e.mark + 1 then 0 else 1) (leBytes 8 dest ++ leBytes 1 k ++ m.bytes.drop 0x11)
          let tokens := (List.range k).map fun i => hostEntry m.id (m.at_ (0x20 + 4 * i) 4) ((dest - k + i) % 2 ^ 32)
            (if ends = true ∧ i + 1 = k then 1 else 0)
          exec (.token die c) s = .next (if head = true ∧ k ≠ 0 then u.publish v ring c tokens else u)))) ∧
  (∀ s die c t m v, Msged s die c 0x80 t m v →
    t.partWait c .part (t.inboxWants v die c ++ listWants (m.at_ 0x18 8) (m.at_ 0x20 2)) = none →
    let u := t.takeMsg die c
    let e : SeqEntry := { die := die, id := m.id, ctx := c, state := .run, pos := m.at_ 8 8, mark := m.at_ 8 8
                          seed := BitVec.ofNat 64 (m.at_ 0x10 8), pladdr := m.at_ 0x18 8, npg := m.at_ 0x20 2 }
    let r := (({ u with seqs := u.seqs ++ [e] }).untrack m.src c m.id).track die c m.id e.pladdr e.npg
    let w := r.1.inboxPut v die c (inboxHead (if r.2 = true then 0 else 5) m.id m.src die 0x92 ++ leBytes 8 (m.at_ 8 8))
    (t.adopts die m = true →
      exec (.adopt die c) s = .next { w with sending := w.sending ++ [partMsg die m.src c 0x81 m.id []] }) ∧
    (t.adopts die m = false →
      exec (.adopt die c) s = .next { u with sending := u.sending ++ [partMsg die m.src c 0x82 m.id []] })) ∧
  (∀ s die c t m v, Msged s die c 0x81 t m v → exec (.ack die c) s = .next ((t.takeMsg die c).dropSeq die m.id)) ∧
  (∀ s die c t m v, Msged s die c 0x82 t m v → t.partWait c .part (t.inboxWants v die c) = none →
    exec (.refuse die c) s = .next (((t.takeMsg die c).modSeq die m.id fun e => { e with state := .run }).inboxPut v die c
      (inboxHead 0 m.id m.src die 0x93 ++ leBytes 8 m.src))) ∧
  (∀ s line k e v, s.kvOwner line = some (k, e, v) → s.moving k = false →
    let r := s.ringOf k.die
    let dies := (List.range s.ringSize).map fun i => s.ringSize * r.1 + i
    let p := k.idx * v.pt + (128 * line - k.pa) * v.pt / 2 ^ v.log2kv
    let clean := { s.writeBytes (located (128 * line) (List.replicate 128 0)) with poison := s.poison.filter (· != line) }
    let mods := fun (f : SeqEntry → SeqEntry) =>
      dies.foldl (fun s d => s.modSeq d e.id fun x => if x.ctx = k.ctx then f x else x) clean
    let noted := fun (s : State) (type : Nat) (body : List Byte) =>
      dies.foldl (fun s d => s.inboxPut v d k.ctx (inboxHead 0 e.id k.die d type ++ body)) s
    let room := s.partWait k.ctx .part ((dies.flatMap fun d => s.inboxWants v d k.ctx) ++
        (if p + 1 < e.pos then s.hostWants v r.1 k.ctx 1 else [])) = none ∧
      (∀ d ∈ dies, s.inboxRoom v d k.ctx = true) ∧ (p + 1 < e.pos → s.hostRoom v r.1 k.ctx 1 = true)
    (e.mark ≤ p → e.pos ≤ p + 1 → exec (.kvError line) s = .next (clean.errRecord 0x0133 (linePath line) (128 * line) k.ctx 0)) ∧
    (p < e.mark → e.pos ≤ p + 1 → room → exec (.kvError line) s = .next
      ((noted (mods fun x => { x with mark := p }) 0x90 (leBytes 8 p ++ leBytes 8 p)).errRecord 0x0132 (linePath line) (128 * line) k.ctx 0)) ∧
    (p + 1 < e.pos → room → exec (.kvError line) s = .next (((noted (mods fun x => { x with state := .fenced }) 0x91
      (leBytes 8 p)).publish v r.1 k.ctx [hostEntry e.id 0xFFFFFFFF (p % 2 ^ 32) 2]).errRecord 0x0134 (linePath line) e.id k.ctx
        (e.id % 2 ^ 16))))

/-- R403 to R409: service queues take records in order, calls have the results the spec gives, lent pages come back, ports
change; a new socket's id is a free value (log 13). Which calls have their result as they are taken, that SEND's bytes are those
of that moment, the results −1, the order of a queue's completions, and SQHEAD and SQTAIL kept as a queue is disabled are the
model's readings (log 44). -/
def Obligations.GafferEvents : Prop :=
  (∀ s q, q < 64 → ((aget s.svc q).map SvcQueue.on).getD false = false → s.outOfService (gafferPath q) = false →
    exec (.serviceQueueEnable q) s =
      .next ({ s with svc := aset s.svc q (SvcQueue.start (((aget s.svc q).map SvcQueue.detail).getD 0)) }.setReg (svcBlock q + 8)
        (s.reg (svcBlock q + 8) 0 ||| 1))) ∧
  (∀ s q x, aget s.svc q = some x →
    let put := fun (y : SvcQueue) => { s with svc := aset s.svc q y }
    (x.on = true → x.calls = [] → exec (.serviceQueueDisable q) s =
      .next ((put { x with on := false, closing := false, stopped := false }).setReg (svcBlock q + 8)
        (s.reg (svcBlock q + 8) 0 &&& ~~~1#64))) ∧
    (x.on = true → x.calls ≠ [] → exec (.serviceQueueDisable q) s = .next (put { x with closing := true })) ∧
    (∀ c (v : DWord), exec (.notify q c v) s = .next (
      if q < 64 ∧ s.svcCtx q = c ∧ x.tail ≤ v.toNat ∧ v.toNat - x.head ≤ 2 ^ bits64 (s.reg (svcBlock q) 0) 0 5 then
        put { x with tail := v.toNat } else s)) ∧
    (x.on = true → x.stopped = false → x.head < x.tail → x.lastRead + 1024 ≤ s.cycle →
      exec (.recordReread q) s = .next (put { x with lastRead := s.cycle }))) ∧
  (∀ s q r, Calls s q 1 r → r.lend = false → r.arg % 4 ≠ 3 → r.arg / 4 % 64 = 0 → r.arg / 2 ^ 11 = 0 →
    let k := s.addSock (s.svcCtx q) (r.arg % 4) (r.arg / 256 % 8) []
    exec (.socket q) s = k.2.taken q r (some k.1)) ∧
  (∀ s q op r k, Calls s q op r → r.lend = false → s.sock? (s.svcCtx q) r.sock = some k →
    let c := s.svcCtx q
    let set := fun (f : Socket → Socket) => s.modSock c r.sock f
    (let b := s.bufferBytes c r.buf 32
     s.partWait c .part (bufferParts r.buf 32 false) = none → s.partFail c .part (bufferParts r.buf 32 false) = none →
     (leNat (b.take 2) = 4 ∨ leNat (b.take 2) = 6) → leNat (b.drop 28) = 0 →
     (op = 2 → exec (.bind q) s = (set fun k => { k with bound := b }).taken q r (some 0)) ∧
     (op = 3 → exec (.connect q) s =
       (set fun k => { k with peer := b }).taken q r (if k.kind = 1 then some 0 else none))) ∧
    (op = 4 → exec (.listen q) s =
      if 1 ≤ r.arg ∧ r.arg ≤ 1024 then (set fun k => { k with backlog := r.arg }).taken q r (some 0) else s.taken q r (some (-1))) ∧
    (op = 5 → exec (.acceptConn q) s = s.taken q r none) ∧
    (op = 8 → exec (.socketClose q) s =
      (set fun k => { k with closed := true }).dropClosed.taken q r (some 0))) ∧
  (∀ s q op r, Calls s q op r → r.lend = false → s.sock? (s.svcCtx q) r.sock = none →
    ∀ e ∈ [(2, Instr.bind q), (3, .connect q), (4, .listen q), (5, .acceptConn q), (6, .send q), (7, .recv q), (8, .socketClose q),
      (9, .rdwrite q), (10, .rdread q)], op = e.1 → exec e.2 s = s.taken q r (some (-2))) ∧
  (∀ s q op r k, Calls s q op r → s.sock? (s.svcCtx q) r.sock = some k →
    ∀ e ∈ [(6, Instr.send q, false), (7, .recv q, true), (9, .rdwrite q, false), (10, .rdread q, true)], op = e.1 →
    (8 < op → k.kind ≠ 2 → exec e.2.1 s = s.taken q r (some (-2))) ∧
    ((8 < op → k.kind = 2) →
      let c := s.svcCtx q
      let ps := pagesOf r.buf r.len
      let sent := fun (u : State) =>
        (if e.2.2 = true then u
         else u.emit (.net q k (if op = 9 then r.arg else 0) (s.bufferBytes c r.buf r.len))).taken q r none
      let loan : Lent := { ctx := c, spans := (ps.map fun p => s.pageSpan c (4096 * p)).eraseDups, queue := q, num := r.seq - 1
                           rword := some r.rword, recv := e.2.2, finished := false }
      (r.lend = true → (r.buf % 4096 ≠ 0 ∨ r.len % 4096 ≠ 0) → exec e.2.1 s = s.taken q r (some (-1))) ∧
      (r.lend = true → r.buf % 4096 = 0 → r.len % 4096 = 0 → (∃ p ∈ ps, s.lentPage c p = true) →
        exec e.2.1 s = s.taken q r (some (-8))) ∧
      ((r.lend = true → r.buf % 4096 = 0 ∧ r.len % 4096 = 0 ∧ (∀ p ∈ ps, s.lentPage c p = false) ∧ s.translating c = false) →
        s.partWait c .part (bufferParts r.buf r.len e.2.2) = none →
        (s.partFail c .part (bufferParts r.buf r.len e.2.2) = none →
          exec e.2.1 s = sent (if r.lend = true then s.lend loan else s)) ∧
        (s.partFail c .part (bufferParts r.buf r.len e.2.2) ≠ none → exec e.2.1 s = s.taken q r (some (-7)))))) ∧
  (∀ s q r, Calls s q 11 r → r.lend = false → r.arg ≤ 7 →
    let lanes := (aget s.fleet.ports r.arg).getD 0
    exec (.portq q) s = s.taken q r (some (((if lanes = 0 then 0 else 1) + lanes * 256 +
      bits64 (s.portCfg r.arg) 0 14 * 2 ^ 32 : Nat) : Int))) ∧
  (∀ s q x k rest outcome data, aget s.svc q = some x → x.calls = k :: rest →
    let c := s.svcCtx q
    let r : Rec := { b := k.bytes }
    let va := s.recordAt q k.num
    s.partWait c .part [(va + 0x38, 8, true), (r.cword, 8, true)] = none → s.fillWait c k outcome data.length = none →
    let e := match k.result with | some v => (v, s) | none => s.callEffect c r outcome data
    let ended := fun (d : Lent) => if d.queue = q ∧ d.num = k.num then { d with finished := true } else d
    let t := e.2.modSvc q fun x => { x with calls := rest }
    let u := { t with lent := t.lent.map ended }.dropClosed.partPut c .part (va + 0x38) 8 (BitVec.ofInt 64 e.1).toNat
    exec (.callCompletion q outcome data) s = .next (
      if s.wordOk c r.cword true = true then u.partPut c .part r.cword 8 (k.num + 1) else u.stopSvc q k.num)) ∧
  (∀ (s : State) (c : Nat) (r : Rec) (outcome : Int) (data : List Byte), (outcome < 0 → s.callEffect c r outcome data = (outcome, s)) ∧
    (0 ≤ outcome → r.op = 6 → s.callEffect c r outcome data = (min outcome r.len, s)) ∧
    (0 ≤ outcome → r.op = 9 → s.callEffect c r outcome data = ((r.len : Int), s)) ∧
    (0 ≤ outcome → r.op = 7 ∨ r.op = 10 → s.bufferTakes c r.buf (data.take r.len).length = false →
      s.callEffect c r outcome data = (-7, s)) ∧
    (0 ≤ outcome → r.op = 7 → s.bufferTakes c r.buf (data.take r.len).length = true → s.callEffect c r outcome data =
      (((data.take r.len).length : Int), s.fillBuffer c r.buf (data.take r.len))) ∧
    (0 ≤ outcome → r.op = 10 → s.bufferTakes c r.buf (data.take r.len).length = true → s.callEffect c r outcome data = ((r.len : Int), s.fillBuffer c r.buf (data.take r.len))) ∧
    (∀ k, 0 ≤ outcome → r.op = 5 → s.callSock c r.sock = some k →
      s.callEffect c r outcome data = ((s.newSockId : Int), (s.addSock c k.kind k.port data).2))) ∧
  (∀ s q k d, ((s.lent.findIdx? fun d => d.queue == q && d.free).or (s.lent.findIdx? fun d => d.queue == q && d.finished)) = some k →
    s.lent[k]? = some d →
    (d.rword = none → exec (.pageReturn q) s = .next { s with lent := dropAt s.lent k }) ∧
    (∀ w, d.rword = some w → s.partWait d.ctx .part [(w, 8, true)] = none → exec (.pageReturn q) s = .next
      (if s.wordOk d.ctx w false = true then { s with lent := dropAt s.lent k }.partPut d.ctx .part w 8 (d.num + 1)
       else { s with lent := dropAt s.lent k }.stopSvc q d.num))) ∧
  (∀ s p lanes, (p < 8 → 1 ≤ lanes → lanes + s.portFenced p ≤ 8 →
      exec (.portLinkUp p lanes) s = .next (s.setFleet { s.fleet with ports := aset s.fleet.ports p lanes })) ∧
    ∃ u, exec (.portDown p) s = .next u ∧ aget u.fleet.ports p = none ∧ u.mem = s.mem ∧
      ∀ q x, aget s.svc q = some x → ∃ y, aget u.svc q = some y ∧ y.head = x.head ∧
        ∀ k ∈ x.calls, k.result = none → ∀ a, s.callSock (s.svcCtx q) (Rec.sock { b := k.bytes }) = some a → a.port = p →
          a.kind ≠ 1 → { k with result := some (-6) } ∈ y.calls)

/-- R12, R13, R396, R411 to R423, R426, R427: self-test and fences take units out of service, errors are recorded, heat and
coolant act, resets leave what they leave, boot keys and images change as requests say, and registers take their RW fields.
The issue clock under a cap is a free value (log 13). The model's readings: the place of a request's parts and when an index counts
as accepted (log 30), how long a line stays in error (log 35), the table of vectors (log 42), what resets keep (logs 50, 84), what
ATTN and ATTOUT hold and which key signs (log 52), the paths of lanes and causes of fences (log 53), the version that an error in
SRAM strikes (log 73). -/
def Obligations.FleetEvents : Prop :=
  (∀ s path cause f, functionOf path = some f →
    (s.fenced f.path = true ∨ (cause = 0 ∧ f.path ≠ path) → exec (.fenceUnit path cause) s = .next s) ∧
    (s.fenced f.path = false → (cause ≠ 0 ∨ f.path = path) → exec (.fenceUnit path cause) s =
      .next ((({ s with fleet := { s.fleet with fences := s.fleet.fences ++ [f.path] } }).fenceEffect f).errRecord 0x0141 path 0 0xFFFF
        cause))) ∧
  (∀ s path, (s.fleet.bist = 0 → testable path = true →
      exec (.bistRun path) s = .next (s.setFleet { s.fleet with bist := 1, testing := path })) ∧
    (s.fleet.bist ≠ 0 → exec (.bistRun path) s = .next (s.setFleet { s.fleet with fails := BitVec.allOnes 32 }))) ∧
  (∀ s pass path test,
    (s.fleet.bist = 1 → s.unitEmpty s.fleet.testing = true →
      ∃ u, exec (.bistTest pass path test) s = .next u ∧ u.fleet = { s.fleet with bist := 2 } ∧
        ∀ pa, (pKind s.fleet.testing ≠ 0x0A ∨ pa / 0x000C00000000 ≠ 2 * pDie s.fleet.testing + pIdx s.fleet.testing) →
          u.byteAt pa = s.byteAt pa) ∧
    (s.fleet.bist = 2 →
      let bad := (if pass = true then [] else path.zip test).filter fun p => inUnit s.fleet.testing p.1
      let one := fun (s : State) (p : Word × Nat) =>
        (match functionOf p.1 with | some g => s.fence g | none => s).errRecord 0x0140 p.1 0 0xFFFF p.2
      exec (.bistTest pass path test) s = .next (bad.foldl one
        (s.setFleet { s.fleet with bist := 0, testing := 0, fails := BitVec.ofNat 32 bad.length })))) ∧
  (∀ s b rest, s.fleet.errors = b :: rest →
    let t := s.setFleet { s.fleet with errors := rest }
    (s.ringRoom 0x2020000 = true → exec .errorRecordWrite s = .next (t.putRecord 0x2020000 32 b)) ∧
    (s.ringRoom 0x2020000 = false → s.ringLen 0x2020000 ≠ 0 → (leNat (b.take 1) = 0 ∨ leNat (b.take 1) = 4) →
      exec .errorRecordWrite s = .next (t.setFleet { t.fleet with dropped := t.fleet.dropped + 1 }))) ∧
  (∀ s path line detail,
    let bad := if s.poison.contains line = true then s else { s with poison := s.poison ++ [line] }
    (∀ k ∈ [(MemErr.hbm, 0x0100), (.lpddr, 0x0102)],
      exec (.memoryError k.1 true path line detail) s = .next (s.errRecord k.2 path (128 * line) 0xFFFF detail) ∧
      (s.kvOwner line = none → exec (.memoryError k.1 false path line detail) s =
        .next (bad.errRecord (k.2 + 1) path (128 * line) 0xFFFF detail)) ∧
      (s.kvOwner line ≠ none → exec (.memoryError k.1 false path line detail) s = .next bad)) ∧
    (let pa := if holdsLines path = true then 128 * line else 0
     let u := (if holdsLines path = true then bad else s).errRecord 0x0111 path pa 0xFFFF 0
     exec (.memoryError .sram true path line detail) s = .next (s.errRecord 0x0110 path pa 0xFFFF 0) ∧
     ((holdsLines path = true → s.versionAt line = none) →
       (functionOf path = none → exec (.memoryError .sram false path line detail) s = .next u) ∧
       ∀ f, functionOf path = some f → exec (.memoryError .sram false path line detail) s = .next (
         if u.fenced f.path = true then u else (u.fence f).errRecord 0x0141 path 0 0xFFFF 0x0111)))) ∧
  (∀ s path line detail,
    exec (.memoryError .store true path line detail) s = .next (s.errRecord 0x0100 path (128 * line) 0xFFFF detail) ∧
    (s.versionAt line = none →
      exec (.memoryError .store false path line detail) s = .next (s.errRecord 0x0101 path (128 * line) 0xFFFF detail)) ∧
    ∀ t n, s.versionAt line = some (t, n) → holdsLines path = true → ∀ k ∈ [MemErr.sram, .store],
      exec (.memoryError k false path line detail) s =
        .next ((s.loseVersions t n).errRecord 0x0131 path (128 * line) 0xFFFF (((s.qcp? t).map Qcp.qid).getD 0))) ∧
  (∀ s path lane, exec (.linkFlitReplayed path lane) s = .next (s.errRecord 0x0120 path 0 0xFFFF lane) ∧
    (∀ p, functionOf (lanePath path lane) = some (.lane p) → s.fenced p = false →
      exec (.linkLaneFailed path lane) s = .next ((s.fence (.lane p)).errRecord 0x0121 p 0 0xFFFF lane) ∧
      (s.fence (.lane p)).mem = s.mem ∧ (s.fence (.lane p)).fenced p = true ∧
      (pKind path = 0x14 → aget (s.fence (.lane p)).fleet.ports (pIdx path) =
        (aget s.fleet.ports (pIdx path)).bind fun n => if n ≤ 1 then none else some (n - 1)))) ∧
  (∀ s die celsius,
    let hot := aset s.fleet.temps die celsius
    (95 < celsius → celsius < 105 → die ≤ 8 → s.fleet.throttled.contains die = false → exec (.thermalThrottle die celsius) s =
      .next ((s.setFleet { s.fleet with temps := hot, throttled := s.fleet.throttled ++ [die] }).errRecord 0x0150 (diePath die) 0 0xFFFF
        celsius)) ∧
    (105 ≤ celsius → celsius ≤ 255 → die ≤ 8 → s.fleet.tripped = false → exec (.thermalTrip die celsius) s =
      .next ((s.setFleet { s.fleet with tripped := true, temps := hot }).errRecord 0x0151 (diePath die) 0 0xFFFF celsius))) ∧
  (∀ s dlpm, (dlpm < 30 → s.fleet.coolant = false → exec (.coolantFlowLow dlpm) s =
      .next ((s.setFleet { s.fleet with coolant := true }).errRecord 0x0153 pmcPath 0 0xFFFF dlpm)) ∧
    (30 ≤ dlpm → exec (.coolantFlowRestored dlpm) s = .next (s.setFleet { s.fleet with coolant := false }))) ∧
  (∀ s, (4600 ≤ s.watts → s.fleet.throttled = [] →
      exec .powerCapCorrection s = .next (s.setFleet { s.fleet with mhz := 2400, slow := [] })) ∧
    ((s.watts < 4600 ∨ s.fleet.throttled ≠ []) → ∃ u, exec .powerCapCorrection s = .next u ∧ u.mem = s.mem ∧
      u.fleet.mhz ∈ ((List.range 13).map fun k => 1200 + 100 * k) ∧ (4600 ≤ s.watts → u.fleet.mhz = 2400) ∧
      (∀ p ∈ u.fleet.slow, p.1 ∈ u.fleet.throttled ∧ 1200 ≤ p.2 ∧ p.2 ≤ u.fleet.mhz) ∧
      ∀ d, d ∈ u.fleet.throttled ↔ d ∈ s.fleet.throttled ∧ 95 < (Config.sensor (s.free + 1 + d)).toNat)) ∧
  (∀ s start, ∃ u, exec (.coldReset start) s = .next u ∧ u.boot.strap = start.strap ∧ u.ctxs = [] ∧ u.teams = [] ∧ u.threads = [] ∧ u.launches = [] ∧
    u.chains = [] ∧ u.bar = [] ∧ u.written = [] ∧ u.cycle = 0 ∧ u.poison = [] ∧
    (∀ b ∈ s.fleet.fatal, b ∈ u.fleet.fatal) ∧ u.boot.writing = none ∧
    u.mem = s.mem.filter (fun p => Config.hostBase ≤ p.1) ∧ u.fleet.fails = BitVec.ofNat 32 start.failed.length ∧
    u.fleet.fences = (start.failed.filterMap fun p => functionOf p.1).eraseDups.map Function.path) ∧
  (∀ s, ∃ u, exec .warmReset s = .next u ∧ u.ctxs = [] ∧ u.teams = [] ∧ u.chains = [] ∧ u.errs = s.errs ∧
    (∀ p ∈ u.threads, p.2.state = .unmapped) ∧
    (∀ t q, s.qcp? t = some q → ∃ r, u.qcp? t = some r ∧ r.qmap = q.qmap &&& ~~~1#64 ∧ r.wptr = q.wptr ∧ r.rptr = q.rptr ∧
      r.qfault = q.qfault) ∧
    (∀ q x, aget s.svc q = some x → ∃ y, aget u.svc q = some y ∧ y.on = false ∧ y.head = x.head ∧ y.tail = x.tail ∧ y.detail = x.detail) ∧
    (∀ b ∈ s.fleet.fatal, b ∈ u.fleet.errors) ∧
    u.mem = s.mem ∧ u.fleet.fences = s.fleet.fences ∧ u.boot = s.boot ∧ u.reg 0x200 0 = s.reg 0x200 0 ∧
    ∀ c < 1024, (u.reg (ctxBlock c) 0).getLsbD 0 = false) ∧
  (∀ b : Boot, b.owners.length ≤ 4 → b.tries (some Image.torn) = some 0x0163) ∧
  (∀ s, ∀ e ∈ [(0, Instr.writeSlotA), (1, .writeSlotB)],
    let r := s.mailbox
    let slot := fun (b : Boot) => if e.1 = 0 then b.slotA else b.slotB
    (∀ i, s.boot.writing = some (e.1, i) → ∃ u, exec e.2 s = .next u ∧ u.boot.result = 0 ∧ slot u.boot = some i ∧
      u.boot.writing = none ∧ u.boot.ran = s.boot.ran) ∧
    (s.boot.writing = none → s.boot.ran = e.1 → exec e.2 s = .next (s.finishCommand 4)) ∧
    (s.boot.writing = none → s.boot.ran ≠ e.1 → match s.boot.signer [0, 1, 2, 3, 4] r with
      | none => exec e.2 s = .next ((s.slotRecord 0x0163 (s.boot.slotOf r)).finishCommand 1)
      | some k =>
        if sigIndex r.sig ≤ s.boot.counters.getD k 0 then
          exec e.2 s = .next ((s.slotRecord 0x0162 (if k = 0 then none else some (k - 1))).finishCommand 2)
        else ∃ u, exec e.2 s = .next u ∧ slot u.boot = some Image.torn ∧
          u.boot.writing = some (e.1, { key := k, index := sigIndex r.sig, digest := digest r.body }) ∧
          (k < s.boot.counters.length → u.boot.counters.getD k 0 = sigIndex r.sig) ∧ u.boot.ran = s.boot.ran)) ∧
  (∀ s,
    let r := s.mailbox
    let signed := s.boot.signer [1, 2, 3, 4] r
    (s.boot.ran ≠ 2 → ∀ i ∈ [Instr.enrolOwnerKey, .revokeOwnerKey, .setVendoff], exec i s = .next (s.finishCommand 4)) ∧
    (∀ n, s.boot.ran = 2 → (s.boot.strap = true ∨ signed ≠ none) → s.boot.owners.findIdx? Option.isNone = some n →
      ∃ u, exec .enrolOwnerKey s = .next u ∧ u.boot.result = 0 ∧ u.boot.owners[n]? =
        some (some (digest (if s.boot.strap = true then s.requestBytes else r.body), false)) ∧
      ∀ k, signed = some k → u.boot.counters =
        if s.boot.strap = true then s.boot.counters else (s.boot.accepted k (sigIndex r.sig)).counters) ∧
    (s.boot.strap = false → signed = none → exec .enrolOwnerKey s = .next (s.finishCommand 4)) ∧
    (∀ k, s.boot.ran = 2 → s.boot.owners[leNat (r.body.take 1)]? = some (some k) →
      if signed = none then exec .revokeOwnerKey s = .next (s.finishCommand 4)
      else ∃ u, exec .revokeOwnerKey s = .next u ∧ u.boot.result = 0 ∧
        u.boot.owners[leNat (r.body.take 1)]? = some (some (k.1, true)) ∧
        ∀ j, signed = some j → u.boot.counters = (s.boot.accepted j (sigIndex r.sig)).counters) ∧
    (s.boot.ran = 2 → match signed with
      | none => exec .setVendoff s = .next (s.finishCommand 4)
      | some k => exec .setVendoff s =
        .next ({ s with boot := { s.boot.accepted k (sigIndex r.sig) with vendoff := true } }.finishCommand 0))) ∧
  (∀ s nonce output, s.boot.ran ≠ 2 → s.boot.reports < 2 ^ 23 → ∃ u b, exec (.attestationReport nonce output) s = .next u ∧
    u.boot = { s.boot with reports := s.boot.reports + 1 } ∧ u.mem = memWrite s.mem (located output.toNat b) ∧
    b.length = 256 + 2820 ∧ (b.drop 4).take 4 = leBytes 4 (s.boot.reports / 2 ^ 20) ∧ (b.drop 16).take 32 = s.bytesAt nonce.toNat 32) ∧
  (∀ s off value bytes, off % 8 = 0 →
    let m := byteMask bytes
    let old := s.reg off (regReset off)
    let v := (old &&& ~~~m) ||| (value &&& m)
    let kept := (0x100000 ≤ off ∧ off < 0x110000 ∧ off % 0x40 = 0x10) ∨ (0x300000 ≤ off ∧ off < 0x304000 ∧ off % 0x100 = 0x18) ∨
      off = 0x2050000
    let t := if s.regFields off v = [] then s
      else s.setReg off (setFields old v (s.regFields off v) &&& ~~~(w1cBits off &&& value &&& m))
    (¬ kept → exec (.registerWrite off value bytes) s =
      .next (if 0x1000000 ≤ off ∧ off < 0x1008000 then t.sendPending ((off - 0x1000000) / 16) else t)))

/-- R106, R122, R131, R357, R358: decode steps 4 to 6 in their order, each with its fault code: a privileged opcode, a feature
that is off, a prefix that the row does not accept, a name of the wrong kind; the fault stops the group with a STOPID and one
fault record, and nothing of the instruction executes. -/
def Obligations.DecodeFaults : Prop :=
  (∀ s i op f x, i.fform = some (op, f) → openGang s f.pfx = some x →
    (0xC8 ≤ op → op ≤ 0xCB → x.privileged = false → exec i s = .next (x.fault x.s 0x0004)) ∧
    (∀ e ∈ [(0xB8, 3), (0xB9, 3), (0xBD, 4), (0xBE, 4), (0xCF, 5), (0xD0, 0)], op = e.1 → x.feat.testBit e.2 = false →
      exec i s = .next (x.fault x.s 0x0005)) ∧
    (op ∈ [0xA0, 0x56, 0x57] → f.ty = .packed → f.fn = 1 → x.feat.testBit 2 = false → exec i s = .next (x.fault x.s 0x0005)) ∧
    (∀ r, x.step4 op f = none → rowOf op = some r →
      (r.prefixOk op f = false → exec i s = .next (x.fault x.s 0x0003)) ∧
      (r.prefixOk op f = true → x.namesOk (r.used op f) f = false → exec i s = .next (x.fault x.s 0x0002)))) ∧
  (∀ s p x code, openGang s p = some x → code ≠ 0 → x.c.lanes ≠ 0 → x.g.inRegion &&& x.c.lanes = 0 →
    x.g.silent = false → s.predicted x.t = false →
    let u := x.fault s code
    ∃ id rcd, u.grp? x.c.g = some { x.g with stop := some { id := id, code := code, kind := .reexec }, step := none } ∧
      u.records = s.records ++ [rcd] ∧ leNat (rcd.take 2) = code % 65536 ∧ u.mem = s.mem)

/-- R17, R53, R104, R106: what an instruction changes that goes on at the next one with its gang's registers changed (every
result of a VecResult, MaskResult, UniResult or DrawResult): those registers and the gang's PCs and nothing else, so that every
byte of memory, every other group, lane and system register, and all else of the part stay as they were. -/
def Obligations.GangFrame : Prop :=
  ∀ s p x f, openGang s p = some x → (f x.g).lanes = x.g.lanes →
    let u := x.done x.s f
    x.s = s ∧ { u with teams := s.teams } = s ∧ SameMemory s u ∧ (∀ r, r ≠ x.c.g → u.grp? r = s.grp? r) ∧
    (∀ n t, s.team? n = some t → ∃ v, u.team? n = some v ∧ { v with groups := t.groups } = t) ∧
    ∃ h, u.grp? x.c.g = some h ∧ { h with lanes := x.g.lanes } = f x.g ∧
      ∀ i, h.lanes[i]? = x.g.lanes[i]?.map fun l =>
        if x.c.lanes.getLsbD i then { l with pc := x.c.pc + (if p.isSome then 12 else 8), wait := .none } else l

/-- R21, R22, R43, R87, R106: the issuing gang's parcels are fetched at its PC, and when they decode, a step runs the instruction
they stand for, that of the second gang of a cycle as if the group had neither trapped nor stopped since the cycle began; a page of
plain memory gives its bytes. An event row that is next runs as its own step. -/
def Obligations.StepRunsDecoded : Prop :=
  (∀ s k rest r c t x bs i n, s.second = none → s.schedule = .issue k :: rest → s.fleet.tripped = false →
    { s with schedule := rest }.pick k = some r → { s with schedule := rest }.issueGroup r = some (c, t) →
    let u := { t with cur := some c }
    openGang u none = some x → t.fetch x.t c.g (lowest c.lanes) c.pc = .parcel bs → decode bs = .ok (i, n) →
    (t.deliverable c.g c.lanes = none ∨ ∃ p q, i = .dual p q) →
    ∀ w, exec i u = .next w → step s = .next (w.afterGang c)) ∧
  (∀ s c d t g x bs i n, s.second = some c → { s with second := none }.besideTrap c = (t, d) →
    let u := { t with cur := some d }
    t.grp? c.g = some g → g.stands c = true → openGang u none = some x →
    t.fetch x.t d.g (lowest d.lanes) d.pc = .parcel bs → decode bs = .ok (i, n) →
    (t.deliverable d.g d.lanes = none ∨ d.first.isSome = true ∨ ∃ p q, i = .dual p q) →
    ∀ w, exec i u = .next w → step s = .next ((u.settleSecond d w).afterGang d)) ∧
  (∀ (s t : State) i rest, s.second = none → s.schedule = .event i :: rest → (s.fleet.tripped = false ∨ afterTrip i = true) →
    exec i { s with schedule := rest } = .next t → step s = .next t.wake.endSteps) ∧
  (∀ (s : State) (t : Team) (r : GRef) (lane va : Nat) (l : Leaf), va < 2 ^ 54 →
    s.reach t.ctx (.lane r lane) va .x 4 = .ok l → s.ownerOf (l.pa / 128) = none →
    (l.lines 4).any (s.marked (some t.clusterSid)) = false → s.coh.lacks (halvesOf l.pa 4) false = [] → l.mxa = none →
    l.vers = false → notifyPa l.pa = false → s.poisoned l 4 = false → s.fetchParcel t r lane va = .parcel (s.bytesAt l.pa 4))

/-- R87 to R91, R93 to R96, R99, R103: words of the spec's own encodings decode to the instructions they stand for. -/
def Obligations.DecodeWords : Prop :=
  let f : FForm := { sp := false, ty := .f32, fn := 0, x := 0, d := .v 4, a := .v 5, b := .reg (.v 6), pfx := none }
  decodeTableWord 64 0x001802C030001005 = some (.fadd f) ∧
  decodeTableWord 64 0x101B12C030001005 = some (.fadd { f with b := .pat (.v 6) (.pm 4) }) ∧
  decodeTableWord 96 0x001802C033001005F2A01C00 =
    some (.fma { f with pfx := some { mask := 2, z := true, rm := .rtz, c := .v 7, sat := .cvm } }) ∧
  decodeTableWord 64 0x2FFFD14001002009 =
    some (.iadd { f with ty := .i32, d := .v 8, a := .v 9, b := .imm 0xFFFD }) ∧
  decodeTableWord 64 0x001802D380002A84 = some (.ld { f with x := 0x13, d := .v 10, a := .s 4 }) ∧
  decodeTableWord 64 0x6FFFA000700002E0 =
    some (.bra { f with sp := true, ty := .b32, d := .v 0, a := .m 0, b := .imm 0xFFFA }) ∧
  decodeTableWord 64 0xB806051002040400 = some (.dual { op := .iadd, ty := .i32, a := .v 4, b := .reg (.v 8) }
    { op := .fmul, ty := .f32, a := .v 6, b := .reg (.v 10) }) ∧
  decodeTableWord 64 0x2000C3C01A2B8800 = none ∧ decodeTableWord 64 0x2000C1402B2B8800 = none

/-- R87, R90, R91, R93 to R96, R99, R101, R103: every well-formed instruction's own parcels decode to it again, with every
operand at every value that its encoding admits. -/
def Obligations.RoundTrip : Prop :=
  ∀ i, WellFormed i = true → encode i ≠ [] →
    decode (encodeBytes i) = .ok (i, (encodeBytes i).length)

/-- R6, R12, R20, R55 to R59, R335, R409, R426: what a cold reset leaves, and what a group starts with. That memory lists nothing
after reset and that no unit is fenced in a part that is whole are the model's choices (logs 2, 10). -/
def Obligations.ResetState : Prop :=
  State.reset.cycle = 0 ∧ State.reset.ctxs = [] ∧ State.reset.teams = [] ∧ State.reset.launches = [] ∧ State.reset.threads = [] ∧
  State.reset.chains = [] ∧ State.reset.mem = [] ∧ State.reset.svc = [] ∧ State.reset.fleet.fences = [] ∧ State.reset.Inv ∧
  State.reset.barRead 0x7F0000 = 8 ∧ State.reset.barRead 0x7F0100 = 65536 ∧ State.reset.barRead 0x2040000 = 4600 ∧
  State.reset.barRead 0x308000 = 0x10005DC ∧ State.reset.barRead 0x200 = 0 ∧
  ∀ k pc rng core, let g := Group.start k pc rng core
    (∀ pos lane, g.vreg pos lane = 0) ∧ (∀ n lane, g.sreg lane n = 0) ∧ (∀ n, g.mreg n = 0) ∧ g.pri = 8 ∧
    g.cvm = 0x99991911#64 ∧ g.tvec = 0 ∧ g.sbot = 0 ∧ g.nseg = k.bseg ∧ g.live = BitVec.allOnes 32

/-- The model's canonical form (log 2): every step keeps memory a rising list without an entry that reads as an unlisted one. -/
def Obligations.StepKeepsMemoryForm : Prop := ∀ s t, s.Inv → step s = .next t → t.Inv

/-- R106, R357: faults, traps and refused commands are next states: no step stops the part. An event whose conditions do not hold
leaves the state as it is (log 49). -/
def Obligations.StepAlwaysNext : Prop := ∀ s, ∃ t, step s = .next t
end

