-- ==== Sys2Proof/Laws/Access.lean ====
section
/-! SUPPORT. What the shared operations of an access do: the checks of a gang's accesses, the drains that an instruction waits
for, and a page table that maps low addresses onto themselves. -/

namespace Sys2Proof.Machine

open Sys2Proof

/-! ### Gathering -/

/-- Accesses whose checks all pass are ready, each with its page. -/
theorem gather_ready {x : Gx} {ws : List Want} (lf : Want → Leaf) (h : ∀ w ∈ ws, x.chk x.s w = .ok (lf w))
    (hr : x.noRoom x.s (ws.map fun w => (w, lf w)) = false) (hu : x.g.unresolved = 0) :
    Passed x ws (ws.map fun w => (w, lf w)) := by
  have hm : (ws.map fun w => (w, x.chk x.s w)) = ws.map fun w => (w, Chk.ok (lf w)) :=
    List.map_congr_left fun w hw => by rw [h w hw]
  have hl : ∀ ws : List Want, ((ws.map fun w => (w, Chk.ok (lf w))).takeWhile fun p => !p.2.bad) = ws.map fun w => (w, Chk.ok (lf w)) := by
    intro ws; induction ws <;> simp_all [Chk.bad]
  have hn : (ws.map fun w => (w, Chk.ok (lf w))).any (fun p => p.2.bad) = false := by simp [Chk.bad]
  have hf : (ws.map fun w => (w, Chk.ok (lf w))).filter (fun p => !p.2.good) = [] := by
    simp [List.filter_eq_nil_iff, Chk.good]
  have hb : (ws.map fun w => (w, Chk.ok (lf w))).find? (fun p => p.2.bad) = none := by simp [Chk.bad]
  have hs : ∀ f : Want × Chk → Option (Want × Leaf), (∀ w l, f (w, .ok l) = some (w, l)) →
      (ws.map fun w => (w, Chk.ok (lf w))).filterMap f = ws.map fun w => (w, lf w) := by
    intro f hf; simp only [List.filterMap_map, Function.comp_def, hf, List.filterMap_eq_map']
  refine ⟨?_, hu⟩
  unfold Gx.gather
  simp only [hm, hl, hn, hf, hb, List.isEmpty_nil, Bool.not_true, Bool.false_eq_true, if_false]
  rw [hs _ fun _ _ => rfl, hr]
  cases ws <;> rfl

/-- A launch that no prediction runs needs no room for versions (R335). -/
theorem noRoom_slot0 {x : Gx} (h : x.t.slot = 0) (s : State) (ls : List (Want × Leaf)) : x.noRoom s ls = false := by
  simp [Gx.noRoom, h]

/-- An instruction goes on with the pages of accesses that passed (R186). -/
theorem memGo_passed {x : Gx} {ws : List Want} {ps : List (Want × Leaf)} (h : Passed x ws ps) (k : List (Want × Leaf) → State) :
    x.memGo ws k = k ps := by
  unfold Gx.memGo Gx.resolved; rw [h.1, h.2]; rfl

/-- Accesses gather in one way only. -/
theorem passed_unique {x : Gx} {ws : List Want} {ps qs : List (Want × Leaf)} (h : Passed x ws ps) (k : Passed x ws qs) : ps = qs := by
  have := h.1.symm.trans k.1; injection this

/-! ### Drains -/

/-- An instruction that waits for drains goes on in the state they leave (R265, R362). -/
theorem release_drains {x : Gx} {wc : Bool} {t : State} (h : Drains x wc t) (k : State → State) : x.release wc k = k t := by
  unfold Gx.release; rw [h.1]; simp [h.2.1, h.2.2]

/-- As release_drains, with every store acknowledged (R264, R266). -/
theorem releaseAcked_drains {x : Gx} {wc : Bool} {t : State} (h : DrainsAcked x wc t) (k : State → State) :
    x.releaseAcked wc k = k t := by
  unfold Gx.releaseAcked; rw [release_drains h.1]; simp [h.2]

/-- A group with nothing buffered has drained. -/
theorem drainLines_empty {s : State} {r : GRef} {g : Group} (hg : s.grp? r = some g) (hs : g.stbuf = []) (hw : g.wcbuf = [])
    (lines : List Nat) (n : Nat) : s.drainLines r lines (n + 1) = .done s := by
  simp [State.drainLines, hg, hs, hw]

/-! ### A flat page table -/

/-- A context whose first GiB is mapped onto itself with R, W, X and SCOPE 3, by the three entries of R248. -/
def Flat (s : State) (c : Nat) : Prop :=
  (∃ x, s.ctx? c = some x ∧ x.ptroot = 0x10000) ∧ s.natAt 0x10000 8 = 0x11001 ∧ s.natAt 0x11000 8 = 0x12001 ∧
  s.natAt 0x12000 8 = 0x7F ∧ s.lent = []

/-- One level of a walk (R248). -/
theorem walk_level (s : State) (va n table : Nat) : s.walk va n table =
    let e := s.natAt (table + 8 * field va (12 + 9 * n) (if n = 4 then 6 else 9)) 8
    if field e 0 1 = 0 then (if field e 56 1 = 1 then .ats else .fault fltNotPresent)
    else if pteBad e n then .fault fltProtection
    else if field e 1 1 = 1 then
      if (pteLeaf e n va).mxa.isSome && !paDevice (pteLeaf e n va).pa then .fault fltProtection else .leaf (pteLeaf e n va)
    else match n with
      | 0 => .fault fltProtection
      | n + 1 => s.walk va n (field e 12 40 * 4096) := by cases n <;> rfl

/-- A walk through an entry that names a table (R248, R250). -/
theorem walk_table {s : State} {va n table e : Nat}
    (he : s.natAt (table + 8 * field va (12 + 9 * (n + 1)) (if n + 1 = 4 then 6 else 9)) 8 = e) (hp : field e 0 1 ≠ 0)
    (hb : pteBad e (n + 1) = false) (hl : field e 1 1 ≠ 1) : s.walk va (n + 1) table = s.walk va n (field e 12 40 * 4096) := by
  rw [walk_level]; simp only [he, hp, hb, hl, if_false, Bool.false_eq_true]

/-- A walk that ends at a leaf (R248 to R250). -/
theorem walk_leaf {s : State} {va n table e : Nat}
    (he : s.natAt (table + 8 * field va (12 + 9 * n) (if n = 4 then 6 else 9)) 8 = e) (hp : field e 0 1 ≠ 0)
    (hb : pteBad e n = false) (hl : field e 1 1 = 1)
    (hm : (pteLeaf e n va).mxa = none ∨ paDevice (pteLeaf e n va).pa = true) : s.walk va n table = .leaf (pteLeaf e n va) := by
  rw [walk_level]; simp only [he, hp, hb, hl, if_false, if_true, Bool.false_eq_true]
  rcases hm with h | h <;> simp [h]

theorem translate_flat {s : State} {c : Nat} (h : Flat s c) (a : Agent) {va : Nat} (hva : va < 2 ^ 30) (n : Need) :
    s.translate c a va n = .ok (pteLeaf 0x7F 2 va) := by
  obtain ⟨⟨x, hx, hr⟩, h4, h3, h2, hl⟩ := h
  have f4 : field va 48 6 = 0 := by unfold field; omega
  have f3 : field va 39 9 = 0 := by unfold field; omega
  have f2 : field va 30 9 = 0 := by unfold field; omega
  have t1 : field 0x11001 12 40 = 0x11 := by decide
  have t2 : field 0x12001 12 40 = 0x12 := by decide
  have hw : s.walk va 4 0x10000 = .leaf (pteLeaf 0x7F 2 va) := by
    rw [walk_table (e := 0x11001) (by simp [f4, h4]) (by decide) (by decide) (by decide),
      walk_table (e := 0x12001) (by simp [f3, h3, t1]) (by decide) (by decide) (by decide),
      walk_leaf (e := 0x7F) (by simp [f2, h2, t2]) (by decide) (by decide) (by decide) (.inl rfl)]
  unfold State.translate
  simp only [hx, hr, hw, State.lentPage, hl]
  rw [if_neg (by omega)]
  cases n <;> rfl

/-- A part in which nothing stands in the way of an access: no fence, no engine's line, no error,
no mark. -/
def Quiet (s : State) : Prop :=
  s.fleet.fences = [] ∧ s.chains = [] ∧ s.tileJobs = [] ∧ s.poison = [] ∧ s.coh.marks = []

/-- Every aligned access to that GiB passes. -/
theorem chk_flat {x : Gx} {s : State} (h : Flat s x.t.ctx) (q : Quiet s) (ht : x.t.slot = 0) (w : Want)
    (ha : w.size = 0 ∨ w.va % w.size = 0) (hva : w.va < 2 ^ 30) : x.chk s w = .ok (pteLeaf 0x7F 2 w.va) := by
  obtain ⟨hf, hc, hj, hp, hk⟩ := q
  have hm : (pteLeaf 0x7F 2 w.va).mxa = none := rfl
  have hnv : (pteLeaf 0x7F 2 w.va).nvio = false := rfl
  have hpa : (pteLeaf 0x7F 2 w.va).pa < Config.hostBase := by
    show 0 * 4096 + w.va % pageSize 2 < _
    have : w.va % pageSize 2 < pageSize 2 := Nat.mod_lt _ (by decide)
    have : pageSize 2 < Config.hostBase := by decide
    omega
  unfold Gx.chk
  rw [if_neg (by rcases ha with h | h <;> simp [h]), translate_flat h _ hva]
  have hl : ((pteLeaf 0x7F 2 w.va).lines w.size).any s.lineFenced = false := by
    simp [State.lineFenced, hf]
  have ho : ((pteLeaf 0x7F 2 w.va).lines w.size).find? (fun n => (s.ownerOf n).isSome) = none := by
    simp [State.ownerOf, hc, hj]
  have hd : ((pteLeaf 0x7F 2 w.va).lines w.size).any (s.marked (some x.t.clusterSid)) = false := by
    simp [State.marked, State.kvPending, hk, hp]
  simp only [Gx.chkLeaf, hm, ht, hl, ho, hd, State.poisoned, hp, Option.isSome_none, Bool.false_and, Bool.false_eq_true, if_false,
    bne_self_eq_false, List.isEmpty_nil, if_true, Bool.and_false]
  cases w.halves with
  | none => rfl
  | some b => simp [halvesOf, hpa, Coh.lacks, hnv]

end Sys2Proof.Machine
end

