-- ==== Sys2Proof/Laws/Maps.lean ====
section
/-! SUPPORT. Maps and sparse memories: what a read finds after a write, and that writes keep the canonical form. -/

namespace Sys2Proof.Machine

open Sys2Proof

theorem aget_aset_same {α : Type} (m : AMap α) (k : Nat) (v : α) : aget (aset m k v) k = some v := by
  induction m with
  | nil => simp [aset, aget]
  | cons p r ih =>
    obtain ⟨j, x⟩ := p
    simp only [aset]
    split
    · simp [aget]
    · split
      · simp [aget]
      · rename_i h; simp [aget, Ne.symm h, ih]

theorem aget_aset_other {α : Type} (m : AMap α) (k j : Nat) (v : α) (h : j ≠ k) : aget (aset m k v) j = aget m j := by
  induction m with
  | nil => simp [aset, aget, Ne.symm h]
  | cons p r ih =>
    obtain ⟨i, x⟩ := p
    simp only [aset]
    split
    · simp [aget, Ne.symm h]
    · split
      · rename_i hk; subst hk; simp [aget, Ne.symm h]
      · simp only [aget, ih]

/-- A read after a write. -/
theorem aget_aset {α : Type} (m : AMap α) (k j : Nat) (v : α) :
    aget (aset m k v) j = if j = k then some v else aget m j := by
  split
  · rename_i h; subst h; exact aget_aset_same m j v
  · exact aget_aset_other m k j v ‹_›

/-- A read after a removal. -/
theorem aget_adel {α : Type} (m : AMap α) (k j : Nat) : aget (adel m k) j = if j = k then none else aget m j := by
  induction m with
  | nil => simp [adel, aget]
  | cons p r ih =>
    obtain ⟨i, x⟩ := p
    simp only [adel, aget]
    split <;> rename_i h
    · subst h; rw [ih]; split <;> rename_i h2
      · rfl
      · simp [Ne.symm h2]
    · simp only [aget, ih]; split
      · rename_i h2; subst h2; simp [h]
      · rfl

/-- A read after a change. -/
theorem aget_amod {α : Type} (m : AMap α) (k j : Nat) (f : α → α) :
    aget (amod m k f) j = if j = k then (aget m k).map f else aget m j := by
  unfold amod
  cases h : aget m k with
  | none => simp only [Option.map_none]; split
            · rename_i e; rw [e, h]
            · rfl
  | some x => simp [aget_aset]

theorem amod_some {α : Type} {m : AMap α} {k : Nat} {v : α} (h : aget m k = some v) (f : α → α) : amod m k f = aset m k (f v) := by
  simp [amod, h]

/-- The last write of a key is the one that counts. -/
theorem aset_aset {α : Type} (m : AMap α) (k : Nat) (v w : α) : aset (aset m k v) k w = aset m k w := by
  induction m with
  | nil => simp [aset]
  | cons p r ih =>
    obtain ⟨j, x⟩ := p
    simp only [aset]
    split <;> rename_i h
    · simp [aset]
    · split <;> rename_i h2
      · simp [aset]
      · simp [aset, h, h2, ih]

/-- A read of a sparse memory after a write of one word. -/
@[simp] theorem sget_sset {w : Nat} (m : Sparse w) (k j : Nat) (v : BitVec w) :
    sget (sset m k v) j = if j = k then v else sget m j := by
  unfold sget sset
  split <;> rename_i h
  · subst h; rw [aget_adel]; split <;> simp
  · rw [aget_aset]; split <;> simp

/-- A read after some writes: the last write of the address, else what was there. -/
theorem sget_ssetAll {w : Nat} (ws : List (Nat × BitVec w)) (m : Sparse w) (j : Nat) :
    sget (ssetAll m ws) j = ((ws.reverse.find? fun p => p.1 == j).map Prod.snd).getD (sget m j) := by
  unfold ssetAll
  induction ws generalizing m with
  | nil => simp
  | cons p r ih =>
    rw [List.foldl_cons, ih, List.reverse_cons, List.find?_append]
    cases List.find? (fun q => q.1 == j) r.reverse with
    | some q => simp
    | none => by_cases h : p.1 = j
              · simp [h]
              · simp [h, Ne.symm h]

/-! ### The canonical form -/

theorem mem_adel {α : Type} {m : AMap α} {k : Nat} {p : Nat × α} (h : p ∈ adel m k) : p ∈ m := by
  induction m with
  | nil => simp [adel] at h
  | cons q r ih =>
    obtain ⟨i, x⟩ := q
    simp only [adel] at h
    split at h
    · exact List.mem_cons_of_mem _ (ih h)
    · rcases List.mem_cons.mp h with h | h
      · exact h ▸ List.mem_cons_self
      · exact List.mem_cons_of_mem _ (ih h)

theorem mem_aset {α : Type} {m : AMap α} {k : Nat} {v : α} {p : Nat × α} (h : p ∈ aset m k v) :
    p = (k, v) ∨ p ∈ m := by
  induction m with
  | nil => simp only [aset, List.mem_singleton] at h; exact .inl h
  | cons q r ih =>
    obtain ⟨i, x⟩ := q
    simp only [aset] at h
    split at h
    · exact List.mem_cons.mp h
    · split at h
      · rcases List.mem_cons.mp h with h | h
        · exact .inl h
        · exact .inr (List.mem_cons_of_mem _ h)
      · rcases List.mem_cons.mp h with h | h
        · exact .inr (h ▸ List.mem_cons_self)
        · exact (ih h).imp id (List.mem_cons_of_mem _)

theorem adel_sorted {α : Type} {m : AMap α} (k : Nat) (h : m.Pairwise fun p q => p.1 < q.1) :
    (adel m k).Pairwise fun p q => p.1 < q.1 := by
  induction m with
  | nil => simp [adel]
  | cons q r ih =>
    obtain ⟨i, x⟩ := q
    obtain ⟨h1, h2⟩ := List.pairwise_cons.mp h
    simp only [adel]
    split
    · exact ih h2
    · exact List.pairwise_cons.mpr ⟨fun p hp => h1 p (mem_adel hp), ih h2⟩

theorem aset_sorted {α : Type} {m : AMap α} (k : Nat) (v : α) (h : m.Pairwise fun p q => p.1 < q.1) :
    (aset m k v).Pairwise fun p q => p.1 < q.1 := by
  induction m with
  | nil => simp [aset]
  | cons q r ih =>
    obtain ⟨i, x⟩ := q
    obtain ⟨h1, h2⟩ := List.pairwise_cons.mp h
    simp only [aset]
    split
    · rename_i hk
      refine List.pairwise_cons.mpr ⟨fun p hp => ?_, h⟩
      rcases List.mem_cons.mp hp with hp | hp
      · subst hp; exact hk
      · exact Nat.lt_trans hk (h1 p hp)
    · split
      · rename_i hk; subst hk; exact List.pairwise_cons.mpr ⟨h1, h2⟩
      · refine List.pairwise_cons.mpr ⟨fun p hp => ?_, ih h2⟩
        rcases mem_aset hp with hp | hp
        · subst hp; show i < k; omega
        · exact h1 p hp

/-- A write of one word keeps the canonical form. -/
theorem sset_wf {w : Nat} {m : Sparse w} (k : Nat) (v : BitVec w) (h : Memory.wf m) : Memory.wf (sset m k v) := by
  unfold sset
  split
  · exact ⟨adel_sorted k h.1, fun p hp => h.2 p (mem_adel hp)⟩
  · rename_i hv
    refine ⟨aset_sorted k v h.1, fun p hp => ?_⟩
    rcases mem_aset hp with hp | hp
    · subst hp; exact hv
    · exact h.2 p hp

/-- Writes of some words keep the canonical form. -/
theorem ssetAll_wf {w : Nat} (ws : List (Nat × BitVec w)) {m : Sparse w} (h : Memory.wf m) : Memory.wf (ssetAll m ws) := by
  unfold ssetAll
  induction ws generalizing m with
  | nil => exact h
  | cons p r ih => exact ih (sset_wf p.1 p.2 h)

/-- A memory of which some entries are dropped keeps the canonical form. -/
theorem filter_wf {w : Nat} {m : Sparse w} (f : Nat × BitVec w → Bool) (h : Memory.wf m) : Memory.wf (m.filter f) :=
  ⟨h.1.sublist List.filter_sublist, fun p hp => h.2 p (List.mem_filter.mp hp).1⟩

/-- Writing physical memory keeps the canonical form. -/
theorem memWrite_wf {m : Sparse 8} (ws : List (Nat × Byte)) (h : Memory.wf m) : Memory.wf (memWrite m ws) :=
  ssetAll_wf _ h

/-- Two memories in canonical form that read alike are equal. -/
theorem sget_ext {w : Nat} {m n : Sparse w} (hm : Memory.wf m) (hn : Memory.wf n) (h : ∀ k, sget m k = sget n k) : m = n := by
  have low : ∀ {m : Sparse w} {j : Nat}, (∀ p ∈ m, j < p.1) → sget m j = 0 := by
    intro m j hj
    induction m with
    | nil => rfl
    | cons p r ih =>
      have := hj p List.mem_cons_self
      have ih := ih fun q hq => hj q (List.mem_cons_of_mem _ hq)
      unfold sget at ih ⊢
      simp only [aget]
      rw [if_neg (by omega)]; exact ih
  have head : ∀ {r : Sparse w} {j : Nat} {x : BitVec w}, sget ((j, x) :: r) j = x := by intros; simp [sget, aget]
  have tail : ∀ {r : Sparse w} {i j : Nat} {x : BitVec w}, i ≠ j → sget ((j, x) :: r) i = sget r i := by
    intro r i j x hij; simp [sget, aget, Ne.symm hij]
  induction m generalizing n with
  | nil =>
    cases n with
    | nil => rfl
    | cons q s => exact absurd (by have := h q.1; rw [show q = (q.1, q.2) from rfl, head] at this; exact this.symm)
                    (hn.2 q List.mem_cons_self)
  | cons p r ih =>
    obtain ⟨j, x⟩ := p
    obtain ⟨h1, h2⟩ := List.pairwise_cons.mp hm.1
    have hx := hm.2 _ List.mem_cons_self
    cases n with
    | nil => exact absurd (by have := h j; rw [head] at this; exact this) hx
    | cons q s =>
      obtain ⟨k, y⟩ := q
      obtain ⟨k1, k2⟩ := List.pairwise_cons.mp hn.1
      have hy := hn.2 _ List.mem_cons_self
      have hjk : j = k := by
        rcases Nat.lt_trichotomy j k with c | c | c
        · refine absurd ?_ hx
          have := h j; rw [head, tail (by omega)] at this
          rw [this]; exact low fun p hp => Nat.lt_trans c (k1 p hp)
        · exact c
        · refine absurd ?_ hy
          have := h k; rw [head, tail (by omega)] at this
          rw [← this]; exact low fun p hp => Nat.lt_trans c (h1 p hp)
      subst hjk
      have hxy : x = y := by have := h j; rwa [head, head] at this
      subst hxy
      congr 1
      refine ih ⟨h2, fun p hp => hm.2 p (List.mem_cons_of_mem _ hp)⟩ ⟨k2, fun p hp => hn.2 p (List.mem_cons_of_mem _ hp)⟩ ?_
      intro i
      by_cases hi : i = j
      · subst hi; rw [low h1, low k1]
      · have := h i; rwa [tail hi, tail hi] at this

end Sys2Proof.Machine
end

