-- ==== Sys2Proof/Laws/Gang.lean ====
section
/-! SUPPORT. One law for each shared shape of a gang's instruction: what it answers when it reaches its own effect, and what
its writes leave in every register. -/

namespace Sys2Proof.Machine

open Sys2Proof

/-! ### The gang -/

/-- What an opened gang is made of. -/
theorem openGang_eq {s : State} {p : Option Pfx} {x : Gx} (h : openGang s p = some x) :
    s.cur = some x.c ∧ s.team? x.c.g.team = some x.t ∧ x.t.groups[x.c.g.grp]? = some x.g ∧ x.s = s ∧ x.s0 = s ∧
    x.all = x.c.lanes ∧ x.rd = x.c.pre.getD x.g ∧ x.en = enabled x.c.lanes x.rd p ∧
    x.next = x.c.pc + (if p.isSome then 12 else 8) := by
  unfold openGang at h
  split at h
  · cases h
  · rename_i c hc
    split at h
    · cases h
    · rename_i t ht
      split at h
      · cases h
      · rename_i g hg
        cases h
        exact ⟨hc, ht, hg, rfl, rfl, rfl, rfl, rfl, rfl⟩

/-- Enabled lanes are lanes of the gang. -/
theorem enabled_gang {l : Word} {rd : Group} {p : Option Pfx} {i : Nat} (h : (enabled l rd p).getLsbD i = true) :
    l.getLsbD i = true := by
  unfold enabled at h
  split at h
  · exact h
  · split at h
    · exact h
    · simp at h; exact h.1

/-- The gang's instruction, once it reaches its own effect, has it. -/
theorem gangF_runs {s : State} {op : Nat} {f : FForm} {ok : Gx → Bool} {x : Gx} (body : Gx → State) (h : Runs s op f ok x) :
    gangF op f s ok body = .next (body x) := by
  obtain ⟨ho, hd, hp, hy, hr⟩ := h
  unfold gangF Gx.enter
  rw [ho]
  simp [hd, hp, hy, hr]

/-- A decode fault is what the instruction comes to (R106). -/
theorem gangF_faults {s : State} {op : Nat} {f : FForm} {ok : Gx → Bool} {x : Gx} {code : Nat} (body : Gx → State)
    (ho : openGang s f.pfx = some x) (hd : x.decodeFault op f ok = some code) :
    gangF op f s ok body = .next (x.fault x.s code) := by
  unfold gangF Gx.enter
  rw [ho]
  simp [hd]

/-- The state that an instruction's group changes leave depends only on the group as it stands. -/
theorem modGrp_congr {s : State} {r : GRef} {t : Team} {g : Group} {f h : Group → Group} (ht : s.team? r.team = some t)
    (hg : t.groups[r.grp]? = some g) (e : f g = h g) : s.modGrp r f = s.modGrp r h := by
  have aux : ∀ (l : List Group) (k : Nat), l[k]? = some g → modAt l k f = modAt l k h := by
    intro l
    induction l with
    | nil => intro k hk; simp at hk
    | cons y r ih =>
      intro k hk
      cases k with
      | zero => simp at hk; subst hk; simp [modAt, e]
      | succ n => simp at hk; simp [modAt, ih n hk]
  unfold State.modGrp State.modTeam amod
  rw [show aget s.teams r.team = some t from ht]
  simp only [Team.modGrp, aux _ _ hg]

theorem Gx.done_congr {s : State} {p : Option Pfx} {x : Gx} (ho : openGang s p = some x) {f h : Group → Group}
    (e : f x.g = h x.g) : x.done x.s f = x.done x.s h := by
  obtain ⟨_, ht, hg, hs, _⟩ := openGang_eq ho
  unfold Gx.done
  rw [hs]
  exact modGrp_congr ht hg (by simp only [e])

/-! ### Vector results -/

/-- A lane is named by a list of lanes just where its bit is set. -/
theorem mem_lanesOf {m : Word} {l : Nat} : l ∈ lanesOf m ↔ l < 32 ∧ m.getLsbD l = true := by
  simp [lanesOf]

theorem lanesOf_nodup (m : Word) : (lanesOf m).Nodup := List.nodup_range.filter _

/-- The key of a stack position in one lane names that position and lane. -/
theorem key_eq {p q l k : Nat} (hl : l < 32) (hk : k < 32) : 32 * p + l = 32 * q + k ↔ p = q ∧ l = k := by omega

theorem setV_vreg (g : Group) (p q l k : Nat) (v : Word) (hl : l < 32) (hk : k < 32) :
    (g.setV p l v).vreg q k = if q = p ∧ k = l then v else g.vreg q k := by
  unfold Group.vreg Group.setV
  simp only [sget_sset, key_eq hk hl]

/-- What putV leaves in each register of each lane. -/
theorem putV_reads (g : Group) (t : Ty) (l n v p k : Nat) (hl : l < 32) (hk : k < 32) :
    (g.putV l (.v n) (wordsOf t v)).vreg p k =
      if k = l ∧ p = g.wb l + n then (if t.is64 then BitVec.ofNat 32 v else extend t v)
      else if k = l ∧ t.is64 = true ∧ p = g.wb l + n + 1 then BitVec.ofNat 32 (v / 2 ^ 32) else g.vreg p k := by
  unfold Group.putV wordsOf
  cases ht : t.is64
  · simp only [List.zipIdx, Bool.false_eq_true, if_false, List.foldl_cons, List.foldl_nil, Nat.add_zero, false_and,
      and_false]
    rw [setV_vreg _ _ _ _ _ _ hl hk]
    by_cases h1 : k = l <;> by_cases h2 : p = g.wb l + n <;> simp [h1, h2]
  · simp only [List.zipIdx, if_true, List.foldl_cons, List.foldl_nil, Nat.add_zero, Nat.zero_add, true_and]
    rw [setV_vreg _ _ _ _ _ _ hl hk, setV_vreg _ _ _ _ _ _ hl hk]
    have hw : (g.setV (g.wb l + n) l (BitVec.ofNat 32 v)).wb l = g.wb l := rfl
    rw [hw]
    by_cases h1 : k = l <;> by_cases h2 : p = g.wb l + n <;> by_cases h3 : p = g.wb l + n + 1 <;> simp_all

/-- putV writes vector registers and nothing else. -/
theorem putV_frame (g : Group) (l : Nat) (d : Name) (ws : List Word) : ∃ v, g.putV l d ws = g.withV v := by
  unfold Group.putV
  split
  · rename_i n
    have : ∀ (ps : List (Word × Nat)) (v : Sparse 32), ∃ u,
        ps.foldl (fun (g : Group) p => g.setV (g.wb l + n + p.2) l p.1) (g.withV v) = g.withV u := by
      intro ps
      induction ps with
      | nil => intro v; exact ⟨v, rfl⟩
      | cons p r ih => intro v; exact ih _
    exact this _ g.vregs
  · exact ⟨g.vregs, rfl⟩

/-- One lane's step of Put. -/
def Gx.putLane (x : Gx) (d : Name) (z : Bool) (t : Ty) (val : Nat → Nat) (g : Group) (l : Nat) : Group :=
  if x.en.getLsbD l then g.putV l d (wordsOf t (val l)) else if z then g.putV l d (wordsOf t 0) else g

theorem putLane_frame (x : Gx) (d : Name) (z : Bool) (t : Ty) (val : Nat → Nat) (g : Group) (l : Nat) :
    ∃ v, x.putLane d z t val g l = g.withV v := by
  unfold Gx.putLane
  split
  · exact putV_frame _ _ _ _
  · split
    · exact putV_frame _ _ _ _
    · exact ⟨g.vregs, rfl⟩

/-- Put writes vector registers and nothing else. -/
theorem Gx.put_frame (x : Gx) (d : Name) (z : Bool) (t : Ty) (val : Nat → Nat) (g : Group) :
    ∃ v, x.put d z t val g = g.withV v := by
  have : ∀ (ls : List Nat) (v : Sparse 32), ∃ u, ls.foldl (x.putLane d z t val) (g.withV v) = g.withV u := by
    intro ls
    induction ls with
    | nil => intro v; exact ⟨v, rfl⟩
    | cons l r ih =>
      intro v
      obtain ⟨u, hu⟩ := putLane_frame x d z t val (g.withV v) l
      rw [List.foldl_cons, hu]
      exact ih u
  exact this _ g.vregs

theorem extend_zero (t : Ty) : extend t 0 = 0 := by cases t <;> rfl

theorem putLane_reads (x : Gx) (n : Nat) (z : Bool) (t : Ty) (val : Nat → Nat) (g : Group) (l p k : Nat) (hl : l < 32)
    (hk : k < 32) :
    (x.putLane (.v n) z t val g l).vreg p k =
      if k = l ∧ (x.en.getLsbD l || z) = true then
        if p = g.wb l + n then
          (if t.is64 then BitVec.ofNat 32 (if x.en.getLsbD l then val l else 0)
          else extend t (if x.en.getLsbD l then val l else 0))
        else if t.is64 = true ∧ p = g.wb l + n + 1 then BitVec.ofNat 32 ((if x.en.getLsbD l then val l else 0) / 2 ^ 32)
        else g.vreg p k
      else g.vreg p k := by
  unfold Gx.putLane
  by_cases he : x.en.getLsbD l = true
  · rw [if_pos he, putV_reads _ _ _ _ _ _ _ hl hk]
    by_cases h1 : k = l <;> simp [h1, he]
  · rw [if_neg he]
    cases z
    · simp [he]
    · rw [if_pos rfl, putV_reads _ _ _ _ _ _ _ hl hk]
      by_cases h1 : k = l <;> simp [h1, he]

/-- What Put of R135 leaves in each register of each lane. -/
theorem Gx.put_reads (x : Gx) (d : Name) (z : Bool) (t : Ty) (val : Nat → Nat) (p k : Nat) (hk : k < 32) :
    (x.put d z t val x.g).vreg p k = x.vecAfter d z t val p k := by
  cases d with
  | v n =>
    have step : ∀ (ls : List Nat) (v : Sparse 32), ls.Nodup → (∀ l ∈ ls, l < 32) →
        (ls.foldl (x.putLane (.v n) z t val) (x.g.withV v)).vreg p k =
        if k ∈ ls ∧ (x.en.getLsbD k || z) = true then
          if p = x.g.wb k + n then
            (if t.is64 then BitVec.ofNat 32 (if x.en.getLsbD k then val k else 0)
            else extend t (if x.en.getLsbD k then val k else 0))
          else if t.is64 = true ∧ p = x.g.wb k + n + 1 then BitVec.ofNat 32 ((if x.en.getLsbD k then val k else 0) / 2 ^ 32)
          else (x.g.withV v).vreg p k
        else (x.g.withV v).vreg p k := by
      intro ls
      induction ls with
      | nil => intro v _ _; simp
      | cons l r ih =>
        intro v hn hb
        obtain ⟨hl, hn'⟩ := List.nodup_cons.mp hn
        have hl32 := hb l List.mem_cons_self
        have hr := putLane_reads x n z t val (x.g.withV v) l p k hl32 hk
        have hw : (x.g.withV v).wb l = x.g.wb l := rfl
        rw [hw] at hr
        obtain ⟨u, hu⟩ := putLane_frame x (.v n) z t val (x.g.withV v) l
        rw [hu] at hr
        rw [List.foldl_cons, hu]
        have := ih u hn' fun i hi => hb i (List.mem_cons_of_mem _ hi)
        rw [show (x.g.withV v).withV u = x.g.withV u from rfl] at *
        rw [this, hr]
        by_cases hkl : k = l
        · subst hkl; simp [hl]
        · simp [hkl]
    have := step (lanesOf x.c.lanes) x.g.vregs (lanesOf_nodup _) fun l hl => (mem_lanesOf.mp hl).1
    rw [show x.put (.v n) z t val x.g = (lanesOf x.c.lanes).foldl (x.putLane (.v n) z t val) (x.g.withV x.g.vregs) from rfl,
      this]
    simp only [Gx.vecAfter, mem_lanesOf, hk, true_and, show x.g.withV x.g.vregs = x.g from rfl]
    by_cases hc : x.c.lanes.getLsbD k = true <;> by_cases he : (x.en.getLsbD k || z) = true <;> simp [hc, he]
  | _ =>
    have : ∀ ls : List Nat, ls.foldl (fun (g : Group) (_ : Nat) => g) x.g = x.g := by
      intro ls; induction ls with | nil => rfl | cons _ _ ih => exact ih
    simp [Gx.put, Group.putV, Gx.vecAfter, this]

/-- An instruction whose effect is Put completes with its vector result. -/
theorem vecResult_put {s : State} {pf : Option Pfx} {x : Gx} (ho : openGang s pf = some x) (d : Name) (z : Bool) (t : Ty)
    (val : Nat → Nat) : VecResult x d z t val (.next (x.done x.s (x.put d z t val))) := by
  obtain ⟨v, hv⟩ := x.put_frame d z t val x.g
  refine ⟨v, by rw [Gx.done_congr ho (h := fun g => g.withV v) hv], fun p k hk => ?_⟩
  have := x.put_reads d z t val p k hk
  rw [hv] at this
  exact this

/-- A vector instruction that reaches its effect completes with its result. -/
theorem vecF_runs {s : State} {op : Nat} {f : FForm} {x : Gx} (val : Gx → Nat → Nat) (h : Runs s op f free x) :
    VecResult x f.d f.z f.ty (val x) (vecF op f s val) := by
  unfold vecF
  rw [gangF_runs _ h]
  exact vecResult_put h.1 _ _ _ _

/-- VecResult only looks at the values of the enabled lanes below 32. -/
theorem VecResult.congr {x : Gx} {d : Name} {z : Bool} {t : Ty} {v w : Nat → Nat} {o : Host.Outcome State Fault Refusal}
    (h : VecResult x d z t v o) (e : ∀ l, v l = w l) : VecResult x d z t w o := by
  have : v = w := funext e
  exact this ▸ h

/-! ### Mask results -/

theorem maskOf_bit (ls : List Nat) (i : Nat) (hi : i < 32) : (maskOf ls).getLsbD i = ls.contains i := by
  have one : ∀ l, (BitVec.ofNat 32 (2 ^ l)).getLsbD i = (i == l) := by
    intro l
    simp only [BitVec.getLsbD_ofNat, hi, decide_true, Bool.true_and, Nat.testBit_two_pow]
    by_cases h : i = l <;> simp [h, Ne.symm]
  have : ∀ (ls : List Nat) (m : Word), (ls.foldl (fun m l => m ||| BitVec.ofNat 32 (2 ^ l)) m).getLsbD i =
      (m.getLsbD i || ls.contains i) := by
    intro ls
    induction ls with
    | nil => intro m; simp
    | cons l r ih => intro m; rw [List.foldl_cons, ih, BitVec.getLsbD_or, one, List.contains_cons, Bool.or_assoc]
  unfold maskOf
  rw [this]; simp

/-- An instruction whose effect is one bit per lane completes with its mask. -/
theorem maskResult_putM {s : State} {pf : Option Pfx} {x : Gx} (ho : openGang s pf = some x) (d : Name) (z : Bool)
    (bit : Nat → Bool) : MaskResult x d z bit (.next (x.done x.s (x.putM d z bit))) := by
  obtain ⟨_, _, _, _, _, _, _, hen, _⟩ := openGang_eq ho
  cases d with
  | m n =>
    refine ⟨sset x.g.mregs n ((x.g.mreg n &&& (if z then ~~~x.c.lanes else ~~~x.en)) |||
      maskOf ((lanesOf x.en).filter bit)), by rw [Gx.done_congr ho]; rfl, fun k lane hl => ?_⟩
    rw [sget_sset]
    by_cases hk : k = n
    · subst hk
      have hb : (maskOf ((lanesOf x.en).filter bit)).getLsbD lane = (x.en.getLsbD lane && bit lane) := by
        rw [maskOf_bit _ _ hl]
        by_cases h1 : x.en.getLsbD lane = true <;> by_cases h2 : bit lane = true <;>
          simp [h1, h2, mem_lanesOf, hl]
      have hg : x.en.getLsbD lane = true → x.c.lanes.getLsbD lane = true := by rw [hen]; exact enabled_gang
      simp only [if_true, BitVec.getLsbD_or, BitVec.getLsbD_and, hb]
      cases z <;> simp only [Bool.false_eq_true, if_false, if_true, BitVec.getLsbD_not, hl, decide_true, Bool.true_and] <;>
        by_cases h1 : x.en.getLsbD lane = true <;> by_cases h3 : x.c.lanes.getLsbD lane = true <;>
        simp_all [Group.mreg]
    · simp [hk, Ne.symm hk, Group.mreg]
  | _ =>
    refine ⟨x.g.mregs, by rw [Gx.done_congr ho (h := fun g => g.withM x.g.mregs)]; rfl, fun k lane hl => ?_⟩
    simp [Group.mreg]

/-- A mask instruction that reaches its effect completes with its bits. -/
theorem maskF_runs {s : State} {op : Nat} {f : FForm} {x : Gx} (bit : Gx → Nat → Bool) (h : Runs s op f free x) :
    MaskResult x f.d f.z (bit x) (maskF op f s bit) := by
  unfold maskF
  rw [gangF_runs _ h]
  exact maskResult_putM h.1 _ _ _

end Sys2Proof.Machine
end

