-- ==== Sys2Proof/Laws/Draws.lean ====
section
/-! SUPPORT. The draws of $rng that a rounding instruction takes, and what it leaves in every register. -/

namespace Sys2Proof.Machine

open Sys2Proof

theorem rngAt_succ (m : RM) (r : DWord) (n : Nat) : rngAt m (drawOne m r).1 n = rngAt m r (n + 1) := by
  induction n with
  | zero => rfl
  | succ n ih => rw [rngAt, ih]; rfl

theorem aget_append {α : Type} (m n : AMap α) (k : Nat) : aget (m ++ n) k = (aget m k).or (aget n k) := by
  induction m with
  | nil => rfl
  | cons p r ih =>
    obtain ⟨j, v⟩ := p
    simp only [List.cons_append, aget]
    split <;> simp_all

/-- Lanes that each draw once: what each of them gets, and where $rng then stands. -/
theorem drawAll_once (m : RM) (w : Nat → Nat → Nat) (val : Nat → DWord → Nat × DWord)
    (hv : ∀ l r, val l r = (w l (drawOne m r).2, (drawOne m r).1)) (ls : List Nat) (hs : ls.Pairwise (· < ·)) (r : DWord) :
    (drawAll ls r val).2 = rngAt m r ls.length ∧
    ∀ l ∈ ls, aget (drawAll ls r val).1 l = some (w l (drawOne m (rngAt m r (ls.filter (· < l)).length)).2) := by
  have go : ∀ (ls : List Nat) (acc : List (Nat × Nat)) (r : DWord), ls.Pairwise (· < ·) →
      (ls.foldl (fun p l => let q := val l p.2; (p.1 ++ [(l, q.1)], q.2)) (acc, r)).2 = rngAt m r ls.length ∧
      ∀ l, aget (ls.foldl (fun p l => let q := val l p.2; (p.1 ++ [(l, q.1)], q.2)) (acc, r)).1 l =
        (aget acc l).or (if l ∈ ls then some (w l (drawOne m (rngAt m r (ls.filter (· < l)).length)).2) else none) := by
    intro ls
    induction ls with
    | nil => intro acc r _; simp [rngAt]
    | cons k t ih =>
      intro acc r hs
      obtain ⟨hk, ht⟩ := List.pairwise_cons.mp hs
      have := ih (acc ++ [(k, (val k r).1)]) (val k r).2 ht
      simp only [List.foldl_cons, hv] at this ⊢
      refine ⟨by rw [this.1, rngAt_succ]; rfl, fun l => ?_⟩
      rw [this.2, aget_append, Option.or_assoc]
      congr 1
      simp only [aget, List.mem_cons]
      by_cases hl : k = l
      · subst hl
        have : t.filter (· < k) = [] := List.filter_eq_nil_iff.mpr fun a ha => by have := hk a ha; simp; omega
        simp [this, rngAt]
      · rw [if_neg hl]
        by_cases hm : l ∈ t
        · have := hk l hm
          simp [hm, this, rngAt_succ]
        · simp [hm, Ne.symm hl]
  have := go ls [] r hs
  exact ⟨this.1, fun l hl => by
    have h2 := this.2 l
    rw [if_pos hl] at h2
    exact h2⟩

theorem lanesOf_sorted (m : Word) : (lanesOf m).Pairwise (· < ·) := List.pairwise_lt_range.filter _

theorem Gx.vecAfter_congr (x : Gx) (d : Name) (z : Bool) (t : Ty) (v w : Nat → Nat) (p k : Nat)
    (h : x.en.getLsbD k = true → v k = w k) : x.vecAfter d z t v p k = x.vecAfter d z t w p k := by
  unfold Gx.vecAfter
  cases d <;> try rfl
  by_cases he : x.en.getLsbD k = true
  · simp only [h he]
  · simp [he]

/-- A rounding instruction that reaches its effect: each enabled lane draws once, in lane order. -/
theorem drawF_runs {s : State} {op : Nat} {f : FForm} {x : Gx} {t : Ty} (m : RM) (w : Nat → Nat → Nat)
    (val : Gx → Nat → DWord → Nat × DWord) (hv : ∀ l r, val x l r = (w l (drawOne m r).2, (drawOne m r).1))
    (h : Runs s op f free x) : DrawResult x f.d f.z t m w (drawF op f s t val) := by
  unfold drawF
  rw [gangF_runs _ h]
  obtain ⟨hr, hl⟩ := drawAll_once m w (val x) hv (lanesOf x.en) (lanesOf_sorted _) x.g.rng
  let vals := fun l => (aget (drawAll (lanesOf x.en) x.g.rng (val x)).1 l).getD 0
  obtain ⟨v, hv2⟩ := x.put_frame f.d f.z t vals x.g
  have hrd : ∀ g : Group, x.put f.d f.z t vals (g.withRng (rngAt m x.g.rng (lanesOf x.en).length)) =
      (x.put f.d f.z t vals g).withRng (rngAt m x.g.rng (lanesOf x.en).length) := by
    intro g
    have : ∀ (ls : List Nat) (g : Group), ls.foldl (x.putLane f.d f.z t vals) (g.withRng (rngAt m x.g.rng (lanesOf x.en).length)) =
        (ls.foldl (x.putLane f.d f.z t vals) g).withRng (rngAt m x.g.rng (lanesOf x.en).length) := by
      intro ls
      induction ls with
      | nil => intro g; rfl
      | cons l r ih =>
        intro g
        rw [List.foldl_cons, List.foldl_cons, ← ih]
        congr 1
        have pv : ∀ ws, (g.withRng (rngAt m x.g.rng (lanesOf x.en).length)).putV l f.d ws =
            (g.putV l f.d ws).withRng (rngAt m x.g.rng (lanesOf x.en).length) := by
          intro ws
          unfold Group.putV
          cases f.d with
          | v n =>
            have : ∀ (ps : List (Word × Nat)) (g : Group),
                ps.foldl (fun g p => g.setV (g.wb l + n + p.2) l p.1) (g.withRng (rngAt m x.g.rng (lanesOf x.en).length)) =
                (ps.foldl (fun g p => g.setV (g.wb l + n + p.2) l p.1) g).withRng (rngAt m x.g.rng (lanesOf x.en).length) := by
              intro ps
              induction ps with
              | nil => intro g; rfl
              | cons p r ih => intro g; exact ih (g.setV (g.wb l + n + p.2) l p.1)
            exact this _ _
          | _ => rfl
        unfold Gx.putLane
        split
        · exact pv _
        · split
          · exact pv _
          · rfl
    exact this _ _
  refine ⟨v, ?_, fun p k hk => ?_⟩
  · congr 1
    apply Gx.done_congr h.1
    have := hrd x.g
    rw [hv2] at this
    rw [← this, hr]
    rfl
  · have := x.put_reads f.d f.z t vals p k hk
    rw [hv2] at this
    have hg : (x.g.withV v).vreg p k = sget v (32 * p + k) := rfl
    rw [← hg, this]
    apply Gx.vecAfter_congr
    intro he
    have hm := hl k (mem_lanesOf.mpr ⟨hk, he⟩)
    simp only [vals, hm, Option.getD_some, Gx.drawOf]

/-! ### Uniform results -/

theorem sget_map_fill {w : Nat} (m : Sparse w) (n : Nat) (ls : List Nat) (v : BitVec w) (j : Nat) :
    sget (ssetAll m (ls.map fun l => (32 * n + l, v))) j = if (∃ l ∈ ls, 32 * n + l = j) then v else sget m j := by
  induction ls generalizing m with
  | nil => simp [ssetAll]
  | cons l r ih =>
    rw [List.map_cons, show ssetAll m ((32 * n + l, v) :: r.map fun l => (32 * n + l, v)) =
      ssetAll (sset m (32 * n + l) v) (r.map fun l => (32 * n + l, v)) from rfl, ih, sget_sset]
    by_cases h1 : ∃ a ∈ r, 32 * n + a = j
    · rw [if_pos h1, if_pos (by obtain ⟨a, ha, hj⟩ := h1; exact ⟨a, List.mem_cons_of_mem _ ha, hj⟩)]
    · rw [if_neg h1]
      by_cases h2 : j = 32 * n + l
      · rw [if_pos h2, if_pos ⟨l, List.mem_cons_self, h2.symm⟩]
      · rw [if_neg h2, if_neg]
        rintro ⟨a, ha, hj⟩
        rcases List.mem_cons.mp ha with rfl | ha
        · exact h2 hj.symm
        · exact h1 ⟨a, ha, hj⟩

/-- A uniform write leaves the gang's value in its lanes and nothing else changed (R27). -/
theorem Gx.putS_after (x : Gx) (d : Name) (v : DWord) : UniAfter x d v (x.putS d v x.g) := by
  cases d with
  | s n =>
    unfold Gx.putS Group.setS
    cases hd : x.diverged
    · refine ⟨rfl, fun k lane hl => ?_, fun k => ?_, by simp [hd]⟩
      rotate_left
      · by_cases hk : n = k
        · subst hk; simp [hd]
        · simp [hk, Ne.symm hk]
      by_cases hk : n = k
      · subst hk; simp [Group.sreg, sget_sset, hd]
      · simp [Group.sreg, hk, Ne.symm hk, sget_sset]
    · refine ⟨rfl, fun k lane hl => ?_, fun k => ?_, by simp [hd]⟩
      rotate_left
      · by_cases hk : n = k
        · subst hk; by_cases hc : n ∈ x.g.split <;> simp [hc, hd]
        · by_cases hc : n ∈ x.g.split <;> simp [hc, hk, Ne.symm hk]
      simp only [if_true, Group.sreg]
      by_cases hk : n = k
      · subst hk
        have hc : (if x.g.split.contains n = true then x.g.split else n :: x.g.split).contains n = true := by
          split
          · assumption
          · simp
        rw [if_pos hc, sget_map_fill]
        by_cases hm : x.c.lanes.getLsbD lane = true
        · rw [if_pos ⟨lane, mem_lanesOf.mpr ⟨hl, hm⟩, rfl⟩]; simp [hm]
        · rw [if_neg (by
            rintro ⟨l, h1, h2⟩
            have : l = lane := by omega
            exact hm (this ▸ (mem_lanesOf.mp h1).2))]
          simp only [hm, hd, Bool.not_true, Bool.or_false, Bool.and_false, Bool.false_eq_true, if_false]
          split
          · rfl
          · rw [sget_map_fill, if_pos ⟨lane, by simpa using hl, rfl⟩]
      · have hc : (if x.g.split.contains n = true then x.g.split else n :: x.g.split).contains k = x.g.split.contains k := by
          split
          · rfl
          · simp [Ne.symm hk]
        rw [hc]
        have e : ∀ ls : List Nat, (∀ l ∈ ls, l < 32) → ¬ ∃ l ∈ ls, 32 * n + l = 32 * k + lane := by
          rintro ls hb ⟨l, h1, h2⟩
          have := hb l h1
          omega
        rw [sget_map_fill, if_neg (e _ fun l h => (mem_lanesOf.mp h).1)]
        split
        · simp only [Name.s.injEq, hk, decide_false, Bool.false_and, Bool.false_eq_true, if_false]
          split
          · rfl
          · rw [sget_map_fill, if_neg (e _ fun l h => by simpa using h)]
        · simp [hk]
  | _ => exact ⟨rfl, fun k lane _ => by simp [Gx.putS], fun k => by simp [Gx.putS], by simp [Gx.putS]⟩

theorem uniResult_putS {s : State} {pf : Option Pfx} {x : Gx} (ho : openGang s pf = some x) (d : Name) (v : DWord) :
    UniResult x d v (.next (x.doneS d v)) :=
  ⟨_, x.putS_after d v, by unfold Gx.doneS; rw [Gx.done_congr ho (f := x.putS d v) (h := fun _ => x.putS d v x.g) rfl]⟩

/-- A uniform instruction that reaches its effect completes with its value. -/
theorem uniF_runs {s : State} {op : Nat} {f : FForm} {x : Gx} (val : Gx → DWord) (h : Runs s op f free x) :
    UniResult x f.d (val x) (uniF op f s val) := by
  unfold uniF
  rw [gangF_runs _ h]
  exact uniResult_putS h.1 _ _

/-! ### Sources -/

/-- A source operand is a number of its width (R134). -/
theorem Gx.src_lt (x : Gx) (l : Nat) (n : Name) (t : Ty) (w : Nat) : x.src l n t w < 2 ^ w := by
  have two : 0 < 2 ^ w := Nat.two_pow_pos w
  unfold Gx.src
  split
  · unfold Group.vsrc
    simp only
    split
    · subst_vars
      have := (x.rd.vreg (x.rd.wb l + ‹Nat›) l).isLt
      have := (x.rd.vreg (x.rd.wb l + ‹Nat› + 1) l).isLt
      omega
    · exact Nat.mod_lt _ two
  · exact Nat.mod_lt _ two
  · exact Nat.mod_lt _ two
  · exact two

theorem immVal_lt (t : Ty) (i : BitVec 16) (w : Nat) : immVal t i w < 2 ^ w := by
  have two : 0 < 2 ^ w := Nat.two_pow_pos w
  cases t <;> exact Nat.mod_lt _ two

theorem Gx.srcB_lt (x : Gx) (l : Nat) (b : BOperand) (t : Ty) (w : Nat) : x.srcB l b t w < 2 ^ w := by
  cases b with
  | reg => exact x.src_lt _ _ _ _
  | pat => exact x.src_lt _ _ _ _
  | imm => exact immVal_lt _ _ _

end Sys2Proof.Machine
end

