-- ==== Sys2Proof/Laws/Events.lean ====
section
/-! SUPPORT. What the operations that events share do once their conditions hold: packets, call records, messages, chains. -/

namespace Sys2Proof.Machine

open Sys2Proof

/-- A packet event acts on a packet of its type that has arrived. -/
theorem onPacket_arrived {s : State} {t type : Nat} {q : Qcp} {p : Pkt} (h : Arrived s t type q p) (f : State → Qcp → Pkt → State) :
    onPacket t type s f = .next (f s.considered q p) := by
  obtain ⟨hq, hp, ht, hc, hw, hn, hf⟩ := h
  simp only [onPacket, hq, hp, ht, hc, hw, hn, bne_self_eq_false, Bool.false_eq_true, Bool.not_true, if_false]
  cases hb : p.fence
  · simp
  · simp [Qcp.quiet, hf hb]

/-- A packet that empties the history goes on in the state after it. -/
theorem plainPacket_goes {s : State} {t type : Nat} {q : Qcp} {p : Pkt} {u : State} (h : Goes s t type q p u) (f : State → State) :
    s.considered.plainPacket t q f = f u := by
  obtain ⟨-, hd, hu⟩ := h
  have e : (if (q.program.isSome || !q.history.isEmpty || q.pstate != .learning) = true then s.considered.unlearn t [] else s.considered) = u := by
    rw [hu]
    by_cases h1 : q.program = none <;> by_cases h2 : q.history = [] <;> by_cases h3 : q.pstate = .learning <;>
      simp [h1, h2, h3, Option.isSome_iff_ne_none]
  unfold State.plainPacket
  simp only [e, hd, Bool.false_eq_true, if_false]

/-- A service queue's event acts on a record of its operation. -/
theorem onRecord_calls {s : State} {q op : Nat} {r : Rec} (h : Calls s q op r) (f : Nat → Nat → Rec → Called) :
    onRecord q op s f = match f (s.svcCtx q) (r.seq - 1) r with
      | .wait u => .next u
      | .call u res => u.taken q r res := by
  obtain ⟨h, ho⟩ := h
  simp only [onRecord, h, ho, bne_self_eq_false, Bool.false_eq_true, if_false]
  rfl

/-- A buffer whose pages the Gaffer reaches is the call's to use; one of whose pages it cannot reach fails the call (R406). -/
theorem withBuffer_ok {s : State} {c va n : Nat} {write : Bool} (f : Called)
    (hw : s.partWait c .part (bufferParts va n write) = none) (hp : s.partFail c .part (bufferParts va n write) = none) :
    withBuffer s c va n write f = f := by
  simp [withBuffer, hw, hp]

theorem withBuffer_fault {s : State} {c va n : Nat} {write : Bool} (f : Called)
    (hw : s.partWait c .part (bufferParts va n write) = none) (hp : (s.partFail c .part (bufferParts va n write)).isSome = true) :
    withBuffer s c va n write f = .call s (some (-7)) := by
  simp [withBuffer, hw, hp]

/-- The die's next message is applied once what it touches can be reached (R391). -/
theorem applyMsg_msged {s : State} {die ctx type : Nat} {t : State} {m : Msg} {v : Serving} (h : Msged s die ctx type t m v)
    (f : State → Serving → Msg → Nat × List Byte × State) (after : State → Serving → Msg → List Byte → State)
    (hw : t.partWait ctx .part (t.inboxWants v die ctx ++ t.msgWants v die m) = none) :
    applyMsg die ctx type s f after = .next (
      let r := f t v m
      let u := r.2.2.applied die ctx v m r.1 r.2.1
      if r.1 ≤ 1 || r.1 = 5 then after u v m r.2.1 else u) := by
  obtain ⟨rfl, hn, hm, hv, rfl⟩ := h
  simp only [applyMsg, State.applied, hn, hm, hv, hw, bne_self_eq_false, Bool.false_eq_true, if_false]

/-- The same of a message of the part, which touches memory only where it leaves a notice. -/
theorem onPartMsg_msged {s : State} {die ctx type : Nat} {t : State} {m : Msg} {v : Serving} (h : Msged s die ctx type t m v)
    (f : State → Serving → Msg → State)
    (hw : t.notices die m = true → t.partWait ctx .part (t.inboxWants v die ctx ++ t.msgWants v die m) = none) :
    onPartMsg die ctx type s f = .next (f (t.takeMsg die ctx) v m) := by
  obtain ⟨rfl, hn, hm, hv, ht⟩ := h
  simp only [onPartMsg, hn, hm, hv, ht, bne_self_eq_false, Bool.false_eq_true, if_false, beq_self_eq_true, if_true]
  cases hk : s.deliverMsgs.notices die m
  · simp
  · simp [hw hk]

/-- A live chain has not stopped. -/
theorem liveChain_eq {s : State} {k : Nat} {c : Chain} : s.liveChain k = some c ↔ aget s.chains k = some c ∧ c.stop = none := by
  unfold State.liveChain
  cases h : aget s.chains k with
  | none => simp
  | some d =>
    cases hs : d.stop <;> simp [hs]
    · rintro rfl; exact hs
    · rintro rfl; simp [hs]

end Sys2Proof.Machine
end

