-- ==== Sys2Proof/Laws/Exec.lean ====
section
/-! SUPPORT. What exec calls for each constructor, so that no proof unfolds its match. Each is proved by a
term that simp does not take for a definitional step, so that the kernel never compares exec with a second match. -/

namespace Sys2Proof.Machine

open Sys2Proof

variable (s : State)

@[simp] theorem exec_nop (f : FForm) : exec (.nop f) s = execNop f s := (rfl)
@[simp] theorem exec_iadd (f : FForm) : exec (.iadd f) s = execIadd f s := (rfl)
@[simp] theorem exec_isub (f : FForm) : exec (.isub f) s = execIsub f s := (rfl)
@[simp] theorem exec_imul (f : FForm) : exec (.imul f) s = execImul f s := (rfl)
@[simp] theorem exec_imulh (f : FForm) : exec (.imulh f) s = execImulh f s := (rfl)
@[simp] theorem exec_imad (f : FForm) : exec (.imad f) s = execImad f s := (rfl)
@[simp] theorem exec_idiv (f : FForm) : exec (.idiv f) s = execIdiv f s := (rfl)
@[simp] theorem exec_irem (f : FForm) : exec (.irem f) s = execIrem f s := (rfl)
@[simp] theorem exec_imin (f : FForm) : exec (.imin f) s = execImin f s := (rfl)
@[simp] theorem exec_imax (f : FForm) : exec (.imax f) s = execImax f s := (rfl)
@[simp] theorem exec_iabs (f : FForm) : exec (.iabs f) s = execIabs f s := (rfl)
@[simp] theorem exec_ineg (f : FForm) : exec (.ineg f) s = execIneg f s := (rfl)
@[simp] theorem exec_and (f : FForm) : exec (.and f) s = execAnd f s := (rfl)
@[simp] theorem exec_or (f : FForm) : exec (.or f) s = execOr f s := (rfl)
@[simp] theorem exec_xor (f : FForm) : exec (.xor f) s = execXor f s := (rfl)
@[simp] theorem exec_andn (f : FForm) : exec (.andn f) s = execAndn f s := (rfl)
@[simp] theorem exec_not (f : FForm) : exec (.not f) s = execNot f s := (rfl)
@[simp] theorem exec_shl (f : FForm) : exec (.shl f) s = execShl f s := (rfl)
@[simp] theorem exec_shr (f : FForm) : exec (.shr f) s = execShr f s := (rfl)
@[simp] theorem exec_sar (f : FForm) : exec (.sar f) s = execSar f s := (rfl)
@[simp] theorem exec_rot (f : FForm) : exec (.rot f) s = execRot f s := (rfl)
@[simp] theorem exec_bfe (f : FForm) : exec (.bfe f) s = execBfe f s := (rfl)
@[simp] theorem exec_bfi (f : FForm) : exec (.bfi f) s = execBfi f s := (rfl)
@[simp] theorem exec_popc (f : FForm) : exec (.popc f) s = execPopc f s := (rfl)
@[simp] theorem exec_clz (f : FForm) : exec (.clz f) s = execClz f s := (rfl)
@[simp] theorem exec_brev (f : FForm) : exec (.brev f) s = execBrev f s := (rfl)
@[simp] theorem exec_icmp (f : FForm) : exec (.icmp f) s = execIcmp f s := (rfl)
@[simp] theorem exec_sel (f : FForm) : exec (.sel f) s = execSel f s := (rfl)
@[simp] theorem exec_iadds (f : FForm) : exec (.iadds f) s = execIadds f s := (rfl)
@[simp] theorem exec_isubs (f : FForm) : exec (.isubs f) s = execIsubs f s := (rfl)
@[simp] theorem exec_lea (f : FForm) : exec (.lea f) s = execLea f s := (rfl)
@[simp] theorem exec_mov (f : FForm) : exec (.mov f) s = execMov f s := (rfl)
@[simp] theorem exec_lil (f : FForm) : exec (.lil f) s = execLil f s := (rfl)
@[simp] theorem exec_lih (f : FForm) : exec (.lih f) s = execLih f s := (rfl)
@[simp] theorem exec_vote (f : FForm) : exec (.vote f) s = execVote f s := (rfl)
@[simp] theorem exec_shfl (f : FForm) : exec (.shfl f) s = execShfl f s := (rfl)
@[simp] theorem exec_redu (f : FForm) : exec (.redu f) s = execRedu f s := (rfl)
@[simp] theorem exec_scan (f : FForm) : exec (.scan f) s = execScan f s := (rfl)
@[simp] theorem exec_matchEq (f : FForm) : exec (.matchEq f) s = execMatchEq f s := (rfl)
@[simp] theorem exec_elect (f : FForm) : exec (.elect f) s = execElect f s := (rfl)
@[simp] theorem exec_prmt (f : FForm) : exec (.prmt f) s = execPrmt f s := (rfl)
@[simp] theorem exec_idot4 (f : FForm) : exec (.idot4 f) s = execIdot4 f s := (rfl)
@[simp] theorem exec_idot8 (f : FForm) : exec (.idot8 f) s = execIdot8 f s := (rfl)
@[simp] theorem exec_fadd (f : FForm) : exec (.fadd f) s = execFadd f s := (rfl)
@[simp] theorem exec_fsub (f : FForm) : exec (.fsub f) s = execFsub f s := (rfl)
@[simp] theorem exec_fmul (f : FForm) : exec (.fmul f) s = execFmul f s := (rfl)
@[simp] theorem exec_fma (f : FForm) : exec (.fma f) s = execFma f s := (rfl)
@[simp] theorem exec_fmin (f : FForm) : exec (.fmin f) s = execFmin f s := (rfl)
@[simp] theorem exec_fmax (f : FForm) : exec (.fmax f) s = execFmax f s := (rfl)
@[simp] theorem exec_fabs (f : FForm) : exec (.fabs f) s = execFabs f s := (rfl)
@[simp] theorem exec_fneg (f : FForm) : exec (.fneg f) s = execFneg f s := (rfl)
@[simp] theorem exec_fsgn (f : FForm) : exec (.fsgn f) s = execFsgn f s := (rfl)
@[simp] theorem exec_fcmp (f : FForm) : exec (.fcmp f) s = execFcmp f s := (rfl)
@[simp] theorem exec_frcp (f : FForm) : exec (.frcp f) s = execFrcp f s := (rfl)
@[simp] theorem exec_frsq (f : FForm) : exec (.frsq f) s = execFrsq f s := (rfl)
@[simp] theorem exec_fsqrt (f : FForm) : exec (.fsqrt f) s = execFsqrt f s := (rfl)
@[simp] theorem exec_fdiv (f : FForm) : exec (.fdiv f) s = execFdiv f s := (rfl)
@[simp] theorem exec_fexp2 (f : FForm) : exec (.fexp2 f) s = execFexp2 f s := (rfl)
@[simp] theorem exec_flog2 (f : FForm) : exec (.flog2 f) s = execFlog2 f s := (rfl)
@[simp] theorem exec_fsin (f : FForm) : exec (.fsin f) s = execFsin f s := (rfl)
@[simp] theorem exec_fcos (f : FForm) : exec (.fcos f) s = execFcos f s := (rfl)
@[simp] theorem exec_ftanh (f : FForm) : exec (.ftanh f) s = execFtanh f s := (rfl)
@[simp] theorem exec_fsigm (f : FForm) : exec (.fsigm f) s = execFsigm f s := (rfl)
@[simp] theorem exec_fclas (f : FForm) : exec (.fclas f) s = execFclas f s := (rfl)
@[simp] theorem exec_frnd (f : FForm) : exec (.frnd f) s = execFrnd f s := (rfl)
@[simp] theorem exec_fscal (f : FForm) : exec (.fscal f) s = execFscal f s := (rfl)
@[simp] theorem exec_fdot2 (f : FForm) : exec (.fdot2 f) s = execFdot2 f s := (rfl)
@[simp] theorem exec_fdot4 (f : FForm) : exec (.fdot4 f) s = execFdot4 f s := (rfl)
@[simp] theorem exec_smrg (f : FForm) : exec (.smrg f) s = execSmrg f s := (rfl)
@[simp] theorem exec_cvt (f : FForm) : exec (.cvt f) s = execCvt f s := (rfl)
@[simp] theorem exec_cvtfi (f : FForm) : exec (.cvtfi f) s = execCvtfi f s := (rfl)
@[simp] theorem exec_cvtif (f : FForm) : exec (.cvtif f) s = execCvtif f s := (rfl)
@[simp] theorem exec_cvtii (f : FForm) : exec (.cvtii f) s = execCvtii f s := (rfl)
@[simp] theorem exec_pack (f : FForm) : exec (.pack f) s = execPack f s := (rfl)
@[simp] theorem exec_unpk (f : FForm) : exec (.unpk f) s = execUnpk f s := (rfl)
@[simp] theorem exec_qnt (f : FForm) : exec (.qnt f) s = execQnt f s := (rfl)
@[simp] theorem exec_dqnt (f : FForm) : exec (.dqnt f) s = execDqnt f s := (rfl)
@[simp] theorem exec_dual (p : DSlot) (q : DSlot) : exec (.dual p q) s = execDual p q s := (rfl)
@[simp] theorem exec_uadd (f : FForm) : exec (.uadd f) s = execUadd f s := (rfl)
@[simp] theorem exec_usub (f : FForm) : exec (.usub f) s = execUsub f s := (rfl)
@[simp] theorem exec_umul (f : FForm) : exec (.umul f) s = execUmul f s := (rfl)
@[simp] theorem exec_uand (f : FForm) : exec (.uand f) s = execUand f s := (rfl)
@[simp] theorem exec_uor (f : FForm) : exec (.uor f) s = execUor f s := (rfl)
@[simp] theorem exec_uxor (f : FForm) : exec (.uxor f) s = execUxor f s := (rfl)
@[simp] theorem exec_ushl (f : FForm) : exec (.ushl f) s = execUshl f s := (rfl)
@[simp] theorem exec_ushr (f : FForm) : exec (.ushr f) s = execUshr f s := (rfl)
@[simp] theorem exec_ucmp (f : FForm) : exec (.ucmp f) s = execUcmp f s := (rfl)
@[simp] theorem exec_usel (f : FForm) : exec (.usel f) s = execUsel f s := (rfl)
@[simp] theorem exec_ulil (f : FForm) : exec (.ulil f) s = execUlil f s := (rfl)
@[simp] theorem exec_ulih (f : FForm) : exec (.ulih f) s = execUlih f s := (rfl)
@[simp] theorem exec_umin (f : FForm) : exec (.umin f) s = execUmin f s := (rfl)
@[simp] theorem exec_umax (f : FForm) : exec (.umax f) s = execUmax f s := (rfl)
@[simp] theorem exec_upick (f : FForm) : exec (.upick f) s = execUpick f s := (rfl)
@[simp] theorem exec_ulea (f : FForm) : exec (.ulea f) s = execUlea f s := (rfl)
@[simp] theorem exec_ufadd (f : FForm) : exec (.ufadd f) s = execUfadd f s := (rfl)
@[simp] theorem exec_ufmul (f : FForm) : exec (.ufmul f) s = execUfmul f s := (rfl)
@[simp] theorem exec_ufma (f : FForm) : exec (.ufma f) s = execUfma f s := (rfl)
@[simp] theorem exec_umov (f : FForm) : exec (.umov f) s = execUmov f s := (rfl)
@[simp] theorem exec_ucvt (f : FForm) : exec (.ucvt f) s = execUcvt f s := (rfl)
@[simp] theorem exec_bra (f : FForm) : exec (.bra f) s = execBra f s := (rfl)
@[simp] theorem exec_bru (f : FForm) : exec (.bru f) s = execBru f s := (rfl)
@[simp] theorem exec_jmpi (f : FForm) : exec (.jmpi f) s = execJmpi f s := (rfl)
@[simp] theorem exec_call (f : FForm) : exec (.call f) s = execCall f s := (rfl)
@[simp] theorem exec_calli (f : FForm) : exec (.calli f) s = execCalli f s := (rfl)
@[simp] theorem exec_ret (f : FForm) : exec (.ret f) s = execRet f s := (rfl)
@[simp] theorem exec_join (f : FForm) : exec (.join f) s = execJoin f s := (rfl)
@[simp] theorem exec_joinComplete (g : GRef) (lane : Nat) : exec (.joinComplete g lane) s = execJoinComplete g lane s := (rfl)
@[simp] theorem exec_exit (f : FForm) : exec (.exit f) s = execExit f s := (rfl)
@[simp] theorem exec_bar (f : FForm) : exec (.bar f) s = execBar f s := (rfl)
@[simp] theorem exec_cbar (f : FForm) : exec (.cbar f) s = execCbar f s := (rfl)
@[simp] theorem exec_barrierComplete (team : Nat) (cluster : Bool) (n : Nat) : exec (.barrierComplete team cluster n) s = execBarrierComplete team cluster n s := (rfl)
@[simp] theorem exec_waitseq (f : FForm) : exec (.waitseq f) s = execWaitseq f s := (rfl)
@[simp] theorem exec_waitseqSatisfied (g : GRef) (lane : Nat) : exec (.waitseqSatisfied g lane) s = execWaitseqSatisfied g lane s := (rfl)
@[simp] theorem exec_sleep (f : FForm) : exec (.sleep f) s = execSleep f s := (rfl)
@[simp] theorem exec_sleepWake (g : GRef) (lane : Nat) : exec (.sleepWake g lane) s = execSleepWake g lane s := (rfl)
@[simp] theorem exec_pause (f : FForm) : exec (.pause f) s = execPause f s := (rfl)
@[simp] theorem exec_pauseExpiry (g : GRef) : exec (.pauseExpiry g) s = execPauseExpiry g s := (rfl)
@[simp] theorem exec_setpri (f : FForm) : exec (.setpri f) s = execSetpri f s := (rfl)
@[simp] theorem exec_yield (f : FForm) : exec (.yield f) s = execYield f s := (rfl)
@[simp] theorem exec_loop (f : FForm) : exec (.loop f) s = execLoop f s := (rfl)
@[simp] theorem exec_ld (f : FForm) : exec (.ld f) s = execLd f s := (rfl)
@[simp] theorem exec_st (f : FForm) : exec (.st f) s = execSt f s := (rfl)
@[simp] theorem exec_lds (f : FForm) : exec (.lds f) s = execLds f s := (rfl)
@[simp] theorem exec_sts (f : FForm) : exec (.sts f) s = execSts f s := (rfl)
@[simp] theorem exec_ldk (f : FForm) : exec (.ldk f) s = execLdk f s := (rfl)
@[simp] theorem exec_ldt (f : FForm) : exec (.ldt f) s = execLdt f s := (rfl)
@[simp] theorem exec_stt (f : FForm) : exec (.stt f) s = execStt f s := (rfl)
@[simp] theorem exec_atom (f : FForm) : exec (.atom f) s = execAtom f s := (rfl)
@[simp] theorem exec_atoms (f : FForm) : exec (.atoms f) s = execAtoms f s := (rfl)
@[simp] theorem exec_cas (f : FForm) : exec (.cas f) s = execCas f s := (rfl)
@[simp] theorem exec_cass (f : FForm) : exec (.cass f) s = execCass f s := (rfl)
@[simp] theorem exec_lda (f : FForm) : exec (.lda f) s = execLda f s := (rfl)
@[simp] theorem exec_str (f : FForm) : exec (.str f) s = execStr f s := (rfl)
@[simp] theorem exec_fence (f : FForm) : exec (.fence f) s = execFence f s := (rfl)
@[simp] theorem exec_pref (f : FForm) : exec (.pref f) s = execPref f s := (rfl)
@[simp] theorem exec_cwb (f : FForm) : exec (.cwb f) s = execCwb f s := (rfl)
@[simp] theorem exec_cinv (f : FForm) : exec (.cinv f) s = execCinv f s := (rfl)
@[simp] theorem exec_bobjInit (f : FForm) : exec (.bobjInit f) s = execBobjInit f s := (rfl)
@[simp] theorem exec_bobjArrive (f : FForm) : exec (.bobjArrive f) s = execBobjArrive f s := (rfl)
@[simp] theorem exec_bobjWait (f : FForm) : exec (.bobjWait f) s = execBobjWait f s := (rfl)
@[simp] theorem exec_bobjWaitPass (g : GRef) (lane : Nat) : exec (.bobjWaitPass g lane) s = execBobjWaitPass g lane s := (rfl)
@[simp] theorem exec_acp (f : FForm) : exec (.acp f) s = execAcp f s := (rfl)
@[simp] theorem exec_copyLand (g : GRef) (k : Nat) : exec (.copyLand g k) s = execCopyLand g k s := (rfl)
@[simp] theorem exec_acwait (f : FForm) : exec (.acwait f) s = execAcwait f s := (rfl)
@[simp] theorem exec_acwaitProceed (g : GRef) (lane : Nat) : exec (.acwaitProceed g lane) s = execAcwaitProceed g lane s := (rfl)
@[simp] theorem exec_accnt (f : FForm) : exec (.accnt f) s = execAccnt f s := (rfl)
@[simp] theorem exec_rngi (f : FForm) : exec (.rngi f) s = execRngi f s := (rfl)
@[simp] theorem exec_awf (f : FForm) : exec (.awf f) s = execAwf f s := (rfl)
@[simp] theorem exec_awfSlotTaken (g : GRef) (lane : Nat) : exec (.awfSlotTaken g lane) s = execAwfSlotTaken g lane s := (rfl)
@[simp] theorem exec_rls (f : FForm) : exec (.rls f) s = execRls f s := (rfl)
@[simp] theorem exec_enq (f : FForm) : exec (.enq f) s = execEnq f s := (rfl)
@[simp] theorem exec_engst (f : FForm) : exec (.engst f) s = execEngst f s := (rfl)
@[simp] theorem exec_arb (f : FForm) : exec (.arb f) s = execArb f s := (rfl)
@[simp] theorem exec_arc (f : FForm) : exec (.arc f) s = execArc f s := (rfl)
@[simp] theorem exec_ara (f : FForm) : exec (.ara f) s = execAra f s := (rfl)
@[simp] theorem exec_arst (f : FForm) : exec (.arst f) s = execArst f s := (rfl)
@[simp] theorem exec_mma (f : FForm) : exec (.mma f) s = execMma f s := (rfl)
@[simp] theorem exec_tileOpComplete (k : Nat) : exec (.tileOpComplete k) s = execTileOpComplete k s := (rfl)
@[simp] theorem exec_accld (f : FForm) : exec (.accld f) s = execAccld f s := (rfl)
@[simp] theorem exec_accst (f : FForm) : exec (.accst f) s = execAccst f s := (rfl)
@[simp] theorem exec_accz (f : FForm) : exec (.accz f) s = execAccz f s := (rfl)
@[simp] theorem exec_accrd (f : FForm) : exec (.accrd f) s = execAccrd f s := (rfl)
@[simp] theorem exec_accwr (f : FForm) : exec (.accwr f) s = execAccwr f s := (rfl)
@[simp] theorem exec_mtok (f : FForm) : exec (.mtok f) s = execMtok f s := (rfl)
@[simp] theorem exec_mxq (f : FForm) : exec (.mxq f) s = execMxq f s := (rfl)
@[simp] theorem exec_lgfa (f : FForm) : exec (.lgfa f) s = execLgfa f s := (rfl)
@[simp] theorem exec_lgfr (f : FForm) : exec (.lgfr f) s = execLgfr f s := (rfl)
@[simp] theorem exec_samp (f : FForm) : exec (.samp f) s = execSamp f s := (rfl)
@[simp] theorem exec_toks (f : FForm) : exec (.toks f) s = execToks f s := (rfl)
@[simp] theorem exec_seqq (f : FForm) : exec (.seqq f) s = execSeqq f s := (rfl)
@[simp] theorem exec_pfxl (f : FForm) : exec (.pfxl f) s = execPfxl f s := (rfl)
@[simp] theorem exec_pfxi (f : FForm) : exec (.pfxi f) s = execPfxi f s := (rfl)
@[simp] theorem exec_mfs (f : FForm) : exec (.mfs f) s = execMfs f s := (rfl)
@[simp] theorem exec_mts (f : FForm) : exec (.mts f) s = execMts f s := (rfl)
@[simp] theorem exec_trap (f : FForm) : exec (.trap f) s = execTrap f s := (rfl)
@[simp] theorem exec_tret (f : FForm) : exec (.tret f) s = execTret f s := (rfl)
@[simp] theorem exec_spill (f : FForm) : exec (.spill f) s = execSpill f s := (rfl)
@[simp] theorem exec_fill (f : FForm) : exec (.fill f) s = execFill f s := (rfl)
@[simp] theorem exec_uiret (f : FForm) : exec (.uiret f) s = execUiret f s := (rfl)
@[simp] theorem exec_bkpt (f : FForm) : exec (.bkpt f) s = execBkpt f s := (rfl)
@[simp] theorem exec_tlbi (f : FForm) : exec (.tlbi f) s = execTlbi f s := (rfl)
@[simp] theorem exec_ctxs (f : FForm) : exec (.ctxs f) s = execCtxs f s := (rfl)
@[simp] theorem exec_ctxr (f : FForm) : exec (.ctxr f) s = execCtxr f s := (rfl)
@[simp] theorem exec_halt (f : FForm) : exec (.halt f) s = execHalt f s := (rfl)
@[simp] theorem exec_shid (f : FForm) : exec (.shid f) s = execShid f s := (rfl)
@[simp] theorem exec_shdef (f : FForm) : exec (.shdef f) s = execShdef f s := (rfl)
@[simp] theorem exec_shrel (f : FForm) : exec (.shrel f) s = execShrel f s := (rfl)
@[simp] theorem exec_octlDecl (f : FForm) : exec (.octlDecl f) s = execOctlDecl f s := (rfl)
@[simp] theorem exec_octlUndecl (f : FForm) : exec (.octlUndecl f) s = execOctlUndecl f s := (rfl)
@[simp] theorem exec_octlFlush (f : FForm) : exec (.octlFlush f) s = execOctlFlush f s := (rfl)
@[simp] theorem exec_octlQuery (f : FForm) : exec (.octlQuery f) s = execOctlQuery f s := (rfl)
@[simp] theorem exec_verq (f : FForm) : exec (.verq f) s = execVerq f s := (rfl)
@[simp] theorem exec_groupAged (g : GRef) : exec (.groupAged g) s = execGroupAged g s := (rfl)
@[simp] theorem exec_teamAdmit (launch : Nat) (die : Nat) (core : Nat) : exec (.teamAdmit launch die core) s = execTeamAdmit launch die core s := (rfl)
@[simp] theorem exec_forwardProgressSwap (die : Nat) (core : Nat) : exec (.forwardProgressSwap die core) s = execForwardProgressSwap die core s := (rfl)
@[simp] theorem exec_safepointTimeout (ctx : Nat) : exec (.safepointTimeout ctx) s = execSafepointTimeout ctx s := (rfl)
@[simp] theorem exec_groupEnd (g : GRef) : exec (.groupEnd g) s = execGroupEnd g s := (rfl)
@[simp] theorem exec_storeDrain (g : GRef) (k : Nat) (combining : Bool) : exec (.storeDrain g k combining) s = execStoreDrain g k combining s := (rfl)
@[simp] theorem exec_storeAck (g : GRef) : exec (.storeAck g) s = execStoreAck g s := (rfl)
@[simp] theorem exec_atsTranslationCompletion (ctx : Nat) (page : Nat) (host : Nat) (r : Bool) (w : Bool) : exec (.atsTranslationCompletion ctx page host r w) s = execAtsTranslationCompletion ctx page host r w s := (rfl)
@[simp] theorem exec_priResponse (ctx : Nat) (page : Nat) (write : Bool) (success : Bool) : exec (.priResponse ctx page write success) s = execPriResponse ctx page write success s := (rfl)
@[simp] theorem exec_atsInvalidate (ctx : Nat) (page : Nat) : exec (.atsInvalidate ctx page) s = execAtsInvalidate ctx page s := (rfl)
@[simp] theorem exec_invalidationComplete (ctx : Nat) (page : Nat) : exec (.invalidationComplete ctx page) s = execInvalidationComplete ctx page s := (rfl)
@[simp] theorem exec_engineTakeCard (chain : Nat) : exec (.engineTakeCard chain) s = execEngineTakeCard chain s := (rfl)
@[simp] theorem exec_segmentIssue (chain : Nat) : exec (.segmentIssue chain) s = execSegmentIssue chain s := (rfl)
@[simp] theorem exec_engineRecallAnswer (chain : Nat) (line : Nat) : exec (.engineRecallAnswer chain line) s = execEngineRecallAnswer chain line s := (rfl)
@[simp] theorem exec_ringFill (chain : Nat) : exec (.ringFill chain) s = execRingFill chain s := (rfl)
@[simp] theorem exec_jobCompletion (chain : Nat) : exec (.jobCompletion chain) s = execJobCompletion chain s := (rfl)
@[simp] theorem exec_matrixIteration (chain : Nat) : exec (.matrixIteration chain) s = execMatrixIteration chain s := (rfl)
@[simp] theorem exec_lehrPoint (chain : Nat) : exec (.lehrPoint chain) s = execLehrPoint chain s := (rfl)
@[simp] theorem exec_sharedReadRequest (k : Nat) : exec (.sharedReadRequest k) s = execSharedReadRequest k s := (rfl)
@[simp] theorem exec_ownershipRequest (k : Nat) : exec (.ownershipRequest k) s = execOwnershipRequest k s := (rfl)
@[simp] theorem exec_writeAtHome (k : Nat) : exec (.writeAtHome k) s = execWriteAtHome k s := (rfl)
@[simp] theorem exec_onAck (k : Nat) : exec (.onAck k) s = execOnAck k s := (rfl)
@[simp] theorem exec_onNotice (k : Nat) : exec (.onNotice k) s = execOnNotice k s := (rfl)
@[simp] theorem exec_snpinv (half : Nat) : exec (.snpinv half) s = execSnpinv half s := (rfl)
@[simp] theorem exec_snpdata (half : Nat) : exec (.snpdata half) s = execSnpdata half s := (rfl)
@[simp] theorem exec_snpcur (half : Nat) : exec (.snpcur half) s = execSnpcur half s := (rfl)
@[simp] theorem exec_hostCxlMemRequest (half : Nat) (write : Bool) (data : List Byte) : exec (.hostCxlMemRequest half write data) s = execHostCxlMemRequest half write data s := (rfl)
@[simp] theorem exec_scratchDrained (team : Nat) : exec (.scratchDrained team) s = execScratchDrained team s := (rfl)
@[simp] theorem exec_scratchZeroed (team : Nat) : exec (.scratchZeroed team) s = execScratchZeroed team s := (rfl)
@[simp] theorem exec_scratchDrainTimeout (team : Nat) : exec (.scratchDrainTimeout team) s = execScratchDrainTimeout team s := (rfl)
@[simp] theorem exec_uiDelivery (g : GRef) (lane : Nat) : exec (.uiDelivery g lane) s = execUiDelivery g lane s := (rfl)
@[simp] theorem exec_doorbell (thread : Nat) (pos : DWord) : exec (.doorbell thread pos) s = execDoorbell thread pos s := (rfl)
@[simp] theorem exec_packetReread (thread : Nat) : exec (.packetReread thread) s = execPacketReread thread s := (rfl)
@[simp] theorem exec_launch (thread : Nat) : exec (.launch thread) s = execLaunch thread s := (rfl)
@[simp] theorem exec_wait (thread : Nat) : exec (.wait thread) s = execWait thread s := (rfl)
@[simp] theorem exec_queueWaitSatisfied (thread : Nat) : exec (.queueWaitSatisfied thread) s = execQueueWaitSatisfied thread s := (rfl)
@[simp] theorem exec_signal (thread : Nat) : exec (.signal thread) s = execSignal thread s := (rfl)
@[simp] theorem exec_copy (thread : Nat) : exec (.copy thread) s = execCopy thread s := (rfl)
@[simp] theorem exec_barrier (thread : Nat) : exec (.barrier thread) s = execBarrier thread s := (rfl)
@[simp] theorem exec_loopctlSetdepth (thread : Nat) : exec (.loopctlSetdepth thread) s = execLoopctlSetdepth thread s := (rfl)
@[simp] theorem exec_loopctlDrop (thread : Nat) : exec (.loopctlDrop thread) s = execLoopctlDrop thread s := (rfl)
@[simp] theorem exec_loopctlForget (thread : Nat) : exec (.loopctlForget thread) s = execLoopctlForget thread s := (rfl)
@[simp] theorem exec_nopad (thread : Nat) : exec (.nopad thread) s = execNopad thread s := (rfl)
@[simp] theorem exec_packetCompletion (thread : Nat) (seq : DWord) : exec (.packetCompletion thread seq) s = execPacketCompletion thread seq s := (rfl)
@[simp] theorem exec_predictionStart (thread : Nat) : exec (.predictionStart thread) s = execPredictionStart thread s := (rfl)
@[simp] theorem exec_relabel (thread : Nat) : exec (.relabel thread) s = execRelabel thread s := (rfl)
@[simp] theorem exec_discardDone (thread : Nat) : exec (.discardDone thread) s = execDiscardDone thread s := (rfl)
@[simp] theorem exec_idleTimeout (thread : Nat) : exec (.idleTimeout thread) s = execIdleTimeout thread s := (rfl)
@[simp] theorem exec_start (thread : Nat) : exec (.start thread) s = execStart thread s := (rfl)
@[simp] theorem exec_stop (thread : Nat) : exec (.stop thread) s = execStop thread s := (rfl)
@[simp] theorem exec_unmap (thread : Nat) : exec (.unmap thread) s = execUnmap thread s := (rfl)
@[simp] theorem exec_forget (thread : Nat) : exec (.forget thread) s = execForget thread s := (rfl)
@[simp] theorem exec_queueMap (thread : Nat) (value : DWord) : exec (.queueMap thread value) s = execQueueMap thread value s := (rfl)
@[simp] theorem exec_drainingEnd (thread : Nat) : exec (.drainingEnd thread) s = execDrainingEnd thread s := (rfl)
@[simp] theorem exec_contextActivate (ctx : Nat) : exec (.contextActivate ctx) s = execContextActivate ctx s := (rfl)
@[simp] theorem exec_contextDeactivate (ctx : Nat) : exec (.contextDeactivate ctx) s = execContextDeactivate ctx s := (rfl)
@[simp] theorem exec_preempt (ctx : Nat) : exec (.preempt ctx) s = execPreempt ctx s := (rfl)
@[simp] theorem exec_teamSave (team : Nat) : exec (.teamSave team) s = execTeamSave team s := (rfl)
@[simp] theorem exec_resume (ctx : Nat) : exec (.resume ctx) s = execResume ctx s := (rfl)
@[simp] theorem exec_kill (ctx : Nat) : exec (.kill ctx) s = execKill ctx s := (rfl)
@[simp] theorem exec_gresume (ctx : Nat) (stopid : Nat) : exec (.gresume ctx stopid) s = execGresume ctx stopid s := (rfl)
@[simp] theorem exec_gkill (ctx : Nat) (stopid : Nat) : exec (.gkill ctx stopid) s = execGkill ctx stopid s := (rfl)
@[simp] theorem exec_gstep (ctx : Nat) (stopid : Nat) : exec (.gstep ctx stopid) s = execGstep ctx stopid s := (rfl)
@[simp] theorem exec_gsave (ctx : Nat) (stopid : Nat) : exec (.gsave ctx stopid) s = execGsave ctx stopid s := (rfl)
@[simp] theorem exec_gload (ctx : Nat) (stopid : Nat) : exec (.gload ctx stopid) s = execGload ctx stopid s := (rfl)
@[simp] theorem exec_faultRecordWrite : exec .faultRecordWrite s = execFaultRecordWrite s := (rfl)
@[simp] theorem exec_uipost (value : DWord) : exec (.uipost value) s = execUipost value s := (rfl)
@[simp] theorem exec_bar4Read (off : Nat) (size : Nat) : exec (.bar4Read off size) s = execBar4Read off size s := (rfl)
@[simp] theorem exec_bar4Write (off : Nat) (data : List Byte) : exec (.bar4Write off data) s = execBar4Write off data s := (rfl)
@[simp] theorem exec_openSeq (die : Nat) (ctx : Nat) : exec (.openSeq die ctx) s = execOpenSeq die ctx s := (rfl)
@[simp] theorem exec_extend (die : Nat) (ctx : Nat) : exec (.extend die ctx) s = execExtend die ctx s := (rfl)
@[simp] theorem exec_draft (die : Nat) (ctx : Nat) : exec (.draft die ctx) s = execDraft die ctx s := (rfl)
@[simp] theorem exec_token (die : Nat) (ctx : Nat) : exec (.token die ctx) s = execToken die ctx s := (rfl)
@[simp] theorem exec_closeSeq (die : Nat) (ctx : Nat) : exec (.closeSeq die ctx) s = execCloseSeq die ctx s := (rfl)
@[simp] theorem exec_give (die : Nat) (ctx : Nat) : exec (.give die ctx) s = execGive die ctx s := (rfl)
@[simp] theorem exec_note (die : Nat) (ctx : Nat) : exec (.note die ctx) s = execNote die ctx s := (rfl)
@[simp] theorem exec_adopt (die : Nat) (ctx : Nat) : exec (.adopt die ctx) s = execAdopt die ctx s := (rfl)
@[simp] theorem exec_ack (die : Nat) (ctx : Nat) : exec (.ack die ctx) s = execAck die ctx s := (rfl)
@[simp] theorem exec_refuse (die : Nat) (ctx : Nat) : exec (.refuse die ctx) s = execRefuse die ctx s := (rfl)
@[simp] theorem exec_kvError (line : Nat) : exec (.kvError line) s = execKvError line s := (rfl)
@[simp] theorem exec_servingEnable (ctx : Nat) : exec (.servingEnable ctx) s = execServingEnable ctx s := (rfl)
@[simp] theorem exec_servingDisable (ctx : Nat) : exec (.servingDisable ctx) s = execServingDisable ctx s := (rfl)
@[simp] theorem exec_serviceQueueEnable (queue : Nat) : exec (.serviceQueueEnable queue) s = execServiceQueueEnable queue s := (rfl)
@[simp] theorem exec_serviceQueueDisable (queue : Nat) : exec (.serviceQueueDisable queue) s = execServiceQueueDisable queue s := (rfl)
@[simp] theorem exec_notify (queue : Nat) (ctx : Nat) (value : DWord) : exec (.notify queue ctx value) s = execNotify queue ctx value s := (rfl)
@[simp] theorem exec_recordReread (queue : Nat) : exec (.recordReread queue) s = execRecordReread queue s := (rfl)
@[simp] theorem exec_socket (queue : Nat) : exec (.socket queue) s = execSocket queue s := (rfl)
@[simp] theorem exec_bind (queue : Nat) : exec (.bind queue) s = execBind queue s := (rfl)
@[simp] theorem exec_connect (queue : Nat) : exec (.connect queue) s = execConnect queue s := (rfl)
@[simp] theorem exec_listen (queue : Nat) : exec (.listen queue) s = execListen queue s := (rfl)
@[simp] theorem exec_acceptConn (queue : Nat) : exec (.acceptConn queue) s = execAcceptConn queue s := (rfl)
@[simp] theorem exec_send (queue : Nat) : exec (.send queue) s = execSend queue s := (rfl)
@[simp] theorem exec_recv (queue : Nat) : exec (.recv queue) s = execRecv queue s := (rfl)
@[simp] theorem exec_socketClose (queue : Nat) : exec (.socketClose queue) s = execSocketClose queue s := (rfl)
@[simp] theorem exec_rdwrite (queue : Nat) : exec (.rdwrite queue) s = execRdwrite queue s := (rfl)
@[simp] theorem exec_rdread (queue : Nat) : exec (.rdread queue) s = execRdread queue s := (rfl)
@[simp] theorem exec_portq (queue : Nat) : exec (.portq queue) s = execPortq queue s := (rfl)
@[simp] theorem exec_callCompletion (queue : Nat) (outcome : Int) (data : List Byte) : exec (.callCompletion queue outcome data) s = execCallCompletion queue outcome data s := (rfl)
@[simp] theorem exec_pageReturn (queue : Nat) : exec (.pageReturn queue) s = execPageReturn queue s := (rfl)
@[simp] theorem exec_portDown (port : Nat) : exec (.portDown port) s = execPortDown port s := (rfl)
@[simp] theorem exec_bistRun (path : Word) : exec (.bistRun path) s = execBistRun path s := (rfl)
@[simp] theorem exec_bistTest (pass : Bool) (path : List Word) (test : List Nat) : exec (.bistTest pass path test) s = execBistTest pass path test s := (rfl)
@[simp] theorem exec_fenceUnit (path : Word) (cause : Nat) : exec (.fenceUnit path cause) s = execFenceUnit path cause s := (rfl)
@[simp] theorem exec_errorRecordWrite : exec .errorRecordWrite s = execErrorRecordWrite s := (rfl)
@[simp] theorem exec_memoryError (kind : MemErr) (corrected : Bool) (path : Word) (line : Nat) (detail : Nat) : exec (.memoryError kind corrected path line detail) s = execMemoryError kind corrected path line detail s := (rfl)
@[simp] theorem exec_linkFlitReplayed (path : Word) (lane : Nat) : exec (.linkFlitReplayed path lane) s = execLinkFlitReplayed path lane s := (rfl)
@[simp] theorem exec_linkLaneFailed (path : Word) (lane : Nat) : exec (.linkLaneFailed path lane) s = execLinkLaneFailed path lane s := (rfl)
@[simp] theorem exec_thermalThrottle (die : Nat) (celsius : Nat) : exec (.thermalThrottle die celsius) s = execThermalThrottle die celsius s := (rfl)
@[simp] theorem exec_thermalTrip (die : Nat) (celsius : Nat) : exec (.thermalTrip die celsius) s = execThermalTrip die celsius s := (rfl)
@[simp] theorem exec_coolantFlowLow (dlpm : Nat) : exec (.coolantFlowLow dlpm) s = execCoolantFlowLow dlpm s := (rfl)
@[simp] theorem exec_powerCapCorrection : exec .powerCapCorrection s = execPowerCapCorrection s := (rfl)
@[simp] theorem exec_coldReset (start : PowerOn) : exec (.coldReset start) s = execColdReset start s := (rfl)
@[simp] theorem exec_warmReset : exec .warmReset s = execWarmReset s := (rfl)
@[simp] theorem exec_writeSlotA : exec .writeSlotA s = execWriteSlotA s := (rfl)
@[simp] theorem exec_writeSlotB : exec .writeSlotB s = execWriteSlotB s := (rfl)
@[simp] theorem exec_enrolOwnerKey : exec .enrolOwnerKey s = execEnrolOwnerKey s := (rfl)
@[simp] theorem exec_revokeOwnerKey : exec .revokeOwnerKey s = execRevokeOwnerKey s := (rfl)
@[simp] theorem exec_setVendoff : exec .setVendoff s = execSetVendoff s := (rfl)
@[simp] theorem exec_attestationReport (nonce : DWord) (output : DWord) : exec (.attestationReport nonce output) s = execAttestationReport nonce output s := (rfl)
@[simp] theorem exec_registerWrite (off : Nat) (value : DWord) (bytes : Byte) : exec (.registerWrite off value bytes) s = execRegisterWrite off value bytes s := (rfl)
@[simp] theorem exec_recallLine (k : Nat) : exec (.recallLine k) s = execRecall k s := (rfl)
@[simp] theorem exec_grant (k : Nat) : exec (.grant k) s = execGrant k s := (rfl)
@[simp] theorem exec_cxlCacheCompletion (half : Nat) (exclusive : Bool) (data : List Byte) : exec (.cxlCacheCompletion half exclusive data) s = execCxlCacheCompletion half exclusive data s := (rfl)
@[simp] theorem exec_coolantFlowRestored (dlpm : Nat) : exec (.coolantFlowRestored dlpm) s = execCoolantFlowRestored dlpm s := (rfl)
@[simp] theorem exec_portLinkUp (port : Nat) (lanes : Nat) : exec (.portLinkUp port lanes) s = execPortLinkUp port lanes s := (rfl)

end Sys2Proof.Machine
end

