-- ==== Sys2Proof/Laws/PerInstr.lean ====
section
/-! SUPPORT. A statement of every instruction as syntax, one lemma for each constructor: the opcode and FN of an instruction
name it to the decoder (R90, R120 to R130). -/

namespace Sys2Proof.Laws.OfOp

open Sys2Proof

/-- The opcode of an instruction with the F-form's fields, with its FN, is the decoder's for that instruction alone. -/
def Statement (i : Instr) : Prop :=
  ∀ op f, i.fform = some (op, f) → (∀ n, i.fixedFn = some n → f.fn = n) → Instr.ofOp op f.fn f = some i

theorem nop (f : FForm) : Statement (.nop f) := fun _ _ h _ => by cases h; rfl
theorem iadd (f : FForm) : Statement (.iadd f) := fun _ _ h _ => by cases h; rfl
theorem isub (f : FForm) : Statement (.isub f) := fun _ _ h _ => by cases h; rfl
theorem imul (f : FForm) : Statement (.imul f) := fun _ _ h _ => by cases h; rfl
theorem imulh (f : FForm) : Statement (.imulh f) := fun _ _ h _ => by cases h; rfl
theorem imad (f : FForm) : Statement (.imad f) := fun _ _ h _ => by cases h; rfl
theorem idiv (f : FForm) : Statement (.idiv f) := fun _ _ h _ => by cases h; rfl
theorem irem (f : FForm) : Statement (.irem f) := fun _ _ h _ => by cases h; rfl
theorem imin (f : FForm) : Statement (.imin f) := fun _ _ h _ => by cases h; rfl
theorem imax (f : FForm) : Statement (.imax f) := fun _ _ h _ => by cases h; rfl
theorem iabs (f : FForm) : Statement (.iabs f) := fun _ _ h _ => by cases h; rfl
theorem ineg (f : FForm) : Statement (.ineg f) := fun _ _ h _ => by cases h; rfl
theorem and (f : FForm) : Statement (.and f) := fun _ _ h _ => by cases h; rfl
theorem or (f : FForm) : Statement (.or f) := fun _ _ h _ => by cases h; rfl
theorem xor (f : FForm) : Statement (.xor f) := fun _ _ h _ => by cases h; rfl
theorem andn (f : FForm) : Statement (.andn f) := fun _ _ h _ => by cases h; rfl
theorem not (f : FForm) : Statement (.not f) := fun _ _ h _ => by cases h; rfl
theorem shl (f : FForm) : Statement (.shl f) := fun _ _ h _ => by cases h; rfl
theorem shr (f : FForm) : Statement (.shr f) := fun _ _ h _ => by cases h; rfl
theorem sar (f : FForm) : Statement (.sar f) := fun _ _ h _ => by cases h; rfl
theorem rot (f : FForm) : Statement (.rot f) := fun _ _ h _ => by cases h; rfl
theorem bfe (f : FForm) : Statement (.bfe f) := fun _ _ h _ => by cases h; rfl
theorem bfi (f : FForm) : Statement (.bfi f) := fun _ _ h _ => by cases h; rfl
theorem popc (f : FForm) : Statement (.popc f) := fun _ _ h _ => by cases h; rfl
theorem clz (f : FForm) : Statement (.clz f) := fun _ _ h _ => by cases h; rfl
theorem brev (f : FForm) : Statement (.brev f) := fun _ _ h _ => by cases h; rfl
theorem icmp (f : FForm) : Statement (.icmp f) := fun _ _ h _ => by cases h; rfl
theorem sel (f : FForm) : Statement (.sel f) := fun _ _ h _ => by cases h; rfl
theorem iadds (f : FForm) : Statement (.iadds f) := fun _ _ h _ => by cases h; rfl
theorem isubs (f : FForm) : Statement (.isubs f) := fun _ _ h _ => by cases h; rfl
theorem lea (f : FForm) : Statement (.lea f) := fun _ _ h _ => by cases h; rfl
theorem mov (f : FForm) : Statement (.mov f) := fun _ _ h _ => by cases h; rfl
theorem lil (f : FForm) : Statement (.lil f) := fun _ _ h _ => by cases h; rfl
theorem lih (f : FForm) : Statement (.lih f) := fun _ _ h _ => by cases h; rfl
theorem vote (f : FForm) : Statement (.vote f) := fun _ _ h _ => by cases h; rfl
theorem shfl (f : FForm) : Statement (.shfl f) := fun _ _ h _ => by cases h; rfl
theorem redu (f : FForm) : Statement (.redu f) := fun _ _ h _ => by cases h; rfl
theorem scan (f : FForm) : Statement (.scan f) := fun _ _ h _ => by cases h; rfl
theorem matchEq (f : FForm) : Statement (.matchEq f) := fun _ _ h _ => by cases h; rfl
theorem elect (f : FForm) : Statement (.elect f) := fun _ _ h _ => by cases h; rfl
theorem prmt (f : FForm) : Statement (.prmt f) := fun _ _ h _ => by cases h; rfl
theorem idot4 (f : FForm) : Statement (.idot4 f) := fun _ _ h _ => by cases h; rfl
theorem idot8 (f : FForm) : Statement (.idot8 f) := fun _ _ h _ => by cases h; rfl
theorem fadd (f : FForm) : Statement (.fadd f) := fun _ _ h _ => by cases h; rfl
theorem fsub (f : FForm) : Statement (.fsub f) := fun _ _ h _ => by cases h; rfl
theorem fmul (f : FForm) : Statement (.fmul f) := fun _ _ h _ => by cases h; rfl
theorem fma (f : FForm) : Statement (.fma f) := fun _ _ h _ => by cases h; rfl
theorem fmin (f : FForm) : Statement (.fmin f) := fun _ _ h _ => by cases h; rfl
theorem fmax (f : FForm) : Statement (.fmax f) := fun _ _ h _ => by cases h; rfl
theorem fabs (f : FForm) : Statement (.fabs f) := fun _ _ h _ => by cases h; rfl
theorem fneg (f : FForm) : Statement (.fneg f) := fun _ _ h _ => by cases h; rfl
theorem fsgn (f : FForm) : Statement (.fsgn f) := fun _ _ h _ => by cases h; rfl
theorem fcmp (f : FForm) : Statement (.fcmp f) := fun _ _ h _ => by cases h; rfl
theorem frcp (f : FForm) : Statement (.frcp f) := fun _ _ h _ => by cases h; rfl
theorem frsq (f : FForm) : Statement (.frsq f) := fun _ _ h _ => by cases h; rfl
theorem fsqrt (f : FForm) : Statement (.fsqrt f) := fun _ _ h _ => by cases h; rfl
theorem fdiv (f : FForm) : Statement (.fdiv f) := fun _ _ h _ => by cases h; rfl
theorem fexp2 (f : FForm) : Statement (.fexp2 f) := fun _ _ h _ => by cases h; rfl
theorem flog2 (f : FForm) : Statement (.flog2 f) := fun _ _ h _ => by cases h; rfl
theorem fsin (f : FForm) : Statement (.fsin f) := fun _ _ h _ => by cases h; rfl
theorem fcos (f : FForm) : Statement (.fcos f) := fun _ _ h _ => by cases h; rfl
theorem ftanh (f : FForm) : Statement (.ftanh f) := fun _ _ h _ => by cases h; rfl
theorem fsigm (f : FForm) : Statement (.fsigm f) := fun _ _ h _ => by cases h; rfl
theorem fclas (f : FForm) : Statement (.fclas f) := fun _ _ h _ => by cases h; rfl
theorem frnd (f : FForm) : Statement (.frnd f) := fun _ _ h _ => by cases h; rfl
theorem fscal (f : FForm) : Statement (.fscal f) := fun _ _ h _ => by cases h; rfl
theorem fdot2 (f : FForm) : Statement (.fdot2 f) := fun _ _ h _ => by cases h; rfl
theorem fdot4 (f : FForm) : Statement (.fdot4 f) := fun _ _ h _ => by cases h; rfl
theorem smrg (f : FForm) : Statement (.smrg f) := fun _ _ h _ => by cases h; rfl
theorem cvt (f : FForm) : Statement (.cvt f) := fun _ _ h _ => by cases h; rfl
theorem cvtfi (f : FForm) : Statement (.cvtfi f) := fun _ _ h _ => by cases h; rfl
theorem cvtif (f : FForm) : Statement (.cvtif f) := fun _ _ h _ => by cases h; rfl
theorem cvtii (f : FForm) : Statement (.cvtii f) := fun _ _ h _ => by cases h; rfl
theorem pack (f : FForm) : Statement (.pack f) := fun _ _ h _ => by cases h; rfl
theorem unpk (f : FForm) : Statement (.unpk f) := fun _ _ h _ => by cases h; rfl
theorem qnt (f : FForm) : Statement (.qnt f) := fun _ _ h _ => by cases h; rfl
theorem dqnt (f : FForm) : Statement (.dqnt f) := fun _ _ h _ => by cases h; rfl
theorem dual (p : DSlot) (q : DSlot) : Statement (.dual p q) := fun _ _ h _ => nomatch h
theorem uadd (f : FForm) : Statement (.uadd f) := fun _ _ h _ => by cases h; rfl
theorem usub (f : FForm) : Statement (.usub f) := fun _ _ h _ => by cases h; rfl
theorem umul (f : FForm) : Statement (.umul f) := fun _ _ h _ => by cases h; rfl
theorem uand (f : FForm) : Statement (.uand f) := fun _ _ h _ => by cases h; rfl
theorem uor (f : FForm) : Statement (.uor f) := fun _ _ h _ => by cases h; rfl
theorem uxor (f : FForm) : Statement (.uxor f) := fun _ _ h _ => by cases h; rfl
theorem ushl (f : FForm) : Statement (.ushl f) := fun _ _ h _ => by cases h; rfl
theorem ushr (f : FForm) : Statement (.ushr f) := fun _ _ h _ => by cases h; rfl
theorem ucmp (f : FForm) : Statement (.ucmp f) := fun _ _ h _ => by cases h; rfl
theorem usel (f : FForm) : Statement (.usel f) := fun _ _ h _ => by cases h; rfl
theorem ulil (f : FForm) : Statement (.ulil f) := fun _ _ h _ => by cases h; rfl
theorem ulih (f : FForm) : Statement (.ulih f) := fun _ _ h _ => by cases h; rfl
theorem umin (f : FForm) : Statement (.umin f) := fun _ _ h _ => by cases h; rfl
theorem umax (f : FForm) : Statement (.umax f) := fun _ _ h _ => by cases h; rfl
theorem upick (f : FForm) : Statement (.upick f) := fun _ _ h _ => by cases h; rfl
theorem ulea (f : FForm) : Statement (.ulea f) := fun _ _ h _ => by cases h; rfl
theorem ufadd (f : FForm) : Statement (.ufadd f) := fun _ _ h _ => by cases h; rfl
theorem ufmul (f : FForm) : Statement (.ufmul f) := fun _ _ h _ => by cases h; rfl
theorem ufma (f : FForm) : Statement (.ufma f) := fun _ _ h _ => by cases h; rfl
theorem umov (f : FForm) : Statement (.umov f) := fun _ _ h _ => by cases h; rfl
theorem ucvt (f : FForm) : Statement (.ucvt f) := fun _ _ h _ => by cases h; rfl
theorem bra (f : FForm) : Statement (.bra f) := fun _ _ h _ => by cases h; rfl
theorem bru (f : FForm) : Statement (.bru f) := fun _ _ h _ => by cases h; rfl
theorem jmpi (f : FForm) : Statement (.jmpi f) := fun _ _ h _ => by cases h; rfl
theorem call (f : FForm) : Statement (.call f) := fun _ _ h _ => by cases h; rfl
theorem calli (f : FForm) : Statement (.calli f) := fun _ _ h _ => by cases h; rfl
theorem ret (f : FForm) : Statement (.ret f) := fun _ _ h _ => by cases h; rfl
theorem join (f : FForm) : Statement (.join f) := fun _ _ h _ => by cases h; rfl
theorem joinComplete (g : GRef) (lane : Nat) : Statement (.joinComplete g lane) := fun _ _ h _ => nomatch h
theorem exit (f : FForm) : Statement (.exit f) := fun _ _ h _ => by cases h; rfl
theorem bar (f : FForm) : Statement (.bar f) := fun _ _ h _ => by cases h; rfl
theorem cbar (f : FForm) : Statement (.cbar f) := fun _ _ h _ => by cases h; rfl
theorem barrierComplete (team : Nat) (cluster : Bool) (n : Nat) : Statement (.barrierComplete team cluster n) := fun _ _ h _ => nomatch h
theorem waitseq (f : FForm) : Statement (.waitseq f) := fun _ _ h _ => by cases h; rfl
theorem waitseqSatisfied (g : GRef) (lane : Nat) : Statement (.waitseqSatisfied g lane) := fun _ _ h _ => nomatch h
theorem sleep (f : FForm) : Statement (.sleep f) := fun _ _ h _ => by cases h; rfl
theorem sleepWake (g : GRef) (lane : Nat) : Statement (.sleepWake g lane) := fun _ _ h _ => nomatch h
theorem pause (f : FForm) : Statement (.pause f) := fun _ _ h _ => by cases h; rfl
theorem pauseExpiry (g : GRef) : Statement (.pauseExpiry g) := fun _ _ h _ => nomatch h
theorem setpri (f : FForm) : Statement (.setpri f) := fun _ _ h _ => by cases h; rfl
theorem yield (f : FForm) : Statement (.yield f) := fun _ _ h _ => by cases h; rfl
theorem loop (f : FForm) : Statement (.loop f) := fun _ _ h _ => by cases h; rfl
theorem ld (f : FForm) : Statement (.ld f) := fun _ _ h _ => by cases h; rfl
theorem st (f : FForm) : Statement (.st f) := fun _ _ h _ => by cases h; rfl
theorem lds (f : FForm) : Statement (.lds f) := fun _ _ h _ => by cases h; rfl
theorem sts (f : FForm) : Statement (.sts f) := fun _ _ h _ => by cases h; rfl
theorem ldk (f : FForm) : Statement (.ldk f) := fun _ _ h _ => by cases h; rfl
theorem ldt (f : FForm) : Statement (.ldt f) := fun _ _ h _ => by cases h; rfl
theorem stt (f : FForm) : Statement (.stt f) := fun _ _ h _ => by cases h; rfl
theorem atom (f : FForm) : Statement (.atom f) := fun _ _ h _ => by cases h; rfl
theorem atoms (f : FForm) : Statement (.atoms f) := fun _ _ h _ => by cases h; rfl
theorem cas (f : FForm) : Statement (.cas f) := fun _ _ h _ => by cases h; rfl
theorem cass (f : FForm) : Statement (.cass f) := fun _ _ h _ => by cases h; rfl
theorem lda (f : FForm) : Statement (.lda f) := fun _ _ h _ => by cases h; rfl
theorem str (f : FForm) : Statement (.str f) := fun _ _ h _ => by cases h; rfl
theorem fence (f : FForm) : Statement (.fence f) := fun _ _ h _ => by cases h; rfl
theorem pref (f : FForm) : Statement (.pref f) := fun _ _ h _ => by cases h; rfl
theorem cwb (f : FForm) : Statement (.cwb f) := fun _ _ h _ => by cases h; rfl
theorem cinv (f : FForm) : Statement (.cinv f) := fun _ _ h _ => by cases h; rfl
theorem bobjInit (f : FForm) : Statement (.bobjInit f) := fun _ _ h hn => by
  cases h; rw [hn _ rfl]; rfl
theorem bobjArrive (f : FForm) : Statement (.bobjArrive f) := fun _ _ h hn => by
  cases h; rw [hn _ rfl]; rfl
theorem bobjWait (f : FForm) : Statement (.bobjWait f) := fun _ _ h hn => by
  cases h; rw [hn _ rfl]; rfl
theorem bobjWaitPass (g : GRef) (lane : Nat) : Statement (.bobjWaitPass g lane) := fun _ _ h _ => nomatch h
theorem acp (f : FForm) : Statement (.acp f) := fun _ _ h _ => by cases h; rfl
theorem copyLand (g : GRef) (k : Nat) : Statement (.copyLand g k) := fun _ _ h _ => nomatch h
theorem acwait (f : FForm) : Statement (.acwait f) := fun _ _ h _ => by cases h; rfl
theorem acwaitProceed (g : GRef) (lane : Nat) : Statement (.acwaitProceed g lane) := fun _ _ h _ => nomatch h
theorem accnt (f : FForm) : Statement (.accnt f) := fun _ _ h _ => by cases h; rfl
theorem rngi (f : FForm) : Statement (.rngi f) := fun _ _ h _ => by cases h; rfl
theorem awf (f : FForm) : Statement (.awf f) := fun _ _ h _ => by cases h; rfl
theorem awfSlotTaken (g : GRef) (lane : Nat) : Statement (.awfSlotTaken g lane) := fun _ _ h _ => nomatch h
theorem rls (f : FForm) : Statement (.rls f) := fun _ _ h _ => by cases h; rfl
theorem enq (f : FForm) : Statement (.enq f) := fun _ _ h _ => by cases h; rfl
theorem engst (f : FForm) : Statement (.engst f) := fun _ _ h _ => by cases h; rfl
theorem arb (f : FForm) : Statement (.arb f) := fun _ _ h _ => by cases h; rfl
theorem arc (f : FForm) : Statement (.arc f) := fun _ _ h _ => by cases h; rfl
theorem ara (f : FForm) : Statement (.ara f) := fun _ _ h _ => by cases h; rfl
theorem arst (f : FForm) : Statement (.arst f) := fun _ _ h _ => by cases h; rfl
theorem mma (f : FForm) : Statement (.mma f) := fun _ _ h _ => by cases h; rfl
theorem tileOpComplete (k : Nat) : Statement (.tileOpComplete k) := fun _ _ h _ => nomatch h
theorem accld (f : FForm) : Statement (.accld f) := fun _ _ h _ => by cases h; rfl
theorem accst (f : FForm) : Statement (.accst f) := fun _ _ h _ => by cases h; rfl
theorem accz (f : FForm) : Statement (.accz f) := fun _ _ h _ => by cases h; rfl
theorem accrd (f : FForm) : Statement (.accrd f) := fun _ _ h _ => by cases h; rfl
theorem accwr (f : FForm) : Statement (.accwr f) := fun _ _ h _ => by cases h; rfl
theorem mtok (f : FForm) : Statement (.mtok f) := fun _ _ h _ => by cases h; rfl
theorem mxq (f : FForm) : Statement (.mxq f) := fun _ _ h _ => by cases h; rfl
theorem lgfa (f : FForm) : Statement (.lgfa f) := fun _ _ h _ => by cases h; rfl
theorem lgfr (f : FForm) : Statement (.lgfr f) := fun _ _ h _ => by cases h; rfl
theorem samp (f : FForm) : Statement (.samp f) := fun _ _ h _ => by cases h; rfl
theorem toks (f : FForm) : Statement (.toks f) := fun _ _ h _ => by cases h; rfl
theorem seqq (f : FForm) : Statement (.seqq f) := fun _ _ h _ => by cases h; rfl
theorem pfxl (f : FForm) : Statement (.pfxl f) := fun _ _ h _ => by cases h; rfl
theorem pfxi (f : FForm) : Statement (.pfxi f) := fun _ _ h _ => by cases h; rfl
theorem mfs (f : FForm) : Statement (.mfs f) := fun _ _ h _ => by cases h; rfl
theorem mts (f : FForm) : Statement (.mts f) := fun _ _ h _ => by cases h; rfl
theorem trap (f : FForm) : Statement (.trap f) := fun _ _ h _ => by cases h; rfl
theorem tret (f : FForm) : Statement (.tret f) := fun _ _ h _ => by cases h; rfl
theorem spill (f : FForm) : Statement (.spill f) := fun _ _ h _ => by cases h; rfl
theorem fill (f : FForm) : Statement (.fill f) := fun _ _ h _ => by cases h; rfl
theorem uiret (f : FForm) : Statement (.uiret f) := fun _ _ h _ => by cases h; rfl
theorem bkpt (f : FForm) : Statement (.bkpt f) := fun _ _ h _ => by cases h; rfl
theorem tlbi (f : FForm) : Statement (.tlbi f) := fun _ _ h _ => by cases h; rfl
theorem ctxs (f : FForm) : Statement (.ctxs f) := fun _ _ h _ => by cases h; rfl
theorem ctxr (f : FForm) : Statement (.ctxr f) := fun _ _ h _ => by cases h; rfl
theorem halt (f : FForm) : Statement (.halt f) := fun _ _ h _ => by cases h; rfl
theorem shid (f : FForm) : Statement (.shid f) := fun _ _ h _ => by cases h; rfl
theorem shdef (f : FForm) : Statement (.shdef f) := fun _ _ h _ => by cases h; rfl
theorem shrel (f : FForm) : Statement (.shrel f) := fun _ _ h _ => by cases h; rfl
theorem octlDecl (f : FForm) : Statement (.octlDecl f) := fun _ _ h hn => by
  cases h; rw [hn _ rfl]; rfl
theorem octlUndecl (f : FForm) : Statement (.octlUndecl f) := fun _ _ h hn => by
  cases h; rw [hn _ rfl]; rfl
theorem octlFlush (f : FForm) : Statement (.octlFlush f) := fun _ _ h hn => by
  cases h; rw [hn _ rfl]; rfl
theorem octlQuery (f : FForm) : Statement (.octlQuery f) := fun _ _ h hn => by
  cases h; rw [hn _ rfl]; rfl
theorem verq (f : FForm) : Statement (.verq f) := fun _ _ h _ => by cases h; rfl
theorem groupAged (g : GRef) : Statement (.groupAged g) := fun _ _ h _ => nomatch h
theorem teamAdmit (launch : Nat) (die : Nat) (core : Nat) : Statement (.teamAdmit launch die core) := fun _ _ h _ => nomatch h
theorem forwardProgressSwap (die : Nat) (core : Nat) : Statement (.forwardProgressSwap die core) := fun _ _ h _ => nomatch h
theorem safepointTimeout (ctx : Nat) : Statement (.safepointTimeout ctx) := fun _ _ h _ => nomatch h
theorem groupEnd (g : GRef) : Statement (.groupEnd g) := fun _ _ h _ => nomatch h
theorem storeDrain (g : GRef) (k : Nat) (combining : Bool) : Statement (.storeDrain g k combining) := fun _ _ h _ => nomatch h
theorem storeAck (g : GRef) : Statement (.storeAck g) := fun _ _ h _ => nomatch h
theorem atsTranslationCompletion (ctx : Nat) (page : Nat) (host : Nat) (r : Bool) (w : Bool) : Statement (.atsTranslationCompletion ctx page host r w) := fun _ _ h _ => nomatch h
theorem priResponse (ctx : Nat) (page : Nat) (write : Bool) (success : Bool) : Statement (.priResponse ctx page write success) := fun _ _ h _ => nomatch h
theorem atsInvalidate (ctx : Nat) (page : Nat) : Statement (.atsInvalidate ctx page) := fun _ _ h _ => nomatch h
theorem invalidationComplete (ctx : Nat) (page : Nat) : Statement (.invalidationComplete ctx page) := fun _ _ h _ => nomatch h
theorem engineTakeCard (chain : Nat) : Statement (.engineTakeCard chain) := fun _ _ h _ => nomatch h
theorem segmentIssue (chain : Nat) : Statement (.segmentIssue chain) := fun _ _ h _ => nomatch h
theorem engineRecallAnswer (chain : Nat) (line : Nat) : Statement (.engineRecallAnswer chain line) := fun _ _ h _ => nomatch h
theorem ringFill (chain : Nat) : Statement (.ringFill chain) := fun _ _ h _ => nomatch h
theorem jobCompletion (chain : Nat) : Statement (.jobCompletion chain) := fun _ _ h _ => nomatch h
theorem matrixIteration (chain : Nat) : Statement (.matrixIteration chain) := fun _ _ h _ => nomatch h
theorem lehrPoint (chain : Nat) : Statement (.lehrPoint chain) := fun _ _ h _ => nomatch h
theorem sharedReadRequest (k : Nat) : Statement (.sharedReadRequest k) := fun _ _ h _ => nomatch h
theorem ownershipRequest (k : Nat) : Statement (.ownershipRequest k) := fun _ _ h _ => nomatch h
theorem writeAtHome (k : Nat) : Statement (.writeAtHome k) := fun _ _ h _ => nomatch h
theorem onAck (k : Nat) : Statement (.onAck k) := fun _ _ h _ => nomatch h
theorem onNotice (k : Nat) : Statement (.onNotice k) := fun _ _ h _ => nomatch h
theorem snpinv (half : Nat) : Statement (.snpinv half) := fun _ _ h _ => nomatch h
theorem snpdata (half : Nat) : Statement (.snpdata half) := fun _ _ h _ => nomatch h
theorem snpcur (half : Nat) : Statement (.snpcur half) := fun _ _ h _ => nomatch h
theorem hostCxlMemRequest (half : Nat) (write : Bool) (data : List Byte) : Statement (.hostCxlMemRequest half write data) := fun _ _ h _ => nomatch h
theorem scratchDrained (team : Nat) : Statement (.scratchDrained team) := fun _ _ h _ => nomatch h
theorem scratchZeroed (team : Nat) : Statement (.scratchZeroed team) := fun _ _ h _ => nomatch h
theorem scratchDrainTimeout (team : Nat) : Statement (.scratchDrainTimeout team) := fun _ _ h _ => nomatch h
theorem uiDelivery (g : GRef) (lane : Nat) : Statement (.uiDelivery g lane) := fun _ _ h _ => nomatch h
theorem doorbell (thread : Nat) (pos : DWord) : Statement (.doorbell thread pos) := fun _ _ h _ => nomatch h
theorem packetReread (thread : Nat) : Statement (.packetReread thread) := fun _ _ h _ => nomatch h
theorem launch (thread : Nat) : Statement (.launch thread) := fun _ _ h _ => nomatch h
theorem wait (thread : Nat) : Statement (.wait thread) := fun _ _ h _ => nomatch h
theorem queueWaitSatisfied (thread : Nat) : Statement (.queueWaitSatisfied thread) := fun _ _ h _ => nomatch h
theorem signal (thread : Nat) : Statement (.signal thread) := fun _ _ h _ => nomatch h
theorem copy (thread : Nat) : Statement (.copy thread) := fun _ _ h _ => nomatch h
theorem barrier (thread : Nat) : Statement (.barrier thread) := fun _ _ h _ => nomatch h
theorem loopctlSetdepth (thread : Nat) : Statement (.loopctlSetdepth thread) := fun _ _ h _ => nomatch h
theorem loopctlDrop (thread : Nat) : Statement (.loopctlDrop thread) := fun _ _ h _ => nomatch h
theorem loopctlForget (thread : Nat) : Statement (.loopctlForget thread) := fun _ _ h _ => nomatch h
theorem nopad (thread : Nat) : Statement (.nopad thread) := fun _ _ h _ => nomatch h
theorem packetCompletion (thread : Nat) (seq : DWord) : Statement (.packetCompletion thread seq) := fun _ _ h _ => nomatch h
theorem predictionStart (thread : Nat) : Statement (.predictionStart thread) := fun _ _ h _ => nomatch h
theorem relabel (thread : Nat) : Statement (.relabel thread) := fun _ _ h _ => nomatch h
theorem discardDone (thread : Nat) : Statement (.discardDone thread) := fun _ _ h _ => nomatch h
theorem idleTimeout (thread : Nat) : Statement (.idleTimeout thread) := fun _ _ h _ => nomatch h
theorem start (thread : Nat) : Statement (.start thread) := fun _ _ h _ => nomatch h
theorem stop (thread : Nat) : Statement (.stop thread) := fun _ _ h _ => nomatch h
theorem unmap (thread : Nat) : Statement (.unmap thread) := fun _ _ h _ => nomatch h
theorem forget (thread : Nat) : Statement (.forget thread) := fun _ _ h _ => nomatch h
theorem queueMap (thread : Nat) (value : DWord) : Statement (.queueMap thread value) := fun _ _ h _ => nomatch h
theorem drainingEnd (thread : Nat) : Statement (.drainingEnd thread) := fun _ _ h _ => nomatch h
theorem contextActivate (ctx : Nat) : Statement (.contextActivate ctx) := fun _ _ h _ => nomatch h
theorem contextDeactivate (ctx : Nat) : Statement (.contextDeactivate ctx) := fun _ _ h _ => nomatch h
theorem preempt (ctx : Nat) : Statement (.preempt ctx) := fun _ _ h _ => nomatch h
theorem teamSave (team : Nat) : Statement (.teamSave team) := fun _ _ h _ => nomatch h
theorem resume (ctx : Nat) : Statement (.resume ctx) := fun _ _ h _ => nomatch h
theorem kill (ctx : Nat) : Statement (.kill ctx) := fun _ _ h _ => nomatch h
theorem gresume (ctx : Nat) (stopid : Nat) : Statement (.gresume ctx stopid) := fun _ _ h _ => nomatch h
theorem gkill (ctx : Nat) (stopid : Nat) : Statement (.gkill ctx stopid) := fun _ _ h _ => nomatch h
theorem gstep (ctx : Nat) (stopid : Nat) : Statement (.gstep ctx stopid) := fun _ _ h _ => nomatch h
theorem gsave (ctx : Nat) (stopid : Nat) : Statement (.gsave ctx stopid) := fun _ _ h _ => nomatch h
theorem gload (ctx : Nat) (stopid : Nat) : Statement (.gload ctx stopid) := fun _ _ h _ => nomatch h
theorem faultRecordWrite : Statement .faultRecordWrite := fun _ _ h _ => nomatch h
theorem uipost (value : DWord) : Statement (.uipost value) := fun _ _ h _ => nomatch h
theorem bar4Read (off : Nat) (size : Nat) : Statement (.bar4Read off size) := fun _ _ h _ => nomatch h
theorem bar4Write (off : Nat) (data : List Byte) : Statement (.bar4Write off data) := fun _ _ h _ => nomatch h
theorem openSeq (die : Nat) (ctx : Nat) : Statement (.openSeq die ctx) := fun _ _ h _ => nomatch h
theorem extend (die : Nat) (ctx : Nat) : Statement (.extend die ctx) := fun _ _ h _ => nomatch h
theorem draft (die : Nat) (ctx : Nat) : Statement (.draft die ctx) := fun _ _ h _ => nomatch h
theorem token (die : Nat) (ctx : Nat) : Statement (.token die ctx) := fun _ _ h _ => nomatch h
theorem closeSeq (die : Nat) (ctx : Nat) : Statement (.closeSeq die ctx) := fun _ _ h _ => nomatch h
theorem give (die : Nat) (ctx : Nat) : Statement (.give die ctx) := fun _ _ h _ => nomatch h
theorem note (die : Nat) (ctx : Nat) : Statement (.note die ctx) := fun _ _ h _ => nomatch h
theorem adopt (die : Nat) (ctx : Nat) : Statement (.adopt die ctx) := fun _ _ h _ => nomatch h
theorem ack (die : Nat) (ctx : Nat) : Statement (.ack die ctx) := fun _ _ h _ => nomatch h
theorem refuse (die : Nat) (ctx : Nat) : Statement (.refuse die ctx) := fun _ _ h _ => nomatch h
theorem kvError (line : Nat) : Statement (.kvError line) := fun _ _ h _ => nomatch h
theorem servingEnable (ctx : Nat) : Statement (.servingEnable ctx) := fun _ _ h _ => nomatch h
theorem servingDisable (ctx : Nat) : Statement (.servingDisable ctx) := fun _ _ h _ => nomatch h
theorem serviceQueueEnable (queue : Nat) : Statement (.serviceQueueEnable queue) := fun _ _ h _ => nomatch h
theorem serviceQueueDisable (queue : Nat) : Statement (.serviceQueueDisable queue) := fun _ _ h _ => nomatch h
theorem notify (queue : Nat) (ctx : Nat) (value : DWord) : Statement (.notify queue ctx value) := fun _ _ h _ => nomatch h
theorem recordReread (queue : Nat) : Statement (.recordReread queue) := fun _ _ h _ => nomatch h
theorem socket (queue : Nat) : Statement (.socket queue) := fun _ _ h _ => nomatch h
theorem bind (queue : Nat) : Statement (.bind queue) := fun _ _ h _ => nomatch h
theorem connect (queue : Nat) : Statement (.connect queue) := fun _ _ h _ => nomatch h
theorem listen (queue : Nat) : Statement (.listen queue) := fun _ _ h _ => nomatch h
theorem acceptConn (queue : Nat) : Statement (.acceptConn queue) := fun _ _ h _ => nomatch h
theorem send (queue : Nat) : Statement (.send queue) := fun _ _ h _ => nomatch h
theorem recv (queue : Nat) : Statement (.recv queue) := fun _ _ h _ => nomatch h
theorem socketClose (queue : Nat) : Statement (.socketClose queue) := fun _ _ h _ => nomatch h
theorem rdwrite (queue : Nat) : Statement (.rdwrite queue) := fun _ _ h _ => nomatch h
theorem rdread (queue : Nat) : Statement (.rdread queue) := fun _ _ h _ => nomatch h
theorem portq (queue : Nat) : Statement (.portq queue) := fun _ _ h _ => nomatch h
theorem callCompletion (queue : Nat) (outcome : Int) (data : List Byte) : Statement (.callCompletion queue outcome data) := fun _ _ h _ => nomatch h
theorem pageReturn (queue : Nat) : Statement (.pageReturn queue) := fun _ _ h _ => nomatch h
theorem portDown (port : Nat) : Statement (.portDown port) := fun _ _ h _ => nomatch h
theorem bistRun (path : Word) : Statement (.bistRun path) := fun _ _ h _ => nomatch h
theorem bistTest (pass : Bool) (path : List Word) (test : List Nat) : Statement (.bistTest pass path test) := fun _ _ h _ => nomatch h
theorem fenceUnit (path : Word) (cause : Nat) : Statement (.fenceUnit path cause) := fun _ _ h _ => nomatch h
theorem errorRecordWrite : Statement .errorRecordWrite := fun _ _ h _ => nomatch h
theorem memoryError (kind : MemErr) (corrected : Bool) (path : Word) (line : Nat) (detail : Nat) : Statement (.memoryError kind corrected path line detail) := fun _ _ h _ => nomatch h
theorem linkFlitReplayed (path : Word) (lane : Nat) : Statement (.linkFlitReplayed path lane) := fun _ _ h _ => nomatch h
theorem linkLaneFailed (path : Word) (lane : Nat) : Statement (.linkLaneFailed path lane) := fun _ _ h _ => nomatch h
theorem thermalThrottle (die : Nat) (celsius : Nat) : Statement (.thermalThrottle die celsius) := fun _ _ h _ => nomatch h
theorem thermalTrip (die : Nat) (celsius : Nat) : Statement (.thermalTrip die celsius) := fun _ _ h _ => nomatch h
theorem coolantFlowLow (dlpm : Nat) : Statement (.coolantFlowLow dlpm) := fun _ _ h _ => nomatch h
theorem powerCapCorrection : Statement .powerCapCorrection := fun _ _ h _ => nomatch h
theorem coldReset (start : PowerOn) : Statement (.coldReset start) := fun _ _ h _ => nomatch h
theorem warmReset : Statement .warmReset := fun _ _ h _ => nomatch h
theorem writeSlotA : Statement .writeSlotA := fun _ _ h _ => nomatch h
theorem writeSlotB : Statement .writeSlotB := fun _ _ h _ => nomatch h
theorem enrolOwnerKey : Statement .enrolOwnerKey := fun _ _ h _ => nomatch h
theorem revokeOwnerKey : Statement .revokeOwnerKey := fun _ _ h _ => nomatch h
theorem setVendoff : Statement .setVendoff := fun _ _ h _ => nomatch h
theorem attestationReport (nonce : DWord) (output : DWord) : Statement (.attestationReport nonce output) := fun _ _ h _ => nomatch h
theorem registerWrite (off : Nat) (value : DWord) (bytes : Byte) : Statement (.registerWrite off value bytes) := fun _ _ h _ => nomatch h
theorem recallLine (k : Nat) : Statement (.recallLine k) := fun _ _ h _ => nomatch h
theorem grant (k : Nat) : Statement (.grant k) := fun _ _ h _ => nomatch h
theorem cxlCacheCompletion (half : Nat) (exclusive : Bool) (data : List Byte) : Statement (.cxlCacheCompletion half exclusive data) := fun _ _ h _ => nomatch h
theorem coolantFlowRestored (dlpm : Nat) : Statement (.coolantFlowRestored dlpm) := fun _ _ h _ => nomatch h
theorem portLinkUp (port : Nat) (lanes : Nat) : Statement (.portLinkUp port lanes) := fun _ _ h _ => nomatch h

end Sys2Proof.Laws.OfOp
end

