-- ==== Sys2Proof/Laws/State.lean ====
section
/-! SUPPORT. What each update of the state leaves in each field, so that no proof unfolds a record update; and the same of a
team, a group, a context and a thread read back. -/

namespace Sys2Proof.Machine

open Sys2Proof

/-! ### State.bump -/

@[simp] theorem State.bump_mem (s : State) : (s.bump).mem = s.mem := rfl
@[simp] theorem State.bump_poison (s : State) : (s.bump).poison = s.poison := rfl
@[simp] theorem State.bump_cycle (s : State) : (s.bump).cycle = s.cycle := rfl
@[simp] theorem State.bump_core (s : State) : (s.bump).core = s.core := rfl
@[simp] theorem State.bump_sub (s : State) : (s.bump).sub = s.sub := rfl
@[simp] theorem State.bump_bar (s : State) : (s.bump).bar = s.bar := rfl
@[simp] theorem State.bump_written (s : State) : (s.bump).written = s.written := rfl
@[simp] theorem State.bump_ctxs (s : State) : (s.bump).ctxs = s.ctxs := rfl
@[simp] theorem State.bump_errs (s : State) : (s.bump).errs = s.errs := rfl
@[simp] theorem State.bump_launches (s : State) : (s.bump).launches = s.launches := rfl
@[simp] theorem State.bump_teams (s : State) : (s.bump).teams = s.teams := rfl
@[simp] theorem State.bump_fresh (s : State) : (s.bump).fresh = s.fresh := rfl
@[simp] theorem State.bump_tileJobs (s : State) : (s.bump).tileJobs = s.tileJobs := rfl
@[simp] theorem State.bump_chains (s : State) : (s.bump).chains = s.chains := rfl
@[simp] theorem State.bump_lgfs (s : State) : (s.bump).lgfs = s.lgfs := rfl
@[simp] theorem State.bump_coh (s : State) : (s.bump).coh = s.coh := rfl
@[simp] theorem State.bump_threads (s : State) : (s.bump).threads = s.threads := rfl
@[simp] theorem State.bump_table (s : State) : (s.bump).table = s.table := rfl
@[simp] theorem State.bump_entered (s : State) : (s.bump).entered = s.entered := rfl
@[simp] theorem State.bump_versions (s : State) : (s.bump).versions = s.versions := rfl
@[simp] theorem State.bump_records (s : State) : (s.bump).records = s.records := rfl
@[simp] theorem State.bump_seqs (s : State) : (s.bump).seqs = s.seqs := rfl
@[simp] theorem State.bump_kvmap (s : State) : (s.bump).kvmap = s.kvmap := rfl
@[simp] theorem State.bump_sending (s : State) : (s.bump).sending = s.sending := rfl
@[simp] theorem State.bump_arrived (s : State) : (s.bump).arrived = s.arrived := rfl
@[simp] theorem State.bump_nodes (s : State) : (s.bump).nodes = s.nodes := rfl
@[simp] theorem State.bump_serving (s : State) : (s.bump).serving = s.serving := rfl
@[simp] theorem State.bump_svc (s : State) : (s.bump).svc = s.svc := rfl
@[simp] theorem State.bump_sockets (s : State) : (s.bump).sockets = s.sockets := rfl
@[simp] theorem State.bump_lent (s : State) : (s.bump).lent = s.lent := rfl
@[simp] theorem State.bump_details (s : State) : (s.bump).details = s.details := rfl
@[simp] theorem State.bump_zones (s : State) : (s.bump).zones = s.zones := rfl
@[simp] theorem State.bump_qcpAt (s : State) : (s.bump).qcpAt = s.qcpAt := rfl
@[simp] theorem State.bump_pending (s : State) : (s.bump).pending = s.pending := rfl
@[simp] theorem State.bump_bar4 (s : State) : (s.bump).bar4 = s.bar4 := rfl
@[simp] theorem State.bump_hdm (s : State) : (s.bump).hdm = s.hdm := rfl
@[simp] theorem State.bump_boot (s : State) : (s.bump).boot = s.boot := rfl
@[simp] theorem State.bump_fleet (s : State) : (s.bump).fleet = s.fleet := rfl
@[simp] theorem State.bump_out (s : State) : (s.bump).out = s.out := rfl
@[simp] theorem State.bump_cur (s : State) : (s.bump).cur = s.cur := rfl
@[simp] theorem State.bump_second (s : State) : (s.bump).second = s.second := rfl
@[simp] theorem State.bump_turn (s : State) : (s.bump).turn = s.turn := rfl
@[simp] theorem State.bump_schedule (s : State) : (s.bump).schedule = s.schedule := rfl
@[simp] theorem State.bump_free (s : State) : (s.bump).free = s.free + 1 := rfl

/-! ### State.setReg -/

@[simp] theorem State.setReg_mem (s : State) (o : Nat) (v : DWord) : (s.setReg o v).mem = s.mem := rfl
@[simp] theorem State.setReg_poison (s : State) (o : Nat) (v : DWord) : (s.setReg o v).poison = s.poison := rfl
@[simp] theorem State.setReg_cycle (s : State) (o : Nat) (v : DWord) : (s.setReg o v).cycle = s.cycle := rfl
@[simp] theorem State.setReg_core (s : State) (o : Nat) (v : DWord) : (s.setReg o v).core = s.core := rfl
@[simp] theorem State.setReg_sub (s : State) (o : Nat) (v : DWord) : (s.setReg o v).sub = s.sub := rfl
@[simp] theorem State.setReg_bar (s : State) (o : Nat) (v : DWord) : (s.setReg o v).bar = sset s.bar o v := rfl
@[simp] theorem State.setReg_written (s : State) (o : Nat) (v : DWord) : (s.setReg o v).written = if s.written.contains o then s.written else o :: s.written := rfl
@[simp] theorem State.setReg_ctxs (s : State) (o : Nat) (v : DWord) : (s.setReg o v).ctxs = s.ctxs := rfl
@[simp] theorem State.setReg_errs (s : State) (o : Nat) (v : DWord) : (s.setReg o v).errs = s.errs := rfl
@[simp] theorem State.setReg_launches (s : State) (o : Nat) (v : DWord) : (s.setReg o v).launches = s.launches := rfl
@[simp] theorem State.setReg_teams (s : State) (o : Nat) (v : DWord) : (s.setReg o v).teams = s.teams := rfl
@[simp] theorem State.setReg_fresh (s : State) (o : Nat) (v : DWord) : (s.setReg o v).fresh = s.fresh := rfl
@[simp] theorem State.setReg_tileJobs (s : State) (o : Nat) (v : DWord) : (s.setReg o v).tileJobs = s.tileJobs := rfl
@[simp] theorem State.setReg_chains (s : State) (o : Nat) (v : DWord) : (s.setReg o v).chains = s.chains := rfl
@[simp] theorem State.setReg_lgfs (s : State) (o : Nat) (v : DWord) : (s.setReg o v).lgfs = s.lgfs := rfl
@[simp] theorem State.setReg_coh (s : State) (o : Nat) (v : DWord) : (s.setReg o v).coh = s.coh := rfl
@[simp] theorem State.setReg_threads (s : State) (o : Nat) (v : DWord) : (s.setReg o v).threads = s.threads := rfl
@[simp] theorem State.setReg_table (s : State) (o : Nat) (v : DWord) : (s.setReg o v).table = s.table := rfl
@[simp] theorem State.setReg_entered (s : State) (o : Nat) (v : DWord) : (s.setReg o v).entered = s.entered := rfl
@[simp] theorem State.setReg_versions (s : State) (o : Nat) (v : DWord) : (s.setReg o v).versions = s.versions := rfl
@[simp] theorem State.setReg_records (s : State) (o : Nat) (v : DWord) : (s.setReg o v).records = s.records := rfl
@[simp] theorem State.setReg_seqs (s : State) (o : Nat) (v : DWord) : (s.setReg o v).seqs = s.seqs := rfl
@[simp] theorem State.setReg_kvmap (s : State) (o : Nat) (v : DWord) : (s.setReg o v).kvmap = s.kvmap := rfl
@[simp] theorem State.setReg_sending (s : State) (o : Nat) (v : DWord) : (s.setReg o v).sending = s.sending := rfl
@[simp] theorem State.setReg_arrived (s : State) (o : Nat) (v : DWord) : (s.setReg o v).arrived = s.arrived := rfl
@[simp] theorem State.setReg_nodes (s : State) (o : Nat) (v : DWord) : (s.setReg o v).nodes = s.nodes := rfl
@[simp] theorem State.setReg_serving (s : State) (o : Nat) (v : DWord) : (s.setReg o v).serving = s.serving := rfl
@[simp] theorem State.setReg_svc (s : State) (o : Nat) (v : DWord) : (s.setReg o v).svc = s.svc := rfl
@[simp] theorem State.setReg_sockets (s : State) (o : Nat) (v : DWord) : (s.setReg o v).sockets = s.sockets := rfl
@[simp] theorem State.setReg_lent (s : State) (o : Nat) (v : DWord) : (s.setReg o v).lent = s.lent := rfl
@[simp] theorem State.setReg_details (s : State) (o : Nat) (v : DWord) : (s.setReg o v).details = s.details := rfl
@[simp] theorem State.setReg_zones (s : State) (o : Nat) (v : DWord) : (s.setReg o v).zones = s.zones := rfl
@[simp] theorem State.setReg_qcpAt (s : State) (o : Nat) (v : DWord) : (s.setReg o v).qcpAt = s.qcpAt := rfl
@[simp] theorem State.setReg_pending (s : State) (o : Nat) (v : DWord) : (s.setReg o v).pending = s.pending := rfl
@[simp] theorem State.setReg_bar4 (s : State) (o : Nat) (v : DWord) : (s.setReg o v).bar4 = s.bar4 := rfl
@[simp] theorem State.setReg_hdm (s : State) (o : Nat) (v : DWord) : (s.setReg o v).hdm = s.hdm := rfl
@[simp] theorem State.setReg_boot (s : State) (o : Nat) (v : DWord) : (s.setReg o v).boot = s.boot := rfl
@[simp] theorem State.setReg_fleet (s : State) (o : Nat) (v : DWord) : (s.setReg o v).fleet = s.fleet := rfl
@[simp] theorem State.setReg_out (s : State) (o : Nat) (v : DWord) : (s.setReg o v).out = s.out := rfl
@[simp] theorem State.setReg_cur (s : State) (o : Nat) (v : DWord) : (s.setReg o v).cur = s.cur := rfl
@[simp] theorem State.setReg_second (s : State) (o : Nat) (v : DWord) : (s.setReg o v).second = s.second := rfl
@[simp] theorem State.setReg_turn (s : State) (o : Nat) (v : DWord) : (s.setReg o v).turn = s.turn := rfl
@[simp] theorem State.setReg_schedule (s : State) (o : Nat) (v : DWord) : (s.setReg o v).schedule = s.schedule := rfl
@[simp] theorem State.setReg_free (s : State) (o : Nat) (v : DWord) : (s.setReg o v).free = s.free := rfl

/-! ### State.emit -/

@[simp] theorem State.emit_mem (s : State) (o : Out) : (s.emit o).mem = s.mem := rfl
@[simp] theorem State.emit_poison (s : State) (o : Out) : (s.emit o).poison = s.poison := rfl
@[simp] theorem State.emit_cycle (s : State) (o : Out) : (s.emit o).cycle = s.cycle := rfl
@[simp] theorem State.emit_core (s : State) (o : Out) : (s.emit o).core = s.core := rfl
@[simp] theorem State.emit_sub (s : State) (o : Out) : (s.emit o).sub = s.sub := rfl
@[simp] theorem State.emit_bar (s : State) (o : Out) : (s.emit o).bar = s.bar := rfl
@[simp] theorem State.emit_written (s : State) (o : Out) : (s.emit o).written = s.written := rfl
@[simp] theorem State.emit_ctxs (s : State) (o : Out) : (s.emit o).ctxs = s.ctxs := rfl
@[simp] theorem State.emit_errs (s : State) (o : Out) : (s.emit o).errs = s.errs := rfl
@[simp] theorem State.emit_launches (s : State) (o : Out) : (s.emit o).launches = s.launches := rfl
@[simp] theorem State.emit_teams (s : State) (o : Out) : (s.emit o).teams = s.teams := rfl
@[simp] theorem State.emit_fresh (s : State) (o : Out) : (s.emit o).fresh = s.fresh := rfl
@[simp] theorem State.emit_tileJobs (s : State) (o : Out) : (s.emit o).tileJobs = s.tileJobs := rfl
@[simp] theorem State.emit_chains (s : State) (o : Out) : (s.emit o).chains = s.chains := rfl
@[simp] theorem State.emit_lgfs (s : State) (o : Out) : (s.emit o).lgfs = s.lgfs := rfl
@[simp] theorem State.emit_coh (s : State) (o : Out) : (s.emit o).coh = s.coh := rfl
@[simp] theorem State.emit_threads (s : State) (o : Out) : (s.emit o).threads = s.threads := rfl
@[simp] theorem State.emit_table (s : State) (o : Out) : (s.emit o).table = s.table := rfl
@[simp] theorem State.emit_entered (s : State) (o : Out) : (s.emit o).entered = s.entered := rfl
@[simp] theorem State.emit_versions (s : State) (o : Out) : (s.emit o).versions = s.versions := rfl
@[simp] theorem State.emit_records (s : State) (o : Out) : (s.emit o).records = s.records := rfl
@[simp] theorem State.emit_seqs (s : State) (o : Out) : (s.emit o).seqs = s.seqs := rfl
@[simp] theorem State.emit_kvmap (s : State) (o : Out) : (s.emit o).kvmap = s.kvmap := rfl
@[simp] theorem State.emit_sending (s : State) (o : Out) : (s.emit o).sending = s.sending := rfl
@[simp] theorem State.emit_arrived (s : State) (o : Out) : (s.emit o).arrived = s.arrived := rfl
@[simp] theorem State.emit_nodes (s : State) (o : Out) : (s.emit o).nodes = s.nodes := rfl
@[simp] theorem State.emit_serving (s : State) (o : Out) : (s.emit o).serving = s.serving := rfl
@[simp] theorem State.emit_svc (s : State) (o : Out) : (s.emit o).svc = s.svc := rfl
@[simp] theorem State.emit_sockets (s : State) (o : Out) : (s.emit o).sockets = s.sockets := rfl
@[simp] theorem State.emit_lent (s : State) (o : Out) : (s.emit o).lent = s.lent := rfl
@[simp] theorem State.emit_details (s : State) (o : Out) : (s.emit o).details = s.details := rfl
@[simp] theorem State.emit_zones (s : State) (o : Out) : (s.emit o).zones = s.zones := rfl
@[simp] theorem State.emit_qcpAt (s : State) (o : Out) : (s.emit o).qcpAt = s.qcpAt := rfl
@[simp] theorem State.emit_pending (s : State) (o : Out) : (s.emit o).pending = s.pending := rfl
@[simp] theorem State.emit_bar4 (s : State) (o : Out) : (s.emit o).bar4 = s.bar4 := rfl
@[simp] theorem State.emit_hdm (s : State) (o : Out) : (s.emit o).hdm = s.hdm := rfl
@[simp] theorem State.emit_boot (s : State) (o : Out) : (s.emit o).boot = s.boot := rfl
@[simp] theorem State.emit_fleet (s : State) (o : Out) : (s.emit o).fleet = s.fleet := rfl
@[simp] theorem State.emit_out (s : State) (o : Out) : (s.emit o).out = s.out ++ [o] := rfl
@[simp] theorem State.emit_cur (s : State) (o : Out) : (s.emit o).cur = s.cur := rfl
@[simp] theorem State.emit_second (s : State) (o : Out) : (s.emit o).second = s.second := rfl
@[simp] theorem State.emit_turn (s : State) (o : Out) : (s.emit o).turn = s.turn := rfl
@[simp] theorem State.emit_schedule (s : State) (o : Out) : (s.emit o).schedule = s.schedule := rfl
@[simp] theorem State.emit_free (s : State) (o : Out) : (s.emit o).free = s.free := rfl

/-! ### State.record -/

@[simp] theorem State.record_mem (s : State) (r : FaultInfo) : (s.record r).mem = s.mem := rfl
@[simp] theorem State.record_poison (s : State) (r : FaultInfo) : (s.record r).poison = s.poison := rfl
@[simp] theorem State.record_cycle (s : State) (r : FaultInfo) : (s.record r).cycle = s.cycle := rfl
@[simp] theorem State.record_core (s : State) (r : FaultInfo) : (s.record r).core = s.core := rfl
@[simp] theorem State.record_sub (s : State) (r : FaultInfo) : (s.record r).sub = s.sub := rfl
@[simp] theorem State.record_bar (s : State) (r : FaultInfo) : (s.record r).bar = s.bar := rfl
@[simp] theorem State.record_written (s : State) (r : FaultInfo) : (s.record r).written = s.written := rfl
@[simp] theorem State.record_ctxs (s : State) (r : FaultInfo) : (s.record r).ctxs = s.ctxs := rfl
@[simp] theorem State.record_errs (s : State) (r : FaultInfo) : (s.record r).errs = s.errs := rfl
@[simp] theorem State.record_launches (s : State) (r : FaultInfo) : (s.record r).launches = s.launches := rfl
@[simp] theorem State.record_teams (s : State) (r : FaultInfo) : (s.record r).teams = s.teams := rfl
@[simp] theorem State.record_fresh (s : State) (r : FaultInfo) : (s.record r).fresh = s.fresh := rfl
@[simp] theorem State.record_tileJobs (s : State) (r : FaultInfo) : (s.record r).tileJobs = s.tileJobs := rfl
@[simp] theorem State.record_chains (s : State) (r : FaultInfo) : (s.record r).chains = s.chains := rfl
@[simp] theorem State.record_lgfs (s : State) (r : FaultInfo) : (s.record r).lgfs = s.lgfs := rfl
@[simp] theorem State.record_coh (s : State) (r : FaultInfo) : (s.record r).coh = s.coh := rfl
@[simp] theorem State.record_threads (s : State) (r : FaultInfo) : (s.record r).threads = s.threads := rfl
@[simp] theorem State.record_table (s : State) (r : FaultInfo) : (s.record r).table = s.table := rfl
@[simp] theorem State.record_entered (s : State) (r : FaultInfo) : (s.record r).entered = s.entered := rfl
@[simp] theorem State.record_versions (s : State) (r : FaultInfo) : (s.record r).versions = s.versions := rfl
@[simp] theorem State.record_records (s : State) (r : FaultInfo) : (s.record r).records = s.records ++ [r.bytes s.cycle] := rfl
@[simp] theorem State.record_seqs (s : State) (r : FaultInfo) : (s.record r).seqs = s.seqs := rfl
@[simp] theorem State.record_kvmap (s : State) (r : FaultInfo) : (s.record r).kvmap = s.kvmap := rfl
@[simp] theorem State.record_sending (s : State) (r : FaultInfo) : (s.record r).sending = s.sending := rfl
@[simp] theorem State.record_arrived (s : State) (r : FaultInfo) : (s.record r).arrived = s.arrived := rfl
@[simp] theorem State.record_nodes (s : State) (r : FaultInfo) : (s.record r).nodes = s.nodes := rfl
@[simp] theorem State.record_serving (s : State) (r : FaultInfo) : (s.record r).serving = s.serving := rfl
@[simp] theorem State.record_svc (s : State) (r : FaultInfo) : (s.record r).svc = s.svc := rfl
@[simp] theorem State.record_sockets (s : State) (r : FaultInfo) : (s.record r).sockets = s.sockets := rfl
@[simp] theorem State.record_lent (s : State) (r : FaultInfo) : (s.record r).lent = s.lent := rfl
@[simp] theorem State.record_details (s : State) (r : FaultInfo) : (s.record r).details = s.details := rfl
@[simp] theorem State.record_zones (s : State) (r : FaultInfo) : (s.record r).zones = s.zones := rfl
@[simp] theorem State.record_qcpAt (s : State) (r : FaultInfo) : (s.record r).qcpAt = s.qcpAt := rfl
@[simp] theorem State.record_pending (s : State) (r : FaultInfo) : (s.record r).pending = s.pending := rfl
@[simp] theorem State.record_bar4 (s : State) (r : FaultInfo) : (s.record r).bar4 = s.bar4 := rfl
@[simp] theorem State.record_hdm (s : State) (r : FaultInfo) : (s.record r).hdm = s.hdm := rfl
@[simp] theorem State.record_boot (s : State) (r : FaultInfo) : (s.record r).boot = s.boot := rfl
@[simp] theorem State.record_fleet (s : State) (r : FaultInfo) : (s.record r).fleet = s.fleet := rfl
@[simp] theorem State.record_out (s : State) (r : FaultInfo) : (s.record r).out = s.out := rfl
@[simp] theorem State.record_cur (s : State) (r : FaultInfo) : (s.record r).cur = s.cur := rfl
@[simp] theorem State.record_second (s : State) (r : FaultInfo) : (s.record r).second = s.second := rfl
@[simp] theorem State.record_turn (s : State) (r : FaultInfo) : (s.record r).turn = s.turn := rfl
@[simp] theorem State.record_schedule (s : State) (r : FaultInfo) : (s.record r).schedule = s.schedule := rfl
@[simp] theorem State.record_free (s : State) (r : FaultInfo) : (s.record r).free = s.free := rfl

/-! ### State.interrupt -/

@[simp] theorem State.interrupt_mem (s : State) (v : Nat) : (s.interrupt v).mem = s.mem := by unfold State.interrupt; split <;> rfl
@[simp] theorem State.interrupt_poison (s : State) (v : Nat) : (s.interrupt v).poison = s.poison := by unfold State.interrupt; split <;> rfl
@[simp] theorem State.interrupt_cycle (s : State) (v : Nat) : (s.interrupt v).cycle = s.cycle := by unfold State.interrupt; split <;> rfl
@[simp] theorem State.interrupt_core (s : State) (v : Nat) : (s.interrupt v).core = s.core := by unfold State.interrupt; split <;> rfl
@[simp] theorem State.interrupt_sub (s : State) (v : Nat) : (s.interrupt v).sub = s.sub := by unfold State.interrupt; split <;> rfl
@[simp] theorem State.interrupt_bar (s : State) (v : Nat) : (s.interrupt v).bar = s.bar := by unfold State.interrupt; split <;> rfl
@[simp] theorem State.interrupt_written (s : State) (v : Nat) : (s.interrupt v).written = s.written := by unfold State.interrupt; split <;> rfl
@[simp] theorem State.interrupt_ctxs (s : State) (v : Nat) : (s.interrupt v).ctxs = s.ctxs := by unfold State.interrupt; split <;> rfl
@[simp] theorem State.interrupt_errs (s : State) (v : Nat) : (s.interrupt v).errs = s.errs := by unfold State.interrupt; split <;> rfl
@[simp] theorem State.interrupt_launches (s : State) (v : Nat) : (s.interrupt v).launches = s.launches := by unfold State.interrupt; split <;> rfl
@[simp] theorem State.interrupt_teams (s : State) (v : Nat) : (s.interrupt v).teams = s.teams := by unfold State.interrupt; split <;> rfl
@[simp] theorem State.interrupt_fresh (s : State) (v : Nat) : (s.interrupt v).fresh = s.fresh := by unfold State.interrupt; split <;> rfl
@[simp] theorem State.interrupt_tileJobs (s : State) (v : Nat) : (s.interrupt v).tileJobs = s.tileJobs := by unfold State.interrupt; split <;> rfl
@[simp] theorem State.interrupt_chains (s : State) (v : Nat) : (s.interrupt v).chains = s.chains := by unfold State.interrupt; split <;> rfl
@[simp] theorem State.interrupt_details (s : State) (v : Nat) : (s.interrupt v).details = s.details := by unfold State.interrupt; split <;> rfl
@[simp] theorem State.interrupt_zones (s : State) (v : Nat) : (s.interrupt v).zones = s.zones := by unfold State.interrupt; split <;> rfl
@[simp] theorem State.interrupt_lgfs (s : State) (v : Nat) : (s.interrupt v).lgfs = s.lgfs := by unfold State.interrupt; split <;> rfl
@[simp] theorem State.interrupt_coh (s : State) (v : Nat) : (s.interrupt v).coh = s.coh := by unfold State.interrupt; split <;> rfl
@[simp] theorem State.interrupt_threads (s : State) (v : Nat) : (s.interrupt v).threads = s.threads := by unfold State.interrupt; split <;> rfl
@[simp] theorem State.interrupt_qcpAt (s : State) (v : Nat) : (s.interrupt v).qcpAt = s.qcpAt := by unfold State.interrupt; split <;> rfl
@[simp] theorem State.interrupt_table (s : State) (v : Nat) : (s.interrupt v).table = s.table := by unfold State.interrupt; split <;> rfl
@[simp] theorem State.interrupt_entered (s : State) (v : Nat) : (s.interrupt v).entered = s.entered := by unfold State.interrupt; split <;> rfl
@[simp] theorem State.interrupt_versions (s : State) (v : Nat) : (s.interrupt v).versions = s.versions := by unfold State.interrupt; split <;> rfl
@[simp] theorem State.interrupt_records (s : State) (v : Nat) : (s.interrupt v).records = s.records := by unfold State.interrupt; split <;> rfl
@[simp] theorem State.interrupt_seqs (s : State) (v : Nat) : (s.interrupt v).seqs = s.seqs := by unfold State.interrupt; split <;> rfl
@[simp] theorem State.interrupt_kvmap (s : State) (v : Nat) : (s.interrupt v).kvmap = s.kvmap := by unfold State.interrupt; split <;> rfl
@[simp] theorem State.interrupt_sending (s : State) (v : Nat) : (s.interrupt v).sending = s.sending := by unfold State.interrupt; split <;> rfl
@[simp] theorem State.interrupt_arrived (s : State) (v : Nat) : (s.interrupt v).arrived = s.arrived := by unfold State.interrupt; split <;> rfl
@[simp] theorem State.interrupt_nodes (s : State) (v : Nat) : (s.interrupt v).nodes = s.nodes := by unfold State.interrupt; split <;> rfl
@[simp] theorem State.interrupt_serving (s : State) (v : Nat) : (s.interrupt v).serving = s.serving := by unfold State.interrupt; split <;> rfl
@[simp] theorem State.interrupt_svc (s : State) (v : Nat) : (s.interrupt v).svc = s.svc := by unfold State.interrupt; split <;> rfl
@[simp] theorem State.interrupt_sockets (s : State) (v : Nat) : (s.interrupt v).sockets = s.sockets := by unfold State.interrupt; split <;> rfl
@[simp] theorem State.interrupt_lent (s : State) (v : Nat) : (s.interrupt v).lent = s.lent := by unfold State.interrupt; split <;> rfl
@[simp] theorem State.interrupt_boot (s : State) (v : Nat) : (s.interrupt v).boot = s.boot := by unfold State.interrupt; split <;> rfl
@[simp] theorem State.interrupt_fleet (s : State) (v : Nat) : (s.interrupt v).fleet = s.fleet := by unfold State.interrupt; split <;> rfl
@[simp] theorem State.interrupt_bar4 (s : State) (v : Nat) : (s.interrupt v).bar4 = s.bar4 := by unfold State.interrupt; split <;> rfl
@[simp] theorem State.interrupt_hdm (s : State) (v : Nat) : (s.interrupt v).hdm = s.hdm := by unfold State.interrupt; split <;> rfl
@[simp] theorem State.interrupt_cur (s : State) (v : Nat) : (s.interrupt v).cur = s.cur := by unfold State.interrupt; split <;> rfl
@[simp] theorem State.interrupt_second (s : State) (v : Nat) : (s.interrupt v).second = s.second := by unfold State.interrupt; split <;> rfl
@[simp] theorem State.interrupt_turn (s : State) (v : Nat) : (s.interrupt v).turn = s.turn := by unfold State.interrupt; split <;> rfl
@[simp] theorem State.interrupt_schedule (s : State) (v : Nat) : (s.interrupt v).schedule = s.schedule := by unfold State.interrupt; split <;> rfl
@[simp] theorem State.interrupt_free (s : State) (v : Nat) : (s.interrupt v).free = s.free := by unfold State.interrupt; split <;> rfl

/-! ### State.setErr -/

@[simp] theorem State.setErr_mem (s : State) (c : Nat) : (s.setErr c).mem = s.mem := rfl
@[simp] theorem State.setErr_poison (s : State) (c : Nat) : (s.setErr c).poison = s.poison := rfl
@[simp] theorem State.setErr_cycle (s : State) (c : Nat) : (s.setErr c).cycle = s.cycle := rfl
@[simp] theorem State.setErr_core (s : State) (c : Nat) : (s.setErr c).core = s.core := rfl
@[simp] theorem State.setErr_sub (s : State) (c : Nat) : (s.setErr c).sub = s.sub := rfl
@[simp] theorem State.setErr_bar (s : State) (c : Nat) : (s.setErr c).bar = s.bar := rfl
@[simp] theorem State.setErr_written (s : State) (c : Nat) : (s.setErr c).written = s.written := rfl
@[simp] theorem State.setErr_ctxs (s : State) (c : Nat) : (s.setErr c).ctxs = s.ctxs := rfl
@[simp] theorem State.setErr_errs (s : State) (c : Nat) : (s.setErr c).errs = if s.errs.contains c then s.errs else c :: s.errs := rfl
@[simp] theorem State.setErr_launches (s : State) (c : Nat) : (s.setErr c).launches = s.launches := rfl
@[simp] theorem State.setErr_teams (s : State) (c : Nat) : (s.setErr c).teams = s.teams := rfl
@[simp] theorem State.setErr_fresh (s : State) (c : Nat) : (s.setErr c).fresh = s.fresh := rfl
@[simp] theorem State.setErr_tileJobs (s : State) (c : Nat) : (s.setErr c).tileJobs = s.tileJobs := rfl
@[simp] theorem State.setErr_chains (s : State) (c : Nat) : (s.setErr c).chains = s.chains := rfl
@[simp] theorem State.setErr_lgfs (s : State) (c : Nat) : (s.setErr c).lgfs = s.lgfs := rfl
@[simp] theorem State.setErr_coh (s : State) (c : Nat) : (s.setErr c).coh = s.coh := rfl
@[simp] theorem State.setErr_threads (s : State) (c : Nat) : (s.setErr c).threads = s.threads := rfl
@[simp] theorem State.setErr_table (s : State) (c : Nat) : (s.setErr c).table = s.table := rfl
@[simp] theorem State.setErr_entered (s : State) (c : Nat) : (s.setErr c).entered = s.entered := rfl
@[simp] theorem State.setErr_versions (s : State) (c : Nat) : (s.setErr c).versions = s.versions := rfl
@[simp] theorem State.setErr_records (s : State) (c : Nat) : (s.setErr c).records = s.records := rfl
@[simp] theorem State.setErr_seqs (s : State) (c : Nat) : (s.setErr c).seqs = s.seqs := rfl
@[simp] theorem State.setErr_kvmap (s : State) (c : Nat) : (s.setErr c).kvmap = s.kvmap := rfl
@[simp] theorem State.setErr_sending (s : State) (c : Nat) : (s.setErr c).sending = s.sending := rfl
@[simp] theorem State.setErr_arrived (s : State) (c : Nat) : (s.setErr c).arrived = s.arrived := rfl
@[simp] theorem State.setErr_nodes (s : State) (c : Nat) : (s.setErr c).nodes = s.nodes := rfl
@[simp] theorem State.setErr_serving (s : State) (c : Nat) : (s.setErr c).serving = s.serving := rfl
@[simp] theorem State.setErr_svc (s : State) (c : Nat) : (s.setErr c).svc = s.svc := rfl
@[simp] theorem State.setErr_sockets (s : State) (c : Nat) : (s.setErr c).sockets = s.sockets := rfl
@[simp] theorem State.setErr_lent (s : State) (c : Nat) : (s.setErr c).lent = s.lent := rfl
@[simp] theorem State.setErr_details (s : State) (c : Nat) : (s.setErr c).details = s.details := rfl
@[simp] theorem State.setErr_zones (s : State) (c : Nat) : (s.setErr c).zones = s.zones := rfl
@[simp] theorem State.setErr_qcpAt (s : State) (c : Nat) : (s.setErr c).qcpAt = s.qcpAt := rfl
@[simp] theorem State.setErr_pending (s : State) (c : Nat) : (s.setErr c).pending = s.pending := rfl
@[simp] theorem State.setErr_bar4 (s : State) (c : Nat) : (s.setErr c).bar4 = s.bar4 := rfl
@[simp] theorem State.setErr_hdm (s : State) (c : Nat) : (s.setErr c).hdm = s.hdm := rfl
@[simp] theorem State.setErr_boot (s : State) (c : Nat) : (s.setErr c).boot = s.boot := rfl
@[simp] theorem State.setErr_fleet (s : State) (c : Nat) : (s.setErr c).fleet = s.fleet := rfl
@[simp] theorem State.setErr_out (s : State) (c : Nat) : (s.setErr c).out = s.out := rfl
@[simp] theorem State.setErr_cur (s : State) (c : Nat) : (s.setErr c).cur = s.cur := rfl
@[simp] theorem State.setErr_second (s : State) (c : Nat) : (s.setErr c).second = s.second := rfl
@[simp] theorem State.setErr_turn (s : State) (c : Nat) : (s.setErr c).turn = s.turn := rfl
@[simp] theorem State.setErr_schedule (s : State) (c : Nat) : (s.setErr c).schedule = s.schedule := rfl
@[simp] theorem State.setErr_free (s : State) (c : Nat) : (s.setErr c).free = s.free := rfl

/-! ### State.modTeam -/

@[simp] theorem State.modTeam_mem (s : State) (n : Nat) (f : Team → Team) : (s.modTeam n f).mem = s.mem := rfl
@[simp] theorem State.modTeam_poison (s : State) (n : Nat) (f : Team → Team) : (s.modTeam n f).poison = s.poison := rfl
@[simp] theorem State.modTeam_cycle (s : State) (n : Nat) (f : Team → Team) : (s.modTeam n f).cycle = s.cycle := rfl
@[simp] theorem State.modTeam_core (s : State) (n : Nat) (f : Team → Team) : (s.modTeam n f).core = s.core := rfl
@[simp] theorem State.modTeam_sub (s : State) (n : Nat) (f : Team → Team) : (s.modTeam n f).sub = s.sub := rfl
@[simp] theorem State.modTeam_bar (s : State) (n : Nat) (f : Team → Team) : (s.modTeam n f).bar = s.bar := rfl
@[simp] theorem State.modTeam_written (s : State) (n : Nat) (f : Team → Team) : (s.modTeam n f).written = s.written := rfl
@[simp] theorem State.modTeam_ctxs (s : State) (n : Nat) (f : Team → Team) : (s.modTeam n f).ctxs = s.ctxs := rfl
@[simp] theorem State.modTeam_errs (s : State) (n : Nat) (f : Team → Team) : (s.modTeam n f).errs = s.errs := rfl
@[simp] theorem State.modTeam_launches (s : State) (n : Nat) (f : Team → Team) : (s.modTeam n f).launches = s.launches := rfl
@[simp] theorem State.modTeam_teams (s : State) (n : Nat) (f : Team → Team) : (s.modTeam n f).teams = amod s.teams n f := rfl
@[simp] theorem State.modTeam_fresh (s : State) (n : Nat) (f : Team → Team) : (s.modTeam n f).fresh = s.fresh := rfl
@[simp] theorem State.modTeam_tileJobs (s : State) (n : Nat) (f : Team → Team) : (s.modTeam n f).tileJobs = s.tileJobs := rfl
@[simp] theorem State.modTeam_chains (s : State) (n : Nat) (f : Team → Team) : (s.modTeam n f).chains = s.chains := rfl
@[simp] theorem State.modTeam_lgfs (s : State) (n : Nat) (f : Team → Team) : (s.modTeam n f).lgfs = s.lgfs := rfl
@[simp] theorem State.modTeam_coh (s : State) (n : Nat) (f : Team → Team) : (s.modTeam n f).coh = s.coh := rfl
@[simp] theorem State.modTeam_threads (s : State) (n : Nat) (f : Team → Team) : (s.modTeam n f).threads = s.threads := rfl
@[simp] theorem State.modTeam_table (s : State) (n : Nat) (f : Team → Team) : (s.modTeam n f).table = s.table := rfl
@[simp] theorem State.modTeam_entered (s : State) (n : Nat) (f : Team → Team) : (s.modTeam n f).entered = s.entered := rfl
@[simp] theorem State.modTeam_versions (s : State) (n : Nat) (f : Team → Team) : (s.modTeam n f).versions = s.versions := rfl
@[simp] theorem State.modTeam_records (s : State) (n : Nat) (f : Team → Team) : (s.modTeam n f).records = s.records := rfl
@[simp] theorem State.modTeam_seqs (s : State) (n : Nat) (f : Team → Team) : (s.modTeam n f).seqs = s.seqs := rfl
@[simp] theorem State.modTeam_kvmap (s : State) (n : Nat) (f : Team → Team) : (s.modTeam n f).kvmap = s.kvmap := rfl
@[simp] theorem State.modTeam_sending (s : State) (n : Nat) (f : Team → Team) : (s.modTeam n f).sending = s.sending := rfl
@[simp] theorem State.modTeam_arrived (s : State) (n : Nat) (f : Team → Team) : (s.modTeam n f).arrived = s.arrived := rfl
@[simp] theorem State.modTeam_nodes (s : State) (n : Nat) (f : Team → Team) : (s.modTeam n f).nodes = s.nodes := rfl
@[simp] theorem State.modTeam_serving (s : State) (n : Nat) (f : Team → Team) : (s.modTeam n f).serving = s.serving := rfl
@[simp] theorem State.modTeam_svc (s : State) (n : Nat) (f : Team → Team) : (s.modTeam n f).svc = s.svc := rfl
@[simp] theorem State.modTeam_sockets (s : State) (n : Nat) (f : Team → Team) : (s.modTeam n f).sockets = s.sockets := rfl
@[simp] theorem State.modTeam_lent (s : State) (n : Nat) (f : Team → Team) : (s.modTeam n f).lent = s.lent := rfl
@[simp] theorem State.modTeam_details (s : State) (n : Nat) (f : Team → Team) : (s.modTeam n f).details = s.details := rfl
@[simp] theorem State.modTeam_zones (s : State) (n : Nat) (f : Team → Team) : (s.modTeam n f).zones = s.zones := rfl
@[simp] theorem State.modTeam_qcpAt (s : State) (n : Nat) (f : Team → Team) : (s.modTeam n f).qcpAt = s.qcpAt := rfl
@[simp] theorem State.modTeam_pending (s : State) (n : Nat) (f : Team → Team) : (s.modTeam n f).pending = s.pending := rfl
@[simp] theorem State.modTeam_bar4 (s : State) (n : Nat) (f : Team → Team) : (s.modTeam n f).bar4 = s.bar4 := rfl
@[simp] theorem State.modTeam_hdm (s : State) (n : Nat) (f : Team → Team) : (s.modTeam n f).hdm = s.hdm := rfl
@[simp] theorem State.modTeam_boot (s : State) (n : Nat) (f : Team → Team) : (s.modTeam n f).boot = s.boot := rfl
@[simp] theorem State.modTeam_fleet (s : State) (n : Nat) (f : Team → Team) : (s.modTeam n f).fleet = s.fleet := rfl
@[simp] theorem State.modTeam_out (s : State) (n : Nat) (f : Team → Team) : (s.modTeam n f).out = s.out := rfl
@[simp] theorem State.modTeam_cur (s : State) (n : Nat) (f : Team → Team) : (s.modTeam n f).cur = s.cur := rfl
@[simp] theorem State.modTeam_second (s : State) (n : Nat) (f : Team → Team) : (s.modTeam n f).second = s.second := rfl
@[simp] theorem State.modTeam_turn (s : State) (n : Nat) (f : Team → Team) : (s.modTeam n f).turn = s.turn := rfl
@[simp] theorem State.modTeam_schedule (s : State) (n : Nat) (f : Team → Team) : (s.modTeam n f).schedule = s.schedule := rfl
@[simp] theorem State.modTeam_free (s : State) (n : Nat) (f : Team → Team) : (s.modTeam n f).free = s.free := rfl

/-! ### State.modGrp -/

@[simp] theorem State.modGrp_mem (s : State) (r : GRef) (f : Group → Group) : (s.modGrp r f).mem = s.mem := rfl
@[simp] theorem State.modGrp_poison (s : State) (r : GRef) (f : Group → Group) : (s.modGrp r f).poison = s.poison := rfl
@[simp] theorem State.modGrp_cycle (s : State) (r : GRef) (f : Group → Group) : (s.modGrp r f).cycle = s.cycle := rfl
@[simp] theorem State.modGrp_core (s : State) (r : GRef) (f : Group → Group) : (s.modGrp r f).core = s.core := rfl
@[simp] theorem State.modGrp_sub (s : State) (r : GRef) (f : Group → Group) : (s.modGrp r f).sub = s.sub := rfl
@[simp] theorem State.modGrp_bar (s : State) (r : GRef) (f : Group → Group) : (s.modGrp r f).bar = s.bar := rfl
@[simp] theorem State.modGrp_written (s : State) (r : GRef) (f : Group → Group) : (s.modGrp r f).written = s.written := rfl
@[simp] theorem State.modGrp_ctxs (s : State) (r : GRef) (f : Group → Group) : (s.modGrp r f).ctxs = s.ctxs := rfl
@[simp] theorem State.modGrp_errs (s : State) (r : GRef) (f : Group → Group) : (s.modGrp r f).errs = s.errs := rfl
@[simp] theorem State.modGrp_launches (s : State) (r : GRef) (f : Group → Group) : (s.modGrp r f).launches = s.launches := rfl
@[simp] theorem State.modGrp_teams (s : State) (r : GRef) (f : Group → Group) : (s.modGrp r f).teams = amod s.teams r.team fun t => t.modGrp r.grp f := rfl
@[simp] theorem State.modGrp_fresh (s : State) (r : GRef) (f : Group → Group) : (s.modGrp r f).fresh = s.fresh := rfl
@[simp] theorem State.modGrp_tileJobs (s : State) (r : GRef) (f : Group → Group) : (s.modGrp r f).tileJobs = s.tileJobs := rfl
@[simp] theorem State.modGrp_chains (s : State) (r : GRef) (f : Group → Group) : (s.modGrp r f).chains = s.chains := rfl
@[simp] theorem State.modGrp_lgfs (s : State) (r : GRef) (f : Group → Group) : (s.modGrp r f).lgfs = s.lgfs := rfl
@[simp] theorem State.modGrp_coh (s : State) (r : GRef) (f : Group → Group) : (s.modGrp r f).coh = s.coh := rfl
@[simp] theorem State.modGrp_threads (s : State) (r : GRef) (f : Group → Group) : (s.modGrp r f).threads = s.threads := rfl
@[simp] theorem State.modGrp_table (s : State) (r : GRef) (f : Group → Group) : (s.modGrp r f).table = s.table := rfl
@[simp] theorem State.modGrp_entered (s : State) (r : GRef) (f : Group → Group) : (s.modGrp r f).entered = s.entered := rfl
@[simp] theorem State.modGrp_versions (s : State) (r : GRef) (f : Group → Group) : (s.modGrp r f).versions = s.versions := rfl
@[simp] theorem State.modGrp_records (s : State) (r : GRef) (f : Group → Group) : (s.modGrp r f).records = s.records := rfl
@[simp] theorem State.modGrp_seqs (s : State) (r : GRef) (f : Group → Group) : (s.modGrp r f).seqs = s.seqs := rfl
@[simp] theorem State.modGrp_kvmap (s : State) (r : GRef) (f : Group → Group) : (s.modGrp r f).kvmap = s.kvmap := rfl
@[simp] theorem State.modGrp_sending (s : State) (r : GRef) (f : Group → Group) : (s.modGrp r f).sending = s.sending := rfl
@[simp] theorem State.modGrp_arrived (s : State) (r : GRef) (f : Group → Group) : (s.modGrp r f).arrived = s.arrived := rfl
@[simp] theorem State.modGrp_nodes (s : State) (r : GRef) (f : Group → Group) : (s.modGrp r f).nodes = s.nodes := rfl
@[simp] theorem State.modGrp_serving (s : State) (r : GRef) (f : Group → Group) : (s.modGrp r f).serving = s.serving := rfl
@[simp] theorem State.modGrp_svc (s : State) (r : GRef) (f : Group → Group) : (s.modGrp r f).svc = s.svc := rfl
@[simp] theorem State.modGrp_sockets (s : State) (r : GRef) (f : Group → Group) : (s.modGrp r f).sockets = s.sockets := rfl
@[simp] theorem State.modGrp_lent (s : State) (r : GRef) (f : Group → Group) : (s.modGrp r f).lent = s.lent := rfl
@[simp] theorem State.modGrp_details (s : State) (r : GRef) (f : Group → Group) : (s.modGrp r f).details = s.details := rfl
@[simp] theorem State.modGrp_zones (s : State) (r : GRef) (f : Group → Group) : (s.modGrp r f).zones = s.zones := rfl
@[simp] theorem State.modGrp_qcpAt (s : State) (r : GRef) (f : Group → Group) : (s.modGrp r f).qcpAt = s.qcpAt := rfl
@[simp] theorem State.modGrp_pending (s : State) (r : GRef) (f : Group → Group) : (s.modGrp r f).pending = s.pending := rfl
@[simp] theorem State.modGrp_bar4 (s : State) (r : GRef) (f : Group → Group) : (s.modGrp r f).bar4 = s.bar4 := rfl
@[simp] theorem State.modGrp_hdm (s : State) (r : GRef) (f : Group → Group) : (s.modGrp r f).hdm = s.hdm := rfl
@[simp] theorem State.modGrp_boot (s : State) (r : GRef) (f : Group → Group) : (s.modGrp r f).boot = s.boot := rfl
@[simp] theorem State.modGrp_fleet (s : State) (r : GRef) (f : Group → Group) : (s.modGrp r f).fleet = s.fleet := rfl
@[simp] theorem State.modGrp_out (s : State) (r : GRef) (f : Group → Group) : (s.modGrp r f).out = s.out := rfl
@[simp] theorem State.modGrp_cur (s : State) (r : GRef) (f : Group → Group) : (s.modGrp r f).cur = s.cur := rfl
@[simp] theorem State.modGrp_second (s : State) (r : GRef) (f : Group → Group) : (s.modGrp r f).second = s.second := rfl
@[simp] theorem State.modGrp_turn (s : State) (r : GRef) (f : Group → Group) : (s.modGrp r f).turn = s.turn := rfl
@[simp] theorem State.modGrp_schedule (s : State) (r : GRef) (f : Group → Group) : (s.modGrp r f).schedule = s.schedule := rfl
@[simp] theorem State.modGrp_free (s : State) (r : GRef) (f : Group → Group) : (s.modGrp r f).free = s.free := rfl

/-! ### State.modCtx -/

@[simp] theorem State.modCtx_mem (s : State) (c : Nat) (f : Ctx → Ctx) : (s.modCtx c f).mem = s.mem := rfl
@[simp] theorem State.modCtx_poison (s : State) (c : Nat) (f : Ctx → Ctx) : (s.modCtx c f).poison = s.poison := rfl
@[simp] theorem State.modCtx_cycle (s : State) (c : Nat) (f : Ctx → Ctx) : (s.modCtx c f).cycle = s.cycle := rfl
@[simp] theorem State.modCtx_core (s : State) (c : Nat) (f : Ctx → Ctx) : (s.modCtx c f).core = s.core := rfl
@[simp] theorem State.modCtx_sub (s : State) (c : Nat) (f : Ctx → Ctx) : (s.modCtx c f).sub = s.sub := rfl
@[simp] theorem State.modCtx_bar (s : State) (c : Nat) (f : Ctx → Ctx) : (s.modCtx c f).bar = s.bar := rfl
@[simp] theorem State.modCtx_written (s : State) (c : Nat) (f : Ctx → Ctx) : (s.modCtx c f).written = s.written := rfl
@[simp] theorem State.modCtx_ctxs (s : State) (c : Nat) (f : Ctx → Ctx) : (s.modCtx c f).ctxs = amod s.ctxs c f := rfl
@[simp] theorem State.modCtx_errs (s : State) (c : Nat) (f : Ctx → Ctx) : (s.modCtx c f).errs = s.errs := rfl
@[simp] theorem State.modCtx_launches (s : State) (c : Nat) (f : Ctx → Ctx) : (s.modCtx c f).launches = s.launches := rfl
@[simp] theorem State.modCtx_teams (s : State) (c : Nat) (f : Ctx → Ctx) : (s.modCtx c f).teams = s.teams := rfl
@[simp] theorem State.modCtx_fresh (s : State) (c : Nat) (f : Ctx → Ctx) : (s.modCtx c f).fresh = s.fresh := rfl
@[simp] theorem State.modCtx_tileJobs (s : State) (c : Nat) (f : Ctx → Ctx) : (s.modCtx c f).tileJobs = s.tileJobs := rfl
@[simp] theorem State.modCtx_chains (s : State) (c : Nat) (f : Ctx → Ctx) : (s.modCtx c f).chains = s.chains := rfl
@[simp] theorem State.modCtx_lgfs (s : State) (c : Nat) (f : Ctx → Ctx) : (s.modCtx c f).lgfs = s.lgfs := rfl
@[simp] theorem State.modCtx_coh (s : State) (c : Nat) (f : Ctx → Ctx) : (s.modCtx c f).coh = s.coh := rfl
@[simp] theorem State.modCtx_threads (s : State) (c : Nat) (f : Ctx → Ctx) : (s.modCtx c f).threads = s.threads := rfl
@[simp] theorem State.modCtx_table (s : State) (c : Nat) (f : Ctx → Ctx) : (s.modCtx c f).table = s.table := rfl
@[simp] theorem State.modCtx_entered (s : State) (c : Nat) (f : Ctx → Ctx) : (s.modCtx c f).entered = s.entered := rfl
@[simp] theorem State.modCtx_versions (s : State) (c : Nat) (f : Ctx → Ctx) : (s.modCtx c f).versions = s.versions := rfl
@[simp] theorem State.modCtx_records (s : State) (c : Nat) (f : Ctx → Ctx) : (s.modCtx c f).records = s.records := rfl
@[simp] theorem State.modCtx_seqs (s : State) (c : Nat) (f : Ctx → Ctx) : (s.modCtx c f).seqs = s.seqs := rfl
@[simp] theorem State.modCtx_kvmap (s : State) (c : Nat) (f : Ctx → Ctx) : (s.modCtx c f).kvmap = s.kvmap := rfl
@[simp] theorem State.modCtx_sending (s : State) (c : Nat) (f : Ctx → Ctx) : (s.modCtx c f).sending = s.sending := rfl
@[simp] theorem State.modCtx_arrived (s : State) (c : Nat) (f : Ctx → Ctx) : (s.modCtx c f).arrived = s.arrived := rfl
@[simp] theorem State.modCtx_nodes (s : State) (c : Nat) (f : Ctx → Ctx) : (s.modCtx c f).nodes = s.nodes := rfl
@[simp] theorem State.modCtx_serving (s : State) (c : Nat) (f : Ctx → Ctx) : (s.modCtx c f).serving = s.serving := rfl
@[simp] theorem State.modCtx_svc (s : State) (c : Nat) (f : Ctx → Ctx) : (s.modCtx c f).svc = s.svc := rfl
@[simp] theorem State.modCtx_sockets (s : State) (c : Nat) (f : Ctx → Ctx) : (s.modCtx c f).sockets = s.sockets := rfl
@[simp] theorem State.modCtx_lent (s : State) (c : Nat) (f : Ctx → Ctx) : (s.modCtx c f).lent = s.lent := rfl
@[simp] theorem State.modCtx_details (s : State) (c : Nat) (f : Ctx → Ctx) : (s.modCtx c f).details = s.details := rfl
@[simp] theorem State.modCtx_zones (s : State) (c : Nat) (f : Ctx → Ctx) : (s.modCtx c f).zones = s.zones := rfl
@[simp] theorem State.modCtx_qcpAt (s : State) (c : Nat) (f : Ctx → Ctx) : (s.modCtx c f).qcpAt = s.qcpAt := rfl
@[simp] theorem State.modCtx_pending (s : State) (c : Nat) (f : Ctx → Ctx) : (s.modCtx c f).pending = s.pending := rfl
@[simp] theorem State.modCtx_bar4 (s : State) (c : Nat) (f : Ctx → Ctx) : (s.modCtx c f).bar4 = s.bar4 := rfl
@[simp] theorem State.modCtx_hdm (s : State) (c : Nat) (f : Ctx → Ctx) : (s.modCtx c f).hdm = s.hdm := rfl
@[simp] theorem State.modCtx_boot (s : State) (c : Nat) (f : Ctx → Ctx) : (s.modCtx c f).boot = s.boot := rfl
@[simp] theorem State.modCtx_fleet (s : State) (c : Nat) (f : Ctx → Ctx) : (s.modCtx c f).fleet = s.fleet := rfl
@[simp] theorem State.modCtx_out (s : State) (c : Nat) (f : Ctx → Ctx) : (s.modCtx c f).out = s.out := rfl
@[simp] theorem State.modCtx_cur (s : State) (c : Nat) (f : Ctx → Ctx) : (s.modCtx c f).cur = s.cur := rfl
@[simp] theorem State.modCtx_second (s : State) (c : Nat) (f : Ctx → Ctx) : (s.modCtx c f).second = s.second := rfl
@[simp] theorem State.modCtx_turn (s : State) (c : Nat) (f : Ctx → Ctx) : (s.modCtx c f).turn = s.turn := rfl
@[simp] theorem State.modCtx_schedule (s : State) (c : Nat) (f : Ctx → Ctx) : (s.modCtx c f).schedule = s.schedule := rfl
@[simp] theorem State.modCtx_free (s : State) (c : Nat) (f : Ctx → Ctx) : (s.modCtx c f).free = s.free := rfl

/-! ### State.modQ -/

@[simp] theorem State.modQ_mem (s : State) (n : Nat) (f : Qcp → Qcp) : (s.modQ n f).mem = s.mem := rfl
@[simp] theorem State.modQ_poison (s : State) (n : Nat) (f : Qcp → Qcp) : (s.modQ n f).poison = s.poison := rfl
@[simp] theorem State.modQ_cycle (s : State) (n : Nat) (f : Qcp → Qcp) : (s.modQ n f).cycle = s.cycle := rfl
@[simp] theorem State.modQ_core (s : State) (n : Nat) (f : Qcp → Qcp) : (s.modQ n f).core = s.core := rfl
@[simp] theorem State.modQ_sub (s : State) (n : Nat) (f : Qcp → Qcp) : (s.modQ n f).sub = s.sub := rfl
@[simp] theorem State.modQ_bar (s : State) (n : Nat) (f : Qcp → Qcp) : (s.modQ n f).bar = s.bar := rfl
@[simp] theorem State.modQ_written (s : State) (n : Nat) (f : Qcp → Qcp) : (s.modQ n f).written = s.written := rfl
@[simp] theorem State.modQ_ctxs (s : State) (n : Nat) (f : Qcp → Qcp) : (s.modQ n f).ctxs = s.ctxs := rfl
@[simp] theorem State.modQ_errs (s : State) (n : Nat) (f : Qcp → Qcp) : (s.modQ n f).errs = s.errs := rfl
@[simp] theorem State.modQ_launches (s : State) (n : Nat) (f : Qcp → Qcp) : (s.modQ n f).launches = s.launches := rfl
@[simp] theorem State.modQ_teams (s : State) (n : Nat) (f : Qcp → Qcp) : (s.modQ n f).teams = s.teams := rfl
@[simp] theorem State.modQ_fresh (s : State) (n : Nat) (f : Qcp → Qcp) : (s.modQ n f).fresh = s.fresh := rfl
@[simp] theorem State.modQ_tileJobs (s : State) (n : Nat) (f : Qcp → Qcp) : (s.modQ n f).tileJobs = s.tileJobs := rfl
@[simp] theorem State.modQ_chains (s : State) (n : Nat) (f : Qcp → Qcp) : (s.modQ n f).chains = s.chains := rfl
@[simp] theorem State.modQ_lgfs (s : State) (n : Nat) (f : Qcp → Qcp) : (s.modQ n f).lgfs = s.lgfs := rfl
@[simp] theorem State.modQ_coh (s : State) (n : Nat) (f : Qcp → Qcp) : (s.modQ n f).coh = s.coh := rfl
@[simp] theorem State.modQ_threads (s : State) (n : Nat) (f : Qcp → Qcp) : (s.modQ n f).threads = amod s.threads n f := rfl
@[simp] theorem State.modQ_table (s : State) (n : Nat) (f : Qcp → Qcp) : (s.modQ n f).table = s.table := rfl
@[simp] theorem State.modQ_entered (s : State) (n : Nat) (f : Qcp → Qcp) : (s.modQ n f).entered = s.entered := rfl
@[simp] theorem State.modQ_versions (s : State) (n : Nat) (f : Qcp → Qcp) : (s.modQ n f).versions = s.versions := rfl
@[simp] theorem State.modQ_records (s : State) (n : Nat) (f : Qcp → Qcp) : (s.modQ n f).records = s.records := rfl
@[simp] theorem State.modQ_seqs (s : State) (n : Nat) (f : Qcp → Qcp) : (s.modQ n f).seqs = s.seqs := rfl
@[simp] theorem State.modQ_kvmap (s : State) (n : Nat) (f : Qcp → Qcp) : (s.modQ n f).kvmap = s.kvmap := rfl
@[simp] theorem State.modQ_sending (s : State) (n : Nat) (f : Qcp → Qcp) : (s.modQ n f).sending = s.sending := rfl
@[simp] theorem State.modQ_arrived (s : State) (n : Nat) (f : Qcp → Qcp) : (s.modQ n f).arrived = s.arrived := rfl
@[simp] theorem State.modQ_nodes (s : State) (n : Nat) (f : Qcp → Qcp) : (s.modQ n f).nodes = s.nodes := rfl
@[simp] theorem State.modQ_serving (s : State) (n : Nat) (f : Qcp → Qcp) : (s.modQ n f).serving = s.serving := rfl
@[simp] theorem State.modQ_svc (s : State) (n : Nat) (f : Qcp → Qcp) : (s.modQ n f).svc = s.svc := rfl
@[simp] theorem State.modQ_sockets (s : State) (n : Nat) (f : Qcp → Qcp) : (s.modQ n f).sockets = s.sockets := rfl
@[simp] theorem State.modQ_lent (s : State) (n : Nat) (f : Qcp → Qcp) : (s.modQ n f).lent = s.lent := rfl
@[simp] theorem State.modQ_details (s : State) (n : Nat) (f : Qcp → Qcp) : (s.modQ n f).details = s.details := rfl
@[simp] theorem State.modQ_zones (s : State) (n : Nat) (f : Qcp → Qcp) : (s.modQ n f).zones = s.zones := rfl
@[simp] theorem State.modQ_qcpAt (s : State) (n : Nat) (f : Qcp → Qcp) : (s.modQ n f).qcpAt = s.qcpAt := rfl
@[simp] theorem State.modQ_pending (s : State) (n : Nat) (f : Qcp → Qcp) : (s.modQ n f).pending = s.pending := rfl
@[simp] theorem State.modQ_bar4 (s : State) (n : Nat) (f : Qcp → Qcp) : (s.modQ n f).bar4 = s.bar4 := rfl
@[simp] theorem State.modQ_hdm (s : State) (n : Nat) (f : Qcp → Qcp) : (s.modQ n f).hdm = s.hdm := rfl
@[simp] theorem State.modQ_boot (s : State) (n : Nat) (f : Qcp → Qcp) : (s.modQ n f).boot = s.boot := rfl
@[simp] theorem State.modQ_fleet (s : State) (n : Nat) (f : Qcp → Qcp) : (s.modQ n f).fleet = s.fleet := rfl
@[simp] theorem State.modQ_out (s : State) (n : Nat) (f : Qcp → Qcp) : (s.modQ n f).out = s.out := rfl
@[simp] theorem State.modQ_cur (s : State) (n : Nat) (f : Qcp → Qcp) : (s.modQ n f).cur = s.cur := rfl
@[simp] theorem State.modQ_second (s : State) (n : Nat) (f : Qcp → Qcp) : (s.modQ n f).second = s.second := rfl
@[simp] theorem State.modQ_turn (s : State) (n : Nat) (f : Qcp → Qcp) : (s.modQ n f).turn = s.turn := rfl
@[simp] theorem State.modQ_schedule (s : State) (n : Nat) (f : Qcp → Qcp) : (s.modQ n f).schedule = s.schedule := rfl
@[simp] theorem State.modQ_free (s : State) (n : Nat) (f : Qcp → Qcp) : (s.modQ n f).free = s.free := rfl

/-! ### State.setQ -/

@[simp] theorem State.setQ_mem (s : State) (n : Nat) (q : Qcp) : (s.setQ n q).mem = s.mem := rfl
@[simp] theorem State.setQ_poison (s : State) (n : Nat) (q : Qcp) : (s.setQ n q).poison = s.poison := rfl
@[simp] theorem State.setQ_cycle (s : State) (n : Nat) (q : Qcp) : (s.setQ n q).cycle = s.cycle := rfl
@[simp] theorem State.setQ_core (s : State) (n : Nat) (q : Qcp) : (s.setQ n q).core = s.core := rfl
@[simp] theorem State.setQ_sub (s : State) (n : Nat) (q : Qcp) : (s.setQ n q).sub = s.sub := rfl
@[simp] theorem State.setQ_bar (s : State) (n : Nat) (q : Qcp) : (s.setQ n q).bar = s.bar := rfl
@[simp] theorem State.setQ_written (s : State) (n : Nat) (q : Qcp) : (s.setQ n q).written = s.written := rfl
@[simp] theorem State.setQ_ctxs (s : State) (n : Nat) (q : Qcp) : (s.setQ n q).ctxs = s.ctxs := rfl
@[simp] theorem State.setQ_errs (s : State) (n : Nat) (q : Qcp) : (s.setQ n q).errs = s.errs := rfl
@[simp] theorem State.setQ_launches (s : State) (n : Nat) (q : Qcp) : (s.setQ n q).launches = s.launches := rfl
@[simp] theorem State.setQ_teams (s : State) (n : Nat) (q : Qcp) : (s.setQ n q).teams = s.teams := rfl
@[simp] theorem State.setQ_fresh (s : State) (n : Nat) (q : Qcp) : (s.setQ n q).fresh = s.fresh := rfl
@[simp] theorem State.setQ_tileJobs (s : State) (n : Nat) (q : Qcp) : (s.setQ n q).tileJobs = s.tileJobs := rfl
@[simp] theorem State.setQ_chains (s : State) (n : Nat) (q : Qcp) : (s.setQ n q).chains = s.chains := rfl
@[simp] theorem State.setQ_lgfs (s : State) (n : Nat) (q : Qcp) : (s.setQ n q).lgfs = s.lgfs := rfl
@[simp] theorem State.setQ_coh (s : State) (n : Nat) (q : Qcp) : (s.setQ n q).coh = s.coh := rfl
@[simp] theorem State.setQ_threads (s : State) (n : Nat) (q : Qcp) : (s.setQ n q).threads = aset s.threads n q := rfl
@[simp] theorem State.setQ_table (s : State) (n : Nat) (q : Qcp) : (s.setQ n q).table = s.table := rfl
@[simp] theorem State.setQ_entered (s : State) (n : Nat) (q : Qcp) : (s.setQ n q).entered = s.entered := rfl
@[simp] theorem State.setQ_versions (s : State) (n : Nat) (q : Qcp) : (s.setQ n q).versions = s.versions := rfl
@[simp] theorem State.setQ_records (s : State) (n : Nat) (q : Qcp) : (s.setQ n q).records = s.records := rfl
@[simp] theorem State.setQ_seqs (s : State) (n : Nat) (q : Qcp) : (s.setQ n q).seqs = s.seqs := rfl
@[simp] theorem State.setQ_kvmap (s : State) (n : Nat) (q : Qcp) : (s.setQ n q).kvmap = s.kvmap := rfl
@[simp] theorem State.setQ_sending (s : State) (n : Nat) (q : Qcp) : (s.setQ n q).sending = s.sending := rfl
@[simp] theorem State.setQ_arrived (s : State) (n : Nat) (q : Qcp) : (s.setQ n q).arrived = s.arrived := rfl
@[simp] theorem State.setQ_nodes (s : State) (n : Nat) (q : Qcp) : (s.setQ n q).nodes = s.nodes := rfl
@[simp] theorem State.setQ_serving (s : State) (n : Nat) (q : Qcp) : (s.setQ n q).serving = s.serving := rfl
@[simp] theorem State.setQ_svc (s : State) (n : Nat) (q : Qcp) : (s.setQ n q).svc = s.svc := rfl
@[simp] theorem State.setQ_sockets (s : State) (n : Nat) (q : Qcp) : (s.setQ n q).sockets = s.sockets := rfl
@[simp] theorem State.setQ_lent (s : State) (n : Nat) (q : Qcp) : (s.setQ n q).lent = s.lent := rfl
@[simp] theorem State.setQ_details (s : State) (n : Nat) (q : Qcp) : (s.setQ n q).details = s.details := rfl
@[simp] theorem State.setQ_zones (s : State) (n : Nat) (q : Qcp) : (s.setQ n q).zones = s.zones := rfl
@[simp] theorem State.setQ_qcpAt (s : State) (n : Nat) (q : Qcp) : (s.setQ n q).qcpAt = s.qcpAt := rfl
@[simp] theorem State.setQ_pending (s : State) (n : Nat) (q : Qcp) : (s.setQ n q).pending = s.pending := rfl
@[simp] theorem State.setQ_bar4 (s : State) (n : Nat) (q : Qcp) : (s.setQ n q).bar4 = s.bar4 := rfl
@[simp] theorem State.setQ_hdm (s : State) (n : Nat) (q : Qcp) : (s.setQ n q).hdm = s.hdm := rfl
@[simp] theorem State.setQ_boot (s : State) (n : Nat) (q : Qcp) : (s.setQ n q).boot = s.boot := rfl
@[simp] theorem State.setQ_fleet (s : State) (n : Nat) (q : Qcp) : (s.setQ n q).fleet = s.fleet := rfl
@[simp] theorem State.setQ_out (s : State) (n : Nat) (q : Qcp) : (s.setQ n q).out = s.out := rfl
@[simp] theorem State.setQ_cur (s : State) (n : Nat) (q : Qcp) : (s.setQ n q).cur = s.cur := rfl
@[simp] theorem State.setQ_second (s : State) (n : Nat) (q : Qcp) : (s.setQ n q).second = s.second := rfl
@[simp] theorem State.setQ_turn (s : State) (n : Nat) (q : Qcp) : (s.setQ n q).turn = s.turn := rfl
@[simp] theorem State.setQ_schedule (s : State) (n : Nat) (q : Qcp) : (s.setQ n q).schedule = s.schedule := rfl
@[simp] theorem State.setQ_free (s : State) (n : Nat) (q : Qcp) : (s.setQ n q).free = s.free := rfl

/-! ### State.modChain -/

@[simp] theorem State.modChain_mem (s : State) (k : Nat) (f : Chain → Chain) : (s.modChain k f).mem = s.mem := rfl
@[simp] theorem State.modChain_poison (s : State) (k : Nat) (f : Chain → Chain) : (s.modChain k f).poison = s.poison := rfl
@[simp] theorem State.modChain_cycle (s : State) (k : Nat) (f : Chain → Chain) : (s.modChain k f).cycle = s.cycle := rfl
@[simp] theorem State.modChain_core (s : State) (k : Nat) (f : Chain → Chain) : (s.modChain k f).core = s.core := rfl
@[simp] theorem State.modChain_sub (s : State) (k : Nat) (f : Chain → Chain) : (s.modChain k f).sub = s.sub := rfl
@[simp] theorem State.modChain_bar (s : State) (k : Nat) (f : Chain → Chain) : (s.modChain k f).bar = s.bar := rfl
@[simp] theorem State.modChain_written (s : State) (k : Nat) (f : Chain → Chain) : (s.modChain k f).written = s.written := rfl
@[simp] theorem State.modChain_ctxs (s : State) (k : Nat) (f : Chain → Chain) : (s.modChain k f).ctxs = s.ctxs := rfl
@[simp] theorem State.modChain_errs (s : State) (k : Nat) (f : Chain → Chain) : (s.modChain k f).errs = s.errs := rfl
@[simp] theorem State.modChain_launches (s : State) (k : Nat) (f : Chain → Chain) : (s.modChain k f).launches = s.launches := rfl
@[simp] theorem State.modChain_teams (s : State) (k : Nat) (f : Chain → Chain) : (s.modChain k f).teams = s.teams := rfl
@[simp] theorem State.modChain_fresh (s : State) (k : Nat) (f : Chain → Chain) : (s.modChain k f).fresh = s.fresh := rfl
@[simp] theorem State.modChain_tileJobs (s : State) (k : Nat) (f : Chain → Chain) : (s.modChain k f).tileJobs = s.tileJobs := rfl
@[simp] theorem State.modChain_chains (s : State) (k : Nat) (f : Chain → Chain) : (s.modChain k f).chains = amod s.chains k f := rfl
@[simp] theorem State.modChain_lgfs (s : State) (k : Nat) (f : Chain → Chain) : (s.modChain k f).lgfs = s.lgfs := rfl
@[simp] theorem State.modChain_coh (s : State) (k : Nat) (f : Chain → Chain) : (s.modChain k f).coh = s.coh := rfl
@[simp] theorem State.modChain_threads (s : State) (k : Nat) (f : Chain → Chain) : (s.modChain k f).threads = s.threads := rfl
@[simp] theorem State.modChain_table (s : State) (k : Nat) (f : Chain → Chain) : (s.modChain k f).table = s.table := rfl
@[simp] theorem State.modChain_entered (s : State) (k : Nat) (f : Chain → Chain) : (s.modChain k f).entered = s.entered := rfl
@[simp] theorem State.modChain_versions (s : State) (k : Nat) (f : Chain → Chain) : (s.modChain k f).versions = s.versions := rfl
@[simp] theorem State.modChain_records (s : State) (k : Nat) (f : Chain → Chain) : (s.modChain k f).records = s.records := rfl
@[simp] theorem State.modChain_seqs (s : State) (k : Nat) (f : Chain → Chain) : (s.modChain k f).seqs = s.seqs := rfl
@[simp] theorem State.modChain_kvmap (s : State) (k : Nat) (f : Chain → Chain) : (s.modChain k f).kvmap = s.kvmap := rfl
@[simp] theorem State.modChain_sending (s : State) (k : Nat) (f : Chain → Chain) : (s.modChain k f).sending = s.sending := rfl
@[simp] theorem State.modChain_arrived (s : State) (k : Nat) (f : Chain → Chain) : (s.modChain k f).arrived = s.arrived := rfl
@[simp] theorem State.modChain_nodes (s : State) (k : Nat) (f : Chain → Chain) : (s.modChain k f).nodes = s.nodes := rfl
@[simp] theorem State.modChain_serving (s : State) (k : Nat) (f : Chain → Chain) : (s.modChain k f).serving = s.serving := rfl
@[simp] theorem State.modChain_svc (s : State) (k : Nat) (f : Chain → Chain) : (s.modChain k f).svc = s.svc := rfl
@[simp] theorem State.modChain_sockets (s : State) (k : Nat) (f : Chain → Chain) : (s.modChain k f).sockets = s.sockets := rfl
@[simp] theorem State.modChain_lent (s : State) (k : Nat) (f : Chain → Chain) : (s.modChain k f).lent = s.lent := rfl
@[simp] theorem State.modChain_details (s : State) (k : Nat) (f : Chain → Chain) : (s.modChain k f).details = s.details := rfl
@[simp] theorem State.modChain_zones (s : State) (k : Nat) (f : Chain → Chain) : (s.modChain k f).zones = s.zones := rfl
@[simp] theorem State.modChain_qcpAt (s : State) (k : Nat) (f : Chain → Chain) : (s.modChain k f).qcpAt = s.qcpAt := rfl
@[simp] theorem State.modChain_pending (s : State) (k : Nat) (f : Chain → Chain) : (s.modChain k f).pending = s.pending := rfl
@[simp] theorem State.modChain_bar4 (s : State) (k : Nat) (f : Chain → Chain) : (s.modChain k f).bar4 = s.bar4 := rfl
@[simp] theorem State.modChain_hdm (s : State) (k : Nat) (f : Chain → Chain) : (s.modChain k f).hdm = s.hdm := rfl
@[simp] theorem State.modChain_boot (s : State) (k : Nat) (f : Chain → Chain) : (s.modChain k f).boot = s.boot := rfl
@[simp] theorem State.modChain_fleet (s : State) (k : Nat) (f : Chain → Chain) : (s.modChain k f).fleet = s.fleet := rfl
@[simp] theorem State.modChain_out (s : State) (k : Nat) (f : Chain → Chain) : (s.modChain k f).out = s.out := rfl
@[simp] theorem State.modChain_cur (s : State) (k : Nat) (f : Chain → Chain) : (s.modChain k f).cur = s.cur := rfl
@[simp] theorem State.modChain_second (s : State) (k : Nat) (f : Chain → Chain) : (s.modChain k f).second = s.second := rfl
@[simp] theorem State.modChain_turn (s : State) (k : Nat) (f : Chain → Chain) : (s.modChain k f).turn = s.turn := rfl
@[simp] theorem State.modChain_schedule (s : State) (k : Nat) (f : Chain → Chain) : (s.modChain k f).schedule = s.schedule := rfl
@[simp] theorem State.modChain_free (s : State) (k : Nat) (f : Chain → Chain) : (s.modChain k f).free = s.free := rfl

/-! ### State.modSvc -/

@[simp] theorem State.modSvc_mem (s : State) (q : Nat) (f : SvcQueue → SvcQueue) : (s.modSvc q f).mem = s.mem := rfl
@[simp] theorem State.modSvc_poison (s : State) (q : Nat) (f : SvcQueue → SvcQueue) : (s.modSvc q f).poison = s.poison := rfl
@[simp] theorem State.modSvc_cycle (s : State) (q : Nat) (f : SvcQueue → SvcQueue) : (s.modSvc q f).cycle = s.cycle := rfl
@[simp] theorem State.modSvc_core (s : State) (q : Nat) (f : SvcQueue → SvcQueue) : (s.modSvc q f).core = s.core := rfl
@[simp] theorem State.modSvc_sub (s : State) (q : Nat) (f : SvcQueue → SvcQueue) : (s.modSvc q f).sub = s.sub := rfl
@[simp] theorem State.modSvc_bar (s : State) (q : Nat) (f : SvcQueue → SvcQueue) : (s.modSvc q f).bar = s.bar := rfl
@[simp] theorem State.modSvc_written (s : State) (q : Nat) (f : SvcQueue → SvcQueue) : (s.modSvc q f).written = s.written := rfl
@[simp] theorem State.modSvc_ctxs (s : State) (q : Nat) (f : SvcQueue → SvcQueue) : (s.modSvc q f).ctxs = s.ctxs := rfl
@[simp] theorem State.modSvc_errs (s : State) (q : Nat) (f : SvcQueue → SvcQueue) : (s.modSvc q f).errs = s.errs := rfl
@[simp] theorem State.modSvc_launches (s : State) (q : Nat) (f : SvcQueue → SvcQueue) : (s.modSvc q f).launches = s.launches := rfl
@[simp] theorem State.modSvc_teams (s : State) (q : Nat) (f : SvcQueue → SvcQueue) : (s.modSvc q f).teams = s.teams := rfl
@[simp] theorem State.modSvc_fresh (s : State) (q : Nat) (f : SvcQueue → SvcQueue) : (s.modSvc q f).fresh = s.fresh := rfl
@[simp] theorem State.modSvc_tileJobs (s : State) (q : Nat) (f : SvcQueue → SvcQueue) : (s.modSvc q f).tileJobs = s.tileJobs := rfl
@[simp] theorem State.modSvc_chains (s : State) (q : Nat) (f : SvcQueue → SvcQueue) : (s.modSvc q f).chains = s.chains := rfl
@[simp] theorem State.modSvc_lgfs (s : State) (q : Nat) (f : SvcQueue → SvcQueue) : (s.modSvc q f).lgfs = s.lgfs := rfl
@[simp] theorem State.modSvc_coh (s : State) (q : Nat) (f : SvcQueue → SvcQueue) : (s.modSvc q f).coh = s.coh := rfl
@[simp] theorem State.modSvc_threads (s : State) (q : Nat) (f : SvcQueue → SvcQueue) : (s.modSvc q f).threads = s.threads := rfl
@[simp] theorem State.modSvc_table (s : State) (q : Nat) (f : SvcQueue → SvcQueue) : (s.modSvc q f).table = s.table := rfl
@[simp] theorem State.modSvc_entered (s : State) (q : Nat) (f : SvcQueue → SvcQueue) : (s.modSvc q f).entered = s.entered := rfl
@[simp] theorem State.modSvc_versions (s : State) (q : Nat) (f : SvcQueue → SvcQueue) : (s.modSvc q f).versions = s.versions := rfl
@[simp] theorem State.modSvc_records (s : State) (q : Nat) (f : SvcQueue → SvcQueue) : (s.modSvc q f).records = s.records := rfl
@[simp] theorem State.modSvc_seqs (s : State) (q : Nat) (f : SvcQueue → SvcQueue) : (s.modSvc q f).seqs = s.seqs := rfl
@[simp] theorem State.modSvc_kvmap (s : State) (q : Nat) (f : SvcQueue → SvcQueue) : (s.modSvc q f).kvmap = s.kvmap := rfl
@[simp] theorem State.modSvc_sending (s : State) (q : Nat) (f : SvcQueue → SvcQueue) : (s.modSvc q f).sending = s.sending := rfl
@[simp] theorem State.modSvc_arrived (s : State) (q : Nat) (f : SvcQueue → SvcQueue) : (s.modSvc q f).arrived = s.arrived := rfl
@[simp] theorem State.modSvc_nodes (s : State) (q : Nat) (f : SvcQueue → SvcQueue) : (s.modSvc q f).nodes = s.nodes := rfl
@[simp] theorem State.modSvc_serving (s : State) (q : Nat) (f : SvcQueue → SvcQueue) : (s.modSvc q f).serving = s.serving := rfl
@[simp] theorem State.modSvc_svc (s : State) (q : Nat) (f : SvcQueue → SvcQueue) : (s.modSvc q f).svc = amod s.svc q f := rfl
@[simp] theorem State.modSvc_sockets (s : State) (q : Nat) (f : SvcQueue → SvcQueue) : (s.modSvc q f).sockets = s.sockets := rfl
@[simp] theorem State.modSvc_lent (s : State) (q : Nat) (f : SvcQueue → SvcQueue) : (s.modSvc q f).lent = s.lent := rfl
@[simp] theorem State.modSvc_details (s : State) (q : Nat) (f : SvcQueue → SvcQueue) : (s.modSvc q f).details = s.details := rfl
@[simp] theorem State.modSvc_zones (s : State) (q : Nat) (f : SvcQueue → SvcQueue) : (s.modSvc q f).zones = s.zones := rfl
@[simp] theorem State.modSvc_qcpAt (s : State) (q : Nat) (f : SvcQueue → SvcQueue) : (s.modSvc q f).qcpAt = s.qcpAt := rfl
@[simp] theorem State.modSvc_pending (s : State) (q : Nat) (f : SvcQueue → SvcQueue) : (s.modSvc q f).pending = s.pending := rfl
@[simp] theorem State.modSvc_bar4 (s : State) (q : Nat) (f : SvcQueue → SvcQueue) : (s.modSvc q f).bar4 = s.bar4 := rfl
@[simp] theorem State.modSvc_hdm (s : State) (q : Nat) (f : SvcQueue → SvcQueue) : (s.modSvc q f).hdm = s.hdm := rfl
@[simp] theorem State.modSvc_boot (s : State) (q : Nat) (f : SvcQueue → SvcQueue) : (s.modSvc q f).boot = s.boot := rfl
@[simp] theorem State.modSvc_fleet (s : State) (q : Nat) (f : SvcQueue → SvcQueue) : (s.modSvc q f).fleet = s.fleet := rfl
@[simp] theorem State.modSvc_out (s : State) (q : Nat) (f : SvcQueue → SvcQueue) : (s.modSvc q f).out = s.out := rfl
@[simp] theorem State.modSvc_cur (s : State) (q : Nat) (f : SvcQueue → SvcQueue) : (s.modSvc q f).cur = s.cur := rfl
@[simp] theorem State.modSvc_second (s : State) (q : Nat) (f : SvcQueue → SvcQueue) : (s.modSvc q f).second = s.second := rfl
@[simp] theorem State.modSvc_turn (s : State) (q : Nat) (f : SvcQueue → SvcQueue) : (s.modSvc q f).turn = s.turn := rfl
@[simp] theorem State.modSvc_schedule (s : State) (q : Nat) (f : SvcQueue → SvcQueue) : (s.modSvc q f).schedule = s.schedule := rfl
@[simp] theorem State.modSvc_free (s : State) (q : Nat) (f : SvcQueue → SvcQueue) : (s.modSvc q f).free = s.free := rfl

/-! ### State.setFleet -/

@[simp] theorem State.setFleet_mem (s : State) (f : Fleet) : (s.setFleet f).mem = s.mem := rfl
@[simp] theorem State.setFleet_poison (s : State) (f : Fleet) : (s.setFleet f).poison = s.poison := rfl
@[simp] theorem State.setFleet_cycle (s : State) (f : Fleet) : (s.setFleet f).cycle = s.cycle := rfl
@[simp] theorem State.setFleet_core (s : State) (f : Fleet) : (s.setFleet f).core = s.core := rfl
@[simp] theorem State.setFleet_sub (s : State) (f : Fleet) : (s.setFleet f).sub = s.sub := rfl
@[simp] theorem State.setFleet_bar (s : State) (f : Fleet) : (s.setFleet f).bar = s.bar := rfl
@[simp] theorem State.setFleet_written (s : State) (f : Fleet) : (s.setFleet f).written = s.written := rfl
@[simp] theorem State.setFleet_ctxs (s : State) (f : Fleet) : (s.setFleet f).ctxs = s.ctxs := rfl
@[simp] theorem State.setFleet_errs (s : State) (f : Fleet) : (s.setFleet f).errs = s.errs := rfl
@[simp] theorem State.setFleet_launches (s : State) (f : Fleet) : (s.setFleet f).launches = s.launches := rfl
@[simp] theorem State.setFleet_teams (s : State) (f : Fleet) : (s.setFleet f).teams = s.teams := rfl
@[simp] theorem State.setFleet_fresh (s : State) (f : Fleet) : (s.setFleet f).fresh = s.fresh := rfl
@[simp] theorem State.setFleet_tileJobs (s : State) (f : Fleet) : (s.setFleet f).tileJobs = s.tileJobs := rfl
@[simp] theorem State.setFleet_chains (s : State) (f : Fleet) : (s.setFleet f).chains = s.chains := rfl
@[simp] theorem State.setFleet_lgfs (s : State) (f : Fleet) : (s.setFleet f).lgfs = s.lgfs := rfl
@[simp] theorem State.setFleet_coh (s : State) (f : Fleet) : (s.setFleet f).coh = s.coh := rfl
@[simp] theorem State.setFleet_threads (s : State) (f : Fleet) : (s.setFleet f).threads = s.threads := rfl
@[simp] theorem State.setFleet_table (s : State) (f : Fleet) : (s.setFleet f).table = s.table := rfl
@[simp] theorem State.setFleet_entered (s : State) (f : Fleet) : (s.setFleet f).entered = s.entered := rfl
@[simp] theorem State.setFleet_versions (s : State) (f : Fleet) : (s.setFleet f).versions = s.versions := rfl
@[simp] theorem State.setFleet_records (s : State) (f : Fleet) : (s.setFleet f).records = s.records := rfl
@[simp] theorem State.setFleet_seqs (s : State) (f : Fleet) : (s.setFleet f).seqs = s.seqs := rfl
@[simp] theorem State.setFleet_kvmap (s : State) (f : Fleet) : (s.setFleet f).kvmap = s.kvmap := rfl
@[simp] theorem State.setFleet_sending (s : State) (f : Fleet) : (s.setFleet f).sending = s.sending := rfl
@[simp] theorem State.setFleet_arrived (s : State) (f : Fleet) : (s.setFleet f).arrived = s.arrived := rfl
@[simp] theorem State.setFleet_nodes (s : State) (f : Fleet) : (s.setFleet f).nodes = s.nodes := rfl
@[simp] theorem State.setFleet_serving (s : State) (f : Fleet) : (s.setFleet f).serving = s.serving := rfl
@[simp] theorem State.setFleet_svc (s : State) (f : Fleet) : (s.setFleet f).svc = s.svc := rfl
@[simp] theorem State.setFleet_sockets (s : State) (f : Fleet) : (s.setFleet f).sockets = s.sockets := rfl
@[simp] theorem State.setFleet_lent (s : State) (f : Fleet) : (s.setFleet f).lent = s.lent := rfl
@[simp] theorem State.setFleet_details (s : State) (f : Fleet) : (s.setFleet f).details = s.details := rfl
@[simp] theorem State.setFleet_zones (s : State) (f : Fleet) : (s.setFleet f).zones = s.zones := rfl
@[simp] theorem State.setFleet_qcpAt (s : State) (f : Fleet) : (s.setFleet f).qcpAt = s.qcpAt := rfl
@[simp] theorem State.setFleet_pending (s : State) (f : Fleet) : (s.setFleet f).pending = s.pending := rfl
@[simp] theorem State.setFleet_bar4 (s : State) (f : Fleet) : (s.setFleet f).bar4 = s.bar4 := rfl
@[simp] theorem State.setFleet_hdm (s : State) (f : Fleet) : (s.setFleet f).hdm = s.hdm := rfl
@[simp] theorem State.setFleet_boot (s : State) (f : Fleet) : (s.setFleet f).boot = s.boot := rfl
@[simp] theorem State.setFleet_fleet (s : State) (f : Fleet) : (s.setFleet f).fleet = f := rfl
@[simp] theorem State.setFleet_out (s : State) (f : Fleet) : (s.setFleet f).out = s.out := rfl
@[simp] theorem State.setFleet_cur (s : State) (f : Fleet) : (s.setFleet f).cur = s.cur := rfl
@[simp] theorem State.setFleet_second (s : State) (f : Fleet) : (s.setFleet f).second = s.second := rfl
@[simp] theorem State.setFleet_turn (s : State) (f : Fleet) : (s.setFleet f).turn = s.turn := rfl
@[simp] theorem State.setFleet_schedule (s : State) (f : Fleet) : (s.setFleet f).schedule = s.schedule := rfl
@[simp] theorem State.setFleet_free (s : State) (f : Fleet) : (s.setFleet f).free = s.free := rfl

/-! ### Group.withV -/

@[simp] theorem Group.withV_lanes (g : Group) (v : Sparse 32) : (g.withV v).lanes = g.lanes := rfl
@[simp] theorem Group.withV_vregs (g : Group) (v : Sparse 32) : (g.withV v).vregs = v := rfl
@[simp] theorem Group.withV_sregs (g : Group) (v : Sparse 32) : (g.withV v).sregs = g.sregs := rfl
@[simp] theorem Group.withV_split (g : Group) (v : Sparse 32) : (g.withV v).split = g.split := rfl
@[simp] theorem Group.withV_copies (g : Group) (v : Sparse 32) : (g.withV v).copies = g.copies := rfl
@[simp] theorem Group.withV_mregs (g : Group) (v : Sparse 32) : (g.withV v).mregs = g.mregs := rfl
@[simp] theorem Group.withV_pri (g : Group) (v : Sparse 32) : (g.withV v).pri = g.pri := rfl
@[simp] theorem Group.withV_aged (g : Group) (v : Sparse 32) : (g.withV v).aged = g.aged := rfl
@[simp] theorem Group.withV_lastIss (g : Group) (v : Sparse 32) : (g.withV v).lastIss = g.lastIss := rfl
@[simp] theorem Group.withV_cvm (g : Group) (v : Sparse 32) : (g.withV v).cvm = g.cvm := rfl
@[simp] theorem Group.withV_rng (g : Group) (v : Sparse 32) : (g.withV v).rng = g.rng := rfl
@[simp] theorem Group.withV_tvec (g : Group) (v : Sparse 32) : (g.withV v).tvec = g.tvec := rfl
@[simp] theorem Group.withV_sbot (g : Group) (v : Sparse 32) : (g.withV v).sbot = g.sbot := rfl
@[simp] theorem Group.withV_nseg (g : Group) (v : Sparse 32) : (g.withV v).nseg = g.nseg := rfl
@[simp] theorem Group.withV_cause (g : Group) (v : Sparse 32) : (g.withV v).cause = g.cause := rfl
@[simp] theorem Group.withV_wspan (g : Group) (v : Sparse 32) : (g.withV v).wspan = g.wspan := rfl
@[simp] theorem Group.withV_intrap (g : Group) (v : Sparse 32) : (g.withV v).intrap = g.intrap := rfl
@[simp] theorem Group.withV_yreq (g : Group) (v : Sparse 32) : (g.withV v).yreq = g.yreq := rfl
@[simp] theorem Group.withV_divw (g : Group) (v : Sparse 32) : (g.withV v).divw = g.divw := rfl
@[simp] theorem Group.withV_trapping (g : Group) (v : Sparse 32) : (g.withV v).trapping = g.trapping := rfl
@[simp] theorem Group.withV_uip (g : Group) (v : Sparse 32) : (g.withV v).uip = g.uip := rfl
@[simp] theorem Group.withV_uigang (g : Group) (v : Sparse 32) : (g.withV v).uigang = g.uigang := rfl
@[simp] theorem Group.withV_stbuf (g : Group) (v : Sparse 32) : (g.withV v).stbuf = g.stbuf := rfl
@[simp] theorem Group.withV_wcbuf (g : Group) (v : Sparse 32) : (g.withV v).wcbuf = g.wcbuf := rfl
@[simp] theorem Group.withV_unacked (g : Group) (v : Sparse 32) : (g.withV v).unacked = g.unacked := rfl
@[simp] theorem Group.withV_carried (g : Group) (v : Sparse 32) : (g.withV v).carried = g.carried := rfl
@[simp] theorem Group.withV_bseg (g : Group) (v : Sparse 32) : (g.withV v).bseg = g.bseg := rfl
@[simp] theorem Group.withV_hseg (g : Group) (v : Sparse 32) : (g.withV v).hseg = g.hseg := rfl
@[simp] theorem Group.withV_safelive (g : Group) (v : Sparse 32) : (g.withV v).safelive = g.safelive := rfl
@[simp] theorem Group.withV_deferred (g : Group) (v : Sparse 32) : (g.withV v).deferred = g.deferred := rfl
@[simp] theorem Group.withV_count (g : Group) (v : Sparse 32) : (g.withV v).count = g.count := rfl
@[simp] theorem Group.withV_ord (g : Group) (v : Sparse 32) : (g.withV v).ord = g.ord := rfl
@[simp] theorem Group.withV_flight (g : Group) (v : Sparse 32) : (g.withV v).flight = g.flight := rfl
@[simp] theorem Group.withV_latch (g : Group) (v : Sparse 32) : (g.withV v).latch = g.latch := rfl
@[simp] theorem Group.withV_stop (g : Group) (v : Sparse 32) : (g.withV v).stop = g.stop := rfl
@[simp] theorem Group.withV_step (g : Group) (v : Sparse 32) : (g.withV v).step = g.step := rfl
@[simp] theorem Group.withV_ended (g : Group) (v : Sparse 32) : (g.withV v).ended = g.ended := rfl
@[simp] theorem Group.withV_yreqAt (g : Group) (v : Sparse 32) : (g.withV v).yreqAt = g.yreqAt := rfl

/-! ### Group.withM -/

@[simp] theorem Group.withM_lanes (g : Group) (m : Sparse 32) : (g.withM m).lanes = g.lanes := rfl
@[simp] theorem Group.withM_vregs (g : Group) (m : Sparse 32) : (g.withM m).vregs = g.vregs := rfl
@[simp] theorem Group.withM_sregs (g : Group) (m : Sparse 32) : (g.withM m).sregs = g.sregs := rfl
@[simp] theorem Group.withM_split (g : Group) (m : Sparse 32) : (g.withM m).split = g.split := rfl
@[simp] theorem Group.withM_copies (g : Group) (m : Sparse 32) : (g.withM m).copies = g.copies := rfl
@[simp] theorem Group.withM_mregs (g : Group) (m : Sparse 32) : (g.withM m).mregs = m := rfl
@[simp] theorem Group.withM_pri (g : Group) (m : Sparse 32) : (g.withM m).pri = g.pri := rfl
@[simp] theorem Group.withM_aged (g : Group) (m : Sparse 32) : (g.withM m).aged = g.aged := rfl
@[simp] theorem Group.withM_lastIss (g : Group) (m : Sparse 32) : (g.withM m).lastIss = g.lastIss := rfl
@[simp] theorem Group.withM_cvm (g : Group) (m : Sparse 32) : (g.withM m).cvm = g.cvm := rfl
@[simp] theorem Group.withM_rng (g : Group) (m : Sparse 32) : (g.withM m).rng = g.rng := rfl
@[simp] theorem Group.withM_tvec (g : Group) (m : Sparse 32) : (g.withM m).tvec = g.tvec := rfl
@[simp] theorem Group.withM_sbot (g : Group) (m : Sparse 32) : (g.withM m).sbot = g.sbot := rfl
@[simp] theorem Group.withM_nseg (g : Group) (m : Sparse 32) : (g.withM m).nseg = g.nseg := rfl
@[simp] theorem Group.withM_cause (g : Group) (m : Sparse 32) : (g.withM m).cause = g.cause := rfl
@[simp] theorem Group.withM_wspan (g : Group) (m : Sparse 32) : (g.withM m).wspan = g.wspan := rfl
@[simp] theorem Group.withM_intrap (g : Group) (m : Sparse 32) : (g.withM m).intrap = g.intrap := rfl
@[simp] theorem Group.withM_yreq (g : Group) (m : Sparse 32) : (g.withM m).yreq = g.yreq := rfl
@[simp] theorem Group.withM_divw (g : Group) (m : Sparse 32) : (g.withM m).divw = g.divw := rfl
@[simp] theorem Group.withM_trapping (g : Group) (m : Sparse 32) : (g.withM m).trapping = g.trapping := rfl
@[simp] theorem Group.withM_uip (g : Group) (m : Sparse 32) : (g.withM m).uip = g.uip := rfl
@[simp] theorem Group.withM_uigang (g : Group) (m : Sparse 32) : (g.withM m).uigang = g.uigang := rfl
@[simp] theorem Group.withM_stbuf (g : Group) (m : Sparse 32) : (g.withM m).stbuf = g.stbuf := rfl
@[simp] theorem Group.withM_wcbuf (g : Group) (m : Sparse 32) : (g.withM m).wcbuf = g.wcbuf := rfl
@[simp] theorem Group.withM_unacked (g : Group) (m : Sparse 32) : (g.withM m).unacked = g.unacked := rfl
@[simp] theorem Group.withM_carried (g : Group) (m : Sparse 32) : (g.withM m).carried = g.carried := rfl
@[simp] theorem Group.withM_bseg (g : Group) (m : Sparse 32) : (g.withM m).bseg = g.bseg := rfl
@[simp] theorem Group.withM_hseg (g : Group) (m : Sparse 32) : (g.withM m).hseg = g.hseg := rfl
@[simp] theorem Group.withM_safelive (g : Group) (m : Sparse 32) : (g.withM m).safelive = g.safelive := rfl
@[simp] theorem Group.withM_deferred (g : Group) (m : Sparse 32) : (g.withM m).deferred = g.deferred := rfl
@[simp] theorem Group.withM_count (g : Group) (m : Sparse 32) : (g.withM m).count = g.count := rfl
@[simp] theorem Group.withM_ord (g : Group) (m : Sparse 32) : (g.withM m).ord = g.ord := rfl
@[simp] theorem Group.withM_flight (g : Group) (m : Sparse 32) : (g.withM m).flight = g.flight := rfl
@[simp] theorem Group.withM_latch (g : Group) (m : Sparse 32) : (g.withM m).latch = g.latch := rfl
@[simp] theorem Group.withM_stop (g : Group) (m : Sparse 32) : (g.withM m).stop = g.stop := rfl
@[simp] theorem Group.withM_step (g : Group) (m : Sparse 32) : (g.withM m).step = g.step := rfl
@[simp] theorem Group.withM_ended (g : Group) (m : Sparse 32) : (g.withM m).ended = g.ended := rfl
@[simp] theorem Group.withM_yreqAt (g : Group) (m : Sparse 32) : (g.withM m).yreqAt = g.yreqAt := rfl

/-! ### Group.withRng -/

@[simp] theorem Group.withRng_lanes (g : Group) (r : DWord) : (g.withRng r).lanes = g.lanes := rfl
@[simp] theorem Group.withRng_vregs (g : Group) (r : DWord) : (g.withRng r).vregs = g.vregs := rfl
@[simp] theorem Group.withRng_sregs (g : Group) (r : DWord) : (g.withRng r).sregs = g.sregs := rfl
@[simp] theorem Group.withRng_split (g : Group) (r : DWord) : (g.withRng r).split = g.split := rfl
@[simp] theorem Group.withRng_copies (g : Group) (r : DWord) : (g.withRng r).copies = g.copies := rfl
@[simp] theorem Group.withRng_mregs (g : Group) (r : DWord) : (g.withRng r).mregs = g.mregs := rfl
@[simp] theorem Group.withRng_pri (g : Group) (r : DWord) : (g.withRng r).pri = g.pri := rfl
@[simp] theorem Group.withRng_aged (g : Group) (r : DWord) : (g.withRng r).aged = g.aged := rfl
@[simp] theorem Group.withRng_lastIss (g : Group) (r : DWord) : (g.withRng r).lastIss = g.lastIss := rfl
@[simp] theorem Group.withRng_cvm (g : Group) (r : DWord) : (g.withRng r).cvm = g.cvm := rfl
@[simp] theorem Group.withRng_rng (g : Group) (r : DWord) : (g.withRng r).rng = r := rfl
@[simp] theorem Group.withRng_tvec (g : Group) (r : DWord) : (g.withRng r).tvec = g.tvec := rfl
@[simp] theorem Group.withRng_sbot (g : Group) (r : DWord) : (g.withRng r).sbot = g.sbot := rfl
@[simp] theorem Group.withRng_nseg (g : Group) (r : DWord) : (g.withRng r).nseg = g.nseg := rfl
@[simp] theorem Group.withRng_cause (g : Group) (r : DWord) : (g.withRng r).cause = g.cause := rfl
@[simp] theorem Group.withRng_wspan (g : Group) (r : DWord) : (g.withRng r).wspan = g.wspan := rfl
@[simp] theorem Group.withRng_intrap (g : Group) (r : DWord) : (g.withRng r).intrap = g.intrap := rfl
@[simp] theorem Group.withRng_yreq (g : Group) (r : DWord) : (g.withRng r).yreq = g.yreq := rfl
@[simp] theorem Group.withRng_divw (g : Group) (r : DWord) : (g.withRng r).divw = g.divw := rfl
@[simp] theorem Group.withRng_trapping (g : Group) (r : DWord) : (g.withRng r).trapping = g.trapping := rfl
@[simp] theorem Group.withRng_uip (g : Group) (r : DWord) : (g.withRng r).uip = g.uip := rfl
@[simp] theorem Group.withRng_uigang (g : Group) (r : DWord) : (g.withRng r).uigang = g.uigang := rfl
@[simp] theorem Group.withRng_stbuf (g : Group) (r : DWord) : (g.withRng r).stbuf = g.stbuf := rfl
@[simp] theorem Group.withRng_wcbuf (g : Group) (r : DWord) : (g.withRng r).wcbuf = g.wcbuf := rfl
@[simp] theorem Group.withRng_unacked (g : Group) (r : DWord) : (g.withRng r).unacked = g.unacked := rfl
@[simp] theorem Group.withRng_carried (g : Group) (r : DWord) : (g.withRng r).carried = g.carried := rfl
@[simp] theorem Group.withRng_bseg (g : Group) (r : DWord) : (g.withRng r).bseg = g.bseg := rfl
@[simp] theorem Group.withRng_hseg (g : Group) (r : DWord) : (g.withRng r).hseg = g.hseg := rfl
@[simp] theorem Group.withRng_safelive (g : Group) (r : DWord) : (g.withRng r).safelive = g.safelive := rfl
@[simp] theorem Group.withRng_deferred (g : Group) (r : DWord) : (g.withRng r).deferred = g.deferred := rfl
@[simp] theorem Group.withRng_count (g : Group) (r : DWord) : (g.withRng r).count = g.count := rfl
@[simp] theorem Group.withRng_ord (g : Group) (r : DWord) : (g.withRng r).ord = g.ord := rfl
@[simp] theorem Group.withRng_flight (g : Group) (r : DWord) : (g.withRng r).flight = g.flight := rfl
@[simp] theorem Group.withRng_latch (g : Group) (r : DWord) : (g.withRng r).latch = g.latch := rfl
@[simp] theorem Group.withRng_stop (g : Group) (r : DWord) : (g.withRng r).stop = g.stop := rfl
@[simp] theorem Group.withRng_step (g : Group) (r : DWord) : (g.withRng r).step = g.step := rfl
@[simp] theorem Group.withRng_ended (g : Group) (r : DWord) : (g.withRng r).ended = g.ended := rfl
@[simp] theorem Group.withRng_yreqAt (g : Group) (r : DWord) : (g.withRng r).yreqAt = g.yreqAt := rfl

/-! ### Group.setV -/

@[simp] theorem Group.setV_lanes (g : Group) (pos lane : Nat) (v : Word) : (g.setV pos lane v).lanes = g.lanes := rfl
@[simp] theorem Group.setV_vregs (g : Group) (pos lane : Nat) (v : Word) : (g.setV pos lane v).vregs = sset g.vregs (32 * pos + lane) v := rfl
@[simp] theorem Group.setV_sregs (g : Group) (pos lane : Nat) (v : Word) : (g.setV pos lane v).sregs = g.sregs := rfl
@[simp] theorem Group.setV_split (g : Group) (pos lane : Nat) (v : Word) : (g.setV pos lane v).split = g.split := rfl
@[simp] theorem Group.setV_copies (g : Group) (pos lane : Nat) (v : Word) : (g.setV pos lane v).copies = g.copies := rfl
@[simp] theorem Group.setV_mregs (g : Group) (pos lane : Nat) (v : Word) : (g.setV pos lane v).mregs = g.mregs := rfl
@[simp] theorem Group.setV_pri (g : Group) (pos lane : Nat) (v : Word) : (g.setV pos lane v).pri = g.pri := rfl
@[simp] theorem Group.setV_aged (g : Group) (pos lane : Nat) (v : Word) : (g.setV pos lane v).aged = g.aged := rfl
@[simp] theorem Group.setV_lastIss (g : Group) (pos lane : Nat) (v : Word) : (g.setV pos lane v).lastIss = g.lastIss := rfl
@[simp] theorem Group.setV_cvm (g : Group) (pos lane : Nat) (v : Word) : (g.setV pos lane v).cvm = g.cvm := rfl
@[simp] theorem Group.setV_rng (g : Group) (pos lane : Nat) (v : Word) : (g.setV pos lane v).rng = g.rng := rfl
@[simp] theorem Group.setV_tvec (g : Group) (pos lane : Nat) (v : Word) : (g.setV pos lane v).tvec = g.tvec := rfl
@[simp] theorem Group.setV_sbot (g : Group) (pos lane : Nat) (v : Word) : (g.setV pos lane v).sbot = g.sbot := rfl
@[simp] theorem Group.setV_nseg (g : Group) (pos lane : Nat) (v : Word) : (g.setV pos lane v).nseg = g.nseg := rfl
@[simp] theorem Group.setV_cause (g : Group) (pos lane : Nat) (v : Word) : (g.setV pos lane v).cause = g.cause := rfl
@[simp] theorem Group.setV_wspan (g : Group) (pos lane : Nat) (v : Word) : (g.setV pos lane v).wspan = g.wspan := rfl
@[simp] theorem Group.setV_intrap (g : Group) (pos lane : Nat) (v : Word) : (g.setV pos lane v).intrap = g.intrap := rfl
@[simp] theorem Group.setV_yreq (g : Group) (pos lane : Nat) (v : Word) : (g.setV pos lane v).yreq = g.yreq := rfl
@[simp] theorem Group.setV_divw (g : Group) (pos lane : Nat) (v : Word) : (g.setV pos lane v).divw = g.divw := rfl
@[simp] theorem Group.setV_trapping (g : Group) (pos lane : Nat) (v : Word) : (g.setV pos lane v).trapping = g.trapping := rfl
@[simp] theorem Group.setV_uip (g : Group) (pos lane : Nat) (v : Word) : (g.setV pos lane v).uip = g.uip := rfl
@[simp] theorem Group.setV_uigang (g : Group) (pos lane : Nat) (v : Word) : (g.setV pos lane v).uigang = g.uigang := rfl
@[simp] theorem Group.setV_stbuf (g : Group) (pos lane : Nat) (v : Word) : (g.setV pos lane v).stbuf = g.stbuf := rfl
@[simp] theorem Group.setV_wcbuf (g : Group) (pos lane : Nat) (v : Word) : (g.setV pos lane v).wcbuf = g.wcbuf := rfl
@[simp] theorem Group.setV_unacked (g : Group) (pos lane : Nat) (v : Word) : (g.setV pos lane v).unacked = g.unacked := rfl
@[simp] theorem Group.setV_carried (g : Group) (pos lane : Nat) (v : Word) : (g.setV pos lane v).carried = g.carried := rfl
@[simp] theorem Group.setV_bseg (g : Group) (pos lane : Nat) (v : Word) : (g.setV pos lane v).bseg = g.bseg := rfl
@[simp] theorem Group.setV_hseg (g : Group) (pos lane : Nat) (v : Word) : (g.setV pos lane v).hseg = g.hseg := rfl
@[simp] theorem Group.setV_safelive (g : Group) (pos lane : Nat) (v : Word) : (g.setV pos lane v).safelive = g.safelive := rfl
@[simp] theorem Group.setV_deferred (g : Group) (pos lane : Nat) (v : Word) : (g.setV pos lane v).deferred = g.deferred := rfl
@[simp] theorem Group.setV_count (g : Group) (pos lane : Nat) (v : Word) : (g.setV pos lane v).count = g.count := rfl
@[simp] theorem Group.setV_ord (g : Group) (pos lane : Nat) (v : Word) : (g.setV pos lane v).ord = g.ord := rfl
@[simp] theorem Group.setV_flight (g : Group) (pos lane : Nat) (v : Word) : (g.setV pos lane v).flight = g.flight := rfl
@[simp] theorem Group.setV_latch (g : Group) (pos lane : Nat) (v : Word) : (g.setV pos lane v).latch = g.latch := rfl
@[simp] theorem Group.setV_stop (g : Group) (pos lane : Nat) (v : Word) : (g.setV pos lane v).stop = g.stop := rfl
@[simp] theorem Group.setV_step (g : Group) (pos lane : Nat) (v : Word) : (g.setV pos lane v).step = g.step := rfl
@[simp] theorem Group.setV_ended (g : Group) (pos lane : Nat) (v : Word) : (g.setV pos lane v).ended = g.ended := rfl
@[simp] theorem Group.setV_yreqAt (g : Group) (pos lane : Nat) (v : Word) : (g.setV pos lane v).yreqAt = g.yreqAt := rfl

/-! ### Group.modLane -/

@[simp] theorem Group.modLane_lanes (g : Group) (i : Nat) (f : Lane → Lane) : (g.modLane i f).lanes = modAt g.lanes i f := rfl
@[simp] theorem Group.modLane_vregs (g : Group) (i : Nat) (f : Lane → Lane) : (g.modLane i f).vregs = g.vregs := rfl
@[simp] theorem Group.modLane_sregs (g : Group) (i : Nat) (f : Lane → Lane) : (g.modLane i f).sregs = g.sregs := rfl
@[simp] theorem Group.modLane_split (g : Group) (i : Nat) (f : Lane → Lane) : (g.modLane i f).split = g.split := rfl
@[simp] theorem Group.modLane_copies (g : Group) (i : Nat) (f : Lane → Lane) : (g.modLane i f).copies = g.copies := rfl
@[simp] theorem Group.modLane_mregs (g : Group) (i : Nat) (f : Lane → Lane) : (g.modLane i f).mregs = g.mregs := rfl
@[simp] theorem Group.modLane_pri (g : Group) (i : Nat) (f : Lane → Lane) : (g.modLane i f).pri = g.pri := rfl
@[simp] theorem Group.modLane_aged (g : Group) (i : Nat) (f : Lane → Lane) : (g.modLane i f).aged = g.aged := rfl
@[simp] theorem Group.modLane_lastIss (g : Group) (i : Nat) (f : Lane → Lane) : (g.modLane i f).lastIss = g.lastIss := rfl
@[simp] theorem Group.modLane_cvm (g : Group) (i : Nat) (f : Lane → Lane) : (g.modLane i f).cvm = g.cvm := rfl
@[simp] theorem Group.modLane_rng (g : Group) (i : Nat) (f : Lane → Lane) : (g.modLane i f).rng = g.rng := rfl
@[simp] theorem Group.modLane_tvec (g : Group) (i : Nat) (f : Lane → Lane) : (g.modLane i f).tvec = g.tvec := rfl
@[simp] theorem Group.modLane_sbot (g : Group) (i : Nat) (f : Lane → Lane) : (g.modLane i f).sbot = g.sbot := rfl
@[simp] theorem Group.modLane_nseg (g : Group) (i : Nat) (f : Lane → Lane) : (g.modLane i f).nseg = g.nseg := rfl
@[simp] theorem Group.modLane_cause (g : Group) (i : Nat) (f : Lane → Lane) : (g.modLane i f).cause = g.cause := rfl
@[simp] theorem Group.modLane_wspan (g : Group) (i : Nat) (f : Lane → Lane) : (g.modLane i f).wspan = g.wspan := rfl
@[simp] theorem Group.modLane_intrap (g : Group) (i : Nat) (f : Lane → Lane) : (g.modLane i f).intrap = g.intrap := rfl
@[simp] theorem Group.modLane_yreq (g : Group) (i : Nat) (f : Lane → Lane) : (g.modLane i f).yreq = g.yreq := rfl
@[simp] theorem Group.modLane_divw (g : Group) (i : Nat) (f : Lane → Lane) : (g.modLane i f).divw = g.divw := rfl
@[simp] theorem Group.modLane_trapping (g : Group) (i : Nat) (f : Lane → Lane) : (g.modLane i f).trapping = g.trapping := rfl
@[simp] theorem Group.modLane_uip (g : Group) (i : Nat) (f : Lane → Lane) : (g.modLane i f).uip = g.uip := rfl
@[simp] theorem Group.modLane_uigang (g : Group) (i : Nat) (f : Lane → Lane) : (g.modLane i f).uigang = g.uigang := rfl
@[simp] theorem Group.modLane_stbuf (g : Group) (i : Nat) (f : Lane → Lane) : (g.modLane i f).stbuf = g.stbuf := rfl
@[simp] theorem Group.modLane_wcbuf (g : Group) (i : Nat) (f : Lane → Lane) : (g.modLane i f).wcbuf = g.wcbuf := rfl
@[simp] theorem Group.modLane_unacked (g : Group) (i : Nat) (f : Lane → Lane) : (g.modLane i f).unacked = g.unacked := rfl
@[simp] theorem Group.modLane_carried (g : Group) (i : Nat) (f : Lane → Lane) : (g.modLane i f).carried = g.carried := rfl
@[simp] theorem Group.modLane_bseg (g : Group) (i : Nat) (f : Lane → Lane) : (g.modLane i f).bseg = g.bseg := rfl
@[simp] theorem Group.modLane_hseg (g : Group) (i : Nat) (f : Lane → Lane) : (g.modLane i f).hseg = g.hseg := rfl
@[simp] theorem Group.modLane_safelive (g : Group) (i : Nat) (f : Lane → Lane) : (g.modLane i f).safelive = g.safelive := rfl
@[simp] theorem Group.modLane_deferred (g : Group) (i : Nat) (f : Lane → Lane) : (g.modLane i f).deferred = g.deferred := rfl
@[simp] theorem Group.modLane_count (g : Group) (i : Nat) (f : Lane → Lane) : (g.modLane i f).count = g.count := rfl
@[simp] theorem Group.modLane_ord (g : Group) (i : Nat) (f : Lane → Lane) : (g.modLane i f).ord = g.ord := rfl
@[simp] theorem Group.modLane_flight (g : Group) (i : Nat) (f : Lane → Lane) : (g.modLane i f).flight = g.flight := rfl
@[simp] theorem Group.modLane_latch (g : Group) (i : Nat) (f : Lane → Lane) : (g.modLane i f).latch = g.latch := rfl
@[simp] theorem Group.modLane_stop (g : Group) (i : Nat) (f : Lane → Lane) : (g.modLane i f).stop = g.stop := rfl
@[simp] theorem Group.modLane_step (g : Group) (i : Nat) (f : Lane → Lane) : (g.modLane i f).step = g.step := rfl
@[simp] theorem Group.modLane_ended (g : Group) (i : Nat) (f : Lane → Lane) : (g.modLane i f).ended = g.ended := rfl
@[simp] theorem Group.modLane_yreqAt (g : Group) (i : Nat) (f : Lane → Lane) : (g.modLane i f).yreqAt = g.yreqAt := rfl
/-! ### Reads after updates -/

theorem State.team?_modTeam (s : State) (n k : Nat) (f : Team → Team) :
    (s.modTeam n f).team? k = if k = n then (s.team? n).map f else s.team? k := aget_amod s.teams n k f

theorem State.ctx?_modCtx (s : State) (c k : Nat) (f : Ctx → Ctx) :
    (s.modCtx c f).ctx? k = if k = c then (s.ctx? c).map f else s.ctx? k := aget_amod s.ctxs c k f

theorem State.qcp?_modQ (s : State) (n k : Nat) (f : Qcp → Qcp) :
    (s.modQ n f).qcp? k = if k = n then (s.qcp? n).map f else s.qcp? k := aget_amod s.threads n k f

theorem State.qcp?_setQ (s : State) (n k : Nat) (q : Qcp) : (s.setQ n q).qcp? k = if k = n then some q else s.qcp? k :=
  aget_aset s.threads n k q

/-- A BAR0 register after one was written. -/
theorem State.reg_setReg (s : State) (o p : Nat) (v r : DWord) :
    (s.setReg o v).reg p r = if p = o then v else s.reg p r := by
  have hs : sget (sset s.bar o v) p = if p = o then v else sget s.bar p := sget_sset ..
  have hw : (if s.written.contains o then s.written else o :: s.written).contains p = (decide (p = o) || s.written.contains p) := by
    by_cases h : p = o
    · subst h; split <;> simp_all
    · split <;> simp [h]
  unfold State.reg
  rw [State.setReg_written, State.setReg_bar, hs, hw]
  by_cases h : p = o <;> simp [h]

/-- Memory after reset is in its canonical form. -/
theorem reset_mem_wf : Memory.wf State.reset.mem := by decide

end Sys2Proof.Machine
end

