-- ==== Sys2Proof/Laws/Writes.lean ====
section
/-! SUPPORT. One law for each shared operation that writes memory: what of the state it can change, and that memory keeps its
canonical form. -/

namespace Sys2Proof.Machine

open Sys2Proof

/-- `t` is `s` but for memory, the groups' regions, versions, windows, service queues and coherence: what a write can reach. -/
def OnlyWrites (s t : State) : Prop :=
  { t with mem := s.mem, teams := s.teams, versions := s.versions, lgfs := s.lgfs, svc := s.svc, coh := s.coh } = s ∧
  (Memory.wf s.mem → Memory.wf t.mem)

theorem OnlyWrites.refl (s : State) : OnlyWrites s s := ⟨rfl, id⟩

theorem OnlyWrites.trans {s t u : State} (h : OnlyWrites s t) (k : OnlyWrites t u) : OnlyWrites s u := by
  refine ⟨?_, fun w => k.2 (h.2 w)⟩
  rw [← h.1, ← k.1]

theorem OnlyWrites.threads {s t : State} (h : OnlyWrites s t) : t.threads = s.threads := by rw [← h.1]
theorem OnlyWrites.launches {s t : State} (h : OnlyWrites s t) : t.launches = s.launches := by rw [← h.1]
theorem OnlyWrites.table {s t : State} (h : OnlyWrites s t) : t.table = s.table := by rw [← h.1]
theorem OnlyWrites.ctxs {s t : State} (h : OnlyWrites s t) : t.ctxs = s.ctxs := by rw [← h.1]
theorem OnlyWrites.chains {s t : State} (h : OnlyWrites s t) : t.chains = s.chains := by rw [← h.1]
theorem OnlyWrites.fresh {s t : State} (h : OnlyWrites s t) : t.fresh = s.fresh := by rw [← h.1]
theorem OnlyWrites.bar {s t : State} (h : OnlyWrites s t) : t.bar = s.bar := by rw [← h.1]
theorem OnlyWrites.fleet {s t : State} (h : OnlyWrites s t) : t.fleet = s.fleet := by rw [← h.1]
theorem OnlyWrites.records {s t : State} (h : OnlyWrites s t) : t.records = s.records := by rw [← h.1]
theorem OnlyWrites.sending {s t : State} (h : OnlyWrites s t) : t.sending = s.sending := by rw [← h.1]
theorem OnlyWrites.seqs {s t : State} (h : OnlyWrites s t) : t.seqs = s.seqs := by rw [← h.1]

/-- A fold of writes is a write. -/
theorem OnlyWrites.fold {α : Type} {f : State → α → State} (h : ∀ s a, OnlyWrites s (f s a)) (l : List α) (s : State) :
    OnlyWrites s (l.foldl f s) := by
  induction l generalizing s with
  | nil => exact .refl s
  | cons a r ih => exact (h s a).trans (ih _)

theorem seen_written (s : State) (lines : List Nat) : OnlyWrites s (s.seen lines) := by
  unfold State.seen
  split
  · exact ⟨rfl, id⟩
  · exact .refl s

theorem writeBytes_written (s : State) (ws : List (Nat × Byte)) : OnlyWrites s (s.writeBytes ws) :=
  OnlyWrites.trans (t := { s with mem := memWrite s.mem ws }) ⟨rfl, memWrite_wf ws⟩ (seen_written _ (linesOf ws))

theorem notifyStore_written (s : State) (c : Option Nat) (pa n v : Nat) : OnlyWrites s (s.notifyStore c pa n v) := by
  unfold State.notifyStore State.notify
  dsimp only
  split
  · split
    · exact ⟨rfl, id⟩
    · exact .refl s
  · exact .refl s

theorem writeVersion_written (s : State) (a : Acc) (ws : List (Nat × Byte)) : OnlyWrites s (s.writeVersion a ws) := by
  refine OnlyWrites.trans (t := if s.teams.any fun p => p.2.inRegion then s.conflictAmong (s.seesSlot a.thread a.slot) (linesOf ws)
    else s) ?_ (OnlyWrites.fold (fun s p => ?_) ws _)
  · split
    · exact ⟨rfl, id⟩
    · exact .refl s
  · split <;> exact ⟨rfl, id⟩

theorem aliasUpdate_written (s : State) (f : BlkFmt) (frame blk : Nat) (ws : List (Nat × Byte)) :
    OnlyWrites s (s.aliasUpdate f frame blk ws) := writeBytes_written s _

theorem leafWrite_written (s : State) (a : Acc) (l : Leaf) (ws : List (Nat × Byte)) : OnlyWrites s (s.leafWrite a l ws) := by
  unfold State.leafWrite
  split
  · exact OnlyWrites.fold (fun s b => aliasUpdate_written s _ _ _ _) _ s
  · dsimp only
    split
    · exact writeVersion_written s a _
    · split
      · exact notifyStore_written s _ _ _ _
      · exact writeBytes_written s _

theorem absorbAs_written (s : State) (f : Option BlkFmt) (read : Nat → Byte) (pas : List Nat) :
    OnlyWrites s (s.absorbAs f read pas) := by
  unfold State.absorbAs
  split
  · exact .refl s
  · exact ⟨rfl, id⟩

theorem store_written (s : State) (a : Acc) (l : Leaf) (ws : List (Nat × Byte)) : OnlyWrites s (s.store a l ws) := by
  unfold State.store
  dsimp only
  split
  · exact leafWrite_written s a l ws
  · split <;> exact (leafWrite_written s a l ws).trans (absorbAs_written _ _ _ _)

theorem atHomes_written (s : State) (lines : List Nat) : OnlyWrites s (s.atHomes lines) := ⟨rfl, id⟩

theorem dirtyHalves_written (s : State) (hs : List Nat) : OnlyWrites s (s.dirtyHalves hs) := ⟨rfl, id⟩

/-- Everything that a unit's store can change. -/
theorem partStore_written (s : State) (c : Nat) (l : Leaf) (bs : List Byte) : OnlyWrites s (s.partStore c l bs) := by
  unfold State.partStore
  dsimp only
  split
  · exact (store_written s _ l _).trans (dirtyHalves_written _ _)
  · exact (store_written s _ l _).trans (atHomes_written _ _)

theorem partWrite_written (s : State) (c : Nat) (a : Agent) (va : Nat) (bs : List Byte) : OnlyWrites s (s.partWrite c a va bs) := by
  unfold State.partWrite
  split
  · exact partStore_written s c _ bs
  · exact .refl s

theorem partPut_written (s : State) (c : Nat) (a : Agent) (va n v : Nat) : OnlyWrites s (s.partPut c a va n v) :=
  partWrite_written s c a va _

theorem physWrite_written (s : State) (pa : Nat) (bs : List Byte) : OnlyWrites s (s.physWrite pa bs) :=
  (writeBytes_written s _).trans (atHomes_written _ _)

/-- A record put into a ring of the host keeps memory canonical. -/
theorem putRecord_wf {s : State} (o size : Nat) (b : List Byte) (h : Memory.wf s.mem) : Memory.wf (s.putRecord o size b).mem := by
  unfold State.putRecord
  rw [State.interrupt_mem]
  exact (writeBytes_written s _).2 h

end Sys2Proof.Machine
end

