-- ==== Sys2Proof/Laws/Xmss.lean ====
section
/-! SUPPORT. The lengths of what SHAKE256 and XMSS give. -/

namespace Sys2Proof.Machine

open Sys2Proof

@[simp] theorem leBytes_length (n x : Nat) : (leBytes n x).length = n := by
  induction n generalizing x with
  | zero => rfl
  | succ n ih => simp [leBytes, ih]

@[simp] theorem beBytes_length (n x : Nat) : (beBytes n x).length = n := by simp [beBytes]

/-- A fold whose every step keeps a length keeps it. -/
theorem foldl_length {α β γ : Type} (len : β → List γ) (f : β → α → β) (h : ∀ b a, (len (f b a)).length = (len b).length) :
    ∀ (l : List α) (b : β), (len (l.foldl f b)).length = (len b).length := by
  intro l
  induction l with
  | nil => exact fun _ => rfl
  | cons a l ih => exact fun b => (ih _).trans (h b a)

@[simp] theorem Keccak.stir_length (a : Keccak) : a.stir.length = a.length :=
  foldl_length Prod.snd a.stirAt (fun _ _ => by simp [Keccak.stirAt]) _ _

@[simp] theorem Keccak.round_length (p : Keccak × Nat) : (Keccak.round p).1.length = p.1.length := by
  simp [Keccak.round, Keccak.chi, Keccak.theta]

@[simp] theorem Keccak.permute_length (a : Keccak) : a.permute.length = a.length :=
  foldl_length Prod.fst (fun p _ => Keccak.round p) (fun p _ => Keccak.round_length p) _ _

@[simp] theorem Keccak.absorb_length (a : Keccak) (b : List Byte) : (a.absorb b).length = a.length :=
  (Keccak.permute_length _).trans List.length_mapIdx

@[simp] theorem shake256_length (bs : List Byte) : (shake256 bs).length = 32 := by
  have four : ∀ l : List DWord, l.length = 25 → ((l.take 4).flatMap fun w => leBytes 8 w.toNat).length = 32 := by
    intro l h
    match l, h with
    | a :: b :: c :: d :: l, _ => simp
  exact four _ ((foldl_length id _ (fun _ _ => Keccak.absorb_length _ _) _ _).trans List.length_replicate)

@[simp] theorem xmssHash_length (pad : Nat) (key msg : List Byte) : (xmssHash pad key msg).length = 32 := shake256_length _

@[simp] theorem randHash_length (seed : List Byte) (x : Adrs) (l r : List Byte) : (randHash seed x l r).length = 32 :=
  xmssHash_length _ _ _

theorem wotsChain_length (seed : List Byte) (k c i n : Nat) {v : List Byte} (h : v.length = 32) :
    (wotsChain seed k c i n v).length = 32 := by
  unfold wotsChain
  induction n with
  | zero => exact h
  | succ n _ => simp [List.range_succ, List.foldl_append]

/-- Every chain gives 32 bytes where its values are of 32 bytes. -/
theorem wotsChains_length {seed : List Byte} {k : Nat} {digits : List Nat} {span : Nat → Nat × Nat} {vs : List (List Byte)}
    (hn : vs.length = digits.length) (hv : ∀ v ∈ vs, v.length = 32) :
    ∀ c ∈ wotsChains seed k digits span vs, c.length = 32 := by
  intro c hc
  obtain ⟨p, hp, rfl⟩ := List.mem_map.1 hc
  have hlt : p.2 < vs.length := by have := (List.mem_zipIdx hp).2.1; omega
  exact wotsChain_length _ _ _ _ _ (hv _ (by simp [List.getD, List.getElem?_eq_getElem hlt]))

theorem wotsDigits_length {m : List Byte} (h : m.length = 32) : (wotsDigits m).length = 67 := by
  have go : ∀ l : List Byte, (l.flatMap fun b => [b.toNat / 16, b.toNat % 16]).length = 2 * l.length := by
    intro l
    induction l with
    | nil => rfl
    | cons b l ih => rw [List.flatMap_cons, List.length_append, ih, List.length_cons]; simp; omega
  simp [wotsDigits, go, h]

/-- A level of an L-tree is not empty, and its nodes have 32 bytes, where that holds of the level below. -/
theorem ltreeLevel_nodes {seed : List Byte} {k h : Nat} {ns : List (List Byte)} (hn : ns ≠ []) (hv : ∀ v ∈ ns, v.length = 32) :
    ltreeLevel seed k h ns ≠ [] ∧ ∀ v ∈ ltreeLevel seed k h ns, v.length = 32 := by
  refine ⟨fun he => ?_, fun v hm => ?_⟩
  · have := congrArg List.length he
    have : 0 < ns.length := List.length_pos_iff.2 hn
    simp only [ltreeLevel, List.length_append, List.length_map, List.length_range, List.length_nil] at *
    split at * <;> simp at * <;> omega
  · rcases List.mem_append.1 hm with hm | hm
    · obtain ⟨i, -, rfl⟩ := List.mem_map.1 hm
      exact randHash_length _ _ _ _
    · split at hm
      · exact hv _ (List.mem_of_mem_drop hm)
      · cases hm

theorem ltree_length {seed : List Byte} {k : Nat} {ns : List (List Byte)} (hn : ns ≠ []) (hv : ∀ v ∈ ns, v.length = 32) :
    (ltree seed k ns).length = 32 := by
  have go : ∀ (hs : List Nat) (ms : List (List Byte)), ms ≠ [] → (∀ v ∈ ms, v.length = 32) →
      ((hs.foldl (fun ns h => ltreeLevel seed k h ns) ms).headD []).length = 32 := by
    intro hs
    induction hs with
    | nil =>
      intro ms hm hv
      cases ms with
      | nil => exact absurd rfl hm
      | cons a _ => exact hv a (by simp)
    | cons h hs ih => exact fun ms hm hv => ih _ (ltreeLevel_nodes hm hv).1 (ltreeLevel_nodes hm hv).2
  exact go _ _ hn hv

theorem wotsSecret_length (key k : Nat) : (wotsSecret key k).length = 67 := by simp [wotsSecret]

theorem wotsSecret_bytes (key k : Nat) : ∀ v ∈ wotsSecret key k, v.length = 32 := by
  intro v hv
  obtain ⟨c, -, rfl⟩ := List.mem_map.1 hv
  exact xmssHash_length _ _ _

@[simp] theorem xmssNode_length (key h i : Nat) : (xmssNode key h i).length = 32 := by
  cases h with
  | zero =>
    refine ltree_length (fun he => ?_) (wotsChains_length (by simp [wotsSecret_length]) (wotsSecret_bytes key i))
    simpa [wotsChains] using congrArg List.length he
  | succ h => exact randHash_length _ _ _ _

/-- A signature has 2,820 bytes (R418). -/
@[simp] theorem xmssSign_length (key idx : Nat) (msg : List Byte) : (xmssSign key idx msg).length = sigBytes := by
  have hd := wotsDigits_length (m := xmssMessage (xmssHash 3 (idSecret key 1) (beBytes 32 idx)) (xmssNode key 20 0) idx msg)
    (xmssHash_length _ _ _)
  have hc := wotsChains_length (seed := idSecret key 2) (k := idx) (span := fun d => (0, d))
    (hd ▸ wotsSecret_length key idx : (wotsSecret key idx).length = _) (wotsSecret_bytes key idx)
  have hf : ∀ (l : List (List Byte)), (∀ c ∈ l, c.length = 32) → l.flatten.length = 32 * l.length := by
    intro l h
    induction l with
    | nil => rfl
    | cons a l ih =>
      rw [List.flatten_cons, List.length_append, h a (by simp), ih fun c hc => h c (by simp [hc]), List.length_cons]
      omega
  simp only [xmssSign, List.length_append, beBytes_length, xmssHash_length, hf _ hc, List.length_flatMap, xmssNode_length]
  simp only [wotsChains, List.length_map, List.length_zipIdx, hd]
  rfl

end Sys2Proof.Machine
end

