-- ==== Sys2Proof/Tests/Slice0.lean ====
section
/-! SUPPORT. Small checks. The words and the numbers in them are worked out from the spec's encodings and rules. The witness
theorems show states and operands that meet the hypotheses of the statements. -/

namespace Sys2Proof.Tests

open Sys2Proof Sys2Proof.Machine

set_option Elab.async false

/-- FIPS 202's example of SHAKE256 of no bytes. -/
theorem test_shake256 : (shake256 []).take 4 = [0x46#8, 0xB9#8, 0xDD#8, 0x2B#8] := by decide +kernel

/-! ### A state in which a gang issues -/

/-- A fresh launch of one group whose 32 lanes stand at the kernel's entry and issue together. -/
def base : State :=
  { State.reset.load [] with cur := some { g := ⟨2, 0⟩, lanes := BitVec.allOnes 32, pc := 0x20000, pre := none, first := none } }

/-- That state with its group changed. -/
def withG (f : Group → Group) : State := base.modGrp ⟨2, 0⟩ f

/-- That state with its team changed. -/
def withT (f : Team → Team) : State := base.modTeam 2 f

/-- A vector register pair n, n + 1 of every lane holds a value. -/
def setPair (n : Nat) (v : Nat) (g : Group) : Group :=
  (List.range 32).foldl (fun g l => (g.setV n l (BitVec.ofNat 32 v)).setV (n + 1) l (BitVec.ofNat 32 (v / 2 ^ 32))) g

/-- A uniform register holds a value. -/
def setU (n v : Nat) (g : Group) : Group := { g with sregs := sset g.sregs n (BitVec.ofNat 64 v) }

/-- The hypotheses of Runs together with a condition on the gang. -/
def meets (s : State) (op : Nat) (f : FForm) (ok : Gx → Bool) (p : Gx → Bool) : Bool :=
  match openGang s f.pfx with
  | some x => (x.decodeFault op f ok).isNone && !(x.pastEnd && !transferOp op) && !(x.g.yreq && (f.sp || waitOp op)) &&
      x.g.inRegion &&& x.c.lanes == 0 && p x
  | none => false

theorem meets_runs {s : State} {op : Nat} {f : FForm} {ok p : Gx → Bool} (h : meets s op f ok p = true) :
    ∃ x, Runs s op f ok x ∧ p x = true := by
  unfold meets at h
  split at h
  · rename_i x ho
    simp only [Bool.and_eq_true, Option.isNone_iff_eq_none, beq_iff_eq, Bool.not_eq_true'] at h
    obtain ⟨⟨⟨⟨h1, h2⟩, h3⟩, h4⟩, h5⟩ := h
    exact ⟨x, ⟨ho, h1, h2, h3, h4⟩, h5⟩
  · cases h

/-- The accesses all pass their checks. -/
def ready (x : Gx) (ws : List Want) : Bool := match x.gather ws with | .ready _ => x.g.unresolved == 0 | _ => false

theorem ready_passed {x : Gx} {ws : List Want} (h : ready x ws = true) : ∃ ps, Passed x ws ps := by
  unfold ready at h
  split at h
  · exact ⟨_, ‹_›, beq_iff_eq.1 h⟩
  · cases h

/-- The pages that accesses pass with. -/
def pages (x : Gx) (ws : List Want) : List (Want × Leaf) := match x.gather ws with | .ready ps => ps | _ => []

/-! ### Forms -/

/-- A register of each kind (R122). -/
def nameFor : Kind → Name
  | .unused | .frame => .v 0
  | .vdst | .vec | .vudst | .vus | .vm | .index | .vu | .vuz => .v 8
  | .mdst => .m 3
  | .udst | .umdst | .ureg | .uni | .uniz | .base | .sbase => .s 6
  | .tile => .c 2
  | .msk => .m 0

/-- A form of a row: its first FN and type, and a register of each operand's kind. -/
def form (op : Nat) : FForm :=
  match rowOf op with
  | none => { sp := false, ty := .b32, fn := 0, x := 0, d := .v 0, a := .v 0, b := .reg (.v 0), pfx := none }
  | some r =>
    let p := r.forms.headD ([0], [0])
    { sp := false, ty := Ty.ofCode (p.2.headD 0), fn := p.1.headD 0, x := 0, d := nameFor r.d, a := nameFor r.a
      b := if r.bk.contains 0 then .reg (nameFor r.b) else .imm 0
      pfx := if r.pc then some { mask := 0, z := false, rm := .cvm, c := nameFor r.c, sat := .cvm } else none }

/-- Opcodes whose only operand rules are their rows'. -/
def plainOps : List Nat :=
  (List.range 256).filter fun op => (rowOf op).isSome && !([0x54, 0x55, 0x71, 0x84, 0x98, 0x99, 0xA0, 0xC0, 0xC1, 0xC2].contains op)

/-- Every one of them reaches its own effect in `base`. -/
theorem test_plain_forms_run : ∀ op ∈ plainOps, meets base op (form op) free (fun _ => true) = true := by decide +kernel


/-! ### Decoding: words of the spec's worked encodings (R90 to R103, R137 to R245) -/

/-- An F-form with no prefix, X and S zero. -/
def ff (ty : Ty) (fn : Nat) (d a : Name) (b : BOperand) : FForm :=
  { sp := false, ty := ty, fn := fn, x := 0, d := d, a := a, b := b, pfx := none }

/-- A prefix that names C and changes nothing else. -/
def pc (c : Name) : Option Pfx := some { mask := 0, z := false, rm := .cvm, c := c, sat := .cvm }

theorem test_decode_integer :
    decodeTableWord 64 0x003002000600200A = some (.idiv (ff .ui64 0 (.v 8) (.v 10) (.reg (.v 12)))) ∧
    decodeTableWord 64 0x001800401C001005 = some (.iadds (ff .i8 0 (.v 4) (.v 5) (.reg (.v 6)))) ∧
    decodeTableWord 64 0x2080418015001005 = some (.bfe (ff .ui32 0 (.v 4) (.v 5) (.imm 0x0804))) ∧
    decodeTableWord 64 0x2000C1401A2B8800 = some (.icmp (ff .i32 2 (.m 2) (.v 0) (.imm 12))) ∧
    decodeTableWord 64 0x27F3A20021201000 = some (.lih (ff .ui64 2 (.v 4) (.v 0) (.imm 0x7F3A))) ∧
    decodeTableWord 96 0x0028014005002009F0002C00 =
      some (.imad { ff .i32 0 (.v 8) (.v 9) (.reg (.v 10)) with pfx := pc (.v 11) }) := by decide +kernel

theorem test_decode_lanes :
    decodeTableWord 64 0x000002C0240A0805 = some (.redu (ff .f32 0 (.s 2) (.v 5) (.reg (.v 0)))) ∧
    decodeTableWord 64 0x2000100023301005 = some (.shfl (ff .b32 3 (.v 4) (.v 5) (.imm 1))) ∧
    decodeTableWord 64 0x00000000221A0EE2 = some (.vote (ff .b32 1 (.s 3) (.m 2) (.reg (.v 0)))) ∧
    decodeTableWord 64 0x00000000270B8400 = some (.elect (ff .b32 0 (.m 1) (.v 0) (.reg (.v 0)))) ∧
    decodeTableWord 96 0x0018004029001005F0001C00 =
      some (.idot4 { ff .i8 0 (.v 4) (.v 5) (.reg (.v 6)) with pfx := pc (.v 7) }) := by decide +kernel

theorem test_decode_patterns :
    decodeTableWord 64 0x10180EC030001005 = some (.fadd (ff .f32 0 (.v 4) (.v 5) (.pat (.v 6) (.rot 3)))) ∧
    decodeTableWord 64 0x10190EC030001005 = some (.fadd (ff .f32 0 (.v 4) (.v 5) (.pat (.v 6) (.rev 3)))) ∧
    decodeTableWord 64 0x101A1EC030001005 = some (.fadd (ff .f32 0 (.v 4) (.v 5) (.pat (.v 6) (.bc 7)))) := by decide +kernel

theorem test_decode_floats :
    decodeTableWord 64 0x001802C0392B8805 = some (.fcmp (ff .f32 2 (.m 2) (.v 5) (.reg (.v 6)))) ∧
    decodeTableWord 64 0x002003003D001006 = some (.fdiv (ff .f64 0 (.v 4) (.v 6) (.reg (.v 8)))) ∧
    decodeTableWord 64 0x000002C045101005 = some (.frnd (ff .f32 1 (.v 4) (.v 5) (.reg (.v 0)))) ∧
    decodeTableWord 64 0x002002C049001006 = some (.smrg (ff .f32 0 (.v 4) (.v 6) (.reg (.v 8)))) ∧
    decodeTableWord 96 0x0018024032001005F0600000 = some (.fmul { ff .f16 0 (.v 4) (.v 5) (.reg (.v 6)) with
      pfx := some { mask := 0, z := false, rm := .sr, c := .v 0, sat := .cvm } }) := by decide +kernel

theorem test_decode_conversions :
    decodeTableWord 64 0x0000024050B01005 = some (.cvt (ff .f16 11 (.v 4) (.v 5) (.reg (.v 0)))) ∧
    decodeTableWord 96 0x0000004053501005F0000200 = some (.cvtii { ff .i8 5 (.v 4) (.v 5) (.reg (.v 0)) with
      pfx := some { mask := 0, z := false, rm := .cvm, c := .v 0, sat := .wrap } }) ∧
    decodeTableWord 64 0x0000024054001006 = some (.pack (ff .f16 0 (.v 4) (.v 6) (.reg (.v 0)))) ∧
    decodeTableWord 96 0x000003C056101008F00A1400 =
      some (.qnt { ff .packed 1 (.v 4) (.v 8) (.reg (.v 0)) with pfx := pc (.s 5) }) := by decide +kernel

theorem test_decode_uniform_and_control :
    decodeTableWord 64 0x200401C0580A1284 = some (.uadd (ff .i64 0 (.s 4) (.s 4) (.imm 64))) ∧
    decodeTableWord 64 0x20007000660A0805 = some (.upick (ff .b32 0 (.s 2) (.v 5) (.imm 7))) ∧
    decodeTableWord 96 0x0A1402C06A0A0E84F00A1800 =
      some (.ufma { ff .f32 0 (.s 3) (.s 4) (.reg (.s 5)) with pfx := pc (.s 6) }) ∧
    decodeTableWord 64 0x2004000073001000 = some (.call (ff .b32 0 (.v 4) (.v 0) (.imm 64))) ∧
    decodeTableWord 64 0x0000000075000000 = some (.ret (ff .b32 0 (.v 0) (.v 0) (.reg (.v 0)))) ∧
    decodeTableWord 64 0x6FFF80007F0A1C00 = some (.loop { ff .b32 0 (.s 7) (.v 0) (.imm 0xFFF8) with sp := true }) ∧
    decodeTableWord 64 0x2000300078000000 = some (.bar (ff .b32 0 (.v 0) (.v 0) (.imm 3))) ∧
    decodeTableWord 64 0x0A1C02007A000286 = some (.waitseq (ff .ui64 0 (.v 0) (.s 6) (.reg (.s 7)))) := by decide +kernel

theorem test_decode_memory :
    decodeTableWord 64 0x2FFC02D481002A84 = some (.st { ff .f32 0 (.v 10) (.s 4) (.imm 0xFFC0) with x := 0x14 }) ∧
    decodeTableWord 64 0x201002C082001282 = some (.lds (ff .f32 0 (.v 4) (.s 2) (.imm 0x100))) ∧
    decodeTableWord 96 0x0018018187002284F0002400 =
      some (.atom { ff .ui32 0 (.v 8) (.s 4) (.reg (.v 6)) with x := 1, pfx := pc (.v 9) }) ∧
    decodeTableWord 64 0x200000008D200284 = some (.fence (ff .b32 2 (.v 0) (.s 4) (.imm 0))) ∧
    decodeTableWord 64 0x2000200091000282 = some (.bobjInit (ff .b32 0 (.v 0) (.s 2) (.imm 2))) ∧
    decodeTableWord 96 0x00300008923A240AF0003800 =
      some (.acp { ff .b32 3 (.s 9) (.v 10) (.reg (.v 12)) with x := 8, pfx := pc (.v 14) }) ∧
    decodeTableWord 64 0x00000000960A1686 = some (.awf (ff .b32 0 (.s 5) (.s 6) (.reg (.v 0)))) ∧
    decodeTableWord 64 0x20001000980A0E82 = some (.enq (ff .b32 0 (.s 3) (.s 2) (.imm 1))) := by decide +kernel

theorem test_decode_system :
    decodeTableWord 64 0x0A2002A2A00A2810 = some (.mma { ff .bf16 0 (.s 10) (.v 16) (.reg (.s 8)) with x := 0x22 }) ∧
    decodeTableWord 64 0x200072C0A40022F2 = some (.accrd (ff .f32 0 (.v 8) (.c 2) (.imm 7))) ∧
    decodeTableWord 64 0x20012000B0000000 = some (.arb (ff .b32 0 (.v 0) (.v 0) (.imm 0x12))) ∧
    decodeTableWord 64 0x00000000B1002C00 = some (.arc (ff .b32 0 (.v 11) (.v 0) (.reg (.v 0)))) ∧
    decodeTableWord 64 0x0A140280B8000284 = some (.lgfa (ff .bf16 0 (.v 0) (.s 4) (.reg (.s 5)))) ∧
    decodeTableWord 64 0xB20207102A013240 = some (.dual { op := .icmpLt, ty := .i32, a := .v 1, b := .imm 100 }
      { op := .sel, ty := .f32, a := .v 2, b := .reg (.v 14) }) := by decide +kernel

/-- R106: FN 0xA and TY F of ICMP, and OP 0x2B, are no instructions. -/
theorem test_decode_refuses :
    decodeTableWord 64 0x2000C1401AAB8800 = none ∧ decodeTableWord 64 0x2000C3C01A2B8800 = none ∧
    decodeTableWord 64 0x2000C1402B2B8800 = none := by decide +kernel

/-- What `withFetchWord` places is what the first step decodes. -/
theorem test_fetches_what_is_placed :
    (match (State.reset.withFetchWord 64 0x2FFFD14001002009).choose with
     | .gang _ i _ => i == .iadd (ff .i32 0 (.v 8) (.v 9) (.imm 0xFFFD))
     | _ => false) = true := by decide +kernel

/-! ### WellFormed refuses (R91, R96, R97, R101, R103, R106, R122, R130) -/

theorem test_ill_formed :
    WellFormed (.iadd (ff .f32 0 (.v 8) (.v 9) (.reg (.v 1)))) = false ∧
    WellFormed (.icmp (ff .i32 10 (.m 2) (.v 0) (.imm 12))) = false ∧
    WellFormed (.cvt (ff .f16 9 (.v 4) (.v 5) (.reg (.v 0)))) = false ∧
    WellFormed (.not (ff .i8 0 (.v 4) (.v 5) (.imm 1))) = false ∧
    WellFormed (.iadd (ff .i32 0 (.v 640) (.v 9) (.reg (.v 1)))) = false ∧
    WellFormed (.iadd { ff .i32 0 (.v 8) (.v 9) (.reg (.v 1)) with x := 1 }) = false ∧
    WellFormed (.ld { ff .i32 0 (.v 8) (.s 4) (.imm 4) with x := 1 }) = false ∧
    WellFormed (.tret { ff .b32 0 (.v 0) (.v 0) (.reg (.v 0)) with sp := true }) = false ∧
    WellFormed (.ret (ff .b32 0 (.v 1) (.v 0) (.reg (.v 0)))) = false ∧
    WellFormed (.iadd (ff .i32 0 (.v 8) (.v 9) (.pat (.v 1) (.rev 6)))) = false ∧
    WellFormed (.iadd { ff .i32 0 (.v 8) (.v 9) (.reg (.v 1)) with
      pfx := some { mask := 16, z := false, rm := .cvm, c := .v 0, sat := .cvm } }) = false ∧
    WellFormed (.bobjArrive (ff .b32 0 (.s 3) (.s 2) (.imm 0))) = false ∧
    WellFormed (.bobjInit (ff .b32 0 (.s 3) (.s 2) (.imm 2))) = false ∧
    WellFormed (.dual { op := .sar, ty := .b32, a := .v 1, b := .imm 1 } { op := .nop, ty := .i32, a := .v 0, b := .reg (.v 0) }) =
      false ∧
    WellFormed (.dual { op := .lil, ty := .i32, a := .v 1, b := .reg (.v 2) }
      { op := .nop, ty := .i32, a := .v 0, b := .reg (.v 0) }) = false := by decide +kernel

/-! ### Values: the spec's worked lines, and results worked out from its rules -/

/-- What an instruction of the gang of `base` leaves, its group changed before. -/
def after (g : Group → Group) (i : Instr) : Group :=
  match exec i (withG g) with
  | .next t => (t.grp? ⟨2, 0⟩).getD (Group.start bareKernel 0 0 0)
  | _ => Group.start bareKernel 0 0 0

/-- What a lane's vector register, a uniform register, holds then. -/
def vAfter (g : Group → Group) (i : Instr) (lane : Nat := 0) (n : Nat := 4) : Nat := ((after g i).vreg n lane).toNat
def sAfter (g : Group → Group) (i : Instr) (n : Nat) : Nat := ((after g i).sreg 0 n).toNat

/-- R138 to R141: v5 holds 100 and v6 50; idiv and irem of −7 by 2 and by 0, and of the most negative number by −1. -/
theorem test_values_integer :
    let g := fun x => setPair 6 50 (setPair 5 100 x)
    let h := fun a b x => setPair 6 b (setPair 5 a x)
    vAfter g (.iadds (ff .i8 0 (.v 4) (.v 5) (.reg (.v 6)))) = 0x7F ∧
    vAfter g (.iadd (ff .i8 0 (.v 4) (.v 5) (.reg (.v 6)))) = 0xFFFFFF96 ∧
    vAfter (h 0xFFFFFFF9 2) (.idiv (ff .i32 0 (.v 4) (.v 5) (.reg (.v 6)))) = 0xFFFFFFFD ∧
    vAfter (h 0xFFFFFFF9 2) (.irem (ff .i32 0 (.v 4) (.v 5) (.reg (.v 6)))) = 0xFFFFFFFF ∧
    vAfter (h 7 0) (.idiv (ff .ui32 0 (.v 4) (.v 5) (.reg (.v 6)))) = 0xFFFFFFFF ∧
    vAfter (h 7 0) (.irem (ff .i32 0 (.v 4) (.v 5) (.reg (.v 6)))) = 7 ∧
    vAfter (h 0x80000000 0xFFFFFFFF) (.idiv (ff .i32 0 (.v 4) (.v 5) (.reg (.v 6)))) = 0x80000000 ∧
    vAfter (h 0x80000000 0xFFFFFFFF) (.irem (ff .i32 0 (.v 4) (.v 5) (.reg (.v 6)))) = 0 ∧
    vAfter (h 0x80000000 0xFFFFFFFF) (.imulh (ff .ui32 0 (.v 4) (.v 5) (.reg (.v 6)))) = 0x7FFFFFFF ∧
    vAfter (h 0x80 0) (.iabs (ff .i8 0 (.v 4) (.v 5) (.reg (.v 0)))) = 0xFFFFFF80 := by decide +kernel

theorem test_values_bits :
    let h := fun a b x => setPair 6 b (setPair 5 a x)
    vAfter (h 5 0) (.not (ff .i8 0 (.v 4) (.v 5) (.reg (.v 0)))) = 0xFFFFFFFA ∧
    vAfter (h 0xABCD 0) (.bfe (ff .ui32 0 (.v 4) (.v 5) (.imm 0x0804))) = 0xBC ∧
    vAfter (h 0xABCD 0) (.bfe (ff .i32 0 (.v 4) (.v 5) (.imm 0x0804))) = 0xFFFFFFBC ∧
    vAfter (h 1 0) (.shl (ff .b32 0 (.v 4) (.v 5) (.imm 32))) = 0 ∧
    vAfter (h 0x80000000 0) (.sar (ff .i32 0 (.v 4) (.v 5) (.imm 255))) = 0xFFFFFFFF ∧
    vAfter (h 0x80000001 0) (.rot (ff .b32 0 (.v 4) (.v 5) (.imm 33))) = 3 ∧
    vAfter (h 0xF0F00000 0) (.popc (ff .b32 0 (.v 4) (.v 5) (.reg (.v 0)))) = 8 ∧
    vAfter (h 0 0) (.clz (ff .b32 0 (.v 4) (.v 5) (.reg (.v 0)))) = 32 ∧
    vAfter (h 1 0) (.brev (ff .b32 0 (.v 4) (.v 5) (.reg (.v 0)))) = 0x80000000 ∧
    vAfter (fun g => setPair 5 0xFF (setPair 7 0x12345678 g))
      (.bfi { ff .b32 0 (.v 4) (.v 5) (.imm 0x0804) with pfx := pc (.v 7) }) = 0x12345FF8 ∧
    vAfter (h 0x11223344 0) (.prmt { ff .b32 0 (.v 4) (.v 5) (.reg .zero) with pfx := pc (.v 7) }) = 0x44444444 ∧
    vAfter (fun g => setPair 5 0x11223344 (setPair 7 0x443 g))
      (.prmt { ff .b32 0 (.v 4) (.v 5) (.reg .zero) with pfx := pc (.v 7) }) = 0x44332211 ∧
    vAfter (fun g => setPair 5 0x11223344 (setPair 7 0x4254B g))
      (.prmt { ff .b32 0 (.v 4) (.v 5) (.reg .zero) with pfx := pc (.v 7) }) = 0x22CC4488 ∧
    vAfter (setPair 4 0x1000) (.lih (ff .ui64 2 (.v 4) (.v 0) (.imm 0x7F3A))) 0 5 = 0x7F3A := by decide +kernel

/-- The gang of lanes 0 to 7 of R152's example: lane l holds l + 1 in v5, m3 disables lane 2. -/
def eight (g : Group) : Group :=
  { ((List.range 32).foldl (fun g l => g.setV 5 l (BitVec.ofNat 32 (l + 1))) g).modLanes 0xFFFFFF00 (fun l =>
      { l with pc := 0x30000 }) with mregs := sset g.mregs 3 0xFFFFFFFB }
def eightOf (g : Group → Group) : State :=
  { withG g with cur := some { g := ⟨2, 0⟩, lanes := 0xFF, pc := 0x20000, pre := none, first := none } }

theorem test_values_lanes :
    let m3 : Option Pfx := some { mask := 3, z := false, rm := .cvm, c := .v 0, sat := .cvm }
    let run := fun (i : Instr) => match exec i (eightOf eight) with | .next t => t.grp? ⟨2, 0⟩ | _ => none
    ((run (.scan { ff .i32 8 (.v 6) (.v 5) (.reg (.v 0)) with pfx := m3 })).map fun g =>
      (List.range 8).map fun l => (g.vreg 6 l).toNat) = some [0, 1, 0, 3, 7, 12, 18, 25] ∧
    ((run (.redu { ff .i32 0 (.s 2) (.v 5) (.reg (.v 0)) with pfx := m3 })).map fun g =>
      ((g.sreg 0 2).toNat, (g.sreg 31 2).toNat)) = some (33, 0) ∧
    ((run (.vote (ff .b32 1 (.s 3) (.m 3) (.reg (.v 0))))).map fun g => (g.sreg 0 3).toNat) = some 0xFB ∧
    ((run (.shfl (ff .b32 3 (.v 6) (.v 5) (.imm 1)))).map fun g => (List.range 4).map fun l => (g.vreg 6 l).toNat) =
      some [2, 1, 4, 3] ∧
    ((run (.elect { ff .b32 0 (.m 1) (.v 0) (.reg (.v 0)) with pfx := m3 })).map fun g => (g.mreg 1).toNat) = some 1 := by
  decide +kernel

theorem test_values_floats :
    let h := fun a b x => setPair 6 b (setPair 5 a x)
    let rm := fun (m : RM) => some ({ mask := 0, z := false, rm := m, c := .v 0, sat := .cvm } : Pfx)
    let sat := fun (m : SatCtl) => some ({ mask := 0, z := false, rm := .cvm, c := .v 0, sat := m } : Pfx)
    vAfter (h 0x3F800000 0x33800000) (.fadd (ff .f32 0 (.v 4) (.v 5) (.reg (.v 6)))) = 0x3F800000 ∧
    vAfter (h 0x3F800000 0x33800000) (.fadd { ff .f32 0 (.v 4) (.v 5) (.reg (.v 6)) with pfx := rm .rup }) = 0x3F800001 ∧
    vAfter (h 0x3F800000 0xBF800000) (.fadd { ff .f32 0 (.v 4) (.v 5) (.reg (.v 6)) with pfx := rm .rdn }) = 0x80000000 ∧
    vAfter (h 0x7F800000 0) (.fmul (ff .f32 0 (.v 4) (.v 5) (.reg (.v 6)))) = 0x7FC00000 ∧
    vAfter (h 0x80000000 0) (.fmin (ff .f32 0 (.v 4) (.v 6) (.reg (.v 5)))) = 0x80000000 ∧
    vAfter (h 0x40800000 0) (.fsqrt (ff .f32 0 (.v 4) (.v 5) (.reg (.v 0)))) = 0x40000000 ∧
    vAfter (h 0x3F800000 0x40400000) (.fdiv (ff .f32 0 (.v 4) (.v 5) (.reg (.v 6)))) = 0x3EAAAAAB ∧
    vAfter (h 0xC0200000 0) (.frnd (ff .f32 0 (.v 4) (.v 5) (.reg (.v 0)))) = 0xC0000000 ∧
    vAfter (h 0xBE800000 0) (.frnd (ff .f32 1 (.v 4) (.v 5) (.reg (.v 0)))) = 0x80000000 ∧
    vAfter (h 0x477FF000 0) (.cvt (ff .f16 11 (.v 4) (.v 5) (.reg (.v 0)))) = 0x7C00 ∧
    vAfter (h 0x477FF000 0) (.cvt { ff .f16 11 (.v 4) (.v 5) (.reg (.v 0)) with pfx := sat .sat }) = 0x7BFF ∧
    vAfter (h 0x477FF000 0) (.cvt { ff .f16 11 (.v 4) (.v 5) (.reg (.v 0)) with pfx := rm .rtz }) = 0x7BFF ∧
    vAfter (h 0x3F808000 0) (.cvt (ff .bf16 11 (.v 4) (.v 5) (.reg (.v 0)))) = 0x3F80 ∧
    vAfter (h 0x43FA0000 0) (.cvt (ff .e4m3 11 (.v 4) (.v 5) (.reg (.v 0)))) = 0x7E ∧
    vAfter (h 0x43FA0000 0) (.cvt { ff .e4m3 11 (.v 4) (.v 5) (.reg (.v 0)) with pfx := sat .wrap }) = 0x7F := by decide +kernel

theorem test_values_conversions :
    let h := fun a b x => setPair 6 b (setPair 5 a x)
    let rm := fun (m : RM) => some ({ mask := 0, z := false, rm := m, c := .v 0, sat := .cvm } : Pfx)
    let wrap : Option Pfx := some ({ mask := 0, z := false, rm := .cvm, c := .v 0, sat := .wrap } : Pfx)
    vAfter (h 0xC0200000 0) (.cvtfi (ff .i32 11 (.v 4) (.v 5) (.reg (.v 0)))) = 0xFFFFFFFE ∧
    vAfter (h 0xC0200000 0) (.cvtfi { ff .i32 11 (.v 4) (.v 5) (.reg (.v 0)) with pfx := rm .rdn }) = 0xFFFFFFFD ∧
    vAfter (h 0x4348B333 0) (.cvtfi (ff .i8 11 (.v 4) (.v 5) (.reg (.v 0)))) = 0x7F ∧
    vAfter (h 0x4348B333 0) (.cvtfi { ff .i8 11 (.v 4) (.v 5) (.reg (.v 0)) with pfx := wrap }) = 0xFFFFFFC9 ∧
    vAfter (h 0xFFFFFFFB 0) (.cvtii (ff .ui8 5 (.v 4) (.v 5) (.reg (.v 0)))) = 0 ∧
    vAfter (h 0xFFFFFFFB 0) (.cvtii { ff .ui8 5 (.v 4) (.v 5) (.reg (.v 0)) with pfx := wrap }) = 0xFB := by decide +kernel

/-- R164's example: (2, 3) merged with (1, 4). -/
theorem test_values_merge :
    let g := fun x => setPair 6 0x4040000040000000 (setPair 8 0x408000003F800000 x)
    vAfter g (.smrg (ff .f32 0 (.v 4) (.v 6) (.reg (.v 8)))) = 0x40000000 ∧
    vAfter g (.smrg (ff .f32 0 (.v 4) (.v 6) (.reg (.v 8)))) 0 5 = 0x408F16AC := by decide +kernel

/-- R76's example: 40.0 at lane 5, −2.5 at lane 13, 1.0 elsewhere. -/
theorem test_values_block :
    let g := fun (x : Group) => ((setPair 8 0x3F800000 x).setV 8 5 0x42200000).setV 8 13 0xC0200000
    let q : FForm := { ff .packed 1 (.v 4) (.v 8) (.reg (.v 0)) with pfx := pc (.s 5) }
    (List.range 5).map (fun l => vAfter g (.qnt q) l) = [0x72844444, 0xD2844444, 0x44444444, 0x44444444, 0] ∧
    sAfter g (.qnt q) 5 = 0x7D := by decide +kernel

/-- R174 to R177, R178, R182 to R185: uniform results extend; both slots of a word read before either writes. -/
theorem test_values_uniform :
    sAfter (setU 4 0xFFFFFFFF) (.uadd (ff .i32 0 (.s 5) (.s 4) (.imm 0xFFFF))) 5 = 0xFFFFFFFFFFFFFFFE ∧
    sAfter (setU 4 0xFFFFFFFF) (.uadd (ff .ui32 0 (.s 5) (.s 4) (.imm 2))) 5 = 1 ∧
    sAfter (setU 4 1) (.ushl (ff .i64 0 (.s 5) (.s 4) (.imm 64))) 5 = 0 ∧
    sAfter (fun g => setPair 5 9 g) (.upick (ff .i32 0 (.s 5) (.v 5) (.imm 7))) 5 = 9 ∧
    sAfter (fun g => setU 4 1 (setU 6 2 g)) (.dual { op := .uadd, ty := .i32, a := .s 4, b := .reg (.s 6) }
      { op := .uadd, ty := .i32, a := .s 6, b := .reg (.s 4) }) 4 = 3 ∧
    sAfter (fun g => setU 4 1 (setU 6 2 g)) (.dual { op := .uadd, ty := .i32, a := .s 4, b := .reg (.s 6) }
      { op := .uadd, ty := .i32, a := .s 6, b := .reg (.s 4) }) 6 = 3 ∧
    ((after (setU 7 2) (.loop { ff .b32 0 (.s 7) (.v 0) (.imm 0xFFF8) with sp := true })).lanes.map Lane.pc).head? =
      some 0x1FFE0 ∧
    ((after (setU 7 1) (.loop { ff .b32 0 (.s 7) (.v 0) (.imm 0xFFF8) with sp := true })).lanes.map Lane.pc).head? =
      some 0x20008 := by decide +kernel

/-! ### Witnesses: states and operands that meet the hypotheses of each statement, clause by clause -/

/-- The only condition beyond an instruction's row. -/
def any1 : Gx → Bool := fun _ => true

/-- The scratchpad accesses pass. -/
def padsOk (x : Gx) (addr : Nat → Nat) (n : Nat) : Bool :=
  (lanesOf x.en).all fun l => match x.scratchChk x.s (addr l) n with | .ok _ => true | .error _ => false

theorem padsOk_passed {x : Gx} {addr : Nat → Nat} {n : Nat} (h : padsOk x addr n = true) :
    ∃ team off, ScratchPassed x addr n team off := by
  let p := fun l => match x.scratchChk x.s (addr l) n with | .ok q => q | .error _ => (0, 0)
  refine ⟨fun l => (p l).1, fun l => (p l).2, fun l hl => ?_⟩
  have := List.all_eq_true.1 h l hl
  simp only [p]
  split at this
  · rename_i q hq; simp [hq]
  · cases this

/-- The group's stores drain at once without a failure, and are all acknowledged. -/
def drainsOk (x : Gx) (wc : Bool) : Bool :=
  match x.s.drainAll x.c.g wc with
  | .done t => ((t.grp? x.c.g).bind Group.deferred).isNone && ((t.grp? x.c.g).map Group.carried).getD 0 == 0 &&
      ((t.grp? x.c.g).map Group.unacked).getD 0 == 0
  | .wait _ => false

theorem drainsOk_drains {x : Gx} {wc : Bool} (h : drainsOk x wc = true) : ∃ t, DrainsAcked x wc t := by
  unfold drainsOk at h
  split at h
  · simp only [Bool.and_eq_true, Option.isNone_iff_eq_none, beq_iff_eq] at h
    exact ⟨_, ⟨‹_›, h.1.1, h.1.2⟩, h.2⟩
  · cases h

def linesOk (x : Gx) (ps : List (Want × Leaf)) : Bool :=
  match x.s.drainFor x.c.g ps with | .done _ => true | .wait _ => false

theorem linesOk_drains {x : Gx} {ps : List (Want × Leaf)} (h : linesOk x ps = true) : ∃ t, DrainsLines x ps t := by
  unfold linesOk at h
  split at h
  · exact ⟨_, ‹_›⟩
  · cases h

/-- PlainStores as a check. -/
def plainOk (xf : Nat) (ps : List (Want × Leaf)) : Bool :=
  ps.all fun p => p.2.mxa.isNone && !p.2.nvio && paReal p.2.pa && !notifyPa p.2.pa && (policyOf xf p.2 true).cls != 1

theorem witness_IntegerArithmetic : ∀ op ∈ [0x1, 0x2, 0x3, 0x4, 0x5, 0x8, 0x9, 0xA, 0xB, 0x1C, 0x1D], meets base op (form op) free any1 = true := fun op h =>
  test_plain_forms_run op ((by decide +kernel : ∀ op ∈ [0x1, 0x2, 0x3, 0x4, 0x5, 0x8, 0x9, 0xA, 0xB, 0x1C, 0x1D], op ∈ plainOps) op h)

theorem witness_IntegerDivision : ∀ op ∈ [0x6, 0x7], meets base op (form op) free any1 = true := fun op h =>
  test_plain_forms_run op ((by decide +kernel : ∀ op ∈ [0x6, 0x7], op ∈ plainOps) op h)

theorem witness_Logic : ∀ op ∈ [0xC, 0xD, 0xE, 0xF, 0x10], meets base op (form op) free any1 = true := fun op h =>
  test_plain_forms_run op ((by decide +kernel : ∀ op ∈ [0xC, 0xD, 0xE, 0xF, 0x10], op ∈ plainOps) op h)

theorem witness_Shifts : ∀ op ∈ [0x11, 0x12, 0x13, 0x14], meets base op (form op) free any1 = true := fun op h =>
  test_plain_forms_run op ((by decide +kernel : ∀ op ∈ [0x11, 0x12, 0x13, 0x14], op ∈ plainOps) op h)

theorem witness_BitFieldsAndCounts : ∀ op ∈ [0x15, 0x16, 0x17, 0x18, 0x19], meets base op (form op) free any1 = true := fun op h =>
  test_plain_forms_run op ((by decide +kernel : ∀ op ∈ [0x15, 0x16, 0x17, 0x18, 0x19], op ∈ plainOps) op h)

theorem witness_MovesAndConstants : ∀ op ∈ [0x0, 0x1B, 0x1E, 0x1F, 0x20, 0x21], meets base op (form op) free any1 = true := fun op h =>
  test_plain_forms_run op ((by decide +kernel : ∀ op ∈ [0x0, 0x1B, 0x1E, 0x1F, 0x20, 0x21], op ∈ plainOps) op h)

theorem witness_Compares : ∀ op ∈ [0x1A, 0x39], meets base op (form op) free any1 = true := fun op h =>
  test_plain_forms_run op ((by decide +kernel : ∀ op ∈ [0x1A, 0x39], op ∈ plainOps) op h)

theorem witness_FloatRounding : ∀ op ∈ [0x30, 0x31, 0x32, 0x33, 0x3A, 0x3B, 0x3C, 0x3D, 0x46, 0x47, 0x48], meets base op (form op) free any1 = true := fun op h =>
  test_plain_forms_run op ((by decide +kernel : ∀ op ∈ [0x30, 0x31, 0x32, 0x33, 0x3A, 0x3B, 0x3C, 0x3D, 0x46, 0x47, 0x48], op ∈ plainOps) op h)

theorem witness_FloatExact : ∀ op ∈ [0x34, 0x35, 0x36, 0x37, 0x38, 0x44, 0x45], meets base op (form op) free any1 = true := fun op h =>
  test_plain_forms_run op ((by decide +kernel : ∀ op ∈ [0x34, 0x35, 0x36, 0x37, 0x38, 0x44, 0x45], op ∈ plainOps) op h)

theorem witness_FloatElementary : ∀ op ∈ [0x3E, 0x3F, 0x40, 0x41, 0x42, 0x43, 0x49], meets base op (form op) free any1 = true := fun op h =>
  test_plain_forms_run op ((by decide +kernel : ∀ op ∈ [0x3E, 0x3F, 0x40, 0x41, 0x42, 0x43, 0x49], op ∈ plainOps) op h)

theorem witness_Conversions : ∀ op ∈ [0x50, 0x51, 0x52, 0x53], meets base op (form op) free any1 = true := fun op h =>
  test_plain_forms_run op ((by decide +kernel : ∀ op ∈ [0x50, 0x51, 0x52, 0x53], op ∈ plainOps) op h)

theorem witness_UniformFloat : ∀ op ∈ [0x68, 0x69, 0x6A, 0x6C], meets base op (form op) free any1 = true := fun op h =>
  test_plain_forms_run op ((by decide +kernel : ∀ op ∈ [0x68, 0x69, 0x6A, 0x6C], op ∈ plainOps) op h)

theorem witness_types : ∀ i ∈ [Instr.imulh (form 0x04), .idiv (form 0x06), .irem (form 0x07), .iabs (form 0x0A), .ineg (form 0x0B), .shl (form 0x11), .shr (form 0x12),
    .sar (form 0x13), .rot (form 0x14), .bfe (form 0x15), .bfi (form 0x16)], WellFormed i = true := by decide +kernel

/-- PACK and UNPK with 32/w registers at the end of the frame, QNT and DQNT. -/
theorem witness_PackingAndBlocks :
    meets base 0x54 (ff .f16 0 (.v 4) (.v 638) (.reg (.v 0))) (fun x => x.packOk (ff .f16 0 (.v 4) (.v 638) (.reg (.v 0))) (.v 638)) any1 = true ∧
    meets base 0x55 (ff .i8 0 (.v 636) (.v 5) (.reg (.v 0))) (fun x => x.packOk (ff .i8 0 (.v 636) (.v 5) (.reg (.v 0))) (.v 636)) any1 = true ∧
    ([Name.zero, .one].all fun n => meets base 0x55 (ff .i8 0 n (.v 5) (.reg (.v 0))) (fun x => x.packOk (ff .i8 0 n (.v 5) (.reg (.v 0))) n) any1) = true ∧
    meets base 0x56 { ff .packed 1 (.v 4) (.v 8) (.reg (.v 0)) with pfx := pc (.s 5) } free any1 = true ∧
    meets base 0x57 { ff .packed 1 (.v 4) (.v 8) (.reg (.v 0)) with pfx := pc (.s 5) } free any1 = true := by decide +kernel

/-- Each FN of VOTE with a mask and a uniform destination, and one form of every other instruction. -/
theorem witness_CrossLane :
    ((List.range 4).all fun fn => meets base 0x22 (ff .b32 fn (.m 3) (.m 2) (.reg (.v 0))) free any1 && meets base 0x22 (ff .b32 fn (.s 3) (.m 2) (.reg (.v 0))) free any1) = true ∧
    ([0x23, 0x24, 0x25, 0x26, 0x27, 0x28, 0x29, 0x2A].all fun op => meets base op (form op) free any1) = true := by decide +kernel

/-- UPICK with the last lane as an immediate; the others as they stand in the table. -/
theorem witness_UniformInteger :
    ([0x58, 0x59, 0x5A, 0x5B, 0x5C, 0x5D, 0x5E, 0x5F, 0x60, 0x61, 0x62, 0x63, 0x64, 0x65, 0x67, 0x6B].all fun op => meets base op (form op) free any1) = true ∧
    meets base 0x66 (ff .b32 0 (.s 2) (.v 5) (.imm 31)) (fun _ => match (.imm 31 : BOperand) with | .imm i => i.toNat < 32 | _ => true) any1 = true := by decide +kernel

/-- The hypotheses of a D-form word. -/
def dualMeets (p q : DSlot) (ok : Gx → Bool) : Bool :=
  match openGang base none with
  | some x => x.dualOk p q && !x.pastEnd && x.g.inRegion &&& x.c.lanes == 0 && ok x
  | none => false
def slotOf (op : DOp) (ty : Ty3) (a b : Name) : DSlot := { op := op, ty := ty, a := a, b := .reg b }

/-- No scratchpad access; a load and a store in either slot, at the last word of the scratchpad. -/
theorem witness_DualIssue :
    dualMeets (slotOf .iadd .i32 (.v 4) (.v 8)) (slotOf .fmul .f32 (.v 6) (.v 10)) any1 = true ∧
    dualMeets (slotOf .lds .i32 (.v 4) (.s 8)) (slotOf .fmul .f32 (.v 6) (.v 10)) (fun x => padsOk x (fun l => x.src l (.s 8) .ui32 32) 4) = true ∧
    dualMeets (slotOf .sts .i32 (.v 4) (.s 8)) (slotOf .fmul .f32 (.v 6) (.v 10)) (fun x => padsOk x (fun l => x.src l (.s 8) .ui32 32) 4) = true ∧
    dualMeets (slotOf .iadd .i32 (.v 4) (.v 8)) (slotOf .lds .i8 (.v 6) (.s 8)) (fun x => padsOk x (fun l => x.src l (.s 8) .ui32 32) 1) = true ∧
    dualMeets (slotOf .iadd .i32 (.v 4) (.v 8)) (slotOf .sts .f16 (.v 6) (.s 8)) (fun x => padsOk x (fun l => x.src l (.s 8) .ui32 32) 2) = true := by decide +kernel

/-- Taken and untaken masks, both senses of BRU, a register target, and LOOP at 0, 1 and 2. -/
theorem witness_Branches :
    meets base 0x70 (ff .b32 0 (.v 0) (.m 3) (.imm 0xFFFA)) free (fun x => inSpace (x.target (ff .b32 0 (.v 0) (.m 3) (.imm 0xFFFA))) && !x.pastEnd) = true ∧
    ([0, 1].all fun fn => meets base 0x71 (ff .b32 fn (.v 0) (.s 4) (.imm 2)) free fun x => inSpace (x.target (ff .b32 fn (.v 0) (.s 4) (.imm 2))) && !x.pastEnd) = true ∧
    meets (withG (setU 4 (2 ^ 54 - 4))) 0x72 (ff .b32 0 (.v 0) (.s 4) (.reg (.v 0))) free (fun x => x.usrc (.s 4) .ui64 64 == 2 ^ 54 - 4) = true ∧
    ([0, 1, 2].all fun v => meets (withG (setU 7 v)) 0x7F (ff .b32 0 (.s 7) (.v 0) (.imm 2)) free fun x => inSpace (x.target (ff .b32 0 (.s 7) (.v 0) (.imm 2))) && !x.pastEnd) = true := by decide +kernel

/-- Every lane's window at a position, in a group with all its segments. -/
def windowAt (wb : Nat) : State := withG fun g => setU 4 0x30000 { g with nseg := 15, lanes := g.lanes.map fun l => { l with wb := wb } }

/-- Frames of 1 and of the whole budget; a call that runs past the stack, and one past the last segment; a return to a resident
caller's window. -/
theorem witness_CallsAndReturns :
    ([1, 5].all fun n => meets base 0x73 (ff .b32 0 (.v n) (.v 0) (.imm 64)) (Gx.frameOk (ff .b32 0 (.v n) (.v 0) (.imm 64))) fun x => inSpace (x.target (ff .b32 0 (.v n) (.v 0) (.imm 64))) && ((lanesOf x.c.lanes).all fun i => x.g.wb i + 8 * n + x.budget ≤ 2 ^ 22) && (x.topOf fun _ l => l.wb + 8 * n) ≤ x.t.kern.bseg + x.t.kern.hseg) = true ∧
    meets (withG (setU 4 0x30000)) 0x74 (ff .b32 0 (.v 1) (.s 4) (.reg (.v 0))) (Gx.frameOk (ff .b32 0 (.v 1) (.s 4) (.reg (.v 0)))) any1 = true ∧
    ([2 ^ 22 - 8, 960].all fun wb => [(0x73, ff .b32 0 (.v 5) (.v 0) (.imm 64)), (0x74, ff .b32 0 (.v 5) (.s 4) (.reg (.v 0)))].all fun q => meets (windowAt wb) q.1 q.2 (Gx.frameOk q.2) fun x => (q.1 == 0x74 || inSpace (x.target q.2)) && (let past := (lanesOf x.c.lanes).any fun i => 2 ^ 22 < x.g.wb i + 8 * q.2.d.code + x.budget; let top := x.topOf fun _ l => l.wb + 8 * q.2.d.code; past == (wb == 2 ^ 22 - 8) && (past || (x.g.sbot + x.g.nseg < top && x.g.bseg + x.g.hseg < top - x.g.sbot)))) = true ∧
    meets (withG fun g => { g with nseg := 11, vregs := [], lanes := g.lanes.map fun l => { l with wb := 8 } } |> setPair 8 (2 ^ 57 + 0x30000)) 0x75 (ff .b32 0 (.v 0) (.v 0) (.reg (.v 0))) free (fun x => (lanesOf x.c.lanes).all fun i => (x.linkOf i).isSome) = true := by decide +kernel

/-- A mask of other lanes too, so that the gang waits; a mask of the gang alone. -/
theorem witness_JoinAndExit :
    meets (withG fun g => { g with mregs := sset g.mregs 3 0xF }) 0x76 (ff .b32 0 (.v 0) (.m 3) (.reg (.v 0))) free (fun x => (((x.g.modLanes (x.c.lanes &&& ~~~0xF) fun l => { l with pc := x.next, wait := .none }).modLanes (x.c.lanes &&& 0xF) fun l => { l with wait := .join 0xF }).joined 0)) = true ∧
    meets { withG (fun g => { g with mregs := sset g.mregs 3 0xF, lanes := modAt g.lanes 1 fun l => { l with pc := 0x30000 } }) with cur := some { g := ⟨2, 0⟩, lanes := 0xFFFFFFFD, pc := 0x20000, pre := none, first := none } } 0x76 (ff .b32 0 (.v 0) (.m 3) (.reg (.v 0))) free (fun x => !(((x.g.modLanes (x.c.lanes &&& ~~~0xF) fun l => { l with pc := x.next, wait := .none }).modLanes (x.c.lanes &&& 0xF) fun l => { l with wait := .join 0xF }).joined 0)) = true ∧
    meets base 0x77 (ff .b32 0 (.v 0) (.v 0) (.reg (.v 0))) free (fun x => drainsOk x true) = true := by decide +kernel

/-- The last barrier of each kind. -/
theorem witness_Barriers :
    ([0x78, 0x79].all fun op => meets base op (ff .b32 0 (.v 0) (.v 0) (.imm 15)) (fun _ => true) fun x => drainsOk x false) = true := by decide +kernel

theorem witness_WaitsAndPriority :
    meets (withG (setU 6 0x30000)) 0x7A (ff .ui64 0 (.v 0) (.s 6) (.reg (.s 7))) free (fun x => ready x ((lanesOf x.c.lanes).map fun l => { lane := l, va := x.seqAddr (ff .ui64 0 (.v 0) (.s 6) (.reg (.s 7))) l, size := 8, need := .r })) = true ∧
    ([2 ^ 63 - 1, 2 ^ 63, 2 ^ 64 - 1].all fun v => meets (withG (setU 4 v)) 0x7B (ff .b32 0 (.v 0) (.v 0) (.reg (.s 4))) free fun x => x.usrcB (.reg (.s 4)) .ui64 64 == v) = true ∧
    meets base 0x7C (form 0x7C) free any1 = true ∧
    ([15, 16].all fun v => meets (withG (setU 4 v)) 0x7D (ff .b32 0 (.v 0) (.v 0) (.reg (.s 4))) (fun _ => true) fun x => x.usrcB (.reg (.s 4)) .ui64 64 == v) = true ∧
    meets base 0x7E (form 0x7E) free any1 = true := by decide +kernel

/-- A shape record's bytes (R81). -/
def recBytes (base fmt rank flags : Nat) (dims strs : List Nat) (sbase : Nat := 0) : List Byte :=
  leBytes 8 base ++ leBytes 1 fmt ++ leBytes 1 rank ++ leBytes 1 0 ++ leBytes 1 flags ++ leBytes 4 0 ++
  dims.flatMap (leBytes 4) ++ leBytes 4 0 ++ strs.flatMap (leBytes 8) ++ leBytes 8 sbase ++ List.replicate 32 0 ++
  leBytes 2 1 ++ leBytes 2 1 ++ leBytes 4 0

/-- An FP32 vector of 4 elements, a matrix of 2 rows, at 0x50000. -/
def vec4 : List Byte := recBytes 0x50000 0x0B 1 0 [4, 1, 1, 1, 1] [4, 0, 0, 0, 0]
def mat2 (fmt size flags : Nat) (base sbase : Nat) : List Byte :=
  recBytes base fmt 2 flags [4, 2, 1, 1, 1] [size, 64, 0, 0, 0] sbase

/-- A record in slot 3 of the context, its handle in s4, and a change to the group. -/
def withRec (b : List Byte) (g : Group → Group := id) : State :=
  let s := withG fun h => setU 4 (2 ^ 20 + 3) (g h)
  { s.modCtx 0 (fun x => { x with slots := [(3, { gen := 1, used := true, decl := [], held := 0 })] }) with
    mem := memWrite s.mem (located 0x40180 b) }

/-- What the handle in s4 stands for. -/
def recOf (x : Gx) : ShapeRec := match x.s.handle x.t.ctx (x.usrc (.s 4) .ui64 64 % 2 ^ 32) with | some (_, r) => r | none => .ofBytes []
def hasRec (x : Gx) : Bool := (x.s.handle x.t.ctx (x.usrc (.s 4) .ui64 64 % 2 ^ 32)).isSome

/-- Accesses of one lane or of the whole gang that all pass, and their lines free of the group's own stores. -/
def readyIn (x : Gx) (ws : List Want) : Bool := ready x ws && linesOk x (pages x ws)

/-- `base` with a second page of 1 GiB at 0x40000000 under a leaf entry's low bits, and s6 at an address. -/
def paged (e s6 : Nat) (g : Group → Group := id) : State :=
  let s := withG fun h => setU 6 s6 (g h)
  { s with mem := memWrite s.mem (located 0x12008 (leBytes 8 (e + 2 ^ 30))) }

/-- `base` with an alias page of a format at 0x40000000, and s6 there. -/
def aliased (fmt : Nat) : State :=
  let s := withG (setU 6 (2 ^ 30))
  let put := fun (m : List Host.Cell) (p : Nat × Nat) => memWrite m (located p.1 (leBytes 8 p.2))
  { s with mem := [(0x12008, 0x60001), (0x60000, 0x61001), (0x61000, 0x8086F + fmt * 2 ^ 52)].foldl put s.mem }

/-- The entries of some stores. -/
def esOf (xf : Nat) (ws : List (Want × Leaf × List Byte)) : List StEntry :=
  entriesOf xf ((lastOnly ws).filter fun p => !p.2.2.isEmpty)

/-- CombinedStores and DirectStores as checks. -/
def combinedOk (xf : Nat) (ps : List (Want × Leaf)) : Bool :=
  ps.all fun p => p.2.mxa.isNone && !p.2.nvio && paReal p.2.pa && !notifyPa p.2.pa && (policyOf xf p.2 true).cls == 1
def directOk (ps : List (Want × Leaf)) : Bool :=
  ps.all fun p => p.2.mxa.isSome || p.2.nvio || !paReal p.2.pa || notifyPa p.2.pa

/-- The stores of ST with their bytes. -/
def stOf (x : Gx) : List (Want × Leaf × List Byte) :=
  (pages x (x.wants (form 0x81) .w false none)).map fun p => (p.1, p.2, leBytes (form 0x81).ty.size (x.dataOf (form 0x81) p.1.lane))

/-- Stores that a release performs, at once or marked, are within reach. -/
def strOk (x : Gx) (eager : Bool) : Bool :=
  let ws := x.wants (form 0x8C) .w true none
  let ps := pages x ws
  let keep := fun (s : State) => s.keepInUse x.t.ctx (ps.map fun p => (.lane x.c.g p.1.lane, p.1.va / 4096))
  let y := { x with s := keep x.s, s0 := keep x.s0 }
  ready x ws && (ps.any fun p => p.2.scope == 4) == eager &&
  match y.s.drainAll y.c.g eager with
  | .done t => ((t.grp? y.c.g).bind Group.deferred).isNone && ((t.grp? y.c.g).map Group.carried) == some 0 &&
      (!eager || ((t.grp? y.c.g).map Group.unacked) == some 0) && !x.noRoom t ps &&
      (t.coh.lacks ((ps.filter fun p => !(policyOf 0 p.2 true).atHome).flatMap fun p => halvesOf p.2.pa p.1.size) true).isEmpty &&
      linesOk { x with s := t } ps
  | .wait _ => false

/-- Loads of global memory and of the last word of the scratchpad, an argument at the end of the block, an element of a
tensor, and an acquire. -/
theorem witness_Loads :
    meets (withG (setU 6 0x30000)) 0x80 (form 0x80) free (fun x => ready x (x.wants (form 0x80) .r false (some false))) = true ∧
    meets (withG (setU 6 (0x40))) 0x82 (form 0x82) free (fun x => padsOk x (x.scratchEa (form 0x82)) 4) = true ∧
    meets base 0x84 (ff .f32 0 (.v 4) (.v 0) (.imm 4092)) (fun _ => (4092 : Nat) < 4096) any1 = true ∧
    meets (withRec vec4) 0x85 (ff .b32 0 (.v 8) (.s 4) (.reg (.v 10))) free (fun x => hasRec x && ready x ((lanesOf x.en).flatMap fun l => ((recOf x).pieces (x.indices (ff .b32 0 (.v 8) (.s 4) (.reg (.v 10))) 1 l)).map fun p => { lane := l, va := p.1, size := p.2, need := .r })) = true ∧
    meets (withG (setU 6 0x30000)) 0x8B (form 0x8B) free (fun x => ready x (x.wants (form 0x8B) .r true (some false))) = true := by decide +kernel

/-- A store that fills the buffer of 64 entries; one that makes nine lines combined, so that the oldest drains; one to
non-volatile I/O; one to the scratchpad, one to a tensor; the notify page; a release of each kind. -/
theorem witness_Stores :
    meets (withG fun g => setU 6 0x30000 { g with stbuf := List.replicate 63 { line := 0, lanes := [], pa := some 0, bytes := [], through := false, rd := 0 } }) 0x81 (form 0x81) free (fun x => ready x (x.wants (form 0x81) .w false none) && plainOk 0 ((stOf x).map fun p => (p.1, p.2.1)) && x.g.stbuf.length + (esOf 0 (stOf x)).length == 64 && x.g.wcbuf.length ≤ 8) = true ∧
    meets (paged 0x17F (2 ^ 30) fun g => { g with wcbuf := (List.range 8).map fun k => { line := 0x600 + k, lanes := [(0, 1)], pa := some (0x600 + k), bytes := [(0, 7)], through := false, rd := 0 } }) 0x81 (form 0x81) free (fun x => ready x (x.wants (form 0x81) .w false none) && combinedOk 0 ((stOf x).map fun p => (p.1, p.2.1)) && match (x.s.modGrp x.c.g fun g => { g with wcbuf := (esOf 0 (stOf x)).foldl combineIn g.wcbuf }).fitCombined x.c.g 200 with | .done t => (t.grp? x.c.g).map (fun g => g.wcbuf.length) == some 8 | .wait _ => false) = true ∧
    meets (paged (0x27F + 2 ^ 54) (2 ^ 30)) 0x81 (form 0x81) free (fun x => ready x (x.wants (form 0x81) .w false none) && directOk ((stOf x).map fun p => (p.1, p.2.1)) && linesOk x ((stOf x).map fun p => (p.1, p.2.1)) && x.g.stbuf.length ≤ 64 && x.g.wcbuf.length ≤ 8) = true ∧
    ([0, 3].all fun k => meets (aliased k) 0x81 (ff .b32 0 (.v 0) (.s 6) (.imm 0)) free fun x => let ps := pages x (x.wants (ff .b32 0 (.v 0) (.s 6) (.imm 0)) .w false none); ready x (x.wants (ff .b32 0 (.v 0) (.s 6) (.imm 0)) .w false none) && ps.length == 32 && directOk ps && ps.all (fun p => p.2.mxa.isSome) && linesOk x ps && x.g.stbuf.length ≤ 64 && x.g.wcbuf.length ≤ 8) = true ∧
    ([Config.notifyBase, Config.notifyBase + 8].all fun pa => let l := { pteLeaf 0x7F 0 0 with pa := pa }; l.mxa.isNone && !l.vers && notifyPa l.pa && (l.pa % 4096 == 0) == (pa == Config.notifyBase)) = true ∧
    meets base 0x83 (form 0x83) free (fun x => padsOk x (x.scratchEa (form 0x83)) (form 0x83).ty.size) = true ∧
    meets (withRec vec4) 0x86 (ff .b32 0 (.v 8) (.s 4) (.reg (.v 10))) free (fun x => let ws := (lanesOf x.en).map fun l => ({ lane := l, va := (recOf x).addr (x.indices (ff .b32 0 (.v 8) (.s 4) (.reg (.v 10))) 1 l), size := 4, need := .w, halves := none } : Want); hasRec x && (recOf x).blk.isNone && ready x ws && plainOk 0 (pages x ws) && (esOf 0 ((pages x ws).map fun p => (p.1, p.2, leBytes 4 (x.src p.1.lane (.v 8) .b32 32)))).length ≤ 64) = true ∧
    meets (withG (setU 6 0x30000)) 0x8C (form 0x8C) free (fun x => strOk x false) = true ∧
    meets (paged 0x9F (2 ^ 30)) 0x8C (form 0x8C) free (fun x => strOk x true) = true := by decide +kernel

theorem witness_Atomics :
    ([0x87, 0x88].all fun op => meets (withG (setU 6 0x30000)) op (form op) free fun x => readyIn x (x.wants (form op) .rw true (some true))) = true ∧
    ([0x89, 0x8A].all fun op => meets base op (form op) free fun x => padsOk x (x.scratchEa (form op)) (form op).ty.size) = true := by decide +kernel

/-- The gang of lane 31 alone. -/
def alone (s : State) : State :=
  { s.modGrp ⟨2, 0⟩ (fun g => g.modLanes 0x7FFFFFFF fun l => { l with pc := 0x30000 }) with
    cur := some { g := ⟨2, 0⟩, lanes := 0x80000000, pc := 0x20000, pre := none, first := none } }

/-- A fence of loads and one of all, without and with an address, of a page that is absent and of each scope; a prefetch by one
lane, of a page and of none. -/
theorem witness_FencesAndCaches :
    ([0, 1].all fun k => meets (alone (withG (setU 6 (k * 2 ^ 30)))) 0x8E (form 0x8E) free fun x => lanesOf x.en == [31] && match x.s.translate x.t.ctx (.lane x.c.g 31) (x.ea (form 0x8E) 31) .r with | .ok l => k == 0 && (x.s.coh.lacks (halvesOf l.pa 1) false).isEmpty | _ => k == 1) = true ∧
    meets (withG (setU 6 (2 ^ 30))) 0x8D (ff .b32 0 (.v 0) (.s 6) (.reg (.v 0))) free (fun x => match x.s.translate x.t.ctx (.lane x.c.g x.low) (x.usrc (.s 6) .ui64 64) .any with | .fault _ => true | _ => false) = true ∧
    ([(0x3F, 1), (0x7F, 3), (0x9F, 4)].all fun q => meets (paged q.1 (2 ^ 30)) 0x8D (ff .b32 0 (.v 0) (.s 6) (.reg (.v 0))) free fun x => drainsOk x (q.2 == 4) && match x.s.translate x.t.ctx (.lane x.c.g x.low) (x.usrc (.s 6) .ui64 64) .any with | .ok l => l.scope == q.2 | _ => false) = true ∧
    ([0, 1, 2, 3].all fun fn => meets base 0x8D (ff .b32 fn (.v 0) .zero (.reg (.v 0))) free fun x => drainsOk x true) = true ∧
    meets (withG (setU 6 0x30000)) 0x8E (form 0x8E) free any1 = true ∧
    ([0x8F, 0x90].all fun op => meets (withG (setU 6 0x30000)) op (form op) free fun x => let ws := (lanesOf x.en).map fun l => ({ lane := l, va := x.ea (form op) l, size := 0, need := .r, halves := none } : Want); readyIn x ws && (((pages x ws).flatMap fun p => p.2.lines 0).foldl State.dropLine x.s).coh.held.isEmpty) = true := by decide +kernel

/-- `base` with eight bytes of the scratchpad written at offset 64, its address in s2, and a value in s3. -/
def withObj (v : Nat) (s3 : Nat := 0) : State :=
  (withG (fun g => setU 2 64 (setU 3 s3 g))).scratchWrite 2 64 (leBytes 8 v)
def objAt (x : Gx) : Nat := match x.s.scratchAt x.t (x.scratchUni (.s 2)) 8 with | some p => x.s.scratchNat p.1 p.2 8 | none => 2 ^ 64

/-- The largest count; the last arrival, an earlier one, an object of count 0; a phase that has passed and one that has not. -/
theorem witness_BarrierObjects :
    meets (withObj 0) 0x91 (ff .b32 0 (.v 0) (.s 2) (.imm 0xFFFF)) (fun _ => true) (fun x => x.scratchUni (.s 2) % 8 == 0 && objAt x == 0) = true ∧
    ([0x00010002, 0x00020002, 0].all fun v => meets (withObj v) 0x91 (ff .b32 1 (.s 5) (.s 2) (.imm 0)) free fun x => objAt x == v && drainsOk x false) = true ∧
    ([0, 1].all fun p => meets (withObj (p * 2 ^ 32 + 0x00020002)) 0x91 (ff .b32 2 (.s 3) (.s 2) (.imm 0)) free fun x => objAt x / 2 ^ 32 == p) = true := by decide +kernel

/-- The last destination that leaves the count at 4,095; every FN of ACWAIT. -/
theorem witness_LaneCopies :
    meets (withG fun g => setPair 10 0x30000 (setPair 14 16 { g with count := modAt g.count 1 fun _ => 4063 })) 0x92 { ff .b32 2 (.s 9) (.v 10) (.reg (.v 12)) with x := 8, pfx := pc (.v 14) } free (fun x => let ws := (lanesOf x.en).map fun l => ({ lane := l, va := x.src l (.v 10) .ui64 64, size := 16, need := .r } : Want); padsOk x (fun l => x.src l (.v 12) .ui32 32) 16 && readyIn x ws && x.g.countOf 1 + (lanesOf x.en).length == 4095) = true ∧
    ([0, 1, 2].all fun fn => meets base 0x93 { form 0x93 with fn := fn } free any1) = true ∧
    meets base 0x94 (form 0x94) free any1 = true := by decide +kernel

/-- A ring header of 4 slots of one unit at scratchpad 128, with its counts, its address in s6. -/
def withRing (wp rp ap : Nat) : State :=
  (withG (setU 6 128)).scratchWrite 2 128 (leBytes 2 4 ++ leBytes 2 1 ++ leBytes 4 wp ++ leBytes 4 rp ++ leBytes 4 ap)
def ringOf (x : Gx) : Ring := match x.s.scratchAt x.t (x.scratchUni (.s 6)) 64 with | some p => x.s.ringAt p.1 p.2 | none => ⟨0, 0, 0, 0, 0⟩

/-- The least and the greatest shapes that are out of range, an address off its line, one past the scratchpad, a ring that a job
fills; a ring of one slot of one unit; a filled slot, none, and a ring that is not consistent; a slot to give back, and none. -/
theorem witness_CopyRings :
    ([0, 1, 2 ^ 16, 1025 + 2 ^ 16, 1 + 2049 * 2 ^ 16].all fun v => meets (let s := withRing 0 0 0; s.modGrp ⟨2, 0⟩ (setU 7 v)) 0x95 (ff .b32 0 (.v 0) (.s 6) (.reg (.s 7))) free fun x => let b := x.ringShape (ff .b32 0 (.v 0) (.s 6) (.reg (.s 7))); b.1 == 0 || b.1 == 1025 || b.2 == 0 || b.2 == 2049) = true ∧
    ([64, 2 ^ 20 - 128].all fun a => meets (withG (setU 6 a)) 0x95 (ff .b32 0 (.v 0) (.s 6) (.imm 0x0101)) free fun x => x.scratchUni (.s 6) == a && (a == 64 || (x.s.scratchAt x.t a 192).isNone)) = true ∧
    meets (withRing 0 0 0) 0x95 (ff .b32 0 (.v 0) (.s 6) (.imm 0x0101)) free (fun x => x.ringShape (ff .b32 0 (.v 0) (.s 6) (.imm 0x0101)) == (1, 1) && (x.s.scratchAt x.t (x.scratchUni (.s 6)) 192).isSome && !x.s.filling 2 128) = true ∧
    meets (withRing 4 0 0) 0x96 (ff .b32 0 (.s 5) (.s 6) (.reg (.v 0))) free (fun x => (ringOf x).consistent && (ringOf x).ap != (ringOf x).wp) = true ∧
    meets (withRing 4 3 4) 0x96 (ff .b32 0 (.s 5) (.s 6) (.reg (.v 0))) free (fun x => (ringOf x).consistent && (ringOf x).ap == (ringOf x).wp) = true ∧
    meets (withRing 5 0 0) 0x96 (ff .b32 0 (.s 5) (.s 6) (.reg (.v 0))) free (fun x => !(ringOf x).consistent) = true ∧
    meets (withRing 4 0 1) 0x97 (ff .b32 0 (.v 0) (.s 6) (.reg (.v 0))) free (fun x => (ringOf x).consistent && (ringOf x).ap != (ringOf x).rp && drainsOk x false) = true ∧
    meets (withRing 4 1 1) 0x97 (ff .b32 0 (.v 0) (.s 6) (.reg (.v 0))) free (fun x => (ringOf x).ap == (ringOf x).rp) = true := by decide +kernel

/-- A chain control block at 0x60000 of a ring of 16 cards for engine 0, with TAIL and HEAD, its address in s2. -/
def withCcb (tail head : Nat) : State :=
  let s := withG (setU 2 0x60000)
  { s with mem := memWrite s.mem (located 0x60000 (leBytes 8 0x61000 ++ leBytes 4 16 ++ leBytes 4 0 ++ leBytes 8 tail ++
      leBytes 8 head ++ leBytes 8 tail ++ leBytes 8 0x62000 ++ leBytes 8 0 ++ leBytes 8 0)) }
def enqOk (x : Gx) (n : Nat) (room : Bool) : Bool :=
  let ws := [x.one (x.usrc (.s 2) .ui64 64) 64 .rw true (some true)]
  readyIn x ws && ready x [x.one 0x62000 0 .any false none] && drainsOk x false && x.t.slot == 0 &&
  (pages x ws).all fun p =>
    let b := x.s.leafBytes (x.s.acc x.t) p.2 64
    p.2.pa < Config.hostBase && ccbField b 0x28 8 == 0x62000 &&
    (execEnq.diff64 (ccbField b 0x10 8 + n) (ccbField b 0x18 8) ≤ ccbField b 0x08 4) == room

/-- 256 cards, more than the ring holds; the cards that fill the ring exactly; the highest engine. -/
theorem witness_EngineQueues :
    meets (withCcb 0 0) 0x98 (ff .b32 0 (.s 3) (.s 2) (.imm 256)) (fun _ => true) (fun x => enqOk x 256 false) = true ∧
    meets (withCcb 15 0) 0x98 (ff .b32 0 (.s 3) (.s 2) (.imm 1)) (fun _ => true) (fun x => enqOk x 1 true) = true ∧
    meets base 0x99 (ff .b32 0 (.s 3) (.v 0) (.imm 9)) (fun _ => engineNo 9) (fun x => engineNo (x.srcBz x.low (.imm 9) .ui64 64)) = true := by decide +kernel

/-- `base` with a region open in every lane. -/
def inRegion : State :=
  withG fun g => g.modLanes (BitVec.allOnes 32) fun l => { l with region := some (Region.opened 0x20100 0 false) }

/-- The hypotheses of RunsIn together with a condition on the gang that goes on. -/
def meetsIn (s : State) (op : Nat) (f : FForm) (ok : Gx → Bool) (p : Gx → Bool) : Bool :=
  match openGang s f.pfx with
  | some x =>
    let y := x.screenAll (x.screen op f)
    (x.decodeFault op f ok).isNone && !(x.pastEnd && !transferOp op) && !(x.g.yreq && (f.sp || waitOp op)) &&
      x.g.inRegion &&& x.c.lanes != 0 && y.c.lanes != 0 && p y
  | none => false

/-- A region of one source, one constraint on it and one store, conflicting or not, its constraint good or not. -/
def aRegion (conflict concrete : Bool) (konst : Nat) : Region :=
  { Region.opened 0x20100 0 concrete with
    conflict := conflict, sources := [{ addr := 0x30000, width := 4, value := 7 }], saved := [(.v 4, 9)]
    stores := [{ addr := 0x50000, width := 4, val := .sym 0 1, pa := 0x50000, mxa := none }]
    constraints := [{ k := 0, c := 0, fn := 0, ty := .ui32, konst := konst, flip := false, outcome := true }] }
def commitOk (r : Region) (p : Gx → List Nat → Bool) : Bool :=
  meets base 0 (form 0) free fun x => match x.leaves x.s (r.stores.map (storeWant 31)), x.leaves x.s (r.sources.map (srcWant 31)) with
    | .ok ls, .ok qs => ls.all (fun l => l.mxa.isNone && !l.vers && !notifyPa l.pa) &&
        p x ((qs.zip r.sources).map fun p => leNat (x.s.readBytes x.t x.g p.1 p.2.width))
    | _, _ => false

/-- A region opened; one open in every lane committed without a constraint or a store, and aborted with the highest code; ARC and
ARA without one; a commit without and with a conflict, its constraint holding and not; an abort of the last lane. -/
theorem witness_AtomicRegions :
    meets base 0xB0 (ff .b32 0 (.v 0) (.v 0) (.imm 0x12)) free (fun x => inSpace (x.target (ff .b32 0 (.v 0) (.v 0) (.imm 0x12))) && drainsOk x false) = true ∧
    meetsIn inRegion 0xB1 (ff .b32 0 (.v 11) (.v 0) (.reg (.v 0))) free (fun y => (lanesOf y.c.lanes).all (fun l => ((y.g.lane? l).bind Lane.region).isSome) && match (y.s.swapDeferred y.c.g none).drainAll y.c.g false with | .done t => ((t.grp? y.c.g).bind Group.deferred).isNone && ((t.grp? y.c.g).map fun g => g.unacked + g.carried) == some 0 && (lanesOf y.c.lanes).all (fun l => match (y.g.lane? l).bind Lane.region with | some r => r.lines.isEmpty | none => false) | _ => false) = true ∧
    meetsIn inRegion 0xB2 (ff .b32 0 (.v 0) (.v 0) (.imm 255)) (fun _ => true) (fun y => (lanesOf y.c.lanes).all (fun l => ((y.g.lane? l).bind Lane.region).isSome)) = true ∧
    ([(0xB1, ff .b32 0 (.v 11) (.v 0) (.reg (.v 0))), (0xB2, ff .b32 0 (.v 0) (.v 0) (.imm 255))].all fun q => meets base q.1 q.2 free fun x => (lanesOf x.c.lanes).head? == some 0) = true ∧
    ([true, false].all fun c => commitOk (aRegion false c 0) fun _ _ => true) = true ∧
    commitOk (aRegion true true 0) (fun _ _ => true) = true ∧
    ([0, 1].all fun n => commitOk (aRegion true false n) fun _ vals => (aRegion true false n).constraints.all (fun q => q.holds vals 4) == (n == 0)) = true ∧
    ((((inRegion.grp? ⟨2, 0⟩).bind fun g => g.lane? 31).bind Lane.region).isSome) = true ∧
    meets base 0xB3 (form 0xB3) free any1 = true := by decide +kernel

/-- An MMA whose rows come from its own operand, from the latch, and from a latch of another type; MXQ without and with a job on
the array. -/
theorem witness_MatrixInstructions :
    ([(Ty.bf16, true), (Ty.f16, false)].all fun q => meets (withRec (mat2 0x0A 2 0 0 0) fun g => setU 8 (2 ^ 20 + 3) { g with latch := some { ty := q.1, fn := 0, rows := [] } }) 0xA0 { ff .bf16 0 (.s 10) (.v 16) (.reg (.s 8)) with x := 0x27 } (fun x => 7 < x.t.kern.acc && x.octName (.v 16) 8) fun x => !x.arrayFull 7 && x.g.latch == some { ty := q.1, fn := 0, rows := [] } && (q.1 == .bf16) == q.2) = true ∧
    meets (withRec (mat2 0x0A 2 0 0 0) (setU 8 (2 ^ 20 + 3))) 0xA0 { ff .bf16 0 (.s 10) (.v 16) (.reg (.s 8)) with x := 0x27 } (fun x => 7 < x.t.kern.acc && x.octName (.v 16) 8) (fun x => let b := recOf x; mmaFmt .bf16 0 b.fmt && b.rank == 2 && b.base < 2 ^ 32 && (mmaBytes .bf16 b 0).all (fun a => x.s.scratchHas x.t a) && !x.arrayFull 7 && x.g.latch.isNone && x.usrc (.s 8) .ui64 64 == 2 ^ 20 + 3) = true ∧
    meets base 0xA3 (form 0xA3) free (fun x => !x.arrayFull (tileOf (form 0xA3).d)) = true ∧
    meets (withRec (mat2 0x0B 4 0 0x50000 0)) 0xA1 (ff .f32 0 (.c 2) (.s 4) (.reg (.v 0))) free (fun x => let r := recOf x; hasRec x && r.fmt == 0x0B && r.rank == 2 && !x.arrayFull 2 && readyIn x (r.cells.map fun c => { x.one (r.addr [c.2, c.1]) 4 .r with errOk := true })) = true ∧
    meets (withRec (mat2 0x0B 4 0 0x50000 0)) 0xA2 (ff .f32 0 (.c 2) (.s 4) (.reg (.v 0))) free (fun x => let r := recOf x; hasRec x && r.fmt == 0x0B && r.rank == 2 && !x.arrayFull 2 && readyIn x (r.cells.map fun c => x.one (r.addr [c.2, c.1]) 4 .w false (some true))) = true ∧
    meets base 0xA4 (ff .f32 0 (.v 8) (.c 2) (.imm 255)) (fun x => rowImmOk (ff .f32 0 (.v 8) (.c 2) (.imm 255)) && x.octName (.v 8) 8) (fun x => x.tileRow (ff .f32 0 (.v 8) (.c 2) (.imm 255)) ≤ 255 && !x.s.tileHeld 2 2) = true ∧
    meets base 0xA5 (ff .f32 0 (.c 2) (.v 8) (.imm 255)) (fun x => rowImmOk (ff .f32 0 (.c 2) (.v 8) (.imm 255)) && x.octName (.v 8) 8) (fun x => x.tileRow (ff .f32 0 (.c 2) (.v 8) (.imm 255)) ≤ 255 && !x.s.tileHeld 2 2) = true ∧
    ([0xA6, 0xA7].all fun op => meets base op (form op) free any1) = true := by decide +kernel

/-- A window of 2 rows of 4 BF16 logits at 0x50000 with its results at 0x51000, and that window armed. -/
def window : List Byte := mat2 0x0A 2 2 0x50000 0x51000
def armed : State :=
  let s := withRec window
  { s with lgfs := [{ ctx := 0, slot := 3, rcd := ShapeRec.ofBytes window, k := 64, temp := 0x3F800000, rows := [], pages := [(0x50, 0x50, none)] }] }

/-- K = 64 in a window of two rows; its last row; a shortlist of two entries. -/
theorem witness_LogitFilter :
    meets (withRec window) 0xB8 (ff .bf16 0 (.v 0) (.s 4) (.imm 64)) free (fun x => let r := recOf x; let ws := (r.windowPages ++ r.resultPages).map fun p => x.one (4096 * p) 0 .any false none; hasRec x && x.t.slot == 0 && x.lgfParams (ff .bf16 0 (.v 0) (.s 4) (.imm 64)) == some (64, 0x3F800000) && r.flags / 2 % 2 == 1 && r.fmt == Ty.bf16.code && r.rank == 2 && ready x ws && (pages x ws).all fun p => p.2.pa < Config.hbmEnd) = true ∧
    meets armed 0xB9 (ff .b32 0 (.s 6) (.s 4) (.imm 1)) free (fun x => let r := recOf x; match x.s.lgfOf 0 3 with | some h => x.srcBz x.low (.imm 1) .ui64 64 < r.dim 1 && ready x ((List.range ((h.result 1).length / 8)).map fun (i : Nat) => x.one (wrapInt 64 (r.sbase + 1024 + 8 * i)) 8 .w false none) && (match x.s.drainLines x.c.g (h.pages.flatMap fun p => (List.range 32).map fun k => 32 * p.2.1 + k) 80 with | .done _ => true | _ => false) | none => false) = true ∧
    meets (let s := withG (setU 6 0x52000); { s with mem := memWrite s.mem (located 0x52000 (leBytes 4 0 ++ leBytes 4 2)) }) 0xBA (ff .b32 0 (.v 8) (.s 6) (.reg (.s 7))) free (fun x => let word := (pages x [x.one 0x52000 8 .r]).map fun p => x.loadNat x.s p.2 8; word == [2 * 2 ^ 32] && ready x ((List.range 8).map fun (i : Nat) => x.one (wrapInt 64 (0x52000 + 8 * i)) 8 .r) && ready x ((List.range 2).map fun (i : Nat) => x.one (wrapInt 64 (0x52000 + (64 + 8 * i))) 8 .r)) = true := by decide +kernel

/-- The token server of die 0: its records at 0x80000, pages of 2 tokens, a tree of 4 nodes, in context 0. -/
def server : Serving :=
  { inbox := 0x80000, icnt := 0xA0000, log2in := 4, log2kv := 16, pt := 2, nnode := 4, nodes := 0x200000, evring := 0xB0000, log2ev := 6
    htr := [(0xC0000, 4, 0xD0000), (0, 0, 0), (0, 0, 0), (0, 0, 0)] }

/-- `base` with that server, s6 and s7 set, some bytes at 0x30000, a node 1 of the tree, and a sequence 5. -/
def serving (s6 s7 : Nat) (bs : List Byte) (refs : Nat := 1) : State :=
  let s := withG fun g => setU 6 s6 (setU 7 s7 g)
  { s with
    serving := [(0, server)], mem := memWrite s.mem (located 0x30000 bs)
    nodes := [{ die := 0, ctx := 0, id := 1, kv := 0, parent := 0, refs := refs, depth := 2, last := 0, toks := [7, 8] }]
    seqs := [{ die := 0, id := 5, ctx := 0, state := .run, pos := 3, mark := 4, seed := 9, pladdr := 0x70000, npg := 8 }] }
def treeOk (x : Gx) (n : Nat) : Bool :=
  x.t.slot == 0 && (aget x.s.serving 0).isSome && (x.s.partWait 0 .part (treeWants server 0)).isNone &&
  ready x ((List.range n).map fun (i : Nat) => x.one (wrapInt 64 (0x30000 + 4 * i)) 4 .r)

/-- A message to the last die of the ring; a sequence that is there and one that is not; a lookup of no token and of a block, an
insertion, a release. -/
theorem witness_ServingInstructions :
    meets (serving 0x30000 0 (leBytes 8 0x707)) 0xBB (ff .b32 0 (.v 0) (.s 6) (.reg (.v 0))) free (fun x => let ws := (List.range 8).map fun i => x.one (x.usrc (.s 6) .ui64 64 + 8 * i) 8 .r; ready x ws && drainsOk x false && leNat (((pages x ws).flatMap fun p => x.loadBytes x.s p.2 8).take 8) == 0x707 && 7 / x.s.ringSize == 0 / x.s.ringSize) = true ∧
    ([5, 6].all fun n => meets (serving 0 n []) 0xBC (ff .b32 0 (.s 3) (.v 0) (.reg (.s 7))) free fun x => (x.s.seqAt 0 (x.srcBz x.low (.reg (.s 7)) .ui64 64)).isSome == (n == 5)) = true ∧
    ([0, 2].all fun n => meets (serving 0x30000 n (leBytes 4 7 ++ leBytes 4 8)) 0xBD (ff .b32 0 (.s 3) (.s 6) (.reg (.s 7))) free fun x => treeOk x n) = true ∧
    meets (serving 0x30000 4 (leBytes 4 7 ++ leBytes 4 8)) 0xBE (ff .b32 0 (.s 3) (.s 6) (.reg (.s 7))) free (fun x => treeOk x 4 && ready x [x.one (wrapInt 64 (0x30010 + 8)) 8 .r]) = true ∧
    meets (serving 1 0 []) 0xBE (ff .b32 0 (.s 3) (.s 6) (.reg (.s 7))) free (fun x => treeOk x 0 && (x.s.node? 0 0 1).isSome) = true := by decide +kernel

/-- Every register read, and every one written. -/
theorem witness_SystemRegisters :
    ([0, 0x10].all fun n => meets base 0xC0 (ff .b32 0 (.v 4) (.v 0) (.imm (BitVec.ofNat 16 n))) (fun _ => sysOk n (.v 4)) any1) = true ∧
    ((List.range 0x14).all fun n => laneReg n || meets base 0xC0 (ff .b32 0 (.s 4) (.v 0) (.imm (BitVec.ofNat 16 n))) (fun _ => sysOk n (.s 4)) any1) = true ∧
    ((List.range 0x14).all fun n => laneReg n || meets base 0xC1 (ff .b32 0 (.v 0) (.s 4) (.imm (BitVec.ofNat 16 n))) (fun _ => sysOk n (.s 4)) any1) = true := by decide +kernel

def trapping (on : Bool) : State := withG fun g => { g with tvec := 0x4001, intrap := on }

/-- The software trap's own code and the lowest user code; a return inside a trap and outside; a return from a user interrupt. -/
theorem witness_Traps :
    ([0x23, 0x100].all fun n => meets (trapping false) 0xC2 (ff .b32 0 (.v 0) (.v 0) (.imm (BitVec.ofNat 16 n))) (fun _ => n = 0x23 || n ≥ 0x100) fun x => !x.g.silent && !x.g.intrap && x.g.tvec.getLsbD 0) = true ∧
    meets (trapping false) 0xC7 (form 0xC7) free (fun x => !x.g.silent && !x.g.intrap && x.g.tvec.getLsbD 0) = true ∧
    ([true, false].all fun b => meets (trapping b) 0xC3 (form 0xC3) free fun x => x.g.intrap == b && !x.g.oddPc x.g.trapping Lane.trapPc) = true ∧
    ([0, BitVec.allOnes 32].all fun (m : Word) => meets (withG fun g => { g with uigang := m }) 0xC6 (form 0xC6) free fun x => x.g.uigang == m && !x.g.oddPc x.c.lanes Lane.uiPc) = true ∧
    ([0xC3, 0xC6].all fun op => meets (withG fun g => { g with tvec := 0x4001, intrap := true, trapping := BitVec.allOnes 32, uigang := BitVec.allOnes 32, lanes := g.lanes.map fun l => { l with uiPc := 0x30002, trapPc := 0x30002 } }) op (form op) free fun x => if op = 0xC3 then x.g.oddPc x.g.trapping Lane.trapPc else x.g.oddPc x.c.lanes Lane.uiPc) = true := by decide +kernel

/-- An address off its line; a lane's window in the segment; nothing below to bring back, and no room for it; both done. -/
theorem witness_SpillAndFill :
    ([0xC4, 0xC5].all fun op => meets (withG (setU 6 0x30040)) op (ff .b32 0 (.v 0) (.s 6) (.reg (.v 0))) free fun x => x.usrc (.s 6) .ui64 64 % 128 != 0) = true ∧
    meets (withG (setU 6 0x30000)) 0xC4 (ff .b32 0 (.v 0) (.s 6) (.reg (.v 0))) free (fun x => (lanesOf x.g.live).any fun l => x.g.wb l < 64 * (x.g.sbot + 1)) = true ∧
    ([(0, 10), (1, 15)].all fun q => meets (withG fun g => setU 6 0x30000 { g with sbot := q.1, nseg := q.2, lanes := g.lanes.map fun l => { l with wb := 64 } }) 0xC5 (ff .b32 0 (.v 0) (.s 6) (.reg (.v 0))) free fun x => x.g.sbot == 0 || x.g.bseg + x.g.hseg ≤ x.g.nseg) = true ∧
    meets (withG fun g => setU 6 0x30000 { g with nseg := 11, lanes := g.lanes.map fun l => { l with wb := 64 } }) 0xC4 (ff .b32 0 (.v 0) (.s 6) (.reg (.v 0))) free (fun x => let ws := x.segWants 0x30000 x.g.sbot .w; ready x ws && plainOk 0 (pages x ws) && (lanesOf x.g.live).all (fun l => 64 * (x.g.sbot + 1) ≤ x.g.wb l) && (esOf 0 ((pages x ws).zipIdx.map fun p => (p.1.1, p.1.2, ((x.g.segment x.g.sbot).drop (128 * p.2)).take 128))).length ≤ 64) = true ∧
    meets (withG fun g => setU 6 0x30000 { g with sbot := 1, nseg := 10, lanes := g.lanes.map fun l => { l with wb := 64 } }) 0xC5 (ff .b32 0 (.v 0) (.s 6) (.reg (.v 0))) free (fun x => x.g.nseg < x.g.bseg + x.g.hseg && ready x (x.segWants 0x30000 0 .r)) = true := by decide +kernel

/-- TLBI of a page, of the last PASID, of all; HALT. -/
theorem witness_PrivilegedInstructions :
    ([0, 1, 2].all fun fn => meets (withG (setU 5 (2 ^ 20 - 1))) 0xC8 (ff .b32 fn (.v 0) (.s 6) (.reg (.s 5))) free fun x => x.usrcB (.reg (.s 5)) .ui64 64 == 2 ^ 20 - 1 && x.s.ctxs.all fun p => !x.s.translating p.1) = true ∧
    meets base 0xCB (form 0xCB) free any1 = true := by decide +kernel

def gridRec (flags : Nat) : List Byte := recBytes 0x50000 0x0B 1 flags [32, 1, 1, 1, 1] [4, 0, 0, 0, 0]
/-- A record's bytes at 0x30000, a context whose slots are free or all used, and a record in slot 3. -/
def defining (bs : List Byte) (slots : Nat) : State :=
  let s := withRec vec4 (setU 6 0x30000)
  { s.modCtx 0 (fun x => { x with shslots := slots }) with
    mem := memWrite s.mem (located 0x30000 bs), coh := { s.coh with moving := [(0xA00, ⟨2, 0⟩)] } }
/-- The line of an object, recalled for the gang's group. -/
def recalledFor (s : State) : State := { s with coh := { s.coh with moving := [(0xA00, ⟨2, 0⟩)] } }
def recalledOk (x : Gx) (lines : List Nat) : Bool :=
  lines.all fun m => !paDevice (128 * m) || ((x.s.ownerOf m).isNone && x.s.coh.recalled x.c.g m)
def defOk (x : Gx) (flags : Nat) : Bool :=
  let ws := (List.range 16).map fun k => x.one (x.usrc (.s 6) .ui64 64 + 8 * k) 8 .r
  let bs := (pages x ws).flatMap fun p => x.loadBytes x.s p.2 8
  let r := ShapeRec.ofBytes bs
  let qs := r.extent.map fun n => x.one (128 * n) 0 .r false none
  let lines := ((pages x qs).flatMap fun p => p.2.lines 128).eraseDups
  x.t.slot == 0 && ready x ws && r.valid (bs.take 12 ++ leBytes 2 (leNat ((bs.drop 12).take 2) / 2 ^ 12 * 2 ^ 12) ++ bs.drop 14) &&
  !r.featureOff x.feat && r.flags == flags && ready x qs && !x.s.overlaps 0 0 lines &&
  recalledOk x lines

/-- No free slot, a free one, a coherence object; a slot of a declared object let go; a record described. -/
theorem witness_ShapeRecords :
    meets (defining (gridRec 0) 0) 0xCD (ff .b32 0 (.s 3) (.s 6) (.reg (.v 0))) free (fun x => defOk x 0 && ((x.s.ctx? 0).bind Ctx.freeSlot).isNone) = true ∧
    ([0, 1].all fun k => meets (defining (gridRec k) 64) 0xCD (ff .b32 0 (.s 3) (.s 6) (.reg (.v 0))) free fun x => defOk x k && ((x.s.ctx? 0).bind Ctx.freeSlot).isSome) = true ∧
    ([[], [0xA00]].all fun d => meets (recalledFor ((withRec vec4).modSlot 0 3 fun q => { q with decl := d })) 0xCE (ff .b32 0 (.v 0) (.s 4) (.reg (.v 0))) free fun x => x.s.handleSlot 0 (2 ^ 20 + 3) == some 3 && recalledOk x d) = true ∧
    meets (withRec vec4) 0xCC (ff .b32 0 (.s 3) (.s 4) (.reg (.v 0))) free hasRec = true := by decide +kernel

/-- Each form of OCTL on a declared and on an undeclared object; both words of VERQ. -/
theorem witness_CoherenceObjects :
    ([[], [0xA00]].all fun d => [0, 1, 2, 3].all fun fn => meets (recalledFor ((withRec (gridRec 1)).modSlot 0 3 fun q => { q with decl := d })) 0xCF (ff .b32 fn (if fn = 3 then .s 3 else .zero) (.s 4) (.reg (.v 0))) (fun x => fn = 3 || octlD (ff .b32 fn .zero (.s 4) (.reg (.v 0))) x) fun x => hasRec x && x.t.slot == 0 && ready x ((recOf x).extent.map fun n => x.one (128 * n) 0 .r false none) && !x.s.overlaps 0 3 [0xA00] && (recalledOk x [0xA00] && (x.s.dropLine 0xA00).coh.held.isEmpty) && (match x.s.drainLines x.c.g [0xA00] 200 with | .done _ => true | _ => false)) = true ∧
    ([0, 1].all fun n => meets (withG (setU 7 n)) 0xD0 (ff .b32 0 (.s 3) (.v 0) (.reg (.s 7))) free fun x => x.srcBz x.low (.reg (.s 7)) .ui64 64 == n && (aget x.s.launches x.t.launch).isSome) = true := by decide +kernel

/-- The gang's group with no segment and the head of such a record at 0x30000. -/
def bare : State :=
  let s := withG fun g => setU 6 0x30000 { g with nseg := 0 }
  { s with mem := memWrite s.mem (located 0x30000 (leBytes 8 (10 + 5 * 2 ^ 8) ++ leBytes 40 0 ++
      leBytes 8 (1 + 96 * 2 ^ 8 + 8 * 2 ^ 16))) }
def ctxForm : FForm := ff .b32 0 (.v 0) (.s 6) (.reg (.v 0))
def headOk (x : Gx) : Bool :=
  let ws := x.areaWants 0x30000 64 .r
  let head := (pages x ws).flatMap fun p => x.loadBytes x.s p.2 8
  ready x ws && recordFits x.t.kern fun o n => leNat ((head.drop o).take n)

theorem bare_runs : ∀ op ∈ [0xC9, 0xCA], meets bare op ctxForm free (fun x => x.g.live == x.c.lanes &&
    x.usrc (.s 6) .ui64 64 == 0x30000 && x.t.ctx == 0 && x.t.slot == 0 && x.g.nseg == 0 && x.g.stbuf == [] && x.g.wcbuf == [] &&
    (x.s.grp? x.c.g).map Group.stbuf == some [] && (x.s.grp? x.c.g).map Group.wcbuf == some [] &&
    x.g.deferred.isNone && x.g.carried == 0 && (op != 0xCA || headOk x)) = true := by decide +kernel

theorem bare_flat : Flat bare 0 :=
  ⟨⟨bareCtx, by decide +kernel, rfl⟩, by decide +kernel, by decide +kernel, by decide +kernel, rfl⟩
theorem bare_quiet : Quiet bare := ⟨rfl, rfl, rfl, rfl, rfl⟩

/-- The accesses of a whole record pass in `bare`. -/
theorem bare_area {x : Gx} {s : State} (hs : s = bare) (hx : x.s = s) (hc : x.t.ctx = 0) (ht : x.t.slot = 0)
    (hb : x.g.stbuf = []) (n : Nat) (hn : n ≤ 2 ^ 20)
    (need : Need) : Passed x (x.areaWants 0x30000 n need) ((x.areaWants 0x30000 n need).map fun w => (w, pteLeaf 0x7F 2 w.va)) := by
  subst hs
  refine gather_ready _ (fun w hw => ?_) (noRoom_slot0 ht _ _) (by simp [Group.unresolved, hb])
  obtain ⟨k, hk, rfl⟩ := List.mem_map.1 hw
  have := List.mem_range.1 hk
  rw [hx]
  exact chk_flat (hc ▸ bare_flat) bare_quiet ht _ (.inr (by show (0x30000 + 8 * k) % 8 = 0; omega))
    (show 0x30000 + 8 * k < 2 ^ 30 by omega)

theorem witness_PrivilegedInstructions_save : ∃ x ps t g, Runs bare 0xC9 ctxForm free x ∧ x.g.live = x.c.lanes ∧
    x.usrc ctxForm.a .ui64 64 % 4096 = 0 ∧ Passed x (x.areaWants (x.usrc ctxForm.a .ui64 64) (65536 + 8192 * x.g.nseg) .w) ps ∧
    DrainsLines x ps t ∧ t.grp? x.c.g = some g ∧ g.wcbuf = [] := by
  obtain ⟨x, hr, h⟩ := meets_runs (bare_runs 0xC9 (by decide))
  simp only [Bool.and_eq_true, beq_iff_eq] at h
  obtain ⟨⟨⟨⟨⟨⟨⟨⟨⟨⟨⟨hl, hu⟩, hc⟩, ht⟩, hn⟩, hb⟩, -⟩, hs⟩, hw⟩, -⟩, -⟩, -⟩ := h
  obtain ⟨-, -, -, hx, -⟩ := openGang_eq hr.1
  obtain ⟨g, hg, hs⟩ := Option.map_eq_some_iff.1 hs
  rw [hg] at hw
  injection hw with hw
  have hu' : x.usrc ctxForm.a .ui64 64 = 0x30000 := hu
  have hps := bare_area rfl hx hc ht hb (65536 + 8192 * x.g.nseg) (by rw [hn]; decide) .w
  refine ⟨x, _, x.s, g, hr, hl, by rw [hu'], hu'.symm ▸ hps, drainLines_empty hg hs hw _ _, hg, hw⟩

theorem witness_PrivilegedInstructions_restore : ∃ x hs ps t, Runs bare 0xCA ctxForm free x ∧ x.g.live = x.c.lanes ∧
    x.usrc ctxForm.a .ui64 64 % 4096 = 0 ∧ Passed x (x.areaWants (x.usrc ctxForm.a .ui64 64) 64 .r) hs ∧
    (let head := hs.flatMap fun p => x.loadBytes x.s p.2 8
     let rh := fun (o n : Nat) => leNat ((head.drop o).take n)
     let y := { x with s := t, g := (t.grp? x.c.g).getD x.g }
     recordFits x.t.kern rh = true ∧ Drains x true t ∧
     Passed y (x.areaWants (x.usrc ctxForm.a .ui64 64) (65536 + 8192 * (rh 0 8 / 2 ^ 48 % 16)) .r) ps) := by
  obtain ⟨x, hr, h⟩ := meets_runs (bare_runs 0xCA (by decide))
  simp only [Bool.and_eq_true, beq_iff_eq, bne_self_eq_false, Bool.false_or, headOk, Option.isNone_iff_eq_none] at h
  obtain ⟨⟨⟨⟨⟨⟨⟨⟨⟨⟨⟨hl, hu⟩, hc⟩, ht⟩, -⟩, hb⟩, -⟩, hs⟩, hw⟩, hd⟩, hcar⟩, hk, hf⟩ := h
  obtain ⟨-, hteam, hgrp, hx, -⟩ := openGang_eq hr.1
  have hg : x.s.grp? x.c.g = some x.g := by rw [hx]; simp [State.grp?, hteam, hgrp]
  rw [hg] at hs hw
  injection hs with hs
  injection hw with hw
  have hu' : x.usrc ctxForm.a .ui64 64 = 0x30000 := hu
  obtain ⟨hd1, hd2⟩ : (∀ t, x.s.drainAll x.c.g true = t → t = .done x.s) ∧
      (x.s.grp? x.c.g).bind Group.deferred = none ∧ ((x.s.grp? x.c.g).map Group.carried).getD 0 = 0 := by
    refine ⟨?_, by rw [hg]; exact hd, by rw [hg]; exact hcar⟩
    rintro t rfl
    simp [State.drainAll, hg, hs, hw, State.drainMany]
  obtain ⟨hs', hp⟩ := ready_passed hk
  have he : pages x (x.areaWants 0x30000 64 .r) = hs' := by unfold pages; rw [hp.1]
  rw [he] at hf
  have hps := bare_area (x := { x with s := x.s, g := (x.s.grp? x.c.g).getD x.g }) hx rfl hc ht (by simp [hg, hb])
    (65536 + 8192 * (leNat ((((hs'.flatMap fun p => x.loadBytes x.s p.2 8).drop 0).take 8)) / 2 ^ 48 % 16)) (by omega) .r
  exact ⟨x, hs', _, x.s, hr, hl, by rw [hu'], hu'.symm ▸ hp, hf, ⟨hd1 _ rfl, hd2⟩, hu'.symm ▸ hps⟩

/-- Every lane of the group waits on something. -/
def waiting (w : Wait) (g : Group → Group := id) : State :=
  withG fun h => g { h with lanes := h.lanes.map fun l => { l with wait := w } }

/-- A condition on a state's group 0 of team 2. -/
def onG (s : State) (p : Team → Group → Bool) : Bool :=
  match s.team? 2 with
  | some t => match t.groups[0]? with | some g => p t g | none => false
  | none => false

def leafAt (s : State) (a : Agent) (va : Nat) (n : Need) (p : Leaf → Bool) : Bool :=
  match s.translate 0 a va n, s.reach 0 a va n 4, s.reach 0 a va n 8 with | .ok l, .ok m, .ok k => l == m && l == k && p l | _, _, _ => false

/-- A JOIN of the gang; barrier 14, and 15 of the cluster; a word that has just reached its value, of both widths; a sleep that
ends now, without and with a promise, kept and missed; a phase that has passed; copies at rest; a slot of a ring. -/
theorem witness_WaitsEnd :
    onG (waiting (.join 0xFFFFFFFF)) (fun _ g => g.joined 31) = true ∧
    onG ((waiting (.bar 14)).modTeam 2 Team.noteArrivals) (fun t _ => t.arrived false 14 && t.groups.any fun g => g.at_ false 14) = true ∧
    (let s := (waiting (.cbar 15)).modTeam 2 Team.noteArrivals; onG s fun t _ => (s.cluster t).all (fun p => p.2.arrived true 15) && (s.cluster t).any fun p => p.2.groups.any fun g => g.at_ true 15) = true ∧
    ([true, false].all fun wide => let s := waiting (.seq 0x30000 wide 0); onG s fun t g => g.waitOf 31 == .seq 0x30000 wide 0 && g.unresolved == 0 && leafAt s (.lane ⟨2, 0⟩ 31) 0x30000 .r fun l => let n := if wide then 8 else 4; (l.lines n).all (fun k => (s.ownerOf k).isNone && !s.marked (some t.clusterSid) k) && !s.poisoned l n && (s.coh.lacks (halvesOf l.pa n) false).isEmpty && seqReached (8 * n) (leNat (s.readBytes t g l n)) 0) = true ∧
    (let s := waiting (.sleep 0 none); onG s fun t g => g.waitOf 31 == .sleep 0 none && !g.barred (g.waiters 31) && s.stepTurn t g (g.waiters 31) && 0 ≤ s.cycle) = true ∧
    (let s := waiting (.sleep 0 none) fun g => { g with step := some { lanes := 0, left := 0 } }; onG s fun t g => !g.barred (g.waiters 31) && s.stepTurn t g (g.waiters 31)) = true ∧
    ([0, 1].all fun k => let s := waiting (.sleep 0 (some 7)) fun g => { g with count := modAt g.count 7 fun _ => k }; onG s fun t g => g.waitOf 31 == .sleep 0 (some 7) && !g.barred (g.waiters 31) && s.stepTurn t g (g.waiters 31) && g.countOf 7 == k && (g.lane? 31).isSome) = true ∧
    (let s := (waiting (.bobj 64 0 false)).scratchWrite 2 64 (leBytes 8 (2 ^ 32)); onG s fun t g => g.waitOf 31 == .bobj 64 0 false && match s.scratchAt t 64 8 with | some p => s.scratchNat p.1 p.2 8 / 2 ^ 32 != 0 | none => false) = true ∧
    onG (waiting (.acwait (some 7))) (fun _ g => g.acDone (some 7)) = true ∧
    (let s := (waiting (.awf 128 (.s 5))).scratchWrite 2 128 (leBytes 2 4 ++ leBytes 2 1 ++ leBytes 4 4); onG s fun t g => g.waitOf 31 == .awf 128 (.s 5) && match s.scratchAt t 128 64 with | some p => (s.ringAt p.1 p.2).consistent && (s.takeSlot p.1 p.2 128).isSome | none => false) = true := by decide +kernel

/-- A copy of 16 bytes from 0x30000, a buffered store of one byte there, a group with no lane left. -/
def aCopy : Copy := { tag := 1, va := 0x30000, data := none, src := some (pteLeaf 0x7F 2 0x30000), team := 2, dst := 0, valid := 16, size := 16, pc := 0 }
def anEntry : StEntry := { line := 0x600, lanes := [], pa := some 0x600, bytes := [(0, 7)], through := false, rd := 0 }
def gone (g : Group) : Group := { g with lanes := g.lanes.map fun l => { l with exited := true } }

/-- A group that last issued 64 cycles ago; a copy; the oldest entry of each buffer; a tile operation; the last and the last but
one group of a team; a user interrupt. -/
theorem witness_GroupEvents :
    (let s := { base with core := 64 }; onG s fun _ g => g.ready != 0 && g.lastIss + 64 ≤ s.core) = true ∧
    (let s := withG fun g => { g with flight := [aCopy] }; onG s fun t g => g.flight[0]? == some aCopy && (s.coh.lacks (halvesOf 0x30000 16) false).isEmpty && (s.copySource t aCopy).isSome && !s.poisoned (pteLeaf 0x7F 2 0x30000) 16) = true ∧
    ([true, false].all fun c => let s := withG fun g => if c then { g with wcbuf := [anEntry] } else { g with stbuf := [anEntry] }; onG s fun t _ => (t.place matches .core _ _) && match s.drainEntry ⟨2, 0⟩ c 0 with | .done _ => true | _ => false) = true ∧
    ([true, false].all fun saved => let s := (withG fun g => { g with unacked := 1 }).modTeam 2 fun t => if saved then { t with place := .saved } else t; (s.savedField ⟨2, 0⟩ 0x38).isSome == saved && onG s fun _ g => g.unacked != 0) = true ∧
    (let j : TileJob := { team := 2, grp := 0, tile := 7, op := .zero, pc := 0 }; let s := { base with tileJobs := [j] }; s.tileJobs[0]? == some j && (j.op.lacks s.coh).isEmpty && j.op.bad.isNone && match s.team? 2 with | some t => s.tileRoom t j.op | none => false) = true ∧
    (let s := withT fun t => { t with groups := t.groups.map gone ++ t.groups }; onG s fun t g => g.finished && t.groups.zipIdx.any fun p => p.2 != 0 && !p.1.ended) = true ∧
    (let s := withG gone; onG s fun t g => g.finished && t.groups.zipIdx.all (fun p => p.2 == 0 || p.1.ended) && !s.arrayBusy 2) = true ∧
    (let s := (waiting (.bar 0) fun g => { g with uip := true }).modCtx 0 fun x => { x with uivec := 0x30000 }; onG s fun _ g => (g.waitOf 0).interruptible && (s.deliverable ⟨2, 0⟩ (g.waiters 0)).isSome) = true := by decide +kernel

/-- One byte at the end of a line. -/
theorem witness_StoreDrainWritesItsBytes :
    (let e : StEntry := { line := 0x600, lanes := [], pa := some 0x600, bytes := [(127, 7)], through := false, rd := 0 }; let s := withG fun g => { g with stbuf := [e] }; onG s fun t g => g.stbuf[0]? == some e && (t.place matches .core _ _) && leafAt s (.drain ⟨2, 0⟩) e.va .w fun l => l.mxa.isNone && !l.vers && !l.nvio && e.va % 128 ≤ l.pa && l.pa + 256 < Config.hbmEnd && (s.ownerOf (l.pa / 128)).isNone && match execStoreDrain ⟨2, 0⟩ 0 false s with | .next _ => true | _ => false) = true := by decide +kernel

/-- `base` with a launch of two teams of which none is placed. -/
def launched (rows cols : Nat) : State :=
  { base with
    teams := [], cur := none
    launches := [(1, { bareLaunch 0 with kern := { bareKernel with rows := rows, cols := cols, acc := 1 }, nx := rows * cols, next := 0 })] }
/-- The only team of a die's core, every lane at a safe point and asked to yield. -/
def yielding : State :=
  (waiting (.bar 0) fun g => { g with yreq := true, lanes := g.lanes.map fun l => { l with stopped := true } }).modCtx 0 fun x =>
    { x with state := .preempting, savesize := 0x400000 }
def aZone : Zone := { team := 2, die := 0, core := 0, units := 1 }
def placeAt (p : Place) (inbound : Nat) (endedAt : Option Nat) : State :=
  withT fun t => { t with place := p, inbound := inbound, endedAt := endedAt }

/-- A cluster of the whole mesh admitted; a team swapped out; a lane that reaches no safe point; draining and zeroing of a
scratchpad; a team saved. -/
theorem witness_TeamEvents :
    ([(1, 1), (6, 8)].all fun q => let s := launched q.1 q.2; match aget s.launches 1 with | some l => s.admits l.ctx && !s.hazardous l && (s.fuseRect 7 0 l.kern.rows l.kern.cols).coh.fusedAs 7 0 l.kern.rows l.kern.cols && rectOk l.kern 0 && (rectCores l.kern 0).all (fun c => s.coreFits l.kern 7 c) && l.next < l.total | none => false) = true ∧
    (let s := { (waiting (.bar 0)).modCtx 0 (fun x => { x with savesize := 0x400000 }) with core := 0x10000, launches := [(1, { bareLaunch 0 with next := 0 })] }; bits64 (s.reg 0x7F0100 0x10000) 0 32 == 0x10000 && (s.teams.all fun p => p.2.groups.all fun g => g.lastIss + 0x10000 ≤ s.core) && s.teamsWait && (s.teams.filter (fun p => p.2.place == .core 0 0 && p.2.endedAt.isNone)).length == 1 && onG s fun t _ => (s.cluster t).all (fun q => q.2.blockedSince.isSome) && s.poolFits t.ctx ((s.cluster t).map fun q => q.2.kern.teamSize) && t.groups.all fun g => !g.yreq) = true ∧
    (let s := { withG (fun g => { g with yreq := true }) with core := 2 ^ 20 }; (s.teams.filter fun p => p.2.ctx == 0).length == 1 && onG s fun t g => t.groups.length == 1 && g.yreq && !g.yielded && g.yreqAt + 2 ^ 20 ≤ s.core && g.lanes.any fun l => !l.exited && !l.stopped) = true ∧
    onG (placeAt (.draining 0 0) 0 none) (fun t _ => t.place == .draining 0 0 && t.inbound == 0) = true ∧
    onG (placeAt (.zeroing 0 0) 0 none) (fun t _ => t.place == .zeroing 0 0 && t.inbound == 0 && base.zones.all (fun z => z.team != 2) && t.groups.all fun g => g.flight.isEmpty) = true ∧
    ([aZone].findIdx? fun z => z.team == 2) = some 0 ∧
    (let s := { placeAt (.draining 0 0) 1 (some 0) with cycle := 64000 }; onG s fun t _ => t.endedAt == some 0 && 64000 ≤ s.cycle && t.inbound != 0) = true ∧
    onG yielding (fun t _ => (yielding.cluster t).all (fun p => yielding.saveReady p.1 p.2) && (yielding.poolFor t).isSome && match (yielding.cluster t).foldl (fun (d : Drain) p => match d with | .done u => u.drainForSave p.1 p.2.groups.length | .wait u => .wait u) (.done yielding) with | .done u => (u.poolFor t).isSome | _ => false) = true := by decide +kernel

def withReq (q : PageReq) : State := base.modCtx 0 fun x => { x with reqs := [q], inval := [5] }
def aReq (pri write : Bool) : PageReq := { page := 5, write := write, pri := pri, again := false, waiters := [(.part, write)], sent := true }

/-- Requests that have all gone out; as many as may be out; one that waits to go. A translation with R and W for a waiting read
and write, a page response for each, an invalidation. -/
theorem witness_TranslationEvents :
    ((withReq (aReq false false)).ctxs.all fun p => p.2.reqs.all PageReq.sent) = true ∧
    (1024 ≤ (base.modCtx 0 fun x => { x with reqs := List.replicate 1024 (aReq false false) }).outstanding false) = true ∧
    (let s := base.modCtx 0 fun x => { x with reqs := [aReq false false, { aReq false true with sent := false }] }; s.outstanding false == 1 && match s.ctxs with | [(0, x)] => x.reqs[1]? == some { aReq false true with sent := false } && (x.reqs.take 1).all PageReq.sent | _ => false) = true ∧
    ([true, false].all fun w => match (withReq (aReq false w)).ctx? 0 with | some x => (x.reqs.findIdx? fun q => !q.pri && q.page == 5 && q.sent) == some 0 && (aReq false w).waiters.all fun a => (if a.2 then w else true) | none => false) = true ∧
    ([true, false].all fun w => match (withReq (aReq true w)).ctx? 0 with | some x => (x.reqs.findIdx? fun q => q.pri && q.page == 5 && q.write == w) == some 0 | none => false) = true ∧
    (let s := withReq (aReq false false); (s.ctxs.map fun p => p.2.inval.length).sum < 32 && match s.ctx? 0 with | some x => x.inval.contains 5 && !s.pageInUse 0 5 | none => false) = true := by decide +kernel

/-- A request for line 1024 of object (0, 0), with or without its part in the home's slice. -/
def coh (k : ReqKind) (part : Bool) : State :=
  let o := base.objOf 1024
  { base with coh := { base.coh with
      reqs := [{ kind := k, sid := 1, line := 1024, rd := 0, pend := [], served := false, data := [] }]
      parts := if part then [{ home := homeOf 1024, obj := o, sharers := [{ sid := 2, count := 1, hold := none }], writers := [], bcast := false
                               answered := [], used := 0, evicting := false }] else [] } }
def msgs : State :=
  let o := base.objOf 1024
  { base with coh := { base.coh with
      held := [{ sid := 1, line := 1024, st := 1, rrpv := 0, way := 0 }]
      acks := [{ sid := 1, line := 1024, obj := o, carried := 1, a := 0, granted := 0 }, { sid := 1, line := 1024, obj := o, carried := 1, a := 7, granted := 0 }]
      notices := [{ sid := 1, line := 1024, obj := o, n := 1 }]
      recalls := [{ n := 0, sid := 1, line := 1024, obj := o, share := false, granted := 0 }]
      grants := [{ n := 0, sid := 2, line := 1024, st := 0, rd := 0 }, { n := 0, sid := 3, line := 1024, st := 1, rd := 0 }] } }

/-- The notice, and a record of its sharer with a count and a hold. -/
def noticed (count : Nat) (hold : Option (Nat × Nat)) : State :=
  { msgs with coh := { msgs.coh with parts := [{ home := homeOf 1024, obj := base.objOf 1024, sharers := [{ sid := 1, count := count, hold := hold }],
                                                 writers := [], bcast := false, answered := [], used := 0, evicting := false }] } }

/-- Each kind of request with and without a part; an acknowledgement in order and one to hold; a notice, alone, of the last line
and of one of two, and that resolves a hold, leaves it or resolves it to none; a recall, grants of S and E. -/
theorem witness_CoherenceEvents :
    ([ReqKind.read, .own, .atHome, .move].all fun k => [true, false].all fun p => let s := coh k p; match s.coh.reqs[0]? with | some q => q.kind == k && !q.served && s.coh.firstOf 0 q && !s.movingNow q.line && !s.marked (some q.sid) q.line && s.coh.parts.all (fun p => !p.evicting) && (s.coh.part? (homeOf q.line) (s.objOf q.line)).isSome == p && !s.coh.full (homeOf q.line) | none => false) = true ∧
    (msgs.coh.parts.all fun p => !p.bcast) = true ∧
    (match msgs.coh.acks[0]?, msgs.coh.acks[1]? with | some a, some b => a.a == ((aget msgs.coh.taken (8 * a.sid + homeOf a.line)).getD 0) && b.a != ((aget msgs.coh.taken (8 * b.sid + homeOf b.line)).getD 0) | _, _ => false) = true ∧
    (msgs.coh.notices.length == 1 && msgs.coh.leaving.isEmpty) = true ∧
    ([(1, none), (2, none), (0, some (5, 1)), (0, some (5, 2)), (0, some (0, 1))].all fun q => let s := noticed q.1 q.2; s.coh.leaving.isEmpty && match s.coh.notices[0]? with | some n => ((s.coh.parts.filter fun p => p.is (homeOf n.line) n.obj).map fun p => p.sharers.filter fun r => r.sid == n.sid) == [[{ sid := n.sid, count := q.1, hold := q.2 }]] && (q.2.isSome || 0 < q.1) | none => false) = true ∧
    (msgs.coh.recalls.all fun r => msgs.coh.inOrder r.n r.sid r.line && !msgs.mustWrite r.sid r.line && !msgs.markedIn r.sid r.line) = true ∧
    (msgs.coh.grants.all fun g => msgs.coh.inOrder g.n g.sid g.line && (msgs.coh.held? g.sid g.line).isNone && g.sid != sidHost && msgs.fillOk g.sid g.line) = true := by decide +kernel

/-- A home full of entries of another object. -/
def fullPart : OctPart :=
  { home := homeOf 1024, obj := { decl := true, id := 0 }, sharers := [], writers := [], bcast := false, answered := [], used := 0
    evicting := false }
def fullHome (k : ReqKind) : State :=
  let s := coh k false
  { s with coh := { s.coh with parts := List.replicate 65536 fullPart } }
theorem foldl_some {α : Type} (f : α → α → α) : ∀ (l : List α) (m : α),
    ∃ p, l.foldl (fun m p => match m with | some q => some (f q p) | none => some p) (some m) = some p
  | [], m => ⟨m, rfl⟩
  | a :: l, m => foldl_some f l (f m a)
theorem oldest_of_full {c : Coh} {home : Nat} (h : c.full home = true) : ∃ p, c.oldest home = some p := by
  unfold Coh.full at h
  unfold Coh.oldest
  cases hl : c.parts.filter fun p => p.home == home with
  | nil => rw [hl] at h; exact absurd h (by decide)
  | cons a l =>
    obtain ⟨p, hp⟩ := foldl_some (fun (q p : OctPart) => if p.used < q.used then p else q) l a
    refine ⟨p, ?_⟩
    rw [List.foldl_cons, ← hp]
    congr 1
    funext m p
    cases m with
    | none => rfl
    | some q => show (if p.used < q.used then some p else some q) = some _; split <;> rfl

theorem witness_FullHome (k : ReqKind) : ∃ q p, (fullHome k).coh.reqs[0]? = some q ∧ q.kind = k ∧ q.served = false ∧
    (fullHome k).coh.firstOf 0 q = true ∧ (fullHome k).movingNow q.line = false ∧
    (fullHome k).coh.part? (homeOf q.line) ((fullHome k).objOf q.line) = none ∧ (fullHome k).coh.full (homeOf q.line) = true ∧
    (∀ y ∈ (fullHome k).coh.parts, y.home = homeOf q.line → y.evicting = false) ∧
    (fullHome k).coh.oldest (homeOf q.line) = some p := by
  have hf : (fullHome k).coh.full (homeOf 1024) = true := by
    simp only [fullHome, Coh.full, List.filter_replicate]
    rw [if_pos (by decide), List.length_replicate]
    rfl
  obtain ⟨p, hp⟩ := oldest_of_full hf
  refine ⟨_, p, rfl, rfl, rfl, ?_, ?_, ?_, hf, ?_, hp⟩
  · cases k <;> decide +kernel
  · cases k <;> decide +kernel
  · have ho : (({ decl := true, id := 0 } : ObjId) == (fullHome k).objOf 1024) = false := by cases k <;> decide +kernel
    refine List.find?_eq_none.2 fun y hy => ?_
    obtain ⟨-, rfl⟩ := List.mem_replicate.1 hy
    exact fun h => Bool.noConfusion (ho.symm.trans (Bool.and_eq_true_iff.1 h).2)
  · intro y hy _
    obtain ⟨-, rfl⟩ := List.mem_replicate.1 hy
    rfl

/-- A host half held in a state, and a request for another. -/
def halfState (n : Nat) : State :=
  { base with coh := { base.coh with halves := if n = 0 then [] else [(2 ^ 46, n)], halfReqs := [{ half := 2 ^ 46 + 1, write := true, pages := [], ahead := none }] } }

/-- A half in each state; a completion of the request for a half at the bottom of host memory; device lines of the first half and
of the last. -/
theorem witness_HostLink :
    ((List.range 4).all fun n => (aget (halfState n).coh.halves (2 ^ 46)).getD 0 == n && (halfState n).teams.all fun p => !p.2.inRegion) = true ∧
    (((halfState 0).coh.halfReqs.find? fun q => q.half == 2 ^ 46 + 1).isSome && (aget (halfState 0).coh.halves (2 ^ 46 + 1)).isNone && Config.hostBase ≤ 64 * (2 ^ 46 + 1)) = true ∧
    ([0, Config.hbmEnd / 64 - 1].all fun h => 64 * h < Config.hostBase && base.hdm.1 ≤ 64 * h && 64 * h + 64 ≤ base.hdm.1 + base.hdm.2 && !base.lineFenced (h / 2) && paDevice (64 * h) && !base.coh.hosted.contains h && !base.marked none (h / 2) && { base with coh := { base.coh with hosted := [h] } }.coh.hosted.contains h) = true ∧
    ((halfState 0).coh.halfReqs.all fun q => q.ahead.isNone) = true ∧
    ({ base with coh := { base.coh with marks := [{ line := 0, grp := ⟨2, 0⟩, left := 1 }], hosted := [0] } }.marked none (0 / 2)) = true ∧
    (let s := { base with hdm := (64, 64) }; s.hdm.1 == 64 && s.hdm.1 + s.hdm.2 < 64 * 2 + 64) = true ∧
    (let g : Grant := { n := 0, sid := sidHost, line := 5, st := 0, rd := 1 }; let s := { base with coh := { base.coh with grants := [g] } }; s.coh.grants[0]? == some g && s.coh.inOrder g.n g.sid g.line && !s.marked none g.line && !s.coh.hosted.contains 11) = true := by decide +kernel

/-- A card of 128 bytes from its parts at their offsets. -/
def cardOf (fs : List (Nat × Nat × Nat)) : List Byte :=
  fs.foldl (fun c f => c.take f.1 ++ leBytes f.2.1 f.2.2 ++ c.drop (f.1 + f.2.1)) (List.replicate 128 0)

/-- A linear card of 16 bytes from 0x50000 to 0x52000; the same into the scratchpad as a ring fill. -/
def linear : List Byte := cardOf [(0, 1, 1), (0x10, 8, 0x50000), (0x18, 8, 0x52000), (0x20, 8, 16)]
def filling : List Byte := cardOf [(0, 1, 1), (1, 1, 0x0A), (0x10, 8, 0x50000), (0x20, 8, 16), (0x48, 4, 0x100)]

/-- A chain of team 2 at the control block 0x60000, with its engine changed, a job, and a card at its HEAD. -/
def chained (tail head : Nat) (card : List Byte) (job : Option Job) (f : Chain → Chain := id) : State :=
  let s := withCcb tail head
  { s with
    mem := memWrite s.mem (located (0x61000 + 128 * (head % 16)) card)
    chains := [(0, f { ctx := 0, ccb := 0x60000, engine := 0, die := 0, core := 0, queue := [2], bound := none, job := job, stop := none
                       packet := none, origin := [], posts := [] })] }
def jobOf (card : List Byte) (f : Job → Job := id) : Job := f (Job.new 1 card 0x61000 (some 2))

/-- The chain's condition that a check states. -/
def onChain (s : State) (p : Chain → Bool) : Bool := match s.liveChain 0 with | some c => p c | none => false
def onJob (s : State) (p : Chain → Job → Bool) : Bool := onChain s fun c => match c.job with | some j => p c j | none => false

/-- The state after a step of the chain. -/
def ran (i : Instr) (s : State) : State := match exec i s with | .next t => t | _ => s
/-- A linear card whose segment has issued and owns its line. -/
def issued : State :=
  let s := ran (.segmentIssue 0) (chained 1 0 linear (some (jobOf linear)))
  { s with coh := { s.coh with reqs := [], held := [{ sid := s.chainSid (((s.liveChain 0).getD { ctx := 0, ccb := 0, engine := 0, die := 0, core := 0, queue := [], bound := none, job := none, stop := none, packet := none, origin := [], posts := [] })), line := 0xA40, st := 2, rrpv := 0, way := 0 }] } }
def recalled : State := { issued with coh := { issued.coh with recalls := [{ n := 0, sid := (issued.coh.held.headD { sid := 0, line := 0, st := 0, rrpv := 0, way := 0 }).sid, line := 0xA40, obj := issued.objOf 0xA40, share := false, granted := 0 }] } }
/-- A ring of four slots at 0x100 of the team's scratchpad and a fill that has issued. -/
def filled : State :=
  ran (.segmentIssue 0) ((chained 1 0 filling (some (jobOf filling))).scratchWrite 2 0x100 (leBytes 2 4 ++ leBytes 2 1))

/-- RNGI on a ring that a job fills. -/
theorem witness_CopyRings_filling :
    meets ((chained 1 0 filling (some (jobOf filling))).modGrp ⟨2, 0⟩ (setU 6 0x100)) 0x95 (ff .b32 0 (.v 0) (.s 6) (.imm 0x0101)) free (fun x => (x.s.scratchAt x.t (x.scratchUni (.s 6)) 192).isSome && x.s.filling 2 0x100) = true := by decide +kernel

/-- A matrix job with the record of a BF16 matrix as both operands. -/
def matrixJob (fin : Bool) (iss : Bool) : Job :=
  { jobOf (cardOf [(0, 1, 0x10), (2, 1, 0x0A), (3, 1, 0x0A), (0x15, 1, 1), (0x16, 2, 16), (0x40, 8, 0x100FF), (0x48, 8, 0x100FF), (0x50, 8, 0x100FF), (0x58, 8, 0x100FF), (0x60, 8, 0x100FF)]) with
    recs := [(3, ShapeRec.ofBytes (mat2 0x0A 2 0 0x50000 0)), (4, ShapeRec.ofBytes (mat2 0x0A 2 0 0x50000 0))]
    cursor := [0, 0, 0, 0, 0], finished := fin, issued := iss }
def matrixState (fin iss yields : Bool) : State :=
  let s := chained 1 0 [] (some (matrixJob fin iss)) fun c => { c with engine := 9, bound := some 2 }
  s.modGrp ⟨2, 0⟩ fun g => { g with yreq := yields }

/-- A chain whose control block names its engine. -/
def onEngine (e : Nat) (card : List Byte) (job : Option Job) : State :=
  let s := chained 1 0 card job fun c => { c with engine := e, bound := if e = 9 then some 2 else none }
  { s with mem := memWrite s.mem (located 0x6000C (leBytes 2 e)) }

/-- A matrix card whose operands are the record in slot 3, and that record. -/
def matrixCard : List Byte :=
  cardOf [(0, 1, 0x10), (2, 1, 0x0A), (3, 1, 0x0A), (4, 4, 2 ^ 20 + 3), (8, 4, 2 ^ 20 + 3), (0x15, 1, 1), (0x16, 2, 16), (0x19, 1, 1), (0x40, 8, 0x100FF), (0x48, 8, 0x100FF), (0x50, 8, 0x100FF), (0x58, 8, 0x100FF), (0x60, 8, 0x100FF)]
def recorded (s : State) : State :=
  { s.modCtx 0 (fun x => { x with slots := [(3, { gen := 1, used := true, decl := [], held := 0 })] }) with
    mem := memWrite s.mem (located 0x40180 (mat2 0x0A 2 0 0x50000 0)) }
def takesCard (s : State) (e : Nat) : Bool :=
  onChain s fun c => c.job.isNone && c.packet.isNone && c.queue != [] && !s.chainFenced c && !s.chainUnderTest c && c.engine == e &&
    (e != 8 || s.running c.die c.core 8 < 32) && match s.readCcb 0 c with
    | .ok _ b => ccbOk b && ccbField b 0x0C 2 == c.engine && (match s.reach c.ctx (.chain 0) (ccbField b 0 8 + 128 * (ccbField b 0x18 8 % ccbField b 8 4)) .r 128 with
      | .ok l => s.coh.lacks (halvesOf l.pa 128) false == [] && !s.poisoned l 128 && !(l.lines 128).any (s.marked none)
      | _ => false)
    | _ => false

/-- A linear card in the last slot of a ring, and its whole ring behind it; one of engines 8 and 9; a COPY packet's card; a card
that is refused and one that starts; a matrix card that starts. -/
theorem witness_EngineEvents_take :
    ([(1, 0), (16, 15), (31, 15)].all fun q => takesCard (chained q.1 q.2 linear none) 0) = true ∧
    ([8, 9].all fun e => takesCard (onEngine e linear none) e) = true ∧
    (let s := chained 0 0 [] none fun c => { c with queue := [], packet := some { thread := 0, seq := 5, card := linear } }; onChain s fun c => c.job.isNone && c.packet.isSome && !s.chainFenced c && !s.chainUnderTest c) = true ∧
    (let j := jobOf (cardOf [(0, 1, 15)]); !j.scr && !j.copyOk 0) = true ∧
    ([some 2, none].all fun n => let s := chained 1 0 linear none; let j := { jobOf linear with team := n }; !j.scr && j.copyOk 0 && j.kind != 2 && match j.team.bind s.team? with | some t => j.at_ 2 2 < 2 ^ t.cores && s.targetBad j == none | none => !j.aims) = true ∧
    (let s := recorded (onEngine 9 matrixCard none); let j := Job.new 1 matrixCard 0x61000 (some 2); onChain s fun c => c.bound == some 2 && match s.team? 2, s.copyRecs 0 j.handles with | some t, some (rs, _) => (let j2 := { j with recs := rs, cursor := j.saved }; t.runs && !s.arrayTaken t && j.matrixOk t.kern.acc && !s.tilesBusy 2 j && !j.usesO4 && rs.all (fun p => !p.2.featureOff (s.feat 0)) && j2.recsOk && s.bringBad 2 j2 == none) | _, _ => false) = true := by decide +kernel

def isReady : Pages → Bool | .ready _ => true | _ => false
def readyPages : Pages → List (Nat × Bool × Leaf) | .ready ps => ps | _ => []

/-- A segment that issues, of either kind of card, and one whose engine is fenced; a line recalled; a ring fill; the ends of both
kinds of job; a word written; a matrix card at an iteration, at its end and at a lehr point. -/
theorem witness_EngineEvents :
    (let s := chained 1 0 linear (some (jobOf linear)); onJob s fun c j => c.engine != 9 && !s.chainFenced c && !j.issued && !j.aims && !j.ring && isReady (s.resolve c.ctx 0 j.indexPages) && (let ji := { j with pages := readyPages (s.resolve c.ctx 0 j.indexPages) }; let rs := (j.indexes (j.pos, j.segEnd - j.pos)).map fun a => (a, 4); (s.readWait ji rs).isNone && s.badRead ji rs == none && isReady (s.resolve c.ctx 0 (s.segPages c.ctx ji)) && (let jp := { j with pages := ji.pages ++ readyPages (s.resolve c.ctx 0 (s.segPages c.ctx ji)), issued := true }; jp.pieces.all fun p => !jp.aliasOdd p))) = true ∧
    (let s := matrixState false false false; onJob s fun c j => c.engine == 9 && !s.chainFenced c && !j.issued && !j.paused && !j.finished && (let j1 := { j with tiles := if j.tiles.contains (j.tileId j.cursor) then j.tiles else j.tiles ++ [j.tileId j.cursor] }; isReady (s.resolve c.ctx 0 j1.tilePages) && (let j2 := { j1 with pages := readyPages (s.resolve c.ctx 0 j1.tilePages), issued := true }; !j2.oddTiles && s.badOutput j2 == none))) = true ∧
    (let s := chained 1 0 linear (some (jobOf linear)); let u := { s with fleet := { s.fleet with fences := [enginePath 0 0] } }; onJob u fun c _ => u.chainFenced c) = true ∧
    onJob recalled (fun c j => c.engine != 9 && j.owned == [0xA40] && recalled.granted (recalled.chainSid c) [0xA40] && recalled.coh.takable (recalled.coh.recalls.findIdx? fun r => r.sid == recalled.chainSid c && r.line == 0xA40) && (j.todo.filter fun p => (j.pieceLines p).contains 0xA40) != [] && (recalled.srcWait c.ctx j j.todo).isNone && j.todo.all fun p => recalled.badPiece c.ctx j p == none) = true ∧
    onJob filled (fun c j => c.engine != 9 && j.ring && j.issued && !j.finished && j.aimed == [2] && (j.aimed.map fun t => filled.ringAt t (j.at_ 0x48 4)).all (fun r => r.consistent && j.total ≤ 128 * r.slotu) && j.aimed.all (fun t => !filled.ringFull (j.at_ 0x48 4) t) && (filled.srcWait c.ctx j [(0, j.total)]).isNone && filled.badPiece c.ctx j (0, j.total) == none) = true ∧
    onJob issued (fun c j => c.engine != 9 && match issued.copyDone 0 c j with | .done t => onChain t fun d => d.packet.isNone && (t.byteAt 0x52000 == issued.byteAt 0x50000) | _ => false) = true ∧
    (let s := issued.modChain 0 fun c => { c with packet := some { thread := 0, seq := 5, card := linear } }; onJob s fun c j => match s.copyDone 0 c j with | .done t => onChain t fun d => d.packet.isSome | _ => false) = true ∧
    (let s := chained 1 0 linear (some { jobOf linear with finished := true }); onJob s fun c j => j.finished && j.aimed == [] && match s.readCcb 0 c with | .ok l b => (match s.reach c.ctx (.chain 0) (ccbField b 0x28 8) .w 8 with | .ok w => s.coh.lacks (halvesOf w.pa 8) true == [] && (w.lines 8 ++ l.lines 64).all fun n => (s.ownerOf n).isNone | _ => false) | _ => false) = true ∧
    ([0, 0x63000].all fun word => let s := matrixState true true false; let s := s.modChain 0 fun c => { c with job := c.job.map fun j => { j with card := j.card.take 0x20 ++ leBytes 8 word ++ j.card.drop 0x28 } }; onJob s fun c j => let ws := (j.addr + 0x32, 1, true) :: if word = 0 then [] else [(word, 8, true)]; let t := (s.partPut c.ctx (.chain 0) (j.addr + 0x32) 1 2).completeChain 0 c j.seq; c.engine == 9 && j.finished && j.at_ 0x20 8 == word && (s.partWait c.ctx (.chain 0) ws).isNone && s.partFail c.ctx (.chain 0) ws == none && (aget t.chains 0).all fun d => d.stop.isNone && d.job.isNone) = true ∧
    ([true, false].all fun epi => let s := matrixState false true false; let s := s.modChain 0 fun c => { c with job := c.job.map fun j => { j with card := j.card.take 1 ++ leBytes 1 (if epi then 2 else 0) ++ j.card.drop 2 } }; onJob s fun c j => c.engine == 9 && c.bound == some 2 && !j.finished && !j.paused && j.issued && j.epi == epi && (match s.team? 2 with | some t => t.runs | none => false) && !s.chainFenced c && s.granted (s.chainSid c) j.owned && !j.bring && (s.bringBad 2 j).isNone && s.badOutput j == none && s.badRead j j.reads == none && j.aRec.isSome && j.bRec.isSome && j.reads != [] && !s.mayWait j) = true ∧
    (let s := matrixState false true true; onJob s fun c j => c.engine == 9 && !j.finished && !j.paused && (match c.bound.bind s.team? with | some t => t.yielding | none => false) && (let given := (s.giveBack (s.chainSid c) j.owned).modChain 0 fun c => { c with job := some { j with issued := false, owned := [], pages := [] } }; (given.partWait c.ctx (.chain 0) [(j.addr + 0x28, 11, true)]).isNone && given.partFail c.ctx (.chain 0) [(j.addr + 0x28, 11, true)] == none)) = true := by decide +kernel

/-- A packet: its type, flags and SEQ, the number of its ranges, and its fields at their offsets. -/
def pktOf (type flags seq nrng : Nat) (fs : List (Nat × Nat × Nat)) : List Byte :=
  (cardOf ([(0, 1, type), (1, 1, flags), (2, 2, 1 + (nrng + 3) / 4), (4, 1, nrng), (5, 1, 3), (8, 8, seq), (0x10, 8, if flags % 2 = 1 then 0x64000 else 0)] ++ fs)).take (64 * (1 + (nrng + 3) / 4))

/-- A thread of context 0 with a ring of 4 KiB at 0x90000 and its descriptor at 0x98000, the packet at its start. -/
def aQueue : Qcp :=
  { Qcp.reset with qmap := 1, state := .fetch, rbase := 0x90000, wptr := 4096, desc := 0x98000, qid := 7, cdepth := 2 }
def queued (b : List Byte) (f : Qcp → Qcp := id) : State :=
  { base with threads := [(0, f aQueue)], mem := memWrite base.mem (located 0x90000 b) }
def arrived (s : State) (type : Nat) (p : Qcp → Pkt → Bool) : Bool :=
  match s.qcp? 0 with
  | some q => match s.fetchPacket 0 q with
    | .packet k => k.type == type && (match s.checkCword 0 q k with | .ok => true | _ => false) &&
        (!k.fence || q.packets.all Packet.done) && (s.packetWait 0 q k).isNone && s.qcpTurn 0 q && p q k
    | _ => false
  | none => false
def goes (s : State) (type : Nat) (p : Qcp → Pkt → State → Bool) : Bool :=
  arrived s type fun q k =>
    let v := s.considered
    let u := if q.program = none ∧ q.history = [] ∧ q.pstate = .learning then v else v.unlearn 0 []
    !((u.qcp? 0).map Qcp.discarding).getD false && p q k u
def wordReady (s : State) (va : Nat) (w : Bool) : Bool :=
  (match s.partLeaf 0 (.queue 0) va w 8 with | .ok _ => true | _ => false) && (s.partWait 0 (.queue 0) [(va, 8, w)]).isNone
def aPacket (seq : Nat) (done : Bool) : Packet :=
  { seq := BitVec.ofNat 64 seq, addr := 0, type := 5, cw := true, irq := true, cscope := 3, vec := 1, cword := 0x64000, launch := none, done := done
    abandoned := false }

/-- A kernel descriptor at 0x68000 of one team without arguments that may run ahead, and a LAUNCH of it with a range. -/
def descBytes : List Byte := cardOf [(0x0C, 1, 1), (0x10, 1, 4), (0x12, 1, 1), (0x13, 1, 0x11), (0x18, 4, 1)]
def launchPkt : List Byte :=
  pktOf 1 0 9 1 [(0x18, 8, 0x68000), (0x30, 4, 1), (0x34, 4, 1), (0x38, 4, 1), (0x40, 8, 0x70000), (0x48, 8, 4096 + 2 * 2 ^ 48)]
def launchRec (seq : Nat) : LaunchRec :=
  { desc := 0x68000, gx := 1, gy := 1, gz := 1, flags := 0, cscope := 3, vec := 0, cword := 0, seq := BitVec.ofNat 64 seq, seed := 0, words := []
    ranges := [{ base := 0x70000, len := 4096, mode := 2 }] }
def aProgram (seq : Nat) : Program := { cur := launchRec seq, sstep := 1, srule := 0, sdelta := 0, rules := [], links := [none] }
def aPred (seq : Nat) (confirmed : Bool) : Prediction :=
  { rcd := launchRec seq, slot := 1, launch := 1, units := 1, confirmed := confirmed, waived := [], started := 0 }
def launching (f : Qcp → Qcp) : State :=
  let s := queued launchPkt f
  { s with mem := memWrite s.mem (located 0x68000 descBytes) }
def launchOk (s : State) (p : Qcp → Pkt → Kernel → LaunchRec → Bool) : Bool :=
  arrived s 1 fun q k => match s.considered.checkLaunch 0 q k with | .ok n args => p q k n (LaunchRec.ofPkt k args) | _ => false

/-- QMAP with EN set and clear; doorbells; a reread; START, STOP, UNMAP and FORGET in each state; draining; a prediction that idles. -/
theorem witness_QueueEvents_commands :
    (let s := { base with mem := memWrite base.mem (located 0x98000 (cardOf [(0, 8, 0x90000), (8, 1, 26), (9, 1, 15), (10, 1, 8), (12, 2, 4095)])) }; let m : DWord := 0x98001; let t := s.setQ 31 { Qcp.reset with qmap := m, ctx := bits64 m 54 10 }; let c := bits64 m 54 10; bits64 m 6 48 * 64 == 0x98000 && !s.outOfService (qcpPath 31) && (s.ctx? c).isSome && (match t.partLeaf c (.queue 31) 0x98000 false 64 with | .ok _ => true | _ => false) && (t.partWait c (.queue 31) [(0x98000, 64, false)]).isNone && descOk (t.partRead c (.queue 31) 0x98000 64) && s.threads.all fun p => p.1 == 31) = true ∧
    ([([], 4096), ([], 64)].all fun q => ((queued q.1).qcp? 0).isSome && q.2 % 64 == 0) = true ∧
    (let s := { queued [] with cycle := 1024 }; match s.qcp? 0 with | some q => q.state == .fetch && q.rptr.toNat < q.wptr.toNat && q.reread + 1024 ≤ s.cycle | none => false) = true ∧
    ([QState.unmapped, .stopped, .fetch, .hazard, .blocked, .issue, .draining, .faulted].all fun st => let s := queued [] fun q => { q with state := st }; (s.qcp? 0).map Qcp.state == some st && !s.outOfService (qcpPath 0)) = true ∧
    (let s := queued [] fun q => { q with state := .draining }; match s.qcp? 0 with | some q => q.packets == [] && !q.discarding | none => false) = true ∧
    (let s := { queued [] (fun q => { q with idle := 1, preds := [aPred 9 false], program := some (aProgram 8), pstate := .active }) with cycle := 10 ^ 6 }; match s.qcp? 0 with | some q => (match (q.preds.drop q.firstOpen).getLast? with | some p => max q.lastArr p.started + q.idleTicks ≤ s.cycle | none => false) | none => false) = true := by decide +kernel

/-- Each packet type: a WAIT whose address has no page; its word reached and not, its earlier packets done and not; LOOPCTL of each form. -/
theorem witness_QueueEvents_packets :
    arrived (queued (pktOf 2 0 1 0 [(0x18, 8, 2 ^ 30)])) 2 (fun q p => match (queued (pktOf 2 0 1 0 [(0x18, 8, 2 ^ 30)])).considered.reach q.ctx (.queue 0) (p.at_ 0x18 8) .r 8 with | .fault _ => true | _ => false) = true ∧
    ([0, 1].all fun v => goes (queued (pktOf 2 0 1 0 [(0x18, 8, 0x64000), (0x20, 8, v)])) 2 fun q p u => wordReady u (p.at_ 0x18 8) false && (match (queued (pktOf 2 0 1 0 [(0x18, 8, 0x64000), (0x20, 8, v)])).considered.reach q.ctx (.queue 0) (p.at_ 0x18 8) .r 8 with | .fault _ => false | _ => true) && seqReached 64 (u.partNat q.ctx (.queue 0) (p.at_ 0x18 8) 8) (p.at_ 0x20 8) == (v == 0)) = true ∧
    arrived (queued (pktOf 2 0 1 0 [(0x18, 8, 0x64000)]) fun q => { q with state := .blocked }) 2 (fun q p => q.state == .blocked && wordReady (queued []) (p.at_ 0x18 8) false && seqReached 64 ((queued []).partNat q.ctx (.queue 0) (p.at_ 0x18 8) 8) (p.at_ 0x20 8)) = true ∧
    ([0, 1, 2].all fun op => [true, false].all fun done => goes (queued (pktOf 3 1 1 0 [(0x18, 8, 0x64000), (0x20, 8, 2 ^ 64 - 1), (0x28, 1, op)]) fun q => { q with packets := [aPacket 0 done] }) 3 fun q p u => (match u.reach q.ctx (.queue 0) (p.at_ 0x18 8) .rw 8, base.considered.reach q.ctx (.queue 0) (p.at_ 0x18 8) .rw 8 with | .ok _, .ok _ => true | _, _ => false) && q.packets.all Packet.done == done && wordReady u (p.at_ 0x18 8) true) = true ∧
    goes (queued (pktOf 4 0 1 0 [(0x18, 8, 0x50000), (0x20, 8, 0x52000), (0x28, 8, 1), (0x30, 1, 31)])) 4 (fun q p u => match u.enterTable 0 q p.seq [{ base := p.at_ 0x18 8, len := p.at_ 0x28 8, mode := 1 }, { base := p.at_ 0x20 8, len := p.at_ 0x28 8, mode := 2 }] with | .clear _ => true | _ => false) = true ∧
    ([true, false].all fun done => goes (queued (pktOf 5 0 1 0 []) fun q => { q with packets := [aPacket 0 done] }) 5 fun q _ _ => q.packets.all Packet.done == done) = true ∧
    arrived (queued (cardOf [(0, 1, 7), (2, 2, 64)])) 7 (fun _ _ => true) = true ∧
    ([0, 8].all fun d => arrived (queued (pktOf 6 0 1 0 [(0x19, 1, d)]) fun q => { q with pstate := .barred, reason := 4 }) 6 fun _ p => p.at_ 0x18 1 == 0 && p.at_ 0x19 1 == d) = true ∧
    arrived (queued (pktOf 6 0 1 0 [(0x18, 1, 1)])) 6 (fun q p => p.at_ 0x18 1 == 1 && q.program.isNone && !q.discarding) = true ∧
    arrived (queued (pktOf 6 0 1 0 [(0x18, 1, 1)]) fun q => { q with program := some (aProgram 8), preds := [aPred 9 false], pstate := .active }) 6 (fun q p => p.at_ 0x18 1 == 1 && q.program.isSome && q.preds.drop q.firstOpen != []) = true ∧
    goes (queued (pktOf 6 0 1 0 [(0x18, 1, 2)])) 6 (fun _ p _ => p.at_ 0x18 1 == 2) = true := by decide +kernel

/-- A LAUNCH that was predicted, one that a program awaits without a prediction, one that it does not await, one without a
program; completions with and without a word; a prediction's start; a confirmed one relabelled. -/
theorem witness_QueueEvents_launches :
    launchOk (launching fun q => { q with program := some (aProgram 9), preds := [aPred 9 false], pstate := .active }) (fun q _ _ r => match q.preds[q.firstOpen]? with | some p => p.rcd == r | none => false) = true ∧
    ([none, some (aProgram 8)].all fun g => launchOk (launching fun q => { q with program := g }) fun q _ _ r => q.preds[q.firstOpen]? == none && match q.program with | some g => g.next == r | none => true) = true ∧
    (let s := launching fun q => { q with program := some (aProgram 5), pstate := .paused }; launchOk s fun q _ _ r => match q.awaited, (s.considered.unlearn 0 []).qcp? 0 with | some w, some v => w != r && !v.discarding | _, _ => false) = true ∧
    (let s := launching id; launchOk s fun q p _ r => q.program == none && match s.considered.enterTable 0 q p.seq r.ranges with | .clear _ => true | _ => false) = true ∧
    ([true, false].all fun cw => let s := queued [] fun q => { q with packets := [{ aPacket 4 true with cw := cw, done := true }, aPacket 5 true] }; match s.qcp? 0 with | some q => (match q.packets.find? fun p => p.seq == 4 with | some p => !p.abandoned && s.workDone p && p.cw == cw && wordReady (s.release 0 4) p.cword.toNat true | none => false) | none => false) = true ∧
    (let s := launching fun q => { q with program := some (aProgram 8), pstate := .active, vquota := 4096 }; let s := { s with mem := memWrite s.mem (located 0x12000 (leBytes 8 0x47F)) }; match s.qcp? 0 with | some q => (match q.program with | some g => let r := g.next; s.predictable 0 q r && (match s.pieces q.ctx (.queue 0) r.desc.toNat 32, s.piecesWait q.ctx (.queue 0) r.desc.toNat 32 with | .ok b, none => let k := Kernel.ofBytes r.desc.toNat b; kernelOk b k && gridOk k r.gx r.gy r.gz && k.rasafe && 8 * r.words.length == k.argsize && s.rectExists k | _, _ => false) | none => false) | none => false) = true ∧
    (let s := { queued [] (fun q => { q with preds := [aPred 9 true] }) with versions := [{ thread := 0, slot := 1, line := 0xE00, bytes := [(127, 7)] }] }; match s.qcp? 0 with | some q => (q.preds.find? fun p => p.confirmed && !p.waived.any fun n => q.packets.any fun x => x.seq == n && !x.done && !x.abandoned).isSome | none => false) = true := by decide +kernel

/-- A context record: pages at 0x10000, PASID, flags, and 64 shape slots. -/
def ctxRec (pasid flags : Nat) : List Byte :=
  padTo 256 (leBytes 8 0x10000 ++ leBytes 4 pasid ++ leBytes 4 flags ++ leBytes 8 0 ++ leBytes 8 0x40000 ++ leBytes 8 64 ++ leBytes 8 0x200000 ++
    leBytes 8 0x100000)
/-- A state whose CREC of a context names a record at 0x30000. -/
def creced (c : Nat) (b : List Byte) (ran : Nat) : State :=
  { base.setReg (0x100000 + 0x40 * c) (BitVec.ofNat 64 (0x300 * 256)) with
    mem := memWrite base.mem (located 0x30000 b), boot := { base.boot with ran := ran } }
def ctxIs (st : CtxState) (save : Nat) : State := base.modCtx 0 fun x => { x with state := st, savesize := save }
/-- The group stopped as number 5 of a kind, one cycle allowed or not; a chain stopped as number 6. -/
def stoppedAs (k : StopKind) (stepping : Bool) : State :=
  withG fun g => { g with
    stop := some { id := 5, code := 1, kind := k }, step := if stepping then some { lanes := 0, left := 0 } else none, wcbuf := [anEntry] }
def chainStop (engine detail : Nat) (only : Bool) (p : Option CopyPacket) : State :=
  { base with chains := [(0, { ctx := 0, ccb := 0x60000, engine := engine, die := 0, core := 0, queue := [2], bound := none, job := none
                               stop := some { id := 6, code := fltEngine, detail := detail, onlyWrite := only }, packet := p, origin := [], posts := [] })] }

/-- That stop in a team at a place, and a record of such a group at 0x200000. -/
def loadable (p : Place) : State :=
  let s := ((stoppedAs .reexec false).modTeam 2 fun t => { t with place := p }).setReg (ctxBlock 0 + 0x20) 0x200000
  { s with mem := memWrite s.mem (located 0x200000 (leBytes 8 (1 + 10 * 2 ^ 48) ++ leBytes 40 0 ++ [1])) }

/-- Contexts 1 and 1023 with a record that is accepted, with a PASID that is taken, in recovery; a context at rest; each state of
a context and each kind of stop; a record and its ring; a post to a mailbox; the ends of the BAR4 window, poisoned and not. -/
theorem witness_ContextCommands :
    ([1, 1023].all fun c => let s := creced c (ctxRec (2 ^ 20 - 1) 6) 0; let b := s.bytesAt (bits64 (s.reg (0x100000 + 0x40 * c) 0) 8 44 * 256) 256; (s.ctx? c).isNone && s.boot.ran != 2 && s.recordOk b (Ctx.ofRecord b)) = true ∧
    ([(0, 0), (1, 2)].all fun q => let s := creced 1 (ctxRec q.1 0) q.2; let b := s.bytesAt (bits64 (s.reg (0x100000 + 0x40 * 1) 0) 8 44 * 256) 256; (s.ctx? 1).isNone && (s.boot.ran == 2 || !s.recordOk b (Ctx.ofRecord b))) = true ∧
    (let s := withT fun t => { t with endedAt := some 0 }; (s.ctx? 0).isSome && s.threads.all (fun p => p.2.ctx != 0 || p.2.state == .unmapped) && s.teams.all fun p => p.2.ctx != 0 || p.2.endedAt.isSome) = true ∧
    ([(CtxState.active, 3342336, true), (.active, 3342335, false), (.preempting, 3342336, true), (.saved, 0, false)].all fun q => let s := ctxIs q.1 q.2.1; match s.ctx? 0 with | some x => x.state == q.1 && s.poolFits 0 ((s.teams.filter fun p => p.2.ctx == 0 && p.2.resident).map fun p => p.2.kern.teamSize) == q.2.2 | none => false) = true ∧
    (let s := base.modCtx 0 fun x => { x with slots := [(3, { gen := 1, used := true, decl := [0xA00], held := 0 })] }; let t := { s with coh := { s.coh with parts := [{ home := homeOf 0xA00, obj := { decl := true, id := 3 }, sharers := [{ sid := 1, count := 1, hold := none }], writers := [], bcast := false, answered := [], used := 0, evicting := false }] } }; match t.ctx? 0, s.ctx? 0 with | some x, some y => s.declParts y == [] && t.declParts x != [] | _, _ => false) = true ∧
    (match ((queued [] fun q => { q with packets := [aPacket 4 false, aPacket 5 true] }).qcp? 0) with | some q => q.ctx == 0 && q.state != .unmapped | none => false) = true ∧
    ([StopKind.reexec, .timeout, .fenced].all fun k => [true, false].all fun st => let s := stoppedAs k st; match s.stoppedGroup 0 5 with | some (r, g, x) => x.kind == k && g.step.isSome == st && (match s.team? r.team with | some t => (aget s.launches t.launch).isSome && loadFits t.kern (fun o n => (if o = 0 then 1 + 10 * 2 ^ 48 else if o = 0x30 then 1 else 0) % 256 ^ n) | none => false) && (match s.drainMany r true g.wcbuf.length with | .done u => (u.team? r.team).isSome && (u.grp? r).isSome | _ => false) | none => false) = true ∧
    ([Place.core 0 0, .saved].all fun p => let s := loadable p; match s.stoppedGroup 0 5 with | some (r, _, _) => (s.savedField r 0).isSome == (p == .saved) && (match s.team? r.team with | some t => loadFits t.kern fun o n => s.natAt (bits64 (s.reg (ctxBlock 0 + 0x20) 0) 16 36 * 65536 + o) n | none => false) | none => false) = true ∧
    ([(0, 1, true), (9, 0x50, false), (9, 1, false)].all fun q => let s := chainStop q.1 q.2.1 q.2.2 none; (s.stoppedGroup 0 6).isNone && match s.stoppedChain 0 6 with | some (_, c, x) => c.packet.isNone && x.onlyWrite == q.2.2 | none => false) = true ∧
    (let s := chainStop 0 1 false (some { thread := 0, seq := 5, card := [] }); (s.stoppedGroup 0 6).isNone && match s.stoppedChain 0 6 with | some (_, c, _) => c.packet.isSome | none => false) = true ∧
    ((base.stoppedGroup 0 1).isNone && (base.stoppedChain 0 1).isNone) = true ∧
    (let s := { (base.setReg 0x200008 5) with records := [List.replicate 64 0] }; s.records.length == 1 && s.ringRoom 0x200000) = true ∧
    ([0, 0x30000].all fun v => let s := base.modCtx 0 fun x => { x with uivec := v, uimbox := 0x64000 }; (s.ctx? (bits64 63 54 10)).isSome && (s.partWait 0 .part [(0x64000, 8, false), (0x64000, 8, true)]).isNone) = true ∧
    ([Place.core 0 0, .saved].all fun p => let s := (placeAt p 0 none).modCtx 0 fun x => { x with uivec := 0x30000, uimbox := 0x64000 }; (s.partWait 0 .part [(0x64000, 8, false), (0x64000, 8, true)]).isNone && (s.savedField ⟨2, 0⟩ 0x32).isSome == (p == .saved)) = true ∧
    ([0, 2 ^ base.bar4 - 8].all fun o => let pa := base.windowAt o; !base.heldUp pa 8 && !notifyPa pa && (span pa 8).all fun a => !base.poison.contains (a / 128) && !base.lineFenced (a / 128)) = true ∧
    (let s := { base with poison := [0] }; !s.heldUp (s.windowAt 127) 2 && !notifyPa (s.windowAt 127) && (span (s.windowAt 127) 2).any fun a => s.poison.contains (a / 128)) = true ∧
    (base.fleet.fences == [] && !base.heldUp (base.windowAt 0) 8 && !notifyPa (base.windowAt 0)) = true := by decide +kernel

/-- A serving record's bytes: `server`'s. -/
def serverBytes (log2in : Nat) : List Byte :=
  padTo 128 (leBytes 8 0x80000 ++ leBytes 8 0xA0000 ++ leBytes 1 log2in ++ leBytes 1 16 ++ leBytes 2 2 ++ leBytes 4 4 ++ leBytes 8 0x200000 ++
    leBytes 8 0xB0000 ++ leBytes 8 6 ++ leBytes 8 (0xC0000 + 4) ++ leBytes 8 0xD0000)
def svreced (log2in : Nat) : State :=
  { base.setReg 0x7F8000 0x30000 with mem := memWrite base.mem (located 0x30000 (serverBytes log2in)) }

/-- `serving` with a message of a type for sequence `id` at die 0, its bytes from 8 on given. -/
def told (type id : Nat) (body : List Byte) (f : State → State := fun s => s) : State :=
  let s := f (serving 0 0 [])
  { s with sending := [{ src := 1, dest := 0, ctx := 0, bytes := padTo 64 (leBytes 8 (type + id * 2 ^ 16) ++ body) }] }
def toldOk (s : State) (type : Nat) (p : State → Msg → Serving → Bool) : Bool :=
  let t := s.deliverMsgs
  match t.nextMsg 0, aget t.serving 0 with
  | some m, some v => m.type == type && t.firstMsg 0 0 == some m && p t m v
  | _, _ => false
def freeAt (t : State) (ws : List (Nat × Nat × Bool)) : Bool := (t.partWait 0 .part ws).isNone
def listed (pl npg : Nat) : List Byte := leBytes 16 0 ++ leBytes 8 pl ++ leBytes 2 npg

/-- A record that is accepted and one that is not; each message at an entry that is there and one that is not, its fields right and
wrong: the last address of a page list, the ends of a draft's range, TOKEN's counts and marks. -/
theorem witness_ServingEvents_messages :
    ([(4, true), (13, false)].all fun q => let s := svreced q.1; let b := s.bytesAt (bits64 (s.reg (0x7F8000 + 8 * 0) 0) 7 45 * 128) 128; let v := Serving.ofBytes b; (s.ctx? 0).isSome && servingOk b v == q.2 && (!q.2 || (s.partWait 0 .part [(v.icnt, 1024, true)]).isNone)) = true ∧
    ({ serving 0 0 [] with seqs := [] }.seqs.all fun e => e.ctx != 0) = true ∧
    ([(6, 0x70000, true), (5, 0x70000, true), (6, 0x70004, false), (6, 2 ^ 54, false)].all fun q => toldOk (told 1 q.1 (listed q.2.1 (if q.2.2 then 1 else 0))) 1 fun t m v => freeAt t (t.inboxWants v 0 0 ++ listWants (m.at_ 0x18 8) (m.at_ 0x20 2)) && (m.at_ 0x22 30 == 0 && m.at_ 0x18 8 % 8 == 0 && m.at_ 0x18 8 < 2 ^ 54) == q.2.2 && (t.seqAt 0 m.id).isSome == (q.1 == 5)) = true ∧
    ([5, 6].all fun id => toldOk (told 2 id (listed 0x70000 1)) 2 fun t m v => freeAt t (t.inboxWants v 0 0 ++ listWants (m.at_ 0x18 8) (m.at_ 0x20 2)) && m.at_ 8 16 == 0 && m.at_ 0x22 30 == 0 && (t.runEntry 0 0 m.id).isSome == (id == 5)) = true ∧
    ([(5, 3, true), (5, 259, true), (5, 260, false), (6, 3, true)].all fun q => toldOk (told 3 q.1 (leBytes 8 q.2.1)) 3 fun t m v => freeAt t (t.inboxWants v 0 0) && m.at_ 0x10 48 == 0 && match t.runEntry 0 0 m.id with | some e => q.1 == 5 && (e.pos ≤ m.at_ 8 8 && m.at_ 8 8 ≤ e.pos + 256) == q.2.2 | none => q.1 == 6) = true ∧
    ([5, 6].all fun id => toldOk (told 5 id []) 5 fun t m v => freeAt t (t.inboxWants v 0 0) && m.at_ 8 56 == 0 && match t.seqAt 0 m.id with | some e => id == 5 && e.ctx == 0 && e.state != .moving | none => id == 6) = true ∧
    ([5, 6].all fun id => toldOk (told 5 id [] fun s => s.modSeq 0 5 fun e => { e with state := .moving }) 5 fun t m v => freeAt t (t.inboxWants v 0 0) && m.at_ 8 56 == 0) = true ∧
    ([(5, 1, true), (5, 0, false), (6, 1, false)].all fun q => toldOk (told 6 q.1 (leBytes 1 q.2.1) fun s => s.setReg 0x7F1000 2) 6 fun t m v => freeAt t (t.inboxWants v 0 0) && m.at_ 9 55 == 0 && ((t.runEntry 0 0 m.id).isSome && m.at_ 8 1 != (t.ringOf 0).1 && m.at_ 8 1 < 8 / t.ringSize) == q.2.2) = true ∧
    toldOk (told 7 5 []) 7 (fun t _ v => freeAt t (t.inboxWants v 0 0)) = true ∧
    ([(5, 5, 2, 0), (5, 11, 8, 1), (5, 3, 0, 4), (5, 12, 9, 4), (6, 4, 1, 2)].all fun q => toldOk (told 4 q.1 (leBytes 8 q.2.1 ++ leBytes 1 q.2.2.1 ++ leBytes 1 3)) 4 fun t m v => m.at_ 0x11 1 < 4 && m.at_ 0x12 14 == 0 && (m.at_ 0x11 1).testBit 0 && (t.ringOf 0).2 == 0 && freeAt t (t.inboxWants v 0 0 ++ t.hostWants v 0 0 (m.at_ 0x10 1 % 16)) && (t.tokenStep 0 0 v m).1 == q.2.2.2 && t.hostRoom v 0 0 2) = true ∧
    toldOk (told 4 5 (leBytes 8 11 ++ leBytes 1 8) fun s => s.modSeq 0 5 fun e => { e with npg := 5 }) 4 (fun t m v => m.at_ 0x11 1 < 4 && freeAt t (t.inboxWants v 0 0) && (t.tokenStep 0 0 v m).1 == 6) = true ∧
    ([5, 6].all fun id => toldOk (told 0x80 id (listed 0x70000 1)) 0x80 fun t m v => freeAt t (t.inboxWants v 0 0 ++ listWants (m.at_ 0x18 8) (m.at_ 0x20 2)) && t.adopts 0 m == (id == 6)) = true ∧
    toldOk (told 0x81 5 []) 0x81 (fun _ _ _ => true) = true ∧
    toldOk (told 0x82 5 []) 0x82 (fun t _ v => freeAt t (t.inboxWants v 0 0)) = true := by decide +kernel

/-- `serving` with a page of sequence 5 at 0x30000 and an error in it, its counts changed. -/
def kvState (line pos mark : Nat) : State :=
  let s := (serving 0 0 []).modSeq 0 5 fun e => { e with pos := pos, mark := mark }
  { s with kvmap := [{ pa := 0x30000, die := 0, ctx := 0, id := 5, idx := 0 }], poison := [line] }

/-- The last line of a page of two tokens: beyond the mark, between position and mark, and before the position. -/
theorem witness_ServingEvents_errors :
    ([(0, 1), (2, 2), (5, 5)].all fun q => let s := kvState 0x7FF q.1 q.2; match s.kvOwner 0x7FF with | some (k, e, v) => !s.moving k && (let p := k.idx * v.pt + (128 * 0x7FF - k.pa) * v.pt / 2 ^ v.log2kv; p == 1 && (if q.1 = 0 then e.mark ≤ p && e.pos ≤ p + 1 else if q.1 = 2 then p < e.mark && e.pos ≤ p + 1 else p + 1 < e.pos) && (let dies := (List.range s.ringSize).map fun i => s.ringSize * (s.ringOf k.die).1 + i; freeAt s ((dies.flatMap fun d => s.inboxWants v d k.ctx) ++ (if p + 1 < e.pos then s.hostWants v (s.ringOf k.die).1 k.ctx 1 else [])) && dies.all (fun d => s.inboxRoom v d k.ctx) && (!(p + 1 < e.pos) || s.hostRoom v (s.ringOf k.die).1 k.ctx 1))) | none => false) = true := by decide +kernel

/-- A record of a service queue of 16 at 0x90000, taken as its first; a socket 3 of a kind; a page lent or not. -/
def aRec (op lend sock arg buf len : Nat) : List Byte :=
  padTo 64 (leBytes 1 op ++ leBytes 1 lend ++ leBytes 2 0 ++ leBytes 4 sock ++ leBytes 8 1 ++ leBytes 8 buf ++ leBytes 8 len ++ leBytes 8 arg ++
    leBytes 8 0x64000 ++ leBytes 8 (if lend = 1 then 0x64008 else 0))
def gaffed (b : List Byte) (kind : Nat := 0) (f : SvcQueue → SvcQueue := id) : State :=
  let s := (base.setReg (svcBlock 63) (0x90000 + 4)).setReg (svcBlock 63 + 8) 1
  { s with
    mem := memWrite s.mem (located 0x90000 b ++ located 0x50000 (leBytes 2 6)), svc := [(63, f { SvcQueue.start 0 with tail := 1 })]
    sockets := [{ id := 3, ctx := 0, kind := kind, port := 0, bound := [], peer := [], backlog := 0, closed := false }] }
def called (s : State) (op : Nat) (p : Rec → Bool) : Bool :=
  match s.headRecord 63 with | .record r => r.op == op && p r | _ => false
def aCall (op : Nat) (res : Option Int) : Call := { num := 0, bytes := aRec op 0 3 0 0x50000 16, result := res }
def aLoan (rword : Option Nat) : Lent := { ctx := 0, spans := [(0x50, 1)], queue := 63, num := 0, rword := rword, recv := true, finished := true }

/-- Each operation: at a socket that is there and one that is not, of the kind that it needs and not; lending whole pages, parts of
one, a page that is lent; bad and good pages. -/
theorem witness_GafferEvents_calls :
    ([0, 1, 2].all fun k => called (gaffed (aRec 1 0 0 (k + 7 * 256) 0 0)) 1 fun r => !r.lend && r.arg % 4 != 3 && r.arg / 4 % 64 == 0 && r.arg / 2 ^ 11 == 0) = true ∧
    ([2, 3, 4, 5, 8].all fun op => [0, 1024].all fun arg => [3, 4].all fun k => let s := gaffed (aRec op 0 k arg 0x50000 0) 1; called s op fun r => !r.lend && (s.sock? (s.svcCtx 63) r.sock).isSome == (k == 3) && (s.partWait 0 .part (bufferParts r.buf 32 false)).isNone && s.partFail 0 .part (bufferParts r.buf 32 false) == none && (let b := s.bufferBytes 0 r.buf 32; (leNat (b.take 2) == 4 || leNat (b.take 2) == 6) && leNat (b.drop 28) == 0)) = true ∧
    ([6, 7, 9, 10].all fun op => [0, 2].all fun kind => [3, 4].all fun k => let s := gaffed (aRec op 0 k 0 0x50000 16) kind; called s op fun r => !r.lend && (match s.sock? (s.svcCtx 63) r.sock with | some x => k == 3 && x.kind == kind | none => k == 4) && (let ws := bufferParts r.buf r.len (op == 7 || op == 10); (s.partWait 0 .part ws).isNone && s.partFail 0 .part ws == none)) = true ∧
    (let s := gaffed (aRec 6 0 3 0 (2 ^ 30) 16); called s 6 fun r => (s.partWait 0 .part (bufferParts r.buf r.len false)).isNone && s.partFail 0 .part (bufferParts r.buf r.len false) != none) = true ∧
    ([(0x50000, 4096, true), (0x50008, 4096, false), (0x50000, 4095, false)].all fun q => let s := gaffed (aRec 6 1 3 0 q.1 q.2.1); called s 6 fun r => r.lend && (r.buf % 4096 == 0 && r.len % 4096 == 0) == q.2.2 && (pagesOf r.buf r.len).all (fun p => !s.lentPage 0 p) && !s.translating 0 && (!q.2.2 || ((s.partWait 0 .part (bufferParts r.buf r.len false)).isNone && s.partFail 0 .part (bufferParts r.buf r.len false) == none))) = true ∧
    (let s := { gaffed (aRec 6 1 3 0 0x50000 4096) with lent := [{ aLoan none with finished := false }] }; called s 6 fun r => (pagesOf r.buf r.len).any fun p => s.lentPage 0 p) = true ∧
    called (gaffed (aRec 11 0 0 7 0 0)) 11 (fun r => !r.lend && r.arg ≤ 7) = true := by decide +kernel

/-- A queue that is off and one that serves, with and without calls; NOTIFY; a reread; a call completes with and without a result;
a page returned with and without its word; a port. -/
theorem witness_GafferEvents_queues :
    (let s := base; ((aget s.svc 63).map SvcQueue.on).getD false == false && !s.outOfService (gafferPath 63)) = true ∧
    ([[], [aCall 6 none]].all fun cs => let s := gaffed [] 0 fun x => { x with calls := cs }; match aget s.svc 63 with | some x => x.on && x.calls == cs && !x.closing && s.svcCtx 63 == 0 && x.tail ≤ 16 && 16 - x.head ≤ 2 ^ bits64 (s.reg (svcBlock 63) 0) 0 5 | none => false) = true ∧
    (let s := { gaffed [] with cycle := 1024 }; match aget s.svc 63 with | some x => x.on && !x.stopped && x.head < x.tail && x.lastRead + 1024 ≤ s.cycle | none => false) = true ∧
    ([(6, none), (7, none), (7, some (-6))].all fun q => let s := gaffed [] 0 fun x => { x with calls := [aCall q.1 q.2] }; match aget s.svc 63 with | some x => (match x.calls with | k :: _ => (let r : Rec := { b := k.bytes }; (s.fillWait 0 k 16 16).isNone && (s.partWait 0 .part [(s.recordAt 63 k.num + 0x38, 8, true), (r.cword, 8, true)]).isNone && s.wordOk 0 r.cword true) | [] => false) | none => false) = true ∧
    ([none, some 0x64008].all fun w => let s := { gaffed [] with lent := [aLoan w] }; ((s.lent.findIdx? fun d => d.queue == 63 && d.free).or (s.lent.findIdx? fun d => d.queue == 63 && d.finished)) == some 0 && (s.partWait 0 .part [(0x64008, 8, true)]).isNone) = true ∧
    ([true, false].all fun fits => let s := gaffed []; let r : Rec := { b := aRec 7 0 3 0 (if fits then 0x50000 else 2 ^ 30) 16 }; r.op == 7 && s.bufferTakes 0 r.buf ((List.replicate 16 (1 : Byte)).take r.len).length == fits) = true ∧
    (let s := gaffed [] 0 fun x => { x with calls := [aCall 5 none] }; (s.callSock 0 3).isSome && Rec.op { b := (aCall 5 none).bytes } == 5) = true ∧
    (let s := { gaffed [] with lent := [{ aLoan (some 0x64008) with recv := false }, { aLoan (some (2 ^ 30)) with recv := true }] }; ((s.lent.findIdx? fun d => d.queue == 63 && d.free).or (s.lent.findIdx? fun d => d.queue == 63 && d.finished)) == some 1 && (s.partWait 0 .part [(2 ^ 30, 8, true)]).isNone && !s.wordOk 0 (2 ^ 30) false) = true ∧
    (let s := gaffed [] 0 fun x => { x with calls := [aCall 6 none] }; match aget s.svc 63 with | some x => (match x.calls with | k :: _ => k.result.isNone && (match s.callSock (s.svcCtx 63) (Rec.sock { b := k.bytes }) with | some a => a.port == 0 && a.kind != 1 | none => false) | [] => false) | none => false) = true := by decide +kernel

/-- `base` with its fleet, its boot ROM changed. -/
def withF (f : Fleet → Fleet) : State := { base with fleet := f base.fleet }
def withB (f : Boot → Boot) : State := { base with boot := f base.boot }
def core0 : Word := unitPath 0 1 0 0 0

/-- A unit of each kind in service and out; each phase of a self-test; an error record with room and without; an error in a line
of no owner; lanes of a fabric link and of a port; heat below and at the trip; flow; caps above and below; what a reset keeps; a slot write under way; boot requests for the
slot that runs and the other, too short to be signed, by a strap; a report's last use; registers with fields and without. -/
theorem witness_FleetEvents :
    ([unitPath 7 1 47 0 0, unitPath 7 2 3 0 0, unitPath 7 0x0A 1 0x0A 31, unitPath 7 0x0B 0 0x0C 15].all fun p => match functionOf p with | some f => !base.fenced f.path && f.path == p && (withF fun x => { x with fences := [f.path] }).fenced f.path | none => false) = true ∧
    (testable core0 && base.fleet.bist == 0 && (withF fun x => { x with bist := 1, testing := unitPath 1 1 0 0 0 }).unitEmpty (unitPath 1 1 0 0 0) && pKind (unitPath 1 1 0 0 0) != 0x0A && (functionOf core0).isSome && (withF fun x => { x with bist := 2 }).fleet.bist == 2) = true ∧
    ([0, 5].all fun (n : DWord) => let s := (withF fun x => { x with errors := [leBytes 32 4] }).setReg 0x2020008 n; s.fleet.errors != [] && s.ringRoom 0x2020000 == (n == 5)) = true ∧
    (let s := (withF fun x => { x with errors := [leBytes 32 4] }).setReg 0x2020008 1 |>.setReg 0x2020010 2; !s.ringRoom 0x2020000 && s.ringLen 0x2020000 != 0) = true ∧
    ((base.versionAt 0).isNone && (base.kvOwner 0).isNone && (kvState 0x7FF 0 1).kvOwner 0x7FF != none && holdsLines core0 && !holdsLines (unitPath 0 1 0 2 0)) = true ∧
    (let s := { queued [] (fun q => { q with preds := [aPred 9 false] }) with versions := [{ thread := 0, slot := 1, line := 0xE00, bytes := [(127, 7)] }] }; s.versionAt 0xE00) = some (0, 0) ∧
    ([(unitPath 7 0x0B 0 0 0, 15), (unitPath 8 0x14 7 0 0, 7)].all fun q => match functionOf (lanePath q.1 q.2) with | some (.lane p) => !base.fenced p && (pKind q.1 == 0x14) == (q.2 == 7) | _ => false) = true ∧
    (base.fleet.throttled == [] && !base.fleet.tripped && !base.fleet.coolant) = true ∧
    (4600 ≤ base.watts && (base.setReg 0x2040000 4599).watts < 4600 && (withF fun x => { x with throttled := [3] }).fleet.throttled != []) = true ∧
    ((withF fun x => { x with fatal := [leBytes 32 3] }).fleet.fatal != [] && ((queued []).qcp? 0).isSome && (aget (gaffed []).svc 63).isSome && base.boot.owners.length ≤ 4) = true ∧
    ([0, 1].all fun k => let s := withB fun b => { b with ran := 1 - k, writing := some (k, { key := 1, index := 5, digest := 7 }) }; s.boot.writing == some (k, { key := 1, index := 5, digest := 7 })) = true ∧
    ([0, 1].all fun k => let s := withB fun b => { b with ran := k }; s.boot.writing.isNone && s.boot.ran == k && (s.boot.signer [0, 1, 2, 3, 4] s.mailbox).isNone) = true ∧
    (let s := withB fun b => { b with strap := true, ran := 2 }; s.boot.strap && s.boot.ran == 2 && (s.boot.owners.findIdx? Option.isNone).isSome) = true ∧
    (let s := withB fun b => { b with strap := false, ran := 2, owners := [some (7, false)] }; (s.boot.signer [1, 2, 3, 4] s.mailbox).isNone && (s.boot.owners[leNat (s.mailbox.body.take 1)]?).bind id == some (7, false)) = true ∧
    (let s := withB fun b => { b with reports := 2 ^ 23 - 1 }; s.boot.ran != 2 && s.boot.reports < 2 ^ 23) = true ∧
    (base.regFields 0x2040000 0 != [] && base.regFields 0 0 == []) = true ∧
    ([0x1000000, 0x1007FF8].all fun o => base.regFields o 1 != []) = true := by decide +kernel

/-- A privileged opcode in a context without privilege; a feature that is off; a prefix that the row does not accept; a register
of the wrong kind; a group whose fault stops it. -/
theorem witness_DecodeFaults :
    (let s := base.modCtx 0 fun x => { x with priv := false }; match openGang s none with | some x => !x.privileged && (Instr.halt (form 0xCB)).fform == some (0xCB, form 0xCB) | none => false) = true ∧
    ([(0xB8, 3), (0xBD, 4), (0xCF, 5), (0xD0, 0)].all fun e => let s := base.modCtx 0 fun x => { x with feat := 0 }; match openGang s none with | some x => !x.feat.testBit e.2 && (rowOf e.1).isSome | none => false) = true ∧
    (let s := base.modCtx 0 fun x => { x with feat := 0 }; match openGang s none with | some x => !x.feat.testBit 2 | none => false) = true ∧
    (let f : FForm := { ff .b32 0 (.v 0) (.v 0) (.imm 3) with pfx := pc (.v 4) }; match openGang base f.pfx, rowOf 0x78 with | some x, some r => (x.step4 0x78 f).isNone && !r.prefixOk 0x78 f | _, _ => false) = true ∧
    (let f := ff .i32 0 (.m 3) (.v 5) (.reg (.v 6)); match openGang base f.pfx, rowOf 1 with | some x, some r => (x.step4 1 f).isNone && r.prefixOk 1 f && !x.namesOk (r.used 1 f) f | _, _ => false) = true ∧
    (match openGang base none with | some x => x.c.lanes != 0 && x.g.inRegion &&& x.c.lanes == 0 && !x.g.silent && !base.predicted x.t | none => false) = true := by decide +kernel

/-- A gang, and a change of one vector register. -/
theorem witness_GangFrame :
    (match openGang base none with | some x => (x.g.setV 4 0 7).lanes == x.g.lanes | none => false) = true := by decide +kernel

/-- The first instruction after reset; the second of a cycle; an event, and one after a trip; a page of plain memory. -/
theorem witness_StepRunsDecoded :
    (let s := State.reset.withFetchWord 64 0x2FFFD14001002009; s.second.isNone && !s.fleet.tripped && match s.schedule with | .issue k :: rest => (match { s with schedule := rest }.pick k with | some r => (match { s with schedule := rest }.issueGroup r with | some (c, t) => (match openGang { t with cur := some c } none with | some x => (match t.fetch x.t c.g (lowest c.lanes) c.pc with | .parcel bs => (match decode bs with | .ok (i, _) => (t.deliverable c.g c.lanes).isNone && (match exec i { t with cur := some c } with | .next _ => true | _ => false) | _ => false) | _ => false) | none => false) | none => false) | none => false) | _ => false) = true ∧
    (let c : Cur := { g := ⟨2, 0⟩, lanes := BitVec.allOnes 32, pc := 0x20000, pre := none, first := none }; let s := { State.reset.withFetchWord 64 0x2FFFD14001002009 with second := some c }; let b := { s with second := none }.besideTrap c; match b.1.grp? c.g, openGang { b.1 with cur := some b.2 } none with | some g, some x => g.stands c && (match b.1.fetch x.t b.2.g (lowest b.2.lanes) b.2.pc with | .parcel bs => (match decode bs with | .ok (i, _) => (b.1.deliverable b.2.g b.2.lanes).isNone && (match exec i { b.1 with cur := some b.2 } with | .next _ => true | _ => false) | _ => false) | _ => false) | _, _ => false) = true ∧
    ([(false, Instr.queueMap 0 0), (true, .warmReset)].all fun q => let s := { State.reset with schedule := [.event q.2], fleet := { State.reset.fleet with tripped := q.1 } }; s.second.isNone && (!s.fleet.tripped || afterTrip q.2) && match exec q.2 { s with schedule := [] } with | .next _ => true | _ => false) = true ∧
    (match base.team? 2 with | some _ => leafAt base (.lane ⟨2, 0⟩ 0) (2 ^ 30 - 4) .x fun l => (base.ownerOf (l.pa / 128)).isNone && !base.marked (some 0) (l.pa / 128) && !base.poisoned l 4 && base.coh.lacks (halvesOf l.pa 4) false == [] && l.mxa.isNone && !l.vers && !notifyPa l.pa | none => false) = true := by decide +kernel

/-- The least and the greatest register, an immediate, a prefix, a pattern, a pair. -/
theorem witness_RoundTrip :
    ([Instr.iadd (ff .i32 0 (.v 0) (.v 639) (.imm 0xFFFF)), .iadd { ff .i8 0 (.v 639) (.v 0) (.pat (.v 1) (.rot 31)) with pfx := some { mask := 15, z := true, rm := .cvm, c := .v 0, sat := .cvm } }, .bra { ff .b32 0 (.v 0) (.m 0) (.imm 0x8000) with sp := true }, .dual { op := .iadd, ty := .i32, a := .v 4, b := .reg (.v 8) } { op := .fmul, ty := .f32, a := .v 6, b := .reg (.v 10) }].all fun i => WellFormed i && encode i != []) = true := by decide +kernel

def goesOn : Host.Outcome State Fault Refusal → Bool | .next _ => true | _ => false
theorem goesOn_next : ∀ {o}, goesOn o = true → ∃ t, o = .next t
  | .next t, _ => ⟨t, rfl⟩

theorem witness_StepKeepsMemoryForm : (State.reset.withFetchWord 64 0x2FFFD14001002009).Inv ∧
    ∃ t, step (State.reset.withFetchWord 64 0x2FFFD14001002009) = .next t :=
  ⟨(by decide +kernel : Memory.wf (State.reset.withFetchWord 64 0x2FFFD14001002009).mem), goesOn_next (by decide +kernel)⟩

end Sys2Proof.Tests
end

/-! SUPPORT. Group changes one after another, and the shared frames of loads and stores: the lanes of a gang without regions, the
scratchpad addresses of its lanes, the elements of a tensor (R186, R188, R190). -/

namespace Sys2Proof.Machine

open Sys2Proof

/-! ### Group changes -/

theorem modAt_modAt {α : Type} (f h : α → α) : ∀ (l : List α) (k : Nat), modAt (modAt l k f) k h = modAt l k (h ∘ f)
  | [], _ => rfl
  | _ :: _, 0 => rfl
  | x :: r, k + 1 => congrArg (x :: ·) (modAt_modAt f h r k)

theorem getElem?_modAt_same {α : Type} (f : α → α) : ∀ (l : List α) (k : Nat), (modAt l k f)[k]? = l[k]?.map f
  | [], _ => rfl
  | _ :: _, 0 => rfl
  | _ :: r, k + 1 => getElem?_modAt_same f r k

theorem amod_amod {α : Type} (m : AMap α) (k : Nat) (f h : α → α) : amod (amod m k f) k h = amod m k (h ∘ f) := by
  cases e : aget m k with
  | none => simp [amod, e]
  | some v => rw [amod_some e, amod_some e, amod_some (aget_aset_same m k (f v)), aset_aset]; rfl

/-- Two changes of a group are one. -/
theorem State.modGrp_modGrp (s : State) (r : GRef) (f h : Group → Group) :
    (s.modGrp r f).modGrp r h = s.modGrp r (h ∘ f) := by
  simp only [State.modGrp, State.modTeam, amod_amod]
  congr 2
  funext t
  simp only [Function.comp, Team.modGrp, modAt_modAt]

/-- A group read after a change of it. -/
theorem State.grp?_modGrp (s : State) (r : GRef) (f : Group → Group) : (s.modGrp r f).grp? r = (s.grp? r).map f := by
  unfold State.grp? State.modGrp
  rw [State.team?_modTeam, if_pos rfl]
  cases s.team? r.team with
  | none => rfl
  | some t => exact getElem?_modAt_same f t.groups r.grp

/-- The gang's lanes go on after a change of their group. -/
theorem Gx.done_modGrp (x : Gx) (s : State) (f h : Group → Group) : x.done (s.modGrp x.c.g f) h = x.done s (h ∘ f) :=
  s.modGrp_modGrp x.c.g f _

/-- The group that an opened gang holds is its state's. -/
theorem openGang_grp? {s : State} {p : Option Pfx} {x : Gx} (h : openGang s p = some x) : x.s.grp? x.c.g = some x.g := by
  obtain ⟨_, ht, hg, rfl, _⟩ := openGang_eq h
  unfold State.grp?
  rw [ht]
  exact hg

/-! ### Lanes without regions -/

section
variable {s : State} {op : Nat} {f : FForm} {ok : Gx → Bool} {x : Gx} (h : Runs s op f ok x)
include h

/-- A gang that runs has no enabled lane with a region open (R211). -/
theorem inRegion_enabled {l : Nat} (he : x.en.getLsbD l = true) : x.g.inRegion.getLsbD l = false := by
  obtain ⟨ho, _, _, _, hr⟩ := h
  obtain ⟨_, _, _, _, _, _, _, hen, _⟩ := openGang_eq ho
  have hl : x.c.lanes.getLsbD l = true := enabled_gang (hen ▸ he)
  simpa [hl] using congrArg (·.getLsbD l) hr

theorem plainLanes_eq : x.plainLanes = lanesOf x.en := by
  refine List.filter_congr fun l hl => ?_
  have hl : l < 32 := by simpa using hl
  rw [BitVec.getLsbD_and, BitVec.getLsbD_not]
  cases he : x.en.getLsbD l with
  | false => rfl
  | true => rw [inRegion_enabled h he, decide_eq_true hl]; rfl

theorem regionLanes_eq : x.regionLanes = [] := by
  refine List.filter_eq_nil_iff.mpr fun l _ => ?_
  rw [BitVec.getLsbD_and]
  cases he : x.en.getLsbD l with
  | false => exact Bool.false_ne_true
  | true => rw [inRegion_enabled h he]; exact Bool.false_ne_true

end

/-- With no lane in a region an instruction goes on as it is (R211). -/
theorem regionGo_nil (x : Gx) (step : Want → Region → Leaf → RStep) (k : Gx → List (Nat × Nat) → State) :
    x.regionGo [] step k = k x [] := rfl

/-! ### Scratchpad and tensors -/

/-- An instruction goes on with the scratchpad places of its lanes once all have passed (R186, R188). -/
theorem scratchGo_passed {x : Gx} {addr : Nat → Nat} {n : Nat} {team off : Nat → Nat} (h : ScratchPassed x addr n team off)
    (k : List (Nat × Nat × Nat) → State) :
    x.scratchGo addr n k = k ((lanesOf x.en).map fun l => (l, team l, off l)) := by
  have hc : ((lanesOf x.en).map fun l => (l, x.scratchChk x.s (addr l) n)) =
      (lanesOf x.en).map fun l => (l, .ok (team l, off l)) := List.map_congr_left fun l hl => by rw [h l hl]
  have hnone : ∀ bad : Nat × Except Nat (Nat × Nat) → Bool, (∀ l q, bad (l, .ok q) = false) →
      ((lanesOf x.en).map fun l => (l, Except.ok (team l, off l))).find? bad = none := fun bad hb =>
    List.find?_eq_none.mpr fun p hp => by
      obtain ⟨l, _, rfl⟩ := List.mem_map.mp hp
      rw [hb]
      exact Bool.false_ne_true
  have hall : ∀ place : Nat × Except Nat (Nat × Nat) → Option (Nat × Nat × Nat),
      (∀ l q, place (l, .ok q) = some (l, q.1, q.2)) →
      ((lanesOf x.en).map fun l => (l, Except.ok (team l, off l))).filterMap place =
        (lanesOf x.en).map fun l => (l, team l, off l) := fun place hp => by
    simp only [List.filterMap_map, Function.comp_def, hp, List.filterMap_eq_map']
  unfold Gx.scratchGo
  simp only [hc]
  rw [hnone _ fun _ _ => rfl, hall _ fun _ _ => rfl]

/-- LDT and STT go on with the pages of their elements where the handle is current, every index lies below its dimension, the
index vector is within the budget and D holds the element (R85, R186, R190). -/
theorem tensor_passed {x : Gx} {f : FForm} {store : Bool} {wants : ShapeRec → Nat → List Want} {n : Nat} {r : ShapeRec}
    {ps : List (Want × Leaf)} (hh : x.s.handle x.t.ctx (x.usrc f.a .ui64 64 % 2 ^ 32) = some (n, r))
    (hs : (store && r.blk.isSome) = false)
    (hi : ∀ l ∈ lanesOf x.en, ∀ p ∈ (x.indices f r.rank l).zip r.dims, p.1 < p.2)
    (hb : (match f.b with | .reg (.v i) => i | _ => 0) + r.rank ≤ x.budget)
    (hd : ∀ i, f.d = .v i → r.lanesTy.is64 = true → i % 2 = 0 ∧ i + 1 < x.budget)
    (hp : Passed x ((lanesOf x.en).flatMap (wants r)) ps) (k : ShapeRec → List (Want × Leaf) → State) :
    x.tensor f store wants k = k r ps := by
  have hpast : ((lanesOf x.en).find? fun l => ((x.indices f r.rank l).zip r.dims).any fun p => p.1 ≥ p.2) = none := by
    refine List.find?_eq_none.mpr fun l hl ha => ?_
    obtain ⟨p, hp, hle⟩ := List.any_eq_true.mp ha
    exact Nat.not_le.mpr (hi l hl p hp) (of_decide_eq_true hle)
  unfold Gx.tensor
  rw [hh]
  refine (if_neg ?_).trans ?_
  · simp only [hs, Bool.or_false, Bool.or_eq_true, decide_eq_true_eq, not_or]
    refine ⟨Nat.not_lt.mpr hb, ?_⟩
    cases hf : f.d with
    | v i => cases hw : r.lanesTy.is64 <;> simp [hd i hf, hw]
    | _ => exact Bool.false_ne_true
  · rw [hpast]
    refine (memGo_passed ?_ _).trans rfl
    show Passed x (((lanesOf x.en).filter fun _ => true).flatMap (wants r)) ps
    rw [List.filter_eq_self.mpr fun _ _ => rfl]
    exact hp

end Sys2Proof.Machine

/-! SUPPORT. Conversions between number formats (R71, R165 to R168): what `convert` answers by source and destination type, and
an instruction whose lanes draw nothing. -/

namespace Sys2Proof.Machine

open Sys2Proof

/-! ### Lanes that draw nothing -/

/-- Under RNE nothing draws: $rng stays where it is (R71). -/
theorem rngAt_rne (r : DWord) : ∀ n, rngAt .rne r n = r
  | 0 => rfl
  | n + 1 => by rw [rngAt, rngAt_rne r n]; rfl

/-- A result of lanes that draw under RNE is a plain vector result: $rng keeps its value. -/
theorem DrawResult.vecResult {s : State} {pf : Option Pfx} {x : Gx} (ho : openGang s pf = some x) {d : Name} {z : Bool} {t : Ty}
    {w : Nat → Nat} {o : Host.Outcome State Fault Refusal} (h : DrawResult x d z t .rne (fun l _ => w l) o) :
    VecResult x d z t w o := by
  obtain ⟨v, rfl, hv⟩ := h
  exact ⟨v, by rw [Gx.done_congr ho (h := fun g => g.withV v) (by rw [rngAt_rne]; rfl)], hv⟩

/-- An instruction that could draw, none of whose lanes does (R71). -/
theorem drawF_drawless {s : State} {op : Nat} {f : FForm} {x : Gx} {t : Ty} (w : Nat → Nat)
    (val : Gx → Nat → DWord → Nat × DWord) (hv : ∀ l r, val x l r = (w l, r)) (h : Runs s op f free x) :
    VecResult x f.d f.z t w (drawF op f s t val) :=
  (drawF_runs .rne (fun l _ => w l) val hv h).vecResult h.1

/-! ### One conversion -/

section
variable {src dst : Ty} (m : RM) (sat : Bool) (c : Nat) (r : DWord)

/-- The value of a code of a type that is no float is its integer (R66). -/
theorem Ty.val_int (h : src.isFloat = false) : src.val c = .ofInt (src.intVal c) := by
  simp [Ty.val, h]

/-- A conversion to a float that holds every source value rounds and draws nothing (R165). -/
theorem convert_exact (hd : dst.isFloat = true) (he : exactConv src dst = true) :
    convert src dst m sat c r = (dst.fmt.round .rne false 0 (src.val c), r) := by
  cases hs : src.isFloat <;> simp [convert, hs, hd, he, Ty.val_int]

/-- Any other conversion to a float rounds once, with one draw (R71, R165, R167). -/
theorem convert_rounded (hd : dst.isFloat = true) (he : exactConv src dst = false) :
    convert src dst m sat c r = (dst.fmt.round m sat (drawOne m r).2 (src.val c), (drawOne m r).1) := by
  cases hs : src.isFloat <;> simp [convert, hs, hd, he, Ty.val_int]

/-- A conversion of a float to an integer rounds once, with one draw (R71, R166). -/
theorem convert_float_int (hd : dst.isFloat = false) (hs : src.isFloat = true) :
    convert src dst m sat c r = (dst.ofFV m sat (drawOne m r).2 (src.val c), (drawOne m r).1) := by
  simp [convert, hs, hd]

/-- A conversion between integers fits or wraps, and draws nothing (R168). -/
theorem convert_int_int (hd : dst.isFloat = false) (hs : src.isFloat = false) :
    convert src dst m sat c r = (dst.fitInt sat (src.intVal c), r) := by
  simp [convert, hs, hd]

end

/-- A conversion instruction completes as its source and destination types have it. -/
theorem convRow_of_cvtF {mk : FForm → Instr} {op : Nat} (he : ∀ s f, exec (mk f) s = cvtF op f s) : ConvRow mk op := by
  intro s f x h
  simp only [he, cvtF]
  split
  case isTrue hd =>
    split
    case isTrue hx => exact drawF_drawless _ _ (fun _ _ => convert_exact _ _ _ _ hd hx) h
    case isFalse hx =>
      exact drawF_runs _ (fun l d => f.ty.fmt.round _ _ d _) _ (fun _ _ => convert_rounded _ _ _ _ hd (by simpa using hx)) h
  case isFalse hd =>
    have hd : f.ty.isFloat = false := by simpa using hd
    split
    case isTrue hs => exact drawF_runs _ (fun l d => f.ty.ofFV _ _ d _) _ (fun _ _ => convert_float_int _ _ _ _ hd hs) h
    case isFalse hs => exact drawF_drawless _ _ (fun _ _ => convert_int_int _ _ _ _ hd (by simpa using hs)) h

/-- Settles O11: each of the four instructions is one conversion in every enabled lane, by the types of its source and
destination. -/
theorem conversions : Obligations.Conversions :=
  ⟨convRow_of_cvtF exec_cvt, convRow_of_cvtF exec_cvtfi, convRow_of_cvtF exec_cvtif, convRow_of_cvtF exec_cvtii⟩

end Sys2Proof.Machine

/-! SUPPORT. Stores (R186 to R188, R190, R193, R253, R263 to R265, R404): what becomes of the stores of one instruction by the
pages they go to, and the instructions that make them. -/

namespace Sys2Proof.Machine

open Sys2Proof

/-! ### The bytes and entries of an instruction's stores -/

theorem span_length (n : Nat) : ∀ a, (span a n).length = n := by
  induction n with
  | zero => intro a; rfl
  | succ n ih => intro a; exact congrArg Nat.succ (ih (a + 1))

theorem located_length (pa : Nat) (bs : List Byte) : (located pa bs).length = bs.length := by
  rw [located, List.length_zip, span_length, Nat.min_self]

theorem located_snd (pa : Nat) (bs : List Byte) : (located pa bs).map Prod.snd = bs :=
  List.map_snd_zip (Nat.le_of_eq (span_length _ _).symm)

/-- Dropping the bytes that a later lane stores too leaves each store its lane and its page (R186). -/
theorem mem_lastOnly {q : Want × Leaf × List (Nat × Byte)} : ∀ {ws : List (Want × Leaf × List Byte)}, q ∈ lastOnly ws →
    ∃ p ∈ ws, p.1 = q.1 ∧ p.2.1 = q.2.1
  | p :: r, h => by
    rcases List.mem_cons.mp h with rfl | h
    · exact ⟨p, List.mem_cons_self, rfl, rfl⟩
    · obtain ⟨p, hp, e⟩ := mem_lastOnly h
      exact ⟨p, List.mem_cons_of_mem _ hp, e⟩

/-- A newer store takes bytes from older entries and never makes one more (R265). -/
theorem supersede_length (es ns : List StEntry) : (ns.foldl supersede es).length ≤ es.length := by
  induction ns generalizing es with
  | nil => exact Nat.le_refl _
  | cons n r ih =>
    refine Nat.le_trans (ih _) ?_
    unfold supersede
    exact Nat.le_trans (List.length_filter_le _ _) (Nat.le_of_eq (List.length_map _))

/-- A store to a page that nothing buffers: aliased, NVIO and notify pages, and where there is no memory (R80, R253, R404). -/
def Leaf.atOnce (l : Leaf) : Bool := l.mxa.isSome || l.nvio || !paReal l.pa || notifyPa l.pa

theorem Leaf.atOnce_eq (l : Leaf) : (l.mxa.isSome || l.nvio || !paReal l.pa || notifyPa l.pa) = l.atOnce := rfl

/-- Memory of the part or the host that is neither aliased nor NVIO nor a notify page has its stores buffered (R265). -/
theorem atOnce_false {l : Leaf} (hm : l.mxa = none) (hn : l.nvio = false) (hr : paReal l.pa = true) (hp : notifyPa l.pa = false) :
    l.atOnce = false := by
  simp [Leaf.atOnce, hm, hn, hr, hp]

/-- The stores that keep bytes of their own (R186). -/
def keptOf (ws : List (Want × Leaf × List Byte)) : List (Want × Leaf × List (Nat × Byte)) :=
  (lastOnly ws).filter fun p => !p.2.2.isEmpty

theorem mem_keptOf {ws : List (Want × Leaf × List Byte)} {q : Want × Leaf × List (Nat × Byte)} (h : q ∈ keptOf ws) :
    (q.1, q.2.1) ∈ ws.map fun p => (p.1, p.2.1) := by
  obtain ⟨p, hp, h1, h2⟩ := mem_lastOnly (List.mem_filter.mp h).1
  exact List.mem_map.mpr ⟨p, hp, by rw [h1, h2]⟩

/-! ### Drains of nothing -/

/-- Where no line is given no buffered store lies on one: there is nothing to perform first (R269). -/
theorem drainFor_nil (s : State) (r : GRef) : s.drainFor r [] = .done s := by
  have hno : ∀ es : List StEntry, es.findIdx? (fun e => e.pa.any ([] : List Nat).contains) = none := fun es =>
    List.findIdx?_eq_none_iff.mpr fun e _ => by cases e.pa <;> rfl
  show s.drainLines r [] 200 = _
  unfold State.drainLines
  cases s.grp? r with
  | none => rfl
  | some g => simp only [hno]

/-- A write-combining buffer of up to 8 lines has room (R265). -/
theorem fitCombined_fits {s : State} {r : GRef} (h : ∀ g, s.grp? r = some g → g.wcbuf.length ≤ 8) (n : Nat) :
    s.fitCombined r n = .done s := by
  cases n with
  | zero => rfl
  | succ n =>
    unfold State.fitCombined
    cases hg : s.grp? r with
    | none => rfl
    | some g => exact if_pos (h g hg)

/-! ### All stores of an instruction -/

/-- The group that buffers the entries `st` and combines the entries `nt` (R265). -/
def Group.buffers (st nt : List StEntry) (g : Group) : Group :=
  { g with stbuf := g.stbuf ++ st, wcbuf := nt.foldl combineIn (st.foldl supersede g.wcbuf) }

/-- Stores of which `now` go to pages that nothing buffers, `nt` are to be combined and `st` buffered: performed, combined and
buffered where the buffers have room (R186, R265). -/
theorem storeAll_fits {x : Gx} {xf : Nat} {ws now : List (Want × Leaf × List Byte)}
    {nt st : List (Want × Leaf × List (Nat × Byte))} {s0 t : State}
    (hnow : (ws.filter fun p => p.2.1.atOnce) = now)
    (hnt : (((keptOf ws).filter fun p => !p.2.1.atOnce).filter fun p => (policyOf xf p.2.1 true).cls = 1) = nt)
    (hst : (((keptOf ws).filter fun p => !p.2.1.atOnce).filter fun p => (policyOf xf p.2.1 true).cls != 1) = st)
    (hd : x.s.drainFor x.c.g (now.map fun p => (p.1, p.2.1)) = .done s0)
    (hr : ((s0.grp? x.c.g).map fun g => g.stbuf.length).getD 0 + (entriesOf xf st).length ≤ 64)
    (hf : ((x.touched (s0.storeNow (x.s.acc x.t) (now.map Prod.snd)) xf (now.map fun p => (p.1, p.2.1)) true).modGrp x.c.g
      (Group.buffers (entriesOf xf st) (entriesOf xf nt))).fitCombined x.c.g 200 = .done t) :
    x.storeAll x.s xf ws = some t := by
  have hlater : ((lastOnly ws).filter fun p => !p.2.1.atOnce && !p.2.2.isEmpty) = (keptOf ws).filter fun p => !p.2.1.atOnce :=
    List.filter_filter.symm
  subst hnow hnt hst
  unfold Group.buffers at hf
  unfold Gx.storeAll
  simp only [Leaf.atOnce_eq, hlater, hd, if_neg (Nat.not_lt.mpr hr), hf]

section
variable {x : Gx} {xf : Nat} {ws : List (Want × Leaf × List Byte)}

/-- Where every store goes to a page of some kind, every one that keeps bytes does. -/
theorem keptOf_filter {P : Leaf → Bool} (h : ∀ p ∈ ws.map (fun p => (p.1, p.2.1)), P p.2 = true) :
    ((keptOf ws).filter fun q => P q.2.1) = keptOf ws :=
  List.filter_eq_self.mpr fun _ hq => h _ (mem_keptOf hq)

theorem keptOf_filter_none {P : Leaf → Bool} (h : ∀ p ∈ ws.map (fun p => (p.1, p.2.1)), P p.2 = false) :
    ((keptOf ws).filter fun q => P q.2.1) = [] :=
  List.filter_eq_nil_iff.mpr fun _ hq => by rw [h _ (mem_keptOf hq)]; exact Bool.false_ne_true

/-- Stores none of which is performed at once: they join the buffers, which drain until they fit (R186, R265). -/
theorem storeAll_buffered {nt st : List (Want × Leaf × List (Nat × Byte))} {t : State} (hg : x.s.grp? x.c.g = some x.g)
    (h : ∀ p ∈ ws.map (fun p => (p.1, p.2.1)), p.2.atOnce = false)
    (hnt : ((keptOf ws).filter fun p => (policyOf xf p.2.1 true).cls = 1) = nt)
    (hst : ((keptOf ws).filter fun p => (policyOf xf p.2.1 true).cls != 1) = st)
    (hr : x.g.stbuf.length + (entriesOf xf st).length ≤ 64)
    (hf : (x.s.modGrp x.c.g (Group.buffers (entriesOf xf st) (entriesOf xf nt))).fitCombined x.c.g 200 = .done t) :
    x.storeAll x.s xf ws = some t := by
  have hnow : (ws.filter fun p => p.2.1.atOnce) = [] := List.filter_eq_nil_iff.mpr fun p hp => by
    rw [h _ (List.mem_map_of_mem hp)]; exact Bool.false_ne_true
  have hkept : ((keptOf ws).filter fun p => !p.2.1.atOnce) = keptOf ws :=
    keptOf_filter (P := fun l => !l.atOnce) fun p hp => by rw [h p hp]; rfl
  refine storeAll_fits hnow (hkept.symm ▸ hnt) (hkept.symm ▸ hst) (drainFor_nil _ _) ?_ hf
  rw [hg]
  exact hr

/-- Plain stores join the store buffer and take their bytes from what is being combined (R186, R265). -/
theorem storeAll_plain (hg : x.s.grp? x.c.g = some x.g) (h : PlainStores xf (ws.map fun p => (p.1, p.2.1)))
    (hr : x.g.stbuf.length + (entriesOf xf (keptOf ws)).length ≤ 64) (hw : x.g.wcbuf.length ≤ 8) :
    x.storeAll x.s xf ws = some (x.s.modGrp x.c.g (Group.buffers (entriesOf xf (keptOf ws)) [])) := by
  have hc : ∀ p ∈ ws.map (fun p => (p.1, p.2.1)), (policyOf xf p.2 true).cls ≠ 1 := fun p hp =>
    let ⟨_, _, _, _, hc⟩ := h p hp; hc
  refine storeAll_buffered hg (nt := []) (fun p hp => ?_)
    (keptOf_filter_none (P := fun l => (policyOf xf l true).cls = 1) fun p hp => decide_eq_false (hc p hp))
    (keptOf_filter (P := fun l => (policyOf xf l true).cls != 1) fun p hp => bne_iff_ne.mpr (hc p hp))
    hr (fitCombined_fits (fun g hg' => ?_) _)
  · obtain ⟨hm, hn, hr, hp, _⟩ := h p hp
    exact atOnce_false hm hn hr hp
  · rw [State.grp?_modGrp, hg] at hg'
    cases hg'
    exact Nat.le_trans (supersede_length _ _) hw

/-- Combined stores join the write-combining buffer, which drains until it fits (R255, R265). -/
theorem storeAll_combined {t : State} (hg : x.s.grp? x.c.g = some x.g) (h : CombinedStores xf (ws.map fun p => (p.1, p.2.1)))
    (hr : x.g.stbuf.length ≤ 64)
    (hf : (x.s.modGrp x.c.g (Group.buffers [] (entriesOf xf (keptOf ws)))).fitCombined x.c.g 200 = .done t) :
    x.storeAll x.s xf ws = some t := by
  have hc : ∀ p ∈ ws.map (fun p => (p.1, p.2.1)), (policyOf xf p.2 true).cls = 1 := fun p hp =>
    let ⟨_, _, _, _, hc⟩ := h p hp; hc
  refine storeAll_buffered hg (st := []) (fun p hp => ?_)
    (keptOf_filter (P := fun l => (policyOf xf l true).cls = 1) fun p hp => decide_eq_true (hc p hp))
    (keptOf_filter_none (P := fun l => (policyOf xf l true).cls != 1) fun p hp => bne_eq_false_iff_eq.mpr (hc p hp))
    hr hf
  obtain ⟨hm, hn, hr, hp, _⟩ := h p hp
  exact atOnce_false hm hn hr hp

/-- Stores to pages that nothing buffers are performed at once, after what the group has buffered for their lines (R80, R253,
R404, R428). -/
theorem storeAll_direct {s0 u : State} (h : DirectStores (ws.map fun p => (p.1, p.2.1)))
    (hd : x.s.drainFor x.c.g (ws.map fun p => (p.1, p.2.1)) = .done s0)
    (hr : ((s0.grp? x.c.g).map fun g => g.stbuf.length).getD 0 ≤ 64)
    (hu : u = x.touched (s0.storeNow (x.s.acc x.t) (ws.map Prod.snd)) xf (ws.map fun p => (p.1, p.2.1)) true)
    (hw : ∀ g, u.grp? x.c.g = some g → g.wcbuf.length ≤ 8) :
    x.storeAll x.s xf ws = some (u.modGrp x.c.g (Group.buffers [] [])) := by
  have hnow : (ws.filter fun p => p.2.1.atOnce) = ws := List.filter_eq_self.mpr fun p hp => h _ (List.mem_map_of_mem hp)
  have hkept : ((keptOf ws).filter fun p => !p.2.1.atOnce) = [] :=
    keptOf_filter_none (P := fun l => !l.atOnce) fun p hp => congrArg (!·) (h p hp)
  subst hu
  refine storeAll_fits hnow (nt := []) (st := []) (hkept.symm ▸ rfl) (hkept.symm ▸ rfl) hd hr
    (fitCombined_fits (fun g hg => ?_) _)
  rw [State.grp?_modGrp] at hg
  obtain ⟨g', hg', rfl⟩ := Option.map_eq_some_iff.mp hg
  exact hw g' hg'

end

/-- Combining alone leaves the store buffer as it is (R265). -/
theorem Group.buffers_combined (nt : List StEntry) :
    Group.buffers [] nt = fun g => { g with wcbuf := nt.foldl combineIn g.wcbuf } := by
  funext g
  simp [Group.buffers]

/-- What a gang's stores come to: the gang goes on where they fit, and waits where they do not yet (R186, R265). -/
def Gx.stored (x : Gx) (xf : Nat) (ws : List (Want × Leaf × List Byte)) (fin : Group → Group) : State :=
  (x.storeAll x.s xf ws).elim (x.stall x.s0) fun t => x.done t fin

/-- Stores that all go to pages of one kind complete as their pages have it (R186, R253, R265). -/
theorem storeResult_stored {s : State} {pf : Option Pfx} {x : Gx} (ho : openGang s pf = some x) (xf : Nat)
    (ws : List (Want × Leaf × List Byte)) (fin : Group → Group) : StoreResult x xf ws fin (.next (x.stored xf ws fin)) := by
  have hg := openGang_grp? ho
  unfold Gx.stored
  refine ⟨fun h hr hw => ?plain, fun t h hr hf => ?combined, fun t h hd hr hw => ?direct⟩
  case plain =>
    rw [storeAll_plain hg h hr hw]
    rfl
  case combined =>
    rw [storeAll_combined hg h hr (by rw [Group.buffers_combined]; exact hf)]
    rfl
  case direct =>
    rw [storeAll_direct h hd hr rfl hw, Group.buffers_combined]
    exact congrArg _ (Gx.done_modGrp _ _ _ _)

/-! ### ST, STS, STT -/

/-- ST of a gang without regions stores the data of its enabled lanes (R187). -/
theorem execSt_passed {s : State} {f : FForm} {x : Gx} {ps : List (Want × Leaf)} (h : Runs s 0x81 f free x)
    (hp : Passed x (x.wants f .w false none) ps) :
    execSt f s = .next (x.stored f.x (ps.map fun p => (p.1, p.2, leBytes f.ty.size (x.dataOf f p.1.lane))) id) := by
  unfold execSt
  rw [gangF_runs _ h]
  simp only [plainLanes_eq h, regionLanes_eq h, List.map_nil, regionGo_nil]
  refine congrArg _ ((memGo_passed hp _).trans ?_)
  unfold Gx.stored
  cases x.storeAll x.s f.x _ <;> rfl

/-- STS writes the scratchpad in lane order (R186, R188). -/
theorem execSts_passed {s : State} {f : FForm} {x : Gx} {team off : Nat → Nat} (h : Runs s 0x83 f free x)
    (hp : ScratchPassed x (x.scratchEa f) f.ty.size team off) :
    execSts f s = .next (x.done ((lanesOf x.en).foldl (fun s l =>
      s.scratchWrite (team l) (off l) (leBytes f.ty.size (x.dataOf f l))) x.s) id) := by
  unfold execSts
  rw [gangF_runs _ h, scratchGo_passed hp, List.foldl_map]

/-- STT of a record that is no block format stores the elements of its enabled lanes (R190). -/
theorem execStt_passed {s : State} {f : FForm} {x : Gx} {n : Nat} {r : ShapeRec} {ps : List (Want × Leaf)}
    (h : Runs s 0x86 f free x) (hh : x.s.handle x.t.ctx (x.usrc f.a .ui64 64 % 2 ^ 32) = some (n, r)) (hk : r.blk = none)
    (hi : ∀ l ∈ lanesOf x.en, ∀ p ∈ (x.indices f r.rank l).zip r.dims, p.1 < p.2)
    (hb : (match f.b with | .reg (.v i) => i | _ => 0) + r.rank ≤ x.budget)
    (hd : ∀ i, f.d = .v i → r.ty.is64 = true → i % 2 = 0 ∧ i + 1 < x.budget)
    (hp : Passed x ((lanesOf x.en).map fun l =>
      { lane := l, va := r.addr (x.indices f r.rank l), size := r.ty.size, need := .w, xf := f.x, halves := none }) ps) :
    execStt f s = .next (x.stored f.x (ps.map fun p => (p.1, p.2, leBytes r.ty.size (x.src p.1.lane f.d r.ty r.ty.bits))) id) := by
  have hty : r.lanesTy = r.ty := by simp [ShapeRec.lanesTy, hk]
  unfold execStt
  rw [gangF_runs _ h]
  rw [List.map_eq_flatMap] at hp
  refine congrArg _ ((tensor_passed hh (by simp [hk]) hi hb (hty ▸ hd) hp _).trans ?_)
  unfold Gx.stored
  cases x.storeAll x.s f.x _ <;> rfl

/-! ### STR -/

/-- Accesses in place go on once the group's own stores to their lines are performed (R269). -/
theorem inPlace_drains {x : Gx} {ps : List (Want × Leaf)} {t : State} (h : DrainsLines x ps t) (k : State → State) :
    x.inPlace ps k = k t := by
  unfold Gx.inPlace
  rw [h]

/-- A gang while its release waits: the translations of its accesses stand (R297). -/
def Gx.keeping (x : Gx) (ps : List (Want × Leaf)) : Gx :=
  let keep := fun (s : State) => s.keepInUse x.t.ctx (ps.map fun p => (.lane x.c.g p.1.lane, p.1.va / 4096))
  { x with s := keep x.s, s0 := keep x.s0 }

/-- STR's wait at its scope, over: at SCOPE 4 both buffers have drained and every store is acknowledged, at a lesser one the
store buffer has drained (R193, R264, R265). -/
theorem strWait_drains {y : Gx} {eager : Bool} {t : State} (h : if eager then DrainsAcked y true t else Drains y false t)
    (k : State → State) : (if eager then y.releaseAcked true else y.release false) k = k t := by
  cases eager with
  | true => exact releaseAcked_drains h k
  | false => exact release_drains h k

/-- One lane's own store of STR (R193, R372). -/
def Gx.strPut (x : Gx) (f : FForm) (a : Acc) (s : State) (p : Want × Leaf) : State :=
  (s.store a p.2 (located 0 (leBytes p.1.size (x.dataOf f p.1.lane)))).wrote x.t (p.2.pa / 128) (halvesOf p.2.pa p.1.size)
    (policyOf f.x p.2 true)

/-- STR performs its own stores once those before it are performed, and marks their lines at a lesser scope than 4 (R193, R263
to R265). -/
theorem execStr_passed {s : State} {f : FForm} {x : Gx} {ps : List (Want × Leaf)} {t u : State}
    (h : Runs s 0x8C f free x) (hp : Passed x (x.wants f .w true none) ps)
    (hd : if (ps.any fun p => p.2.scope = 4) then DrainsAcked (x.keeping ps) true t else Drains (x.keeping ps) false t)
    (hl : t.coh.lacks ((ps.filter fun p => !(policyOf f.x p.2 true).atHome).flatMap fun p => halvesOf p.2.pa p.1.size) true = [])
    (hn : x.noRoom t ps = false) (hu : DrainsLines { x with s := t } ps u) :
    execStr f s = .next (x.done ((ps.foldl (x.strPut f (u.acc x.t)) u).promote x.c.g
      (if (ps.any fun p => p.2.scope = 4) then [] else (ps.map fun p => p.2.pa / 128).eraseDups)) id) := by
  unfold execStr
  rw [gangF_runs _ h]
  refine congrArg _ ((memGo_passed hp _).trans ?_)
  simp only [Gx.uses, List.map_map]
  refine (strWait_drains hd _).trans ?_
  simp only [hl, hn, List.isEmpty_nil, Bool.not_true, Bool.false_eq_true, if_false]
  exact inPlace_drains hu _

/-! ### Notify pages -/

/-- A store to a notify page is a write of its queue's TAIL where it is one of 8 bytes at the page's start, and nothing else
(R404). -/
theorem leafWrite_notify {s : State} {a : Acc} {l : Leaf} (b : List Byte) (hm : l.mxa = none)
    (hv : (l.vers && a.slot != 0) = false) (hn : notifyPa l.pa = true) :
    s.leafWrite a l (located 0 b) = if l.pa % 4096 = 0 ∧ b.length = 8 then
      s.notify ((l.pa - Config.notifyBase) / 4096) (some a.ctx) (leNat b) else s := by
  unfold State.leafWrite State.notifyStore
  simp [hm, hv, hn, located_length, located_snd]

/-- Settles O23: each instruction that stores comes down to the stores of its lanes, and those to what their pages make of
them. -/
theorem stores : Obligations.Stores := by
  refine ⟨?st, ?sts, ?stt, ?notify, ?str⟩
  case st =>
    intro s f x ps h hp
    rw [exec_st, execSt_passed h hp]
    exact storeResult_stored h.1 _ _ _
  case sts =>
    intro s f x team off h hp
    rw [exec_sts, execSts_passed h hp]
  case stt =>
    intro s f x n r ps h hh hk hi hb hd hp
    rw [exec_stt, execStt_passed h hh hk hi hb hd hp]
    exact storeResult_stored h.1 _ _ _
  case notify => exact fun s a l b hm hv hn => leafWrite_notify b hm hv hn
  case str => exact fun s f x ps t u h hp hd hl hn hu => (exec_str s f).trans (execStr_passed h hp hd hl hn hu)

end Sys2Proof.Machine

/-! SUPPORT. Shape records (R83 to R86, R244) and the recall of an object's lines (R245, R276). -/

namespace Sys2Proof.Machine

open Sys2Proof

/-! ### Recalls -/

/-- Lines whose cached copies have all been recalled for the group: it goes on, and the move has ended (R276). -/
theorem recallAll_recalled {x : Gx} {lines : List Nat} (h : x.Recalled lines) (k : State → State) :
    x.recallAll lines k = k x.moved := by
  have ho : (lines.filter fun n => paDevice (128 * n)).any (fun n => (x.s.ownerOf n).isSome) = false := by
    simp only [List.any_eq_false, List.mem_filter, and_imp]
    intro n hn hd
    simp [(h n hn hd).1]
  have hr : (lines.filter fun n => paDevice (128 * n)).all (x.s.coh.recalled x.c.g) = true := by
    simp only [List.all_eq_true, List.mem_filter, and_imp]
    exact fun n hn hd => (h n hn hd).2
  simp [Gx.recallAll, ho, hr, Gx.moved]

/-- A declaration whose extent translates, overlaps no other object and has been recalled (R245, R276). -/
theorem declare_recalled {x : Gx} {n : Nat} {r : ShapeRec} {qs : List (Want × Leaf)}
    (hp : Passed x (r.extent.map fun n => x.one (128 * n) 0 .r false none) qs)
    (ho : x.s.overlaps x.t.ctx n (qs.flatMap fun p => p.2.lines 128).eraseDups = false)
    (hr : x.Recalled (qs.flatMap fun p => p.2.lines 128).eraseDups) (k : State → State) :
    x.declare n r k =
      k (x.moved.modSlot x.t.ctx n fun q => { q with decl := (qs.flatMap fun p => p.2.lines 128).eraseDups }) := by
  unfold Gx.declare Gx.extentGo
  refine (memGo_passed hp _).trans ?_
  simp only [ho, Bool.false_eq_true, if_false, recallAll_recalled hr]

/-- A slot that is no declared object has nothing to undeclare; the lines of one are recalled first (R245, R276). -/
theorem undeclare_recalled {x : Gx} {n : Nat} {c : Ctx} (hc : x.s.ctx? x.t.ctx = some c) (hr : x.Recalled (c.slot n).decl)
    (k : State → State) : x.undeclare n k =
      k (if (c.slot n).decl = [] then x.s else x.moved.modSlot x.t.ctx n fun q => { q with decl := [] }) := by
  unfold Gx.undeclare
  rw [hc, Option.map_some]
  cases hd : (c.slot n).decl with
  | nil => rfl
  | cons d ds => exact recallAll_recalled (hd ▸ hr) _

/-! ### SHDEF, SHREL, SHID -/

/-- SHDEF's end in state t: the record of the bytes `bs` in slot n, the handle of its generation as the result (R83, R84). -/
def Gx.placed (x : Gx) (f : FForm) (ps : List (Want × Leaf)) (bs : List Byte) (gen n : Nat) (t : State) : State :=
  x.touched (x.done (t.place x.t.ctx n bs) (x.putS f.d (handleOf gen n))) 0 ps false

/-- SHDEF has read the bytes `bs` of a record that keeps the rules and whose features are on, its pages being `ps`
(R83, R244). -/
structure Defines (s : State) (f : FForm) (x : Gx) (ps : List (Want × Leaf)) (bs : List Byte) : Prop where
  runs : Runs s 0xCD f free x
  slot : x.t.slot = 0
  aligned : x.usrc f.a .ui64 64 % 128 = 0
  passed : Passed x ((List.range 16).map fun k => x.one (x.usrc f.a .ui64 64 + 8 * k) 8 .r) ps
  read : bs = ps.flatMap fun p => x.loadBytes x.s p.2 8
  valid : (ShapeRec.ofBytes bs).valid
    (bs.take 12 ++ leBytes 2 (leNat ((bs.drop 12).take 2) / 2 ^ 12 * 2 ^ 12) ++ bs.drop 14) = true
  featureOn : (ShapeRec.ofBytes bs).featureOff x.feat = false

/-- SHDEF of such a record: 0 where the context has no free slot, else the record in the slot, declared first where its flags
say so (R83, R85). -/
theorem execShdef_defines {s : State} {f : FForm} {x : Gx} {ps : List (Want × Leaf)} {bs : List Byte} (h : Defines s f x ps bs) :
    execShdef f s = .next (((x.s.ctx? x.t.ctx).bind Ctx.freeSlot).elim (x.doneS f.d 0) fun n =>
      let fin := x.placed f ps bs (((x.s.ctx? x.t.ctx).map fun c => (c.slot n).gen).getD 1) n
      if (ShapeRec.ofBytes bs).flags % 2 = 1 then x.declare n (ShapeRec.ofBytes bs) fin else fin x.s) := by
  obtain ⟨hr, ht, ha, hp, rfl, hv, hf⟩ := h
  unfold execShdef
  rw [gangF_runs _ hr]
  simp only [ht, ha, bne_self_eq_false, Bool.false_eq_true, if_false]
  refine congrArg _ ((memGo_passed hp _).trans ?_)
  simp only [hv, hf, Bool.not_true, Bool.false_eq_true, if_false]
  cases x.s.ctx? x.t.ctx with
  | none => rfl
  | some c => rw [Option.bind_some]; cases c.freeSlot <;> rfl

/-- SHREL of a current handle frees its slot under a new generation, once its lines are recalled (R84, R86). -/
theorem execShrel_current {s : State} {f : FForm} {x : Gx} {n : Nat} {c : Ctx} (h : Runs s 0xCE f free x) (ht : x.t.slot = 0)
    (hn : x.s.handleSlot x.t.ctx (x.usrc f.a .ui64 64 % 2 ^ 32) = some n) (hc : x.s.ctx? x.t.ctx = some c)
    (hr : x.Recalled (c.slot n).decl) :
    execShrel f s = .next (x.done
      (((if (c.slot n).decl = [] then x.s else x.moved.modSlot x.t.ctx n fun q => { q with decl := [] }).disarm x.t.ctx n).modSlot
        x.t.ctx n fun q => { q with used := false, gen := nextGen q.gen }) id) := by
  unfold execShrel
  rw [gangF_runs _ h]
  simp only [ht, hn, bne_self_eq_false, Bool.false_eq_true, if_false, undeclare_recalled hc hr]

/-- SHID of a current handle answers what its record is (R244). -/
theorem execShid_current {s : State} {f : FForm} {x : Gx} {n : Nat} {r : ShapeRec} (h : Runs s 0xCC f free x)
    (hn : x.s.handle x.t.ctx (x.usrc f.a .ui64 64 % 2 ^ 32) = some (n, r)) :
    execShid f s = .next (x.doneS f.d (BitVec.ofNat 64
      ((if x.s.declared x.t.ctx n then 2 ^ 24 else 0) + r.flags * 2 ^ 16 + r.rank * 2 ^ 8 + r.fmt))) := by
  unfold execShid
  rw [gangF_runs _ h]
  simp only [hn]

/-- Settles O38: SHDEF by whether the context has a free slot and the record is an object, SHREL and SHID of a current
handle. -/
theorem shapeRecords : Obligations.ShapeRecords := by
  refine ⟨?shdef, ?shrel, ?shid⟩
  case shdef =>
    intro s f x ps hr ht ha hp bs r hv hf
    have h : Defines s f x ps bs := ⟨hr, ht, ha, hp, rfl, hv, hf⟩
    rw [exec_shdef, execShdef_defines h]
    refine ⟨fun hn => ?_, fun c n hc hn => ?_⟩
    · rw [hn]
      exact uniResult_putS hr.1 _ _
    · rw [hc, Option.bind_some, hn]
      refine ⟨fun hd => ?_, fun qs hd hq ho hl => ?_⟩ <;> refine congrArg _ ?_
      · exact if_neg fun h1 => absurd (hd.symm.trans h1) Nat.zero_ne_one
      · exact (if_pos hd).trans (declare_recalled hq ho hl _)
  case shrel =>
    intro s f x n c h ht hn hc hr
    exact (exec_shrel s f).trans (execShrel_current h ht hn hc hr)
  case shid =>
    intro s f x n r h hn
    rw [exec_shid, execShid_current h hn]
    exact uniResult_putS h.1 _ _

end Sys2Proof.Machine

/-! SUPPORT. Integers of a type as numbers of bit vectors (R66), and the addresses and constants of LEA and LIH (R146, R147). -/

namespace Sys2Proof.Machine

open Sys2Proof

/-- The low bits of an integer are those of a bit vector. -/
theorem wrapInt_eq_ofInt (n : Nat) (i : Int) : wrapInt n i = (BitVec.ofInt n i).toNat := by
  rw [BitVec.toNat_ofInt]
  exact congrArg (fun m => (i % m).toNat) (Int.natCast_pow 2 n).symm

/-- An element's integer is the number that its bits stand for (R66). -/
theorem Ty.intVal_eq_numOf (t : Ty) (c : Nat) : t.intVal c = numOf t (BitVec.ofNat t.bits c) := by
  have hw : 2 ^ t.bits = 2 * 2 ^ (t.bits - 1) := by cases t <;> rfl
  have hc : ((2 ^ t.bits : Nat) : Int) = 2 ^ t.bits := Int.natCast_pow 2 t.bits
  unfold Ty.intVal numOf
  cases t.signed with
  | false => simp only [Bool.false_and, Bool.false_eq_true, if_false, BitVec.toNat_ofNat]
  | true =>
    simp only [Bool.true_and, if_true, decide_eq_true_eq, BitVec.toInt_eq_toNat_cond, BitVec.toNat_ofNat, hc]
    by_cases h : 2 ^ (t.bits - 1) ≤ c % 2 ^ t.bits
    · rw [if_pos h, if_neg (by omega)]
    · rw [if_neg h, if_pos (by omega)]

/-- LEA adds a sign-extended 32-bit index, scaled, in 64 bits (R146). -/
theorem leaOp_eq (fn a b : Nat) :
    leaOp fn a b = (BitVec.ofNat 64 a + (BitVec.ofNat 32 b).signExtend 64 * BitVec.ofNat 64 (2 ^ fn)).toNat := by
  have hb : Ty.i32.intVal b = (BitVec.ofNat 32 b).toInt := Ty.intVal_eq_numOf .i32 b
  have hp : (2 ^ fn : Int) = ((2 ^ fn : Nat) : Int) := (Int.natCast_pow 2 fn).symm
  unfold leaOp
  rw [wrapInt_eq_ofInt, hb, hp, BitVec.ofInt_add, BitVec.ofInt_mul, BitVec.ofInt_natCast, BitVec.ofInt_natCast]
  rfl

/-- Settles O6: NOP changes nothing but the PCs, and each of the others gives every enabled lane its value. -/
theorem movesAndConstants : Obligations.MovesAndConstants := by
  refine ⟨fun s f x h => ?nop, fun s f x h => ?sel, fun s f x h => ?lea, fun s f x h => ?mov, fun s f x h => ?lil,
    fun s f x h => ?lih⟩
  case nop => exact (exec_nop s f).trans (gangF_runs _ h)
  case sel =>
    rw [exec_sel]
    refine (vecF_runs _ h).congr fun l => ite_congr ?_ (fun _ => rfl) fun _ => rfl
    unfold Gx.maskC
    cases f.c with
    | m n => rfl
    | _ => exact congrArg (· = true) BitVec.getLsbD_zero
  case lea =>
    rw [exec_lea]
    exact (vecF_runs _ h).congr fun l => leaOp_eq f.fn (x.va f l) (x.srcB l f.b .i32 32)
  case mov => exact exec_mov s f ▸ vecF_runs _ h
  case lil => exact exec_lil s f ▸ vecF_runs _ h
  case lih => exact exec_lih s f ▸ vecF_runs _ h

end Sys2Proof.Machine

/-! SUPPORT. PACK, UNPK, QNT and DQNT (R169 to R172): words written to several registers of each lane, and that quantizing a block
takes a draw only for its elements other than zero (R71, R74, R76). -/

namespace Sys2Proof.Machine

open Sys2Proof

/-! ### Words in the registers of a lane -/

@[simp] theorem Group.putV_wb (g : Group) (l : Nat) (d : Name) (ws : List Word) (k : Nat) : (g.putV l d ws).wb k = g.wb k := by
  obtain ⟨v, hv⟩ := putV_frame g l d ws
  rw [hv]
  rfl

/-- Only a name of a vector register takes words (R53). -/
theorem Group.putV_other {d : Name} (hd : ∀ n, d ≠ .v n) (g : Group) (l : Nat) (ws : List Word) : g.putV l d ws = g := by
  unfold Group.putV
  split
  · exact absurd rfl (hd _)
  · rfl

/-- What words written one after another to a lane leave in each register of each lane. -/
theorem Group.putV_vreg {l k : Nat} (hl : l < 32) (hk : k < 32) (g : Group) (n : Nat) (ws : List Word) (p : Nat) :
    (g.putV l (.v n) ws).vreg p k =
      if k = l ∧ g.wb l + n ≤ p ∧ p < g.wb l + n + ws.length then ws.getD (p - (g.wb l + n)) 0 else g.vreg p k := by
  have go : ∀ (ws : List Word) (i : Nat) (g : Group),
      ((ws.zipIdx i).foldl (fun g w => g.setV (g.wb l + n + w.2) l w.1) g).vreg p k =
        if k = l ∧ g.wb l + n + i ≤ p ∧ p < g.wb l + n + i + ws.length then ws.getD (p - (g.wb l + n + i)) 0
        else g.vreg p k := by
    intro ws
    induction ws with
    | nil => intro i g; exact (if_neg fun h => absurd h.2.2 (Nat.not_lt.mpr h.2.1)).symm
    | cons w ws ih =>
      intro i g
      have hwb : (g.setV (g.wb l + n + i) l w).wb l = g.wb l := rfl
      rw [List.zipIdx_cons, List.foldl_cons, ih, hwb, setV_vreg _ _ _ _ _ _ hl hk, List.length_cons, ← Nat.add_assoc _ i]
      generalize g.wb l + n + i = q
      obtain hp | rfl | hp := Nat.lt_trichotomy p q
      · rw [if_neg (by omega), if_neg (by omega), if_neg (by omega)]
      · rw [if_neg (by omega)]
        exact ite_congr (propext (by omega)) (fun _ => by rw [Nat.sub_self]; rfl) fun _ => rfl
      · obtain ⟨j, rfl⟩ := Nat.exists_eq_add_of_lt hp
        rw [show q + j + 1 - (q + 1) = j by omega, show q + j + 1 - q = j + 1 by omega, List.getD_cons_succ,
          if_neg (c := q + j + 1 = q ∧ k = l) (by omega)]
        exact ite_congr (propext (by omega)) (fun _ => rfl) fun _ => rfl
  exact go ws 0 g

/-- What several lanes' words leave in each register of each lane. -/
theorem foldl_putV_vreg {k : Nat} (hk : k < 32) (n : Nat) (w : Nat → List Word) (p : Nat) :
    ∀ (ls : List Nat) (g : Group), (∀ l ∈ ls, l < 32) →
      (ls.foldl (fun g l => g.putV l (.v n) (w l)) g).vreg p k =
        if k ∈ ls ∧ g.wb k + n ≤ p ∧ p < g.wb k + n + (w k).length then (w k).getD (p - (g.wb k + n)) 0
        else g.vreg p k := by
  intro ls
  induction ls with
  | nil => intro g _; exact (if_neg fun h => absurd h.1 List.not_mem_nil).symm
  | cons l ls ih =>
    intro g hb
    obtain ⟨hl, hb⟩ := List.forall_mem_cons.mp hb
    rw [List.foldl_cons, ih _ hb, Group.putV_wb, Group.putV_vreg hl hk]
    by_cases hkl : k = l
    · subst hkl
      by_cases hp : g.wb k + n ≤ p ∧ p < g.wb k + n + (w k).length <;>
        simp only [hp, and_self, and_true, and_false, if_true, if_false, ite_self, List.mem_cons, true_or]
    · simp only [hkl, false_and, if_false, List.mem_cons, false_or]

/-- Words written to vector registers of several lanes change vector registers and nothing else. -/
theorem foldl_putV_frame (d : Name) (w : Nat → List Word) :
    ∀ (ls : List Nat) (g : Group), ∃ v, ls.foldl (fun g l => g.putV l d (w l)) g = g.withV v := by
  intro ls
  induction ls with
  | nil => exact fun g => ⟨g.vregs, rfl⟩
  | cons l ls ih =>
    intro g
    obtain ⟨v, hv⟩ := putV_frame g l d (w l)
    obtain ⟨u, hu⟩ := ih (g.putV l d (w l))
    exact ⟨u, by rw [List.foldl_cons, hu, hv]; rfl⟩

/-- Words written to no vector register change none (R53). -/
theorem foldl_putV_other {d : Name} (hd : ∀ n, d ≠ .v n) (w : Nat → List Word) :
    ∀ (ls : List Nat) (g : Group), ls.foldl (fun g l => g.putV l d (w l)) g = g
  | [], _ => rfl
  | l :: ls, g => by rw [List.foldl_cons, Group.putV_other hd, foldl_putV_other hd w ls g]

/-! ### UNPK -/

/-- The words that UNPK writes to a lane's registers: its elements where it is enabled, zeros where Z says so, none elsewhere
(R104, R170). -/
def Gx.unpkWords (x : Gx) (f : FForm) (l : Nat) : List Word :=
  if x.en.getLsbD l then
    (List.range (32 / f.ty.bits)).map fun i =>
      BitVec.ofNat 32 (unpackElem f (x.src l f.a f.ty 32 / 2 ^ (f.ty.bits * i) % 2 ^ f.ty.bits))
  else if f.z then List.replicate (32 / f.ty.bits) 0 else []

/-- UNPK's effect on the group. -/
def Gx.unpk (x : Gx) (f : FForm) (g : Group) : Group :=
  (lanesOf x.c.lanes).foldl (fun g l => g.putV l f.d (x.unpkWords f l)) g

/-- Writing a lane's words is the step that UNPK takes for it. -/
theorem Gx.putV_unpkWords (x : Gx) (f : FForm) (g : Group) (l : Nat) :
    g.putV l f.d (x.unpkWords f l) =
      if x.en.getLsbD l then
        g.putV l f.d ((List.range (32 / f.ty.bits)).map fun i =>
          BitVec.ofNat 32 (unpackElem f (x.src l f.a f.ty 32 / 2 ^ (f.ty.bits * i) % 2 ^ f.ty.bits)))
      else if f.z then g.putV l f.d (List.replicate (32 / f.ty.bits) 0) else g := by
  have nil : g.putV l f.d [] = g := by cases f.d <;> rfl
  unfold Gx.unpkWords
  simp only [apply_ite (g.putV l f.d), nil]

/-- UNPK completes with its effect once it reaches it (R170). -/
theorem execUnpk_runs {s : State} {f : FForm} {x : Gx} (h : Runs s 0x55 f (fun x => x.packOk f f.d) x) :
    execUnpk f s = .next (x.done x.s (x.unpk f)) := by
  have hx : x.unpk f = fun g => x.unpk f g := rfl
  rw [hx]
  simp only [Gx.unpk, Gx.putV_unpkWords]
  exact gangF_runs _ h

/-- UNPK to no vector register changes none (R53). -/
theorem Gx.unpk_discards {f : FForm} (hd : ∀ n, f.d ≠ .v n) (x : Gx) (g : Group) : x.unpk f g = g :=
  foldl_putV_other hd _ _ _

/-- A lane that UNPK writes gets 32/w words, any other none. -/
theorem Gx.unpkWords_length (x : Gx) (f : FForm) (l : Nat) :
    (x.unpkWords f l).length = if (x.en.getLsbD l || f.z) = true then 32 / f.ty.bits else 0 := by
  unfold Gx.unpkWords
  cases x.en.getLsbD l with
  | true => exact (List.length_map _).trans List.length_range
  | false =>
    cases f.z with
    | true => exact List.length_replicate
    | false => rfl

/-- Word i of a lane is its element i where it is enabled, and zero elsewhere. -/
theorem Gx.unpkWords_getD (x : Gx) (f : FForm) (l : Nat) {i : Nat} (hi : i < 32 / f.ty.bits) :
    (x.unpkWords f l).getD i 0 =
      if x.en.getLsbD l then
        BitVec.ofNat 32 (unpackElem f (x.src l f.a f.ty 32 / 2 ^ (f.ty.bits * i) % 2 ^ f.ty.bits))
      else 0 := by
  unfold Gx.unpkWords
  rw [List.getD_eq_getElem?_getD]
  cases x.en.getLsbD l with
  | true => rw [if_pos rfl, if_pos rfl, List.getElem?_map, List.getElem?_range hi]; rfl
  | false =>
    cases f.z with
    | true => rw [if_neg Bool.false_ne_true, if_pos rfl, List.getElem?_replicate, if_pos hi]; rfl
    | false => rfl

/-- What UNPK leaves in each register of each lane. -/
theorem Gx.unpk_vreg {f : FForm} {n : Nat} (hd : f.d = .v n) (x : Gx) (pos lane : Nat) (hl : lane < 32) :
    (x.unpk f x.g).vreg pos lane =
      let p := x.g.wb lane + n
      if (x.c.lanes.getLsbD lane && (x.en.getLsbD lane || f.z)) = true ∧ p ≤ pos ∧ pos < p + 32 / f.ty.bits then
        (if x.en.getLsbD lane then
          BitVec.ofNat 32 (unpackElem f (x.src lane f.a f.ty 32 / 2 ^ (f.ty.bits * (pos - p)) % 2 ^ f.ty.bits))
        else 0)
      else x.g.vreg pos lane := by
  unfold Gx.unpk
  rw [hd, foldl_putV_vreg hl _ _ _ _ _ fun l h => (mem_lanesOf.mp h).1]
  refine ite_congr (propext ?_) (fun hp => x.unpkWords_getD f lane (Nat.sub_lt_left_of_lt_add hp.2.1 hp.2.2)) fun _ => rfl
  rw [mem_lanesOf, x.unpkWords_length, Bool.and_eq_true]
  cases x.en.getLsbD lane || f.z with
  | true => exact and_congr_left fun _ => ⟨fun h => ⟨h.2, rfl⟩, fun h => ⟨hl, h.1⟩⟩
  | false => exact ⟨fun ⟨_, hle, hlt⟩ => absurd hlt (Nat.not_lt.mpr hle), fun h => absurd h.1.2 Bool.false_ne_true⟩

/-! ### Zeros draw nothing -/

theorem FV.eq_of_isZero {v : FV} (h : v.isZero = true) : ∃ neg e, v = .fin neg 0 e false := by
  unfold FV.isZero at h
  split at h
  · exact ⟨_, _, rfl⟩
  · exact absurd h Bool.false_ne_true

section
variable (mode : RM) (d d' : Nat)

/-- An exact magnitude goes up or stays whatever is drawn (R70). -/
theorem roundsUp_exact_draw (neg : Bool) (lo sh : Nat) : roundsUp mode neg lo 0 sh false d = roundsUp mode neg lo 0 sh false d' := by
  cases mode <;> rfl

/-- Zero rounds the same whatever is drawn (R70). -/
theorem roundMag_zero_draw (neg : Bool) (e q : Int) : roundMag mode neg 0 e q false d = roundMag mode neg 0 e q false d' := by
  simp only [roundMag, decide_true, Bool.not_false, Bool.and_self, if_true, ite_self, Nat.zero_div, Nat.zero_mod,
    bne_self_eq_false, Bool.and_false, Bool.or_self, roundsUp_exact_draw mode d d']

variable {v : FV} (h : v.isZero = true ∨ d = d')
include h

/-- A zero, scaled, is rounded to a format whatever is drawn (R70). -/
theorem Fmt.round_scale_draw (f : Fmt) (sat : Bool) (n : Int) :
    f.round mode sat d (v.scale n) = f.round mode sat d' (v.scale n) := by
  obtain hz | rfl := h
  · obtain ⟨neg, e, rfl⟩ := FV.eq_of_isZero hz
    rfl
  · rfl

/-- A zero among the raw INT4 elements of a block needs no draw (R76). -/
theorem quantInt4_draw (X : Int) : quantInt4 mode X d v = quantInt4 mode X d' v := by
  obtain hz | rfl := h
  · obtain ⟨neg, e, rfl⟩ := FV.eq_of_isZero hz
    simp only [quantInt4, FV.scale, FV.toInt, roundMag_zero_draw mode d d']
  · rfl

/-- Nor does a zero that is an outlier (R76). -/
theorem quantPayload_draw (sat : Bool) (X : Int) (even : Bool) :
    quantPayload mode sat X d even v = quantPayload mode sat X d' even v := by
  simp only [quantPayload, Fmt.round_scale_draw mode d d' h]

end

/-- Two ways of drawing agree on each of a block's elements that is not zero. -/
def DrawsAgree (xs : List FV) (ds es : Nat → Nat) : Prop := ∀ k < 32, (xs.getD k .nan).isZero = true ∨ ds k = es k

section
variable {xs : List FV} {ds es : Nat → Nat} (h : DrawsAgree xs ds es) (mode : RM) (sat : Bool) (X : Int)
include h

theorem quantElems_draws (hn : xs.length = 32) (e : Fmt) : quantElems e mode X ds xs = quantElems e mode X es xs := by
  refine List.map_congr_left fun p hp => ?_
  obtain ⟨hk, hx⟩ := List.mem_zipIdx' hp
  have := h p.2 (hn ▸ hk)
  rw [List.getD_eq_getElem?_getD, List.getElem?_eq_getElem hk, Option.getD_some, ← hx] at this
  exact Fmt.round_scale_draw mode _ _ this _ _ _

theorem quantPair_draws {j : Nat} (hj : j < 8) (pick : Option Nat) :
    quantPair mode sat X ds xs j pick = quantPair mode sat X es xs j pick := by
  have hn : ∀ k < 4, quantInt4 mode X (ds (4 * j + k)) (xs.getD (4 * j + k) .nan) =
      quantInt4 mode X (es (4 * j + k)) (xs.getD (4 * j + k) .nan) := fun k hk =>
    quantInt4_draw mode _ _ (h _ (by omega)) X
  have hp : ∀ k < 4, ∀ even, quantPayload mode sat X (ds (4 * j + k)) even (xs.getD (4 * j + k) .nan) =
      quantPayload mode sat X (es (4 * j + k)) even (xs.getD (4 * j + k) .nan) := fun k hk =>
    quantPayload_draw mode _ _ (h _ (by omega)) sat X
  unfold quantPair
  simp only [hn 0 (by decide), hn 1 (by decide), hn 2 (by decide), hn 3 (by decide), hp 0 (by decide), hp 1 (by decide),
    hp 2 (by decide), hp 3 (by decide)]

/-- A block is the same whatever is drawn for its zeros (R74, R76). -/
theorem quant_draws (hn : xs.length = 32) (f : BlkFmt) : f.quant mode sat ds xs = f.quant mode sat es xs := by
  have mx : ∀ f, quantMX f mode sat ds xs = quantMX f mode sat es xs := fun f => by
    simp only [quantMX, quantElems_draws h mode _ hn]
  have o4 : quantO4 mode sat ds xs = quantO4 mode sat es xs := by
    have pairs : ∀ (X : Int) (pick : Nat → Option Nat),
        ((List.range 8).flatMap fun j => quantPair mode sat X ds xs j (pick j)) =
          (List.range 8).flatMap fun j => quantPair mode sat X es xs j (pick j) := fun X pick =>
      congrArg List.flatten (List.map_congr_left fun j hj => quantPair_draws h mode sat X (List.mem_range.mp hj) _)
    simp only [quantO4, pairs]
  cases f with
  | o4 => exact o4
  | _ => exact mx _

end

/-! ### Writes in any order -/

section
variable (x : Gx) (d : Name) (r : DWord)

theorem Group.putV_withRng (g : Group) (l : Nat) (ws : List Word) : (g.withRng r).putV l d ws = (g.putV l d ws).withRng r := by
  cases d with
  | v n => exact List.foldl_hom (fun g : Group => g.withRng r) fun _ _ => rfl
  | _ => rfl

/-- Put leaves $rng as it finds it. -/
theorem Gx.put_withRng (z : Bool) (t : Ty) (val : Nat → Nat) (g : Group) :
    x.put d z t val (g.withRng r) = (x.put d z t val g).withRng r := by
  refine List.foldl_hom (fun g : Group => g.withRng r) fun g l => ?_
  simp only [Group.putV_withRng, apply_ite fun g : Group => g.withRng r]

/-- A uniform write looks at no vector register and not at $rng. -/
theorem Gx.putS_withV_withRng (v : DWord) (w : Sparse 32) (g : Group) :
    x.putS d v ((g.withV w).withRng r) = ((x.putS d v g).withV w).withRng r := by
  cases d with
  | s n =>
    simp only [Gx.putS, Group.setS]
    cases x.diverged <;> rfl
  | _ => rfl

end

/-! ### QNT -/

/-- The 32 values that QNT quantizes: zero for a lane that takes no part (R171). -/
def Gx.qntVals (x : Gx) (f : FForm) : List FV :=
  (List.range 32).map fun l => if x.en.getLsbD l then Fmt.f32.dec (x.src l f.a .f32 32) else .ofInt 0

theorem Gx.qntVals_length (x : Gx) (f : FForm) : (x.qntVals f).length = 32 := by
  rw [Gx.qntVals, List.length_map, List.length_range]

theorem Gx.qntVals_getD (x : Gx) (f : FForm) {k : Nat} (hk : k < 32) :
    (x.qntVals f).getD k .nan = if x.en.getLsbD k then Fmt.f32.dec (x.src k f.a .f32 32) else .ofInt 0 := by
  rw [Gx.qntVals, List.getD_eq_getElem?_getD, List.getElem?_map, List.getElem?_range hk]
  rfl

/-- QNT's rounding mode (R70, R171). -/
def Gx.qntMode (x : Gx) (f : FForm) : RM := modeOf x.g.cvm f.pfx (some (blkNibble (blockOf f)))

/-- The draws that the enabled lanes take, one after another (R171). -/
def Gx.qntDraws (x : Gx) (f : FForm) : List (Nat × Nat) × DWord :=
  drawAll (lanesOf x.en) x.g.rng fun _ rng => let d := drawOne (x.qntMode f) rng; (d.2, d.1)

/-- The block and scale that QNT makes of its values under some draws (R171). -/
def Gx.qntBlock (x : Gx) (f : FForm) (ds : Nat → Nat) : List Nat × Nat :=
  (blockOf f).quant (x.qntMode f) (satOf x.g.cvm f.pfx (some (blkNibble (blockOf f))) true) ds (x.qntVals f)

/-- The word of a block's data that a lane gets (R171). -/
def blockWord (data : List Nat) (l : Nat) : Nat := leNat (((data.drop (4 * l)).take 4).map (BitVec.ofNat 8))

/-- $rng after QNT's draws. -/
theorem Gx.qntDraws_rng (x : Gx) (f : FForm) : (x.qntDraws f).2 = rngAt (x.qntMode f) x.g.rng x.parts.length :=
  (drawAll_once (x.qntMode f) (fun _ d => d) _ (fun _ _ => rfl) _ (lanesOf_sorted _) _).1

/-- Every lane that takes part has its draw, and every other gives zero: the model's draws make the block of `drawOf`. -/
theorem Gx.qntBlock_draws (x : Gx) (f : FForm) :
    (x.qntBlock f fun l => (aget (x.qntDraws f).1 l).getD 0) = x.qntBlock f (x.drawOf (x.qntMode f)) := by
  refine quant_draws (fun k hk => ?_) _ _ (x.qntVals_length f) _
  cases he : x.en.getLsbD k with
  | false =>
    rw [x.qntVals_getD f hk, he]
    exact .inl rfl
  | true =>
    have hd := (drawAll_once (x.qntMode f) (fun _ d => d) _ (fun _ _ => rfl) _ (lanesOf_sorted x.en) x.g.rng).2 k
      (mem_lanesOf.mpr ⟨hk, he⟩)
    exact .inr (congrArg (·.getD 0) hd)

/-- QNT that reaches its effect: its data to D, its scale to C, one draw for each enabled lane. -/
theorem execQnt_runs {s : State} {f : FForm} {x : Gx} (h : Runs s 0x56 f free x) {q : List Nat × Nat}
    (hq : q = x.qntBlock f (x.drawOf (x.qntMode f))) {v : Sparse 32}
    (hv : x.put f.d f.z .b32 (blockWord q.1) x.g = x.g.withV v) :
    execQnt f s = .next (x.done x.s fun _ => ((x.putS f.c (BitVec.ofNat 64 q.2) x.g).withV v).withRng
      (rngAt (x.qntMode f) x.g.rng x.parts.length)) := by
  rw [← x.qntBlock_draws f] at hq
  rw [← x.qntDraws_rng f, ← x.putS_withV_withRng, ← hv, ← x.put_withRng, hq]
  exact (gangF_runs _ h).trans (congrArg _ (Gx.done_congr h.1 rfl))

/-! ### The four instructions -/

/-- Settles O12: UNPK is one run of words in each lane, QNT's block takes only the draws of the lanes that take part, and PACK and
DQNT give one word for each lane. `one` as the A of UNPK and DQNT is the model's choice (log 78). -/
theorem packingAndBlocks : Obligations.PackingAndBlocks := by
  refine ⟨?pack, ?unpk, ?discard, ?qnt, ?dqnt⟩
  case pack =>
    intro s f x n h hn
    rw [exec_pack]
    refine (gangF_runs _ h).trans ?_
    rw [hn]
    rfl
  case unpk =>
    intro s f x n h hn _
    obtain ⟨v, hv⟩ := foldl_putV_frame f.d (x.unpkWords f) (lanesOf x.c.lanes) x.g
    refine ⟨v, ?_, fun pos lane hl => ?_⟩
    · rw [exec_unpk, execUnpk_runs h, Gx.done_congr h.1 (h := fun g => g.withV v) hv]
    · exact (congrArg (Group.vreg · pos lane) hv).symm.trans (x.unpk_vreg hn pos lane hl)
  case discard =>
    intro s f x h hd
    rw [exec_unpk, execUnpk_runs h, funext (x.unpk_discards hd)]
    rfl
  case qnt =>
    intro s f x h
    obtain ⟨v, hv⟩ := x.put_frame f.d f.z .b32 (blockWord (x.qntBlock f (x.drawOf (x.qntMode f))).1) x.g
    refine ⟨v, _, x.putS_after f.c _, (exec_qnt s f).trans (execQnt_runs h rfl hv), fun pos lane hl => ?_⟩
    exact (congrArg (Group.vreg · pos lane) hv).symm.trans (x.put_reads _ _ _ _ pos lane hl)
  case dqnt =>
    intro s f x h b data
    rw [exec_dqnt, execDqnt, gangF_runs _ h]
    exact vecResult_put h.1 _ _ _ _

end Sys2Proof.Machine

/-! SUPPORT. Vector instructions of two or three words (R138 to R140): what a row of such instructions comes down to, a type's
integers as bit vectors, and the types that a well-formed instruction may have. -/

namespace Sys2Proof.Machine

open Sys2Proof

/-! ### Operands as words -/

section
variable (x : Gx) (f : FForm) (l : Nat)

/-- Operands are numbers of the type's width (R134). -/
theorem Gx.va_lt : x.va f l < 2 ^ f.ty.bits := x.src_lt _ _ _ _
theorem Gx.vb_lt : x.vb f l < 2 ^ f.ty.bits := x.srcB_lt _ _ _ _
theorem Gx.vc_lt : x.vc f l < 2 ^ f.ty.bits := x.src_lt _ _ _ _

@[simp] theorem Gx.toNat_va : (BitVec.ofNat f.ty.bits (x.va f l)).toNat = x.va f l :=
  (BitVec.toNat_ofNat _ _).trans (Nat.mod_eq_of_lt (x.va_lt f l))
@[simp] theorem Gx.toNat_vb : (BitVec.ofNat f.ty.bits (x.vb f l)).toNat = x.vb f l :=
  (BitVec.toNat_ofNat _ _).trans (Nat.mod_eq_of_lt (x.vb_lt f l))
@[simp] theorem Gx.toNat_vc : (BitVec.ofNat f.ty.bits (x.vc f l)).toNat = x.vc f l :=
  (BitVec.toNat_ofNat _ _).trans (Nat.mod_eq_of_lt (x.vc_lt f l))

end

/-! ### Rows -/

section
variable {mk : FForm → Instr} {op : Nat}

/-- An instruction with one value for each enabled lane gives those values. -/
theorem vecRow_of_vecF {m val : FForm → Gx → Nat → Nat} (he : ∀ s f, exec (mk f) s = vecF op f s (m f))
    (hv : ∀ f x l, m f x l = val f x l) : VecRow mk op val := fun s f x h => by
  rw [he]
  exact (vecF_runs _ h).congr (hv f x)

/-- An instruction of three words of its type is settled by what it makes of bit vectors. -/
theorem aluRow_of_vecF {val : (t : Ty) → (a b c : BitVec t.bits) → BitVec t.bits} (m : Ty → Nat → Nat → Nat → Nat)
    (he : ∀ s f, exec (mk f) s = vecF op f s fun x l => m f.ty (x.va f l) (x.vb f l) (x.vc f l))
    (hm : ∀ t (a b c : BitVec t.bits), m t a.toNat b.toNat c.toNat = (val t a b c).toNat) : AluRow mk op val :=
  vecRow_of_vecF he fun f x l => by rw [← hm, x.toNat_va, x.toNat_vb, x.toNat_vc]

/-- As aluRow_of_vecF, where B is a number. -/
theorem shiftRow_of_vecF {val : (t : Ty) → (a : BitVec t.bits) → Nat → (c : BitVec t.bits) → BitVec t.bits}
    (m : Ty → Nat → Nat → Nat → Nat)
    (he : ∀ s f, exec (mk f) s = vecF op f s fun x l => m f.ty (x.va f l) (x.vbz f l) (x.vc f l))
    (hm : ∀ t (a : BitVec t.bits) (b : Nat) (c : BitVec t.bits), m t a.toNat b c.toNat = (val t a b c).toNat) :
    ShiftRow mk op val :=
  vecRow_of_vecF he fun f x l => by rw [← hm, x.toNat_va, x.toNat_vc]

/-- A TY code names one type (R95). -/
theorem Ty.code_inj {t u : Ty} (h : t.code = u.code) : t = u := by
  have hof : ∀ t : Ty, Ty.ofCode t.code = t := fun t => by cases t <;> rfl
  rw [← hof t, h, hof]

/-- A well-formed instruction has an FN and a type that a form of its row lists (R106). -/
theorem form_of_wellFormed {i : Instr} {f : FForm} {r : Row} (hi : i.fform = some (op, f)) (hr : rowOf op = some r)
    (h : WellFormed i = true) : (r.forms.any fun p => p.1.contains f.fn && p.2.contains f.ty.code) = true := by
  simp only [WellFormed, hi, hr, Bool.and_eq_true] at h
  obtain ⟨⟨_, ha⟩, _⟩ := h
  cases hf : r.forms.any fun p => p.1.contains f.fn && p.2.contains f.ty.code with
  | true => rfl
  | false => simp only [Row.accepts, hf, Bool.false_and, Bool.false_eq_true] at ha

/-- Where every form of an opcode has FN 0, a well-formed instruction has one of its row's types (R106, R120). -/
theorem typesOf_of_fn0 {ts : List Ty} (hm : ∀ f, (mk f).fform = some (op, f))
    (hr : (rowOf op).map Row.forms = some (fn0 (ts.map Ty.code))) : TypesOf mk ts := fun f hw => by
  obtain ⟨r, hr, hforms⟩ := Option.map_eq_some_iff.mp hr
  have hform := form_of_wellFormed (hm f) hr hw
  rw [hforms, fn0, List.any_cons, List.any_nil, Bool.or_false, Bool.and_eq_true] at hform
  obtain ⟨u, hu, hc⟩ := List.mem_map.mp (List.contains_iff_mem.mp hform.2)
  exact Ty.code_inj hc ▸ hu

end

/-! ### A type's integers -/

section
variable (t : Ty) {w : Nat} (a b : BitVec w)

theorem Ty.bits_pos : 0 < t.bits := by cases t <;> decide

theorem Ty.intVal_toNat (a : BitVec t.bits) : t.intVal a.toNat = numOf t a := by
  rw [Ty.intVal_eq_numOf, BitVec.ofNat_toNat, BitVec.setWidth_eq]

/-- A word is the low bits of its integer, whichever sign the type gives it. -/
theorem ofInt_numOf : BitVec.ofInt w (numOf t a) = a := by
  unfold numOf
  split
  · exact BitVec.ofInt_toInt
  · rw [BitVec.ofInt_natCast, BitVec.ofNat_toNat, BitVec.setWidth_eq]

theorem numOf_eq_zero : numOf t a = 0 ↔ a = 0 := by
  refine ⟨fun h => by rw [← ofInt_numOf t a, h]; rfl, fun h => ?_⟩
  unfold numOf
  rw [h]
  split
  · exact BitVec.toInt_zero
  · rfl

/-- An operation on integers, wrapped to the type, is the bit vector of its result (R138). -/
theorem intOp_toNat (e : Int → Int → Int) (a b : BitVec t.bits) :
    intOp t e a.toNat b.toNat = (BitVec.ofInt t.bits (e (numOf t a) (numOf t b))).toNat := by
  rw [intOp, wrapInt_eq_ofInt, Ty.intVal_toNat, Ty.intVal_toNat]

theorem Ty.minInt_le_maxInt : t.minInt ≤ t.maxInt := by cases t <;> decide

/-- The model's clamp to the range of a type moves a number to the nearest end (R66). -/
theorem clampInt_range (i : Int) : clampInt i t.minInt t.maxInt = clampTo t i := by
  have hc : clampInt i t.minInt t.maxInt = max t.minInt (min t.maxInt i) := by
    have := Ty.minInt_le_maxInt t
    unfold clampInt
    omega
  rw [hc]
  unfold Ty.minInt Ty.maxInt clampTo
  cases t.signed <;> rfl

end

/-! ### Arithmetic, division, logic -/

/-- Settles O1: each instruction is an operation on the integers of its words, of which the result keeps w bits. -/
theorem integerArithmetic : Obligations.IntegerArithmetic := by
  refine ⟨?iadd, ?isub, ?imul, ?imulh, ?imad, ?imin, ?imax, ?iabs, ?ineg, ?iadds, ?isubs, ?types⟩
  case iadd =>
    refine aluRow_of_vecF (fun t a b _ => intOp t (· + ·) a b) exec_iadd fun t a b _ => ?_
    rw [intOp_toNat, BitVec.ofInt_add, ofInt_numOf, ofInt_numOf]
  case isub =>
    refine aluRow_of_vecF (fun t a b _ => intOp t (· - ·) a b) exec_isub fun t a b _ => ?_
    rw [intOp_toNat, Int.sub_eq_add_neg, BitVec.ofInt_add, BitVec.ofInt_neg, ofInt_numOf, ofInt_numOf, BitVec.sub_eq_add_neg]
  case imul =>
    refine aluRow_of_vecF (fun t a b _ => intOp t (· * ·) a b) exec_imul fun t a b _ => ?_
    rw [intOp_toNat, BitVec.ofInt_mul, ofInt_numOf, ofInt_numOf]
  case imulh =>
    exact aluRow_of_vecF (fun t a b _ => intOp t (fun a b => a * b / 2 ^ t.bits) a b) exec_imulh
      fun t a b _ => intOp_toNat t _ a b
  case imad =>
    refine aluRow_of_vecF (fun t a b c => intOp t (fun a b => a * b + t.intVal c) a b) exec_imad fun t a b c => ?_
    rw [intOp_toNat, BitVec.ofInt_add, BitVec.ofInt_mul, Ty.intVal_toNat, ofInt_numOf, ofInt_numOf, ofInt_numOf]
  case imin =>
    refine aluRow_of_vecF (fun t a b _ => intOp t (fun a b => if a ≤ b then a else b) a b) exec_imin fun t a b _ => ?_
    rw [intOp_toNat, apply_ite (BitVec.ofInt _), ofInt_numOf, ofInt_numOf, ← ite_not]
    simp only [Int.not_le]
  case imax =>
    refine aluRow_of_vecF (fun t a b _ => intOp t (fun a b => if a ≤ b then b else a) a b) exec_imax fun t a b _ => ?_
    rw [intOp_toNat, apply_ite (BitVec.ofInt _), ofInt_numOf, ofInt_numOf]
    rcases Int.lt_trichotomy (numOf t a) (numOf t b) with h | h | h
    · rw [if_pos (Int.le_of_lt h), if_pos h]
    · have hab : a = b := by rw [← ofInt_numOf t a, h, ofInt_numOf]
      rw [hab, ite_self, ite_self]
    · rw [if_neg (Int.not_le.mpr h), if_neg (Int.not_lt.mpr (Int.le_of_lt h))]
  case iabs =>
    refine aluRow_of_vecF (fun t a _ _ => intOp t (fun a _ => a.natAbs) a 0) exec_iabs fun t a _ _ => ?_
    exact (intOp_toNat t _ a 0).trans (by rw [BitVec.ofInt_natCast])
  case ineg =>
    refine aluRow_of_vecF (fun t a _ _ => intOp t (fun a _ => -a) a 0) exec_ineg fun t a _ _ => ?_
    exact (intOp_toNat t _ a 0).trans (by rw [BitVec.ofInt_neg, ofInt_numOf])
  case iadds =>
    refine aluRow_of_vecF (fun t a b _ => intOp t (fun a b => clampInt (a + b) t.minInt t.maxInt) a b) exec_iadds
      fun t a b _ => ?_
    rw [intOp_toNat, clampInt_range]
  case isubs =>
    refine aluRow_of_vecF (fun t a b _ => intOp t (fun a b => clampInt (a - b) t.minInt t.maxInt) a b) exec_isubs
      fun t a b _ => ?_
    rw [intOp_toNat, clampInt_range]
  case types =>
    exact ⟨typesOf_of_fn0 (fun _ => rfl) rfl, typesOf_of_fn0 (fun _ => rfl) rfl, typesOf_of_fn0 (fun _ => rfl) rfl⟩

/-- All ones stand for −1 in a signed type. -/
theorem numOf_allOnes {t : Ty} (h : t.signed = true) : numOf t (BitVec.allOnes t.bits) = -1 := by
  rw [numOf, if_pos h, BitVec.toInt_allOnes, if_pos (Ty.bits_pos t)]

/-- Settles O2: quotient and remainder of the integers truncate toward zero, and signed overflow is a division by −1. -/
theorem integerDivision : Obligations.IntegerDivision := by
  refine ⟨?idiv, ?irem, ?types⟩
  case idiv =>
    refine aluRow_of_vecF (fun t a b _ => divOp t a b) exec_idiv fun t a b _ => ?_
    simp only [divOp, Ty.intVal_toNat, numOf_eq_zero, wrapInt_eq_ofInt]
    split
    case isTrue => exact (BitVec.toNat_allOnes).symm
    case isFalse =>
      split
      case isTrue h =>
        obtain ⟨hs, rfl, rfl⟩ := h
        rw [numOf_allOnes hs, Int.tdiv_neg, Int.tdiv_one, BitVec.ofInt_neg, ofInt_numOf, BitVec.neg_intMin]
      case isFalse => rfl
  case irem =>
    refine aluRow_of_vecF (fun t a b _ => remOp t a b) exec_irem fun t a b _ => ?_
    simp only [remOp, Ty.intVal_toNat, numOf_eq_zero, wrapInt_eq_ofInt]
    split
    case isTrue => rw [ofInt_numOf]
    case isFalse =>
      split
      case isTrue h =>
        obtain ⟨hs, rfl, rfl⟩ := h
        rw [numOf_allOnes hs, Int.tmod_neg, Int.tmod_one]
        rfl
      case isFalse => rw [Int.tmod_def]
  case types => exact ⟨typesOf_of_fn0 (fun _ => rfl) rfl, typesOf_of_fn0 (fun _ => rfl) rfl⟩

/-- Settles O3: the numbers' bits are the words' bits, and the complement of a number is its distance from all ones. -/
theorem logic : Obligations.Logic := by
  refine ⟨?and, ?or, ?xor, ?andn, ?not⟩
  case and => exact aluRow_of_vecF (fun _ a b _ => a &&& b) exec_and fun _ a b _ => (BitVec.toNat_and a b).symm
  case or => exact aluRow_of_vecF (fun _ a b _ => a ||| b) exec_or fun _ a b _ => (BitVec.toNat_or a b).symm
  case xor => exact aluRow_of_vecF (fun _ a b _ => a ^^^ b) exec_xor fun _ a b _ => (BitVec.toNat_xor a b).symm
  case andn =>
    refine aluRow_of_vecF (fun t a b _ => a &&& (2 ^ t.bits - 1 - b)) exec_andn fun t a b _ => ?_
    rw [BitVec.toNat_and, BitVec.toNat_not]
  case not => exact aluRow_of_vecF (fun t a _ _ => 2 ^ t.bits - 1 - a) exec_not fun _ a _ _ => BitVec.toNat_not.symm

end Sys2Proof.Machine

/-! SUPPORT. Shifts, bit fields and counts (R141 to R143): each operation on numbers as one on bit vectors. -/

namespace Sys2Proof.Machine

open Sys2Proof

/-! ### Shifts -/

section
variable {w : Nat} (a : BitVec w)

theorem shlOp_toNat (b : Nat) : shlOp w a.toNat b = (a <<< (b % 256)).toNat := by
  unfold shlOp
  dsimp only
  split
  · rw [BitVec.toNat_shiftLeft, Nat.shiftLeft_eq]
  · rw [BitVec.shiftLeft_eq_zero (by omega)]
    rfl

theorem shrOp_toNat (b : Nat) : shrOp w a.toNat b = (a >>> (b % 256)).toNat := by
  unfold shrOp
  dsimp only
  split
  · rw [BitVec.toNat_ushiftRight, Nat.shiftRight_eq_div_pow]
  · rw [BitVec.ushiftRight_eq_zero (by omega)]
    rfl

/-- The bits that leave a rotated word at the top come in at the bottom, where the shift has left zeros. -/
theorem rotOp_toNat (b : Nat) : rotOp w a.toNat b = (a.rotateLeft (b % 256)).toNat := by
  have hdisj : a <<< (b % 256 % w) &&& a >>> (w - b % 256 % w) = 0#w := by
    refine BitVec.eq_of_getLsbD_eq fun i hi => ?_
    rw [BitVec.getLsbD_and, BitVec.getLsbD_shiftLeft, BitVec.getLsbD_ushiftRight, BitVec.getLsbD_zero]
    by_cases h : i < b % 256 % w
    · rw [decide_eq_true h, Bool.not_true, Bool.and_false, Bool.false_and, Bool.false_and]
    · rw [BitVec.getLsbD_of_ge a (w - b % 256 % w + i) (by omega), Bool.and_false]
  rw [BitVec.rotateLeft_def, ← BitVec.add_eq_or_of_and_eq_zero _ _ hdisj, BitVec.toNat_add, BitVec.toNat_shiftLeft,
    BitVec.toNat_ushiftRight, Nat.mod_add_mod, Nat.shiftLeft_eq, Nat.shiftRight_eq_div_pow]
  rfl

theorem numOf_bounds (t : Ty) : -2 ^ w ≤ numOf t a ∧ numOf t a < 2 ^ w := by
  have ha := a.isLt
  have hc : ((2 ^ w : Nat) : Int) = 2 ^ w := Int.natCast_pow 2 w
  unfold numOf
  rw [BitVec.toInt_eq_toNat_cond]
  omega

/-- Past the width a shift to the right leaves no more than the sign. -/
theorem ediv_two_pow_of_bounds {i : Int} {n : Nat} (h : -2 ^ w ≤ i ∧ i < 2 ^ w) (hn : w ≤ n) :
    i / 2 ^ n = if i < 0 then -1 else 0 := by
  have hp : (2 ^ w : Int) ≤ 2 ^ n := by
    have hc : ∀ k, ((2 ^ k : Nat) : Int) = 2 ^ k := Int.natCast_pow 2
    rw [← hc, ← hc]
    exact Int.ofNat_le.mpr (Nat.pow_le_pow_right (by decide) hn)
  split
  · exact Int.ediv_eq_neg_one_of_neg_of_le ‹_› (by omega)
  · exact Int.ediv_eq_zero_of_lt (by omega) (by omega)

/-- A word's integer shifted to the right is that of the word shifted, with copies of a signed type's sign. -/
theorem ofInt_numOf_ediv (t : Ty) (n : Nat) :
    BitVec.ofInt w (numOf t a / 2 ^ n) = if t.signed then a.sshiftRight n else a >>> n := by
  have hc : (2 ^ n : Int) = ((2 ^ n : Nat) : Int) := (Int.natCast_pow 2 n).symm
  unfold numOf
  rw [hc]
  split
  · rw [← Int.shiftRight_eq_div_pow, ← BitVec.toInt_sshiftRight, BitVec.ofInt_toInt]
  · rw [← Int.natCast_ediv, ← Nat.shiftRight_eq_div_pow, ← BitVec.toNat_ushiftRight, BitVec.ofInt_natCast,
      BitVec.ofNat_toNat, BitVec.setWidth_eq]

end

theorem sarOp_toNat (t : Ty) (a : BitVec t.bits) (b : Nat) :
    sarOp t a.toNat b = (if t.signed then a.sshiftRight (b % 256) else a >>> (b % 256)).toNat := by
  have hcut : numOf t a / 2 ^ (if b % 256 < t.bits then b % 256 else t.bits) = numOf t a / 2 ^ (b % 256) := by
    split
    · rfl
    · rw [ediv_two_pow_of_bounds (numOf_bounds a t) Nat.le.refl, ediv_two_pow_of_bounds (numOf_bounds a t) (by omega)]
  rw [← ofInt_numOf_ediv, ← hcut, ← wrapInt_eq_ofInt, ← Ty.intVal_toNat]
  rfl

/-- Settles O4: each shift is that of bit vectors, which gives zeros, or copies of the sign, past the width. -/
theorem shifts : Obligations.Shifts := by
  refine ⟨?shl, ?shr, ?sar, ?rot, ?types⟩
  case shl => exact shiftRow_of_vecF (fun t a b _ => shlOp t.bits a b) exec_shl fun _ a b _ => shlOp_toNat a b
  case shr => exact shiftRow_of_vecF (fun t a b _ => shrOp t.bits a b) exec_shr fun _ a b _ => shrOp_toNat a b
  case sar => exact shiftRow_of_vecF (fun t a b _ => sarOp t a b) exec_sar fun t a b _ => sarOp_toNat t a b
  case rot => exact shiftRow_of_vecF (fun t a b _ => rotOp t.bits a b) exec_rot fun _ a b _ => rotOp_toNat a b
  case types =>
    exact ⟨typesOf_of_fn0 (fun _ => rfl) rfl, typesOf_of_fn0 (fun _ => rfl) rfl, typesOf_of_fn0 (fun _ => rfl) rfl,
      typesOf_of_fn0 (fun _ => rfl) rfl⟩

/-! ### Bit fields -/

/-- The low n bits of an integer, read with their sign. -/
theorem bmod_two_pow {n : Nat} (hn : n ≠ 0) (i : Int) :
    i.bmod (2 ^ n) = if i % 2 ^ n ≥ 2 ^ (n - 1) then i % 2 ^ n - 2 ^ n else i % 2 ^ n := by
  have hc : ((2 ^ n : Nat) : Int) = 2 ^ n := Int.natCast_pow 2 n
  have hp : (2 ^ n : Int) = 2 * 2 ^ (n - 1) := by
    obtain ⟨k, rfl⟩ := Nat.exists_eq_succ_of_ne_zero hn
    exact (Int.pow_succ 2 k).trans (Int.mul_comm _ _)
  rw [Int.bmod_def, hc]
  omega

theorem bfeOp_toNat (t : Ty) (a : BitVec t.bits) (b : Nat) :
    bfeOp t a.toNat b =
      (let n := min (b / 256 % 256) t.bits
      if n = 0 then 0
      else if t.signed then ((a.sshiftRight (b % 256)).setWidth n).signExtend t.bits
      else ((a >>> (b % 256)).setWidth n).setWidth t.bits).toNat := by
  have hn : min (b / 256 % 256) t.bits ≤ t.bits := Nat.min_le_right _ _
  have hmin : Nat.min (b / 256 % 256) t.bits = min (b / 256 % 256) t.bits := rfl
  unfold bfeOp
  dsimp only
  rw [hmin]
  generalize min (b / 256 % 256) t.bits = n at hn ⊢
  split
  case isTrue => rfl
  case isFalse h0 =>
    split
    case isTrue hs =>
      have hsar : (a.sshiftRight (b % 256)).toInt = t.intVal a.toNat / 2 ^ (b % 256) := by
        rw [Ty.intVal_toNat, numOf, if_pos hs, BitVec.toInt_sshiftRight, Int.shiftRight_eq_div_pow, Int.natCast_pow]
        rfl
      rw [wrapInt_eq_ofInt, ← bmod_two_pow h0, ← hsar, ← BitVec.toInt_signExtend_eq_toInt_bmod_of_le _ hn,
        BitVec.signExtend_eq_setWidth_of_le _ hn]
      rfl
    case isFalse =>
      rw [BitVec.toNat_setWidth, BitVec.toNat_setWidth, BitVec.toNat_ushiftRight, Nat.shiftRight_eq_div_pow]
      exact (Nat.mod_eq_of_lt (Nat.lt_of_lt_of_le (Nat.mod_lt _ (Nat.two_pow_pos n)) (Nat.pow_le_pow_right (by decide) hn))).symm

/-- A number made of three runs of bits: p bits of x, then k bits of y, then what x has above them. -/
theorem testBit_spliced (x y p k i : Nat) :
    (x % 2 ^ p + y % 2 ^ k * 2 ^ p + x / 2 ^ (p + k) * 2 ^ (p + k)).testBit i =
      if p ≤ i ∧ i < p + k then y.testBit (i - p) else x.testBit i := by
  have hform : x % 2 ^ p + y % 2 ^ k * 2 ^ p + x / 2 ^ (p + k) * 2 ^ (p + k) =
      2 ^ p * (2 ^ k * (x / 2 ^ (p + k)) + y % 2 ^ k) + x % 2 ^ p := by
    rw [Nat.pow_add, Nat.mul_add, Nat.add_comm, Nat.add_comm (x % 2 ^ p), ← Nat.add_assoc, Nat.mul_comm _ (2 ^ p * 2 ^ k),
      Nat.mul_comm (y % 2 ^ k), Nat.mul_assoc]
  rw [hform, Nat.testBit_two_pow_mul_add _ (Nat.mod_lt _ (Nat.two_pow_pos p)),
    Nat.testBit_two_pow_mul_add _ (Nat.mod_lt _ (Nat.two_pow_pos k)), Nat.testBit_mod_two_pow, Nat.testBit_mod_two_pow,
    Nat.testBit_div_two_pow]
  obtain hi | hi := Nat.lt_or_ge i p
  · rw [if_pos hi, if_neg (by omega), decide_eq_true hi, Bool.true_and]
  · rw [if_neg (by omega)]
    by_cases hk : i - p < k
    · rw [if_pos hk, if_pos (by omega), decide_eq_true hk, Bool.true_and]
    · rw [if_neg hk, if_neg (by omega)]
      congr 1
      omega

/-- The bits that BFI takes from A: n of them from p on, as far as the word reaches (R142). -/
theorem getLsbD_field {w : Nat} (n p i : Nat) :
    (((BitVec.allOnes (min n w)).setWidth w) <<< p).getLsbD i = decide (p ≤ i ∧ i < min (p + min n w) w) := by
  rw [BitVec.getLsbD_shiftLeft, BitVec.getLsbD_setWidth, BitVec.getLsbD_allOnes, Bool.eq_iff_iff]
  simp only [Bool.and_eq_true, Bool.not_eq_true', decide_eq_true_eq, decide_eq_false_iff_not]
  omega

/-- A word in which a mask picks the bits of another. -/
theorem getLsbD_masked {w : Nat} (a c m : BitVec w) (i : Nat) :
    ((c &&& ~~~m) ||| (a &&& m)).getLsbD i = if m.getLsbD i then a.getLsbD i else c.getLsbD i := by
  rw [BitVec.getLsbD_or, BitVec.getLsbD_and, BitVec.getLsbD_and, BitVec.getLsbD_not]
  obtain hi | hi := Nat.lt_or_ge i w
  · rw [decide_eq_true hi, Bool.true_and]
    cases m.getLsbD i with
    | false => rw [Bool.and_false, Bool.or_false, Bool.not_false, Bool.and_true, if_neg Bool.false_ne_true]
    | true => rw [Bool.and_true, Bool.not_true, Bool.and_false, Bool.false_or, if_pos rfl]
  · rw [BitVec.getLsbD_of_ge c i hi, BitVec.getLsbD_of_ge a i hi, Bool.false_and, Bool.false_and, ite_self]
    rfl

theorem bfiOp_toNat {w : Nat} (a c : BitVec w) (b : Nat) :
    bfiOp w a.toNat b c.toNat =
      (let m := ((BitVec.allOnes (min (b / 256 % 256) w)).setWidth w) <<< (b % 256)
      (c &&& ~~~m) ||| ((a <<< (b % 256)) &&& m)).toNat := by
  have hmin : ∀ m n, Nat.min m n = min m n := fun _ _ => rfl
  refine Nat.eq_of_testBit_eq fun i => ?_
  dsimp only [bfiOp]
  rw [BitVec.testBit_toNat, getLsbD_masked, getLsbD_field, hmin, hmin]
  generalize b / 256 % 256 = n
  generalize b % 256 = p
  split
  case isTrue hp => rw [BitVec.testBit_toNat, decide_eq_false (by omega), if_neg Bool.false_ne_true]
  case isFalse hp =>
    obtain ⟨k, hk⟩ : ∃ k, min (p + min n w) w = p + k := Nat.exists_eq_add_of_le (by omega)
    rw [hk, Nat.add_sub_cancel_left, testBit_spliced, BitVec.testBit_toNat, BitVec.testBit_toNat, BitVec.getLsbD_shiftLeft]
    by_cases hi : p ≤ i ∧ i < p + k
    · rw [if_pos hi, decide_eq_true hi, if_pos rfl, decide_eq_true (by omega), decide_eq_false (by omega)]
      rfl
    · rw [if_neg hi, decide_eq_false hi, if_neg Bool.false_ne_true]

/-! ### Counts and reversal -/

/-- Where a run of numbers of which all answer ends, before the first that does not. -/
theorem length_takeWhile_range {p : Nat → Bool} {k n : Nat} (hk : k ≤ n) (h : ∀ i < k, p i = true)
    (hend : k < n → p k = false) : ((List.range n).takeWhile p).length = k := by
  obtain ⟨m, rfl⟩ := Nat.exists_eq_add_of_le hk
  rw [List.range_add, List.takeWhile_append_of_pos fun i hi => h i (List.mem_range.mp hi), List.length_append, List.length_range]
  cases m with
  | zero => rfl
  | succ m =>
    rw [List.range_succ_eq_map, List.map_cons, List.takeWhile_cons_of_neg]
    · rfl
    · exact Bool.not_eq_true _ ▸ hend (Nat.lt_add_of_pos_right (Nat.succ_pos m))

theorem popOp_toNat {w : Nat} (a : BitVec w) :
    popOp w a.toNat = (BitVec.ofNat w ((List.range w).countP fun i => a.getLsbD i)).toNat := by
  have hle : (List.range w).countP (fun i => a.getLsbD i) ≤ w := Nat.le_trans List.countP_le_length (Nat.le_of_eq List.length_range)
  rw [BitVec.toNat_ofNat, Nat.mod_eq_of_lt (Nat.lt_of_le_of_lt hle Nat.lt_two_pow_self), List.countP_eq_length_filter]
  rfl

/-- The bits above the highest 1 are the ones at and past the number's length. -/
theorem clzOp_toNat {w : Nat} (a : BitVec w) :
    clzOp w a.toNat = (BitVec.ofNat w ((List.range w).takeWhile fun i => !a.getMsbD i).length).toNat := by
  have hlen : ((List.range w).takeWhile fun i => !a.getMsbD i).length = w - bitLen a.toNat := by
    have hlt : a.toNat < 2 ^ bitLen a.toNat := by
      unfold bitLen
      split
      · omega
      · exact Nat.lt_log2_self
    refine length_takeWhile_range (Nat.sub_le _ _) (fun i hi => ?_) fun hk => ?_
    · rw [BitVec.getMsbD_eq_getLsbD, ← BitVec.testBit_toNat,
        Nat.testBit_lt_two_pow (Nat.lt_of_lt_of_le hlt (Nat.pow_le_pow_right (by decide) (by omega))), Bool.and_false]
      rfl
    · have h0 : a.toNat ≠ 0 := fun h => Nat.lt_irrefl w (by rwa [h] at hk)
      have hb : bitLen a.toNat = a.toNat.log2 + 1 := if_neg h0
      have hw : a.toNat.log2 < w := (Nat.log2_lt h0).mpr a.isLt
      rw [BitVec.getMsbD_eq_getLsbD, ← BitVec.testBit_toNat, show w - 1 - (w - bitLen a.toNat) = a.toNat.log2 by omega,
        Nat.testBit_log2 h0, decide_eq_true hk]
      rfl
  rw [hlen, BitVec.toNat_ofNat, Nat.mod_eq_of_lt (Nat.lt_of_le_of_lt (Nat.sub_le _ _) Nat.lt_two_pow_self)]
  rfl

/-- A sum taken from left to right. -/
theorem foldl_add_eq {α M : Type} [Zero M] [Add M] [Std.Associative (α := M) (· + ·)]
    [Std.LawfulIdentity (α := M) (· + ·) 0] (g : α → M) (l : List α) (m : M) :
    l.foldl (fun r i => r + g i) m = m + (l.map g).sum := by
  induction l generalizing m with
  | nil => exact (Std.LawfulRightIdentity.right_id (op := (· + ·)) m).symm
  | cons i l ih =>
    rw [List.foldl_cons, ih, List.map_cons, List.sum_cons]
    exact Std.Associative.assoc (op := (· + ·)) _ _ _

theorem sum_map_double (g : Nat → Nat) (l : List Nat) : (l.map fun i => 2 * g i).sum = 2 * (l.map g).sum := by
  induction l with
  | nil => rfl
  | cons i l ih => rw [List.map_cons, List.map_cons, List.sum_cons, List.sum_cons, ih, Nat.mul_add]

/-- A reversed number is that of one bit less, doubled, with the top bit as its lowest. -/
theorem brevOp_succ (w a : Nat) : brevOp (w + 1) a = 2 * brevOp w a + (a.testBit w).toNat := by
  have hdouble : (((List.range w).filter a.testBit).map fun i => 2 ^ (w - i)).sum =
      2 * (((List.range w).filter a.testBit).map fun i => 2 ^ (w - 1 - i)).sum := by
    rw [← sum_map_double]
    refine congrArg List.sum (List.map_congr_left fun i hi => ?_)
    have hi : i < w := List.mem_range.mp (List.mem_filter.mp hi).1
    rw [Nat.mul_comm, ← Nat.pow_succ, Nat.succ_eq_add_one, show w - 1 - i + 1 = w - i by omega]
  have hlast : (([w].filter a.testBit).map fun i => 2 ^ (w - i)).sum = (a.testBit w).toNat := by
    rw [List.filter_cons, List.filter_nil]
    cases a.testBit w with
    | false => rfl
    | true => rw [if_pos rfl, List.map_cons, List.map_nil, Nat.sub_self]; rfl
  unfold brevOp
  rw [foldl_add_eq, foldl_add_eq, Nat.add_sub_cancel, List.range_succ, List.filter_append, List.map_append, List.sum_append,
    hdouble, hlast, Nat.zero_add, Nat.zero_add]

theorem testBit_brevOp (a w i : Nat) : (brevOp w a).testBit i = (decide (i < w) && a.testBit (w - 1 - i)) := by
  induction w generalizing i with
  | zero => exact Nat.zero_testBit i
  | succ w ih =>
    rw [brevOp_succ]
    show (2 ^ 1 * brevOp w a + (a.testBit w).toNat).testBit i = _
    rw [Nat.testBit_two_pow_mul_add _ (Bool.toNat_lt _)]
    cases i with
    | zero => exact (Nat.testBit_bool_toNat _ 0).trans rfl
    | succ i =>
      rw [if_neg (by omega), ih, Nat.add_sub_cancel, Nat.add_sub_cancel, Nat.sub_sub, Nat.add_comm 1]
      simp only [Nat.add_lt_add_iff_right]

theorem brevOp_toNat {w : Nat} (a : BitVec w) : brevOp w a.toNat = a.reverse.toNat := by
  refine Nat.eq_of_testBit_eq fun i => ?_
  rw [testBit_brevOp, BitVec.testBit_toNat, BitVec.testBit_toNat, BitVec.getLsbD_reverse, BitVec.getMsbD_eq_getLsbD]

/-- Settles O5: a field is a word shifted and cut, or put in by a mask; the counts are those of the word's own bits. -/
theorem bitFieldsAndCounts : Obligations.BitFieldsAndCounts := by
  refine ⟨?bfe, ?bfi, ?bfeTypes, ?bfiTypes, ?popc, ?clz, ?brev⟩
  case bfe => exact shiftRow_of_vecF (fun t a b _ => bfeOp t a b) exec_bfe fun t a b _ => bfeOp_toNat t a b
  case bfi => exact shiftRow_of_vecF (fun t a b c => bfiOp t.bits a b c) exec_bfi fun _ a b c => bfiOp_toNat a c b
  case bfeTypes => exact typesOf_of_fn0 (fun _ => rfl) rfl
  case bfiTypes => exact typesOf_of_fn0 (fun _ => rfl) rfl
  case popc => exact aluRow_of_vecF (fun t a _ _ => popOp t.bits a) exec_popc fun _ a _ _ => popOp_toNat a
  case clz => exact aluRow_of_vecF (fun t a _ _ => clzOp t.bits a) exec_clz fun _ a _ _ => clzOp_toNat a
  case brev => exact aluRow_of_vecF (fun t a _ _ => brevOp t.bits a) exec_brev fun _ a _ _ => brevOp_toNat a

end Sys2Proof.Machine

/-! SUPPORT. Compares (R144, R159) and floating-point instructions (R157 to R164): one rounding with one draw, and the operations
on codes that round nothing. -/

namespace Sys2Proof.Machine

open Sys2Proof

/-! ### Compares -/

section
variable {mk : FForm → Instr} {op : Nat}

/-- An instruction with one bit for each enabled lane gives those bits. -/
theorem maskRow_of_maskF {m bit : FForm → Gx → Nat → Bool} (he : ∀ s f, exec (mk f) s = maskF op f s (m f))
    (hv : ∀ f x l, m f x l = bit f x l) : MaskRow mk op bit := fun s f x h => by
  rw [he, ← show m f x = bit f x from funext (hv f x)]
  exact maskF_runs _ h

end

/-- Settles O7: the numbers compare as the words, or the integers, that they stand for. -/
theorem compares : Obligations.Compares := by
  refine ⟨?icmp, ?fcmp⟩
  case icmp =>
    refine maskRow_of_maskF exec_icmp fun f x l => ?_
    rw [← x.toNat_va, ← x.toNat_vb, BitVec.ofNat_toNat, BitVec.ofNat_toNat, BitVec.setWidth_eq, BitVec.setWidth_eq]
    generalize BitVec.ofNat f.ty.bits (x.va f l) = a
    generalize BitVec.ofNat f.ty.bits (x.vb f l) = b
    have heq : decide (a.toNat = b.toNat) = (a == b) := decide_eq_decide.mpr BitVec.toNat_inj
    have hne : (a.toNat != b.toNat) = (a != b) := congrArg (! ·) heq
    simp only [icmpBit, Ty.intVal_toNat, Nat.mod_eq_of_lt a.isLt, Nat.mod_eq_of_lt b.isLt, heq, hne]
    rfl
  case fcmp => exact maskRow_of_maskF exec_fcmp fun _ _ _ => rfl

/-! ### Rounding -/

section
variable {mk : FForm → Instr} {op : Nat}

/-- An instruction that rounds each lane's exact result to a type takes one draw for each (R71, R157). -/
theorem drawRow_of_roundRes {t : FForm → Ty} {ops : FForm → Gx → Nat → List FV} {fin : FForm → Gx → Nat → Bool}
    {v : FForm → Gx → Nat → FV} (hf : ∀ f x l, fin f x l = (ops f x l).all infFree)
    (he : ∀ s f, exec (mk f) s = drawF op f s (t f) fun x l =>
      roundRes (t f) (x.mode f (t f)) (x.sat f (t f)) (fin f x l) (v f x l)) :
    DrawRow mk op t fun f x l => x.rounded f (t f) (ops f x l) (v f x l) := fun s f x h => by
  rw [he]
  refine drawF_runs _ _ _ (fun l r => ?_) h
  rw [hf]
  rfl

/-- A rounding instruction of one operand (R157). -/
theorem drawRow_of_fUn {val : FV → FV} (he : ∀ s f, exec (mk f) s = fUn op f s val) :
    DrawRow mk op FForm.ty fun f x l => x.rounded f f.ty [x.fa f l] (val (x.fa f l)) :=
  drawRow_of_roundRes (fin := fun f x l => infFree (x.fa f l)) (fun _ _ _ => (Bool.and_true _).symm) he

/-- A rounding instruction of two operands (R157). -/
theorem drawRow_of_fBin {val : RM → FV → FV → FV} (he : ∀ s f, exec (mk f) s = fBin op f s val) :
    DrawRow mk op FForm.ty fun f x l => x.rounded f f.ty [x.fa f l, x.fb f l] (val (x.mode f f.ty) (x.fa f l) (x.fb f l)) :=
  drawRow_of_roundRes (fin := fun f x l => infFree (x.fa f l) && infFree (x.fb f l))
    (fun _ _ _ => congrArg (_ && ·) (Bool.and_true _).symm) he

/-- A dot product rounds once to FP32 (R163). -/
theorem drawRow_of_fDot {n : Nat} (he : ∀ s f, exec (mk f) s = fDot op n f s) :
    DrawRow mk op (fun _ => .f32) fun f x l => x.rounded f .f32 (x.dotC f l :: x.dotA f n l ++ x.dotB f n l)
      (dotSum (x.down f .f32) (x.dotC f l) ((x.dotA f n l).zip (x.dotB f n l))) :=
  drawRow_of_roundRes (t := fun _ => .f32) (fin := fun f x l => (x.dotC f l :: (x.dotA f n l ++ x.dotB f n l)).all infFree)
    (fun _ _ _ => rfl) he

end

/-- Settles O8: each instruction is an exact result of its operands, rounded once with its lane's draw. -/
theorem floatRounding : Obligations.FloatRounding := by
  refine ⟨?fadd, ?fsub, ?fmul, ?fma, ?frcp, ?frsq, ?fsqrt, ?fdiv, ?fscal, ?fdot2, ?fdot4⟩
  case fadd => exact drawRow_of_fBin (val := fun m a b => a.add (m == .rdn) b) exec_fadd
  case fsub => exact drawRow_of_fBin (val := fun m a b => a.add (m == .rdn) b.neg) exec_fsub
  case fmul => exact drawRow_of_fBin (val := fun _ a b => a.mul b) exec_fmul
  case fma =>
    refine drawRow_of_roundRes (fin := fun f x l => infFree (x.fa f l) && infFree (x.fb f l) && infFree (x.fc f l))
      (fun f x l => ?_) exec_fma
    rw [List.all_cons, List.all_cons, List.all_cons, List.all_nil, Bool.and_true, Bool.and_assoc]
  case frcp => exact drawRow_of_fUn (val := (FV.ofInt 1).div) exec_frcp
  case frsq => exact drawRow_of_fUn exec_frsq
  case fsqrt => exact drawRow_of_fUn exec_fsqrt
  case fdiv => exact drawRow_of_fBin (val := fun _ a b => a.div b) exec_fdiv
  case fscal =>
    refine drawRow_of_roundRes (fin := fun f x l => infFree (x.fa f l)) (fun _ _ _ => (Bool.and_true _).symm) fun s f => ?_
    rw [exec_fscal, execFscal]
    simp only [Ty.intVal_eq_numOf]
    rfl
  case fdot2 => exact drawRow_of_fDot exec_fdot2
  case fdot4 => exact drawRow_of_fDot exec_fdot4

/-! ### Results that round nothing -/

section
variable (t : Ty) (a b : Nat)

theorem Ty.two_pow_bits : 2 ^ t.bits = 2 ^ (t.bits - 1) * 2 := by cases t <;> rfl

/-- FMIN and FMAX by which operand lies below the other, one NaN giving the other operand (R158). -/
theorem fMinMax_eq (max : Bool) :
    fMinMax t max a b =
      if t.val a = .nan ∧ t.val b = .nan then t.fmt.nan
      else if t.val a = .nan then b else if t.val b = .nan then a
      else if fBelow (t.val a) (t.val b) then (if max then b else a) else if max then a else b := by
  have hpick : ∀ less : Bool, (if less = max then b else a) =
      if less then (if max then b else a) else if max then a else b := by
    intro less
    cases less <;> cases max <;> rfl
  simp only [fMinMax, Bool.and_eq_true, decide_eq_true_eq, hpick]
  rfl

variable {a b}

/-- A magnitude with a sign, as numbers (R158). -/
theorem fSign_eq (neg : Bool) :
    fSign t neg a = if t.val a = .nan then t.fmt.nan else a % 2 ^ (t.bits - 1) + 2 ^ (t.bits - 1) * neg.toNat := by
  cases neg with
  | false => rfl
  | true =>
    rw [Bool.toNat_true, Nat.mul_one]
    rfl

/-- The top bit of a code is what lies above its magnitude. -/
theorem signBit_toNat (hb : b < 2 ^ t.bits) : (signBit t b).toNat = b / 2 ^ (t.bits - 1) := by
  have htop : b / 2 ^ (t.bits - 1) < 2 := Nat.div_lt_of_lt_mul (Ty.two_pow_bits t ▸ hb)
  unfold signBit
  rw [Nat.mod_eq_of_lt htop]
  obtain h | h := Nat.le_one_iff_eq_zero_or_eq_one.mp (Nat.le_of_lt_succ htop) <;> rw [h] <;> rfl

/-- A code with the sign of another (R158). -/
theorem fSign_signBit (hb : b < 2 ^ t.bits) :
    fSign t (signBit t b) a =
      if t.val a = .nan then t.fmt.nan else a % 2 ^ (t.bits - 1) + b / 2 ^ (t.bits - 1) * 2 ^ (t.bits - 1) := by
  rw [fSign_eq, signBit_toNat t hb, Nat.mul_comm (2 ^ _)]

/-- A code with its sign turned (R158). -/
theorem fSign_not (ha : a < 2 ^ t.bits) :
    fSign t (!signBit t a) a = if t.val a = .nan then t.fmt.nan else a ^^^ 2 ^ (t.bits - 1) := by
  have hxor : a ^^^ 2 ^ (t.bits - 1) = a % 2 ^ (t.bits - 1) + 2 ^ (t.bits - 1) * (!signBit t a).toNat := by
    rw [← Nat.mod_add_div (a ^^^ 2 ^ (t.bits - 1)) (2 ^ (t.bits - 1)), Nat.xor_mod_two_pow, Nat.xor_div_two_pow, Nat.mod_self,
      Nat.xor_zero, Nat.div_self (Nat.two_pow_pos _), ← signBit_toNat t ha]
    cases signBit t a <;> rfl
  rw [hxor, fSign_eq]

end

/-- Settles O9: each instruction picks an operand, sets a sign, or answers a class or a whole number of one operand. -/
theorem floatExact : Obligations.FloatExact := by
  refine ⟨?fmin, ?fmax, ?fabs, ?fneg, ?fsgn, ?fclas, ?frnd⟩
  case fmin => exact vecRow_of_vecF exec_fmin fun f x l => fMinMax_eq f.ty _ _ false
  case fmax => exact vecRow_of_vecF exec_fmax fun f x l => fMinMax_eq f.ty _ _ true
  case fabs => exact vecRow_of_vecF exec_fabs fun _ _ _ => rfl
  case fneg => exact vecRow_of_vecF exec_fneg fun f x l => fSign_not f.ty (x.va_lt f l)
  case fsgn => exact vecRow_of_vecF exec_fsgn fun f x l => fSign_signBit f.ty (x.vb_lt f l)
  case fclas =>
    intro s f x h
    rw [exec_fclas, execFclas, gangF_runs _ h]
    exact vecResult_put h.1 _ _ _ _
  case frnd => exact vecRow_of_vecF exec_frnd fun _ _ _ => rfl

/-- Settles O10: the exact value of each function, rounded to nearest even. -/
theorem floatElementary : Obligations.FloatElementary := by
  refine ⟨?fexp2, ?flog2, ?fsin, ?fcos, ?ftanh, ?fsigm, ?smrg⟩
  case fexp2 => exact vecRow_of_vecF exec_fexp2 fun _ _ _ => rfl
  case flog2 => exact vecRow_of_vecF exec_flog2 fun _ _ _ => rfl
  case fsin => exact vecRow_of_vecF exec_fsin fun _ _ _ => rfl
  case fcos => exact vecRow_of_vecF exec_fcos fun _ _ _ => rfl
  case ftanh => exact vecRow_of_vecF exec_ftanh fun _ _ _ => rfl
  case fsigm => exact vecRow_of_vecF exec_fsigm fun _ _ _ => rfl
  case smrg =>
    intro s f x h
    rw [exec_smrg, execSmrg, gangF_runs _ h]
    exact vecResult_put h.1 _ _ _ _

end Sys2Proof.Machine

/-! SUPPORT. Instructions across lanes (R148 to R156): votes, combinations, byte permutation and dot products of bytes. -/

namespace Sys2Proof.Machine

open Sys2Proof

/-! ### Results with draws in an order of their own -/

/-- A uniform write leaves $rng as it finds it. -/
theorem Gx.putS_withRng (x : Gx) (d : Name) (v r : DWord) (g : Group) :
    x.putS d v (g.withRng r) = (x.putS d v g).withRng r := by
  cases d with
  | s n =>
    simp only [Gx.putS, Group.setS]
    cases x.diverged <;> rfl
  | _ => rfl

section
variable {s : State} {pf : Option Pfx} {x : Gx} (ho : openGang s pf = some x)
include ho

/-- An instruction whose effect is Put and a new $rng (R71, R135). -/
theorem done_put_withRng (d : Name) (z : Bool) (t : Ty) (val : Nat → Nat) (r : DWord) : ∃ v : Sparse 32,
    (x.done x.s fun g => x.put d z t val (g.withRng r)) = (x.done x.s fun g => (g.withV v).withRng r) ∧
    ∀ pos lane, lane < 32 → sget v (32 * pos + lane) = x.vecAfter d z t val pos lane := by
  obtain ⟨v, hv⟩ := x.put_frame d z t val x.g
  refine ⟨v, Gx.done_congr ho (by rw [Gx.put_withRng, hv]), fun pos lane hl => ?_⟩
  exact (congrArg (Group.vreg · pos lane) hv).symm.trans (x.put_reads d z t val pos lane hl)

/-- An instruction whose effect is a uniform result and a new $rng (R71, R174). -/
theorem done_putS_withRng (d : Name) (v r : DWord) :
    (x.done x.s fun g => x.putS d v (g.withRng r)) = x.done x.s fun _ => (x.putS d v x.g).withRng r :=
  Gx.done_congr ho (x.putS_withRng d v r x.g)

/-- A whole mask written to a mask register (R28). -/
theorem done_putMask {d : Name} {n : Nat} (hd : d = .m n) (v : Word) :
    (x.done x.s fun g => g.putMask d v) = x.done x.s fun g => g.withM (sset x.g.mregs n v) :=
  Gx.done_congr ho (hd ▸ rfl)

end

/-! ### VOTE -/

/-- What VOTE gives to a uniform register: how many lanes vote yes, which, the first, or whether all agree (R149). -/
def Gx.ballot (x : Gx) (f : FForm) : DWord :=
  let yes := x.parts.filter (x.votes f)
  match f.fn with
  | 0 => BitVec.ofNat 64 yes.length
  | 1 => (maskOf yes).setWidth 64
  | 2 => BitVec.ofNat 64 (yes.head?.getD 32)
  | _ => if yes.length = 0 || yes.length = x.parts.length then 1 else 0

/-- VOTE with a D that is no mask register. -/
theorem execVote_uniform {s : State} {f : FForm} {x : Gx} (h : Runs s 0x22 f free x) (hd : ∀ n, f.d ≠ .m n) :
    UniResult x f.d (x.ballot f) (execVote f s) := by
  have hrun : execVote f s = .next (x.doneS f.d (x.ballot f)) := by
    refine (gangF_runs _ h).trans (congrArg _ ?_)
    split
    · exact absurd ‹_› (hd _)
    · rfl
  exact hrun ▸ uniResult_putS h.1 _ _

/-! ### SCAN -/

/-- What SCAN gives a lane that takes part, from FN 8 on without the lane's own value; zero to any other (R152). -/
def Gx.scanned (x : Gx) (f : FForm) (l : Nat) : Nat :=
  match (x.combined f).1.find? (fun p => p.1 == l) with
  | some p => if f.fn ≥ 8 then p.2.1 else p.2.2
  | none => 0

theorem Gx.scanned_eq (x : Gx) (f : FForm) (l : Nat) :
    x.scanned f l = ((x.combined f).1.find? (fun p => p.1 == l)).elim 0 fun p => if f.fn ≥ 8 then p.2.1 else p.2.2 := by
  unfold Gx.scanned
  cases (x.combined f).1.find? (fun p => p.1 == l) <;> rfl

/-! ### Bytes -/

/-- PRMT puts its four bytes one above the other (R155). -/
theorem prmtOp_eq (a b c : Nat) :
    prmtOp a b c = prmtByte a b (c % 32) + 256 * prmtByte a b (c / 32 % 32) + 65536 * prmtByte a b (c / 1024 % 32) +
      16777216 * prmtByte a b (c / 32768 % 32) := by
  simp only [prmtOp, foldl_add_eq, List.range_succ, List.range_zero, List.nil_append, List.cons_append, List.map_cons,
    List.map_nil, List.sum_cons, List.sum_nil, Nat.reducePow, Nat.div_one, Nat.one_mul, Nat.zero_add, Nat.add_zero, Nat.add_assoc]

/-- A dot product of bytes, its addend and its sum of products in 32 bits (R156). -/
theorem idotOp_eq (t : Ty) (n a b c : Nat) :
    idotOp t n a b c = (BitVec.ofInt 32 (((List.range n).map fun i => t.intVal (a / 256 ^ i) * t.intVal (b / 256 ^ i)).sum +
      Ty.i32.intVal c)).toNat := by
  rw [idotOp, foldl_add_eq, wrapInt_eq_ofInt, Int.add_comm]

theorem dotRow_of_idotF {mk : FForm → Instr} {op n : Nat} (he : ∀ s f, exec (mk f) s = idotF op n f s) : DotRow mk op n := by
  intro s f x h
  rw [he, idotF, gangF_runs _ h]
  exact (vecResult_put h.1 _ _ _ _).congr fun l => idotOp_eq _ _ _ _ _

/-! ### The instructions -/

/-- Settles O13: a vote, a match and an election look at the enabled lanes alone, a combination runs over them in order, and each
of the others gives every enabled lane its value. -/
theorem crossLane : Obligations.CrossLane := by
  refine ⟨?vote, ?shfl, ?redu, ?scan, ?matchEq, ?elect, ?prmt, dotRow_of_idotF exec_idot4, dotRow_of_idotF exec_idot8⟩
  case vote =>
    intro s f x h yes same
    refine ⟨fun n hd => ?mask, fun hd => ?uniform⟩
    case mask =>
      rw [exec_vote, execVote, gangF_runs _ h]
      simp only [hd]
      refine ⟨fun hf => ?_, fun hf => ?_, fun hf => ?_, fun hf => ?_⟩ <;> simp only [hf]
      · exact maskResult_putM h.1 _ _ _
      · exact congrArg _ (done_putMask h.1 rfl _)
      · exact congrArg _ (done_putMask h.1 rfl _)
      · simp only [same, Bool.decide_or]
        exact maskResult_putM h.1 _ _ _
    case uniform =>
      have hrun := execVote_uniform h hd
      rw [exec_vote]
      refine ⟨fun hf => ?_, fun hf => ?_, fun hf => ?_, fun hf => ?_⟩ <;> simp only [Gx.ballot, hf] at hrun
      · exact hrun
      · exact hrun
      · exact hrun
      · simpa only [Bool.or_eq_true, decide_eq_true_eq] using hrun
  case shfl =>
    intro s f x h
    rw [exec_shfl, execShfl, gangF_runs _ h]
    exact vecResult_put h.1 _ _ _ _
  case redu =>
    intro s f x h v
    rw [exec_redu, execRedu, gangF_runs _ h]
    exact ⟨_, x.putS_after f.d _, congrArg _ (done_putS_withRng h.1 f.d (extend64 f.ty v) _)⟩
  case scan =>
    intro s f x h
    rw [exec_scan, execScan, gangF_runs _ h]
    obtain ⟨v, hv, hr⟩ := done_put_withRng h.1 f.d f.z f.ty (x.scanned f) (x.combined f).2
    exact ⟨v, congrArg _ hv, funext (x.scanned_eq f) ▸ hr⟩
  case matchEq => exact maskRow_of_maskF exec_matchEq fun _ _ _ => rfl
  case elect =>
    intro s f x n h hd
    rw [exec_elect, execElect, gangF_runs _ h]
    exact congrArg _ (done_putMask h.1 hd _)
  case prmt => exact vecRow_of_vecF exec_prmt fun f x l => prmtOp_eq _ _ _

end Sys2Proof.Machine

/-! SUPPORT. Coherence objects (R245, R276, R277) and VERQ (R246, R335): the lines of an object, and what OCTL makes of them. -/

namespace Sys2Proof.Machine

open Sys2Proof

/-! ### The lines of an object -/

/-- The lines of a slot's object: as declared, or the physical lines of an extent whose pages are `ps` (R245). -/
def objectLines (c : Ctx) (n : Nat) (ps : List (Want × Leaf)) : List Nat :=
  if (c.slot n).decl = [] then (ps.flatMap fun p => p.2.lines 128).eraseDups else (c.slot n).decl

/-- A slot of the context is a declared object where it has lines (R245). -/
theorem declared_iff {s : State} {c n : Nat} {q : Ctx} (hq : s.ctx? c = some q) :
    s.declared c n = true ↔ (q.slot n).decl ≠ [] := by
  unfold State.declared
  rw [hq, Bool.not_eq_true', List.isEmpty_eq_false_iff]

/-- An instruction on an object goes on with its lines: as declared, or as its extent translates (R245). -/
theorem objectGo_lines {x : Gx} {n : Nat} {r : ShapeRec} {c : Ctx} {ps : List (Want × Leaf)} (hc : x.s.ctx? x.t.ctx = some c)
    (hp : Passed x (r.extent.map fun n => x.one (128 * n) 0 .r false none) ps) (k : List Nat → State) :
    x.objectGo n r k = k (objectLines c n ps) := by
  unfold Gx.objectGo objectLines
  rw [hc, Option.map_some]
  cases (c.slot n).decl with
  | nil => exact memGo_passed hp _
  | cons d ds => rfl

/-! ### OCTL -/

section
variable {s : State} {f : FForm} {x : Gx} {n : Nat} {r : ShapeRec}

/-- OCTL of a current handle, outside a prediction, has its own effect on the slot (R245). -/
theorem octlF_current {ok : Gx → Bool} (h : Runs s 0xCF f ok x) (ht : x.t.slot = 0)
    (hh : x.s.handle x.t.ctx (x.usrc f.a .ui64 64 % 2 ^ 32) = some (n, r)) (k : Gx → Nat → ShapeRec → State) :
    octlF f s ok k = .next (k x n r) := by
  unfold octlF
  rw [gangF_runs _ h]
  simp only [ht, hh, bne_self_eq_false, Bool.false_eq_true, if_false]

/-- octl.flush of an object whose lines no engine owns: the group's own stores to them drain, and once no cache holds one of
them the instruction is done (R195, R245). -/
theorem execOctlFlush_clean {c : Ctx} {ps : List (Want × Leaf)} {u : State} {lines : List Nat} (h : Runs s 0xCF f (octlD f) x)
    (ht : x.t.slot = 0) (hh : x.s.handle x.t.ctx (x.usrc f.a .ui64 64 % 2 ^ 32) = some (n, r)) (hc : x.s.ctx? x.t.ctx = some c)
    (hp : Passed x (r.extent.map fun n => x.one (128 * n) 0 .r false none) ps)
    (hl : lines = objectLines c n ps) (ho : ∀ m ∈ lines, x.s.ownerOf m = none)
    (hd : x.s.drainLines x.c.g lines 200 = .done u) (hg : ∀ h ∈ (lines.foldl State.dropLine u).coh.held, h.line ∉ lines) :
    execOctlFlush f s = .next (x.done (lines.foldl State.dropLine u) id) := by
  have howned : lines.any (fun m => (x.s.ownerOf m).isSome) = false :=
    List.any_eq_false.mpr fun m hm => by rw [ho m hm]; exact Bool.false_ne_true
  have hheld : (lines.foldl State.dropLine u).coh.held.any (fun h => lines.contains h.line) = false :=
    List.any_eq_false.mpr fun h hm hcon => hg h hm (List.contains_iff_mem.mp hcon)
  unfold execOctlFlush
  rw [octlF_current h ht hh, objectGo_lines hc hp, ← hl]
  simp only [howned, hd, hheld, Bool.false_eq_true, if_false]

/-- octl.query counts the object's cached lines and the clusters that hold them, and tells whether it is declared (R245, R277). -/
theorem execOctlQuery_counts {c : Ctx} {ps : List (Want × Leaf)} {hs : List Held} (h : Runs s 0xCF f free x)
    (ht : x.t.slot = 0) (hh : x.s.handle x.t.ctx (x.usrc f.a .ui64 64 % 2 ^ 32) = some (n, r)) (hc : x.s.ctx? x.t.ctx = some c)
    (hp : Passed x (r.extent.map fun n => x.one (128 * n) 0 .r false none) ps)
    (hheld : hs = x.s.coh.held.filter fun h => (objectLines c n ps).contains h.line && !hostLine h.line) :
    execOctlQuery f s = .next (x.doneS f.d (BitVec.ofNat 64 ((hs.map Held.line).eraseDups.length * 2 ^ 32 +
      ((hs.map Held.sid).filter fun i => i % 128 < 48).eraseDups.length % 2 ^ 16 * 2 ^ 16 +
      (if (c.slot n).decl = [] then 0 else 1)))) := by
  have hdecl : (if x.s.declared x.t.ctx n = true then 1 else 0) = if (c.slot n).decl = [] then 0 else 1 := by
    by_cases hd : (c.slot n).decl = []
    · rw [if_pos hd, if_neg fun hdecl => (declared_iff hc).mp hdecl hd]
    · rw [if_neg hd, if_pos ((declared_iff hc).mpr hd)]
  unfold execOctlQuery
  rw [octlF_current h ht hh, objectGo_lines hc hp, ← hheld, hdecl]

end

/-- Settles O39: OCTL by the lines of its object, as declared or as its extent translates, a declaration or its end once those
lines are recalled; VERQ by its selector. -/
theorem coherenceObjects : Obligations.CoherenceObjects := by
  refine ⟨fun s f x n r ht hh => ⟨?decl, ?lines, ?undecl⟩, ?verq⟩
  case decl =>
    intro ps h hp lines
    rw [exec_octlDecl, execOctlDecl, octlF_current h ht hh]
    refine ⟨fun hd => ?_, fun hd ho hr => ?_⟩ <;> refine congrArg _ ?_
    · exact if_pos hd
    · exact (if_neg (Bool.eq_false_iff.mp hd)).trans (declare_recalled hp ho hr _)
  case lines =>
    intro ps c hc hp lines
    refine ⟨fun u h ho hd hg => ?flush, fun h => ?query⟩
    case flush => exact (exec_octlFlush s f).trans (execOctlFlush_clean h ht hh hc hp rfl ho hd hg)
    case query =>
      rw [exec_octlQuery, execOctlQuery_counts h ht hh hc hp rfl]
      exact uniResult_putS h.1 _ _
  case undecl =>
    intro c h hc
    rw [exec_octlUndecl, execOctlUndecl, octlF_current h ht hh]
    refine ⟨fun hd => ?_, fun hd hr => ?_⟩ <;> refine congrArg _ ?_
    · rw [undeclare_recalled hc (hd ▸ fun _ hm => absurd hm List.not_mem_nil), if_pos hd]
    · rw [undeclare_recalled hc hr, if_neg hd]
  case verq =>
    intro s f x h
    rw [exec_verq, execVerq, gangF_runs _ h]
    refine ⟨fun hb => ?_, fun l hb hl => ?_⟩
    · rw [hb]
      exact uniResult_putS h.1 _ _
    · rw [hb, hl]
      exact uniResult_putS h.1 _ _

end Sys2Proof.Machine

/-! SUPPORT. Matrix instructions (R216 to R225): what issues a tile operation, what moves rows, and what MXQ finds of a core. -/

namespace Sys2Proof.Machine

open Sys2Proof

/-! ### MMA -/

/-- MMA issues with the rows of A that it multiplies (R217, R219, R221). -/
def Gx.issueMma (x : Gx) (f : FForm) (b : ShapeRec) (kstep slab : Nat) (rows : List (List Word)) : State :=
  x.done (x.issueTile x.s (FForm.mmaTile f) (.mma f.ty f.fn rows b kstep slab)) fun g =>
    x.putS f.d (token (FForm.mmaTile f) ((x.t.tile (FForm.mmaTile f)).iss + 1))
      { g with latch := if FForm.mmaRa f then some { ty := f.ty, fn := f.fn, rows := rows } else none }

/-- The rows of A that MMA reads where it finds none latched (R219). -/
def Gx.mmaRows (x : Gx) (f : FForm) : List (List Word) :=
  let a := match f.a with | .v i => i | _ => 0
  (List.range 32).map fun l => (List.range 9).map fun k => BitVec.ofNat 32 (x.rd.vsrc l (a + k) 32)

/-- MMA with an operand map that keeps the rules, on an array with room: the rows it reads, or those latched, which must be of
its type (R219 to R221). -/
theorem execMma_fits {s : State} {f : FForm} {x : Gx} {n : Nat} {r b : ShapeRec} {sb : Nat}
    (h : Runs s 0xA0 f
      (fun (x : Gx) => (FForm.mmaTile f) < x.t.kern.acc && x.octName f.a (if mmaScaled f.ty f.fn then 9 else 8)) x)
    (hsb : sb = x.usrc f.b.nameOf .ui64 64) (hlt : sb < 2 ^ 51) (hh : x.s.handle x.t.ctx (sb % 2 ^ 32) = some (n, r))
    (hb : b = { r with sbase := r.sbase % 2 ^ 32 }) (hfmt : mmaFmt f.ty f.fn r.fmt = true) (hrank : r.rank = 2)
    (hbase : r.base < 2 ^ 32) (hbytes : ∀ a ∈ mmaBytes f.ty b (sb / 2 ^ 32 % 2 ^ 16), x.s.scratchHas x.t a = true)
    (hroom : x.arrayFull (FForm.mmaTile f) = false) :
    execMma f s = .next (
      let issue := x.issueMma f b (sb / 2 ^ 32 % 2 ^ 16) (sb / 2 ^ 48 % 8)
      match x.g.latch with
      | none => issue (x.mmaRows f)
      | some l => if l.ty = f.ty ∧ l.fn = f.fn then issue l.rows else x.fault x.s fltOperand) := by
  have hmap : (!mmaFmt f.ty f.fn r.fmt || r.rank != 2 || r.base / 2 ^ 32 != 0) = false := by
    rw [hfmt, hrank, Nat.div_eq_of_lt hbase]; rfl
  have hin : (mmaBytes f.ty b (sb / 2 ^ 32 % 2 ^ 16)).find? (fun a => !x.s.scratchHas x.t a) = none :=
    List.find?_eq_none.mpr fun a ha => by rw [hbytes a ha]; exact Bool.false_ne_true
  subst hsb hb
  unfold execMma
  rw [gangF_runs _ h]
  simp only [Nat.div_eq_of_lt hlt, hh, hmap, hin, hroom, bne_self_eq_false, Bool.false_eq_true, if_false]
  cases x.g.latch with
  | none => rfl
  | some l =>
    have hclash : (l.ty != f.ty || l.fn != f.fn) = true ↔ ¬(l.ty = f.ty ∧ l.fn = f.fn) := by
      rw [Bool.or_eq_true, bne_iff_ne, bne_iff_ne, Decidable.not_and_iff_not_or_not]
    exact congrArg _ ((ite_congr (propext hclash) (fun _ => rfl) fun _ => rfl).trans (ite_not ..))

/-! ### Moving tiles -/

/-- The tile cells of a record's elements, each with its page (R223). -/
def ShapeRec.cellPages (r : ShapeRec) (ps : List (Want × Leaf)) : List (Nat × Leaf) :=
  (r.cells.zip ps).map fun p => (256 * p.1.1 + p.1.2, p.2.2)

/-- ACCLD and ACCST of a record that keeps the rules, on an array with room, go on once the group's own stores to its lines are
performed (R223, R224, R269). -/
theorem tileMove_passed {x : Gx} {f : FForm} {need : Need} {n : Nat} {r : ShapeRec} {ps : List (Want × Leaf)} {t : State}
    (hh : x.s.handle x.t.ctx (x.usrc f.a .ui64 64 % 2 ^ 32) = some (n, r)) (hfmt : r.fmt = f.ty.code) (hrank : r.rank = 2)
    (hroom : x.arrayFull (tileOf f.d) = false)
    (hp : Passed x (r.cells.map fun c =>
      { x.one (r.addr [c.2, c.1]) f.ty.size need false (some (need == .w)) with errOk := need == .r }) ps)
    (ht : DrainsLines x ps t) (k : State → List (Nat × Leaf) → List (Want × Leaf) → State) :
    x.tileMove f need k = k t (r.cellPages ps) ps := by
  unfold Gx.tileMove
  simp only [hh, hfmt, hrank, bne_self_eq_false, Bool.or_self, Bool.false_eq_true, if_false]
  refine (memGo_passed hp _).trans ?_
  simp only [hroom, Bool.false_eq_true, if_false]
  exact inPlace_drains ht _

/-- One draw for each element of a list (R71). -/
theorem foldl_drawOne {α : Type} (m : RM) : ∀ (l : List α) (r : DWord),
    l.foldl (fun r _ => (drawOne m r).1) r = rngAt m r l.length
  | [], _ => rfl
  | _ :: l, r => (foldl_drawOne m l _).trans (rngAt_succ m r l.length)

/-- ACCRD and ACCWR of a row of a tile that no job card holds: they go on where the tile's operations are complete, and wait
for its token where they are not (R217, R218, R223). -/
theorem tileWait_row {x : Gx} {wr : Bool} {tile : Nat} {row : Nat} (hrow : row ≤ 255)
    (hheld : x.s.tileHeld x.c.g.team tile = false) (reg : Name) (sp : Bool) (go : State) :
    x.tileWait wr tile reg row sp go =
      if seqReached 32 (x.t.tile tile).cmp.toNat (x.t.tile tile).iss.toNat then go
      else x.waitIn x.s (.tile wr tile (x.t.tile tile).iss reg row sp) := by
  unfold Gx.tileWait
  rw [if_neg (Nat.not_lt.mpr hrow), hheld]
  exact if_neg Bool.false_ne_true

/-! ### MXQ -/

/-- An engine's job for the context, not paused, has the array of the team's core (R225, R229). -/
def Gx.OnArray (x : Gx) : Prop :=
  ∃ p ∈ x.s.chains, p.2.engine = 9 ∧ p.2.ctx = x.t.ctx ∧ (∃ j, p.2.job = some j ∧ j.paused = false) ∧
    ∃ t, p.2.bound.bind x.s.team? = some t ∧ t.at_ = x.t.at_ ∧ ∃ a b, t.place = .core a b

/-- The tile operations of the context in flight on the array of the team's core (R218, R225). -/
def Gx.queuedHere (x : Gx) : Nat :=
  ((x.s.arrayJobs x.t.at_.1 x.t.at_.2).filter fun j => match x.s.team? j.team with
    | some t => t.ctx == x.t.ctx
    | none => false).length

/-- MXQ answers a rate of 16 bits, whether a job has the array, and the operations queued (R225, log 13). -/
theorem execMxq_answers {s : State} {f : FForm} {x : Gx} (h : Runs s 0xA7 f free x) :
    ∃ (rate : Nat) (job : Bool), rate < 2 ^ 16 ∧ (job = true ↔ x.OnArray) ∧ execMxq f s = .next (x.done x.s.bump
      (x.putS f.d (BitVec.ofNat 64 (rate * 2 ^ 48 + (if job then 2 ^ 16 else 0) + x.queuedHere)))) := by
  refine ⟨_, _, Nat.mod_lt _ (Nat.two_pow_pos 16), ?onArray, gangF_runs _ h⟩
  case onArray =>
    rw [List.any_eq_true]
    refine exists_congr fun p => and_congr_right fun _ => ?_
    simp only [Bool.and_eq_true, decide_eq_true_eq, and_assoc]
    refine and_congr_right fun _ => and_congr_right fun _ => and_assoc.symm.trans (and_congr ?job ?bound)
    case job => cases p.2.job <;> simp
    case bound =>
      cases p.2.bound.bind x.s.team? with
      | none => simp
      | some t => cases ht : t.place <;> simp [ht, and_comm]

/-- Drawing a free value changes no group: an instruction that draws one ends by its group's change alone. -/
theorem done_bump_congr {s : State} {pf : Option Pfx} {x : Gx} (ho : openGang s pf = some x) {f h : Group → Group}
    (e : f x.g = h x.g) : x.done x.s.bump f = x.done x.s.bump h :=
  congrArg State.bump (Gx.done_congr ho e)

/-! ### The instructions -/

/-- Settles O31: each instruction issues its tile operation, moves its row or answers, once the conditions it shares with others
are met; MMA by the latch it finds, MXQ by whether a job has the array. -/
theorem matrixInstructions : Obligations.MatrixInstructions := by
  refine ⟨?mma, ?accz, ?accld, ?accst, ?accrd, ?accwr, ?mtok, ?mxq⟩
  case mma =>
    intro s f x n r h sb b hlt hh hfmt hrank hbase hbytes hroom a issue
    rw [exec_mma, execMma_fits h rfl hlt hh rfl hfmt hrank hbase hbytes hroom]
    refine ⟨fun hl => ?_, fun l hl => ?_⟩ <;> rw [hl]
    · rfl
    · exact apply_ite _ _ _ _
  case accz =>
    intro s f x h hroom
    rw [exec_accz, execAccz, gangF_runs _ h]
    exact congrArg _ (if_neg (Bool.eq_false_iff.mp hroom))
  case accld =>
    intro s f x n r ps t h hh hfmt hrank hroom hp ht
    rw [exec_accld, execAccld, gangF_runs _ h, tileMove_passed hh hfmt hrank hroom hp ht]
    rfl
  case accst =>
    intro s f x n r ps t h hh hfmt hrank hroom hp ht cells rng
    rw [exec_accst, execAccst, gangF_runs _ h, tileMove_passed hh hfmt hrank hroom hp ht]
    simp only [foldl_drawOne]
    rfl
  case accrd =>
    intro s f x h hrow hheld
    rw [exec_accrd, execAccrd, gangF_runs _ h]
    exact congrArg _ (tileWait_row hrow hheld _ _ _)
  case accwr =>
    intro s f x h hrow hheld
    rw [exec_accwr, execAccwr, gangF_runs _ h]
    exact congrArg _ (tileWait_row hrow hheld _ _ _)
  case mtok => exact fun s f x h => (exec_mtok s f).symm ▸ uniF_runs (fun x => token (tileOf f.a) (x.t.tile (tileOf f.a)).cmp) h
  case mxq =>
    intro s f x h queued onArray
    obtain ⟨rate, job, hrate, hjob, hrun⟩ := execMxq_answers h
    rw [exec_mxq, hrun]
    refine ⟨rate, _, hrate, congrArg _ (done_bump_congr h.1 rfl), ?_⟩
    cases job with
    | true => exact ⟨fun _ => x.putS_after f.d _, fun ha => absurd (hjob.mp rfl) ha⟩
    | false =>
      rw [if_neg Bool.false_ne_true, Nat.add_zero (rate * 2 ^ 48)]
      exact ⟨fun ha => absurd (hjob.mpr ha) Bool.false_ne_true, fun _ => x.putS_after f.d _⟩

end Sys2Proof.Machine

/-! SUPPORT. The logit filter and sampling (R232 to R236): a window armed, a row of one reported, a token drawn. -/

namespace Sys2Proof.Machine

open Sys2Proof

section
variable {s : State} {f : FForm} {x : Gx} {slot : Nat} {r : ShapeRec}

/-- A window that LGFA arms, with no row of it seen yet; the first of `ps` are its pages (R232, R233). -/
def Gx.windowOf (x : Gx) (slot : Nat) (r : ShapeRec) (k : Nat) (temp : Word) (ps : List (Want × Leaf)) : Lgf :=
  { ctx := x.t.ctx, slot := slot, rcd := r, k := k, temp := temp, rows := []
    pages := (ps.take r.windowPages.length).map fun p => (p.1.va / 4096, p.2.pa / 4096, p.2.mxa) }

/-- LGFA of a record that keeps the rules, on pages of the part's own memory, arms its window in place of the slot's last
(R232, R233). -/
theorem execLgfa_arms {k : Nat} {temp : Word} {ps : List (Want × Leaf)} (h : Runs s 0xB8 f free x) (ht : x.t.slot = 0)
    (hh : x.s.handle x.t.ctx (x.usrc f.a .ui64 64 % 2 ^ 32) = some (slot, r)) (hk : x.lgfParams f = some (k, temp))
    (hflag : r.flags / 2 % 2 = 1) (hfmt : r.fmt = f.ty.code) (hrank : r.rank = 2)
    (hp : Passed x ((r.windowPages ++ r.resultPages).map fun p => x.one (4096 * p) 0 .any false none) ps)
    (hpa : ∀ p ∈ ps, p.2.pa < Config.hbmEnd) :
    execLgfa f s = .next (x.done { x.s.disarm x.t.ctx slot with
      lgfs := (x.s.disarm x.t.ctx slot).lgfs ++ [x.windowOf slot r k temp ps] } id) := by
  have hlow : ps.find? (fun p => p.2.pa ≥ Config.hbmEnd) = none :=
    List.find?_eq_none.mpr fun p hm hge => Nat.not_le.mpr (hpa p hm) (of_decide_eq_true hge)
  unfold execLgfa
  rw [gangF_runs _ h]
  simp only [ht, hh, hk, hflag, hfmt, hrank, bne_self_eq_false, Nat.one_ne_zero, decide_false, Bool.or_self,
    Bool.false_eq_true, if_false]
  refine congrArg _ ((memGo_passed hp _).trans ?_)
  simp only [hlow]
  rfl

/-- LGFR of a row of an armed window: the group's own stores to the window are absorbed, then the row's result is stored and
its count answered (R235). -/
theorem execLgfr_reports {g w : Lgf} {t u : State} {row : Nat} {ps : List (Want × Leaf)} (h : Runs s 0xB9 f free x)
    (hh : x.s.handle x.t.ctx (x.usrc f.a .ui64 64 % 2 ^ 32) = some (slot, r)) (hg : x.s.lgfOf x.t.ctx slot = some g)
    (hrow : row = x.srcBz x.low f.b .ui64 64) (hlt : row < r.dim 1)
    (hd : x.s.drainLines x.c.g (g.pages.flatMap fun p => (List.range 32).map fun k => 32 * p.2.1 + k) 80 = .done t)
    (hw : t.lgfOf x.t.ctx slot = some w)
    (hp : Passed { x with s := t, s0 := t } ((List.range ((w.result row).length / 8)).map fun (i : Nat) =>
      x.one (wrapInt 64 (r.sbase + 1024 * row + 8 * i)) 8 .w false none) ps)
    (hu : x.storeAll t 0 (ps.zipIdx.map fun p => (p.1.1, p.1.2, ((w.result row).drop (8 * p.2)).take 8)) = some u) :
    execLgfr f s = .next (x.done u (x.putS f.d (BitVec.ofNat 64 (w.combine row).count))) := by
  subst hrow
  unfold execLgfr
  rw [gangF_runs _ h]
  simp only [hh, hg, Option.isNone_some, Nat.not_le.mpr hlt, hd, hw, Bool.false_eq_true, if_false]
  refine congrArg _ ((memGo_passed hp _).trans ?_)
  simp only [hu]

/-- Word i, of 8 bytes, of the header that SAMP has read of its record (R236). -/
def Gx.sampWord (x : Gx) (hs : List (Want × Leaf)) (i : Nat) : Nat :=
  match hs[i]? with | some p => x.loadNat x.s p.2 8 | none => 0

/-- The tokens of a shortlist, each with its score, as SAMP has read them (R236). -/
def Gx.sampList (x : Gx) (ps : List (Want × Leaf)) : List (Word × Word) :=
  ps.map fun p => (BitVec.ofNat 32 (x.loadNat x.s p.2 8), BitVec.ofNat 32 (x.loadNat x.s p.2 8 / 2 ^ 32))

/-- SAMP of an aligned record gives each enabled lane the token that its seed draws (R236). -/
theorem execSamp_draws {va : Nat} {hs ps : List (Want × Leaf)} (h : Runs s 0xBA f free x) (hva : va = x.usrc f.a .ui64 64)
    (ha : va % 8 = 0) (hh : Passed x ((List.range 8).map fun i => x.one (wrapInt 64 (va + (8 * i : Nat))) 8 .r) hs)
    (hp : Passed x ((List.range (x.sampWord hs 0 / 2 ^ 32 % 2 ^ 16)).map fun i =>
      x.one (wrapInt 64 (va + (64 + 8 * i : Nat))) 8 .r) ps) :
    execSamp f s = .next (x.touched (x.done x.s (x.put f.d f.z f.ty fun l =>
      (sampOf (BitVec.ofNat 32 (x.sampWord hs 1)) (x.sampList ps) (x.sampSeed f l)).toNat)) 0 (hs ++ ps) false) := by
  subst hva
  unfold execSamp
  rw [gangF_runs _ h]
  simp only [ha, bne_self_eq_false, Bool.false_eq_true, if_false]
  exact congrArg _ ((memGo_passed hh _).trans (memGo_passed hp _))

end

/-- Settles O32: LGFA arms its record's window, LGFR stores a row's result and answers its count, and SAMP gives each lane the
token that its seed draws from the shortlist. -/
theorem logitFilter : Obligations.LogitFilter := by
  refine ⟨?lgfa, ?lgfr, ?samp⟩
  case lgfa =>
    intro s f x slot r k temp ps h ht hh hk hflag hfmt hrank hp hpa t
    exact (exec_lgfa s f).trans (execLgfa_arms h ht hh hk hflag hfmt hrank hp hpa)
  case lgfr =>
    intro s f x slot r g t ps u h hh hg row hlt hd w hw bs hp hu
    exact (exec_lgfr s f).trans (execLgfr_reports h hh hg rfl hlt hd hw hp hu)
  case samp =>
    intro s f x hs ps h va want word ha hh hp
    obtain ⟨v, hv, hreads⟩ := vecResult_put h.1 f.d f.z f.ty fun l =>
      (sampOf (BitVec.ofNat 32 (x.sampWord hs 1)) (x.sampList ps) (x.sampSeed f l)).toNat
    refine ⟨x.done x.s fun g => g.withV v, ⟨v, rfl, hreads⟩, ?_⟩
    rw [exec_samp, execSamp_draws h rfl ha hh hp, Host.Outcome.next.inj hv]

end Sys2Proof.Machine

/-! SUPPORT. Token messages, the sequence table and the tree of token strings as instructions reach them (R237 to R239). -/

namespace Sys2Proof.Machine

open Sys2Proof

section
variable {s : State} {f : FForm} {x : Gx} {v : Serving} {ps : List (Want × Leaf)}

/-- The first 8 bytes of a message are what TOKS takes: a type from 1 to 7, a die of the sender's ring, and zeros in the
reserved fields (R237, R384). -/
structure TokenHead (ring die head : Nat) : Prop where
  typed : 1 ≤ head % 256
  known : head % 256 ≤ 7
  clear : head / 2 ^ 11 % 32 = 0
  short : head < 2 ^ 48
  near : head / 256 % 8 / ring = die / ring

/-- TOKS of a message that keeps the rules, once the group's stores are acknowledged and where its die's queue has room:
the message is queued (R237, R391). -/
theorem execToks_queues {va head : Nat} {bs : List Byte} {t : State} (h : Runs s 0xBB f free x) (ht : x.t.slot = 0)
    (hva : va = x.usrc f.a .ui64 64) (ha : va % 64 = 0) (hv : aget x.s.serving x.t.ctx = some v)
    (hp : Passed x ((List.range 8).map fun i => x.one (va + 8 * i) 8 .r) ps)
    (hbs : bs = ps.flatMap fun p => x.loadBytes x.s p.2 8) (hhead : head = leNat (bs.take 8))
    (hok : TokenHead x.s.ringSize x.t.at_.1 head) (hd : DrainsAcked x false t)
    (hroom : (t.sending.filter fun m => m.src == x.t.at_.1 && m.ctx == x.t.ctx).length < 64) :
    execToks f s = .next (x.touched (x.done { t with
      sending := t.sending ++ [{ src := x.t.at_.1, dest := head / 256 % 8, ctx := x.t.ctx, bytes := bs }] } id) 0 ps false) := by
  obtain ⟨htyped, hknown, hclear, hshort, hnear⟩ := hok
  have hgood : (head % 256 = 0 || head % 256 > 7 || head / 2 ^ 11 % 32 != 0 || head / 2 ^ 48 != 0 ||
      head / 256 % 8 / x.s.ringSize != x.t.at_.1 / x.s.ringSize) = false := by
    rw [hclear, Nat.div_eq_of_lt hshort, hnear]
    simp [Nat.ne_of_gt htyped, hknown]
  subst hva hbs hhead
  unfold execToks
  rw [gangF_runs _ h]
  simp only [ht, ha, hv, bne_self_eq_false, Option.isNone_some, Bool.false_eq_true, if_false]
  refine congrArg _ ((memGo_passed hp _).trans ?_)
  simp only [hgood, Bool.false_eq_true, if_false]
  refine (releaseAcked_drains hd _).trans ?_
  rw [if_neg (Nat.not_le.mpr hroom)]

/-! ### The tree of token strings -/

/-- PFXL and PFXI have their tree and have read their tokens, whose pages are `ps` (R239, R384). -/
structure TreeReady (x : Gx) (f : FForm) (v : Serving) (ps : List (Want × Leaf)) : Prop where
  slot : x.t.slot = 0
  serving : aget x.s.serving x.t.ctx = some v
  short : x.srcBz x.low f.b .ui64 64 ≤ 65536
  reach : x.s.partWait x.t.ctx .part (treeWants v x.t.at_.1) = none
  passed : Passed x ((List.range (x.srcBz x.low f.b .ui64 64)).map fun (i : Nat) =>
    x.one (wrapInt 64 (x.usrc f.a .ui64 64 + 4 * i)) 4 .r) ps

/-- Such an instruction has its own effect where its string is aligned, which an empty one of PFXI need not be (R239). -/
theorem pfx_ready {lookup : Bool} (h : TreeReady x f v ps)
    (ha : (lookup || x.srcBz x.low f.b .ui64 64 != 0) = true → x.usrc f.a .ui64 64 % 4 = 0)
    (k : Serving → Nat → Nat → State → List (Want × Leaf) → State) :
    x.pfx f lookup k = k v (x.usrc f.a .ui64 64) (x.srcBz x.low f.b .ui64 64) x.s ps := by
  obtain ⟨hslot, hserving, hshort, hreach, hp⟩ := h
  have haligned : ((lookup || x.srcBz x.low f.b .ui64 64 != 0) && x.usrc f.a .ui64 64 % 4 != 0) = false :=
    Bool.and_eq_false_imp.mpr fun hl => by rw [ha hl]; rfl
  unfold Gx.pfx
  simp only [hslot, hserving, gt_iff_lt, Nat.not_lt.mpr hshort, haligned, hreach, bne_self_eq_false, Bool.false_eq_true, if_false]
  exact memGo_passed hp _

/-- The page of block j, as PFXI has read it for the blocks past the first `old` (R239). -/
def Gx.blockPage (x : Gx) (qs : List (Want × Leaf)) (old j : Nat) : DWord :=
  match qs[j - old]? with | some p => BitVec.ofNat 64 (x.loadNat x.s p.2 8) | none => 0

/-- PFXI of a string that is not empty has read the pages of the blocks past its path in the tree, and inserts the string
(R239). -/
theorem execPfxi_inserts {va n old base : Nat} {blocks : List (List Word)} {qs : List (Want × Leaf)} (h : Runs s 0xBE f free x)
    (hr : TreeReady x f v ps) (hva : va = x.usrc f.a .ui64 64) (hn : n = x.srcBz x.low f.b .ui64 64) (hn0 : n ≠ 0)
    (ha : va % 4 = 0) (hblocks : blocks = blocksOf v.pt (x.tokens ps) (n / v.pt))
    (hold : old = (pathFrom (x.s.tree x.t.at_.1 x.t.ctx) 0 blocks).length) (hbase : base = (va + 4 * n + 7) / 8 * 8)
    (hq : Passed x ((List.range (blocks.length - old)).map fun (i : Nat) =>
      x.one (wrapInt 64 (base + 8 * (old + i))) 8 .r) qs) :
    let r := x.s.insertBlocks v x.t.at_.1 x.t.ctx (x.blockPage qs old) 0 0 blocks
    execPfxi f s = .next (x.touched (x.done r.2.2 (x.putS f.d (pfxWord (r.2.1 * v.pt) r.1))) 0 (ps ++ qs) false) := by
  subst hva hn hblocks hold hbase
  unfold execPfxi
  rw [gangF_runs _ h, pfx_ready hr fun _ => ha, if_neg hn0]
  exact congrArg _ (memGo_passed hq _)

end

/-- Settles O33: TOKS queues its message, SEQQ answers from its die's table, and PFXL and PFXI, once they have their tree and
their tokens, walk, extend or release it. -/
theorem servingInstructions : Obligations.ServingInstructions := by
  refine ⟨?toks, ?seqq, ?pfx⟩
  case toks =>
    intro s f x ps t v h ht ha hv hp die bs head dest htyped hknown hclear hshort hnear hd hroom
    exact (exec_toks s f).trans
      (execToks_queues h ht rfl ha hv hp rfl rfl ⟨htyped, hknown, hclear, hshort, hnear⟩ hd hroom)
  case seqq =>
    intro s f x h
    rw [exec_seqq, execSeqq, uniF, gangF_runs _ h]
    cases hq : x.s.seqAt x.t.at_.1 (x.srcBz x.low f.b .ui64 64 % 2 ^ 32) with
    | none =>
      simp only [hq]
      exact uniResult_putS h.1 _ _
    | some e =>
      simp only [hq, bne_iff_ne]
      exact uniResult_putS h.1 _ _
  case pfx =>
    intro s f x v ps va n die ht hv hshort hreach hp blocks path
    have hr : TreeReady x f v ps := ⟨ht, hv, hshort, hreach, hp⟩
    refine ⟨fun h ha => ?lookup, fun qs h hn ha => ?insert, fun m h hn hm href => ?release⟩
    case lookup =>
      rw [exec_pfxl, execPfxl, gangF_runs _ h, pfx_ready hr fun _ => ha]
    case insert => exact fun hq => (exec_pfxi s f).trans (execPfxi_inserts h hr rfl rfl hn ha rfl rfl rfl hq)
    case release =>
      rw [exec_pfxi, execPfxi, gangF_runs _ h, pfx_ready hr fun hl => absurd hn (by simpa using hl), if_pos hn]
      unfold Gx.pfxRelease
      rw [hm]
      exact congrArg _ (if_neg href)

end Sys2Proof.Machine

/-! SUPPORT. The drain of a buffered store to plain device memory (R265, R266): what it writes where its line can be reached, and
that it writes nothing where the line lies on a fenced pseudo-channel (R414). -/

namespace Sys2Proof.Machine

open Sys2Proof

/-! ### Bytes of memory after a write -/

/-- A byte depends on memory alone. -/
theorem byteAt_congr {s t : State} (h : s.mem = t.mem) (pa : Nat) : s.byteAt pa = t.byteAt pa := by
  unfold State.byteAt
  rw [h]

/-- A number in memory depends on memory alone. -/
theorem natAt_congr {s t : State} (h : s.mem = t.mem) (pa n : Nat) : s.natAt pa n = t.natAt pa n := by
  unfold State.natAt State.bytesAt
  rw [funext (byteAt_congr h)]

theorem writeBytes_mem (s : State) (ws : List (Nat × Byte)) : (s.writeBytes ws).mem = memWrite s.mem ws := by
  unfold State.writeBytes State.seen
  split <;> rfl

/-- An address that a write does not name keeps its byte. -/
theorem byteAt_writeBytes_other {s : State} {ws : List (Nat × Byte)} {pa : Nat} (h : ∀ w ∈ ws, pa ≠ w.1) :
    (s.writeBytes ws).byteAt pa = s.byteAt pa := by
  have hnone : (ws.filter fun w => paReal w.1).reverse.find? (fun w => w.1 == pa) = none :=
    List.find?_eq_none.mpr fun w hw he =>
      h w (List.mem_filter.mp (List.mem_reverse.mp hw)).1 (beq_iff_eq.mp he).symm
  unfold State.byteAt
  rw [writeBytes_mem, memWrite, sget_ssetAll, hnone]
  rfl

/-- Of addresses each named once, one address names one byte. -/
theorem eq_of_nodup_fst {ws : List (Nat × Byte)} {v w : Nat × Byte} (hn : (ws.map Prod.fst).Nodup) (hv : v ∈ ws) (hw : w ∈ ws)
    (h : v.1 = w.1) : v = w := by
  induction ws with
  | nil => exact nomatch hv
  | cons a ws ih =>
    obtain ⟨hfirst, hrest⟩ := List.nodup_cons.mp hn
    rcases List.mem_cons.mp hv with rfl | hvs <;> rcases List.mem_cons.mp hw with rfl | hws
    · rfl
    · exact absurd (h ▸ List.mem_map_of_mem hws) hfirst
    · exact absurd (h ▸ List.mem_map_of_mem hvs) hfirst
    · exact ih hrest hvs hws

/-- A real address that a write names once holds the byte written. -/
theorem byteAt_writeBytes_mem {s : State} {ws : List (Nat × Byte)} {w : Nat × Byte} (hw : w ∈ ws)
    (hn : (ws.map Prod.fst).Nodup) (hr : paReal w.1 = true) : (s.writeBytes ws).byteAt w.1 = w.2 := by
  have hmem : w ∈ (ws.filter fun w => paReal w.1).reverse := List.mem_reverse.mpr (List.mem_filter.mpr ⟨hw, hr⟩)
  obtain ⟨v, hv⟩ : ∃ v, (ws.filter fun w => paReal w.1).reverse.find? (fun v => v.1 == w.1) = some v :=
    Option.isSome_iff_exists.mp (List.find?_isSome.mpr ⟨w, hmem, beq_self_eq_true _⟩)
  have hvw : v = w := eq_of_nodup_fst hn
    (List.mem_filter.mp (List.mem_reverse.mp (List.mem_of_find?_eq_some hv))).1 hw
    (beq_iff_eq.mp (List.find?_some (p := fun v : Nat × Byte => v.1 == w.1) hv))
  unfold State.byteAt
  rw [if_pos hr, writeBytes_mem, memWrite, sget_ssetAll, hv, hvw]
  rfl

/-! ### Buffers under a write -/

/-- What a buffered store of a group goes through: its buffer, and the acknowledgements it waits for. -/
def Group.drainView (g : Group) : List StEntry × Nat := (g.stbuf, g.unacked)

/-- A map whose values all change, at a key. -/
theorem aget_mapValues {α : Type} (f : α → α) (m : AMap α) (k : Nat) :
    aget (m.map fun p => (p.1, f p.2)) k = (aget m k).map f := by
  induction m with
  | nil => rfl
  | cons p m ih =>
    simp only [List.map_cons, aget]
    split
    · rfl
    · exact ih

/-- A team as a conflict in some lines leaves it (R212). -/
def Team.conflictAt (t : Team) (lines : List Nat) : Team :=
  if t.inRegion then { t with groups := t.groups.map fun g => g.conflictAt lines } else t

theorem State.team?_conflictAt (s : State) (lines : List Nat) (n : Nat) :
    (s.conflictAt lines).team? n = (s.team? n).map fun t => t.conflictAt lines := by
  have hteams : (s.conflictAt lines).teams = s.teams.map fun p => (p.1, p.2.conflictAt lines) := by
    refine List.map_congr_left fun p _ => ?_
    unfold Team.conflictAt
    split <;> rfl
  unfold State.team?
  rw [hteams]
  exact aget_mapValues (fun t : Team => t.conflictAt lines) s.teams n

/-- A conflict marks regions of lanes: no buffer changes (R212). -/
theorem Team.conflictAt_drainView (t : Team) (lines : List Nat) (k : Nat) :
    (t.conflictAt lines).groups[k]?.map Group.drainView = t.groups[k]?.map Group.drainView := by
  unfold Team.conflictAt
  split
  · rw [List.getElem?_map, Option.map_map]
    rfl
  · rfl

/-- A write of memory changes no group's buffer. -/
theorem grp?_writeBytes_drainView (s : State) (ws : List (Nat × Byte)) (r : GRef) :
    ((s.writeBytes ws).grp? r).map Group.drainView = (s.grp? r).map Group.drainView := by
  unfold State.writeBytes State.seen
  split
  · unfold State.grp?
    rw [State.team?_conflictAt, show ({ s with mem := memWrite s.mem ws } : State).team? r.team = s.team? r.team from rfl]
    cases s.team? r.team with
    | none => rfl
    | some t => exact t.conflictAt_drainView _ r.grp
  · rfl

/-! ### A store to plain device memory -/

/-- A store through a page of memory that is neither aliased nor versioned writes its bytes, and no window absorbs them where none
is armed (R234, R337). -/
theorem store_plain {s : State} {l : Leaf} (a : Acc) (ws : List (Nat × Byte)) (hm : l.mxa = none) (hv : l.vers = false)
    (hn : notifyPa l.pa = false) (hw : s.lgfs = []) :
    s.store a l ws = s.writeBytes (ws.map fun p => (l.pa + p.1, p.2)) := by
  have hleaf : s.leafWrite a l ws = s.writeBytes (ws.map fun p => (l.pa + p.1, p.2)) := by
    unfold State.leafWrite
    simp only [hm, hv, hn, Bool.false_and, Bool.false_eq_true, if_false]
  have hlgfs : (s.writeBytes (ws.map fun p => (l.pa + p.1, p.2))).lgfs = [] := by
    unfold State.writeBytes State.seen
    split <;> exact hw
  unfold State.store State.absorb State.absorbAs
  simp only [hleaf, hm, hv, hlgfs, List.isEmpty_nil, Bool.false_and, Bool.false_eq_true, if_false, if_true]

/-- A store that is made leaves memory and the teams as they are: of a device line it is an access of the coherence fabric
(R255, R282). -/
theorem wrote_device (s : State) (t : Team) {line : Nat} (p : Policy) (hd : hostLine line = false) :
    ∃ c, s.wrote t line [] p = { s with coh := c } := by
  unfold State.wrote State.touch
  simp only [hd, Bool.false_eq_true, if_false, if_true]
  split <;> split <;> exact ⟨_, rfl⟩

/-! ### The entry that drains -/

/-- The state that a drain leaves, made or waiting. -/
def Drain.state : Drain → State
  | .done s => s
  | .wait s => s

/-- An entry of the store buffer that no older one holds up and that goes to plain device memory: its page translates to HBM, no
engine owns its line, and no window is armed (R234, R265, R285). -/
structure PlainDrain (s : State) (r : GRef) (t : Team) (g : Group) (k : Nat) (e : StEntry) (l : Leaf) : Prop where
  team : s.team? r.team = some t
  group : t.groups[r.grp]? = some g
  entry : g.stbuf[k]? = some e
  onCore : ∃ die core, t.place = .core die core
  oldest : ∀ d ∈ g.stbuf.take k, d.meets e = false
  page : s.translate t.ctx (.drain r) e.va .w = .ok l
  unaliased : l.mxa = none
  unversioned : l.vers = false
  low : e.va % 128 ≤ l.pa
  hbm : l.pa + 256 < Config.hbmEnd
  offsets : ∀ b ∈ e.bytes, b.1 < 128
  once : (e.bytes.map Prod.fst).Nodup
  unowned : s.ownerOf (l.pa / 128) = none
  unarmed : s.lgfs = []

section
variable {s : State} {r : GRef} {t : Team} {g : Group} {k : Nat} {e : StEntry} {l : Leaf}

/-- The translated address of byte 0 of an entry's line, as far below `l.pa` as it is below the entry's address. -/
def Leaf.lineOf (l : Leaf) (e : StEntry) : Leaf := { l with pa := l.pa - e.va % 128, off := l.off - e.va % 128 }

/-- The bytes of an entry where they lie in memory (R265). -/
def StEntry.writes (e : StEntry) (l : Leaf) : List (Nat × Byte) := e.bytes.map fun b => (l.pa - e.va % 128 + b.1, b.2)

/-- Entry k of the store buffer is sent, and its acknowledgement waited for (R265, R266). -/
def Group.sent (g : Group) (k : Nat) : Group := { g.dropEntry false k with unacked := g.unacked + 1 }

/-- How an entry of the store buffer uses the caches as it drains (R255, R372). -/
def StEntry.drainPolicy (e : StEntry) (l : Leaf) : Policy :=
  { cls := if e.through || (policyOf 0 l true).atHome then 3 else 0, rd := e.rd }

namespace PlainDrain

theorem grp (h : PlainDrain s r t g k e l) : s.grp? r = some g := by
  unfold State.grp?
  rw [h.team]
  exact h.group

/-- STORE_DRAIN of such an entry is its drain (R265). -/
theorem exec_drains (h : PlainDrain s r t g k e l) : exec (.storeDrain r k false) s = .next (s.drainEntry r false k).state := by
  obtain ⟨die, core, hplace⟩ := h.onCore
  have hfirst : (([] ++ g.stbuf.take k).any fun d => d.meets e) = false :=
    List.any_eq_false.mpr fun d hd => Bool.eq_false_iff.mp (h.oldest d hd)
  rw [exec_storeDrain]
  unfold execStoreDrain onGroup
  simp only [h.team, h.group, h.entry, hplace, hfirst, Bool.false_eq_true, if_false]
  cases s.drainEntry r false k <;> rfl

/-- The access of such an entry touches the one line of its first byte (R414). -/
theorem reach_line (h : PlainDrain s r t g k e l) : s.reach t.ctx (.drain r) e.va .w 1 =
    if s.lineFenced (l.pa / 128) then .fault fltFenced else .ok l := by
  unfold State.reach
  simp [h.page, Leaf.lines, h.unaliased]

/-- On a fenced pseudo-channel the bytes are discarded: memory stays as it is (R362, R414). -/
theorem fenced_mem (h : PlainDrain s r t g k e l) (hf : s.lineFenced (l.pa / 128) = true) :
    (s.drainEntry r false k).state.mem = s.mem := by
  have hreach := h.reach_line
  rw [if_pos hf] at hreach
  unfold State.drainEntry
  simp only [h.team, h.grp, h.entry, hreach, Bool.false_eq_true, if_false]
  rfl

/-- On a pseudo-channel that is not fenced the entry is sent and its bytes are stored from its line's byte 0 on (R265, R266). -/
theorem open_sends (h : PlainDrain s r t g k e l) (hf : s.lineFenced (l.pa / 128) = false) :
    (s.drainEntry r false k).state = ((s.modGrp r fun g => g.sent k).store (s.acc t) (l.lineOf e) e.bytes).wrote t (l.pa / 128) []
      (e.drainPolicy l) := by
  have hreach := h.reach_line
  rw [hf, if_neg Bool.false_ne_true] at hreach
  have hhbm : l.pa + 256 < 0x00C000000000 := h.hbm
  have hdevice : ¬ Config.hostBase ≤ l.pa := by unfold Config.hostBase; omega
  have hroom : (l.vers && t.slot != 0 && !s.versionRoom (s.acc t) [l.pa / 128]) = false := by
    rw [h.unversioned, Bool.false_and, Bool.false_and]
  unfold State.drainEntry
  simp only [h.team, h.grp, h.entry, hreach, hdevice, hroom, h.unowned, Coh.lacks, List.filter_nil, List.isEmpty_nil,
    Bool.not_true, Bool.and_false, Option.isSome_none, Bool.false_eq_true, if_false, Drain.state]
  rfl

/-- Its bytes are then in memory; the rest of the drain is the coherence fabric's (R282). -/
theorem open_state (h : PlainDrain s r t g k e l) (hf : s.lineFenced (l.pa / 128) = false) :
    ∃ c, (s.drainEntry r false k).state = { (s.modGrp r fun g => g.sent k).writeBytes (e.writes l) with coh := c } := by
  have hhbm : l.pa + 256 < 0x00C000000000 := h.hbm
  have hnotify : notifyPa (l.pa - e.va % 128) = false := by
    unfold notifyPa Config.notifyBase
    rw [decide_eq_false (by omega), Bool.false_and]
  have hline : hostLine (l.pa / 128) = false := decide_eq_false (by unfold Config.hostBase; omega)
  rw [h.open_sends hf, store_plain (s := s.modGrp r fun g => g.sent k) (l := l.lineOf e) _ _ h.unaliased h.unversioned
    hnotify h.unarmed]
  exact wrote_device _ _ _ hline

/-- An address that the entry writes is memory. -/
theorem writes_real (h : PlainDrain s r t g k e l) {w : Nat × Byte} (hw : w ∈ e.writes l) : paReal w.1 = true := by
  obtain ⟨b, hb, rfl⟩ := List.mem_map.mp hw
  have hlow : l.pa - e.va % 128 + b.1 < Config.hbmEnd := by
    have := h.hbm; have := h.offsets b hb; omega
  unfold paReal
  rw [decide_eq_true hlow]
  rfl

/-- The entry writes each address once. -/
theorem writes_nodup (h : PlainDrain s r t g k e l) : ((e.writes l).map Prod.fst).Nodup := by
  have hfst : (e.writes l).map Prod.fst = (e.bytes.map Prod.fst).map (l.pa - e.va % 128 + ·) := by
    simp only [StEntry.writes, List.map_map, Function.comp_def]
  rw [hfst]
  exact List.Pairwise.map _ (fun _ _ hne hab => hne (Nat.add_left_cancel hab)) h.once

/-- The drain of a buffered store to a line that is not fenced writes its bytes and no other, and its acknowledgement is waited for
(R265, R266): what O42 says, with the condition on the line's pseudo-channel that it leaves out. -/
theorem exec_writes {u : State} (h : PlainDrain s r t g k e l) (hf : s.lineFenced (l.pa / 128) = false)
    (hu : exec (.storeDrain r k false) s = .next u) :
    (∀ b ∈ e.bytes, u.byteAt (l.pa - e.va % 128 + b.1) = b.2) ∧
    (∀ pa, (∀ b ∈ e.bytes, pa ≠ l.pa - e.va % 128 + b.1) → u.byteAt pa = s.byteAt pa) ∧
    ∃ g', u.grp? r = some g' ∧ g'.stbuf = dropAt g.stbuf k ∧ g'.unacked = g.unacked + 1 := by
  obtain ⟨c, hc⟩ := h.open_state hf
  rw [h.exec_drains, hc] at hu
  injection hu with hu
  subst hu
  refine ⟨fun b hb => ?written, fun pa hpa => ?others, ?waits⟩
  case written =>
    have hw : (l.pa - e.va % 128 + b.1, b.2) ∈ e.writes l := List.mem_map_of_mem hb
    exact byteAt_writeBytes_mem hw h.writes_nodup (h.writes_real hw)
  case others =>
    refine byteAt_writeBytes_other (s := s.modGrp r fun g => g.sent k) fun w hw => ?_
    obtain ⟨b, hb, rfl⟩ := List.mem_map.mp hw
    exact hpa b hb
  case waits =>
    have hview := grp?_writeBytes_drainView (s.modGrp r fun g => g.sent k) (e.writes l) r
    rw [State.grp?_modGrp, h.grp] at hview
    obtain ⟨g', hg', hsame⟩ := Option.map_eq_some_iff.mp hview
    obtain ⟨hstbuf, hunacked⟩ := Prod.mk.inj hsame
    exact ⟨g', hg', hstbuf, hunacked⟩

end PlainDrain

end

/-! ### A fenced line -/

/-- A buffered store of 7 to byte 0 of line 0x600. -/
def bufferedSeven : StEntry := { line := 0x600, lanes := [], pa := some 0x600, bytes := [(0, 7)], through := false, rd := 0 }

/-- The one group of a launch, with that store buffered. -/
def bufferingGroup : Group := { Group.start bareKernel 0x20000 0 0 with stbuf := [bufferedSeven] }

/-- Its team, on core 0 of die 0. -/
def bufferingTeam : Team := { Team.start 1 (bareLaunch 0) 0 0 0 0 0 with groups := [bufferingGroup] }

/-- A state that holds that team alone, with the page table of R248 for its context, and with some units fenced. -/
def buffering (fences : List Word) : State :=
  { State.reset with
    mem := memWrite [] barePages
    ctxs := [(0, bareCtx)], launches := [(1, bareLaunch 0)], teams := [(2, bufferingTeam)]
    fleet := { State.reset.fleet with fences := fences } }

/-- The pseudo-channel of line 0x600 (R410, R428). -/
def channelOfLine : Word := unitPath 0 0x0A 0 0x0A (Config.pseudoChannel 0x600).toNat

theorem buffering_flat (fences : List Word) : Flat (buffering fences) 0 := by
  have hmem : (buffering fences).mem = (buffering []).mem := rfl
  unfold Flat
  simp only [natAt_congr hmem]
  exact ⟨⟨bareCtx, rfl, rfl⟩, by decide +kernel, by decide +kernel, by decide +kernel, rfl⟩

theorem buffering_drains (fences : List Word) :
    PlainDrain (buffering fences) ⟨2, 0⟩ bufferingTeam bufferingGroup 0 bufferedSeven (pteLeaf 0x7F 2 0x30000) where
  team := rfl
  group := rfl
  entry := rfl
  onCore := ⟨0, 0, rfl⟩
  oldest := fun _ hd => nomatch hd
  page := translate_flat (buffering_flat fences) _ (by decide) _
  unaliased := rfl
  unversioned := rfl
  low := by decide
  hbm := by decide
  offsets := by decide
  once := by decide
  unowned := rfl
  unarmed := rfl

/-- With line 0x600's pseudo-channel fenced, that line is fenced. -/
theorem buffering_fenced : (buffering [channelOfLine]).lineFenced ((pteLeaf 0x7F 2 0x30000).pa / 128) = true := by
  show ([channelOfLine].contains channelOfLine) = true
  simp

/-- With nothing fenced, the drain of the store writes its byte. -/
theorem witness_PlainDrain_exec_writes :
    PlainDrain (buffering []) ⟨2, 0⟩ bufferingTeam bufferingGroup 0 bufferedSeven (pteLeaf 0x7F 2 0x30000) ∧
    (buffering []).lineFenced ((pteLeaf 0x7F 2 0x30000).pa / 128) = false ∧
    ∃ u, exec (.storeDrain ⟨2, 0⟩ 0 false) (buffering []) = .next u ∧ u.byteAt 0x30000 = 7 := by
  have h := buffering_drains []
  obtain ⟨hwritten, -, -⟩ := h.exec_writes rfl h.exec_drains
  exact ⟨h, rfl, _, h.exec_drains, hwritten (0, 7) (List.mem_singleton.mpr rfl)⟩

/-- Refutes O42: a store to a line whose pseudo-channel has been fenced since it was buffered is discarded when it drains (R414);
here byte 0x30000 stays 0. -/
theorem not_storeDrainWritesItsBytes : ¬ Obligations.StoreDrainWritesItsBytes := by
  unfold Obligations.StoreDrainWritesItsBytes
  intro hall
  have h := buffering_drains [channelOfLine]
  obtain ⟨hwritten, -, -⟩ := hall _ _ _ _ 0 _ _ _ 0 0 h.team h.group h.entry rfl h.oldest h.page h.unaliased
    h.unversioned rfl h.low h.hbm h.offsets h.once h.unowned h.unarmed h.exec_drains
  have hseven := hwritten (0, 7) (List.mem_singleton.mpr rfl)
  rw [byteAt_congr (h.fenced_mem buffering_fenced)] at hseven
  have hzero : (buffering []).byteAt 0x30000 = 0 := by decide +kernel
  exact absurd (hzero.symm.trans hseven) (by decide)

end Sys2Proof.Machine

/-! SUPPORT. The coherence fabric's events (R276, R278, R280 to R284): how a home serves a request, what an acknowledgement and a notice
make of a sharer's record, and what a recalled or granted line becomes at its sharer. -/

namespace Sys2Proof.Machine

open Sys2Proof

/-! ### Requests at a home -/

/-- A request that its home can serve: it is the first of its line, and neither a move nor a promoted release holds it up (R263, R276,
R282). -/
structure Servable (s : State) (k : Nat) (q : CohReq) : Prop where
  listed : s.coh.reqs[k]? = some q
  unserved : q.served = false
  first : s.coh.firstOf k q = true
  still : s.movingNow q.line = false
  unmarked : q.kind = .read → s.marked (some q.sid) q.line = false

namespace Servable

variable {s : State} {k : Nat} {q : CohReq} (h : Servable s k q)
include h

/-- Nothing that SERVE checks before it looks for a part holds the request up. -/
theorem goesOn : (q.kind != q.kind || q.served || !s.coh.firstOf k q || s.movingNow q.line ||
    (q.kind == .read && s.marked (some q.sid) q.line)) = false := by
  have hread : (q.kind == .read && s.marked (some q.sid) q.line) = false := by
    cases hk : q.kind == .read with
    | false => rfl
    | true => exact h.unmarked (eq_of_beq hk)
  rw [h.unserved, h.first, h.still, hread, bne_self_eq_false]
  rfl

/-- A line whose object has no part at home has no sharer: its request is served at once where an entry is free, or none is needed
(R278, R282). -/
theorem serve_unshared (hpart : s.coh.part? (homeOf q.line) (s.objOf q.line) = none)
    (hroom : q.kind = .atHome ∨ q.kind = .move ∨ s.coh.full (homeOf q.line) = false) :
    s.serve k q.kind = { s with coh := { s.coh with reqs := modAt s.coh.reqs k fun r => { r with served := true } } }.settle := by
  have hfree : ((q.kind == .read || q.kind == .own) && s.coh.full (homeOf q.line)) = false := by
    rcases hroom with hk | hk | hroom
    · rw [hk]; rfl
    · rw [hk]; rfl
    · rw [hroom, Bool.and_false]
  unfold State.serve
  simp only [h.listed, h.goesOn, hpart, hfree, Bool.false_eq_true, if_false]

/-- A full home frees its oldest entry first (R280). -/
theorem serve_full {p : OctPart} (hpart : s.coh.part? (homeOf q.line) (s.objOf q.line) = none)
    (hkind : q.kind = .read ∨ q.kind = .own) (hfull : s.coh.full (homeOf q.line) = true)
    (hnone : ∀ y ∈ s.coh.parts, y.home = homeOf q.line → y.evicting = false)
    (hold : s.coh.oldest (homeOf q.line) = some p) : s.serve k q.kind = s.evictPart p := by
  have hneeds : ((q.kind == .read || q.kind == .own) && s.coh.full (homeOf q.line)) = true := by
    rcases hkind with hk | hk <;> rw [hk, hfull] <;> rfl
  have hfind : (s.coh.parts.find? fun y => y.home == homeOf q.line && y.evicting) = none := by
    refine List.find?_eq_none.mpr fun y hy he => ?_
    obtain ⟨hhome, hevicting⟩ := Bool.and_eq_true_iff.mp he
    exact Bool.false_ne_true ((hnone y hy (eq_of_beq hhome)).symm.trans hevicting)
  unfold State.serve
  simp only [h.listed, h.goesOn, hpart, hneeds, hfind, hold, Option.none_or, Bool.false_eq_true, if_false, if_true]

/-- Where the object has a part, the sharers in the request's way are recalled and their answers waited for (R282). -/
theorem serve_shared {p : OctPart} (hpart : s.coh.part? (homeOf q.line) (s.objOf q.line) = some p) (hp : p.evicting = false) :
    let c := (p.targets q).foldl (fun c sid => c.recall sid q.line (s.objOf q.line) (q.kind == .read)) s.coh
    let used := fun (x : OctPart) => if x.is (homeOf q.line) (s.objOf q.line) then { x with used := c.next } else x
    s.serve k q.kind = { s with coh := { c with
      reqs := modAt c.reqs k fun r => { r with served := true, pend := p.targets q }
      parts := c.parts.map used } }.settle := by
  unfold State.serve
  simp only [h.listed, h.goesOn, hpart, hp, Bool.false_eq_true, if_false]

end Servable

/-- The events in which a home serves a request: the kind of request, its event, and what the event does besides (R282, R293). -/
def serveEvents : List (ReqKind × (Nat → Instr) × (State → State)) :=
  [(.read, .sharedReadRequest, id), (.own, .ownershipRequest, id), (.atHome, .writeAtHome, State.land),
    (.move, .writeAtHome, State.land)]

/-- Each of them serves a request of its kind. -/
theorem exec_serveEvent {e : ReqKind × (Nat → Instr) × (State → State)} (he : e ∈ serveEvents) {s : State} {k : Nat} {q : CohReq}
    (hq : s.coh.reqs[k]? = some q) (hkind : q.kind = e.1) : exec (e.2.1 k) s = .next (e.2.2 (s.serve k q.kind)) := by
  simp only [serveEvents, List.mem_cons, List.not_mem_nil, or_false] at he
  rcases he with rfl | rfl | rfl | rfl
  · rw [hkind]; rfl
  · rw [hkind]; rfl
  all_goals
    rw [exec_writeAtHome, execWriteAtHome, hq, hkind]
    simp [hkind]

/-! ### Acknowledgements -/

/-- A change of a part matters only for the parts there are. -/
theorem Coh.modPart_congr {c : Coh} {f g : OctPart → OctPart} (h : ∀ p ∈ c.parts, f p = g p) (home : Nat) (o : ObjId) :
    c.modPart home o f = c.modPart home o g := by
  have hmap : (c.parts.map fun p => if p.is home o then (f p).tidy else p) =
      c.parts.map fun p => if p.is home o then (g p).tidy else p :=
    List.map_congr_left fun p hp => by rw [h p hp]
  unfold Coh.modPart
  rw [hmap]

/-- Acknowledgement k comes in: the record of its sharer changes, and no request for the line waits for that sharer (R282, R284). -/
def State.answered (s : State) (k : Nat) (a : Ack) (f : Sharer → Sharer) : State :=
  let c := { s.coh with acks := dropAt s.coh.acks k }
  let d := c.modPart (homeOf a.line) a.obj fun p => p.modSharer a.sid f
  let answered := fun (q : CohReq) => if q.line == a.line && q.served then { q with pend := q.pend.filter (· != a.sid) } else q
  { s with coh := { d with reqs := d.reqs.map answered } }.settle

/-- A sharer's last notice that the home of a line has taken (R284). -/
def Coh.lastTaken (c : Coh) (sid line : Nat) : Nat := (aget c.taken (8 * sid + homeOf line)).getD 0

/-- The record that OnAck makes of its sharer's: the count is set, or held until the notices up to A have come (R284). -/
def Ack.record (a : Ack) (taken : Nat) (r : Sharer) : Sharer :=
  if a.a = taken then { r with count := a.carried + a.granted, hold := none } else { r with hold := some (a.carried + a.granted, a.a) }

/-- Records of the home of a line that hold a count of a sharer. -/
def Coh.holds (c : Coh) (sid line : Nat) : Nat :=
  (c.parts.filter fun p => p.home == homeOf line && p.sharers.any fun r => r.sid == sid && r.hold.isSome).length

section
variable {s : State} {k : Nat} {a : Ack} (ha : s.coh.acks[k]? = some a) (hb : ∀ p ∈ s.coh.parts, p.bcast = false)
include ha hb

/-- An acknowledgement that is in order, or whose count there is room to hold, changes the record of its sharer (R284). -/
theorem onAckAt_record (hroom : a.a ≠ s.coh.lastTaken a.sid a.line → s.coh.holds a.sid a.line < 64) :
    s.onAckAt k = s.answered k a (a.record (s.coh.lastTaken a.sid a.line)) := by
  have htakes : (a.a != s.coh.lastTaken a.sid a.line && decide (64 ≤ s.coh.holds a.sid a.line)) = false := by
    by_cases hin : a.a = s.coh.lastTaken a.sid a.line
    · rw [hin, bne_self_eq_false, Bool.false_and]
    · rw [decide_eq_false (Nat.not_le.mpr (hroom hin)), Bool.and_false]
  unfold Coh.lastTaken Coh.holds at htakes
  unfold State.onAckAt
  simp only [ha, ge_iff_le, htakes, Bool.false_and, Bool.false_eq_true, if_false]
  unfold State.answered
  rw [Coh.modPart_congr (g := fun p => p.modSharer a.sid (a.record (s.coh.lastTaken a.sid a.line)))]
  intro p hp
  have hno : (p.modSharer a.sid (a.record (s.coh.lastTaken a.sid a.line))).bcast = false := hb p hp
  refine if_neg fun hbcast => ?_
  simp only [Bool.and_eq_true] at hbcast
  exact Bool.false_ne_true (hno.symm.trans hbcast.1.1)

/-- An answer whose notices have all come sets the count (R284). -/
theorem onAckAt_inOrder (hin : a.a = s.coh.lastTaken a.sid a.line) :
    s.onAckAt k = s.answered k a fun r => { r with count := a.carried + a.granted, hold := none } := by
  rw [onAckAt_record ha hb fun hne => absurd hin hne]
  exact congrArg _ (funext fun r => if_pos hin)

/-- An answer ahead of a notice is held (R284). -/
theorem onAckAt_early (hne : a.a ≠ s.coh.lastTaken a.sid a.line) (hroom : s.coh.holds a.sid a.line < 64) :
    s.onAckAt k = s.answered k a fun r => { r with hold := some (a.carried + a.granted, a.a) } := by
  rw [onAckAt_record ha hb fun _ => hroom]
  exact congrArg _ (funext fun r => if_neg hne)

end

/-! ### Records of a sharer -/

/-- Two selections may be made in either order. -/
theorem filter_filter_swap {α : Type} (p q : α → Bool) (l : List α) : (l.filter q).filter p = (l.filter p).filter q := by
  rw [List.filter_filter, List.filter_filter]
  exact congrArg (List.filter · l) (funext fun _ => Bool.and_comm _ _)

/-- A record stands while it counts a line or holds a count (R281). -/
def Sharer.live (r : Sharer) : Bool := r.count != 0 || r.hold.isSome

/-- The records of a sharer in the parts of an object at a home. -/
def recordsOf (ps : List OctPart) (home : Nat) (o : ObjId) (sid : Nat) : List Sharer :=
  (ps.filter (·.is home o)).flatMap fun p => p.sharers.filter (·.sid == sid)

theorem recordsOf_cons (p : OctPart) (ps : List OctPart) (home : Nat) (o : ObjId) (sid : Nat) :
    recordsOf (p :: ps) home o sid = (if p.is home o then p.sharers.filter (·.sid == sid) else []) ++ recordsOf ps home o sid := by
  unfold recordsOf
  cases hp : p.is home o <;> simp [hp]

/-- Where an object has at most one part, the record is the first. -/
theorem recordAt_eq_head? {c : Coh} {home : Nat} {o : ObjId} {sid : Nat} (h : (c.parts.filter (·.is home o)).length ≤ 1) :
    c.recordAt home o sid = (recordsOf c.parts home o sid).head? := by
  unfold Coh.recordAt Coh.part? OctPart.sharer? recordsOf
  rw [← List.head?_filter]
  rcases hps : c.parts.filter (·.is home o) with _ | ⟨p, _ | ⟨p', ps⟩⟩
  · rw [hps]
    rfl
  · rw [hps, List.flatMap_singleton, List.head?_filter]
    rfl
  · rw [hps] at h
    exact absurd h (by simp)

/-- A part that a home drops holds no record (R281). -/
theorem recordsOf_carried (c : Coh) (ps : List OctPart) (home : Nat) (o : ObjId) (sid : Nat) :
    recordsOf (ps.filter c.carries) home o sid = recordsOf ps home o sid := by
  induction ps with
  | nil => rfl
  | cons p ps ih =>
    cases hp : c.carries p with
    | true => rw [List.filter_cons_of_pos hp, recordsOf_cons, recordsOf_cons, ih]
    | false =>
      have hempty : p.sharers = [] := by
        unfold Coh.carries at hp
        simpa using (Bool.or_eq_false_iff.mp hp).1
      rw [List.filter_cons_of_neg (Bool.eq_false_iff.mp hp), recordsOf_cons, ih, hempty, List.filter_nil, ite_self, List.nil_append]

/-- Parts with a sharer's records of some of them changed, without those that then carry nothing. -/
def Coh.recount (c : Coh) (sel : OctPart → Bool) (sid : Nat) (f : Sharer → Sharer) (ps : List OctPart) : List OctPart :=
  (ps.map fun p => if sel p then (p.modSharer sid f).tidy else p).filter c.carries

/-- Whose part it is does not change. -/
theorem is_comp_recount (sel : OctPart → Bool) (sid : Nat) (f : Sharer → Sharer) (home : Nat) (o : ObjId) :
    (fun p : OctPart => p.is home o) ∘ (fun p => if sel p then (p.modSharer sid f).tidy else p) = (·.is home o) := by
  funext p
  simp only [Function.comp]
  split <;> rfl

section
variable {f : Sharer → Sharer} {sid : Nat} (hf : ∀ r, (f r).sid = r.sid)
include hf

/-- The sharer's records of a part after a change: those that are still live. -/
theorem sharers_modSharer_tidy (p : OctPart) :
    (p.modSharer sid f).tidy.sharers.filter (·.sid == sid) = ((p.sharers.filter (·.sid == sid)).map f).filter Sharer.live := by
  show (((p.sharers.map fun r => if r.sid == sid then f r else r).filter Sharer.live).filter (·.sid == sid)) = _
  have hsid : (fun r : Sharer => r.sid == sid) ∘ (fun r => if r.sid == sid then f r else r) = fun r => r.sid == sid := by
    funext r
    simp only [Function.comp]
    split
    · rw [hf]
    · rfl
  rw [filter_filter_swap, List.filter_map, hsid]
  exact congrArg _ (List.map_congr_left fun r hr => if_pos (List.mem_filter.mp hr).2)

/-- A change of an object's records is a change of each, and leaves out those that it ends; a part dropped had no record. -/
theorem recordsOf_recount (c : Coh) {sel : OctPart → Bool} {home : Nat} {o : ObjId} (hsel : ∀ p, p.is home o = true → sel p = true)
    (ps : List OctPart) :
    recordsOf (c.recount sel sid f ps) home o sid = ((recordsOf ps home o sid).map f).filter Sharer.live := by
  unfold Coh.recount
  rw [recordsOf_carried]
  unfold recordsOf
  rw [List.filter_map, is_comp_recount, List.flatMap_map, List.map_flatMap, List.filter_flatMap]
  rw [List.flatMap_def, List.flatMap_def]
  refine congrArg List.flatten (List.map_congr_left fun p hp => ?_)
  rw [if_pos (hsel p (List.mem_filter.mp hp).2), sharers_modSharer_tidy hf]

omit hf in
/-- A change of records makes no part of the object. -/
theorem length_filter_recount (c : Coh) (sel : OctPart → Bool) (home : Nat) (o : ObjId) (ps : List OctPart) :
    ((c.recount sel sid f ps).filter (·.is home o)).length ≤ (ps.filter (·.is home o)).length := by
  unfold Coh.recount
  rw [filter_filter_swap, List.filter_map, is_comp_recount]
  exact Nat.le_trans (List.length_filter_le _ _) (Nat.le_of_eq (List.length_map _))

end

/-! ### Notices -/

/-- The home has taken notice k, which is n (R283). -/
def Coh.tookNotice (c : Coh) (k : Nat) (n : Notice) : Coh :=
  { c with notices := dropAt c.notices k, taken := aset c.taken (8 * n.sid + homeOf n.line) n.n }

/-- A notice counts a line out of a record that holds no count (R284). -/
def Sharer.countOut (r : Sharer) : Sharer := if r.hold.isSome then r else { r with count := r.count - 1 }

/-- A notice resolves the hold that waited for it (R284). -/
def Notice.resolve (n : Notice) (r : Sharer) : Sharer :=
  match r.hold with
  | some (h, a) => if a = n.n then { r with count := h, hold := none } else r
  | none => r

theorem Sharer.countOut_sid (r : Sharer) : r.countOut.sid = r.sid := by
  unfold Sharer.countOut
  split <;> rfl

theorem Notice.resolve_sid (n : Notice) (r : Sharer) : (n.resolve r).sid = r.sid := by
  unfold Notice.resolve
  split
  · split <;> rfl
  · rfl

/-- An error record leaves memory as it is. -/
theorem errRecord_mem (s : State) (code : Nat) (path : Word) (addr ctx detail : Nat) :
    (s.errRecord code path addr ctx detail).mem = s.mem := by
  unfold State.errRecord
  dsimp only
  split <;> rfl

/-- With no eviction waiting, none goes on. -/
theorem flushLeaving_nil {s : State} (h : s.coh.leaving = []) : s.flushLeaving = s := by
  unfold State.flushLeaving
  rw [h]
  rfl

/-- A notice that its home takes next, with no eviction waiting (R283). -/
structure TakenNext (s : State) (k : Nat) (n : Notice) : Prop where
  listed : s.coh.notices[k]? = some n
  next : ∀ m ∈ s.coh.notices.take k, m.sid ≠ n.sid ∨ homeOf m.line ≠ homeOf n.line
  none_leaving : s.coh.leaving = []

/-- The records of a home after a notice: those of a part whose record would go below 0 are its broadcast record's (R284). -/
def Coh.noticed (c : Coh) (k : Nat) (n : Notice) (under : Bool) : Coh :=
  let d := if under then
      ((c.tookNotice k n).withPart (homeOf n.line) n.obj).modPart (homeOf n.line) n.obj fun p =>
        { p with sharers := p.sharers.filter fun r => r.sid != n.sid, bcast := true, answered := [] }
    else (c.tookNotice k n).modPart (homeOf n.line) n.obj fun p => p.modSharer n.sid Sharer.countOut
  { d with parts := d.recount (·.home == homeOf n.line) n.sid n.resolve d.parts }

section
variable (c : Coh) (k : Nat) (n : Notice) (under : Bool)

/-- A notice changes the parts of its home, and otherwise is taken. -/
theorem Coh.noticed_frame : ∃ ps, c.noticed k n under = { c.tookNotice k n with parts := ps } := by
  unfold Coh.noticed Coh.withPart
  cases under
  · exact ⟨_, rfl⟩
  · simp only [if_true]
    split <;> exact ⟨_, rfl⟩

/-- A record that does not go below 0 is counted out and then resolved (R284). -/
theorem Coh.noticed_parts : (c.noticed k n false).parts =
    ((c.tookNotice k n).modPart (homeOf n.line) n.obj fun p => p.modSharer n.sid Sharer.countOut).recount
      (·.home == homeOf n.line) n.sid n.resolve
      ((c.tookNotice k n).recount (·.is (homeOf n.line) n.obj) n.sid Sharer.countOut c.parts) := rfl

end

/-- What a notice makes of a sharer's record: a line counted out, or the hold resolved that waited for it (R284). -/
def Notice.recordAfter (n : Notice) (r : Sharer) : Sharer :=
  match r.hold with
  | none => { r with count := r.count - 1 }
  | some (h, a) => if a = n.n then { r with count := h, hold := none } else r

/-- A record counted out and then resolved is the record after the notice, gone where it is not live. -/
theorem resolve_countOut (n : Notice) (r : Sharer) :
    (((([r].map Sharer.countOut).filter Sharer.live).map n.resolve).filter Sharer.live).head? =
      if (n.recordAfter r).count = 0 ∧ (n.recordAfter r).hold = none then none else some (n.recordAfter r) := by
  obtain ⟨sid, count, hold⟩ := r
  rcases hold with _ | ⟨h, a⟩
  · by_cases hzero : count - 1 = 0 <;>
      simp [Sharer.countOut, Notice.resolve, Notice.recordAfter, Sharer.live, hzero]
  · by_cases hcomes : a = n.n
    · by_cases hzero : h = 0 <;>
        simp [Sharer.countOut, Notice.resolve, Notice.recordAfter, Sharer.live, hcomes, hzero]
    · simp [Sharer.countOut, Notice.resolve, Notice.recordAfter, Sharer.live, hcomes]

section
variable {c : Coh} {n : Notice} {p : OctPart} {r : Sharer} (hp : c.parts.filter (·.is (homeOf n.line) n.obj) = [p])
  (hr : p.sharers.filter (·.sid == n.sid) = [r])
include hp hr

/-- A record with a count or a hold does not go below 0. -/
theorem under_eq_false (hcount : r.hold = none → 0 < r.count) : c.under n = false := by
  have hpart : c.part? (homeOf n.line) n.obj = some p := by
    unfold Coh.part?
    rw [← List.head?_filter, hp]
    rfl
  have hsharer : p.sharer? n.sid = some r := by
    unfold OctPart.sharer?
    rw [← List.head?_filter, hr]
    rfl
  unfold Coh.under
  simp only [hpart, hsharer, Bool.and_eq_false_iff, decide_eq_false_iff_not]
  cases hhold : r.hold with
  | none => exact .inl (Nat.pos_iff_ne_zero.mp (hcount hhold))
  | some _ => exact .inr rfl

/-- The record after the notice (R284), which is gone where it counts no line and holds no count (R281). -/
theorem recordAt_noticed (k : Nat) :
    (c.noticed k n false).recordAt (homeOf n.line) n.obj n.sid =
      if (n.recordAfter r).count = 0 ∧ (n.recordAfter r).hold = none then none else some (n.recordAfter r) := by
  have hone : ((c.noticed k n false).parts.filter (·.is (homeOf n.line) n.obj)).length ≤ 1 := by
    rw [Coh.noticed_parts]
    refine Nat.le_trans (length_filter_recount _ _ _ _ _) (Nat.le_trans (length_filter_recount _ _ _ _ _) (Nat.le_of_eq ?_))
    rw [hp, List.length_singleton]
  have hrecords : recordsOf c.parts (homeOf n.line) n.obj n.sid = [r] := by
    unfold recordsOf
    rw [hp, List.flatMap_singleton, hr]
  rw [recordAt_eq_head? hone, Coh.noticed_parts,
    recordsOf_recount n.resolve_sid _ fun p hp => (Bool.and_eq_true_iff.mp hp).1,
    recordsOf_recount Sharer.countOut_sid _ fun _ => id, hrecords]
  exact resolve_countOut n r

end

namespace TakenNext

variable {s : State} {k : Nat} {n : Notice} (h : TakenNext s k n)
include h

theorem onNoticeAt_eq : s.onNoticeAt k =
    { (if s.coh.under n then s.errRecord 0x0130 (octPath (homeOf n.line)) (128 * n.line) 0xFFFF n.sid else s) with
      coh := s.coh.noticed k n (s.coh.under n) } := by
  have hfirst : ((s.coh.notices.take k).any fun m => m.sid == n.sid && homeOf m.line == homeOf n.line) = false := by
    refine List.any_eq_false.mpr fun m hm hboth => ?_
    obtain ⟨hsid, hhome⟩ := Bool.and_eq_true_iff.mp hboth
    exact (h.next m hm).elim (absurd (eq_of_beq hsid)) (absurd (eq_of_beq hhome))
  unfold State.onNoticeAt
  simp only [h.listed, hfirst, Bool.false_eq_true, if_false]
  obtain ⟨ps, hps⟩ := s.coh.noticed_frame k n (s.coh.under n)
  exact flushLeaving_nil ((congrArg Coh.leaving hps).trans h.none_leaving)

theorem onNoticeAt_coh : (s.onNoticeAt k).coh = s.coh.noticed k n (s.coh.under n) := by
  rw [h.onNoticeAt_eq]

theorem onNoticeAt_mem : (s.onNoticeAt k).mem = s.mem := by
  rw [h.onNoticeAt_eq]
  split
  · exact errRecord_mem _ _ _ _ _ _
  · rfl

end TakenNext

/-! ### Sharers -/

/-- What a sharer sends besides changes nothing else. -/
theorem foldl_emit {α : Type} (o : α → Out) (l : List α) (s : State) :
    l.foldl (fun s a => s.emit (o a)) s = { s with out := s.out ++ l.map o } := by
  induction l generalizing s with
  | nil => rw [List.map_nil, List.append_nil]; rfl
  | cons a l ih => rw [List.foldl_cons, ih, List.map_cons, List.append_cons]; rfl

/-- A sharer's answer to recall k (R282, R284): an acknowledgement leaves for the home, and an exclusive recall takes the line. -/
theorem answer_recalled {s : State} {k : Nat} {r : Recall} (hr : s.coh.recalls[k]? = some r) :
    (s.answer k).mem = s.mem ∧ (s.answer k).coh.recalls = dropAt s.coh.recalls k ∧
    (∃ a, (s.answer k).coh.acks = s.coh.acks ++ [a] ∧ a.sid = r.sid ∧ a.line = r.line ∧ a.obj = r.obj ∧ a.granted = r.granted) ∧
    (r.share = false → ∀ h ∈ (s.answer k).coh.held, ¬(h.sid = r.sid ∧ h.line = r.line)) := by
  unfold State.answer
  simp only [hr, foldl_emit]
  refine ⟨trivial, trivial, ⟨_, rfl, rfl, rfl, rfl, rfl⟩, fun hshare h hh ⟨hsid, hline⟩ => ?_⟩
  rw [hshare, Bool.false_and, if_neg Bool.false_ne_true] at hh
  simpa [hsid, hline] using (List.mem_filter.mp hh).2

/-- A recall that comes in order, of a line that its sharer need not keep, is answered (R263, R283, R286). -/
theorem execRecall_answers {s : State} {k : Nat} {r : Recall} (hr : s.coh.recalls[k]? = some r)
    (horder : s.coh.inOrder r.n r.sid r.line = true) (hwrite : s.mustWrite r.sid r.line = false)
    (hmark : s.markedIn r.sid r.line = false) : execRecall k s = .next (s.answer k) := by
  unfold execRecall
  simp only [hr, horder, hwrite, hmark, Bool.not_false, Bool.and_self, if_true]

/-- A grant that comes in order fills a line that its sharer does not hold and has room for (R255, R283). -/
theorem execGrant_fills {s : State} {k : Nat} {g : Grant} (hg : s.coh.grants[k]? = some g)
    (horder : s.coh.inOrder g.n g.sid g.line = true) (hnew : s.coh.held? g.sid g.line = none) (hsid : g.sid ≠ sidHost)
    (hroom : s.fillOk g.sid g.line = true) :
    let u := { s with coh := { s.coh with grants := dropAt s.coh.grants k } }.fill g.sid g.line g.st g.rd
    execGrant k s = .next (if g.st = 0 then u else u.gained g.sid g.line) := by
  unfold execGrant
  simp only [hg, horder, hnew, hsid, hroom, Option.isSome_none, Bool.not_true, Bool.and_false, Bool.false_and, decide_false,
    Bool.false_eq_true, if_false]

/-- Settles O45: each clause is the rule above for its event. -/
theorem coherenceEvents : Obligations.CoherenceEvents := by
  refine ⟨?requests, ?acks, ?notices, ?recalls, ?grants⟩
  case requests =>
    intro e he s k q hq hkind hserved hfirst hmoving hmarked
    have h : Servable s k q := ⟨hq, hserved, hfirst, hmoving, hmarked⟩
    have hexec := exec_serveEvent he hq hkind
    refine ⟨fun hpart hroom => ?unshared, fun p hpart hneeds hfull hnone hold => ?full, fun p hpart hp => ?shared⟩
    case unshared => rw [hexec, h.serve_unshared hpart hroom]
    case full => rw [hexec, h.serve_full hpart hneeds hfull hnone hold]
    case shared => rw [hexec, h.serve_shared hpart hp]
  case acks =>
    intro s k a ha hb taken count c after
    refine ⟨fun hin => ?inOrder, fun hne hroom => ?early⟩
    case inOrder => rw [exec_onAck, execOnAck, onAckAt_inOrder ha hb hin]; rfl
    case early => rw [exec_onAck, execOnAck, onAckAt_early ha hb hne hroom]; rfl
  case notices =>
    intro s k n hn hfirst hleaving
    have h : TakenNext s k n := ⟨hn, hfirst, hleaving⟩
    refine ⟨s.onNoticeAt k, exec_onNotice s k, h.onNoticeAt_mem, ?_⟩
    obtain ⟨ps, hps⟩ := s.coh.noticed_frame k n (s.coh.under n)
    rw [h.onNoticeAt_coh]
    refine ⟨congrArg Coh.notices hps, ?_, fun p r hp hr hcount => ?_⟩
    · rw [hps]
      exact aget_aset_same _ _ _
    · rw [under_eq_false hp hr hcount]
      exact recordAt_noticed hp hr k
  case recalls =>
    intro s k r hr horder hwrite hmark
    obtain ⟨hmem, hrecalls, ⟨a, hacks, hsid, hline, hobj, hgranted⟩, hheld⟩ := answer_recalled hr
    exact ⟨s.answer k, a, (exec_recallLine s k).trans (execRecall_answers hr horder hwrite hmark), hmem, hrecalls, hacks, hsid,
      hline, hobj, hgranted, hheld⟩
  case grants =>
    intro s k g hg horder hnew hsid hroom u
    exact (exec_grant s k).trans (execGrant_fills hg horder hnew hsid hroom)

end Sys2Proof.Machine

/-! SUPPORT. The coherence link to the host (R293, R294, R372, R373, R376): what a snoop finds, what a completion brings, and where the
host's accesses to device memory go. -/

namespace Sys2Proof.Machine

open Sys2Proof

/-! ### Snoops -/

/-- A half in the state that a snoop leaves it in (R373); with its line's last half the caches hold the line no more (R294). -/
def State.withHalf (s : State) (half n : Nat) : State :=
  { s with coh := if n = 0 then s.coh.dropHalf half else { s.coh with halves := aset s.coh.halves half n } }

section
variable {s : State} {half : Nat} {m e sh : String × Nat}

/-- A modified half is answered with its bytes (R373). -/
theorem snoop_modified (h : (aget s.coh.halves half).getD 0 = 3) :
    s.snoop half m e sh = ((s.withHalf half m.2).emit (.snoop half m.1 true)).emit (.data (s.halfBytes half)) := by
  unfold State.snoop
  rw [h]
  rfl

/-- An exclusive half is answered without bytes, which the host has (R373). -/
theorem snoop_exclusive (h : (aget s.coh.halves half).getD 0 = 2) :
    s.snoop half m e sh = (s.withHalf half e.2).emit (.snoop half e.1 false) := by
  unfold State.snoop
  rw [h]
  rfl

theorem snoop_shared (h : (aget s.coh.halves half).getD 0 = 1) :
    s.snoop half m e sh = (s.withHalf half sh.2).emit (.snoop half sh.1 false) := by
  unfold State.snoop
  rw [h]
  rfl

/-- A half that the part does not hold stays as it is (R373). -/
theorem snoop_invalid (h : (aget s.coh.halves half).getD 0 = 0) :
    s.snoop half m e sh = s.emit (.snoop half "RspIHitI" false) := by
  unfold State.snoop
  rw [h]
  rfl

/-- Where no region is open, SNPINV is its snoop alone (R294, R373). -/
theorem execSnpinv_noRegion (h : ∀ p ∈ s.teams, p.2.inRegion = false) :
    execSnpinv half s = .next (s.snoop half ("RspIFwdM", 0) ("RspIHitSE", 0) ("RspIHitSE", 0)) := by
  have hnone : ¬ (s.teams.any fun p => p.2.inRegion) = true :=
    Bool.eq_false_iff.mp (List.any_eq_false.mpr fun p hp => Bool.eq_false_iff.mp (h p hp))
  exact congrArg _ (if_neg hnone)

end

/-! ### Completions -/

/-- A half that the part asked for and did not hold comes with its state and its bytes (R372); bytes that the host has written since
are a conflict of the regions that loaded them (R212). -/
theorem execCxlCacheCompletion_fetched {s : State} {half : Nat} {exclusive : Bool} {data : List Byte} {q : HalfReq}
    (hq : s.coh.halfReqs.find? (fun q => q.half == half) = some q) (hnew : aget s.coh.halves half = none)
    (hlen : data.length = 64) (hhost : Config.hostBase ≤ 64 * half) (hahead : q.ahead = none) :
    let u := { s with
      coh := { s.coh with
        halfReqs := s.coh.halfReqs.filter (· != q)
        halves := aset s.coh.halves half (if q.write || exclusive then 2 else 1) }
      mem := memWrite s.mem (located (64 * half) data) }
    execCxlCacheCompletion half exclusive data s =
      .next (if s.bytesAt (64 * half) 64 = data then u else u.seen [half / 2]) := by
  have hheld : (aget s.coh.halves half).getD 0 = 0 := by rw [hnew]; rfl
  have hbelow : ¬ Config.hostBase > 64 * half := Nat.not_lt.mpr hhost
  unfold execCxlCacheCompletion
  simp only [hq, hahead, hheld, hlen, hbelow, Nat.zero_max, bne_self_eq_false, decide_false, Bool.or_self, Bool.false_eq_true,
    if_false, beq_iff_eq]

/-! ### The host's accesses to device memory -/

/-- A half of device memory that the host reaches: inside the range of its decoders, and on no fenced pseudo-channel (R354, R414). -/
structure HostReaches (s : State) (half : Nat) : Prop where
  below : 64 * half < Config.hostBase
  first : s.hdm.1 ≤ 64 * half
  last : 64 * half + 64 ≤ s.hdm.1 + s.hdm.2
  unfenced : s.lineFenced (half / 2) = false
  device : paDevice (64 * half) = true

/-- The host's request for a half of a line, or its write of one, at the line's home (R293). -/
def hostRequest (half : Nat) (k : ReqKind) (data : List Byte) : CohReq :=
  { kind := k, sid := sidHost, line := half / 2, rd := half % 2, pend := [], served := false, data := data }

section
variable {s : State} {half : Nat} (h : HostReaches s half)
include h

/-- An access that reaches device memory: a clean drop, a read of a half that the host holds, or a request at the home (R282, R293). -/
theorem HostReaches.exec_access (write : Bool) (data : List Byte) :
    execHostCxlMemRequest half write data s =
      if write && data.isEmpty then .next (s.hostDrop half)
      else if !write && s.coh.hosted.contains half && !s.marked none (half / 2) then .next (s.sendHalf half)
      else .next { s with coh := s.coh.ask (hostRequest half (if write then .atHome else .read) (if write then data.take 64 else [])) } := by
  have hin : (decide (Config.hostBase ≤ 64 * half) || decide (64 * half < s.hdm.1) ||
      decide (s.hdm.1 + s.hdm.2 < 64 * half + 64)) = false := by
    rw [decide_eq_false (Nat.not_le.mpr h.below), decide_eq_false (Nat.not_lt.mpr h.first),
      decide_eq_false (Nat.not_lt.mpr h.last)]
    rfl
  unfold execHostCxlMemRequest
  simp only [hin, h.unfenced, h.device, Bool.not_true, Bool.false_eq_true, if_false]
  rfl

theorem HostReaches.exec_write {data : List Byte} (hlen : data.length = 64) :
    execHostCxlMemRequest half true data s = .next { s with coh := s.coh.ask (hostRequest half .atHome data) } := by
  have hdata : data.isEmpty = false := List.isEmpty_eq_false_iff.mpr (List.ne_nil_of_length_pos (by omega))
  rw [h.exec_access, hdata, if_pos rfl, if_pos rfl, List.take_of_length_le (Nat.le_of_eq hlen)]
  rfl

theorem HostReaches.exec_drop : execHostCxlMemRequest half true [] s = .next (s.hostDrop half) := by
  rw [h.exec_access]
  rfl

/-- A half that the host does not hold, or that has to wait, is asked for (R263, R282). -/
theorem HostReaches.exec_read (data : List Byte) (hask : s.coh.hosted.contains half = false ∨ s.marked none (half / 2) = true) :
    execHostCxlMemRequest half false data s = .next { s with coh := s.coh.ask (hostRequest half .read []) } := by
  have hheld : (s.coh.hosted.contains half && !s.marked none (half / 2)) = false := by
    rcases hask with hnone | hwaits
    · rw [hnone, Bool.false_and]
    · rw [hwaits, Bool.not_true, Bool.and_false]
  rw [h.exec_access, Bool.not_false, Bool.true_and, hheld]
  rfl

/-- A half that the host holds is sent at once (R293). -/
theorem HostReaches.exec_again (data : List Byte) (hheld : s.coh.hosted.contains half = true)
    (hfree : s.marked none (half / 2) = false) : execHostCxlMemRequest half false data s = .next (s.sendHalf half) := by
  rw [h.exec_access, hheld, hfree]
  rfl

end

/-- An access outside the decoders' range reaches nothing (log 59). -/
theorem execHostCxlMemRequest_outside {s : State} {half : Nat} (write : Bool) (data : List Byte)
    (hout : 64 * half < s.hdm.1 ∨ s.hdm.1 + s.hdm.2 < 64 * half + 64) : execHostCxlMemRequest half write data s = .next s := by
  unfold execHostCxlMemRequest
  refine if_pos ?_
  simp only [Bool.or_eq_true, decide_eq_true_eq]
  rcases hout with hlow | hhigh
  · exact .inl (.inr hlow)
  · exact .inr hhigh

/-- A grant to the host sends it the half, which it holds from then on (R293). -/
theorem execGrant_host {s : State} {k : Nat} {g : Grant} (hg : s.coh.grants[k]? = some g)
    (horder : s.coh.inOrder g.n g.sid g.line = true) (hhost : g.sid = sidHost) (hfree : s.marked none g.line = false)
    (hnew : s.coh.hosted.contains (2 * g.line + g.rd) = false) :
    execGrant k s = .next ({ s with coh := { s.coh with
      grants := dropAt s.coh.grants k, hosted := (2 * g.line + g.rd) :: s.coh.hosted } }.sendHalf (2 * g.line + g.rd)) := by
  rw [hhost] at horder
  unfold execGrant
  simp only [hg, horder, hhost, hfree, hnew, Bool.not_true, Bool.and_false, Bool.false_eq_true, decide_true, if_true, if_false]

/-- Settles O46: each clause is the rule above for its event. -/
theorem hostLink : Obligations.HostLink := by
  refine ⟨?snoops, ?completion, ?access, ?outside, ?grant⟩
  case snoops =>
    intro s half st now data plain hregion
    have hinv := execSnpinv_noRegion (half := half) hregion
    refine ⟨fun h => ?modified, fun h => ?exclusive, fun h => ?shared, fun h => ?invalid⟩
    case modified =>
      exact ⟨hinv.trans (congrArg _ (snoop_modified h)), congrArg _ (snoop_modified h), congrArg _ (snoop_modified h)⟩
    case exclusive =>
      exact ⟨hinv.trans (congrArg _ (snoop_exclusive h)), congrArg _ (snoop_exclusive h), congrArg _ (snoop_exclusive h)⟩
    case shared =>
      exact ⟨hinv.trans (congrArg _ (snoop_shared h)), congrArg _ (snoop_shared h), congrArg _ (snoop_shared h)⟩
    case invalid =>
      simp only [List.forall_mem_cons]
      exact ⟨hinv.trans (congrArg _ (snoop_invalid h)), congrArg _ (snoop_invalid h), congrArg _ (snoop_invalid h), nofun⟩
  case completion => exact fun s half exclusive data q hq hnew hlen hhost hahead =>
    (exec_cxlCacheCompletion s half exclusive data).trans (execCxlCacheCompletion_fetched hq hnew hlen hhost hahead)
  case access =>
    intro s half data hbelow hfirst hlast hfence hdevice q ask
    have h : HostReaches s half := ⟨hbelow, hfirst, hlast, hfence, hdevice⟩
    exact ⟨h.exec_write, h.exec_drop, h.exec_read data, h.exec_again data⟩
  case outside => exact fun s half write data _ hout => execHostCxlMemRequest_outside write data hout
  case grant =>
    intro s k g hg horder hhost hfree half c hnew
    exact (exec_grant s k).trans (execGrant_host hg horder hhost hfree hnew)

end Sys2Proof.Machine

/-! SUPPORT. The command front end's events (R308 to R343): what a doorbell or a command makes of a thread, how packets issue and
complete, and how predictions start, are refuted and relabelled. -/

namespace Sys2Proof.Machine

open Sys2Proof

/-! ### Threads -/

@[simp] theorem considered_qcp? (s : State) (t : Nat) : s.considered.qcp? t = s.qcp? t := rfl

@[simp] theorem setQ_qcp?_self (s : State) (t : Nat) (q : Qcp) : (s.setQ t q).qcp? t = some q := by
  rw [State.qcp?_setQ, if_pos rfl]

@[simp] theorem setQ_setQ (s : State) (t : Nat) (q r : Qcp) : (s.setQ t q).setQ t r = s.setQ t r :=
  congrArg (fun m => { s with threads := m }) (aset_aset s.threads t q r)

section
variable {s : State} {t : Nat} {q : Qcp} (hq : s.qcp? t = some q)
include hq

/-- A thread that there is stands changed after an update. -/
theorem modQ_eq_setQ (f : Qcp → Qcp) : s.modQ t f = s.setQ t (f q) :=
  congrArg (fun m => { s with threads := m }) (amod_some hq f)

theorem modQ_qcp?_self (f : Qcp → Qcp) : (s.modQ t f).qcp? t = some (f q) := by
  rw [modQ_eq_setQ hq, setQ_qcp?_self]

/-! ### Doorbells and commands -/

/-- A position is taken where it is aligned, does not move back, and leaves no more than the ring between it and RPTR (R309). -/
theorem execDoorbell_eq (pos : DWord) : execDoorbell t pos s = .next (
    if q.state ≠ .unmapped ∧ pos.toNat % 64 = 0 ∧ q.wptr.toNat ≤ pos.toNat ∧ pos.toNat - q.rptr.toNat ≤ 2 ^ q.log2sz then
      (s.setQ t { q with wptr := pos }).noteArrivals t else s) := by
  have hbad : (q.state == .unmapped || pos.toNat % 64 != 0 || pos.toNat < q.wptr.toNat ||
        decide (pos.toNat - q.rptr.toNat > 2 ^ q.log2sz)) = true ↔
      ¬(q.state ≠ .unmapped ∧ pos.toNat % 64 = 0 ∧ q.wptr.toNat ≤ pos.toNat ∧ pos.toNat - q.rptr.toNat ≤ 2 ^ q.log2sz) := by
    simp only [Bool.or_eq_true, beq_iff_eq, bne_iff_ne, decide_eq_true_eq]
    by_cases hstate : q.state = .unmapped
    · simp [hstate]
    · simp only [hstate, false_or, ne_eq, not_false_eq_true, true_and]
      omega
  unfold execDoorbell
  simp only [hq, hbad, modQ_eq_setQ hq, ite_not]
  exact (apply_ite Host.Outcome.next _ _ _).symm

/-- The header at RPTR is looked for again 1,024 ticks after the last time (R317). -/
theorem execPacketReread_due (hstate : q.state = .fetch) (hptr : q.rptr.toNat < q.wptr.toNat) (hdue : q.reread + 1024 ≤ s.cycle) :
    execPacketReread t s = .next ((s.setQ t { q with reread := s.cycle }).noteArrivals t) := by
  unfold execPacketReread
  simp [hq, hstate, hptr, hdue, modQ_eq_setQ hq]

theorem execStart_stopped (hopen : s.fenced (qcpPath t) = false) (hstate : q.state = .stopped) :
    execStart t s = .next (s.setQ t { q with state := .fetch, expect := none }) := by
  unfold execStart
  simp [hq, hopen, hstate, modQ_eq_setQ hq]

theorem execStart_faulted (hopen : s.fenced (qcpPath t) = false) (hstate : q.state = .faulted) :
    execStart t s = .next (s.setQ t { q with state := .fetch }) := by
  unfold execStart
  simp [hq, hopen, hstate, modQ_eq_setQ hq]

theorem execDrainingEnd_drained (hstate : q.state = .draining) (hnone : q.packets = []) (hdone : q.discarding = false) :
    execDrainingEnd t s = .next (s.setQ t { q with state := .unmapped }) := by
  unfold execDrainingEnd
  simp [hq, hstate, hnone, hdone, modQ_eq_setQ hq]

theorem execDiscardDone_eq : execDiscardDone t s = .next (s.setQ t { q with discarding := false }) :=
  congrArg _ (modQ_eq_setQ hq _)

/-- A queue whose newest prediction has idled for its timeout gives up what it has predicted (R339). -/
theorem execIdleTimeout_due {p : Prediction} (hlast : (q.preds.drop q.firstOpen).getLast? = some p)
    (hdue : max q.lastArr p.started + q.idleTicks ≤ s.cycle) : execIdleTimeout t s = .next (s.refute t .paused) := by
  unfold execIdleTimeout
  simp only [hq, hlast]
  exact if_neg (Nat.not_lt.mpr hdue)

/-! ### Giving up predictions and a program -/

theorem refute_eq (st : PState) : s.refute t st = s.discardPreds t q.firstOpen st := by
  unfold State.refute
  rw [hq]

/-- What a refutation leaves of its thread, but for where the program rolls back to (R339, R379). -/
theorem refute_thread (st : PState) : ∃ g, (s.refute t st).qcp? t = some { q with
    preds := q.preds.take q.firstOpen, pgen := q.pgen + 1, pstate := st
    discarding := !(q.preds.drop q.firstOpen).isEmpty || q.discarding, program := g } := by
  have hthread : aget s.threads t = some q := hq
  rw [refute_eq hq]
  unfold State.discardPreds
  simp only [hthread]
  exact ⟨_, aget_aset_same _ _ _⟩

theorem refute_versions (st : PState) : (s.refute t st).versions = s.versions.filter fun v =>
    !(v.thread == t && ((q.preds.drop q.firstOpen).map Prediction.slot).contains v.slot) := by
  have hthread : aget s.threads t = some q := hq
  rw [refute_eq hq]
  unfold State.discardPreds
  simp only [hthread]

end

theorem discardPreds_mem (s : State) (t k : Nat) (st : PState) : (s.discardPreds t k st).mem = s.mem := by
  unfold State.discardPreds
  cases aget s.threads t <;> rfl

theorem refute_mem (s : State) (t : Nat) (st : PState) : (s.refute t st).mem = s.mem := by
  unfold State.refute
  cases s.qcp? t with
  | none => rfl
  | some q => exact discardPreds_mem s t q.firstOpen st

/-- The thread has forgotten its program: memory, its packets and its ring are as they were (R328, R339). -/
def Forgot (s : State) (t : Nat) (q : Qcp) (u : State) (st : QState) : Prop :=
  u.mem = s.mem ∧ ∃ r, u.qcp? t = some r ∧ r.state = st ∧ r.program = none ∧ r.history = [] ∧ r.pstate = .learning ∧
    r.packets = q.packets ∧ r.rptr = q.rptr ∧ r.wptr = q.wptr

theorem unlearn_forgot {s : State} {t : Nat} {q : Qcp} (hq : s.qcp? t = some q) : Forgot s t q (s.unlearn t []) q.state := by
  unfold State.unlearn
  simp only [hq]
  by_cases hp : q.pstate = .learning
  · rw [if_pos (beq_iff_eq.mpr hp)]
    exact ⟨rfl, _, modQ_qcp?_self hq _, rfl, rfl, rfl, hp, rfl, rfl, rfl⟩
  · obtain ⟨g, hg⟩ := refute_thread hq .learning
    rw [if_neg (mt beq_iff_eq.mp hp)]
    exact ⟨refute_mem s t .learning, _, modQ_qcp?_self hg _, rfl, rfl, rfl, rfl, rfl, rfl, rfl⟩

section
variable {s u : State} {t : Nat} {q : Qcp} {st : QState} (h : Forgot s t q u st)
include h

/-- An update that keeps what a thread shows of its program and ring, its state aside. -/
theorem Forgot.modQ {st' : QState} (f : Qcp → Qcp) (hstate : ∀ r, r.state = st → (f r).state = st')
    (hkeeps : ∀ r, ((f r).program, (f r).history, (f r).pstate, (f r).packets, (f r).rptr, (f r).wptr) =
      (r.program, r.history, r.pstate, r.packets, r.rptr, r.wptr)) : Forgot s t q (u.modQ t f) st' := by
  obtain ⟨hmem, r, hr, hst, hprog, hhist, hpst, hpk, hrptr, hwptr⟩ := h
  have hk := hkeeps r
  simp only [Prod.mk.injEq] at hk
  obtain ⟨kprog, khist, kpst, kpk, krptr, kwptr⟩ := hk
  exact ⟨hmem, f r, modQ_qcp?_self hr f, hstate r hst, kprog.trans hprog, khist.trans hhist, kpst.trans hpst, kpk.trans hpk,
    krptr.trans hrptr, kwptr.trans hwptr⟩

theorem Forgot.leaveTable : Forgot s t q (u.leaveTable t) st := by
  have h' := h
  obtain ⟨-, r, hr, -⟩ := h'
  unfold State.leaveTable
  simp only [hr]
  split
  · exact Forgot.modQ (s := s) (u := { u with table := _ }) h _ (fun _ hst => hst) fun _ => rfl
  · exact h

end

section
variable {s : State} {t : Nat} {q : Qcp} (hq : s.qcp? t = some q)
include hq

/-- STOP of a queue that runs or has faulted (R313). -/
theorem execStop_forgot (hstate : q.state.runs = true ∨ q.state = .faulted) :
    ∃ u, execStop t s = .next u ∧ Forgot s t q u (if q.state = .faulted then .faulted else .stopped) := by
  refine ⟨_, ?_, (unlearn_forgot hq).leaveTable.modQ
    (fun q => { q with state := if q.state == .faulted then .faulted else .stopped }) (fun r hr => ?_) fun _ => rfl⟩
  · unfold execStop
    simp only [hq]
    exact if_pos (by simpa using hstate)
  · simp only [hr, beq_iff_eq]

/-- UNMAP, or a clear EN, of a queue that is mapped and does not drain yet (R313). -/
theorem unmap_forgot (hmapped : q.state ≠ .unmapped) (hdrain : q.state ≠ .draining) :
    Forgot s t q (s.unmap t) .draining := by
  unfold State.unmap
  simp only [hq]
  rw [if_neg (by simp [hmapped, hdrain])]
  exact (unlearn_forgot hq).leaveTable.modQ _ (fun _ _ => rfl) fun _ => rfl

theorem unmap_unmapped (hstate : q.state = .unmapped) : s.unmap t = s := by
  unfold State.unmap
  simp [hq, hstate]

end

/-! ### QUEUE_MAP -/

/-- A thread after its descriptor was read (R308, R311). -/
def Qcp.mapped (q : Qcp) (b : List Byte) (dva cycle : Nat) : Qcp :=
  let at_ := fun (o n : Nat) => leNat ((b.drop o).take n)
  { q with
    state := .stopped, wptr := BitVec.ofNat 64 (at_ 0x10 8), rptr := BitVec.ofNat 64 (at_ 0x10 8), rbase := at_ 0 8
    log2sz := at_ 8 1, pri := at_ 9 1, cdepth := at_ 10 1, qid := at_ 12 2, desc := dva, idle := at_ 0x18 4
    vquota := at_ 0x1C 4, lastArr := cycle, seen := BitVec.ofNat 64 (at_ 0x10 8) }

section
variable {s : State} {t : Nat} {value : DWord} (ht : t < 32)
include ht

/-- A write of QMAP with EN = 0 unmaps, and is kept (R311). -/
theorem execQueueMap_clear (hen : value.getLsbD 0 = false) : execQueueMap t value s = .next (
    if (s.qcp? t).isSome then (s.unmap t).modQ t fun q => { q with qmap := value &&& 0xFFFFFFFFFFFFFFC1#64 }
    else s.setQ t { Qcp.reset with qmap := value &&& 0xFFFFFFFFFFFFFFC1#64 }) := by
  unfold execQueueMap
  simp only [if_neg (Nat.not_le.mpr ht), hen, Bool.not_false, if_true]
  cases hq : s.qcp? t with
  | some q => rfl
  | none =>
    have hnew : (s.setQ t Qcp.reset).qcp? t = some Qcp.reset := setQ_qcp?_self ..
    have hmod := (modQ_eq_setQ hnew fun q => { q with qmap := value &&& 0xFFFFFFFFFFFFFFC1#64 }).trans (setQ_setQ ..)
    exact congrArg _ ((congrArg (State.modQ · t _) (unmap_unmapped hnew rfl)).trans hmod)

/-- A write of QMAP with EN = 1 maps the queue of a descriptor that can be read and keeps R308, whose number no other thread has
(R311). -/
theorem execQueueMap_set {m : DWord} {q : Qcp} {base : State} {c dva : Nat} {b : List Byte} {l : Leaf}
    (hen : value.getLsbD 0 = true) (hq : (s.qcp? t).getD Qcp.reset = q) (hm : value &&& 0xFFFFFFFFFFFFFFC1#64 = m)
    (hc : bits64 m 54 10 = c) (hdva : bits64 m 6 48 * 64 = dva) (hbase : s.setQ t (q.mapping m c) = base)
    (hb : base.partRead c (.queue t) dva 64 = b) (hstate : q.state = .unmapped) (hserv : s.outOfService (qcpPath t) = false)
    (hctx : (s.ctx? c).isSome = true) (hleaf : base.partLeaf c (.queue t) dva false 64 = .ok l)
    (hwait : base.partWait c (.queue t) [(dva, 64, false)] = none) (hdesc : descOk b = true)
    (hqid : ∀ p ∈ s.threads, p.1 ≠ t → p.2.state ≠ .unmapped → p.2.qid ≠ leNat ((b.drop 12).take 2)) :
    execQueueMap t value s = .next (base.setQ t ((q.mapping m c).mapped b dva s.cycle)) := by
  obtain ⟨hfence, htest⟩ := Bool.or_eq_false_iff.mp hserv
  have hfree : (s.threads.any fun p => p.1 != t && p.2.state != .unmapped && p.2.qid == leNat ((b.drop 12).take 2)) = false := by
    simpa [List.any_eq_false] using fun a x hx hne hst => hqid (a, x) hx hne hst
  have hbase' : { s with threads := aset s.threads t (q.mapping m c) } = base := hbase
  have hmap : base.qcp? t = some (q.mapping m c) := hbase ▸ setQ_qcp?_self ..
  unfold execQueueMap
  simp only [if_neg (Nat.not_le.mpr ht), hen, hq, hm, hc, hdva, hstate, hfence, htest, hctx, hbase', hleaf, hwait, hb, hdesc,
    hfree, Bool.not_true, Bool.false_eq_true, if_false, bne_self_eq_false]
  exact congrArg _ (modQ_eq_setQ hmap _)

end

/-! ### Packets that issue -/

/-- Issuing a packet changes the threads, and what the write of RPTR can reach. -/
theorem issuePacket_written (s : State) (t : Nat) (p : Pkt) (launch : Option Nat) (done : Bool) :
    ∃ ts, OnlyWrites { s with threads := ts } (s.issuePacket t p launch done) := by
  unfold State.issuePacket
  cases s.qcp? t with
  | none => exact ⟨s.threads, OnlyWrites.refl s⟩
  | some q => exact ⟨_, partPut_written (s.modQ t _) ..⟩

theorem issuePacket_fresh (s : State) (t : Nat) (p : Pkt) (launch : Option Nat) (done : Bool) :
    (s.issuePacket t p launch done).fresh = s.fresh :=
  (issuePacket_written s t p launch done).elim fun _ h => h.fresh

theorem issuePacket_launches (s : State) (t : Nat) (p : Pkt) (launch : Option Nat) (done : Bool) :
    (s.issuePacket t p launch done).launches = s.launches :=
  (issuePacket_written s t p launch done).elim fun _ h => h.launches

/-- The packet that a queue keeps of one that has issued (R327). -/
def Pkt.issued (p : Pkt) (addr : Nat) (launch : Option Nat) (done : Bool) : Packet :=
  { seq := p.seq, addr := addr, type := p.type, cw := p.cw, irq := p.irq, cscope := p.cscope, vec := p.vec
    cword := BitVec.ofNat 64 p.cword, launch := launch, done := done, abandoned := false }

/-- RPTR moves past a packet that issues, and the next expected SEQ is one more (R309, R315, R317). -/
theorem issuePacket_qcp? {s : State} {t : Nat} {q : Qcp} (hq : s.qcp? t = some q) (p : Pkt) (launch : Option Nat) (done : Bool) :
    let rptr := q.rptr + BitVec.ofNat 64 (64 * p.len)
    (s.issuePacket t p launch done).qcp? t = some { q with
      state := .fetch, rptr := rptr, expect := some (p.seq + 1), entered := false, lastIss := s.core + 1
      seen := if q.seen.toNat < rptr.toNat then rptr else q.seen
      lastArr := if q.seen.toNat < rptr.toNat then s.cycle else q.lastArr
      packets := if p.type = 7 then q.packets else q.packets ++ [p.issued (q.at_ q.rptr) launch done] } := by
  unfold State.issuePacket
  simp only [hq]
  exact (congrArg (aget · t) (partPut_written _ ..).threads).trans (modQ_qcp?_self hq _)

/-- The word of a WAIT that can be read: the packet issues where it is reached, and blocks its queue where it is not (R322). -/
theorem tryWait_read {u : State} {t : Nat} {q : Qcp} {p : Pkt} {l : Leaf}
    (hleaf : u.partLeaf q.ctx (.queue t) (p.at_ 0x18 8) false 8 = .ok l)
    (hwait : u.partWait q.ctx (.queue t) [(p.at_ 0x18 8, 8, false)] = none) :
    u.tryWait t q p =
      if seqReached 64 (u.partNat q.ctx (.queue t) (p.at_ 0x18 8) 8) (p.at_ 0x20 8) = true then u.issuePacket t p none true
      else u.modQ t fun q => { q with state := .blocked } := by
  unfold State.tryWait
  simp only [hleaf, hwait]

section
variable {s u : State} {t type : Nat} {q : Qcp} {p : Pkt}

/-- A packet whose ADDR has no page faults its queue (R318). -/
theorem addrPacket_fault {code : Nat} {need : Need} (f : State → State)
    (hreach : u.reach q.ctx (.queue t) (p.at_ 0x18 8) need 8 = .fault code) :
    u.addrPacket t q p need f = u.faultQueue t code 0x0109 p.seq (q.at_ q.rptr) (p.at_ 0x18 8) := by
  unfold State.addrPacket
  simp only [hreach]

/-- One whose ADDR does not fault goes on after the history is emptied (R328, R339). -/
theorem addrPacket_goes {need : Need} (h : Goes s t type q p u) (f : State → State)
    (hreach : ∀ code, s.considered.reach q.ctx (.queue t) (p.at_ 0x18 8) need 8 ≠ .fault code) :
    s.considered.addrPacket t q p need f = f u := by
  unfold State.addrPacket
  dsimp only
  split
  · rename_i code hfault
    exact absurd hfault (hreach code)
  · exact plainPacket_goes h f

theorem execWait_fault {code : Nat} (h : Arrived s t 2 q p)
    (hreach : s.considered.reach q.ctx (.queue t) (p.at_ 0x18 8) .r 8 = .fault code) :
    execWait t s = .next (s.considered.faultQueue t code 0x0109 p.seq (q.at_ q.rptr) (p.at_ 0x18 8)) :=
  (onPacket_arrived h _).trans (congrArg _ (addrPacket_fault _ hreach))

theorem execWait_goes {l : Leaf} (h : Goes s t 2 q p u)
    (hreach : ∀ code, s.considered.reach q.ctx (.queue t) (p.at_ 0x18 8) .r 8 ≠ .fault code)
    (hleaf : u.partLeaf q.ctx (.queue t) (p.at_ 0x18 8) false 8 = .ok l)
    (hwait : u.partWait q.ctx (.queue t) [(p.at_ 0x18 8, 8, false)] = none) : execWait t s = .next (
      if seqReached 64 (u.partNat q.ctx (.queue t) (p.at_ 0x18 8) 8) (p.at_ 0x20 8) = true then u.issuePacket t p none true
      else u.modQ t fun q => { q with state := .blocked }) :=
  (onPacket_arrived h.1 _).trans (congrArg _ ((addrPacket_goes h _ hreach).trans (tryWait_read hleaf hwait)))

theorem execQueueWaitSatisfied_reached {l : Leaf} (h : Arrived s t 2 q p) (hstate : q.state = .blocked)
    (hleaf : s.considered.partLeaf q.ctx (.queue t) (p.at_ 0x18 8) false 8 = .ok l)
    (hwait : s.considered.partWait q.ctx (.queue t) [(p.at_ 0x18 8, 8, false)] = none)
    (hword : seqReached 64 (s.considered.partNat q.ctx (.queue t) (p.at_ 0x18 8) 8) (p.at_ 0x20 8) = true) :
    execQueueWaitSatisfied t s = .next (s.considered.issuePacket t p none true) := by
  unfold execQueueWaitSatisfied
  rw [onPacket_arrived h, if_pos (beq_iff_eq.mpr hstate), tryWait_read hleaf hwait, if_pos hword]

section
variable {l : Leaf} (h : Goes s t 3 q p u)
  (hreach : ∀ code, s.considered.reach q.ctx (.queue t) (p.at_ 0x18 8) .rw 8 ≠ .fault code)
  (hleaf : u.reach q.ctx (.queue t) (p.at_ 0x18 8) .rw 8 = .ok l)
include h hreach hleaf

/-- A SIGNAL all of whose earlier packets are done updates its word (R322). -/
theorem execSignal_quiet (hquiet : q.packets.all Packet.done = true)
    (hwait : u.partWait q.ctx (.queue t) [(p.at_ 0x18 8, 8, true)] = none) : execSignal t s = .next
      ((u.partStore q.ctx l (leBytes 8 (signalOp (p.at_ 0x28 1) (leNat (u.leafBytes { ctx := q.ctx } l 8))
        (p.at_ 0x20 8)))).issuePacket t p none true) := by
  have hquiet' : q.quiet = true := hquiet
  unfold execSignal
  rw [onPacket_arrived h.1, addrPacket_goes h _ hreach]
  simp only [hleaf, hquiet', hwait, Bool.not_true, Bool.false_eq_true, if_false]

theorem execSignal_blocks (hbusy : q.packets.all Packet.done = false) :
    execSignal t s = .next (u.modQ t fun q => { q with state := .blocked }) := by
  have hbusy' : q.quiet = false := hbusy
  unfold execSignal
  rw [onPacket_arrived h.1, addrPacket_goes h _ hreach]
  simp only [hleaf, hbusy', Bool.not_false, if_true]

end

/-- The job of a COPY packet, which no chain of a ring holds (R323). -/
def copyJob (t : Nat) (q : Qcp) (p : Pkt) : Chain :=
  { ctx := q.ctx, ccb := BitVec.ofNat 64 (q.at_ q.rptr), engine := p.at_ 0x30 1 / 8 % 4, die := p.at_ 0x30 1 % 8, core := 0
    queue := [], bound := none, job := none, stop := none
    packet := some { thread := t, seq := p.seq, card := copyCard (p.at_ 0x18 8) (p.at_ 0x20 8) (p.at_ 0x28 8) }
    origin := [], posts := [] }

theorem spans_copy (htype : p.type = 4) : p.spans =
    [{ base := p.at_ 0x18 8, len := p.at_ 0x28 8, mode := 1 }, { base := p.at_ 0x20 8, len := p.at_ 0x28 8, mode := 2 }] := by
  unfold Pkt.spans
  simp only [htype]

theorem Arrived.type_eq (h : Arrived s t type q p) : p.type = type := by
  obtain ⟨-, -, htype, -⟩ := h
  exact htype

/-- A COPY free of hazards becomes a job of its engine (R323, R325). -/
theorem execCopy_clear {v : State} (h : Goes s t 4 q p u) (henter : u.enterTable t q p.seq p.spans = .clear v) :
    execCopy t s = .next
      (({ v with fresh := v.fresh + 1, chains := aset v.chains v.fresh (copyJob t q p) }).issuePacket t p none false) := by
  unfold execCopy
  rw [onPacket_arrived h.1, plainPacket_goes h]
  simp only [henter]
  rfl

theorem execBarrier_goes (h : Goes s t 5 q p u) : execBarrier t s = .next (
    if q.packets.all Packet.done = true then u.issuePacket t p none true else u.modQ t fun q => { q with state := .blocked }) := by
  unfold execBarrier
  rw [onPacket_arrived h.1, plainPacket_goes h]
  rfl

theorem execNopad_arrived (h : Arrived s t 7 q p) : execNopad t s = .next (s.considered.issuePacket t p none true) :=
  onPacket_arrived h _

/-! ### LOOPCTL -/

/-- A LOOPCTL event acts on a packet of its operation (R323). -/
theorem onLoopctl_arrived {op : Nat} (h : Arrived s t 6 q p) (hop : p.at_ 0x18 1 = op) (f : State → Qcp → Pkt → State) :
    onLoopctl t op s f = .next (f s.considered q p) :=
  (onPacket_arrived h _).trans (congrArg _ (if_pos hop))

/-- SETDEPTH sets the depth, and lifts a bar that a depth of 0 had set (R323, R330). -/
theorem execLoopctlSetdepth_arrived (h : Arrived s t 6 q p) (hop : p.at_ 0x18 1 = 0) :
    let lift := q.pstate = .barred ∧ q.reason = 4 ∧ p.at_ 0x19 1 ≠ 0
    execLoopctlSetdepth t s = .next ((s.considered.setQ t { q with
      cdepth := p.at_ 0x19 1, pgen := q.pgen + 1, pstate := if lift then .active else q.pstate
      reason := if lift then 0 else q.reason }).issuePacket t p none true) := by
  have hlift : (q.pstate == .barred && decide (q.reason = 4) && p.at_ 0x19 1 != 0) = true ↔
      q.pstate = .barred ∧ q.reason = 4 ∧ p.at_ 0x19 1 ≠ 0 := by
    simp only [Bool.and_eq_true, beq_iff_eq, decide_eq_true_eq, bne_iff_ne, and_assoc]
  have hq : s.considered.qcp? t = some q := h.1
  refine (onLoopctl_arrived h hop _).trans ?_
  simp only [modQ_eq_setQ hq, hlift]

/-- DROP of a queue without a program issues at once (R328). -/
theorem execLoopctlDrop_plain (h : Arrived s t 6 q p) (hop : p.at_ 0x18 1 = 1) (hprog : q.program = none)
    (hopen : q.discarding = false) : execLoopctlDrop t s =
      .next ((s.considered.setQ t { q with history := [], reason := 0 }).issuePacket t p none true) := by
  have hq : s.considered.qcp? t = some q := h.1
  refine (onLoopctl_arrived h hop _).trans ?_
  simp [hprog, modQ_eq_setQ hq, hopen]

/-- DROP of a program with predictions in flight refutes them, and the program is PAUSED (R328, R339). -/
theorem execLoopctlDrop_refutes (h : Arrived s t 6 q p) (hop : p.at_ 0x18 1 = 1) (hprog : q.program ≠ none)
    (hflight : q.preds.drop q.firstOpen ≠ []) :
    execLoopctlDrop t s = .next ((s.considered.refute t .paused).modQ t fun q => { q with history := [], reason := 0 }) := by
  have hq : s.considered.qcp? t = some q := h.1
  obtain ⟨g, hg⟩ := refute_thread hq .paused
  have hrefutes : (q.program.isSome && (q.pstate != .paused || !(q.preds.drop q.firstOpen).isEmpty)) = true := by
    simp [Option.isSome_iff_ne_none.mpr hprog, hflight]
  refine (onLoopctl_arrived h hop _).trans ?_
  simp only [hrefutes, if_true, modQ_qcp?_self hg]
  simp [hflight]

/-- What such a DROP leaves: no version of a refuted prediction, and a thread that is PAUSED at its place in the ring (R339). -/
theorem drop_refuted (hq : s.qcp? t = some q) (hflight : q.preds.drop q.firstOpen ≠ []) :
    let u := (s.refute t .paused).modQ t fun q => { q with history := [], reason := 0 }
    ∃ r, u.qcp? t = some r ∧ u.mem = s.mem ∧ r.pstate = .paused ∧ r.discarding = true ∧ r.preds = q.preds.take q.firstOpen ∧
      r.history = [] ∧ r.rptr = q.rptr ∧ ∀ v ∈ u.versions, v.thread = t → ∀ x ∈ q.preds.drop q.firstOpen, v.slot ≠ x.slot := by
  obtain ⟨g, hg⟩ := refute_thread hq .paused
  refine ⟨_, modQ_qcp?_self hg _, refute_mem s t .paused, rfl, ?_, rfl, rfl, rfl, fun v hv ht x hx hslot => ?_⟩
  · simp [hflight]
  · rw [State.modQ_versions, refute_versions hq, List.mem_filter] at hv
    have hgone : ((q.preds.drop q.firstOpen).map Prediction.slot).contains v.slot = true :=
      List.contains_iff_mem.mpr (List.mem_map.mpr ⟨x, hx, hslot.symm⟩)
    simp only [ht, hgone, beq_self_eq_true, Bool.and_self, Bool.not_true, Bool.false_eq_true, and_false] at hv

theorem execLoopctlForget_goes (h : Goes s t 6 q p u) (hop : p.at_ 0x18 1 = 2) :
    execLoopctlForget t s = .next (u.issuePacket t p none true) :=
  (onLoopctl_arrived h.1 hop _).trans (congrArg _ (plainPacket_goes h _))

/-! ### LAUNCH -/

section
variable {k : Kernel} {args : List Byte} {r : LaunchRec} (h : Arrived s t 1 q p)
  (hcheck : s.considered.checkLaunch t q p = .ok k args) (hr : LaunchRec.ofPkt p args = r)
include h hcheck hr

/-- A LAUNCH that is the first prediction not confirmed confirms it (R338). -/
theorem execLaunch_confirms {pr : Prediction} (hpr : q.preds[q.firstOpen]? = some pr) (hrcd : pr.rcd = r) :
    execLaunch t s = .next (s.considered.confirm t k p pr) := by
  unfold execLaunch
  rw [onPacket_arrived h]
  simp [hcheck, hr, Qcp.awaited, hpr, hrcd]

/-- One that the program awaits, or that meets no program, issues plainly (R330). -/
theorem execLaunch_plain (hpreds : q.preds[q.firstOpen]? = none) (hnext : ∀ g, q.program = some g → g.next = r) :
    execLaunch t s = .next (s.considered.issuePlain t q k p r) := by
  have hawaits : q.awaited.all (· == r) = true := by
    cases hprog : q.program with
    | none => simp [Qcp.awaited, hpreds, hprog]
    | some g => simp [Qcp.awaited, hpreds, hprog, hnext g hprog]
  unfold execLaunch
  rw [onPacket_arrived h]
  simp only [hcheck, hr, hawaits, if_true, hpreds]

/-- One that is not the launch awaited gives up the program, and issues plainly (R330, R339). -/
theorem execLaunch_differs {w : LaunchRec} {v : Qcp} (hw : q.awaited = some w) (hne : w ≠ r)
    (hv : (s.considered.unlearn t []).qcp? t = some v) (hdone : v.discarding = false) :
    execLaunch t s = .next ((s.considered.unlearn t []).issuePlain t v k p r) := by
  unfold execLaunch
  rw [onPacket_arrived h]
  simp [hcheck, hr, hw, hne, hv, hdone]

end

end

/-- Learning from a launch changes the threads alone (R328 to R330). -/
theorem learn_threads (s : State) (t : Nat) (k : Kernel) (r : LaunchRec) : ∃ ts, s.learn t k r = { s with threads := ts } := by
  unfold State.learn
  dsimp only
  split
  · exact ⟨s.threads, rfl⟩
  · split
    · exact ⟨_, rfl⟩
    · split
      · exact ⟨_, rfl⟩
      · split <;> exact ⟨_, rfl⟩

theorem learn_fresh (s : State) (t : Nat) (k : Kernel) (r : LaunchRec) : (s.learn t k r).fresh = s.fresh := by
  obtain ⟨ts, h⟩ := learn_threads s t k r
  rw [h]

theorem learn_launches (s : State) (t : Nat) (k : Kernel) (r : LaunchRec) : (s.learn t k r).launches = s.launches := by
  obtain ⟨ts, h⟩ := learn_threads s t k r
  rw [h]

/-- The launch that a plain issue passes to the dispatcher (R37, R321). -/
def LaunchRec.plain (r : LaunchRec) (t : Nat) (q : Qcp) (k : Kernel) : Launch :=
  { ctx := q.ctx, qid := q.qid, thread := t, seq := r.seq, kern := k, nx := r.gx, ny := r.gy, nz := r.gz, seed := r.seed
    args := r.words.flatMap fun w => leBytes 8 w.toNat
    slot := 0, next := 0, ended := 0, waiting := [], phase := 0 }

/-- A LAUNCH that is in the table and free of hazards adds one launch to the dispatcher's. -/
theorem issuePlain_clear {u v : State} {t : Nat} {q : Qcp} {p : Pkt} {r : LaunchRec} (k : Kernel)
    (henter : u.enterTable t q p.seq r.ranges = .clear v) :
    (u.issuePlain t q k p r).fresh = v.fresh + 1 ∧
    (u.issuePlain t q k p r).launches = aset v.launches v.fresh (r.plain t q k) := by
  unfold State.issuePlain
  simp only [henter, issuePacket_fresh, issuePacket_launches, State.newLaunch, learn_fresh, learn_launches, State.modQ_fresh,
    State.modQ_launches, true_and]
  rfl

/-! ### Completion -/

section
variable {s : State} {t : Nat} {q : Qcp} {seq : DWord} {p : Packet} (hq : s.qcp? t = some q)
  (hp : (q.packets.find? fun p => p.seq == seq) = some p) (hkept : p.abandoned = false) (hwork : s.workDone p = true)

/-- The state in which a packet's work has ended (R327). -/
def State.workEnded (s : State) (t : Nat) (seq : DWord) (p : Packet) : State :=
  if p.launch = none ∧ p.done = true then s.release t seq else s.completeWork t p

/-- A completed packet's vector is sent where it asks for it (R327). -/
def Packet.sent (p : Packet) (u : State) : State := if p.irq = true then u.interrupt p.vec else u

theorem workEnded_eq (s : State) (t : Nat) (seq : DWord) (p : Packet) :
    (if (p.done && p.launch.isNone) = true then s.release t seq else s.completeWork t p) = s.workEnded t seq p := by
  unfold State.workEnded
  simp only [Bool.and_eq_true, Option.isNone_iff_eq_none, and_comm]

include hq hp hkept hwork

theorem execPacketCompletion_silent (hcw : p.cw = false) :
    execPacketCompletion t seq s = .next (p.sent ((s.workEnded t seq p).dropPacket t seq)) := by
  unfold execPacketCompletion
  simp only [hq, hp, hkept, hwork, hcw, workEnded_eq, Bool.not_true, Bool.not_false, Bool.false_eq_true, if_false, if_true]
  rfl

/-- The completion word is written once no earlier packet has one to write (R327). -/
theorem execPacketCompletion_writes {l : Leaf} (hcw : p.cw = true)
    (horder : ∀ x ∈ q.packets.takeWhile (fun x => x.seq != seq), x.cw = true → x.abandoned = true)
    (hleaf : (s.workEnded t seq p).partLeaf q.ctx (.queue t) p.cword.toNat true 8 = .ok l)
    (hwait : (s.workEnded t seq p).partWait q.ctx (.queue t) [(p.cword.toNat, 8, true)] = none) :
    execPacketCompletion t seq s = .next (p.sent
      (((s.workEnded t seq p).partPut q.ctx (.queue t) p.cword.toNat 8 seq.toNat).dropPacket t seq)) := by
  have hfirst : ((q.packets.takeWhile fun x => x.seq != seq).any fun x => x.cw && !x.abandoned) = false := by
    simpa only [List.any_eq_false, Bool.and_eq_true, Bool.not_eq_true', not_and, Bool.not_eq_false] using horder
  unfold execPacketCompletion
  simp only [hq, hp, hkept, hwork, hcw, workEnded_eq, hfirst, hleaf, hwait, Bool.not_true, Bool.false_eq_true, if_false]
  rfl

end

/-! ### Predictions -/

/-- The prediction that a program's next launch becomes (R334). -/
def Qcp.prediction (s : State) (t : Nat) (q : Qcp) (r : LaunchRec) : Prediction :=
  { rcd := r, slot := q.nextSlot, launch := s.fresh, units := unitsOf r.ranges, confirmed := false
    waived := waivedOf s.table (intervalsOf q.ctx t r.seq q.nextSlot (s.entered + 1) r.ranges), started := s.cycle }

/-- A prediction starts where R334 lets it, with a kernel that can be run ahead (R334, R343). -/
theorem execPredictionStart_starts {s : State} {t : Nat} {q : Qcp} {g : Program} {r : LaunchRec} {b : List Byte} {k : Kernel}
    (hq : s.qcp? t = some q) (hprog : q.program = some g) (hr : g.next = r) (hk : Kernel.ofBytes r.desc.toNat b = k)
    (hmay : s.predictable t q r = true) (hread : s.pieces q.ctx (.queue t) r.desc.toNat 32 = .ok b)
    (hwait : s.piecesWait q.ctx (.queue t) r.desc.toNat 32 = none) (hkernel : kernelOk b k = true)
    (hgrid : gridOk k r.gx r.gy r.gz = true) (hsafe : k.rasafe = true) (hargs : 8 * r.words.length = k.argsize)
    (hrect : s.rectExists k = true) : execPredictionStart t s = .next (
      { s.newLaunch t q k r q.nextSlot with
        table := s.table ++ intervalsOf q.ctx t r.seq q.nextSlot (s.entered + 1) r.ranges, entered := s.entered + 1 }.setQ t { q with
        preds := q.preds ++ [q.prediction s t r], nextSlot := q.nextSlot % 8 + 1, pgen := q.pgen + 1
        program := some { g with cur := r } }) := by
  unfold execPredictionStart
  simp only [hq, hprog, hr, hk, hmay, hread, hwait, hkernel, hgrid, hsafe, hargs, hrect, Bool.not_true, bne_self_eq_false,
    Bool.or_self, Bool.false_eq_true, if_false]
  exact congrArg _ (modQ_eq_setQ (s := { s.newLaunch t q k r q.nextSlot with
    table := s.table ++ intervalsOf q.ctx t r.seq q.nextSlot (s.entered + 1) r.ranges, entered := s.entered + 1 }) hq _)

/-- What is absorbed changes the windows alone (R234). -/
theorem absorb_eq (s : State) (pas : List Nat) : s.absorb pas = { s with lgfs := (s.absorb pas).lgfs } := by
  unfold State.absorb State.absorbAs
  split <;> rfl

/-- A team in the part's list, relabelled where it is of a launch (R338). -/
def relabelEntry (n : Nat) (x : Nat × Team) : Nat × Team := if x.2.launch == n then (x.1, x.2.relabelled) else x

theorem relabelEntry_slot {n : Nat} {x : Nat × Team} (h : (relabelEntry n x).2.launch = n) : (relabelEntry n x).2.slot = 0 := by
  unfold relabelEntry at h ⊢
  by_cases hx : x.2.launch = n
  · rw [if_pos (beq_iff_eq.mpr hx)]
    rfl
  · rw [if_neg (mt beq_iff_eq.mp hx)] at h
    exact absurd h hx

/-- The versions of a slot, and the bytes that they hold (R377). -/
def State.versionsOf (s : State) (t slot : Nat) : List Version := s.versions.filter fun v => v.thread == t && v.slot == slot
def State.versionBytes (s : State) (t slot : Nat) : List (Nat × Byte) :=
  (s.versionsOf t slot).flatMap fun v => v.bytes.map fun b => (128 * v.line + b.1, b.2)

/-- A slot's versions written through to memory, where regions, windows and caches meet them (R234, R338, R378). -/
def State.writeThrough (s : State) (t slot : Nat) : State :=
  let bytes := s.versionBytes t slot
  let w := { s with mem := memWrite s.mem bytes }
  let v := if s.teams.any fun x => x.2.inRegion then w.conflictAmong (fun x => !s.seesSlot t slot x) (linesOf bytes) else w
  (v.absorb (bytes.map Prod.fst)).atHomes ((s.versionsOf t slot).map Version.line)

theorem writeThrough_eq (s : State) (t slot : Nat) : ∃ ts gs c, s.writeThrough t slot =
    { s with mem := memWrite s.mem (s.versionBytes t slot), teams := ts, lgfs := gs, coh := c } := by
  unfold State.writeThrough
  dsimp only
  rw [absorb_eq]
  split <;> exact ⟨_, _, _, rfl⟩

/-- RELABEL commits the versions of a confirmed launch, whose teams work in slot 0 from then on (R338, R377). -/
theorem execRelabel_commits {s : State} {t : Nat} {q : Qcp} {p : Prediction} (hq : s.qcp? t = some q)
    (hp : (q.preds.find? fun p => p.confirmed &&
      !p.waived.any fun n => q.packets.any fun x => x.seq == n && !x.done && !x.abandoned) = some p) :
    ∃ u r, execRelabel t s = .next u ∧ u.qcp? t = some r ∧ r.preds = q.preds.filter (fun x => x.slot != p.slot) ∧
      u.versions = s.versions.filter (fun v => !(v.thread == t && v.slot == p.slot)) ∧
      u.mem = memWrite s.mem (s.versionBytes t p.slot) ∧ ∀ x ∈ u.teams, x.2.launch = p.launch → x.2.slot = 0 := by
  obtain ⟨ts, gs, c, hthrough⟩ := writeThrough_eq s t p.slot
  have hexec : execRelabel t s = .next (({ s.writeThrough t p.slot with
      versions := (s.writeThrough t p.slot).versions.filter fun v => !(v.thread == t && v.slot == p.slot)
      launches := amod (s.writeThrough t p.slot).launches p.launch fun l => { l with slot := 0 }
      teams := (s.writeThrough t p.slot).teams.map (relabelEntry p.launch)
      table := (s.writeThrough t p.slot).table.map fun (i : Interval) =>
        if i.thread == t && i.slot == p.slot then { i with slot := 0 } else i }).modQ t fun q =>
        { q with preds := q.preds.filter fun x => x.slot != p.slot }) := by
    unfold execRelabel
    simp only [hq, hp]
    rfl
  rw [hthrough] at hexec
  refine ⟨_, _, hexec, modQ_qcp?_self hq _, rfl, rfl, rfl, fun x hx hl => ?_⟩
  obtain ⟨y, -, rfl⟩ := List.mem_map.mp hx
  exact relabelEntry_slot hl

/-- Settles O48: each clause is the rule above for its event. -/
theorem queueEvents : Obligations.QueueEvents := by
  refine ⟨?map, fun s t q hq => ⟨?doorbell, ?reread, ?start, ?forgot, ?draining, ?discard, ?idle, ?issue, ?waitFault, ?wait,
    ?waited, ?signal, ?copy, ?barrier, ?nopad, ?setdepth, ?drop, ?forget, ?launch, ?completion, ?prediction, ?relabel⟩⟩
  case map =>
    intro s t value ht q m c dva base b at_
    exact ⟨execQueueMap_clear ht, fun hen hstate hserv hctx l hleaf hwait hdesc hqid =>
      execQueueMap_set ht hen rfl rfl rfl rfl rfl rfl hstate hserv hctx hleaf hwait hdesc hqid⟩
  case doorbell => exact execDoorbell_eq hq
  case reread => exact execPacketReread_due hq
  case start => exact fun hopen => ⟨execStart_stopped hq hopen, execStart_faulted hq hopen⟩
  case forgot => exact
    ⟨execStop_forgot hq, fun hmapped hdrain => ⟨_, rfl, unmap_forgot hq hmapped hdrain⟩, _, rfl, unlearn_forgot hq⟩
  case draining => exact execDrainingEnd_drained hq
  case discard => exact execDiscardDone_eq hq
  case idle => exact fun p => execIdleTimeout_due hq
  case issue => exact issuePacket_qcp? hq
  case waitFault => exact fun p code => execWait_fault
  case wait => exact fun p u h hreach l hleaf hwait => execWait_goes h hreach hleaf hwait
  case waited => exact fun p h hstate l hleaf hwait hword => execQueueWaitSatisfied_reached h hstate hleaf hwait hword
  case signal => exact fun p u l h hreach hleaf => ⟨execSignal_quiet h hreach hleaf, execSignal_blocks h hreach hleaf⟩
  case copy =>
    intro p u v h src dst len job henter
    exact execCopy_clear h (spans_copy h.1.type_eq ▸ henter)
  case barrier => exact fun p u => execBarrier_goes
  case nopad => exact fun p => execNopad_arrived
  case setdepth => exact fun p => execLoopctlSetdepth_arrived
  case drop =>
    intro p h hop
    refine ⟨execLoopctlDrop_plain h hop, fun hprog hflight => ?_⟩
    obtain ⟨r, hr⟩ := drop_refuted (s := s.considered) hq hflight
    exact ⟨_, r, execLoopctlDrop_refutes h hop hprog hflight, hr⟩
  case forget => exact fun p u => execLoopctlForget_goes
  case launch =>
    intro p k args h u hcheck r
    refine ⟨fun pr => execLaunch_confirms h hcheck rfl, execLaunch_plain h hcheck rfl, fun w v => execLaunch_differs h hcheck rfl,
      fun v _ henter => ?_⟩
    obtain ⟨hfresh, hlaunches⟩ := issuePlain_clear k henter
    exact ⟨_, rfl, hfresh, r.plain t q k, hlaunches ▸ aget_aset_same .., rfl, rfl, rfl, rfl, rfl, rfl, rfl, rfl, rfl⟩
  case completion =>
    intro seq p hp hkept hwork u sent
    exact ⟨execPacketCompletion_silent hq hp hkept hwork, fun l => execPacketCompletion_writes hq hp hkept hwork⟩
  case prediction =>
    intro g b hprog r k hmay hread hwait hkernel hgrid hsafe hargs hrect is u pr
    exact execPredictionStart_starts hq hprog rfl rfl hmay hread hwait hkernel hgrid hsafe hargs hrect
  case relabel => exact fun p => execRelabel_commits hq

end Sys2Proof.Machine

/-! SUPPORT. Translations through ATS (R344, R352, R353): which request goes out again, and what a completion, a page response and an
invalidation make of a context. -/

namespace Sys2Proof.Machine

open Sys2Proof

/-! ### Requests that go out again -/

/-- With every request sent, none goes out (R344). -/
theorem sendAgain_none {s : State} (h : ∀ p ∈ s.ctxs, ∀ q ∈ p.2.reqs, q.sent = true) : s.sendAgain = s := by
  have hnone : (s.ctxs.findSome? fun p => (p.2.reqs.findIdx? fun q => !q.sent).map fun k => (p.1, k)) = none := by
    refine List.findSome?_eq_none_iff.mpr fun p hp => Option.map_eq_none_iff.mpr (List.findIdx?_eq_none_iff.mpr fun q hq => ?_)
    rw [h p hp q hq]
    rfl
  unfold State.sendAgain
  rw [hnone]

/-- Nor does one while 1,024 are outstanding (R344). -/
theorem sendAgain_full {s : State} (h : 1024 ≤ s.outstanding false) : s.sendAgain = s := by
  unfold State.sendAgain
  split
  · exact if_pos h
  · rfl

/-- The first request that has not gone out goes out, its page being asked for (R344). -/
theorem sendAgain_first {s : State} {c : Nat} {x : Ctx} {k : Nat} {q : PageReq} (hroom : s.outstanding false < 1024)
    (hctxs : s.ctxs = [(c, x)]) (hq : x.reqs[k]? = some q) (hsent : q.sent = false) (hfirst : ∀ p ∈ x.reqs.take k, p.sent = true) :
    s.sendAgain = ({ s with ctxs := [(c, { x with reqs := modAt x.reqs k fun q => { q with sent := true } })] }).emit
      (.ats c q.page) := by
  obtain ⟨hk, hqk⟩ := List.getElem?_eq_some_iff.mp hq
  have hidx : (x.reqs.findIdx? fun q => !q.sent) = some k := by
    refine List.findIdx?_eq_some_iff_getElem.mpr ⟨hk, by rw [hqk, hsent]; rfl, fun j hj => ?_⟩
    have := hfirst x.reqs[j] (List.mem_take_iff_getElem.mpr ⟨j, by omega, rfl⟩)
    rw [this]
    decide
  have hctx : aget s.ctxs c = some x := by rw [hctxs]; exact if_pos rfl
  have hset : ∀ f : Ctx → Ctx, amod s.ctxs c f = [(c, f x)] := fun f => by
    rw [amod_some hctx, hctxs]
    simp [aset]
  unfold State.sendAgain
  simp only [hctxs, List.findSome?_cons, hidx, Option.map_some, State.ctx?, aget, if_true, Option.bind_some, hq, Option.getD_some]
  rw [if_neg (Nat.not_le.mpr hroom)]
  exact congrArg (fun m => State.emit { s with ctxs := m } (.ats c q.page)) (hset _)

/-! ### Answers of the host -/

/-- Where no waiter fails, nothing is denied. -/
theorem modCtx_deny_nil (s : State) (c page code : Nat) (f : Ctx → Ctx) : (s.modCtx c f).deny c page code [] = s.modCtx c f := by
  have hf : (fun x : Ctx => { x with denied := x.denied ++ [] }) ∘ f = f := funext fun x => by
    simp only [Function.comp, List.append_nil]
  exact congrArg (fun m => { s with ctxs := m }) ((amod_amod s.ctxs c f _).trans (congrArg _ hf))

section
variable {s : State} {c page : Nat} {x : Ctx} (hx : s.ctx? c = some x)
include hx

/-- A translation that serves every waiter is cached in place of its request (R352). -/
theorem execAtsTranslationCompletion_serves {host k : Nat} {r w : Bool} {q : PageReq}
    (hk : x.reqs.findIdx? (fun q => !q.pri && q.page == page && q.sent) = some k) (hq : x.reqs[k]? = some q)
    (hserves : ∀ a ∈ q.waiters, (if a.2 then w else r) = true) :
    execAtsTranslationCompletion c page host r w s =
      .next (s.modCtx c fun x => { x with reqs := dropAt x.reqs k, ats := cacheAts x.ats page host r w }).sendAgain := by
  have hlacking : (q.waiters.filter fun a => if a.2 then !w else !r) = [] :=
    List.filter_eq_nil_iff.mpr fun a ha => by
      have := hserves a ha
      cases h : a.2 <;> simp_all
  unfold execAtsTranslationCompletion
  simp only [hx, hk, List.getD_eq_getElem?_getD, hq, Option.getD_some, hlacking, modCtx_deny_nil, List.foldl_nil, ite_self]

/-- A page response answers its request: after a success the translation is asked for again, after a failure its waiters fail
(R352). -/
theorem execPriResponse_answers {k : Nat} {write : Bool} {q : PageReq} (success : Bool)
    (hk : x.reqs.findIdx? (fun q => q.pri && q.page == page && q.write == write) = some k) (hq : x.reqs[k]? = some q) :
    let u := s.modCtx c fun x => { x with reqs := dropAt x.reqs k }
    execPriResponse c page write success s = .next (if success then (u.modCtx c fun x => { x with reqs := x.reqs ++
        [{ page := page, write := false, pri := false, again := true, waiters := q.waiters, sent := false }] }).sendAgain
      else u.deny c page fltNotPresent q.waiters) := by
  unfold execPriResponse
  simp only [hx, hk, List.getD_eq_getElem?_getD, hq, Option.getD_some]

/-- An invalidation completes once no access uses its page (R353). -/
theorem execInvalidationComplete_unused (hpage : page ∈ x.inval) (hfree : s.pageInUse c page = false) :
    execInvalidationComplete c page s =
      .next ((s.modCtx c fun x => { x with inval := x.inval.filter (· != page) }).emit (.invalDone c page)) := by
  unfold execInvalidationComplete
  simp only [hx, List.contains_iff_mem.mpr hpage, hfree, Bool.not_true, Bool.or_self, Bool.false_eq_true, if_false]

end

/-- An invalidation drops the translation at once, where fewer than 32 wait (R344, R353). -/
theorem execAtsInvalidate_drops {s : State} (c page : Nat) (hroom : (s.ctxs.map fun p => p.2.inval.length).sum < 32) :
    execAtsInvalidate c page s = .next (s.modCtx c fun x =>
      { x with ats := x.ats.filter (fun a => a.page != page)
               inval := if x.inval.contains page then x.inval else x.inval ++ [page] }) :=
  congrArg _ (if_neg (Nat.not_le.mpr hroom))

/-- Settles O44: each clause is the rule above for its event. -/
theorem translationEvents : Obligations.TranslationEvents := by
  refine ⟨fun s => sendAgain_none, fun s => sendAgain_full, fun s c x k q => sendAgain_first,
    fun s c x page hx => ⟨?completion, ?response, ?invalidate, ?complete⟩⟩
  case completion => exact fun host r w k q hk hq hserves =>
    (exec_atsTranslationCompletion s c page host r w).trans (execAtsTranslationCompletion_serves hx hk hq hserves)
  case response => exact fun write k q hk hq =>
    ⟨(exec_priResponse s c page write true).trans (execPriResponse_answers hx true hk hq),
      (exec_priResponse s c page write false).trans (execPriResponse_answers hx false hk hq)⟩
  case invalidate => exact fun hroom => (exec_atsInvalidate s c page).trans (execAtsInvalidate_drops c page hroom)
  case complete => exact fun hpage hfree =>
    (exec_invalidationComplete s c page).trans (execInvalidationComplete_unused hx hpage hfree)

end Sys2Proof.Machine

/-! SUPPORT. The Gaffer (R403 to R409): queues, the calls that their records make, lent pages and ports. -/

namespace Sys2Proof.Machine

open Sys2Proof

/-! ### Maps whose entries change with their keys -/

/-- A read of a map whose every entry was changed by its key. -/
theorem aget_mapKeyed {α : Type} (f : Nat → α → α) (m : AMap α) (k : Nat) :
    aget (m.map fun p => (p.1, f p.1 p.2)) k = (aget m k).map (f k) := by
  induction m with
  | nil => rfl
  | cons p m ih =>
    rw [List.map_cons]
    unfold aget
    split
    · next h => rw [h]; rfl
    · exact ih

/-! ### Queues -/

/-- A queue that is off starts to serve, unless its thread is out of service (R403, R412, R414). -/
theorem execServiceQueueEnable_off {s : State} {q : Nat} (hq : q < 64) (hoff : ((aget s.svc q).map SvcQueue.on).getD false = false)
    (hserv : s.outOfService (gafferPath q) = false) :
    execServiceQueueEnable q s =
      .next ({ s with svc := aset s.svc q (SvcQueue.start (((aget s.svc q).map SvcQueue.detail).getD 0)) }.setReg (svcBlock q + 8)
        (s.reg (svcBlock q + 8) 0 ||| 1)) := by
  refine if_neg ?_
  rw [hoff, hserv, decide_eq_false (Nat.not_le.mpr hq)]
  decide

section
variable {s : State} {q : Nat} {x : SvcQueue} (hx : aget s.svc q = some x)
include hx

/-- A queue that there is stands changed after an update. -/
theorem modSvc_eq (f : SvcQueue → SvcQueue) : s.modSvc q f = { s with svc := aset s.svc q (f x) } :=
  congrArg (fun m => { s with svc := m }) (amod_some hx f)

/-- A queue without calls is off at once, one with calls once they have completed (R403, R406). -/
theorem execServiceQueueDisable_idle (hon : x.on = true) (hcalls : x.calls = []) : execServiceQueueDisable q s =
    .next ({ s with svc := aset s.svc q { x with on := false, closing := false, stopped := false } }.setReg (svcBlock q + 8)
      (s.reg (svcBlock q + 8) 0 &&& ~~~1#64)) := by
  unfold execServiceQueueDisable
  simp only [hx, hon, List.isEmpty_iff.mpr hcalls, Bool.not_true, Bool.false_eq_true, if_false, if_true, modSvc_eq hx]

theorem execServiceQueueDisable_busy (hon : x.on = true) (hcalls : x.calls ≠ []) :
    execServiceQueueDisable q s = .next { s with svc := aset s.svc q { x with closing := true } } := by
  unfold execServiceQueueDisable
  simp only [hx, hon, List.isEmpty_eq_false_iff.mpr hcalls, Bool.not_true, Bool.false_eq_true, if_false, modSvc_eq hx]

/-- A context's store to its own queue's notify register moves TAIL on, by no more than the ring holds (R404). -/
theorem execNotify_eq (c : Nat) (v : DWord) : execNotify q c v s = .next (
    if q < 64 ∧ s.svcCtx q = c ∧ x.tail ≤ v.toNat ∧ v.toNat - x.head ≤ 2 ^ bits64 (s.reg (svcBlock q) 0) 0 5 then
      { s with svc := aset s.svc q { x with tail := v.toNat } } else s) := by
  have hmine : c = bits64 (s.reg (0x300000 + 0x100 * q + 8) 0) 32 10 ↔ s.svcCtx q = c := eq_comm
  unfold execNotify State.notify
  simp only [hx, Option.getD_some, Option.all_some, Bool.and_eq_true, decide_eq_true_eq, beq_iff_eq, and_assoc, hmine]
  rfl

/-- The record at HEAD is looked for again 1,024 ticks after the last time (R404). -/
theorem execRecordReread_due (hon : x.on = true) (hgoes : x.stopped = false) (hrecord : x.head < x.tail)
    (hdue : x.lastRead + 1024 ≤ s.cycle) :
    execRecordReread q s = .next { s with svc := aset s.svc q { x with lastRead := s.cycle } } := by
  unfold execRecordReread
  simp only [hx, hon, hgoes, hrecord, hdue, decide_true, Bool.not_false, Bool.and_self, if_true, modSvc_eq hx]

end

/-! ### Calls without a socket -/


section
variable {s : State} {q op : Nat} {r : Rec} (h : Calls s q op r)
include h

/-- SOCKET answers the new socket's id (R406). -/
theorem execSocket_made (hop : op = 1) (hlend : r.lend = false) (hkind : r.arg % 4 ≠ 3) (hlow : r.arg / 4 % 64 = 0)
    (hhigh : r.arg / 2 ^ 11 = 0) : execSocket q s =
      (s.addSock (s.svcCtx q) (r.arg % 4) (r.arg / 256 % 8) []).2.taken q r
        (some (s.addSock (s.svcCtx q) (r.arg % 4) (r.arg / 256 % 8) []).1) := by
  subst hop
  unfold execSocket
  rw [onRecord_calls h]
  simp only [hlend, hlow, hhigh, decide_eq_false hkind, bne_self_eq_false, Bool.or_self, Bool.false_eq_true, if_false]

/-- PORTQ answers whether the port has a link, on how many lanes, and its MTU (R406, R409). -/
theorem execPortq_answers (hop : op = 11) (hlend : r.lend = false) (hport : r.arg ≤ 7) :
    let lanes := (aget s.fleet.ports r.arg).getD 0
    execPortq q s = s.taken q r (some (((if lanes = 0 then 0 else 1) + lanes * 256 +
      bits64 (s.portCfg r.arg) 0 14 * 2 ^ 32 : Nat) : Int)) := by
  subst hop
  unfold execPortq
  rw [onRecord_calls h]
  simp only [hlend, decide_eq_false (Nat.not_lt.mpr hport), gt_iff_lt, Bool.or_self, Bool.false_eq_true, if_false]
  rfl

end

/-! ### Sockets -/

/-- What a queue's call comes to: a wait, or the record taken with its result where that is known (R403). -/
def Called.answer (q : Nat) (r : Rec) : Called → Host.Outcome State Fault Refusal
  | .wait u => .next u
  | .call u result => u.taken q r result

theorem onRecord_answer {s : State} {q op : Nat} {r : Rec} (h : Calls s q op r) (f : Nat → Nat → Rec → Called) :
    onRecord q op s f = (f (s.svcCtx q) (r.seq - 1) r).answer q r := by
  rw [onRecord_calls h]
  rfl

/-- A call on a socket that the context has, of an operation that may lend where it lends (R406). -/
theorem withSock_some {s : State} {c : Nat} {r : Rec} {k : Socket} (hsock : s.sock? c r.sock = some k)
    (hlend : r.lend = true → r.op = 6 ∨ r.op = 7 ∨ r.op = 9 ∨ r.op = 10) (f : Socket → Called) : withSock s c r f = f k := by
  unfold withSock
  rw [if_neg (by simpa [or_iff_not_imp_left] using hlend), hsock]

theorem withSock_none {s : State} {c : Nat} {r : Rec} (hsock : s.sock? c r.sock = none) (hlend : r.lend = false)
    (f : Socket → Called) : withSock s c r f = .call s (some (-2)) := by
  unfold withSock
  rw [hlend, hsock]
  rfl

/-- The operations that name a socket: each with its event (R406). -/
def SocketOp (q : Nat) (e : Nat × Instr) : Prop := e ∈
  [(2, .bind q), (3, .connect q), (4, .listen q), (5, .acceptConn q), (6, .send q), (7, .recv q), (8, .socketClose q),
    (9, .rdwrite q), (10, .rdread q)]

/-- Each of them looks for its socket first. -/
theorem exec_socketOp {s : State} {q : Nat} {r : Rec} {e : Nat × Instr} (he : SocketOp q e) (h : Calls s q e.1 r) :
    ∃ f, exec e.2 s = (withSock s (s.svcCtx q) r f).answer q r := by
  simp only [SocketOp, List.mem_cons, List.not_mem_nil, or_false] at he
  rcases he with rfl | rfl | rfl | rfl | rfl | rfl | rfl | rfl | rfl
  · exact ⟨_, (exec_bind s q).trans (onRecord_answer h _)⟩
  · exact ⟨_, (exec_connect s q).trans (onRecord_answer h _)⟩
  · exact ⟨_, (exec_listen s q).trans (onRecord_answer h _)⟩
  · exact ⟨_, (exec_acceptConn s q).trans (onRecord_answer h _)⟩
  · exact ⟨_, (exec_send s q).trans (onRecord_answer h _)⟩
  · exact ⟨_, (exec_recv s q).trans (onRecord_answer h _)⟩
  · exact ⟨_, (exec_socketClose s q).trans (onRecord_answer h _)⟩
  · exact ⟨_, (exec_rdwrite s q).trans (onRecord_answer h _)⟩
  · exact ⟨_, (exec_rdread s q).trans (onRecord_answer h _)⟩

/-- Without its socket it fails (R406). -/
theorem exec_socketOp_none {s : State} {q : Nat} {r : Rec} {e : Nat × Instr} (he : SocketOp q e) (h : Calls s q e.1 r)
    (hlend : r.lend = false) (hsock : s.sock? (s.svcCtx q) r.sock = none) : exec e.2 s = s.taken q r (some (-2)) := by
  obtain ⟨f, hf⟩ := exec_socketOp he h
  rw [hf, withSock_none hsock hlend]
  rfl

/-- The address record of a call: its bytes can be read, and name an address (R405). -/
structure Addressed (s : State) (c : Nat) (r : Rec) : Prop where
  ready : s.partWait c .part (bufferParts r.buf 32 false) = none
  reached : s.partFail c .part (bufferParts r.buf 32 false) = none
  family : leNat ((s.bufferBytes c r.buf 32).take 2) = 4 ∨ leNat ((s.bufferBytes c r.buf 32).take 2) = 6
  zeros : leNat ((s.bufferBytes c r.buf 32).drop 28) = 0

theorem Addressed.withAddress {s : State} {c : Nat} {r : Rec} (h : Addressed s c r) (f : List Byte → Called) :
    withAddress s c r f = f (s.bufferBytes c r.buf 32) := by
  unfold Machine.withAddress
  rw [withBuffer_ok _ h.ready h.reached]
  refine if_neg ?_
  rcases h.family with hf | hf <;> simp [hf, h.zeros]

section
variable {s : State} {q : Nat} {r : Rec} {k : Socket} (hlend : r.lend = false)
  (hsock : s.sock? (s.svcCtx q) r.sock = some k)
include hlend hsock

/-- A call on a socket that does not lend is what its operation does with the socket. -/
theorem onRecord_withSock {op : Nat} (h : Calls s q op r) (f : Nat → Nat → Rec → Socket → Called) :
    onRecord q op s (fun c num r => withSock s c r (f c num r)) = (f (s.svcCtx q) (r.seq - 1) r k).answer q r := by
  rw [onRecord_answer h, withSock_some hsock fun hl => absurd hl (by rw [hlend]; exact Bool.false_ne_true)]

theorem execBind_bound (h : Calls s q 2 r) (haddr : Addressed s (s.svcCtx q) r) : execBind q s =
    (s.modSock (s.svcCtx q) r.sock fun k => { k with bound := s.bufferBytes (s.svcCtx q) r.buf 32 }).taken q r (some 0) := by
  unfold execBind
  rw [onRecord_withSock hlend hsock h, haddr.withAddress]
  rfl

/-- A datagram socket has its peer at once, a connection waits for the network (R406). -/
theorem execConnect_peer (h : Calls s q 3 r) (haddr : Addressed s (s.svcCtx q) r) : execConnect q s =
    (s.modSock (s.svcCtx q) r.sock fun k => { k with peer := s.bufferBytes (s.svcCtx q) r.buf 32 }).taken q r
      (if k.kind = 1 then some 0 else none) := by
  unfold execConnect
  rw [onRecord_withSock hlend hsock h, haddr.withAddress]
  rfl

theorem execListen_eq (h : Calls s q 4 r) : execListen q s = if 1 ≤ r.arg ∧ r.arg ≤ 1024 then
    (s.modSock (s.svcCtx q) r.sock fun k => { k with backlog := r.arg }).taken q r (some 0) else s.taken q r (some (-1)) := by
  unfold execListen
  rw [onRecord_withSock hlend hsock h]
  by_cases hfits : 1 ≤ r.arg ∧ r.arg ≤ 1024
  · rw [if_pos hfits, if_neg (by simp; omega)]
    rfl
  · rw [if_neg hfits, if_pos (by simp; omega)]
    rfl

theorem execAcceptConn_eq (h : Calls s q 5 r) : execAcceptConn q s = s.taken q r none := by
  unfold execAcceptConn
  rw [onRecord_withSock hlend hsock h]
  rfl

theorem execSocketClose_eq (h : Calls s q 8 r) : execSocketClose q s =
    (s.modSock (s.svcCtx q) r.sock fun k => { k with closed := true }).dropClosed.taken q r (some 0) := by
  unfold execSocketClose
  rw [onRecord_withSock hlend hsock h]
  rfl

end

/-! ### Calls that move a buffer -/

/-- The loan that a call makes of the pages of its buffer (R407). -/
def State.loan (s : State) (q : Nat) (r : Rec) (write : Bool) : Lent :=
  { ctx := s.svcCtx q, spans := ((pagesOf r.buf r.len).map fun p => s.pageSpan (s.svcCtx q) (4096 * p)).eraseDups, queue := q
    num := r.seq - 1, rword := some r.rword, recv := write, finished := false }

section
variable {s : State} {q : Nat} {r : Rec} {write : Bool} (f : State → Called)

/-- A call lends whole pages alone, and none that is lent already (R407). -/
theorem withLoan_parts (hlend : r.lend = true) (hparts : r.buf % 4096 ≠ 0 ∨ r.len % 4096 ≠ 0) :
    withLoan s q (s.svcCtx q) (r.seq - 1) r write f = .call s (some (-1)) := by
  unfold withLoan
  rw [if_neg (by rw [hlend]; exact Bool.false_ne_true), if_pos (by simpa using hparts)]

theorem withLoan_lent (hlend : r.lend = true) (hbuf : r.buf % 4096 = 0) (hlen : r.len % 4096 = 0)
    (hlent : ∃ p ∈ pagesOf r.buf r.len, s.lentPage (s.svcCtx q) p = true) :
    withLoan s q (s.svcCtx q) (r.seq - 1) r write f = .call s (some (-8)) := by
  unfold withLoan
  rw [if_neg (by rw [hlend]; exact Bool.false_ne_true), if_neg (by simp [hbuf, hlen]), if_pos (List.any_eq_true.mpr hlent)]

/-- A call whose buffer need not wait fails where a page of it cannot be reached, and goes on with the pages lent where it lends
(R406, R407). -/
theorem withLoan_ready (hfree : r.lend = true → r.buf % 4096 = 0 ∧ r.len % 4096 = 0 ∧
      (∀ p ∈ pagesOf r.buf r.len, s.lentPage (s.svcCtx q) p = false) ∧ s.translating (s.svcCtx q) = false)
    (hwait : s.partWait (s.svcCtx q) .part (bufferParts r.buf r.len write) = none) :
    withLoan s q (s.svcCtx q) (r.seq - 1) r write f =
      if (s.partFail (s.svcCtx q) .part (bufferParts r.buf r.len write)).isSome then .call s (some (-7))
      else f (if r.lend = true then s.lend (s.loan q r write) else s) := by
  unfold withLoan withBuffer
  simp only [hwait]
  cases hlend : r.lend with
  | false => rfl
  | true =>
    obtain ⟨hbuf, hlen, hlent, htrans⟩ := hfree hlend
    have hnone : (pagesOf r.buf r.len).any (s.lentPage (s.svcCtx q)) = false :=
      List.any_eq_false.mpr fun p hp => by rw [hlent p hp]; exact Bool.false_ne_true
    simp only [hbuf, hlen, hnone, htrans, Bool.not_true, bne_self_eq_false, Bool.or_self, Bool.false_eq_true, if_false, if_true]
    rfl

end

/-- The operations that move a buffer: each with its event, and whether it writes the buffer (R406). -/
def MovingOp (q : Nat) (e : Nat × Instr × Bool) : Prop := e ∈
  [(6, .send q, false), (7, .recv q, true), (9, .rdwrite q, false), (10, .rdread q, true)]

/-- What a call sends over its socket as it is taken, to the remote address of an RDWRITE (R406). -/
def State.moved (s : State) (q op : Nat) (k : Socket) (r : Rec) (recv : Bool) (u : State) : State :=
  if recv = true then u else u.emit (.net q k (if op = 9 then r.arg else 0) (s.bufferBytes (s.svcCtx q) r.buf r.len))

section
variable {s : State} {q : Nat} {r : Rec} {k : Socket} {e : Nat × Instr × Bool} (he : MovingOp q e) (h : Calls s q e.1 r)
  (hsock : s.sock? (s.svcCtx q) r.sock = some k)
include he h hsock

/-- Only a reliable connection carries RDWRITE and RDREAD (R406). -/
theorem exec_movingOp_kind (hop : 8 < e.1) (hkind : k.kind ≠ 2) : exec e.2.1 s = s.taken q r (some (-2)) := by
  have hbad : (k.kind != 2) = true := bne_iff_ne.mpr hkind
  simp only [MovingOp, List.mem_cons, List.not_mem_nil, or_false] at he
  rcases he with rfl | rfl | rfl | rfl
  · exact absurd hop (Nat.not_lt.mpr (Nat.le_add_left 6 2))
  · exact absurd hop (Nat.not_lt.mpr (Nat.le_add_left 7 1))
  · refine (exec_rdwrite s q).trans ((onRecord_answer h _).trans ?_)
    rw [withSock_some hsock fun _ => by simp [h.2], if_pos hbad]
    rfl
  · refine (exec_rdread s q).trans ((onRecord_answer h _).trans ?_)
    rw [withSock_some hsock fun _ => by simp [h.2], if_pos hbad]
    rfl

/-- On a socket of its kind it sends, or asks for, the bytes of its buffer (R406, R407). -/
theorem exec_movingOp (hkind : 8 < e.1 → k.kind = 2) : exec e.2.1 s =
    (withLoan s q (s.svcCtx q) (r.seq - 1) r e.2.2 fun t => .call (s.moved q e.1 k r e.2.2 t) none).answer q r := by
  simp only [MovingOp, List.mem_cons, List.not_mem_nil, or_false] at he
  rcases he with rfl | rfl | rfl | rfl
  · refine (exec_send s q).trans ((onRecord_answer h _).trans ?_)
    rw [withSock_some hsock fun _ => by simp [h.2]]
    rfl
  · refine (exec_recv s q).trans ((onRecord_answer h _).trans ?_)
    rw [withSock_some hsock fun _ => by simp [h.2]]
    rfl
  · refine (exec_rdwrite s q).trans ((onRecord_answer h _).trans ?_)
    rw [withSock_some hsock fun _ => by simp [h.2], hkind (Nat.lt_succ_self 8)]
    rfl
  · refine (exec_rdread s q).trans ((onRecord_answer h _).trans ?_)
    rw [withSock_some hsock fun _ => by simp [h.2], hkind (Nat.lt_add_of_pos_right Nat.two_pos)]
    rfl

end

/-! ### Completion -/

/-- The loan of a call is over with the call (R407). -/
def Lent.ended (d : Lent) (q num : Nat) : Lent := if d.queue = q ∧ d.num = num then { d with finished := true } else d

/-- The oldest call of a queue completes: its result and, where its word can be written, SEQ are written (R406). -/
theorem execCallCompletion_oldest {s : State} {q : Nat} {x : SvcQueue} {k : Call} {rest : List Call} {outcome : Int}
    {data : List Byte} (hx : aget s.svc q = some x) (hcalls : x.calls = k :: rest)
    (hwait : s.partWait (s.svcCtx q) .part
      [(s.recordAt q k.num + 0x38, 8, true), (Rec.cword { b := k.bytes }, 8, true)] = none)
    (hfill : s.fillWait (s.svcCtx q) k outcome data.length = none) :
    let c := s.svcCtx q
    let r : Rec := { b := k.bytes }
    let e := match k.result with | some v => (v, s) | none => s.callEffect c r outcome data
    let t := e.2.modSvc q fun x => { x with calls := rest }
    let u := { t with lent := t.lent.map fun (d : Lent) => d.ended q k.num }.dropClosed.partPut c .part (s.recordAt q k.num + 0x38) 8
      (BitVec.ofInt 64 e.1).toNat
    execCallCompletion q outcome data s = .next (
      if s.wordOk c r.cword true = true then u.partPut c .part r.cword 8 (k.num + 1) else u.stopSvc q k.num) := by
  have hended : (fun d : Lent => if (d.queue == q && d.num == k.num) = true then { d with finished := true } else d) =
      fun d => d.ended q k.num := funext fun d => by
    simp only [Lent.ended, Bool.and_eq_true, beq_iff_eq]
  unfold execCallCompletion
  simp only [hx, hcalls, hwait, hfill, hended]
  rfl

section
variable {s : State} {c : Nat} {r : Rec} {outcome : Int} {data : List Byte}

/-- A negative outcome of the network is the call's result (R406). -/
theorem callEffect_failed (h : outcome < 0) : s.callEffect c r outcome data = (outcome, s) := if_pos h

variable (h : 0 ≤ outcome)
include h

theorem callEffect_send (hop : r.op = 6) : s.callEffect c r outcome data = (min outcome r.len, s) := by
  unfold State.callEffect
  simp [Int.not_lt.mpr h, hop]

theorem callEffect_rdwrite (hop : r.op = 9) : s.callEffect c r outcome data = ((r.len : Int), s) := by
  unfold State.callEffect
  simp [Int.not_lt.mpr h, hop]

/-- Bytes that the buffer no longer takes fail the call (R406, R407). -/
theorem callEffect_untaken (hop : r.op = 7 ∨ r.op = 10) (hfull : s.bufferTakes c r.buf (data.take r.len).length = false) :
    s.callEffect c r outcome data = (-7, s) := by
  unfold State.callEffect
  rw [if_neg (Int.not_lt.mpr h), hfull, if_pos (by simpa using hop)]

theorem callEffect_recv (hop : r.op = 7) (htakes : s.bufferTakes c r.buf (data.take r.len).length = true) :
    s.callEffect c r outcome data = (((data.take r.len).length : Int), s.fillBuffer c r.buf (data.take r.len)) := by
  unfold State.callEffect
  rw [if_neg (Int.not_lt.mpr h), htakes, hop]
  rfl

theorem callEffect_rdread (hop : r.op = 10) (htakes : s.bufferTakes c r.buf (data.take r.len).length = true) :
    s.callEffect c r outcome data = ((r.len : Int), s.fillBuffer c r.buf (data.take r.len)) := by
  unfold State.callEffect
  rw [if_neg (Int.not_lt.mpr h), htakes, hop]
  rfl

/-- ACCEPT makes its socket as it completes (R406). -/
theorem callEffect_accept {k : Socket} (hop : r.op = 5) (hsock : s.callSock c r.sock = some k) :
    s.callEffect c r outcome data = ((s.newSockId : Int), (s.addSock c k.kind k.port data).2) := by
  unfold State.callEffect
  simp only [Int.not_lt.mpr h, hop, hsock]
  rfl

end

/-! ### Lent pages and ports -/

section
variable {s : State} {q k : Nat} {d : Lent}
  (hk : (s.lent.findIdx? fun d => d.queue == q && d.free).or (s.lent.findIdx? fun d => d.queue == q && d.finished) = some k)
  (hd : s.lent[k]? = some d)
include hk hd

/-- A loan without a return word comes back alone (R407). -/
theorem execPageReturn_wordless (hword : d.rword = none) : execPageReturn q s = .next { s with lent := dropAt s.lent k } := by
  unfold execPageReturn
  simp only [hk, hd, hword]

/-- With one, SEQ is written there, and a word that cannot be written stops the queue (R406, R407). -/
theorem execPageReturn_word {w : Nat} (hword : d.rword = some w) (hwait : s.partWait d.ctx .part [(w, 8, true)] = none) :
    execPageReturn q s = .next
      (if s.wordOk d.ctx w false = true then { s with lent := dropAt s.lent k }.partPut d.ctx .part w 8 (d.num + 1)
       else { s with lent := dropAt s.lent k }.stopSvc q d.num) := by
  unfold execPageReturn
  simp only [hk, hd, hword, hwait]

end

/-- A link comes up on lanes of a port that are not fenced (R408, R414). -/
theorem execPortLinkUp_fits {s : State} {p lanes : Nat} (hp : p < 8) (hlanes : 1 ≤ lanes) (hfit : lanes + s.portFenced p ≤ 8) :
    execPortLinkUp p lanes s = .next (s.setFleet { s.fleet with ports := aset s.fleet.ports p lanes }) := by
  refine if_neg ?_
  simp only [Bool.or_eq_true, decide_eq_true_eq]
  omega

/-- A call of a queue with a result, where it goes over a port of a link that has gone down (R408). -/
def State.unlinked (s : State) (p q : Nat) (k : Call) : Call :=
  if k.result.isNone && (s.callPort q k).any fun x => x.port = p && x.kind != 1 then { k with result := some (-6) } else k

theorem portDown_svc (s : State) (p q : Nat) :
    aget (s.portDown p).svc q = (aget s.svc q).map fun x => { x with calls := x.calls.map (s.unlinked p q) } :=
  aget_mapKeyed (fun q (x : SvcQueue) => { x with calls := x.calls.map (s.unlinked p q) }) s.svc q

theorem unlinked_waiting {s : State} {p q : Nat} {k : Call} {a : Socket} (hnone : k.result = none)
    (hsock : s.callSock (s.svcCtx q) (Rec.sock { b := k.bytes }) = some a) (hport : a.port = p) (hkind : a.kind ≠ 1) :
    s.unlinked p q k = { k with result := some (-6) } := by
  have hsock : s.callPort q k = some a := hsock
  unfold State.unlinked
  simp [hnone, hsock, hport, hkind]

/-- Settles O51: each clause is the rule above for its event. -/
theorem gafferEvents : Obligations.GafferEvents := by
  refine ⟨?enable, ?queue, ?socket, ?sockets, ?missing, ?moving, ?portq, ?completion, ?effect, ?returned, ?ports⟩
  case enable => exact fun s q hq hoff hserv =>
    (exec_serviceQueueEnable s q).trans (execServiceQueueEnable_off hq hoff hserv)
  case queue =>
    intro s q x hx put
    exact ⟨execServiceQueueDisable_idle hx, execServiceQueueDisable_busy hx, execNotify_eq hx, execRecordReread_due hx⟩
  case socket => exact fun s q r h hlend hkind hlow hhigh => execSocket_made h rfl hlend hkind hlow hhigh
  case sockets =>
    intro s q op r k h hlend hsock c set
    refine ⟨?_, ?_, ?_, ?_⟩
    · intro b hready hreached hfamily hzeros
      have haddr : Addressed s c r := ⟨hready, hreached, hfamily, hzeros⟩
      exact ⟨fun hop => execBind_bound hlend hsock (hop ▸ h) haddr, fun hop => execConnect_peer hlend hsock (hop ▸ h) haddr⟩
    · exact fun hop => execListen_eq hlend hsock (hop ▸ h)
    · exact fun hop => execAcceptConn_eq hlend hsock (hop ▸ h)
    · exact fun hop => execSocketClose_eq hlend hsock (hop ▸ h)
  case missing => exact fun s q op r h hlend hsock e he hop => exec_socketOp_none he (hop ▸ h) hlend hsock
  case moving =>
    intro s q op r k h hsock e he hop
    subst hop
    refine ⟨exec_movingOp_kind he h hsock, fun hkind => ?_⟩
    have hexec := exec_movingOp he h hsock hkind
    refine ⟨fun hlend hparts => ?_, fun hlend hbuf hlen hlent => ?_, fun hfree hwait => ⟨fun hreach => ?_, fun hfail => ?_⟩⟩
    · rw [hexec, withLoan_parts _ hlend hparts]
      rfl
    · rw [hexec, withLoan_lent _ hlend hbuf hlen hlent]
      rfl
    · rw [hexec, withLoan_ready _ hfree hwait, hreach]
      rfl
    · rw [hexec, withLoan_ready _ hfree hwait, if_pos (Option.isSome_iff_ne_none.mpr hfail)]
      rfl
  case portq => exact fun s q r h hlend hport => execPortq_answers h rfl hlend hport
  case completion => exact fun s q x k rest outcome data hx hcalls hwait hfill => execCallCompletion_oldest hx hcalls hwait hfill
  case effect => exact fun s c r outcome data => ⟨callEffect_failed, callEffect_send, callEffect_rdwrite, callEffect_untaken,
    callEffect_recv, callEffect_rdread, fun k h => callEffect_accept h⟩
  case returned => exact fun s q k d hk hd => ⟨execPageReturn_wordless hk hd, fun w => execPageReturn_word hk hd⟩
  case ports =>
    refine fun s p lanes => ⟨execPortLinkUp_fits, s.portDown p, rfl, ?_, rfl, fun q x hx => ?_⟩
    · exact (aget_adel ..).trans (if_pos rfl)
    · refine ⟨_, (portDown_svc s p q).trans (congrArg _ hx), rfl, fun k hk hnone a hsock hport hkind => ?_⟩
      exact List.mem_map.mpr ⟨k, hk, unlinked_waiting hnone hsock hport hkind⟩

end Sys2Proof.Machine

/-! SUPPORT. The serving fabric (R382 to R400): serving records, what each message makes of its die's sequence table, and KV errors. -/

namespace Sys2Proof.Machine

open Sys2Proof

/-! ### Serving records -/

/-- A record that R385 does not accept, or of no context, sets ERR (R384). -/
theorem execServingEnable_refused {s : State} {c : Nat} (hc : c < 1024) (hnew : aget s.serving c = none) :
    let r := s.reg (svrec c) 0
    let b := s.bytesAt (bits64 r 7 45 * 128) 128
    s.ctx? c = none ∨ servingOk b (Serving.ofBytes b) = false → execServingEnable c s = .next (s.setReg (svrec c) (r ||| 2)) := by
  intro r b hbad
  unfold execServingEnable
  rw [if_neg (by simp [hc, hnew]), if_pos]
  rcases hbad with hctx | hrec
  · rw [hctx]; rfl
  · simp only [r, b] at hrec
    rw [hrec, Bool.not_false, Bool.or_true]

/-- Serving begins with PUB and CONS of every inbox at zero (R384, R393). -/
theorem execServingEnable_begins {s : State} {c : Nat} (hc : c < 1024) (hnew : aget s.serving c = none)
    (hctx : (s.ctx? c).isSome = true) :
    let r := s.reg (svrec c) 0
    let b := s.bytesAt (bits64 r 7 45 * 128) 128
    let v := Serving.ofBytes b
    let words := (List.range 8).flatMap fun d => [inPub v d, inPub v d + 64]
    let u := words.foldl (fun s a => s.partPut c .part a 8 0) s
    servingOk b v = true → s.partWait c .part [(v.icnt, 1024, true)] = none → execServingEnable c s =
      .next ({ u with serving := aset u.serving c v }.setReg (svrec c) ((r ||| 1) &&& ~~~2#64)) := by
  intro r b v words u hok hwait
  have hgood : ((s.ctx? c).isNone || !servingOk b v) = false := by
    rw [hok, Option.isNone_eq_false_iff.mpr hctx]
    rfl
  unfold execServingEnable
  rw [if_neg (by simp [hc, hnew]), if_neg (Bool.eq_false_iff.mp hgood)]
  simp only [r, b, v] at hwait ⊢
  rw [hwait]

/-- Serving ends once no sequence of the context is left (R384). -/
theorem execServingDisable_ends {s : State} {c : Nat} (h : ∀ e ∈ s.seqs, e.ctx ≠ c) : execServingDisable c s = .next ({ s with
    serving := adel s.serving c, sending := s.sending.filter fun m => m.ctx != c, arrived := s.arrived.filter fun m => m.ctx != c
    nodes := s.nodes.filter fun n => n.ctx != c }.setReg (svrec c) (s.reg (svrec c) 0 &&& ~~~1#64)) := by
  refine if_neg (Bool.eq_false_iff.mp (List.any_eq_false.mpr fun e he => ?_))
  rw [beq_iff_eq]
  exact h e he

/-! ### Messages -/

/-- The number that bytes make lies below the next power (R9). -/
theorem leNat_lt : ∀ bs : List Byte, leNat bs < 256 ^ bs.length
  | [] => Nat.one_pos
  | b :: bs => by
    have := leNat_lt bs
    have := b.isLt
    simp only [leNat, List.length_cons, Nat.pow_succ]
    omega

theorem length_leBytes : ∀ n x : Nat, (leBytes n x).length = n
  | 0, _ => rfl
  | n + 1, x => congrArg (· + 1) (length_leBytes n (x / 256))

/-- The n lowest bytes of a number make it again, modulo their power (R9). -/
theorem leNat_leBytes : ∀ n x : Nat, leNat (leBytes n x) = x % 256 ^ n
  | 0, x => (Nat.mod_one x).symm
  | n + 1, x => by
    rw [leBytes, leNat, leNat_leBytes n, BitVec.toNat_ofNat, pow_succ' 256 n, Nat.mod_mul]

theorem Msg.at_lt (m : Msg) (o n : Nat) : m.at_ o n < 256 ^ n :=
  (leNat_lt _).trans_le (Nat.pow_le_pow_right (by decide) (List.length_take_le n _))

section
variable {s t : State} {die c type : Nat} {m : Msg} {v : Serving} (h : Msged s die c type t m v)
include h

theorem Msged.ctx_eq : m.ctx = c := by
  obtain ⟨-, -, hm, -, -⟩ := h
  exact (by simpa using List.find?_some hm : m.dest = die ∧ m.ctx = c).2

theorem Msged.type_eq : m.type = type := h.2.2.2.2

/-- What each message touches besides the inbox (R388, R390, R400). -/
theorem Msged.wants_list (htype : type = 1 ∨ type = 2 ∨ type = 0x80) :
    t.msgWants v die m = listWants (m.at_ 0x18 8) (m.at_ 0x20 2) := by
  unfold State.msgWants
  rw [h.type_eq]
  rcases htype with rfl | rfl | rfl <;> rfl

theorem Msged.wants_none (htype : type = 3 ∨ type = 5 ∨ type = 6 ∨ type = 7 ∨ type = 0x82) : t.msgWants v die m = [] := by
  unfold State.msgWants
  rw [h.type_eq]
  rcases htype with rfl | rfl | rfl | rfl | rfl <;> rfl

theorem Msged.wants_token (htype : type = 4) : t.msgWants v die m =
    if (m.at_ 0x11 1).testBit 0 && (t.ringOf die).2 = 0 then t.hostWants v (t.ringOf die).1 c (m.at_ 0x10 1 % 16) else [] := by
  unfold State.msgWants
  rw [h.type_eq, htype, h.ctx_eq]
  rfl

/-- A message after which nothing is published is applied with its status (R390 to R393). -/
theorem Msged.applyMsg (f : State → Serving → Msg → Nat × List Byte × State)
    (hwait : t.partWait c .part (t.inboxWants v die c ++ t.msgWants v die m) = none) :
    applyMsg die c type s f nothingAfter = .next ((f t v m).2.2.applied die c v m (f t v m).1 (f t v m).2.1) := by
  rw [applyMsg_msged h f nothingAfter hwait]
  exact congrArg _ (ite_self _)

end

/-! ### OPEN and EXTEND -/

/-- The entry that a message puts into a die's sequence table (R386, R390). -/
def Msg.entry (m : Msg) (die c : Nat) : SeqEntry :=
  { die := die, id := m.id, ctx := c, state := .run, pos := m.at_ 8 8, mark := m.at_ 8 8, seed := BitVec.ofNat 64 (m.at_ 0x10 8)
    pladdr := m.at_ 0x18 8, npg := m.at_ 0x20 2 }

section
variable {s t : State} {die c : Nat} {m : Msg} {v : Serving}

/-- OPEN with fields that R388 and R390 do not allow (log 43). -/
theorem execOpenSeq_malformed (h : Msged s die c 1 t m v)
    (hwait : t.partWait c .part (t.inboxWants v die c ++ listWants (m.at_ 0x18 8) (m.at_ 0x20 2)) = none)
    (hbad : m.at_ 0x22 30 ≠ 0 ∨ m.at_ 0x18 8 % 8 ≠ 0 ∨ 2 ^ 54 ≤ m.at_ 0x18 8) :
    execOpenSeq die c s = .next (t.applied die c v m 4 (m.bytes.drop 8)) := by
  unfold execOpenSeq
  rw [h.applyMsg _ (by rwa [h.wants_list (.inl rfl)]), if_pos (by simpa [or_assoc] using hbad)]

section
variable (h : Msged s die c 1 t m v)
  (hwait : t.partWait c .part (t.inboxWants v die c ++ listWants (m.at_ 0x18 8) (m.at_ 0x20 2)) = none)
  (hzero : m.at_ 0x22 30 = 0) (halign : m.at_ 0x18 8 % 8 = 0) (hhigh : m.at_ 0x18 8 < 2 ^ 54)
include h hwait hzero halign hhigh

/-- OPEN finds its entry taken, or none free (R390). -/
theorem execOpenSeq_taken (htaken : (t.seqAt die m.id).isSome = true ∨ 16384 ≤ (t.seqs.filter fun e => e.die == die).length) :
    execOpenSeq die c s = .next (t.applied die c v m 3 (m.bytes.drop 8)) := by
  unfold execOpenSeq
  rw [h.applyMsg _ (by rwa [h.wants_list (.inl rfl)]), if_neg (by simpa [hzero, halign] using hhigh),
    if_pos (by simpa using htaken)]

/-- OPEN makes its entry, whose pages are recorded where they can be (R388, R390). -/
theorem execOpenSeq_opens (hfree : t.seqAt die m.id = none) (hroom : (t.seqs.filter fun e => e.die == die).length < 16384) :
    let r := { t with seqs := t.seqs ++ [m.entry die c] }.track die c m.id (m.at_ 0x18 8) (m.at_ 0x20 2)
    execOpenSeq die c s = .next (r.1.applied die c v m (if r.2 = true then 0 else 5) (m.bytes.drop 8)) := by
  unfold execOpenSeq
  rw [h.applyMsg _ (by rwa [h.wants_list (.inl rfl)]), if_neg (by simpa [hzero, halign] using hhigh),
    if_neg (by simp [hfree, Nat.not_le.mpr hroom])]
  rfl

end

section
variable (h : Msged s die c 2 t m v)
  (hwait : t.partWait c .part (t.inboxWants v die c ++ listWants (m.at_ 0x18 8) (m.at_ 0x20 2)) = none)
  (hlow : m.at_ 8 16 = 0) (hzero : m.at_ 0x22 30 = 0) (halign : m.at_ 0x18 8 % 8 = 0) (hhigh : m.at_ 0x18 8 < 2 ^ 54)
include h hwait hlow hzero halign hhigh

theorem execExtend_none (hrun : t.runEntry die c m.id = none) :
    execExtend die c s = .next (t.applied die c v m 2 (m.bytes.drop 8)) := by
  unfold execExtend
  rw [h.applyMsg _ (by rwa [h.wants_list (.inr (.inl rfl))]), if_neg (by simpa [hlow, hzero, halign] using hhigh),
    if_pos (by rw [hrun]; rfl)]

/-- EXTEND gives an entry its new page list (R388, R390). -/
theorem execExtend_extends {e : SeqEntry} (hrun : t.runEntry die c m.id = some e) :
    let r := (t.modSeq die m.id fun e => { e with pladdr := m.at_ 0x18 8, npg := m.at_ 0x20 2 }).track die c m.id (m.at_ 0x18 8)
      (m.at_ 0x20 2)
    execExtend die c s = .next (r.1.applied die c v m (if r.2 = true then 0 else 5) (m.bytes.drop 8)) := by
  unfold execExtend
  rw [h.applyMsg _ (by rwa [h.wants_list (.inr (.inl rfl))]), if_neg (by simpa [hlow, hzero, halign] using hhigh),
    if_neg (by rw [hrun]; exact Bool.false_ne_true)]

end

/-! ### DRAFT, CLOSE, GIVE and NOTE -/

section
variable (h : Msged s die c 3 t m v) (hwait : t.partWait c .part (t.inboxWants v die c) = none) (hzero : m.at_ 0x10 48 = 0)
include h hwait hzero

theorem execDraft_none (hrun : t.runEntry die c m.id = none) :
    execDraft die c s = .next (t.applied die c v m 2 (m.bytes.drop 8)) := by
  unfold execDraft
  rw [h.applyMsg _ (by rwa [h.wants_none (.inl rfl), List.append_nil]), if_neg (by simp [hzero]), hrun]

/-- DRAFT sets the mark within 256 tokens of the position (R390). -/
theorem execDraft_some {e : SeqEntry} (hrun : t.runEntry die c m.id = some e) : execDraft die c s =
    if e.pos ≤ m.at_ 8 8 ∧ m.at_ 8 8 ≤ e.pos + 256 then
      .next ((t.modSeq die m.id fun e => { e with mark := m.at_ 8 8 }).applied die c v m 0 (m.bytes.drop 8))
    else .next (t.applied die c v m 4 (m.bytes.drop 8)) := by
  unfold execDraft
  rw [h.applyMsg _ (by rwa [h.wants_none (.inl rfl), List.append_nil]), if_neg (by simp [hzero]), hrun]
  by_cases hfits : e.pos ≤ m.at_ 8 8 ∧ m.at_ 8 8 ≤ e.pos + 256
  · simp only [if_pos hfits, Nat.not_lt.mpr hfits.1, Nat.not_lt.mpr hfits.2, decide_false, Bool.or_self,
      Bool.false_eq_true, if_false]
  · have hbad : (decide (m.at_ 8 8 < e.pos) || decide (m.at_ 8 8 > e.pos + 256)) = true := by
      simp only [Bool.or_eq_true, decide_eq_true_eq]
      omega
    simp only [if_neg hfits, hbad, if_true]

end

section
variable (h : Msged s die c 5 t m v) (hwait : t.partWait c .part (t.inboxWants v die c) = none) (hzero : m.at_ 8 56 = 0)
include h hwait hzero

theorem execCloseSeq_none (hseq : t.seqAt die m.id = none) :
    execCloseSeq die c s = .next (t.applied die c v m 2 (m.bytes.drop 8)) := by
  unfold execCloseSeq
  rw [h.applyMsg _ (by rwa [h.wants_none (.inr (.inl rfl)), List.append_nil]), if_neg (by simp [hzero]), hseq]

/-- CLOSE drops an entry of the context that is not on its way to another die (R390, R398). -/
theorem execCloseSeq_some {e : SeqEntry} (hseq : t.seqAt die m.id = some e) : execCloseSeq die c s =
    if e.ctx = c ∧ e.state ≠ .moving then
      .next (((t.dropSeq die m.id).untrack die c m.id).applied die c v m 0 (m.bytes.drop 8))
    else .next (t.applied die c v m 2 (m.bytes.drop 8)) := by
  unfold execCloseSeq
  rw [h.applyMsg _ (by rwa [h.wants_none (.inr (.inl rfl)), List.append_nil]), if_neg (by simp [hzero]), hseq]
  by_cases hmine : e.ctx = c <;> by_cases hmoving : e.state = .moving <;> simp [hmine, hmoving]

end

section
variable (h : Msged s die c 6 t m v) (hwait : t.partWait c .part (t.inboxWants v die c) = none) (hzero : m.at_ 9 55 = 0)
include h hwait hzero

theorem execGive_none (hrun : t.runEntry die c m.id = none) :
    execGive die c s = .next (t.applied die c v m 2 (m.bytes.drop 8)) := by
  unfold execGive
  rw [h.applyMsg _ (by rwa [h.wants_none (.inr (.inr (.inl rfl))), List.append_nil]), if_neg (by simp [hzero]), hrun]

/-- GIVE offers an entry to the same place of another ring (R390, R398). -/
theorem execGive_some {e : SeqEntry} (hrun : t.runEntry die c m.id = some e) :
    let dest := m.at_ 8 1
    let r := t.ringOf die
    let load := leBytes 8 e.pos ++ leBytes 8 e.seed.toNat ++ leBytes 8 e.pladdr ++ leBytes 2 e.npg
    let u := t.modSeq die m.id fun e => { e with state := .moving, mark := e.pos }
    execGive die c s = if dest ≠ r.1 ∧ dest < 8 / t.ringSize then
        .next ({ u with sending := u.sending ++ [partMsg die (t.ringSize * dest + r.2) c 0x80 m.id load] }.applied die c v m 0
          (m.bytes.drop 8))
      else .next (t.applied die c v m 4 (m.bytes.drop 8)) := by
  intro dest r load u
  unfold execGive
  rw [h.applyMsg _ (by rwa [h.wants_none (.inr (.inr (.inl rfl))), List.append_nil]), if_neg (by simp [hzero]), hrun]
  by_cases hgoes : dest ≠ r.1 ∧ dest < 8 / t.ringSize
  · rw [if_pos hgoes]
    have hgood : (decide (m.at_ 8 1 = (t.ringOf die).1) || decide (m.at_ 8 1 ≥ 8 / t.ringSize)) = false := by
      simpa using hgoes
    simp only [hgood, Bool.false_eq_true, if_false]
    rfl
  · rw [if_neg hgoes]
    have hbad : (decide (m.at_ 8 1 = (t.ringOf die).1) || decide (m.at_ 8 1 ≥ 8 / t.ringSize)) = true := by
      simpa [or_iff_not_imp_left] using hgoes
    simp only [hbad, if_true]

end

theorem execNote_noted (h : Msged s die c 7 t m v) (hwait : t.partWait c .part (t.inboxWants v die c) = none) :
    execNote die c s = .next (t.applied die c v m 0 (m.bytes.drop 8)) := by
  unfold execNote
  rw [h.applyMsg _ (by rwa [h.wants_none (.inr (.inr (.inr (.inl rfl)))), List.append_nil])]

end

/-! ### TOKEN -/

/-- What a write leaves of the fabric's shape (R381, R382). -/
theorem OnlyWrites.ringOf {s t : State} (h : OnlyWrites s t) (die : Nat) : t.ringOf die = s.ringOf die := by
  have hreg : t.reg 0x7F1000 0 = s.reg 0x7F1000 0 := by
    unfold State.reg
    rw [← h.1]
  unfold State.ringOf State.ringSize
  rw [hreg]

theorem takeMsg_eq (s : State) (die c : Nat) : ∃ ms, s.takeMsg die c = { s with arrived := ms } := by
  unfold State.takeMsg
  split
  · exact ⟨_, rfl⟩
  · exact ⟨_, rfl⟩

theorem inboxPut_written (s : State) (v : Serving) (die c : Nat) (b : List Byte) : OnlyWrites s (s.inboxPut v die c b) :=
  (partWrite_written s c .part _ _).trans (partPut_written _ c .part _ _ _)

theorem applied_ringOf (u : State) (die c : Nat) (v : Serving) (m : Msg) (st : Nat) (body : List Byte) (d : Nat) :
    (u.applied die c v m st body).ringOf d = u.ringOf d := by
  obtain ⟨ms, hms⟩ := takeMsg_eq u die c
  refine ((inboxPut_written _ v die c _).ringOf d).trans ?_
  rw [hms]
  rfl

section
variable {t : State} {die c : Nat} {m : Msg} {v : Serving} (hlast : m.at_ 0x11 1 < 4) (hzero : m.at_ 0x12 14 = 0)
include hlast hzero

theorem tokenStep_none (hrun : t.runEntry die c m.id = none) : (t.tokenStep die c v m).1 = 2 := by
  unfold State.tokenStep
  simp [Nat.not_le.mpr hlast, hzero, hrun]

variable {e : SeqEntry} (hrun : t.runEntry die c m.id = some e)
include hrun

/-- TOKEN brings 1 to 8 tokens, to the position that its entry then has (R390). -/
theorem tokenStep_miscounted (hbad : m.at_ 0x10 1 = 0 ∨ 8 < m.at_ 0x10 1 ∨ m.at_ 8 8 ≠ e.pos + m.at_ 0x10 1) :
    (t.tokenStep die c v m).1 = 4 := by
  have hbad : (decide (m.at_ 0x10 1 = 0) || decide (m.at_ 0x10 1 > 8) || m.at_ 8 8 != e.pos + m.at_ 0x10 1) = true := by
    simpa [or_assoc] using hbad
  unfold State.tokenStep
  simp only [Nat.not_le.mpr hlast, hzero, hrun, hbad, decide_false, bne_self_eq_false, Bool.or_self,
    Bool.false_eq_true, if_false, if_true]

section
variable (hone : 1 ≤ m.at_ 0x10 1) (height : m.at_ 0x10 1 ≤ 8) (hpos : m.at_ 8 8 = e.pos + m.at_ 0x10 1)
include hone height hpos

theorem tokenStep_counted : t.tokenStep die c v m = if m.at_ 8 8 > e.npg * v.pt then (6, m.at_ 8 8, m.at_ 0x10 1)
    else if m.at_ 8 8 > e.mark + 1 then (1, e.mark + 1, e.mark + 1 - e.pos) else (0, m.at_ 8 8, m.at_ 0x10 1) := by
  have hgood : (decide (m.at_ 0x10 1 = 0) || decide (m.at_ 0x10 1 > 8) || m.at_ 8 8 != e.pos + m.at_ 0x10 1) = false := by
    rw [hpos, bne_self_eq_false, decide_eq_false (Nat.not_lt.mpr height), decide_eq_false (Nat.ne_of_gt hone)]
    rfl
  unfold State.tokenStep
  simp only [Nat.not_le.mpr hlast, hzero, hrun, hgood, decide_false, bne_self_eq_false, Bool.or_self,
    Bool.false_eq_true, if_false]

/-- Its pages must hold the tokens (R390). -/
theorem tokenStep_unpaged (hpages : e.npg * v.pt < m.at_ 8 8) : (t.tokenStep die c v m).1 = 6 := by
  rw [tokenStep_counted hlast hzero hrun hone height hpos, if_pos hpages]

/-- The tokens that its mark allows are applied, the others not (R390). -/
theorem tokenStep_applies (hpages : m.at_ 8 8 ≤ e.npg * v.pt) : t.tokenStep die c v m =
    (if m.at_ 8 8 ≤ e.mark + 1 then 0 else 1, min (m.at_ 8 8) (e.mark + 1), min (m.at_ 8 8) (e.mark + 1) - e.pos) := by
  rw [tokenStep_counted hlast hzero hrun hone height hpos, if_neg (Nat.not_lt.mpr hpages)]
  by_cases hmark : m.at_ 8 8 ≤ e.mark + 1
  · rw [if_neg (Nat.not_lt.mpr hmark), if_pos hmark, Nat.min_eq_left hmark, hpos, Nat.add_sub_cancel_left]
  · rw [if_pos (Nat.not_le.mp hmark), if_neg hmark, Nat.min_eq_right (Nat.le_of_lt (Nat.not_le.mp hmark))]

end

end

/-- The entry after tokens up to a position, DONE with its last ones (R390). -/
def SeqEntry.reach (e : SeqEntry) (dest : Nat) (ends : Bool) : SeqEntry :=
  { e with pos := dest, mark := dest, state := if ends then .done else e.state }

/-- What TOKEN publishes of its tokens in a ring's host token ring: k of them, up to a position (R399, R400). -/
def Msg.tokens (m : Msg) (dest k : Nat) (ends : Bool) : List (List Byte) :=
  (List.range k).map fun i => hostEntry m.id (m.at_ (0x20 + 4 * i) 4) ((dest - k + i) % 2 ^ 32)
    (if ends = true ∧ i + 1 = k then 1 else 0)

section
variable {s t : State} {die c : Nat} {m : Msg} {v : Serving} (h : Msged s die c 4 t m v)
  (hwait : t.partWait c .part (t.inboxWants v die c ++ (if (m.at_ 0x11 1).testBit 0 && (t.ringOf die).2 = 0 then
    t.hostWants v (t.ringOf die).1 c (m.at_ 0x10 1 % 16) else [])) = none)
include h hwait

/-- A TOKEN that does not apply leaves its status alone (R390). -/
theorem execToken_refused {st : Nat} (hst : 1 < st) (hlow : st ≠ 5) (hstep : (t.tokenStep die c v m).1 = st) :
    execToken die c s = .next (t.applied die c v m st (m.bytes.drop 8)) := by
  have hno : (decide (st ≤ 1) || decide (st = 5)) = false := by simpa [hlow] using hst
  unfold execToken
  rw [applyMsg_msged h _ _ ((h.wants_token rfl).symm ▸ hwait)]
  simp only [hstep, gt_iff_lt, if_pos hst, hno, Bool.false_eq_true, if_false]

/-- A TOKEN that applies moves its entry on, and the head die publishes what was applied (R390, R400). -/
theorem execToken_applied {st dest k : Nat} (hst : st ≤ 1) (hstep : t.tokenStep die c v m = (st, dest, k))
    (hdest : dest < 2 ^ 64) (hk : k < 256) :
    let ends : Bool := (m.at_ 0x11 1).testBit 1 && k = m.at_ 0x10 1
    let u := (t.modSeq die m.id fun e => e.reach dest ends).applied die c v m st
      (leBytes 8 dest ++ leBytes 1 k ++ m.bytes.drop 0x11)
    execToken die c s = .next (if ((m.at_ 0x11 1).testBit 0 && (t.ringOf die).2 = 0) = true ∧ k ≠ 0 then
      u.publish v (t.ringOf die).1 c (m.tokens dest k ends) else u) := by
  intro ends u
  have hring : u.ringOf die = t.ringOf die := applied_ringOf ..
  have hbody : leNat ((leBytes 8 dest ++ leBytes 1 k ++ m.bytes.drop 0x11).take 8) = dest := by
    rw [List.append_assoc, List.take_left' (length_leBytes 8 dest), leNat_leBytes]
    exact Nat.mod_eq_of_lt hdest
  have hcount : leNat (((leBytes 8 dest ++ leBytes 1 k ++ m.bytes.drop 0x11).drop 8).take 1) = k := by
    rw [List.append_assoc, List.drop_left' (length_leBytes 8 dest), List.take_left' (length_leBytes 1 k), leNat_leBytes]
    exact Nat.mod_eq_of_lt hk
  unfold execToken
  rw [applyMsg_msged h _ _ ((h.wants_token rfl).symm ▸ hwait)]
  simp only [hstep, gt_iff_lt, if_neg (Nat.not_lt.mpr hst), hst, decide_true, Bool.true_or, if_true, hbody, hcount]
  have hskip : (!(m.at_ 0x11 1).testBit 0 || (u.ringOf die).2 != 0 || decide (k = 0)) = true ↔
      ¬(((m.at_ 0x11 1).testBit 0 && (t.ringOf die).2 = 0) = true ∧ k ≠ 0) := by
    rw [hring]
    simp only [Bool.or_eq_true, Bool.not_eq_true', bne_iff_ne, decide_eq_true_eq, Bool.and_eq_true, not_and_or,
      Bool.not_eq_true, not_not]
  have htokens : ((List.range k).map fun i => hostEntry m.id (m.at_ (0x20 + 4 * i) 4) ((dest - k + i) % 2 ^ 32)
      (if (ends && decide (i + 1 = k)) = true then 1 else 0)) = m.tokens dest k ends := by
    simp only [Msg.tokens, Bool.and_eq_true, decide_eq_true_eq]
  refine congrArg _ ?_
  by_cases hpub : ((m.at_ 0x11 1).testBit 0 && (t.ringOf die).2 = 0) = true ∧ k ≠ 0
  · rw [if_pos hpub, ← hring]
    exact (if_neg (mt hskip.mp (not_not.mpr hpub))).trans (congrArg (u.publish v (u.ringOf die).1 c) htokens)
  · rw [if_neg hpub]
    exact if_pos (hskip.mpr hpub)

end

/-! ### ADOPT, ACK and REFUSE -/

section
variable {s t : State} {die c : Nat} {m : Msg} {v : Serving}

/-- Whether a die adopts does not depend on the messages that wait. -/
theorem takeMsg_adopts (die c : Nat) (m : Msg) : (t.takeMsg die c).adopts die m = t.adopts die m := by
  obtain ⟨ms, hms⟩ := takeMsg_eq t die c
  rw [hms]
  rfl

/-- A part's answer to a message, on its way to the sender (R398). -/
def State.reply (s : State) (die c : Nat) (m : Msg) (type : Nat) : State :=
  { s with sending := s.sending ++ [partMsg die m.src c type m.id []] }

section
variable (h : Msged s die c 0x80 t m v)
  (hwait : t.partWait c .part (t.inboxWants v die c ++ listWants (m.at_ 0x18 8) (m.at_ 0x20 2)) = none)
include h hwait

/-- An offered entry is adopted where it fits: its pages are recorded anew, and a notice and an acknowledgement leave (R398). -/
theorem execAdopt_adopts (hadopts : t.adopts die m = true) :
    let u := t.takeMsg die c
    let r := ({ u with seqs := u.seqs ++ [m.entry die c] }.untrack m.src c m.id).track die c m.id (m.at_ 0x18 8) (m.at_ 0x20 2)
    execAdopt die c s = .next ((r.1.inboxPut v die c
      (inboxHead (if r.2 = true then 0 else 5) m.id m.src die 0x92 ++ leBytes 8 (m.at_ 8 8))).reply die c m 0x81) := by
  intro u r
  unfold execAdopt
  rw [onPartMsg_msged h _ fun _ => (h.wants_list (.inr (.inr rfl))).symm ▸ hwait]
  refine congrArg _ (if_neg ?_)
  rw [takeMsg_adopts, hadopts]
  exact Bool.false_ne_true

theorem execAdopt_refuses (hrefuses : t.adopts die m = false) :
    execAdopt die c s = .next ((t.takeMsg die c).reply die c m 0x82) := by
  unfold execAdopt
  rw [onPartMsg_msged h _ fun _ => (h.wants_list (.inr (.inr rfl))).symm ▸ hwait]
  refine congrArg _ (if_pos ?_)
  rw [takeMsg_adopts, hrefuses]
  rfl

end

/-- An acknowledgement leaves no notice (R398). -/
theorem execAck_drops (h : Msged s die c 0x81 t m v) : execAck die c s = .next ((t.takeMsg die c).dropSeq die m.id) := by
  have hsilent : t.notices die m = false := by
    unfold State.notices
    rw [h.type_eq]
    rfl
  exact onPartMsg_msged h _ fun hnotice => absurd (hsilent.symm.trans hnotice) Bool.false_ne_true

/-- A refused entry runs on where it was (R398). -/
theorem execRefuse_runs (h : Msged s die c 0x82 t m v) (hwait : t.partWait c .part (t.inboxWants v die c) = none) :
    execRefuse die c s = .next (((t.takeMsg die c).modSeq die m.id fun e => { e with state := .run }).inboxPut v die c
      (inboxHead 0 m.id m.src die 0x93 ++ leBytes 8 m.src)) := by
  refine onPartMsg_msged h _ fun _ => ?_
  rw [h.wants_none (.inr (.inr (.inr (.inr rfl)))), List.append_nil]
  exact hwait

end

/-! ### KV errors -/

section
variable {s : State} {line : Nat} {k : KvPage} {e : SeqEntry} {v : Serving}

/-- The dies of the ring in which a page's entry lies (R381, R397). -/
def State.ringDies (s : State) (k : KvPage) : List Nat :=
  (List.range s.ringSize).map fun i => s.ringSize * (s.ringOf k.die).1 + i

/-- The first token that a line of a page holds (R388, R397). -/
def KvPage.token (k : KvPage) (v : Serving) (line : Nat) : Nat := k.idx * v.pt + (128 * line - k.pa) * v.pt / 2 ^ v.log2kv

/-- A line in error reads as zero from then on (R396). -/
def State.cleaned (s : State) (line : Nat) : State :=
  { s.writeBytes (located (128 * line) (List.replicate 128 0)) with poison := s.poison.filter (· != line) }

/-- The context's entries of a page's sequence changed at every die of the ring (R397). -/
def State.modRing (u s : State) (k : KvPage) (id : Nat) (f : SeqEntry → SeqEntry) : State :=
  (s.ringDies k).foldl (fun s d => s.modSeq d id fun x => if x.ctx = k.ctx then f x else x) u

/-- A notice of the part in the inbox of every die of the ring (R397). -/
def State.noteRing (u s : State) (v : Serving) (k : KvPage) (id type : Nat) (body : List Byte) : State :=
  (s.ringDies k).foldl (fun s d => s.inboxPut v d k.ctx (inboxHead 0 id k.die d type ++ body)) u

/-- What the notices of an error and, where the error fences, its entry of the host token ring need can be reached and has room
(R393, R397, R400). -/
structure KvRoom (s : State) (k : KvPage) (v : Serving) (fence : Prop) [Decidable fence] : Prop where
  ready : s.partWait k.ctx .part (((s.ringDies k).flatMap fun d => s.inboxWants v d k.ctx) ++
    (if fence then s.hostWants v (s.ringOf k.die).1 k.ctx 1 else [])) = none
  inboxes : ∀ d ∈ s.ringDies k, s.inboxRoom v d k.ctx = true
  host : fence → s.hostRoom v (s.ringOf k.die).1 k.ctx 1 = true

variable (hk : s.kvOwner line = some (k, e, v)) (hstill : s.moving k = false)
include hk hstill

/-- An error at tokens that are not there yet is recorded alone (R397). -/
theorem execKvError_unused (hmark : e.mark ≤ k.token v line) (hpos : e.pos ≤ k.token v line + 1) :
    execKvError line s = .next ((s.cleaned line).errRecord 0x0133 (linePath line) (128 * line) k.ctx 0) := by
  have hcond : (decide (k.token v line ≥ e.mark) && !decide (k.token v line + 1 < e.pos)) = true := by
    simpa using ⟨hmark, hpos⟩
  unfold execKvError
  simp only [hk, hstill, Bool.false_eq_true, if_false]
  exact if_pos hcond

/-- One that has to be noticed is classed once its notices can be written (R393, R397, R400). -/
theorem execKvError_room (hnotice : k.token v line < e.mark ∨ k.token v line + 1 < e.pos)
    (hroom : KvRoom s k v (k.token v line + 1 < e.pos)) : execKvError line s = .next (if k.token v line + 1 < e.pos then
      ((((s.cleaned line).modRing s k e.id fun x => { x with state := .fenced }).noteRing s v k e.id 0x91
        (leBytes 8 (k.token v line))).publish v (s.ringOf k.die).1 k.ctx
        [hostEntry e.id 0xFFFFFFFF (k.token v line % 2 ^ 32) 2]).errRecord 0x0134 (linePath line) e.id k.ctx (e.id % 2 ^ 16)
    else (((s.cleaned line).modRing s k e.id fun x => { x with mark := k.token v line }).noteRing s v k e.id 0x90
        (leBytes 8 (k.token v line) ++ leBytes 8 (k.token v line))).errRecord 0x0132 (linePath line) (128 * line) k.ctx 0) := by
  obtain ⟨hready, hinboxes, hhost⟩ := hroom
  have hcond : ¬(decide (k.token v line ≥ e.mark) && !decide (k.token v line + 1 < e.pos)) = true := by
    simp only [Bool.and_eq_true, Bool.not_eq_true', decide_eq_true_eq, decide_eq_false_iff_not]
    omega
  have hplaces : (!((s.ringDies k).all fun d => s.inboxRoom v d k.ctx) ||
      (decide (k.token v line + 1 < e.pos) && !s.hostRoom v (s.ringOf k.die).1 k.ctx 1)) = false := by
    rw [List.all_eq_true.mpr hinboxes]
    by_cases hfence : k.token v line + 1 < e.pos
    · rw [hhost hfence, Bool.not_true, Bool.and_false, Bool.or_false]
    · rw [decide_eq_false hfence, Bool.false_and, Bool.or_false]
      rfl
  unfold execKvError
  simp only [hk, hstill, Bool.false_eq_true, if_false]
  refine (if_neg hcond).trans ?_
  unfold State.ringDies KvPage.token at hready hplaces
  simp only [hready, hplaces, Bool.false_eq_true, if_false]
  exact (apply_ite Host.Outcome.next _ _ _).symm

end

/-- Settles O50: each clause is the rule above for its event. -/
theorem servingEvents : Obligations.ServingEvents := by
  refine ⟨?enable, ?disable, ?open_, ?extend, ?entry, ?token, ?adopt, ?ack, ?refuse, ?error⟩
  case enable =>
    intro s c hc hnew r b v
    exact ⟨execServingEnable_refused hc hnew, fun hctx => execServingEnable_begins hc hnew hctx⟩
  case disable => exact fun s c h => (exec_servingDisable s c).trans (execServingDisable_ends h)
  case open_ =>
    intro s die c t m v h pl hwait out
    exact ⟨execOpenSeq_malformed h hwait, fun hzero halign hhigh =>
      ⟨execOpenSeq_taken h hwait hzero halign hhigh, execOpenSeq_opens h hwait hzero halign hhigh⟩⟩
  case extend =>
    intro s die c t m v h pl hwait hlow hzero halign hhigh out
    exact ⟨execExtend_none h hwait hlow hzero halign hhigh, fun e => execExtend_extends h hwait hlow hzero halign hhigh⟩
  case entry =>
    intro s die c t m v k h hwait out
    refine ⟨fun hk hzero => ?draft, fun hk hzero => ?close, fun hk hzero => ?give, fun hk => ?note⟩ <;> subst hk
    case draft => exact ⟨execDraft_none h hwait hzero, fun e => execDraft_some h hwait hzero⟩
    case close => exact ⟨execCloseSeq_none h hwait hzero, fun e => execCloseSeq_some h hwait hzero⟩
    case give => exact ⟨execGive_none h hwait hzero, fun e => execGive_some h hwait hzero⟩
    case note => exact execNote_noted h hwait
  case token =>
    intro s die c t m v h last head ring n newpos hwait hlast hzero out
    refine ⟨fun hrun => execToken_refused h hwait (by decide) (by decide) (tokenStep_none hlast hzero hrun), fun e hrun =>
      ⟨fun hbad => execToken_refused h hwait (by decide) (by decide) (tokenStep_miscounted hlast hzero hrun hbad),
        fun hone height hpos => ⟨fun hpages => ?unpaged, ?applies⟩⟩⟩
    case unpaged =>
      exact execToken_refused h hwait (by decide) (by decide) (tokenStep_unpaged hlast hzero hrun hone height hpos hpages)
    case applies =>
      intro hpages dest k ends _
      have hst : (if newpos ≤ e.mark + 1 then 0 else 1) ≤ 1 := by split <;> decide
      have hdest : dest < 2 ^ 64 := (Nat.min_le_left ..).trans_lt (m.at_lt 8 8)
      have hk : k < 256 := by omega
      exact execToken_applied h hwait hst (tokenStep_applies hlast hzero hrun hone height hpos hpages) hdest hk
  case adopt =>
    intro s die c t m v h hwait u e r w
    exact ⟨execAdopt_adopts h hwait, execAdopt_refuses h hwait⟩
  case ack => exact fun s die c t m v h => (exec_ack s die c).trans (execAck_drops h)
  case refuse => exact fun s die c t m v h hwait => (exec_refuse s die c).trans (execRefuse_runs h hwait)
  case error =>
    intro s line k e v hk hstill r dies p clean mods noted room
    refine ⟨execKvError_unused hk hstill, fun hmark hpos hroom => ?drafted, fun hpos hroom => ?fences⟩
    case drafted =>
      obtain ⟨hready, hinboxes, hhost⟩ := hroom
      exact (execKvError_room hk hstill (.inl hmark) ⟨hready, hinboxes, hhost⟩).trans
        (congrArg _ (if_neg (Nat.not_lt.mpr hpos)))
    case fences =>
      obtain ⟨hready, hinboxes, hhost⟩ := hroom
      exact (execKvError_room hk hstill (.inr hpos) ⟨hready, hinboxes, hhost⟩).trans (congrArg _ (if_pos hpos))

end Sys2Proof.Machine

/-! SUPPORT. Contexts and their commands (R346 to R349, R360, R363 to R368, R370): activation, pre-emption, answers to a stop, fault
records, user interrupts, and the BAR4 window. -/

namespace Sys2Proof.Machine

open Sys2Proof

/-! ### Activation -/

section
variable {s : State} {c : Nat} (hc : c < 1024) (hnew : s.ctx? c = none)
include hc hnew

/-- A record that the part accepts makes its context active (R347, R348). -/
theorem execContextActivate_accepts (hran : s.boot.ran ≠ 2)
    (hok : s.recordOk (s.bytesAt (s.recordAddr c) 256) (Ctx.ofRecord (s.bytesAt (s.recordAddr c) 256)) = true) :
    execContextActivate c s = .next ({ s with ctxs := aset s.ctxs c (Ctx.ofRecord (s.bytesAt (s.recordAddr c) 256)) }.setReg
      (ctxBlock c) (s.reg (ctxBlock c) 0 ||| 1)) := by
  unfold execContextActivate
  rw [if_neg (by simp [hc, hnew])]
  exact if_neg (by simp [hran, hok])

/-- Any other record, or one that comes in recovery, sets ERR (R349, R419). -/
theorem execContextActivate_refuses (hbad : s.boot.ran = 2 ∨
      s.recordOk (s.bytesAt (s.recordAddr c) 256) (Ctx.ofRecord (s.bytesAt (s.recordAddr c) 256)) = false) :
    execContextActivate c s = .next (s.setErr c) := by
  unfold execContextActivate
  rw [if_neg (by simp [hc, hnew])]
  exact if_pos (by simpa using hbad)

end

section
variable {s : State} {c : Nat} {x : Ctx} (hx : s.ctx? c = some x)
include hx

section
variable (hqueues : ∀ p ∈ s.threads, p.2.ctx = c → p.2.state = .unmapped)
  (hteams : ∀ p ∈ s.teams, p.2.ctx = c → p.2.endedAt.isSome = true)
include hqueues hteams

/-- A context without queue and team is deactivated; the lines of its declared objects are recalled before (R276, R349). -/
theorem execContextDeactivate_free : execContextDeactivate c s =
    if s.declParts x ≠ [] then .next ((s.declParts x).foldl State.evictPart s)
    else .next (({ s with ctxs := adel s.ctxs c, lgfs := s.lgfs.filter fun g => g.ctx != c }.forgetDetails c).setReg (ctxBlock c)
      (s.reg (ctxBlock c) 0 &&& ~~~1#64)) := by
  have hmapped : (s.threads.any fun p => p.2.ctx == c && p.2.state != .unmapped) = false :=
    List.any_eq_false.mpr fun p hp => by simpa using hqueues p hp
  have hnone : s.hasTeam c = false :=
    List.any_eq_false.mpr fun p hp => by simpa [Option.isSome_iff_ne_none] using hteams p hp
  unfold execContextDeactivate
  simp only [hx, hmapped, hnone, Option.isNone_some, Bool.or_self, Bool.false_eq_true, if_false, Bool.not_eq_true',
    List.isEmpty_eq_false_iff]

end

/-! ### Pre-emption -/

/-- PREEMPT asks every resident team of a running context to yield (R368). -/
theorem execPreempt_asks (hactive : x.state = .active)
    (hfits : s.poolFits c ((s.teams.filter fun p => p.2.ctx == c && p.2.resident).map fun p => p.2.kern.teamSize) = true) :
    execPreempt c s = .next (((s.teams.filter fun p => p.2.ctx == c && p.2.resident).foldl (fun s p => s.askYield p.2)
      (s.modCtx c fun x => { x with state := .preempting })).settleSave c) := by
  unfold execPreempt
  simp only [hx, hactive, hfits, bne_self_eq_false, Bool.not_true, Bool.or_self, Bool.false_eq_true, if_false]

theorem execPreempt_refuses (hbad : x.state ≠ .active ∨
      s.poolFits c ((s.teams.filter fun p => p.2.ctx == c && p.2.resident).map fun p => p.2.kern.teamSize) = false) :
    execPreempt c s = .next (s.setErr c) := by
  unfold execPreempt
  simp only [hx]
  exact if_pos (by simpa using hbad)

theorem execResume_refuses (hstate : x.state ≠ .saved) : execResume c s = .next (s.setErr c) := by
  unfold execResume
  simp only [hx, bne_iff_ne, ne_eq, hstate, not_false_eq_true, if_true]

end

theorem mem_insertTeam {p q : Nat × Team} : ∀ {l : List (Nat × Team)}, q ∈ insertTeam p l ↔ q = p ∨ q ∈ l
  | [] => List.mem_singleton.trans (or_iff_left List.not_mem_nil).symm
  | r :: l => by
    unfold insertTeam
    split
    · exact List.mem_cons
    · rw [List.mem_cons, mem_insertTeam, List.mem_cons, or_left_comm]

/-- Every team of a list stands in it once it is ordered. -/
theorem mem_foldl_insertTeam {q : Nat × Team} : ∀ {ts l : List (Nat × Team)},
    q ∈ ts.foldl (fun l p => insertTeam p l) l ↔ q ∈ ts ∨ q ∈ l
  | [], _ => (or_iff_right List.not_mem_nil).symm
  | p :: ts, l => by
    rw [List.foldl_cons, mem_foldl_insertTeam, mem_insertTeam, List.mem_cons, or_assoc, or_left_comm]

/-- The saved teams of a launch, by their linear index (R368). -/
def State.savedTeams (s : State) (n : Nat) : List (Nat × Team) :=
  (s.teams.filter fun p => p.2.launch == n && p.2.place == .saved).foldl (fun l p => insertTeam p l) []

/-- A launch of a resumed context: its saved teams wait to be admitted (R368). -/
def State.resumed (s : State) (c n : Nat) (l : Launch) : Launch :=
  if l.ctx == c then
    { l with waiting := l.waiting ++ ((s.savedTeams n).map Prod.fst).filter fun n => !l.waiting.contains n } else l

theorem resumed_waits {s : State} {c n : Nat} {l : Launch} {p : Nat × Team} (hl : l.ctx = c) (hp : p ∈ s.teams)
    (hlaunch : p.2.launch = n) (hplace : p.2.place = .saved) : p.1 ∈ (s.resumed c n l).waiting := by
  have hmem : p ∈ s.savedTeams n := mem_foldl_insertTeam.mpr (.inl (List.mem_filter.mpr ⟨hp, by simp [hlaunch, hplace]⟩))
  unfold State.resumed
  rw [if_pos (beq_iff_eq.mpr hl)]
  by_cases hwaits : p.1 ∈ l.waiting
  · exact List.mem_append_left _ hwaits
  · exact List.mem_append_right _ (List.mem_filter.mpr ⟨List.mem_map_of_mem hmem, by simpa using hwaits⟩)

/-- A context that runs again: it is active, and its outstanding stops are announced again (R368). -/
def State.reactivated (s : State) (c : Nat) (x : Ctx) : State :=
  if (s.stopIds c).isEmpty then s.modCtx c fun x => { x with state := .active }
  else (s.modCtx c fun x => { x with state := .active }).interrupt x.ctxvec

section
variable {s : State} {c : Nat} {x : Ctx}

theorem reactivated_ctxs : (s.reactivated c x).ctxs = (s.modCtx c fun x => { x with state := .active }).ctxs := by
  unfold State.reactivated
  split
  · rfl
  · exact State.interrupt_ctxs ..

theorem reactivated_mem : (s.reactivated c x).mem = s.mem := by
  unfold State.reactivated
  split
  · rfl
  · exact State.interrupt_mem ..

theorem reactivated_teams : (s.reactivated c x).teams = s.teams := by
  unfold State.reactivated
  split
  · rfl
  · exact State.interrupt_teams ..

variable (hx : s.ctx? c = some x) (hstate : x.state = .saved)
include hx hstate

theorem execResume_saved : execResume c s = .next { s.reactivated c x with
    launches := s.launches.map fun p => (p.1, s.resumed c p.1 p.2) } := by
  unfold execResume
  simp only [hx, hstate, bne_self_eq_false, Bool.false_eq_true, if_false]
  refine congrArg (fun ls => Host.Outcome.next { s.reactivated c x with launches := ls }) (List.map_congr_left fun p _ => ?_)
  unfold State.resumed
  split <;> rfl

/-- RESUME makes a saved context run again, its saved teams waiting to be admitted (R368). -/
theorem execResume_resumes : ∃ u, execResume c s = .next u ∧ (u.ctx? c).map Ctx.state = some .active ∧ u.mem = s.mem ∧
    u.teams = s.teams ∧ ∀ n l, aget s.launches n = some l → l.ctx = c → ∃ k, aget u.launches n = some k ∧
      ∀ p ∈ s.teams, p.2.launch = n → p.2.place = .saved → p.1 ∈ k.waiting := by
  refine ⟨_, execResume_saved hx hstate, ?_, reactivated_mem, reactivated_teams, fun n l hl hctx => ?_⟩
  · have hmod : (s.modCtx c fun x => { x with state := .active }).ctx? c = some { x with state := .active } := by
      rw [State.ctx?_modCtx, if_pos rfl, hx]
      rfl
    exact congrArg (Option.map Ctx.state) ((congrArg (aget · c) reactivated_ctxs).trans hmod)
  · exact ⟨_, (aget_mapKeyed (s.resumed c) s.launches n).trans (by rw [hl]; rfl), fun p hp => resumed_waits hctx hp⟩

end

/-! ### Answers to a stop of a group -/

theorem final_iff (k : StopKind) : k.final = true ↔ k = .timeout ∨ k = .fenced := by
  cases k <;> decide

section
variable {s : State} {c id : Nat} {r : GRef} {g : Group} {x : Stop} (hg : s.stoppedGroup c id = some (r, g, x))
include hg

theorem execGresume_group : execGresume c id s = .next (if x.kind.final = true then s.setErr c
    else s.modGrp r fun g => { g with stop := none, step := none }) := by
  unfold execGresume
  simp only [hg]
  exact (apply_ite Host.Outcome.next _ _ _).symm

theorem execGstep_group : execGstep c id s = .next (if g.step.isSome = true ∨ x.kind = .fenced then s.setErr c
    else s.modGrp r fun g => { g with step := some { lanes := 0, left := 0 } }) := by
  unfold execGstep
  simp only [hg, Bool.or_eq_true, beq_iff_eq]

/-- GKILL of a group ends its launch, whose queue is FAULTED (R363). -/
theorem execGkill_group {t : Team} {l : Launch} (ht : s.team? r.team = some t) (hl : aget s.launches t.launch = some l) :
    execGkill c id s = .next ((s.endLaunch t.launch).faultEnded l.thread l.seq (s.packetAddr l.thread l.seq)) := by
  unfold execGkill
  simp only [hg, ht, Option.map_some, hl]

/-- GSAVE writes the group's record to the debug area (R349, R370). -/
theorem execGsave_group {u : State} {t : Team} {h : Group} (hdone : s.drainMany r true g.wcbuf.length = .done u)
    (ht : u.team? r.team = some t) (hh : u.grp? r = some h) : execGsave c id s =
      .next (u.physWrite (u.debugArea c) (h.record t.kern u.core false fun _ l => l.pc)) := by
  unfold execGsave
  simp only [hg, hdone, ht, hh]

section
variable {t : Team} (ht : s.team? r.team = some t)
include ht

/-- GLOAD takes the record of the debug area where it fits the launch (R370). -/
theorem execGload_unfit (hbad : loadFits t.kern (fun o n => s.natAt (s.debugArea c + o) n) = false) :
    execGload c id s = .next (s.setErr c) := by
  unfold execGload
  simp only [hg, ht, hbad, Bool.not_false, if_true]

theorem execGload_fits (hfits : loadFits t.kern (fun o n => s.natAt (s.debugArea c + o) n) = true) :
    let u := s.modGrp r fun g => g.ofRecord t.kern (fun o n => s.natAt (s.debugArea c + o) n)
      fun va => match s.translate c .part va .w with | .ok l => some (l.pa / 128) | _ => none
    execGload c id s = .next (match s.savedField r 0 with
      | some a => u.writeBytes (located a (s.bytesAt (s.debugArea c) t.kern.groupSize))
      | none => u) := by
  intro u
  unfold execGload
  simp only [hg, ht, hfits, Bool.not_true, Bool.false_eq_true, if_false] <;> rfl

end

end

/-! ### Answers to a stop of a chain, or to none -/

section
variable {s : State} {c id : Nat} (hg : s.stoppedGroup c id = none)
include hg

section
variable {k : Nat} {ch : Chain} {x : ChainStop} (hc : s.stoppedChain c id = some (k, ch, x))
include hc

theorem execGresume_chain : execGresume c id s = .next (if ch.engine = 9 ∧ x.detail = 0x50 then s.setErr c
    else s.modChain k fun c => { c with stop := none }) := by
  unfold execGresume
  simp only [hg, hc, Bool.and_eq_true, decide_eq_true_eq]
  exact (apply_ite Host.Outcome.next _ _ _).symm

/-- GKILL of a COPY packet's job abandons the packet (R363, R429). -/
theorem execGkill_packet {p : CopyPacket} (hp : ch.packet = some p) : execGkill c id s =
    .next (((s.dropChain k).abandon p.thread p.seq).faultEnded p.thread p.seq ch.ccb.toNat) := by
  unfold execGkill
  simp only [hg, hc, hp]

/-- GKILL of an engine chain faults the queue that its card came from (R363). -/
theorem execGkill_chain (hp : ch.packet = none) : execGkill c id s =
    .next (((if x.onlyWrite = true then s.passHead ch else s).dropChain k).faultOrigin ch) := by
  unfold execGkill
  simp only [hg, hc, hp]

end

/-- Only groups are stepped, saved and loaded (R363, R367). -/
theorem execGstep_none : execGstep c id s = .next (s.setErr c) := by
  unfold execGstep
  simp only [hg]

theorem execGsave_none : execGsave c id s = .next (s.setErr c) := by
  unfold execGsave
  simp only [hg]

theorem execGload_none : execGload c id s = .next (s.setErr c) := by
  unfold execGload
  simp only [hg]

/-- A STOPID that names no stop sets ERR (R363). -/
theorem execGresume_none (hc : s.stoppedChain c id = none) : execGresume c id s = .next (s.setErr c) := by
  unfold execGresume
  simp only [hg, hc]

theorem execGkill_none (hc : s.stoppedChain c id = none) : execGkill c id s = .next (s.setErr c) := by
  unfold execGkill
  simp only [hg, hc]

end

/-! ### Fault records -/

/-- The oldest record goes to its ring with its number (R360, R361). -/
theorem execFaultRecordWrite_oldest {s : State} {b : List Byte} {rest : List (List Byte)} (hrecords : s.records = b :: rest)
    (hroom : s.ringRoom 0x200000 = true) : execFaultRecordWrite s = .next ({ s with records := rest }.putRecord 0x200000 64
      (b.take 0x3A ++ leBytes 2 ((s.reg 0x200010 0).toNat % 65536) ++ b.drop 0x3C)) := by
  unfold execFaultRecordWrite
  simp only [hrecords, hroom, Bool.not_true, Bool.false_eq_true, if_false]

/-! ### The BAR4 window -/

theorem located_fst (pa : Nat) (bs : List Byte) : (located pa bs).map Prod.fst = span pa bs.length :=
  List.map_fst_zip (span_length _ _).le

section
variable {s : State} {off : Nat}

section
variable {size : Nat} (hend : off + size ≤ 2 ^ s.bar4) (hfree : s.heldUp (s.windowAt off) size = false)
  (hplain : notifyPa (s.windowAt off) = false)
include hend hfree hplain

/-- A read through BAR4 gives the bytes, or poison where some line is in error or fenced (R346, R414, R417). -/
theorem execBar4Read_eq : execBar4Read off size s =
    .next (if ((span (s.windowAt off) size).any fun a => s.poison.contains (a / 128) || s.lineFenced (a / 128)) = true then
      s.emit .poisoned else s.emit (.data (s.bytesAt (s.windowAt off) size))) := by
  unfold execBar4Read
  simp only [Nat.not_lt.mpr hend, hfree, hplain, decide_false, Bool.or_self, Bool.false_eq_true, if_false]
  exact (apply_ite Host.Outcome.next _ _ _).symm

end

/-- A write through BAR4 reaches device memory, armed windows and the lines' homes (R346). -/
theorem execBar4Write_eq {data : List Byte} (hend : off + data.length ≤ 2 ^ s.bar4)
    (hfree : s.heldUp (s.windowAt off) data.length = false) (hplain : notifyPa (s.windowAt off) = false)
    (hfence : ∀ a, s.lineFenced a = false) : execBar4Write off data s =
      .next (((s.writeBytes (located (s.windowAt off) data)).absorb (span (s.windowAt off) data.length)).atHomes
        ((span (s.windowAt off) data.length).map (· / 128)).eraseDups) := by
  have hkeep : ((located (s.windowAt off) data).filter fun p => !s.lineFenced (p.1 / 128)) = located (s.windowAt off) data :=
    List.filter_eq_self.mpr fun p _ => by rw [hfence]; rfl
  have hlines : (located (s.windowAt off) data).map (fun p => p.1 / 128) =
      (span (s.windowAt off) data.length).map (· / 128) := by
    rw [← located_fst, List.map_map]
    rfl
  unfold execBar4Write
  simp only [Nat.not_lt.mpr hend, hfree, hplain, hkeep, hlines, located_fst, decide_false, Bool.or_self,
    Bool.false_eq_true, if_false]

end

end Sys2Proof.Machine

/-! SUPPORT. User interrupts that the driver posts (R364, R365): UIP in group 0 of a context's teams. -/

namespace Sys2Proof.Machine

open Sys2Proof

/-- The bytes that a read of a map finds are an entry of it. -/
theorem mem_of_aget {α : Type} : ∀ {m : AMap α} {k : Nat} {v : α}, aget m k = some v → (k, v) ∈ m
  | (j, w) :: m, k, v, h => by
    unfold aget at h
    split at h
    · next hkey => exact hkey ▸ Option.some.inj h ▸ List.mem_cons_self
    · exact List.mem_cons_of_mem _ (mem_of_aget h)

/-- What places a team's record in memory, and whether it has ended. -/
def Team.header (t : Team) : Nat × Option Nat × Place × Nat × Kernel := (t.ctx, t.endedAt, t.place, t.pool, t.kern)

/-- What a post of user interrupts can change of a team, beside what places it: UIP of group 0. -/
def Team.post (t : Team) : (Nat × Option Nat × Place × Nat × Kernel) × Option Bool := (t.header, t.groups[0]?.map Group.uip)

theorem Team.post_conflictAt (t : Team) (lines : List Nat) : (t.conflictAt lines).post = t.post := by
  unfold Team.conflictAt
  split
  · unfold Team.post
    rw [List.getElem?_map, Option.map_map]
    rfl
  · rfl

theorem post_writeBytes (s : State) (ws : List (Nat × Byte)) (n : Nat) :
    ((s.writeBytes ws).team? n).map Team.post = (s.team? n).map Team.post := by
  unfold State.writeBytes State.seen
  split
  · rw [State.team?_conflictAt, Option.map_map]
    exact congrArg (Option.map · _) (funext fun t => t.post_conflictAt _)
  · rfl

/-- A post reaches group 0 of its team alone. -/
theorem post_postUip (s : State) (n k : Nat) : ((s.postUip n).team? k).map Team.post =
    ((s.team? k).map Team.post).map fun x => if k = n then (x.1, x.2.map fun _ => true) else x := by
  have hmod : ((s.modGrp { team := n, grp := 0 } fun g => { g with uip := true }).team? k).map Team.post =
      ((s.team? k).map Team.post).map fun x => if k = n then (x.1, x.2.map fun _ => true) else x := by
    unfold State.modGrp
    rw [State.team?_modTeam]
    by_cases hk : k = n
    · subst hk
      cases s.team? k with
      | none => simp only [if_true, Option.map_none]
      | some t =>
        simp only [if_true, Option.map_some, Team.post, Team.modGrp, getElem?_modAt_same, Option.map_map]
        rfl
    · simp only [hk, if_false, Option.map_id']
  unfold State.postUip
  dsimp only
  split
  · exact (post_writeBytes _ _ k).trans hmod
  · exact hmod

/-- Posts to some teams: each of them is reached, and no other. -/
theorem post_foldl_postUip : ∀ (ns : List Nat) (s : State) (k : Nat), ((ns.foldl State.postUip s).team? k).map Team.post =
    ((s.team? k).map Team.post).map fun x => if k ∈ ns then (x.1, x.2.map fun _ => true) else x
  | [], s, k => by
    simp only [List.foldl_nil, List.not_mem_nil, if_false]
    exact (congrFun Option.map_id _).symm
  | n :: ns, s, k => by
    rw [List.foldl_cons, post_foldl_postUip ns, post_postUip, Option.map_map]
    refine congrArg (Option.map · _) (funext fun x => ?_)
    by_cases hn : k = n <;> by_cases hns : k ∈ ns <;> simp [hn, hns]

theorem ctxs_postUip (s : State) (n : Nat) : (s.postUip n).ctxs = s.ctxs := by
  unfold State.postUip
  dsimp only
  split
  · exact (writeBytes_written _ _).ctxs
  · rfl

/-- A saved group's record stays where its team's record is. -/
theorem savedField_congr {s t : State} {r : GRef} (hctxs : t.ctxs = s.ctxs)
    (hteam : (t.team? r.team).map Team.header = (s.team? r.team).map Team.header) (o : Nat) :
    t.savedField r o = s.savedField r o := by
  unfold State.savedField State.ctx?
  cases hs : s.team? r.team with
  | none =>
    rw [hs] at hteam
    rw [Option.map_eq_none_iff.mp hteam]
  | some x =>
    rw [hs] at hteam
    obtain ⟨y, hy, hhead⟩ := Option.map_eq_some_iff.mp hteam
    simp only [Team.header, Prod.mk.injEq] at hhead
    obtain ⟨hctx, -, hplace, hpool, hkern⟩ := hhead
    simp only [hy, hctx, hplace, hpool, hkern, hctxs]

theorem savedField_postUip (s : State) (n : Nat) (r : GRef) (o : Nat) : (s.postUip n).savedField r o = s.savedField r o := by
  refine savedField_congr (ctxs_postUip s n) ?_ o
  have hpost := congrArg (Option.map Prod.fst) (post_postUip s n r.team)
  simp only [Option.map_map] at hpost
  refine Eq.trans hpost (congrArg (Option.map · _) (funext fun t => ?_))
  simp only [Function.comp]
  split <;> rfl

/-- A post to teams of which none is saved leaves memory as it was. -/
theorem foldl_postUip_mem : ∀ (ns : List Nat) (s : State),
    (∀ n ∈ ns, s.savedField { team := n, grp := 0 } 0x32 = none) → (ns.foldl State.postUip s).mem = s.mem
  | [], _, _ => rfl
  | n :: ns, s, h => by
    obtain ⟨hfirst, hrest⟩ := List.forall_mem_cons.mp h
    have hmem : (s.postUip n).mem = s.mem := by
      unfold State.postUip
      simp only [hfirst]
      rfl
    rw [List.foldl_cons, foldl_postUip_mem ns _ fun k hk => (savedField_postUip s n _ _).trans (hrest k hk), hmem]

/-- The teams of a context that have not ended, which a post reaches (R365). -/
def State.posted (s : State) (c : Nat) : List Nat := (s.teams.filter fun p => p.2.ctx == c && p.2.endedAt.isNone).map Prod.fst

theorem mem_posted {s : State} {c n : Nat} {t : Team} (ht : s.team? n = some t) (hctx : t.ctx = c) (hlive : t.endedAt = none) :
    n ∈ s.posted c :=
  List.mem_map_of_mem (f := Prod.fst) (List.mem_filter.mpr ⟨mem_of_aget ht, by simp [hctx, hlive]⟩)

/-- After a post every team of the context that has not ended has UIP set in its group 0 (R365). -/
theorem foldl_postUip_uip {s : State} {c n : Nat} {t : Team} {g : Group}
    (ht : ((s.posted c).foldl State.postUip s).team? n = some t) (hctx : t.ctx = c) (hlive : t.endedAt = none) (hg : t.groups[0]? = some g) : g.uip = true := by
  have hpost := post_foldl_postUip (s.posted c) s n
  rw [ht] at hpost
  cases hs : s.team? n with
  | none => rw [hs] at hpost; cases hpost
  | some x =>
    rw [hs] at hpost
    simp only [Option.map_some, Option.some.injEq] at hpost
    have hhead : t.header = x.header := (congrArg Prod.fst hpost).trans (by split <;> rfl)
    simp only [Team.header, Prod.mk.injEq] at hhead
    obtain ⟨hxctx, hxlive, -⟩ := hhead
    rw [if_pos (mem_posted hs (hxctx ▸ hctx) (hxlive ▸ hlive))] at hpost
    have huip := congrArg Prod.snd hpost
    simp only [Team.post, hg, Option.map_some] at huip
    obtain ⟨b, -, hb⟩ := Option.map_eq_some_iff.mp huip.symm
    exact hb.symm

/-- UIPOST sets a bit of the context's mailbox, and tells its teams where it asks for interrupts (R364, R365). -/
theorem execUipost_eq {s : State} {value : DWord} {x : Ctx} (hx : s.ctx? (bits64 value 54 10) = some x) :
    let c := bits64 value 54 10
    let va := x.uimbox.toNat
    let u := s.partPut c .part va 8 (s.partNat c .part va 8 ||| 2 ^ bits64 value 0 6)
    s.partWait c .part [(va, 8, false), (va, 8, true)] = none →
      execUipost value s = .next (if x.uivec = 0 then u else (u.posted c).foldl State.postUip u) := by
  intro c va u hwait
  unfold execUipost State.posted
  simp only [hx, List.foldl_map]
  simp only [c, va] at hwait
  rw [hwait]

end Sys2Proof.Machine

/-! SUPPORT. KILL of a context (R363, R407): what each part of it ends, and what it leaves. -/

namespace Sys2Proof.Machine

open Sys2Proof

/-! ### Entries that go in turn -/

theorem ne_of_aget_none {α : Type} : ∀ {m : AMap α} {k : Nat} {p : Nat × α}, aget m k = none → p ∈ m → p.1 ≠ k
  | (j, x) :: m, k, p, h, hp => by
    unfold aget at h
    split at h
    · cases h
    · next hne =>
      rcases List.mem_cons.mp hp with rfl | hrest
      · exact hne
      · exact ne_of_aget_none h hrest

theorem not_mem_adel {α : Type} : ∀ {m : AMap α} {k : Nat} {p : Nat × α}, p ∈ adel m k → p.1 ≠ k
  | (j, x) :: m, k, p, h => by
    unfold adel at h
    split at h
    · exact not_mem_adel h
    · next hne =>
      rcases List.mem_cons.mp h with rfl | hrest
      · exact hne
      · exact not_mem_adel hrest

/-- A fold of removals leaves only entries whose keys were not among those removed. -/
theorem mem_foldl_removal {α : Type} {f : State → Nat → State} {m : State → AMap α}
    (hf : ∀ s n p, p ∈ m (f s n) → p ∈ m s ∧ p.1 ≠ n) {p : Nat × α} :
    ∀ {ns : List Nat} {s : State}, p ∈ m (ns.foldl f s) → p ∈ m s ∧ p.1 ∉ ns
  | [], _, h => ⟨h, List.not_mem_nil⟩
  | n :: ns, s, h => by
    obtain ⟨hstep, hrest⟩ := mem_foldl_removal hf (ns := ns) (s := f s n) h
    obtain ⟨hold, hne⟩ := hf s n p hstep
    exact ⟨hold, List.not_mem_cons_of_ne_of_not_mem hne hrest⟩

/-- After the entries of some kind were removed by their keys, none of that kind is left. -/
theorem foldl_removal_none {α : Type} {f : State → Nat → State} {m : State → AMap α}
    (hf : ∀ s n p, p ∈ m (f s n) → p ∈ m s ∧ p.1 ≠ n) {s : State} {b : α → Bool} {p : Nat × α}
    (hp : p ∈ m ((((m s).filter fun p => b p.2).map Prod.fst).foldl f s)) : b p.2 = false := by
  obtain ⟨hold, hgone⟩ := mem_foldl_removal hf hp
  exact Bool.eq_false_iff.mpr fun hb => hgone (List.mem_map_of_mem (List.mem_filter.mpr ⟨hold, hb⟩))

/-! ### What the end of a job, a record or a save leaves -/

/-- The same contexts are active. -/
def SameCtxs (s t : State) : Prop := ∀ c, (t.ctx? c).isSome = (s.ctx? c).isSome

theorem SameCtxs.refl (s : State) : SameCtxs s s := fun _ => rfl

theorem SameCtxs.trans {s t u : State} (h : SameCtxs s t) (k : SameCtxs t u) : SameCtxs s u := fun c => (k c).trans (h c)

theorem SameCtxs.of_eq {s t : State} (h : t.ctxs = s.ctxs) : SameCtxs s t := fun c =>
  congrArg (fun m : AMap Ctx => (aget m c).isSome) h

theorem SameCtxs.fold {α : Type} {f : State → α → State} (h : ∀ s a, SameCtxs s (f s a)) :
    ∀ (l : List α) (s : State), SameCtxs s (l.foldl f s)
  | [], s => .refl s
  | a :: l, s => (h s a).trans (SameCtxs.fold h l _)

theorem modCtx_sameCtxs (s : State) (c : Nat) (f : Ctx → Ctx) : SameCtxs s (s.modCtx c f) := fun k => by
  rw [State.ctx?_modCtx]
  split
  · next hk => rw [Option.isSome_map, hk]
  · rfl

/-- Queues and launches are the same, and the same contexts are active. -/
structure SameWork (s t : State) : Prop where
  threads : t.threads = s.threads
  launches : t.launches = s.launches
  ctxs : SameCtxs s t

theorem SameWork.refl (s : State) : SameWork s s := ⟨rfl, rfl, .refl s⟩

theorem SameWork.trans {s t u : State} (h : SameWork s t) (k : SameWork t u) : SameWork s u :=
  ⟨k.threads.trans h.threads, k.launches.trans h.launches, h.ctxs.trans k.ctxs⟩

theorem SameWork.fold {α : Type} {f : State → α → State} (h : ∀ s a, SameWork s (f s a)) :
    ∀ (l : List α) (s : State), SameWork s (l.foldl f s)
  | [], s => .refl s
  | a :: l, s => (h s a).trans (SameWork.fold h l _)

theorem modCtx_work (s : State) (c : Nat) (f : Ctx → Ctx) : SameWork s (s.modCtx c f) := ⟨rfl, rfl, modCtx_sameCtxs s c f⟩

theorem withCoh_work (s : State) (c : Coh) : SameWork s { s with coh := c } := ⟨rfl, rfl, .refl s⟩

theorem modTeam_work (s : State) (n : Nat) (f : Team → Team) : SameWork s (s.modTeam n f) := ⟨rfl, rfl, .refl s⟩

theorem setReg_work (s : State) (o : Nat) (v : DWord) : SameWork s (s.setReg o v) := ⟨rfl, rfl, .refl s⟩

theorem OnlyWrites.work {s t : State} (h : OnlyWrites s t) : SameWork s t := ⟨h.threads, h.launches, .of_eq h.ctxs⟩

theorem interrupt_work (s : State) (v : Nat) : SameWork s (s.interrupt v) :=
  ⟨s.interrupt_threads v, s.interrupt_launches v, .of_eq (s.interrupt_ctxs v)⟩

theorem answer_work (s : State) (k : Nat) : SameWork s (s.answer k) := by
  unfold State.answer
  split
  · exact .refl s
  · dsimp only
    rw [foldl_emit]
    exact ⟨rfl, rfl, .refl s⟩

theorem returnHalves_work (s : State) (line : Nat) : SameWork s (s.returnHalves line) := by
  refine SameWork.fold (fun s h => ?_) _ s
  split
  · exact ⟨rfl, rfl, .refl s⟩
  · exact .refl s

theorem evictHost_work (s : State) (sid line : Nat) : SameWork s (s.evictHost sid line) := by
  unfold State.evictHost
  dsimp only
  split
  · exact ⟨rfl, rfl, .refl s⟩
  · exact (withCoh_work s _).trans (returnHalves_work _ line)

theorem evict_work (s : State) (sid line : Nat) : SameWork s (s.evict sid line) := by
  unfold State.evict
  dsimp only
  split
  · exact evictHost_work s sid line
  · split
    · exact ⟨rfl, rfl, .refl s⟩
    · split
      · exact .refl s
      · exact ⟨rfl, rfl, .refl s⟩

theorem passOn_work (s : State) (sid line : Nat) : SameWork s (s.passOn sid line) := by
  unfold State.passOn
  split
  · split
    · exact answer_work s _
    · exact .refl s
  · split
    · exact evict_work s sid line
    · exact .refl s

theorem dropRecs_work (s : State) (c : Nat) (j : Job) : SameWork s (s.dropRecs c j) :=
  SameWork.fold (fun s _ => modCtx_work s c _) j.recs s

theorem landed_work (s : State) (j : Job) : SameWork s (s.landed j) :=
  SameWork.fold (fun s t => modTeam_work s t _) j.aimed s

theorem dropJob_work (s : State) (k : Nat) : SameWork s (s.dropJob k) := by
  unfold State.dropJob
  split
  · exact .refl s
  · next c _ =>
    split
    · exact .refl s
    · next j _ =>
      have hend : SameWork s (s.modChain k fun c => { c with job := none }) := ⟨rfl, rfl, .refl s⟩
      exact ((hend.trans (landed_work _ j)).trans (dropRecs_work _ c.ctx j)).trans
        (SameWork.fold (fun s n => passOn_work s _ n) j.owned _)

theorem dropChain_work (s : State) (k : Nat) : SameWork s (s.dropChain k) :=
  (dropJob_work s k).trans ⟨rfl, rfl, .refl _⟩

theorem dropChains_work (s : State) (f : Chain → Bool) : SameWork s (s.dropChains f) :=
  SameWork.fold (fun s (p : Nat × Chain) => dropChain_work s p.1) _ s

theorem putRecord_work (s : State) (o size : Nat) (b : List Byte) : SameWork s (s.putRecord o size b) :=
  ((writeBytes_written s _).work.trans (setReg_work _ _ _)).trans (interrupt_work _ _)

theorem putPhase_work (s : State) (seq : DWord) (phase : Nat) (p : PhaseCount) : SameWork s (s.putPhase seq phase p) := by
  unfold State.putPhase
  dsimp only
  split
  · exact ⟨rfl, rfl, .refl s⟩
  · split
    · exact putRecord_work s _ _ _
    · exact ⟨rfl, rfl, .refl s⟩

theorem settleSave_work (s : State) (c : Nat) : SameWork s (s.settleSave c) := by
  unfold State.settleSave
  split
  · exact .refl s
  · dsimp only
    split
    · exact (modCtx_work s c _).trans (interrupt_work _ _)
    · exact .refl s

/-! ### The end of chains and of launches -/

theorem mem_dropChain (s : State) (k : Nat) (p : Nat × Chain) (h : p ∈ (s.dropChain k).chains) : p ∈ s.chains ∧ p.1 ≠ k :=
  ⟨mem_adel h, not_mem_adel h⟩

theorem dropChains_none {s : State} {f : Chain → Bool} {p : Nat × Chain} (h : p ∈ (s.dropChains f).chains) :
    f p.2 = false := by
  unfold State.dropChains at h
  rw [← List.foldl_map (f := Prod.fst) (g := State.dropChain)] at h
  exact foldl_removal_none (m := State.chains) mem_dropChain h

/-- The end of a phase counts it at its launch (R424). -/
theorem endPhase_work {s : State} {n : Nat} {l : Launch} (hl : aget s.launches n = some l) :
    (s.endPhase n).threads = s.threads ∧ SameCtxs s (s.endPhase n) ∧
    (s.endPhase n).launches = amod s.launches n fun l => { l with phase := l.phase + 1 } := by
  have hput : SameWork s (if s.watched n then
      (s.fleet.phases.filter fun p => p.launch == n).foldl (fun s p => s.putPhase l.seq l.phase p) s else s) := by
    split
    · exact SameWork.fold (fun s p => putPhase_work s _ _ p) _ s
    · exact .refl s
  unfold State.endPhase
  simp only [hl]
  exact ⟨hput.threads, hput.ctxs, by rw [hput.launches]⟩

/-- A packet that will not complete, as its queue has it from then on (R327). -/
def Qcp.abandon (q : Qcp) (seq : DWord) : Qcp :=
  { q with packets := q.packets.map fun x => if x.seq = seq && !x.done then { x with abandoned := true } else x }

theorem abandon_threads (s : State) (t : Nat) (seq : DWord) :
    (s.abandon t seq).threads = amod s.threads t fun q => q.abandon seq := rfl

/-- What the end of a launch leaves: its queue abandons its packet and loses its predictions, and it is gone (R363). -/
theorem endLaunch_leaves {s : State} {n : Nat} {l : Launch} (hl : aget s.launches n = some l) :
    (s.endLaunch n).threads = amod (amod s.threads l.thread fun q => q.abandon l.seq) l.thread
      (fun q => { q with preds := q.preds.filter fun p => p.launch != n }) ∧
    SameCtxs s (s.endLaunch n) ∧
    (s.endLaunch n).launches = adel (amod s.launches n fun l => { l with phase := l.phase + 1 }) n := by
  obtain ⟨hthreads, hctxs, hlaunches⟩ := endPhase_work hl
  unfold State.endLaunch
  simp only [hl]
  have hchains := dropChains_work (s.endPhase n) fun c =>
    c.bound.any (((s.endPhase n).teams.filter fun p => p.2.launch == n).map Prod.fst).contains
  refine ⟨(settleSave_work _ _).threads.trans ?_, (hctxs.trans hchains.ctxs).trans
    (SameCtxs.trans (.refl _) (settleSave_work _ _).ctxs), (settleSave_work _ _).launches.trans ?_⟩
  · show amod (amod (State.threads _) _ _) _ _ = _
    rw [← hthreads, ← hchains.threads]
    rfl
  · rw [← hlaunches, ← hchains.launches]
    rfl

theorem mem_endLaunch (s : State) (n : Nat) (p : Nat × Launch) (h : p ∈ (s.endLaunch n).launches) :
    p ∈ s.launches ∧ p.1 ≠ n := by
  cases hl : aget s.launches n with
  | none =>
    have hsame : s.endLaunch n = s := by
      unfold State.endLaunch
      rw [hl]
    rw [hsame] at h
    exact ⟨h, ne_of_aget_none hl h⟩
  | some l =>
    rw [(endLaunch_leaves hl).2.2] at h
    have hne := not_mem_adel h
    have hmod := mem_adel h
    rw [amod_some hl] at hmod
    exact ⟨(mem_aset hmod).resolve_left fun he => hne (he ▸ rfl), hne⟩

/-! ### One queue -/

/-- Other queues are as they were, and the same contexts are active. -/
structure OnlyQueue (n : Nat) (s t : State) : Prop where
  others : ∀ k, k ≠ n → t.qcp? k = s.qcp? k
  ctxs : SameCtxs s t

theorem OnlyQueue.refl (n : Nat) (s : State) : OnlyQueue n s s := ⟨fun _ _ => rfl, .refl s⟩

theorem OnlyQueue.trans {n : Nat} {s t u : State} (h : OnlyQueue n s t) (k : OnlyQueue n t u) : OnlyQueue n s u :=
  ⟨fun i hi => (k.others i hi).trans (h.others i hi), h.ctxs.trans k.ctxs⟩

theorem OnlyQueue.fold {α : Type} {n : Nat} {f : State → α → State} (h : ∀ s a, OnlyQueue n s (f s a)) :
    ∀ (l : List α) (s : State), OnlyQueue n s (l.foldl f s)
  | [], s => .refl n s
  | a :: l, s => (h s a).trans (OnlyQueue.fold h l _)

theorem SameWork.onlyQueue {s t : State} (h : SameWork s t) (n : Nat) : OnlyQueue n s t :=
  ⟨fun k _ => congrArg (fun m : AMap Qcp => aget m k) h.threads, h.ctxs⟩

theorem modQ_onlyQueue (s : State) (n : Nat) (f : Qcp → Qcp) : OnlyQueue n s (s.modQ n f) :=
  ⟨fun k hk => by rw [State.qcp?_modQ, if_neg hk], .refl s⟩

theorem withTable_work (s : State) (is : List Interval) : SameWork s { s with table := is } := ⟨rfl, rfl, .refl s⟩

theorem abandon_onlyQueue (s : State) (n : Nat) (seq : DWord) : OnlyQueue n s (s.abandon n seq) :=
  ((withTable_work s _).onlyQueue n).trans (modQ_onlyQueue (s.release n seq) n _)

theorem leaveTable_onlyQueue (s : State) (n : Nat) : OnlyQueue n s (s.leaveTable n) := by
  unfold State.leaveTable
  split
  · split
    · exact ((withTable_work s _).onlyQueue n).trans (modQ_onlyQueue _ n _)
    · exact .refl n s
  · exact .refl n s

theorem refute_onlyQueue (s : State) (n : Nat) (st : PState) : OnlyQueue n s (s.refute n st) := by
  cases hq : s.qcp? n with
  | none =>
    unfold State.refute
    rw [hq]
    exact .refl n s
  | some q =>
    have hthread : aget s.threads n = some q := hq
    rw [refute_eq hq]
    unfold State.discardPreds
    simp only [hthread]
    exact ⟨fun k hk => aget_aset_other _ n k _ hk, .refl s⟩

theorem forgetDenied_work (s : State) (c : Nat) (p : Agent → Bool) : SameWork s (s.forgetDenied c p) := modCtx_work s c _

theorem record_work (s : State) (r : FaultInfo) : SameWork s (s.record r) := ⟨rfl, rfl, .refl s⟩

theorem faultQueue_onlyQueue (s : State) (n code detail : Nat) (seq : DWord) (pc addr : Nat) :
    OnlyQueue n s (s.faultQueue n code detail seq pc addr) := by
  unfold State.faultQueue
  split
  · exact .refl n s
  · next q _ =>
    refine .trans ?_ ((record_work _ _).onlyQueue n)
    refine .trans ?_ (modQ_onlyQueue _ n _)
    refine .trans ?_ ((forgetDenied_work _ q.ctx _).onlyQueue n)
    refine .trans ?_ (leaveTable_onlyQueue _ n)
    split
    · exact refute_onlyQueue s n .paused
    · exact .refl n s

theorem faultEnded_onlyQueue (s : State) (n : Nat) (seq : DWord) (pc : Nat) : OnlyQueue n s (s.faultEnded n seq pc) := by
  unfold State.faultEnded
  split
  · split
    · exact .refl n s
    · exact faultQueue_onlyQueue ..
  · exact .refl n s

theorem killQueue_onlyQueue (s : State) (n : Nat) : OnlyQueue n s (s.killQueue n) := by
  unfold State.killQueue
  split
  · exact .refl n s
  · next q _ =>
    refine .trans ?_ (faultEnded_onlyQueue _ n _ _)
    refine .trans ?_ (OnlyQueue.fold (fun s (p : Packet) => abandon_onlyQueue s n p.seq) q.packets _)
    split
    · exact .refl n s
    · exact refute_onlyQueue s n .paused

/-! ### A killed queue -/

/-- A packet has completed, or never will. -/
def Packet.over (p : Packet) : Prop := p.done = true ∨ p.abandoned = true

/-- No prediction of the queue is open. -/
def Qcp.settled (q : Qcp) : Prop := ∀ p ∈ q.preds, p.confirmed = true

/-- What KILL makes of a queue (R363). -/
structure Qcp.Killed (q : Qcp) : Prop where
  faulted : q.state = .faulted
  fault : q.qfault = BitVec.ofNat 64 (0x0120 * 2 ^ 16 + fltEngine)
  settled : q.settled
  packets : ∀ p ∈ q.packets, p.over

/-- Confirmed predictions are none of the open ones. -/
theorem Qcp.settled.drop {q : Qcp} (h : q.settled) : q.preds.drop q.firstOpen = [] := by
  unfold Qcp.firstOpen
  rw [List.takeWhile_eq_self_iff.mpr h, List.drop_length]

theorem Qcp.settled_of_drop {q : Qcp} (h : q.preds.drop q.firstOpen = []) : q.settled := fun p hp => by
  have htake : q.preds.takeWhile Prediction.confirmed = q.preds :=
    (List.takeWhile_prefix _).eq_of_length_le (List.drop_eq_nil_iff.mp h)
  exact List.mem_takeWhile_imp (htake.symm ▸ hp)

/-- The predictions before the first open one are confirmed. -/
theorem take_firstOpen_confirmed {q : Qcp} {p : Prediction} (hp : p ∈ q.preds.take q.firstOpen) : p.confirmed = true := by
  have htake : q.preds.takeWhile Prediction.confirmed = q.preds.take q.firstOpen :=
    List.prefix_iff_eq_take.mp (List.takeWhile_prefix _)
  exact List.mem_takeWhile_imp (htake.symm ▸ hp)

theorem Qcp.mem_abandon {q : Qcp} {seq : DWord} {p : Packet} (hp : p ∈ (q.abandon seq).packets) :
    ∃ x ∈ q.packets, p.seq = x.seq ∧ (x.over → p.over) ∧ (x.seq = seq → p.over) := by
  obtain ⟨x, hx, rfl⟩ := List.mem_map.mp hp
  refine ⟨x, hx, ?_, ?_, ?_⟩ <;> split
  · rfl
  · rfl
  · exact fun _ => .inr rfl
  · exact id
  · exact fun _ => .inr rfl
  · next hne =>
    intro hseq
    exact .inl (by simpa [hseq] using hne)

theorem Qcp.Killed.abandon {q : Qcp} (h : q.Killed) (seq : DWord) : (q.abandon seq).Killed :=
  ⟨h.faulted, h.fault, h.settled, fun _ hp =>
    let ⟨x, hx, _, hover, _⟩ := Qcp.mem_abandon hp
    hover (h.packets x hx)⟩

theorem Qcp.Killed.filterPreds {q : Qcp} (h : q.Killed) (b : Prediction → Bool) : { q with preds := q.preds.filter b }.Killed :=
  ⟨h.faulted, h.fault, fun p hp => h.settled p (List.mem_filter.mp hp).1, h.packets⟩

/-- The packets of a queue that abandons some of them: each of those is over. -/
theorem mem_foldl_abandon : ∀ {seqs : List DWord} {q : Qcp} {p : Packet}, p ∈ (seqs.foldl Qcp.abandon q).packets →
    ∃ x ∈ q.packets, p.seq = x.seq ∧ (x.over → p.over) ∧ (x.seq ∈ seqs → p.over)
  | [], q, p, hp => ⟨p, hp, rfl, id, fun h => absurd h List.not_mem_nil⟩
  | seq :: seqs, q, p, hp => by
    obtain ⟨y, hy, hpy, hover, hmem⟩ := mem_foldl_abandon (seqs := seqs) (q := q.abandon seq) hp
    obtain ⟨x, hx, hyx, hover', hseq⟩ := Qcp.mem_abandon hy
    refine ⟨x, hx, hpy.trans hyx, hover ∘ hover', fun h => ?_⟩
    rcases List.mem_cons.mp h with hfirst | hrest
    · exact hover (hseq hfirst)
    · exact hmem (hyx ▸ hrest)

/-- A queue that abandons every packet is as before but for its packets. -/
theorem foldl_abandon_rest : ∀ (seqs : List DWord) (q : Qcp),
    ((seqs.foldl Qcp.abandon q).state, (seqs.foldl Qcp.abandon q).preds) = (q.state, q.preds)
  | [], _ => rfl
  | _ :: seqs, q => foldl_abandon_rest seqs (q.abandon _)

theorem foldl_abandon_qcp? {n : Nat} : ∀ {seqs : List DWord} {s : State} {q : Qcp}, s.qcp? n = some q →
    (seqs.foldl (fun s x => s.abandon n x) s).qcp? n = some (seqs.foldl Qcp.abandon q)
  | [], _, _, h => h
  | seq :: seqs, s, _, h =>
    foldl_abandon_qcp? (seqs := seqs) (modQ_qcp?_self (s := s.release n seq) h fun q => q.abandon seq)

section
variable {s : State} {n : Nat} {q : Qcp} (hq : s.qcp? n = some q)
include hq

theorem leaveTable_qcp?_self : ∃ v, (s.leaveTable n).qcp? n = some v ∧ v.preds = q.preds ∧ v.packets = q.packets := by
  unfold State.leaveTable
  simp only [hq]
  split
  · exact ⟨_, modQ_qcp?_self (s := { s with table := _ }) hq _, rfl, rfl⟩
  · exact ⟨q, hq, rfl, rfl⟩

/-- A queue without open predictions whose packets are all over is killed as it faults with an ended job's code (R318, R363). -/
theorem faultQueue_kills (hsettled : q.settled) (hover : ∀ p ∈ q.packets, p.over) (pc addr : Nat) :
    ∃ v, (s.faultQueue n fltEngine 0x0120 0 pc addr).qcp? n = some v ∧ v.Killed := by
  obtain ⟨r, hr, hrpreds, hrpackets⟩ : ∃ r,
      (if q.program.isSome && q.pstate != .paused then s.refute n .paused else s).qcp? n = some r ∧ (∀ p ∈ r.preds, p ∈ q.preds) ∧ r.packets = q.packets := by
    split
    · obtain ⟨g, hg⟩ := refute_thread hq .paused
      exact ⟨_, hg, fun _ => List.mem_of_mem_take, rfl⟩
    · exact ⟨q, hq, fun _ => id, rfl⟩
  obtain ⟨w, hw, hwpreds, hwpackets⟩ := leaveTable_qcp?_self hr
  unfold State.faultQueue
  simp only [hq]
  refine ⟨_, modQ_qcp?_self (s := State.forgetDenied _ q.ctx _) hw _, rfl, rfl, fun p hp => ?_, fun p hp => ?_⟩
  · exact hsettled p (hrpreds p (hwpreds ▸ hp))
  · exact hover p (hrpackets ▸ hwpackets ▸ hp)

/-- KILL of a mapped queue (R363). -/
theorem killQueue_kills (hmapped : q.state ≠ .unmapped) : ∃ v, (s.killQueue n).qcp? n = some v ∧ v.Killed := by
  obtain ⟨r, hr, hrstate, hrsettled, hrpackets⟩ : ∃ r,
      (if (q.preds.drop q.firstOpen).isEmpty then s else s.refute n .paused).qcp? n = some r ∧ r.state = q.state ∧ r.settled ∧
        r.packets = q.packets := by
    split
    · next hnone => exact ⟨q, hq, rfl, Qcp.settled_of_drop (List.isEmpty_iff.mp hnone), rfl⟩
    · obtain ⟨g, hg⟩ := refute_thread hq .paused
      exact ⟨_, hg, rfl, fun _ => take_firstOpen_confirmed, rfl⟩
  have hw := foldl_abandon_qcp? (seqs := q.packets.map Packet.seq) hr
  rw [List.foldl_map] at hw
  have hrest := foldl_abandon_rest (q.packets.map Packet.seq) r
  simp only [Prod.mk.injEq] at hrest
  obtain ⟨hstate, hpreds⟩ := hrest
  have hmap : (((q.packets.map Packet.seq).foldl Qcp.abandon r).state == .unmapped) = false := by
    rw [hstate, hrstate]
    exact beq_eq_false_iff_ne.mpr hmapped
  unfold State.killQueue
  simp only [hq]
  unfold State.faultEnded
  simp only [hw, hmap, Bool.false_eq_true, if_false]
  refine faultQueue_kills hw (fun p hp => hrsettled p (hpreds ▸ hp)) (fun p hp => ?_) _ _
  obtain ⟨x, hx, -, -, hover⟩ := mem_foldl_abandon hp
  exact hover (List.mem_map_of_mem (hrpackets ▸ hx))

end

/-! ### KILL -/

/-- The queue of a thread is killed. -/
def State.KilledAt (s : State) (n : Nat) : Prop := ∃ q, s.qcp? n = some q ∧ q.Killed

theorem SameWork.killedAt {s t : State} (h : SameWork s t) {n : Nat} (hs : s.KilledAt n) : t.KilledAt n :=
  let ⟨q, hq, hk⟩ := hs
  ⟨q, (congrArg (fun m : AMap Qcp => aget m n) h.threads).trans hq, hk⟩

theorem killQueue_killedAt {s : State} {n : Nat} (h : s.KilledAt n) (k : Nat) : (s.killQueue k).KilledAt n := by
  obtain ⟨q, hq, hk⟩ := h
  by_cases hn : n = k
  · subst hn
    exact killQueue_kills hq (by rw [hk.faulted]; decide)
  · exact ⟨q, ((killQueue_onlyQueue s k).others n hn).trans hq, hk⟩

theorem foldl_killQueue_killedAt {n : Nat} : ∀ (ns : List Nat) {s : State}, s.KilledAt n →
    (ns.foldl State.killQueue s).KilledAt n
  | [], _, h => h
  | k :: ns, _, h => foldl_killQueue_killedAt ns (killQueue_killedAt h k)

/-- Every mapped queue among those killed in turn is killed. -/
theorem foldl_killQueue_kills {n : Nat} {ns : List Nat} {s : State} {q : Qcp} (hn : n ∈ ns) (hq : s.qcp? n = some q)
    (hmapped : q.state ≠ .unmapped) : (ns.foldl State.killQueue s).KilledAt n := by
  induction ns generalizing s with
  | nil => cases hn
  | cons k ns ih =>
    by_cases hk : n = k
    · subst hk
      exact foldl_killQueue_killedAt ns (killQueue_kills hq hmapped)
    · exact ih ((List.mem_cons.mp hn).resolve_left hk) (((killQueue_onlyQueue s k).others n hk).trans hq)

theorem endLaunch_killedAt {s : State} {n : Nat} (h : s.KilledAt n) (k : Nat) : (s.endLaunch k).KilledAt n := by
  cases hl : aget s.launches k with
  | none =>
    unfold State.endLaunch
    rw [hl]
    exact h
  | some l =>
    obtain ⟨q, hq, hk⟩ := h
    have hqcp : (s.endLaunch k).qcp? n = _ := congrArg (fun m : AMap Qcp => aget m n) (endLaunch_leaves hl).1
    unfold State.KilledAt
    rw [hqcp, aget_amod, aget_amod, aget_amod, if_pos rfl]
    by_cases hn : n = l.thread
    · subst hn
      have hthread : aget s.threads l.thread = some q := hq
      rw [if_pos rfl, hthread]
      exact ⟨_, rfl, (hk.abandon l.seq).filterPreds _⟩
    · rw [if_neg hn, if_neg hn]
      exact ⟨q, hq, hk⟩

theorem foldl_endLaunch_killedAt {n : Nat} : ∀ (ks : List Nat) {s : State}, s.KilledAt n →
    (ks.foldl State.endLaunch s).KilledAt n
  | [], _, h => h
  | k :: ks, _, h => foldl_endLaunch_killedAt ks (endLaunch_killedAt h k)

theorem endLaunch_sameCtxs (s : State) (n : Nat) : SameCtxs s (s.endLaunch n) := by
  cases hl : aget s.launches n with
  | none =>
    unfold State.endLaunch
    rw [hl]
    exact .refl s
  | some l => exact (endLaunch_leaves hl).2.1

/-- A context that KILL has emptied: its queues, launches and chains (R363). -/
def State.emptied (s : State) (c : Nat) : State :=
  let u := ((s.threads.filter fun p => p.2.ctx == c && p.2.state != .unmapped).map Prod.fst).foldl State.killQueue s
  (((u.launches.filter fun p => p.2.ctx == c).map Prod.fst).foldl State.endLaunch u).dropChains fun x => x.ctx == c

theorem emptied_sameCtxs (s : State) (c : Nat) : SameCtxs s (s.emptied c) :=
  ((SameCtxs.fold (fun s n => (killQueue_onlyQueue s n).ctxs) _ s).trans
    (SameCtxs.fold endLaunch_sameCtxs _ _)).trans (dropChains_work _ _).ctxs

theorem emptied_chains {s : State} {c : Nat} {p : Nat × Chain} (hp : p ∈ (s.emptied c).chains) : p.2.ctx ≠ c :=
  beq_eq_false_iff_ne.mp (dropChains_none (f := fun x => x.ctx == c) hp)

theorem emptied_launches {s : State} {c : Nat} {p : Nat × Launch} (hp : p ∈ (s.emptied c).launches) : p.2.ctx ≠ c := by
  unfold State.emptied at hp
  rw [(dropChains_work _ _).launches] at hp
  exact beq_eq_false_iff_ne.mp (foldl_removal_none (m := State.launches) (b := fun l => l.ctx == c) mem_endLaunch hp)

theorem emptied_killedAt {s : State} {c n : Nat} {q : Qcp} (hq : s.qcp? n = some q) (hctx : q.ctx = c)
    (hmapped : q.state ≠ .unmapped) : (s.emptied c).KilledAt n := by
  have hmem : n ∈ (s.threads.filter fun p => p.2.ctx == c && p.2.state != .unmapped).map Prod.fst :=
    List.mem_map_of_mem (f := Prod.fst) (List.mem_filter.mpr ⟨mem_of_aget hq, by simp [hctx, hmapped]⟩)
  exact (dropChains_work _ _).killedAt (foldl_endLaunch_killedAt _ (foldl_killQueue_kills hmem hq hmapped))

/-- A context that is emptied ends: its teams, its calls, the pages lent to them; it is KILLING (R363, R407). -/
def State.killCtx (w : State) (c : Nat) : State :=
  { w with
    teams := (w.teams.filter fun (p : Nat × Team) => !(p.2.ctx == c && p.2.place == Place.saved)).map fun (p : Nat × Team) =>
      if p.2.ctx == c && p.2.endedAt.isNone then (p.1, p.2.finish w.cycle) else p
    svc := w.svc.map fun (p : Nat × SvcQueue) =>
      if bits64 (w.reg (0x300000 + 0x100 * p.1 + 8) 0) 32 10 = c then (p.1, { p.2 with calls := [] }) else p
    lent := w.lent.map fun (d : Lent) => if d.ctx == c && !d.finished then { d with rword := none, finished := true } else d }.modCtx
      c fun x => { x with state := .killing, denied := [] }

/-- KILL ends all that a context has (R363, R407). -/
theorem execKill_eq {s : State} {c : Nat} {x : Ctx} (hx : s.ctx? c = some x) : execKill c s = .next ((s.emptied c).killCtx c) := by
  unfold execKill
  simp only [hx]
  rfl

theorem killCtx_state {w : State} {c : Nat} (h : (w.ctx? c).isSome = true) :
    ((w.killCtx c).ctx? c).map Ctx.state = some .killing := by
  have hctx : (w.killCtx c).ctx? c = (w.ctx? c).map fun x => { x with state := .killing, denied := [] } :=
    (State.ctx?_modCtx _ c c _).trans (if_pos rfl)
  obtain ⟨y, hy⟩ := Option.isSome_iff_exists.mp h
  rw [hctx, hy]
  rfl

theorem killCtx_teams {w : State} {c : Nat} {p : Nat × Team} (hp : p ∈ (w.killCtx c).teams) (hctx : p.2.ctx = c) :
    p.2.endedAt.isSome = true := by
  obtain ⟨q, -, rfl⟩ := List.mem_map.mp hp
  revert hctx
  split
  · exact fun _ => rfl
  · next hlive =>
    intro hctx
    simpa [hctx, Option.isSome_iff_ne_none] using hlive

theorem killCtx_lent {w : State} {c : Nat} {d : Lent} (hd : d ∈ (w.killCtx c).lent) (hctx : d.ctx = c) : d.finished = true := by
  obtain ⟨e, -, rfl⟩ := List.mem_map.mp hd
  revert hctx
  split
  · exact fun _ => rfl
  · next hlive =>
    intro hctx
    simpa [hctx] using hlive

/-- What is left of a context after KILL (R363, R407). -/
theorem execKill_ends {s : State} {c : Nat} {x : Ctx} (hx : s.ctx? c = some x) :
    ∃ u, execKill c s = .next u ∧ (u.ctx? c).map Ctx.state = some .killing ∧ (∀ p ∈ u.chains, p.2.ctx ≠ c) ∧
      (∀ p ∈ u.launches, p.2.ctx ≠ c) ∧ (∀ p ∈ u.teams, p.2.ctx = c → p.2.endedAt.isSome = true) ∧
      (∀ d ∈ u.lent, d.ctx = c → d.finished = true) ∧
      ∀ t q, s.qcp? t = some q → q.ctx = c → q.state ≠ .unmapped → ∃ v, u.qcp? t = some v ∧ v.Killed :=
  ⟨_, execKill_eq hx, killCtx_state ((emptied_sameCtxs s c c).trans (by rw [hx]; rfl)), fun _ => emptied_chains,
    fun _ => emptied_launches, fun _ => killCtx_teams, fun _ => killCtx_lent, fun _ _ => emptied_killedAt⟩

end Sys2Proof.Machine

/-! SUPPORT. Contexts and their commands: the statement. -/

namespace Sys2Proof.Machine

open Sys2Proof

/-- What KILL makes of a queue, as the statement writes it. -/
theorem Qcp.Killed.spelled {q : Qcp} (h : q.Killed) : q.state = .faulted ∧
    q.qfault = BitVec.ofNat 64 (0x0120 * 2 ^ 16 + fltEngine) ∧ q.preds.drop q.firstOpen = [] ∧
    ∀ p ∈ q.packets, p.done = true ∨ p.abandoned = true := ⟨h.faulted, h.fault, h.settled.drop, h.packets⟩

/-- Settles O49: each clause is the rule above for its command. -/
theorem contextCommands : Obligations.ContextCommands := by
  unfold Obligations.ContextCommands
  refine ⟨?activate, ?contexts, ?group, ?chain, ?record, ?uipost, ?read, ?write⟩
  case activate =>
    intro s c hc hnew b
    exact ⟨fun hran hok => (exec_contextActivate s ..).trans (execContextActivate_accepts hc hnew hran hok),
      fun hbad => (exec_contextActivate s ..).trans (execContextActivate_refuses hc hnew hbad)⟩
  case contexts =>
    intro s c x hx
    refine ⟨fun hqueues hteams => ?_, ?_, ?_, ?_, ?_⟩
    · have hfree := (exec_contextDeactivate s ..).trans (execContextDeactivate_free hx hqueues hteams)
      exact ⟨fun hparts => hfree.trans (if_pos hparts), fun hparts => hfree.trans (if_neg (not_not_intro hparts))⟩
    · intro ts fits
      exact ⟨fun hactive hfits => (exec_preempt s ..).trans (execPreempt_asks hx hactive hfits),
        fun hbad => (exec_preempt s ..).trans (execPreempt_refuses hx hbad)⟩
    · intro hsaved
      obtain ⟨u, hu, hafter⟩ := execResume_resumes hx hsaved
      exact ⟨u, (exec_resume s ..).trans hu, hafter⟩
    · exact fun hstate => (exec_resume s ..).trans (execResume_refuses hx hstate)
    · obtain ⟨u, hu, hstate, hchains, hlaunches, hteams, hlent, hqueues⟩ := execKill_ends hx
      refine ⟨u, (exec_kill s ..).trans hu, hstate, hchains, hlaunches, hteams, hlent, fun t q hq hctx hmapped => ?_⟩
      obtain ⟨v, hv, hkilled⟩ := hqueues t q hq hctx hmapped
      exact ⟨v, hv, hkilled.spelled⟩
  case group =>
    intro s c id r g x hg
    refine ⟨fun htimeout hfenced => ?_, fun hfinal => ?_, fun hstep hopen => ?_, fun hbusy => ?_, fun t l ht hl => ?_,
      fun u t h hdone ht hh => ?_, fun t ht => ?_⟩
    · have hgoes : ¬x.kind.final = true := fun h => ((final_iff x.kind).mp h).elim htimeout hfenced
      exact (exec_gresume s ..).trans ((execGresume_group hg).trans (congrArg Host.Outcome.next (if_neg hgoes)))
    · exact (exec_gresume s ..).trans
        ((execGresume_group hg).trans (congrArg Host.Outcome.next (if_pos ((final_iff x.kind).mpr hfinal))))
    · have hfree : ¬(g.step.isSome = true ∨ x.kind = .fenced) := by simp [hstep, hopen]
      exact (exec_gstep s ..).trans ((execGstep_group hg).trans (congrArg Host.Outcome.next (if_neg hfree)))
    · exact (exec_gstep s ..).trans ((execGstep_group hg).trans (congrArg Host.Outcome.next (if_pos hbusy)))
    · exact (exec_gkill s ..).trans (execGkill_group hg ht hl)
    · exact (exec_gsave s ..).trans (execGsave_group hg hdone ht hh)
    · intro rd paOf u
      refine ⟨fun hbad => (exec_gload s ..).trans (execGload_unfit hg ht hbad), fun hfits hnone => ?_, fun a hfits hsome => ?_⟩
      · have hload := (exec_gload s ..).trans (execGload_fits hg ht hfits)
        rw [hnone] at hload
        exact hload
      · have hload := (exec_gload s ..).trans (execGload_fits hg ht hfits)
        rw [hsome] at hload
        exact hload
  case chain =>
    intro s c id hg
    refine ⟨fun k ch x hc => ⟨?_, fun p hp => ?_, fun hp => ?_⟩, fun i hi => ?_, fun hc i hi => ?_⟩
    · exact (exec_gresume s ..).trans (execGresume_chain hg hc)
    · exact (exec_gkill s ..).trans (execGkill_packet hg hc hp)
    · exact (exec_gkill s ..).trans (execGkill_chain hg hc hp)
    · simp only [List.mem_cons, List.not_mem_nil, or_false] at hi
      rcases hi with rfl | rfl | rfl
      · exact (exec_gstep s ..).trans (execGstep_none hg)
      · exact (exec_gsave s ..).trans (execGsave_none hg)
      · exact (exec_gload s ..).trans (execGload_none hg)
    · simp only [List.mem_cons, List.not_mem_nil, or_false] at hi
      rcases hi with rfl | rfl
      · exact (exec_gresume s ..).trans (execGresume_none hg hc)
      · exact (exec_gkill s ..).trans (execGkill_none hg hc)
  case record =>
    intro s b rest hrecords hroom
    exact (exec_faultRecordWrite s).trans (execFaultRecordWrite_oldest hrecords hroom)
  case uipost =>
    intro s value x hx c va hwait u
    have hpost := (exec_uipost s ..).trans (execUipost_eq hx hwait)
    refine ⟨fun hvec => hpost.trans (congrArg Host.Outcome.next (if_pos hvec)), fun hvec =>
      ⟨_, hpost.trans (congrArg Host.Outcome.next (if_neg hvec)), fun hnone => ?_, fun n t g => foldl_postUip_uip⟩⟩
    refine foldl_postUip_mem _ _ fun n hn => ?_
    obtain ⟨p, hp, rfl⟩ := List.mem_map.mp hn
    exact hnone p (List.mem_filter.mp hp).1
  case read =>
    intro s off size hend pa hfree hplain
    have hread := (exec_bar4Read s ..).trans (execBar4Read_eq hend hfree hplain)
    refine ⟨fun hgood => hread.trans (congrArg Host.Outcome.next (if_neg ?_)), fun hbad =>
      hread.trans (congrArg Host.Outcome.next (if_pos ?_))⟩
    · refine Bool.eq_false_iff.mp (List.any_eq_false.mpr fun a ha => ?_)
      obtain ⟨hclean, hopen⟩ := hgood a ha
      simp only [hclean, hopen, Bool.or_self, Bool.false_eq_true, not_false_eq_true]
    · obtain ⟨a, ha, hbroken⟩ := hbad
      exact List.any_eq_true.mpr ⟨a, ha, Bool.or_eq_true_iff.mpr hbroken⟩
  case write =>
    intro s off data hend pa hfree hplain hopen
    exact (exec_bar4Write s ..).trans (execBar4Write_eq hend hfree hplain hopen)

end Sys2Proof.Machine
